-- ==== Sys2Proof/Word.lean ====
section
/-!
DEFINITION. The words the Cresdel 440 handles, and the two fixed-size families of records it keeps: one record per
node (or per unit), and one record per line of a node.
-/

namespace Sys2Proof

/-- A byte of the link, of a console, of a media block or of the settings memory. -/
abbrev Byte := BitVec 8

/-- The 16-bit identifier every link frame carries (R198). -/
abbrev Tag := BitVec 16

/-- A 32-bit quantity that wraps: console offsets (00 Conventions) and the 32-bit counters (R57, R76, R109, R187). -/
abbrev Word := BitVec 32

/-- A node, N0 to N3. -/
abbrev Node := Fin 4

/-- A media unit, U0 to U3. -/
abbrev UnitId := Fin 4

/-- A line of a node, L0 to L5. -/
abbrev LineId := Fin 6

/-- A page of the pool (R76). -/
abbrev PageId := Fin 256

/-- The level of a pin. The order is the spec's: HIGH, LOW (R1). -/
inductive Level where
  | high
  | low
  deriving DecidableEq, Repr

/-- One value for each of four nodes, or of four units. -/
structure Per4 (α : Type) where
  n0 : α
  n1 : α
  n2 : α
  n3 : α
  deriving DecidableEq, Repr

/-- One value for each of the six lines of a node, or of the six deadlines of a boot policy. -/
structure Per6 (α : Type) where
  l0 : α
  l1 : α
  l2 : α
  l3 : α
  l4 : α
  l5 : α
  deriving DecidableEq, Repr

/-- The four nodes (or units), in their order. -/
def allNodes : List Node := [0, 1, 2, 3]

/-- The six lines of a node, in their order. -/
def allLines : List LineId := [0, 1, 2, 3, 4, 5]

namespace Per4

variable {α β : Type}

/-- The same value for all four. -/
def all (a : α) : Per4 α := ⟨a, a, a, a⟩

/-- The value of one. -/
def get (x : Per4 α) : Node → α
  | 0 => x.n0
  | 1 => x.n1
  | 2 => x.n2
  | 3 => x.n3

/-- Replace the value of one. -/
def set (x : Per4 α) (i : Node) (a : α) : Per4 α :=
  match i with
  | 0 => { x with n0 := a }
  | 1 => { x with n1 := a }
  | 2 => { x with n2 := a }
  | 3 => { x with n3 := a }

/-- Change the value of one. -/
def modify (x : Per4 α) (i : Node) (f : α → α) : Per4 α := x.set i (f (x.get i))

/-- Apply a function to all four. -/
def map (f : α → β) (x : Per4 α) : Per4 β := ⟨f x.n0, f x.n1, f x.n2, f x.n3⟩

/-- Tabulate a function of the node. -/
def build (f : Node → α) : Per4 α := ⟨f 0, f 1, f 2, f 3⟩

/-- The four values in order. -/
def toList (x : Per4 α) : List α := [x.n0, x.n1, x.n2, x.n3]

end Per4

namespace Per6

variable {α β : Type}

/-- The same value for all six. -/
def all (a : α) : Per6 α := ⟨a, a, a, a, a, a⟩

/-- The value of one. -/
def get (x : Per6 α) : LineId → α
  | 0 => x.l0
  | 1 => x.l1
  | 2 => x.l2
  | 3 => x.l3
  | 4 => x.l4
  | 5 => x.l5

/-- Replace the value of one. -/
def set (x : Per6 α) (i : LineId) (a : α) : Per6 α :=
  match i with
  | 0 => { x with l0 := a }
  | 1 => { x with l1 := a }
  | 2 => { x with l2 := a }
  | 3 => { x with l3 := a }
  | 4 => { x with l4 := a }
  | 5 => { x with l5 := a }

/-- Change the value of one. -/
def modify (x : Per6 α) (i : LineId) (f : α → α) : Per6 α := x.set i (f (x.get i))

/-- Apply a function to all six. -/
def map (f : α → β) (x : Per6 α) : Per6 β := ⟨f x.l0, f x.l1, f x.l2, f x.l3, f x.l4, f x.l5⟩

/-- Tabulate a function of the line. -/
def build (f : LineId → α) : Per6 α := ⟨f 0, f 1, f 2, f 3, f 4, f 5⟩

/-- The six values in order. -/
def toList (x : Per6 α) : List α := [x.l0, x.l1, x.l2, x.l3, x.l4, x.l5]

end Per6

end Sys2Proof
end

