-- ==== Sys2Proof/Syntax.lean ====
section
/-!
DEFINITION. The commands of the Cresdel 440, one constructor per row of spec/opcode_table.json. The table gives the
rows no bits and no operands, so the operands are the model's: what the wires carry in that step (INVENTORY.md,
Instructions; log 34).
-/

namespace Sys2Proof

/-- How the settings bus behaves in a load (R192, check 1): after how many clocks of SCL SDA is high (0 where it is high as
the load starts), after how many microseconds of repeating the address byte is acknowledged, and after how many further
bytes (two of the memory address, the address byte of the read, then those of the image) one is not acknowledged; `none`
is never. -/
structure SettingsBus where
  sdaFreeAfter : Option Nat
  acknowledgedAfter : Option Nat
  lostAfter : Option Nat
  deriving DecidableEq, Repr

/-- A bus on which the memory answers at once and to the end. -/
def SettingsBus.answering : SettingsBus := { sdaFreeAfter := some 0, acknowledgedAfter := some 0, lostAfter := none }

/-- What a settings load meets (R192): the bus, and an image that was put into the memory by other means (R193), which it
then holds, or none where the memory holds what it held. -/
structure LoadRead where
  bus : SettingsBus
  image : Option (List Byte)
  deriving DecidableEq, Repr

/-- The memory answers with what it holds. -/
def LoadRead.asStored : LoadRead := { bus := .answering, image := none }

/-- The memory answers with an image that was put there by other means. -/
def LoadRead.asRead (image : List Byte) : LoadRead := { bus := .answering, image := some image }

/-- No device acknowledges. -/
def LoadRead.noDevice : LoadRead := { bus := { SettingsBus.answering with acknowledgedAfter := none }, image := none }

/-- A difference met by the read-back of a save (R196): the byte read at an address, and whether the memory itself
holds it (or only the read was at fault). -/
structure ReadFault where
  address : Nat
  value : Byte
  inMemory : Bool
  deriving DecidableEq, Repr

/-- The body of a POWER ACTION; `ahead` says that the request is taken before step 5 of R30 of a completion just made on
its node (log 40). -/
structure ActionBody where
  bytes : List Byte
  ahead : Bool
  deriving DecidableEq, Repr

/-- The body of a CONSOLE STATUS, and the level of the node's CTS pin in the step in which it arrives: what it reports if it
is taken in that step (R57, log 19). -/
structure ConsoleQuery where
  bytes : List Byte
  cts : Level
  deriving DecidableEq, Repr

/-- The body of a MEDIA PORT CONFIG; `midBlock` says that in the step in which it arrives the chip select of the node it
names is asserted and the command block of that transaction is still coming in (R128, log 53). -/
structure PortQuery where
  bytes : List Byte
  midBlock : Bool
  deriving DecidableEq, Repr

/-- What a request finds on the nodes' pins in the step in which it is taken: the level of each CTS pin, for a CONSOLE STATUS
(R57, log 19), and whether a command block is coming in at each port, for a MEDIA PORT CONFIG (R128, log 53). -/
structure NodePins where
  cts : Per4 Level
  midBlock : Per4 Bool
  deriving DecidableEq, Repr

/-- What ARBITER_CHOICE finds on the pins: the link's CTS (R184), and the nodes' pins, for a request that waited and is taken
in this step (R57, R128, R177, log 19, log 53). -/
structure ArbiterPins where
  cts : Level
  nodes : NodePins
  deriving DecidableEq, Repr

/-- The transaction number of a WRITE (R110); `together` says that the WRITE was presented together with the one that took
the write lock (R97, log 39). -/
structure WriteNumber where
  txn : Byte
  together : Bool
  deriving DecidableEq, Repr

/-- The commands. The comment of each constructor is its row's mnemonic and rule. -/
inductive Instr where
  -- host requests: a complete frame with a good CRC, its tag and its body (R177, R199)
  | identify (tag : Tag) (body : List Byte)            -- IDENTIFY, R186
  | linkConfig (tag : Tag) (body : List Byte)          -- LINK_CONFIG, R185
  | clear (tag : Tag) (body : List Byte)               -- CLEAR, R189
  | saveSettings (tag : Tag) (body : List Byte)        -- SAVE_SETTINGS, R195
  | linesConfig (tag : Tag) (body : List Byte)         -- LINES_CONFIG, R13
  | linesSet (tag : Tag) (body : List Byte)            -- LINES_SET, R14
  | linesRead (tag : Tag) (body : List Byte)           -- LINES_READ, R15
  | lineEventsClear (tag : Tag) (body : List Byte)     -- LINE_EVENTS_CLEAR, R16
  | powerAction (tag : Tag) (asked : ActionBody)         -- POWER_ACTION, R21
  | powerTimings (tag : Tag) (body : List Byte)        -- POWER_TIMINGS, R19
  | powerWatch (tag : Tag) (body : List Byte)          -- POWER_WATCH, R35
  | consoleConfig (tag : Tag) (body : List Byte)       -- CONSOLE_CONFIG, R41
  | consoleSend (tag : Tag) (body : List Byte)         -- CONSOLE_SEND, R54
  | consoleBreak (tag : Tag) (body : List Byte)        -- CONSOLE_BREAK, R55
  | consoleRead (tag : Tag) (body : List Byte)         -- CONSOLE_READ, R52
  | consoleForward (tag : Tag) (body : List Byte)      -- CONSOLE_FORWARD, R73
  | consoleStatus (tag : Tag) (asked : ConsoleQuery)     -- CONSOLE_STATUS, R57
  | poolConfig (tag : Tag) (body : List Byte)          -- POOL_CONFIG, R88
  | poolStatus (tag : Tag) (body : List Byte)          -- POOL_STATUS, R90
  | unitAttach (tag : Tag) (body : List Byte)          -- UNIT_ATTACH, R94
  | unitDetach (tag : Tag) (body : List Byte)          -- UNIT_DETACH, R98
  | unitStatus (tag : Tag) (body : List Byte)          -- UNIT_STATUS, R107
  | mediaPortConfig (tag : Tag) (asked : PortQuery)      -- MEDIA_PORT_CONFIG, R128
  | patternSet (tag : Tag) (body : List Byte)          -- PATTERN_SET, R154
  | bootPolicy (tag : Tag) (body : List Byte)          -- BOOT_POLICY, R158
  | bootRearm (tag : Tag) (body : List Byte)           -- BOOT_REARM, R170
  | bootStatus (tag : Tag) (body : List Byte)          -- BOOT_STATUS, R171
  | unknownKind (kind : Byte) (tag : Tag) (body : List Byte)   -- UNKNOWN_KIND, R177
  -- host answers
  | fill (tag : Tag) (lba : Word) (data : List Byte)   -- FILL, R137
  | fetchFailed (tag : Tag)                            -- FETCH_FAILED, R138
  | stored (tag : Tag)                                 -- STORED, R148
  | storeFailed (tag : Tag)                            -- STORE_FAILED, R149
  | malformedAnswer (kind : Byte) (tag : Tag) (body : List Byte)   -- MALFORMED_ANSWER, R182
  -- link receiver
  | crcError                                           -- CRC_ERROR, R175
  | truncatedFrame                                     -- TRUNCATED_FRAME, R175
  | escapeError (next : Byte)                          -- ESCAPE_ERROR, R175
  | lengthError (length : BitVec 16)                   -- LENGTH_ERROR, R175
  | byteFramingError                                   -- BYTE_FRAMING_ERROR, R175
  | overrun                                            -- OVERRUN, R176
  -- link transmitter; the level is that of the part's CTS input
  | arbiterChoice (pins : ArbiterPins)                 -- ARBITER_CHOICE, R184
  | frameSent                                          -- FRAME_SENT, R185
  -- lines and power; bit 6n+l of `pins` is the level of line Ll of node Nn, 1 for HIGH
  | sampleInstant (pins : BitVec 24)                   -- SAMPLE_INSTANT, R5
  | tPressEnd (n : Node)                               -- T_PRESS_END, R23
  | tOnEnd (n : Node)                                  -- T_ON_END, R23
  | tSoftEnd (n : Node)                                -- T_SOFT_END, R24
  | tHoldEnd (n : Node)                                -- T_HOLD_END, R26
  | tRestEnd (n : Node)                                -- T_REST_END, R27
  | tResetEnd (n : Node)                               -- T_RESET_END, R28
  | tDiagEnd (n : Node)                                -- T_DIAG_END, R29
  | powerWatchTimeout                                  -- POWER_WATCH_TIMEOUT, R36
  -- consoles; `parityBit` and `stopBit` are as sampled, true for high
  | characterReceived (n : Node) (data : Byte) (parityBit stopBit : Bool)   -- CHARACTER_RECEIVED, R43
  | breakRecognized (n : Node)                         -- BREAK_RECOGNIZED, R45
  | heldCharacterStored (n : Node)                     -- HELD_CHARACTER_STORED, R45
  | breakEnd (n : Node)                                -- BREAK_END, R45
  | transmitCharacterStart (n : Node) (cts : Level)    -- TRANSMIT_CHARACTER_START, R53
  | breakSent (n : Node)                               -- BREAK_SENT, R55
  | breakRecoveryEnd (n : Node)                        -- BREAK_RECOVERY_END, R55
  | windowEnd (n : Node)                               -- WINDOW_END, R66
  -- node media ports; `txn` is the transaction number of the command block (R110)
  | read (n : Node) (lba : Word) (count txn : Byte)    -- READ, R114
  | write (n : Node) (lba : Word) (count : Byte) (txn : WriteNumber)   -- WRITE, R118
  | take (n : Node) (txn : Byte)                       -- TAKE, R116
  | give (n : Node) (txn : Byte) (data : List Byte) (crc : BitVec 16)   -- GIVE, R119
  | status (n : Node) (txn : Byte)                     -- STATUS, R123
  | sense (n : Node) (txn : Byte)                      -- SENSE, R123
  | flush (n : Node) (txn : Byte)                      -- FLUSH, R122
  | ackChange (n : Node) (txn : Byte)                  -- ACK_CHANGE, R124
  | abort (n : Node) (txn : Byte)                      -- ABORT, R125
  | badCommand (n : Node) (block : List Byte)          -- BAD_COMMAND, R110
  | shortTransaction (n : Node)                        -- SHORT_TRANSACTION, R110
  | blockDelivered (n : Node)                          -- BLOCK_DELIVERED, R116
  | idleTimeout (n : Node)                             -- IDLE_TIMEOUT, R126
  -- cache and supervisor
  | fetchTimeout (entry : Fin 16)                      -- FETCH_TIMEOUT, R139
  | storeTimeout (entry : Fin 8)                       -- STORE_TIMEOUT, R149
  | agingTick                                          -- AGING_TICK, R151
  | deadline (n : Node)                                -- DEADLINE, R162
  -- reset, load and save; `taken` is the number of bytes of the phase's writes that the settings memory had taken when
  -- the save was cut short (R196)
  | partReset (taken : Nat)                            -- PART_RESET, R191
  | resetRelease                                       -- RESET_RELEASE, R192
  | loadEnd (pins : BitVec 24) (found : LoadRead)      -- LOAD_END, R194
  | invalidatingEnd                                    -- INVALIDATING_END, R196
  | writingEnd                                         -- WRITING_END, R196
  | sealingEnd                                         -- SEALING_END, R196
  | verifyingEnd (difference : Option ReadFault)       -- VERIFYING_END, R196
  | saveNoAck (address taken : Nat)                    -- SAVE_NO_ACK, R196
  -- the four rows the table lists last
  | frameStart                                         -- FRAME_START, R176
  | startBit (n : Node) (mid : Level)                  -- START_BIT, R43
  | transmitCharacterEnd (n : Node)                    -- TRANSMIT_CHARACTER_END, R55
  | giveCommandBlock (n : Node)                        -- GIVE_COMMAND_BLOCK, R126
  deriving DecidableEq, Repr

end Sys2Proof
end

