-- ==== Sys2Proof/Decode.lean ====
section
/-!
DEFINITION. The command that a word of spec/opcode_table.json spells. The table gives none of its rows any bits
(log 34), so no word spells a command.
-/

namespace Sys2Proof

/-- The command a word spells, for the rows that give bits: there are none. -/
def decodeTableWord (_nbits _w : Nat) : Option Instr := none

end Sys2Proof
end

