-- ==== Sys2Proof/Config.lean ====
section
/-!
DEFINITION. The values the spec leaves open. Each is an opaque constant: nothing can be proved of its value, and a
claim holds whatever it is.
-/

namespace Sys2Proof.Config

/-- The free choices of order (log 7): where the spec gives no order among several ports, nodes or replies served in
one step, the n-th choice the machine makes is read here. -/
opaque choice : Nat → Nat

/-- The one-byte argument that a BREAK_SENT mark carries on the link when its duration in ms does not fit a byte
(R49 gives the argument as 1..2000, R199 gives it one byte; log 12). -/
opaque markArgument : Nat → Byte

/-- The two-byte occurrence count that a notice carries when the occurrences do not fit two bytes (R179 lets the count
rise without a limit, R198 gives it two bytes; log 33). -/
opaque occurrenceField : Nat → BitVec 16

end Sys2Proof.Config
end

