-- ==== Sys2Proof/Machine/State.lean ====
section
/-!
DEFINITION. The state of the Cresdel 440: every register, queue, table, mode and pin record the spec gives its ten
blocks (INVENTORY.md, State), the queue of commands that wait, and the reset state. Plain data throughout.
-/

namespace Sys2Proof.Machine

/-! ## Line Control Unit (01) -/

/-- R1, R2: what a line is for. -/
inductive Role where
  | powerButton | reset | diag | bootSelect | generalOut | powerGood | generalIn | unused
  deriving DecidableEq, Repr

/-- R1: how an output pin is driven. -/
inductive Drive where
  | openDrain | pushPull
  deriving DecidableEq, Repr

/-- R1, R7, R8: what sets the event flag. -/
inductive Sense where
  | none | rising | falling | both | levelHigh | levelLow
  deriving DecidableEq, Repr

/-- R1, R10: who may change the driven state. -/
inductive Owner where
  | none | action (n : Node) | supervisor
  deriving DecidableEq, Repr

/-- R11: the power state of a node. -/
inductive PowerState where
  | on | off | unknown
  deriving DecidableEq, Repr

/-- R1: the record of one line. `driven` is true for ACTIVE, `flag` for set. -/
structure Line where
  role : Role
  drive : Drive
  active : Level
  sense : Sense
  notify : Bool
  driven : Bool
  level : Level
  last : Level
  flag : Bool
  owner : Owner
  deriving DecidableEq, Repr

/-- The Line Control Unit: 24 line records, the sample period and schedule (R4), and the power states (R11). -/
structure Lines where
  line : Per4 (Per6 Line)
  samplePeriod : Nat
  sinceSample : Nat
  power : Per4 PowerState
  deriving DecidableEq, Repr

/-! ## Power Sequencer (02) -/

/-- R18: the kinds of power action, in the order of R199. -/
inductive ActionKind where
  | powerOn | softOff | hardOff | cycle | reset | diag
  deriving DecidableEq, Repr

/-- R18: the phases of an action. -/
inductive ActionState where
  | pressing | waitingOn | waitingOff | holding | resting | resetPulse | diagPulse
  deriving DecidableEq, Repr

/-- R18: who started an action; the host's reply tag goes with it. -/
inductive Originator where
  | host (tag : Tag) | supervisor
  deriving DecidableEq, Repr

/-- R18: the recovery kinds. -/
inductive RecoveryKind where
  | reset | cycle
  deriving DecidableEq, Repr

/-- R19: the seven power timings, in the units of the request (press, reset and diag in ms, the others in s). -/
structure Timings where
  press : Nat
  on : Nat
  soft : Nat
  hold : Nat
  rest : Nat
  reset : Nat
  diag : Nat
  deriving DecidableEq, Repr

/-- R18: the record of a running action. `lostConfirmation` is R20's "a confirmed action that became unconfirmed". -/
structure Action where
  kind : ActionKind
  originator : Originator
  state : ActionState
  confirmed : Bool
  lostConfirmation : Bool
  escalate : Bool
  escalated : Bool
  timer : Nat
  timings : Timings
  held : Option LineId
  deriving DecidableEq, Repr

/-- R35: an expected power state. -/
inductive Expected where
  | on | off | unknown | any
  deriving DecidableEq, Repr

/-- R35, R36: the running power watch; `timeout` in s as applied, `remaining` in ms. -/
structure Watch where
  tag : Tag
  expected : Per4 Expected
  timeout : Nat
  remaining : Nat
  deriving DecidableEq, Repr

/-- The Power Sequencer. An action record of `none` is IDLE, a pending slot of `none` is empty. -/
structure Sequencer where
  timings : Per4 Timings
  action : Per4 (Option Action)
  slot : Per4 (Option RecoveryKind)
  watch : Option Watch
  deriving DecidableEq, Repr

/-! ## Console Engine (03, 04) -/

/-- R39: the parity bit, if any. -/
inductive Parity where
  | none | even | odd
  deriving DecidableEq, Repr

/-- R49: what a mark records, with its argument where there is one. -/
inductive MarkKind where
  | breakReceived
  | breakSent (duration : Nat)
  | powerOn
  | powerOff
  | resetPulse
  | stage (j : Nat)
  | fail (pattern : Option (Fin 16))
  | recovery (kind : RecoveryKind)
  | reconfig
  | clear
  deriving DecidableEq, Repr

/-- R49: a mark; `fail none` is the failure of a deadline. -/
structure Mark where
  offset : Word
  kind : MarkKind
  deriving DecidableEq, Repr

/-- R55: the steps of a break: waiting for the character in progress, TX held low, recovering. -/
inductive BreakPhase where
  | waiting | low | recovery
  deriving DecidableEq, Repr

/-- R39, R55: a break being sent. -/
structure Break where
  phase : BreakPhase
  duration : Nat
  remaining : Nat
  tag : Tag
  deriving DecidableEq, Repr

/-- R42 to R45: the receiver: idle; in a character whose start bit is confirmed; holding back an all-low character;
in a recognized break; waiting for a high line after a reconfiguration, which found no character in progress or one
that it discarded. -/
inductive Receiver where
  | idle | receiving | held | inBreak | waitHigh | discarding
  deriving DecidableEq, Repr

/-- R39, R60: the settings of a console. -/
structure ConsoleSettings where
  baud : Nat
  dataBits : Nat
  parity : Parity
  stopBits : Nat
  ctsUse : Bool
  window : Nat
  rise : Nat
  fall : Nat
  deriving DecidableEq, Repr

/-- R39, R60: the console record of a node. `cursor` is present exactly while forwarding is on; `sending` holds the
bits of the character in progress on TX, in the order they go out, true for high (R53). -/
structure Console where
  settings : ConsoleSettings
  pages : List PageId
  oldest : Word
  live : Word
  marks : List Mark
  fifo : List Byte
  sending : Option (List Bool)
  break_ : Option Break
  receiver : Receiver
  framingErrors : Word
  parityErrors : Word
  breaks : Word
  dropped : Word
  cursor : Option Word
  flood : Bool
  count : Nat
  windowRemaining : Nat
  skip : Word
  cts : Level
  deriving DecidableEq, Repr

/-! ## Page Pool (05) -/

/-- R76: the eight holders: the console holder of a node, the cache holder of a unit. -/
inductive Holder where
  | ch (n : Node) | mh (u : UnitId)
  deriving DecidableEq, Repr, Fintype

/-- R76: the record of a holder. The held count is the number of pages it owns (`State.held`), and the flood state
is the console's (`Console.flood`). -/
structure HolderRecord where
  reservation : Nat
  share : Nat
  reclaimedFrom : Word
  reclaimedBy : Word
  selfRecycles : Word
  failures : Word
  deriving DecidableEq, Repr

/-- R76, R77: the page owner table, the holder records and the aging tick. -/
structure Pool where
  owners : Vector (Option Holder) 256
  consoles : Per4 HolderRecord
  caches : Per4 HolderRecord
  agingTick : Nat
  deriving DecidableEq, Repr

/-! ## Media Unit Table (06) -/

/-- R93: the states of a unit. -/
inductive UnitState where
  | detached | attached | draining | storeFault
  deriving DecidableEq, Repr

/-- R93: who may write. -/
inductive Mode where
  | readOnly | exclusive | firstWriter
  deriving DecidableEq, Repr

/-- R106: the causes of a UNIT STATE notice. -/
inductive UnitCause where
  | storeFault | drained | fetchTimeout
  deriving DecidableEq, Repr

/-- R93: the record of a unit. `nodes` is the node set; `stored` counts the pages stored during a drain (R101). A
DETACHED unit has no capacity, mode, node set, writer or parameters: the model holds them at 0, READ_ONLY, empty and
absent (log 13). -/
structure MediaUnit where
  state : UnitState
  capacity : Nat
  mode : Mode
  nodes : Per4 Bool
  writer : Option Node
  timeout : Nat
  window : Nat
  dirtyLimit : Nat
  consecutive : Nat
  storeFailures : Word
  fetchFailures : Word
  fetchTimeouts : Word
  detachTag : Option Tag
  stored : Nat
  deriving DecidableEq, Repr

/-! ## Node Media Ports (07) -/

/-- R109: the commands that stay active. -/
inductive CommandKind where
  | read | write | flush
  deriving DecidableEq, Repr

/-- R109: what a port waits on. -/
inductive Wait where
  | none | page | entry | cache
  deriving DecidableEq, Repr

/-- R109: the states of a port. -/
inductive PortState where
  | idle | reading | writing | writeHeld | flushing
  deriving DecidableEq, Repr

/-- R111, R200: transaction results and last statuses, in their one code space. -/
inductive Status where
  | good | notReady | badCommand | busy | unitAttention | notPresent | writeProtected | writeFault
  | endOfMedium | dataCrc | overrun | noCommand | none | aborted | timeout | mediumError
  deriving DecidableEq, Repr

/-- R109: the active command of a port. -/
structure ActiveCommand where
  kind : CommandKind
  first : Nat
  count : Nat
  effective : Nat
  done : Nat
  deriving DecidableEq, Repr

/-- R109: an occupied staging slot. -/
structure Slot where
  lba : Nat
  data : List Byte
  deriving DecidableEq, Repr

/-- R112, R116: the block a TAKE is clocking out; `live` while its command is still the active one. -/
structure Taking where
  lba : Nat
  live : Bool
  deriving DecidableEq, Repr

/-- R109: the record of a port. `response` holds what MISO carries in its latest transaction, from the first byte of the
command block (R110, R200), and `clocking` the SPI mode of that transaction, which is the one in force when its chip select
was asserted (R128). `opening` holds that mode while the command block of a transaction is still coming in and MEDIA PORT
CONFIG has changed the setting since (log 53). -/
structure Port where
  spiMode : Nat
  idleTimeout : Nat
  active : Option ActiveCommand
  slots : List Slot
  receiveBuffer : List Byte
  wait : Wait
  attention : Bool
  lastStatus : Status
  lastCount : Nat
  sequential : Option Nat
  idleTimer : Option Nat
  shortTransactions : Word
  badCommands : Word
  dataCrcErrors : Word
  taking : Option Taking
  response : List Byte
  clocking : Nat
  opening : Option Nat
  deriving DecidableEq, Repr

/-! ## Cache and Fetch Engine (08) -/

/-- R130: what a cache page holds. -/
inductive PageState where
  | filling | clean | dirty | storing
  deriving DecidableEq, Repr

/-- R130: a directory record, with the page it describes. -/
structure DirRecord where
  page : PageId
  unit : UnitId
  lba : Nat
  state : PageState
  age : Nat
  redirtied : Bool
  deriving DecidableEq, Repr

/-- R135: the state of a block of a fetch entry. -/
inductive BlockState where
  | waiting | received | overtaken
  deriving DecidableEq, Repr

/-- R135: an outstanding fetch. -/
structure Fetch where
  unit : UnitId
  first : Nat
  blocks : List BlockState
  created : Nat
  deriving DecidableEq, Repr

/-- R147: an outstanding store. -/
structure Store where
  unit : UnitId
  lba : Nat
  page : PageId
  created : Nat
  deriving DecidableEq, Repr

/-- R135: an entry of the fetch table. -/
structure FetchEntry where
  generation : Byte
  busy : Option Fetch
  deriving DecidableEq, Repr

/-- R147: an entry of the store table. -/
structure StoreEntry where
  generation : Byte
  busy : Option Store
  deriving DecidableEq, Repr

/-- R146: a page in a dirty order, with the moment it joined. -/
structure DirtyPage where
  page : PageId
  moment : Nat
  deriving DecidableEq, Repr

/-- The Cache and Fetch Engine. -/
structure Cache where
  directory : List DirRecord
  fetches : Vector FetchEntry 16
  stores : Vector StoreEntry 8
  dirty : Per4 (List DirtyPage)
  entryWait : List Node
  joins : Nat
  agingRemaining : Nat
  deriving DecidableEq, Repr

/-! ## Boot Supervisor (09) -/

/-- R153: an entry of the pattern table; `isFail` is kind FAIL. -/
structure Pattern where
  enabled : Bool
  nodes : Per4 Bool
  literal : List Byte
  isFail : Bool
  stage : Nat
  deriving DecidableEq, Repr

/-- R158: what a failure does. -/
inductive RecoveryPolicy where
  | notify | reset | cycle
  deriving DecidableEq, Repr

/-- R158: the boot policy of a node; deadlines in s. -/
structure Policy where
  deadlines : Per6 Nat
  final : Nat
  recovery : RecoveryPolicy
  limit : Nat
  fallbackFrom : Nat
  deriving DecidableEq, Repr

/-- R159: the supervisor's states, WATCHING with its stage and RECOVERING with its phase. -/
inductive SupState where
  | idle
  | watching (k : Nat)
  | complete
  | recovering (running : Bool)
  | halted
  deriving DecidableEq, Repr

/-- R159: the cause of a failure. -/
inductive Cause where
  | pattern (i : Fin 16)
  | deadline
  deriving DecidableEq, Repr

/-- R159: the supervisor record of a node; the deadline in ms, `none` when stopped. -/
structure Supervisor where
  state : SupState
  deadline : Option Nat
  attempts : Nat
  fallback : Bool
  lastFailure : Option Cause
  deriving DecidableEq, Repr

/-- The Boot Supervisor. -/
structure Boot where
  patterns : Vector Pattern 16
  policy : Per4 Policy
  supervisor : Per4 Supervisor
  partials : Per4 (Vector Nat 16)
  deriving DecidableEq, Repr

/-! ## Management Link (10) -/

/-- R178: a reply: its request's tag and its body (request kind, result, details). `rate` is the requested baud that
a LINK CONFIG reply carries with it (R185). -/
structure Reply where
  tag : Tag
  body : List Byte
  rate : Option Nat
  deriving DecidableEq, Repr

/-- R172: the events of a RECOVERY notice, with what each carries. -/
inductive RecoveryEvent where
  | started | notified | limitReached | actionTimeout | refused | cancelled (by_ : ActionKind) | preempted
  deriving DecidableEq, Repr

/-- R187: the link counters. -/
structure LinkCounters where
  crc : Word
  length : Word
  escape : Word
  truncated : Word
  framing : Word
  overruns : Word
  malformed : Word
  stray : Word
  deriving DecidableEq, Repr

/-- R179 and the rules it names: a notice and its content. -/
inductive Notice where
  | start (result cause : Nat) (poolDefaulted : Bool)
  | lineEvent (n : Node) (lines : Per6 Bool)
  | powerState (n : Node) (p : PowerState)
  | consoleGap (n : Node) (skipped cursor : Word)
  | flood (n : Node) (on : Bool) (skipped : Word)
  | unitState (u : UnitId) (state : UnitState) (cause : UnitCause) (fetchTimeouts : Word) (consecutive : Nat)
  | bootProgress (n : Node) (state : SupState) (attempts : Nat) (fallback : Bool)
  | recovery (n : Node) (event : RecoveryEvent) (kind : Option RecoveryKind) (attempts : Nat)
      (cause : Option Cause) (driven : Bool)
  | strayAnswer (count : Word)
  | linkError (counters : LinkCounters)
  deriving DecidableEq, Repr

/-- R179, R180: an entry of the notice queue. -/
structure NoticeEntry where
  notice : Notice
  lostBefore : Nat
  occurrences : Nat
  deriving DecidableEq, Repr

/-- R181: an unsent call, by the table entry it belongs to. -/
inductive Call where
  | fetch (i : Fin 16) | store (i : Fin 8)
  deriving DecidableEq, Repr

/-- R176, R177: a complete frame in an inbound buffer. -/
structure InFrame where
  buffer : Fin 4
  kind : Byte
  tag : Tag
  body : List Byte
  deriving DecidableEq, Repr

/-- R174, R185: what the end of an outbound frame brings about. -/
inductive SentEffect where
  | none | start | rate (baud : Nat)
  deriving DecidableEq, Repr

/-- R184: the frame on the wire, stuffed, from its start byte. -/
structure Sending where
  wire : List Byte
  effect : SentEffect
  deriving DecidableEq, Repr

/-- The Management Link Interface. `receiver` is `none` while hunting, else the buffer of the frame in progress. -/
structure Link where
  baud : Nat
  ratio : Nat
  lineBaud : Nat
  receiver : Option (Fin 4)
  inbox : List InFrame
  replies : List Reply
  waiting : List Reply
  notices : List NoticeEntry
  lost : Nat
  calls : List Call
  runCount : Nat
  lastServed : Node
  counters : LinkCounters
  sending : Option Sending
  rtsOn : Bool
  cts : Level
  deriving DecidableEq, Repr

/-! ## Settings Loader (11) -/

/-- R191: the outcome of a load. -/
inductive LoadResult where
  | stored | blank | corrupt | noDevice
  deriving DecidableEq, Repr

/-- R191: for CORRUPT, which check failed. -/
inductive LoadCause where
  | none | length | revision | crc | content
  deriving DecidableEq, Repr

/-- R191, R196: the phase of a save. -/
inductive SaveState where
  | idle | invalidating | writing | sealing | verifying
  deriving DecidableEq, Repr

/-- R191: the loader's record, and the settings memory on its bus (log 15). -/
structure Loader where
  result : LoadResult
  cause : LoadCause
  poolDefaulted : Bool
  save : SaveState
  snapshot : Option (List Byte)
  saveTag : Option Tag
  eeprom : List Host.Cell
  deriving DecidableEq, Repr

/-- R191, R192, R194: whether the part is held in reset, loading its settings, or running. -/
inductive Phase where
  | inReset | loading | running
  deriving DecidableEq, Repr

/-! ## The whole -/

/-- The machine's state. -/
structure State where
  pending : List Instr
  phase : Phase
  now : Nat
  choices : Nat
  lines : Lines
  power : Sequencer
  consoles : Per4 Console
  ram : List Host.Cell
  pool : Pool
  units : Per4 MediaUnit
  ports : Per4 Port
  cache : Cache
  boot : Boot
  link : Link
  loader : Loader
  deriving DecidableEq, Repr

/-- Why the machine stops. -/
inductive Fault where
  /-- Raised by the meanings of commands whose operands no wire can carry (`Instr.wellFormed` is false: a FILL or a
  GIVE whose data is not 512 bytes, a frame body above 600 bytes, an address outside the settings image). SAFE: the
  hardware is never in that step (log 28). -/
  | illFormedCommand
  deriving DecidableEq, Repr

/-- Why a command has no meaning. -/
inductive Refusal where
  /-- Raised by `exec` for a command whose meaning is not written yet; no arm raises it now. SAFE: the model stops. -/
  | notModelled (mnemonic : String)
  deriving DecidableEq, Repr

/-! ## Reset -/

/-- R6, R17: a line of the default settings, before anything is recognized. -/
def defaultLine : Line :=
  { role := .unused, drive := .openDrain, active := .low, sense := .none, notify := false, driven := false,
    level := .low, last := .low, flag := false, owner := .none }

/-- R19: the default power timings. -/
def defaultTimings : Timings :=
  { press := 200, on := 10, soft := 60, hold := 6, rest := 5, reset := 100, diag := 50 }

/-- R39, R60: the default console settings. -/
def defaultConsole : ConsoleSettings :=
  { baud := 115200, dataBits := 8, parity := .none, stopBits := 1, ctsUse := false, window := 100, rise := 50,
    fall := 20 }

/-- R58, R75, R91: a console at part reset, with the two pages the pool gives it. -/
def resetConsole (first second : PageId) : Console :=
  { settings := defaultConsole, pages := [first, second], oldest := 0, live := 0, marks := [], fifo := [],
    sending := none, break_ := none, receiver := .idle, framingErrors := 0, parityErrors := 0, breaks := 0,
    dropped := 0, cursor := none, flood := false, count := 0, windowRemaining := 0, skip := 0, cts := .high }

/-- R77, R91: a holder at part reset with its default settings. -/
def resetHolder (reservation share : Nat) : HolderRecord :=
  { reservation := reservation, share := share, reclaimedFrom := 0, reclaimedBy := 0, selfRecycles := 0,
    failures := 0 }

/-- R91: the owner table at part reset: pages 2n and 2n+1 to CHn, the others free. -/
def resetOwners : Vector (Option Holder) 256 :=
  ⟨⟨[some (.ch 0), some (.ch 0), some (.ch 1), some (.ch 1), some (.ch 2), some (.ch 2), some (.ch 3), some (.ch 3)]
    ++ List.replicate 248 none⟩, by
      simp only [List.size_toArray, List.length_append, List.length_replicate, List.length_cons, List.length_nil]⟩

/-- R93, R108: a unit at part reset. -/
def resetUnit : MediaUnit :=
  { state := .detached, capacity := 0, mode := .readOnly, nodes := Per4.all false, writer := none, timeout := 0,
    window := 0, dirtyLimit := 0, consecutive := 0, storeFailures := 0, fetchFailures := 0, fetchTimeouts := 0,
    detachTag := none, stored := 0 }

/-- R109, R129: a port at part reset. -/
def resetPort : Port :=
  { spiMode := 0, idleTimeout := 2000, active := none, slots := [], receiveBuffer := [], wait := .none,
    attention := false, lastStatus := .none, lastCount := 0, sequential := none, idleTimer := none,
    shortTransactions := 0, badCommands := 0, dataCrcErrors := 0, taking := none, response := [], clocking := 0,
    opening := none }

/-- R152: the engine at part reset. -/
def resetCache : Cache :=
  { directory := [], fetches := Vector.replicate 16 { generation := 0, busy := none },
    stores := Vector.replicate 8 { generation := 0, busy := none }, dirty := Per4.all [], entryWait := [], joins := 0,
    agingRemaining := 0 }

/-- R153: a pattern entry of the default settings. -/
def defaultPattern : Pattern :=
  { enabled := false, nodes := Per4.all false, literal := [0x00#8], isFail := false, stage := 1 }

/-- R158: the default boot policy. -/
def defaultPolicy : Policy :=
  { deadlines := Per6.all 0, final := 6, recovery := .notify, limit := 3, fallbackFrom := 0 }

/-- R173: a supervisor at part reset. -/
def resetSupervisor : Supervisor :=
  { state := .idle, deadline := none, attempts := 0, fallback := false, lastFailure := none }

/-- R187, R190: the link counters at part reset. -/
def zeroCounters : LinkCounters :=
  { crc := 0, length := 0, escape := 0, truncated := 0, framing := 0, overruns := 0, malformed := 0, stray := 0 }

/-- R174, R190: the link at part reset. -/
def resetLink : Link :=
  { baud := 115200, ratio := 4, lineBaud := 115200, receiver := none, inbox := [], replies := [], waiting := [],
    notices := [], lost := 0, calls := [], runCount := 0, lastServed := 3, counters := zeroCounters, sending := none,
    rtsOn := false, cts := .high }

/-- R191: the loader before any load, with an erased settings memory (log 15, log 18). -/
def resetLoader : Loader :=
  { result := .blank, cause := .none, poolDefaulted := false, save := .idle, snapshot := none, saveTag := none,
    eeprom := [] }

/-- The machine right after part reset: held in reset, every block in its part-reset state (R17, R38, R58, R75, R91,
R108, R129, R152, R173, R190, R191). Settings stand at their defaults until a load ends (log 13). -/
def State.reset : State :=
  { pending := []
    phase := .inReset
    now := 0
    choices := 0
    lines := { line := Per4.all (Per6.all defaultLine), samplePeriod := 4, sinceSample := 0, power := Per4.all .unknown }
    power := { timings := Per4.all defaultTimings, action := Per4.all none, slot := Per4.all none, watch := none }
    consoles := ⟨resetConsole 0 1, resetConsole 2 3, resetConsole 4 5, resetConsole 6 7⟩
    ram := []
    pool := { owners := resetOwners, consoles := Per4.all (resetHolder 4 2), caches := Per4.all (resetHolder 8 4),
              agingTick := 10 }
    units := Per4.all resetUnit
    ports := Per4.all resetPort
    cache := resetCache
    boot := { patterns := Vector.replicate 16 defaultPattern, policy := Per4.all defaultPolicy,
              supervisor := Per4.all resetSupervisor, partials := Per4.all (Vector.replicate 16 0) }
    link := resetLink
    loader := resetLoader }

end Sys2Proof.Machine
end

