-- ==== Sys2Proof/WellFormed.lean ====
section
/-!
DEFINITION. Which commands describe something the wires can carry. A command that does not is ill-formed and the
machine faults on it (log 28); every other command runs.
-/

namespace Sys2Proof

/-- The longest body of a link frame (R175: a length field above 600 is a length error). -/
def maxBody : Nat := 600

/-- The size of a media block and of a pool page (00 Conventions, Sizes). -/
def blockSize : Nat := 512

/-- The size of the settings image in the settings memory (R201). -/
def imageSize : Nat := 794

/-- A frame body the link can carry. -/
def bodyFits (body : List Byte) : Bool := body.length ≤ maxBody

/-- The kinds of the requests (R198). -/
def isRequestKind (kind : Byte) : Bool :=
  kind ∈ [0x01#8, 0x02#8, 0x03#8, 0x04#8, 0x10#8, 0x11#8, 0x12#8, 0x13#8, 0x20#8, 0x21#8, 0x22#8,
    0x30#8, 0x31#8, 0x32#8, 0x33#8, 0x34#8, 0x35#8, 0x40#8, 0x41#8, 0x50#8, 0x51#8, 0x52#8, 0x53#8,
    0x60#8, 0x61#8, 0x62#8, 0x63#8]

/-- The kinds of the answers (R198). -/
def isAnswerKind (kind : Byte) : Bool := kind ∈ [0x70#8, 0x71#8, 0x72#8, 0x73#8]

/-- The body length of a well-formed answer (R182, R199): 516 for FILL, empty for the others. -/
def answerLength (kind : Byte) : Nat := if kind = 0x70#8 then 516 else 0

/-- The operands of a command describe something the wires can carry. -/
def Instr.wellFormed : Instr → Bool
  | .identify _ body | .linkConfig _ body | .clear _ body | .saveSettings _ body | .linesConfig _ body
  | .linesSet _ body | .linesRead _ body | .lineEventsClear _ body | .powerAction _ ⟨body, _⟩ | .powerTimings _ body
  | .powerWatch _ body | .consoleConfig _ body | .consoleSend _ body | .consoleBreak _ body | .consoleRead _ body
  | .consoleForward _ body | .consoleStatus _ ⟨body, _⟩ | .poolConfig _ body | .poolStatus _ body | .unitAttach _ body
  | .unitDetach _ body | .unitStatus _ body | .mediaPortConfig _ ⟨body, _⟩ | .patternSet _ body | .bootPolicy _ body
  | .bootRearm _ body | .bootStatus _ body => bodyFits body
  | .unknownKind kind _ body => bodyFits body && !isRequestKind kind && !isAnswerKind kind
  | .fill _ _ data => data.length == blockSize
  | .malformedAnswer kind _ body => bodyFits body && isAnswerKind kind && body.length != answerLength kind
  | .escapeError next => next != 0x85#8 && next != 0x86#8 && next != 0xA5#8
  | .lengthError length => maxBody < length.toNat
  | .give _ _ data _ => data.length == blockSize
  | .badCommand _ block => block.length == 8
  | .loadEnd _ found => found.image.all fun image => image.length == imageSize
  | .verifyingEnd (some d) => d.address < imageSize
  | .verifyingEnd none => true
  | .saveNoAck address _ => address < imageSize
  | .fetchFailed _ | .stored _ | .storeFailed _ | .crcError | .truncatedFrame | .byteFramingError | .overrun
  | .arbiterChoice _ | .frameSent | .sampleInstant _ | .tPressEnd _ | .tOnEnd _ | .tSoftEnd _ | .tHoldEnd _
  | .tRestEnd _ | .tResetEnd _ | .tDiagEnd _ | .powerWatchTimeout | .characterReceived _ _ _ _ | .breakRecognized _
  | .heldCharacterStored _ | .breakEnd _ | .transmitCharacterStart _ _ | .breakSent _ | .breakRecoveryEnd _
  | .windowEnd _ | .read _ _ _ _ | .write _ _ _ _ | .take _ _ | .status _ _ | .sense _ _ | .flush _ _
  | .ackChange _ _ | .abort _ _ | .shortTransaction _ | .blockDelivered _ | .idleTimeout _ | .fetchTimeout _
  | .storeTimeout _ | .agingTick | .deadline _ | .partReset _ | .resetRelease | .invalidatingEnd | .writingEnd
  | .sealingEnd | .frameStart | .startBit _ _ | .transmitCharacterEnd _ | .giveCommandBlock _ => true

end Sys2Proof
end

