-- ==== Sys2Proof/Machine/Operands.lean ====
section
/-!
DEFINITION. How operands and results are coded in bytes: big-endian fields, named lists coded by position (R198), the
widths of R199, the checksums of R110 and R175, byte stuffing and the frames that received bytes make (R175), the command,
status and sense records of R200, and the clamping of settings (00 Conventions).
-/

namespace Sys2Proof.Machine

/-! ## Numbers -/

/-- A number as one byte. -/
def be8 (n : Nat) : List Byte := [BitVec.ofNat 8 n]

/-- A number as two bytes, most significant first (R198). -/
def be16 (n : Nat) : List Byte := [BitVec.ofNat 8 (n / 256), BitVec.ofNat 8 n]

/-- A number as four bytes, most significant first (R198). -/
def be32 (n : Nat) : List Byte :=
  [BitVec.ofNat 8 (n / 16777216), BitVec.ofNat 8 (n / 65536), BitVec.ofNat 8 (n / 256), BitVec.ofNat 8 n]

/-- A 32-bit word as four bytes. -/
def word32 (w : Word) : List Byte := be32 w.toNat

/-- Two bytes read as a number, most significant first. -/
def u16 (a b : Byte) : Nat := a.toNat * 256 + b.toNat

/-- Four bytes read as a number, most significant first. -/
def u32 (a b c d : Byte) : Nat := ((a.toNat * 256 + b.toNat) * 256 + c.toNat) * 256 + d.toNat

/-- Clamping into a range (00 Conventions): the nearest end. -/
def clamp (lo hi x : Nat) : Nat := if x < lo then lo else if hi < x then hi else x

/-- Clamping where 0 keeps the present value. -/
def clampOrKeep (lo hi present x : Nat) : Nat := if x = 0 then present else clamp lo hi x

/-- A division rounded half up. -/
def roundHalfUp (a b : Nat) : Nat := (2 * a + b) / (2 * b)

/-- A flag as a byte: 1 when set. -/
def flagByte (b : Bool) : Byte := if b then 1#8 else 0#8

/-- A node or unit number, where the byte names one. -/
def node? (b : Byte) : Option Node := if h : b.toNat < 4 then some ⟨b.toNat, h⟩ else none

/-- A flag, where the byte is 0 or 1 (a list of two values, R198). -/
def flag? (b : Byte) : Option Bool := if b = 0#8 then some false else if b = 1#8 then some true else none

/-- A mask over the nodes, bit n for Nn, where no other bit is set. -/
def nodeMask? (b : Byte) : Option (Per4 Bool) :=
  if b.toNat < 16 then some (Per4.build fun n => b.getLsbD n.val) else none

/-- A mask over the lines, bit n for Ln, where no other bit is set. -/
def lineMask? (b : Byte) : Option (Per6 Bool) :=
  if b.toNat < 64 then some (Per6.build fun l => b.getLsbD l.val) else none

/-- The byte of a mask over the nodes. -/
def nodeMaskByte (m : Per4 Bool) : Byte :=
  BitVec.ofNat 8 (m.n0.toNat + 2 * m.n1.toNat + 4 * m.n2.toNat + 8 * m.n3.toNat)

/-- The byte of a mask over the lines. -/
def lineMaskByte (m : Per6 Bool) : Byte :=
  BitVec.ofNat 8 (m.l0.toNat + 2 * m.l1.toNat + 4 * m.l2.toNat + 8 * m.l3.toNat + 16 * m.l4.toNat + 32 * m.l5.toNat)

/-- A value that may be absent: one byte that says whether it is there, then its place, which holds 0 when it is not
(R199). -/
def optional (width : Nat) (v : Option (List Byte)) : List Byte :=
  match v with
  | some bytes => 1#8 :: bytes
  | none => 0#8 :: List.replicate width 0#8

/-! ## Named lists, coded by position (R198) -/

/-- R1: the position of a role. -/
def roleCode : Role → Nat
  | .powerButton => 0 | .reset => 1 | .diag => 2 | .bootSelect => 3 | .generalOut => 4 | .powerGood => 5
  | .generalIn => 6 | .unused => 7

/-- R1: the role of a code. -/
def role? (b : Byte) : Option Role :=
  match b.toNat with
  | 0 => some .powerButton | 1 => some .reset | 2 => some .diag | 3 => some .bootSelect | 4 => some .generalOut
  | 5 => some .powerGood | 6 => some .generalIn | 7 => some .unused | _ => none

/-- R1: the position of a drive. -/
def driveCode : Drive → Nat
  | .openDrain => 0 | .pushPull => 1

/-- R1: the drive of a code. -/
def drive? (b : Byte) : Option Drive :=
  match b.toNat with
  | 0 => some .openDrain | 1 => some .pushPull | _ => none

/-- R1: the position of a level in the list HIGH, LOW. -/
def levelCode : Level → Nat
  | .high => 0 | .low => 1

/-- R1: the level of a code. -/
def level? (b : Byte) : Option Level :=
  match b.toNat with
  | 0 => some .high | 1 => some .low | _ => none

/-- R1: the position of a sense. -/
def senseCode : Sense → Nat
  | .none => 0 | .rising => 1 | .falling => 2 | .both => 3 | .levelHigh => 4 | .levelLow => 5

/-- R1: the sense of a code. -/
def sense? (b : Byte) : Option Sense :=
  match b.toNat with
  | 0 => some .none | 1 => some .rising | 2 => some .falling | 3 => some .both | 4 => some .levelHigh
  | 5 => some .levelLow | _ => none

/-- R1: the position of a driven state in the list ACTIVE, INACTIVE. -/
def drivenCode (driven : Bool) : Nat := if driven then 0 else 1

/-- R1, R15: the position of an owner. -/
def ownerCode : Owner → Nat
  | .none => 0 | .action _ => 1 | .supervisor => 2

/-- R11, R199: the position of a power state. -/
def powerCode : PowerState → Nat
  | .on => 0 | .off => 1 | .unknown => 2

/-- R199: the position of an action kind. -/
def actionKindCode : ActionKind → Nat
  | .powerOn => 0 | .softOff => 1 | .hardOff => 2 | .cycle => 3 | .reset => 4 | .diag => 5

/-- R199: the action kind of a code. -/
def actionKind? (b : Byte) : Option ActionKind :=
  match b.toNat with
  | 0 => some .powerOn | 1 => some .softOff | 2 => some .hardOff | 3 => some .cycle | 4 => some .reset
  | 5 => some .diag | _ => none

/-- R18: the position of an action state. -/
def actionStateCode : ActionState → Nat
  | .pressing => 0 | .waitingOn => 1 | .waitingOff => 2 | .holding => 3 | .resting => 4 | .resetPulse => 5
  | .diagPulse => 6

/-- R18: the position of an originator. -/
def originatorCode : Originator → Nat
  | .host _ => 0 | .supervisor => 1

/-- The action kind of a recovery kind (R33). -/
def recoveryAction : RecoveryKind → ActionKind
  | .reset => .reset | .cycle => .cycle

/-- R158, R198, R199: the code of a pending recovery: the position of its kind in the list NOTIFY, RESET, CYCLE, not in R18's
list of the two kinds a slot holds, nor the code of its action (log 32). -/
def recoveryCode : RecoveryKind → Nat
  | .reset => 1 | .cycle => 2

/-- R158, R199: the position of a policy's recovery kind. -/
def policyRecoveryCode : RecoveryPolicy → Nat
  | .notify => 0 | .reset => 1 | .cycle => 2

/-- R158, R199: the recovery kind of a code. -/
def policyRecovery? (b : Byte) : Option RecoveryPolicy :=
  match b.toNat with
  | 0 => some .notify | 1 => some .reset | 2 => some .cycle | _ => none

/-- R199: the expected state of a code. -/
def expected? (b : Byte) : Option Expected :=
  match b.toNat with
  | 0 => some .on | 1 => some .off | 2 => some .unknown | 3 => some .any | _ => none

/-- R39: the position of a parity. -/
def parityCode : Parity → Nat
  | .none => 0 | .even => 1 | .odd => 2

/-- R39: the parity of a code. -/
def parity? (b : Byte) : Option Parity :=
  match b.toNat with
  | 0 => some .none | 1 => some .even | 2 => some .odd | _ => none

/-- R76: the position of an owner of a page in R76's list: free 0, CHn 1 + n, MHk 5 + k (log 11). -/
def holderCode : Option Holder → Nat
  | none => 0
  | some (.ch n) => 1 + n.val
  | some (.mh u) => 5 + u.val

/-- R93: the position of a unit's state. -/
def unitStateCode : UnitState → Nat
  | .detached => 0 | .attached => 1 | .draining => 2 | .storeFault => 3

/-- R93, R199: the position of a mode. -/
def modeCode : Mode → Nat
  | .readOnly => 0 | .exclusive => 1 | .firstWriter => 2

/-- R93, R199: the mode of a code. -/
def mode? (b : Byte) : Option Mode :=
  match b.toNat with
  | 0 => some .readOnly | 1 => some .exclusive | 2 => some .firstWriter | _ => none

/-- R106: the position of a cause. -/
def unitCauseCode : UnitCause → Nat
  | .storeFault => 0 | .drained => 1 | .fetchTimeout => 2

/-- R109: the position of a command kind in the list READ, WRITE, FLUSH (log 32). -/
def commandKindCode : CommandKind → Nat
  | .read => 0 | .write => 1 | .flush => 2

/-- R109: the position of a wait. -/
def waitCode : Wait → Nat
  | .none => 0 | .page => 1 | .entry => 2 | .cache => 3

/-- R200: the code of a port state. -/
def portStateCode : PortState → Nat
  | .idle => 0 | .reading => 1 | .writing => 2 | .writeHeld => 3 | .flushing => 4

/-- R200: the code of a transaction result or last status. -/
def statusCode : Status → Nat
  | .good => 0x00 | .notReady => 0x01 | .badCommand => 0x02 | .busy => 0x03 | .unitAttention => 0x04
  | .notPresent => 0x05 | .writeProtected => 0x06 | .writeFault => 0x07 | .endOfMedium => 0x08 | .dataCrc => 0x09
  | .overrun => 0x0A | .noCommand => 0x0B | .none => 0x0C | .aborted => 0x0D | .timeout => 0x0E
  | .mediumError => 0x0F

/-- R159: the position of a supervisor state. -/
def supStateCode : SupState → Nat
  | .idle => 0 | .watching _ => 1 | .complete => 2 | .recovering _ => 3 | .halted => 4

/-- R191: the position of a load result. -/
def loadResultCode : LoadResult → Nat
  | .stored => 0 | .blank => 1 | .corrupt => 2 | .noDevice => 3

/-- R191: the position of a load cause. -/
def loadCauseCode : LoadCause → Nat
  | .none => 0 | .length => 1 | .revision => 2 | .crc => 3 | .content => 4

/-- R191: the position of a save state. -/
def saveStateCode : SaveState → Nat
  | .idle => 0 | .invalidating => 1 | .writing => 2 | .sealing => 3 | .verifying => 4

/-- R198: the result codes of replies. -/
inductive Result where
  | done | already | busy | badRequest | unknownKind | duplicateRole | linesHeld | nodeOff | noLine | unitBusy
  | nodeHasUnit | poolOvercommit | poolInUse | unitFaulted | saveFailed | cleared | forced | timeout
  | doneUnconfirmed | preempted | changed | superseded
  deriving DecidableEq, Repr

/-- R198: the code of a result. -/
def resultCode : Result → Nat
  | .done => 0x00 | .already => 0x01 | .busy => 0x02 | .badRequest => 0x03 | .unknownKind => 0x04
  | .duplicateRole => 0x05 | .linesHeld => 0x06 | .nodeOff => 0x07 | .noLine => 0x08 | .unitBusy => 0x09
  | .nodeHasUnit => 0x0A | .poolOvercommit => 0x0B | .poolInUse => 0x0C | .unitFaulted => 0x0D
  | .saveFailed => 0x0E | .cleared => 0x0F | .forced => 0x10 | .timeout => 0x11 | .doneUnconfirmed => 0x12
  | .preempted => 0x13 | .changed => 0x14 | .superseded => 0x15

/-- R198: a reply body: the kind code of the request, the result code, the details. -/
def replyBody (kind : Byte) (result : Result) (details : List Byte) : List Byte :=
  kind :: BitVec.ofNat 8 (resultCode result) :: details

/-- R49: the position of a mark's kind. -/
def markKindCode : MarkKind → Nat
  | .breakReceived => 0 | .breakSent _ => 1 | .powerOn => 2 | .powerOff => 3 | .resetPulse => 4 | .stage _ => 5
  | .fail _ => 6 | .recovery _ => 7 | .reconfig => 8 | .clear => 9

/-- R49, R199: a mark's argument byte; 0 where the kind has none. The argument of a BREAK_SENT mark above 255 has no
stated byte and is a free value (log 12). -/
def markArgumentByte : MarkKind → Byte
  | .breakSent d => if d < 256 then BitVec.ofNat 8 d else Config.markArgument d
  | .stage j => BitVec.ofNat 8 j
  | .fail (some i) => BitVec.ofNat 8 i.val
  | .fail none => 0xFF#8
  | .recovery k => BitVec.ofNat 8 (actionKindCode (recoveryAction k))
  | .breakReceived | .powerOn | .powerOff | .resetPulse | .reconfig | .clear => 0#8

/-- R199: a mark in six bytes. -/
def markBytes (m : Mark) : List Byte :=
  word32 m.offset ++ [BitVec.ofNat 8 (markKindCode m.kind), markArgumentByte m.kind]

/-! ## Checksums -/

/-- Hand a number on after it is computed (so that long checksums evaluate step by step). -/
def settled {α : Type} (c : Nat) (k : Nat → α) : α :=
  match c with
  | 0 => k 0
  | n + 1 => k (n + 1)

/-- One bit of the CRC-16 with polynomial 0x1021 (R110, R175). -/
def crc16Bit (c : Nat) : Nat := if c < 0x8000 then 2 * c else (2 * (c - 0x8000)) ^^^ 0x1021

/-- One byte of the CRC-16, most significant bit first. -/
def crc16Byte (c : Nat) (b : Byte) : Nat :=
  crc16Bit (crc16Bit (crc16Bit (crc16Bit (crc16Bit (crc16Bit (crc16Bit (crc16Bit (c ^^^ (b.toNat * 256)))))))))

/-- The CRC-16 continued over bytes. -/
def crc16From : List Byte → Nat → Nat
  | [], c => c
  | b :: bs, c => settled (crc16Byte c b) (crc16From bs)

/-- The CRC-16 of R110, R175 and R192: initial value 0xFFFF, no final inversion. -/
def crc16 (bytes : List Byte) : BitVec 16 := BitVec.ofNat 16 (crc16From bytes 0xFFFF)

/-- One bit of the CRC-8 with polynomial 0x07 (R110, R200). -/
def crc8Bit (c : Nat) : Nat := if c < 0x80 then 2 * c else (2 * (c - 0x80)) ^^^ 0x07

/-- One byte of the CRC-8. -/
def crc8Byte (c : Nat) (b : Byte) : Nat :=
  crc8Bit (crc8Bit (crc8Bit (crc8Bit (crc8Bit (crc8Bit (crc8Bit (crc8Bit (c ^^^ b.toNat))))))))

/-- The CRC-8 continued over bytes. -/
def crc8From : List Byte → Nat → Nat
  | [], c => c
  | b :: bs, c => settled (crc8Byte c b) (crc8From bs)

/-- The CRC-8 of R110 and R200: initial value 0x00. -/
def crc8 (bytes : List Byte) : Byte := BitVec.ofNat 8 (crc8From bytes 0)

/-! ## Frames -/

/-- R175, R198: a byte as it goes on the wire after the start byte. -/
def stuffByte (b : Byte) : List Byte := if b = 0xA5#8 ∨ b = 0xA6#8 then [0xA6#8, b ^^^ 0x20#8] else [b]

/-- R175, R198: the bytes after the start byte, stuffed. -/
def stuff (bytes : List Byte) : List Byte := bytes.flatMap stuffByte

/-- R198: kind, tag, length and body, over which the CRC is calculated. -/
def frameCore (kind : Byte) (tag : Tag) (body : List Byte) : List Byte :=
  kind :: (be16 tag.toNat ++ be16 body.length ++ body)

/-- R184, R198: a frame on the wire: the start byte, then everything else stuffed. -/
def frameWire (kind : Byte) (tag : Tag) (body : List Byte) : List Byte :=
  let core := frameCore kind tag body
  0xA5#8 :: stuff (core ++ be16 (crc16 core).toNat)

/-! ## Received frames (R175, R177, R198) -/

/-- R182, R199: an answer with an empty body is what its kind names; with any other body it is malformed. -/
def emptyAnswer (answer : Tag → Instr) (kind : Byte) (tag : Tag) (body : List Byte) : Instr :=
  if body.isEmpty then answer tag else .malformedAnswer kind tag body

/-- R182, R199: a FILL carries an LBA and 512 bytes; with any other body it is malformed. -/
def fillCommand (tag : Tag) (body : List Byte) : Instr :=
  match body with
  | a :: b :: c :: d :: data =>
    if data.length = blockSize then .fill tag (BitVec.ofNat 32 (u32 a b c d)) data
    else .malformedAnswer 0x70#8 tag body
  | _ => .malformedAnswer 0x70#8 tag body

/-- What a request meets in the step in which its frame is complete, which the frame does not say: for a POWER ACTION
whether it is taken before step 5 of a completion (log 40), for a CONSOLE STATUS the level of the node's CTS pin (log 19),
for a MEDIA PORT CONFIG whether a command block is coming in at the node's port (log 53). -/
structure FrameMeets where
  ahead : Bool
  cts : Level
  midBlock : Bool
  deriving DecidableEq, Repr

/-- R177, R198: the command that a complete frame with a good CRC is, by its kind. -/
def kindCommand (m : FrameMeets) (kind : Byte) (tag : Tag) (body : List Byte) : Instr :=
  match kind.toNat with
  | 0x01 => .identify tag body
  | 0x02 => .linkConfig tag body
  | 0x03 => .clear tag body
  | 0x04 => .saveSettings tag body
  | 0x10 => .linesConfig tag body
  | 0x11 => .linesSet tag body
  | 0x12 => .linesRead tag body
  | 0x13 => .lineEventsClear tag body
  | 0x20 => .powerAction tag ⟨body, m.ahead⟩
  | 0x21 => .powerTimings tag body
  | 0x22 => .powerWatch tag body
  | 0x30 => .consoleConfig tag body
  | 0x31 => .consoleSend tag body
  | 0x32 => .consoleBreak tag body
  | 0x33 => .consoleRead tag body
  | 0x34 => .consoleForward tag body
  | 0x35 => .consoleStatus tag ⟨body, m.cts⟩
  | 0x40 => .poolConfig tag body
  | 0x41 => .poolStatus tag body
  | 0x50 => .unitAttach tag body
  | 0x51 => .unitDetach tag body
  | 0x52 => .unitStatus tag body
  | 0x53 => .mediaPortConfig tag ⟨body, m.midBlock⟩
  | 0x60 => .patternSet tag body
  | 0x61 => .bootPolicy tag body
  | 0x62 => .bootRearm tag body
  | 0x63 => .bootStatus tag body
  | 0x70 => fillCommand tag body
  | 0x71 => emptyAnswer .fetchFailed kind tag body
  | 0x72 => emptyAnswer .stored kind tag body
  | 0x73 => emptyAnswer .storeFailed kind tag body
  | _ => .unknownKind kind tag body

/-- R175: a byte as the link's receiver gets it: its eight bits, and whether its stop bit was high. -/
structure LineByte where
  data : Byte
  stop : Bool
  deriving DecidableEq, Repr

/-- R175: a frame in progress: its unstuffed bytes after the start byte, and whether an escape was the last byte. -/
structure FrameBytes where
  bytes : List Byte
  escaped : Bool
  deriving DecidableEq, Repr

/-- R175: what one more unstuffed byte makes of a frame in progress: a length above 600 is an error at the second length
byte; at the second CRC byte the frame is complete, and is the command of its kind or a CRC error; before that it goes
on. -/
def frameByte (m : FrameMeets) (bytes : List Byte) : Option FrameBytes × Option Instr :=
  match bytes with
  | kind :: t1 :: t0 :: l1 :: l0 :: rest =>
    let length := u16 l1 l0
    if maxBody < length then (none, some (.lengthError (BitVec.ofNat 16 length)))
    else if rest.length = length + 2 then
      let body := rest.take length
      (none, some (if rest.drop length = be16 (crc16 (kind :: t1 :: t0 :: l1 :: l0 :: body)).toNat then
        kindCommand m kind (BitVec.ofNat 16 (u16 t1 t0)) body
      else .crcError))
    else (some ⟨bytes, false⟩, none)
  | _ => (some ⟨bytes, false⟩, none)

/-- R175, R176: what the receiver makes of one byte, hunting (`none`) or in a frame: what is in progress after it, and the
command it brings about. `free` says that a start byte finds a free buffer. A byte of a frame with its stop bit low is a byte framing
error and nothing else, whatever its value (log 51). -/
def receiveByte (m : FrameMeets) (free : Bool) (f : Option FrameBytes) (b : LineByte) :
    Option FrameBytes × Option Instr :=
  match f with
  | none =>
    if b.stop ∧ b.data = 0xA5#8 then
      if free then (some ⟨[], false⟩, some .frameStart) else (none, some .overrun)
    else (none, none)
  | some f =>
    if ¬ b.stop then (none, some .byteFramingError)
    else if b.data = 0xA5#8 then (some ⟨[], false⟩, some .truncatedFrame)
    else if f.escaped then
      if b.data = 0x85#8 ∨ b.data = 0x86#8 then frameByte m (f.bytes ++ [b.data ^^^ 0x20#8])
      else (none, some (.escapeError b.data))
    else if b.data = 0xA6#8 then (some { f with escaped := true }, none)
    else frameByte m (f.bytes ++ [b.data])

/-- R175: the commands that a stream of bytes on the link's RX line is, while every start byte finds a free buffer. -/
def receivedCommands (m : FrameMeets) : Option FrameBytes → List LineByte → List Instr
  | _, [] => []
  | f, b :: rest =>
    let r := receiveByte m true f b
    r.2.toList ++ receivedCommands m r.1 rest

/-! ## The node port's records (R200) -/

/-- R110, R200: the codes of the nine commands. -/
def isCommandCode (b : Byte) : Bool := 1 ≤ b.toNat && b.toNat ≤ 9

/-- R110: a READ or WRITE count that is accepted. -/
def countFits (count : Byte) : Bool := 1 ≤ count.toNat && count.toNat ≤ 64

/-- R110: a command block that gets BAD_COMMAND: its CRC-8 fails, its code is unknown, or its READ or WRITE count is
0 or above 64. -/
def isBadBlock (block : List Byte) : Bool :=
  match block with
  | [code, _, _, _, _, count, _, crc] =>
    crc != crc8 (block.take 7) || !isCommandCode code
      || ((code == 0x01#8 || code == 0x02#8) && !countFits count)
  | _ => false

/-- Byte 6 of a command block, which the status block echoes (R200). -/
def blockTransaction (block : List Byte) : Byte := block.getD 6 0#8

/-- R110, R200: the command that a node's command block is: BAD_COMMAND, or the one its code names, with its LBA, count
and transaction number where the command reads them. The block of a GIVE is the start of its transaction
(GIVE_COMMAND_BLOCK). `together` is no part of the block: whether the attention check of a WRITE came before the
write lock was taken (R97; log 39). -/
def blockCommand (n : Node) (together : Bool) (block : List Byte) : Option Instr :=
  if isBadBlock block then some (.badCommand n block)
  else
    match block with
    | [code, a, b, c, d, count, txn, _] =>
      match code.toNat with
      | 0x01 => some (.read n (BitVec.ofNat 32 (u32 a b c d)) count txn)
      | 0x02 => some (.write n (BitVec.ofNat 32 (u32 a b c d)) count ⟨txn, together⟩)
      | 0x03 => some (.take n txn)
      | 0x04 => some (.giveCommandBlock n)
      | 0x05 => some (.status n txn)
      | 0x06 => some (.sense n txn)
      | 0x07 => some (.flush n txn)
      | 0x08 => some (.ackChange n txn)
      | 0x09 => some (.abort n txn)
      | _ => none
    | _ => none

/-- R110, R200: the command block of a code, an LBA, a count and a transaction number. -/
def commandBlock (code : Byte) (lba : Word) (count txn : Byte) : List Byte :=
  let core := code :: (word32 lba ++ [count, txn])
  core ++ [crc8 core]

/-- What MISO carries while the port has nothing to send (R110, R200). -/
def filler : Byte := 0xFF#8

/-- R109: the port state follows from the command in progress and, for a held write, from the wait. -/
def Port.state (p : Port) : PortState :=
  match p.active with
  | none => .idle
  | some c =>
    match c.kind with
    | .read => .reading
    | .write => if p.wait = .cache then .writeHeld else .writing
    | .flush => .flushing

/-- R111, R200: the status block, before its CRC-8. R200 names bit 0 of the flags byte, attention, and no other: bits 1 to 7
are 0 (log 54). -/
def statusCore (p : Port) (txn : Byte) (result : Status) : List Byte :=
  [txn, BitVec.ofNat 8 (statusCode result), BitVec.ofNat 8 (portStateCode p.state),
   BitVec.ofNat 8 (statusCode p.lastStatus), BitVec.ofNat 8 p.lastCount,
   BitVec.ofNat 8 (match p.active with | some c => c.done | none => 0),
   BitVec.ofNat 8 (match p.active with | some _ => p.slots.length | none => 0), flagByte p.attention]

/-- R111, R200: the nine bytes of a status block. -/
def statusBlock (p : Port) (txn : Byte) (result : Status) : List Byte :=
  let core := statusCore p txn result
  core ++ [crc8 core]

/-- R123, R200: the eight bytes of a sense record. -/
def senseRecord (present : Bool) (capacity : Nat) (writeAllowed attention : Bool) : List Byte :=
  let core := flagByte present :: (be32 capacity ++ [flagByte writeAllowed, flagByte attention])
  core ++ [crc8 core]

/-- R110: 512 data bytes and their CRC-16. -/
def dataWithCrc (data : List Byte) : List Byte := data ++ be16 (crc16 data).toNat

/-! ## Baud arithmetic -/

/-- R40: the divisor D of a requested baud. -/
def baudDivisor (baud : Nat) : Nat := clamp 1 10000 (roundHalfUp 48000000 (16 * baud))

/-- R40: the actual baud A of a divisor. -/
def baudActual (divisor : Nat) : Nat := 48000000 / (16 * divisor)

/-- R174: the link divisor of a requested baud. -/
def linkDivisor (baud : Nat) : Nat := clamp 1 104 (roundHalfUp 48000000 (4 * baud))

/-- R174: the actual link baud of a requested baud. -/
def linkActual (baud : Nat) : Nat := 48000000 / (4 * linkDivisor baud)

namespace ConsoleSettings

/-- R40: the divisor D. -/
def divisor (c : ConsoleSettings) : Nat := baudDivisor c.baud

/-- R40: the actual baud A. -/
def actualBaud (c : ConsoleSettings) : Nat := baudActual c.divisor

/-- R40: the bits per character k. -/
def charBits (c : ConsoleSettings) : Nat := 1 + c.dataBits + (if c.parity = .none then 0 else 1) + c.stopBits

/-- R62: the window budget B. -/
def budget (c : ConsoleSettings) : Nat := c.actualBaud * c.window / (1000 * c.charBits)

/-- R62: the rise threshold R. -/
def riseThreshold (c : ConsoleSettings) : Nat := max 1 (c.budget * c.rise / 100)

/-- R62: the fall threshold Fl. -/
def fallThreshold (c : ConsoleSettings) : Nat := c.budget * c.fall / 100

end ConsoleSettings

/-! ## Settings as they are taken from a request or an image -/

/-- The five settings of a line (R1), as LINES CONFIG and the image carry them. -/
structure LineSettings where
  role : Role
  drive : Drive
  active : Level
  sense : Sense
  notify : Bool
  deriving DecidableEq, Repr

/-- R199, R201: the five settings of a line from five bytes. -/
def lineSettings? : List Byte → Option LineSettings
  | [r, d, a, s, n] =>
    match role? r, drive? d, level? a, sense? s, flag? n with
    | some r, some d, some a, some s, some n => some { role := r, drive := d, active := a, sense := s, notify := n }
    | _, _, _, _, _ => none
  | _ => none

/-- R199, R201: the five bytes of a line's settings. -/
def lineSettingsBytes (l : LineSettings) : List Byte :=
  [BitVec.ofNat 8 (roleCode l.role), BitVec.ofNat 8 (driveCode l.drive), BitVec.ofNat 8 (levelCode l.active),
   BitVec.ofNat 8 (senseCode l.sense), flagByte l.notify]

/-- R19: power timings from their seven two-byte values; 0 keeps the value of `present`. -/
def timingsFrom (present : Timings) (press on soft hold rest reset diag : Nat) : Timings :=
  { press := clampOrKeep 20 5000 present.press press
    on := clampOrKeep 1 120 present.on on
    soft := clampOrKeep 1 600 present.soft soft
    hold := clampOrKeep 1 30 present.hold hold
    rest := clampOrKeep 1 60 present.rest rest
    reset := clampOrKeep 10 5000 present.reset reset
    diag := clampOrKeep 10 5000 present.diag diag }

/-- R199, R201: the 14 bytes of power timings. -/
def timingsBytes (t : Timings) : List Byte :=
  be16 t.press ++ be16 t.on ++ be16 t.soft ++ be16 t.hold ++ be16 t.rest ++ be16 t.reset ++ be16 t.diag

/-- R19, R199, R201: power timings from 14 bytes. -/
def timings? (present : Timings) : List Byte → Option Timings
  | [a0, a1, b0, b1, c0, c1, d0, d1, e0, e1, f0, f1, g0, g1] =>
    some (timingsFrom present (u16 a0 a1) (u16 b0 b1) (u16 c0 c1) (u16 d0 d1) (u16 e0 e1) (u16 f0 f1) (u16 g0 g1))
  | _ => none

/-- R41: data bits, 7 or 8. -/
def dataBits? (b : Byte) : Option Nat := if b = 7#8 then some 7 else if b = 8#8 then some 8 else none

/-- R41: stop bits, 1 or 2. -/
def stopBits? (b : Byte) : Option Nat := if b = 1#8 then some 1 else if b = 2#8 then some 2 else none

/-- R41, R61: console settings from the twelve bytes that follow the node; 0 keeps the baud, window or rise of
`present`. -/
def consoleSettings? (present : ConsoleSettings) : List Byte → Option ConsoleSettings
  | [b0, b1, b2, b3, db, par, sb, cts, w0, w1, rise, fall] =>
    match dataBits? db, parity? par, stopBits? sb, flag? cts with
    | some db, some par, some sb, some cts =>
      let rise' := clampOrKeep 1 100 present.rise rise.toNat
      some { baud := clampOrKeep 300 3000000 present.baud (u32 b0 b1 b2 b3)
             dataBits := db, parity := par, stopBits := sb, ctsUse := cts
             window := clampOrKeep 10 1000 present.window (u16 w0 w1)
             rise := rise'
             fall := if rise' ≤ fall.toNat then rise' - 1 else fall.toNat }
    | _, _, _, _ => none
  | _ => none

/-- R199, R201: the twelve bytes of console settings. -/
def consoleSettingsBytes (c : ConsoleSettings) : List Byte :=
  be32 c.baud ++ [BitVec.ofNat 8 c.dataBits, BitVec.ofNat 8 (parityCode c.parity), BitVec.ofNat 8 c.stopBits,
    flagByte c.ctsUse] ++ be16 c.window ++ [BitVec.ofNat 8 c.rise, BitVec.ofNat 8 c.fall]

/-- R128: an SPI mode: 0, 3, or 0xFF for KEEP, which is `present`. -/
def spiMode? (present : Nat) (b : Byte) : Option Nat :=
  if b = 0#8 then some 0 else if b = 3#8 then some 3 else if b = 0xFF#8 then some present else none

/-- R128: an idle timeout, where 0 keeps the present one. -/
def idleTimeoutFrom (present t : Nat) : Nat := clampOrKeep 100 10000 present t

/-- R77: a reservation as clamped for a holder. -/
def clampReservation (h : Holder) (r : Nat) : Nat :=
  match h with
  | .ch _ => clamp 2 64 r
  | .mh _ => clamp 0 64 r

/-- R77: a share as clamped. -/
def clampShare (s : Nat) : Nat := clamp 0 16 s

/-- R154, R199: a pattern entry from its fields; refused with BAD_REQUEST where the result is `none`. -/
def pattern? (enabled mask kind stage len : Byte) (literal : List Byte) : Option Pattern :=
  match flag? enabled, nodeMask? mask, flag? kind with
  | some e, some m, some k =>
    if 1 ≤ len.toNat ∧ len.toNat ≤ 24 ∧ literal.length = len.toNat then
      some { enabled := e, nodes := m, literal := literal, isFail := k, stage := clamp 1 6 stage.toNat }
    else none
  | _, _, _ => none

/-- R154, R199: a pattern's fields before its literal, in the request's order. -/
def patternHeadBytes (p : Pattern) : List Byte :=
  [flagByte p.enabled, nodeMaskByte p.nodes, flagByte p.isFail, BitVec.ofNat 8 p.stage, BitVec.ofNat 8 p.literal.length]

/-- R201: the 29 bytes of a pattern in the image, 0x00 past the literal. -/
def patternImageBytes (p : Pattern) : List Byte :=
  patternHeadBytes p ++ p.literal ++ List.replicate (24 - p.literal.length) 0#8

/-- R158: a policy from its fields, clamped. -/
def policyFrom (d0 d1 d2 d3 d4 d5 final : Nat) (recovery : RecoveryPolicy) (limit fallbackFrom : Nat) : Policy :=
  { deadlines := ⟨clamp 0 3600 d0, clamp 0 3600 d1, clamp 0 3600 d2, clamp 0 3600 d3, clamp 0 3600 d4,
      clamp 0 3600 d5⟩
    final := clamp 1 6 final
    recovery := recovery
    limit := clamp 0 15 limit
    fallbackFrom := clamp 0 15 fallbackFrom }

/-- R158, R199, R201: a policy from 16 bytes. -/
def policy? : List Byte → Option Policy
  | [a0, a1, b0, b1, c0, c1, d0, d1, e0, e1, f0, f1, final, recovery, limit, fallbackFrom] =>
    match policyRecovery? recovery with
    | some r =>
      some (policyFrom (u16 a0 a1) (u16 b0 b1) (u16 c0 c1) (u16 d0 d1) (u16 e0 e1) (u16 f0 f1) final.toNat r
        limit.toNat fallbackFrom.toNat)
    | none => none
  | _ => none

/-- R199, R201: the 16 bytes of a policy. -/
def policyBytes (p : Policy) : List Byte :=
  p.deadlines.toList.flatMap be16 ++ [BitVec.ofNat 8 p.final, BitVec.ofNat 8 (policyRecoveryCode p.recovery),
    BitVec.ofNat 8 p.limit, BitVec.ofNat 8 p.fallbackFrom]

/-! ## Notices and counters on the wire -/

/-- R187: the seven error counters, in the order of R187. -/
def errorCounterBytes (c : LinkCounters) : List Byte :=
  word32 c.crc ++ word32 c.length ++ word32 c.escape ++ word32 c.truncated ++ word32 c.framing ++ word32 c.overruns
    ++ word32 c.malformed

/-- The stage of a supervisor, absent outside WATCHING (R172; R199 for the absent value). -/
def stageBytes (st : SupState) : List Byte :=
  optional 1 (match st with | .watching k => some (be8 k) | _ => none)

/-- The recovery phase of a supervisor, absent outside RECOVERING (R171; R199 for the absent value). -/
def phaseBytes (st : SupState) : List Byte :=
  optional 1 (match st with | .recovering running => some [flagByte running] | _ => none)

/-- R159: a last failure, absent for none; a deadline is 0xFF, as in R49. -/
def causeBytes (c : Option Cause) : List Byte :=
  optional 1 (c.map fun x => match x with | .pattern i => be8 i.val | .deadline => [0xFF#8])

/-- R172: the position of a recovery event. -/
def recoveryEventCode : RecoveryEvent → Nat
  | .started => 0 | .notified => 1 | .limitReached => 2 | .actionTimeout => 3 | .refused => 4 | .cancelled _ => 5
  | .preempted => 6

/-- R198: the kind code of a notice. -/
def noticeKind : Notice → Byte
  | .start _ _ _ => 0x90#8 | .lineEvent _ _ => 0x91#8 | .powerState _ _ => 0x92#8 | .consoleGap _ _ _ => 0x93#8
  | .flood _ _ _ => 0x94#8 | .unitState _ _ _ _ _ => 0x95#8 | .bootProgress _ _ _ _ => 0x96#8
  | .recovery _ _ _ _ _ _ => 0x97#8 | .strayAnswer _ => 0x98#8 | .linkError _ => 0x99#8

/-- R198: the subject byte of a notice. -/
def noticeSubject : Notice → Byte
  | .start _ _ _ | .strayAnswer _ | .linkError _ => 0xFF#8
  | .lineEvent n _ | .powerState n _ | .consoleGap n _ _ | .flood n _ _ | .bootProgress n _ _ _
  | .recovery n _ _ _ _ _ => BitVec.ofNat 8 n.val
  | .unitState u _ _ _ _ => BitVec.ofNat 8 u.val

/-- What a notice carries after the five common bytes, in the order its rule names (R9, R12, R69, R72, R106, R172,
R182, R188, R194; widths by R199; the part revision and the pool size of START in one and two bytes, log 11). The reason
of a REFUSED is the result code of NO_LINE (log 11). -/
def noticeDetails : Notice → List Byte
  | .start result cause defaulted =>
    be8 result ++ be8 cause ++ [flagByte defaulted] ++ be8 1 ++ be16 256
  | .lineEvent _ lines => [lineMaskByte lines]
  | .powerState _ p => be8 (powerCode p)
  | .consoleGap _ skipped cursor => word32 skipped ++ word32 cursor
  | .flood _ on skipped => flagByte on :: word32 skipped
  | .unitState _ st cause timeouts consecutive =>
    be8 (unitStateCode st) ++ be8 (unitCauseCode cause) ++ word32 timeouts ++ be8 consecutive
  | .bootProgress _ st attempts fallback => be8 (supStateCode st) ++ stageBytes st ++ be8 attempts ++ [flagByte fallback]
  | .recovery _ event kind attempts cause driven =>
    be8 (recoveryEventCode event) ++ optional 1 (kind.map fun k => be8 (actionKindCode (recoveryAction k)))
      ++ be8 attempts ++ causeBytes cause ++ be8 (if driven then 0 else 1)
      ++ optional 1 (if event = .refused then some (be8 (resultCode .noLine)) else none)
      ++ optional 1 (match event with | .cancelled k => some (be8 (actionKindCode k)) | _ => none)
  | .strayAnswer count => word32 count
  | .linkError c => errorCounterBytes c

/-- R198: the body of a notice: lost-before count, subject, occurrence count, details. An
occurrence count above 65,535 has no stated two bytes and is a free value (log 33). -/
def noticeBody (e : NoticeEntry) : List Byte :=
  be16 e.lostBefore ++ [noticeSubject e.notice]
    ++ be16 (if e.occurrences < 65536 then e.occurrences else (Config.occurrenceField e.occurrences).toNat)
    ++ noticeDetails e.notice

end Sys2Proof.Machine
end

