-- ==== Sys2Proof/Machine/Flags.lean ====
section
/-!
DEFINITION. The flags and derived states the part computes from its registers: debounce and edges (R5), event flags
(R7, R8), pins (R3), power states (R11), the placing of console offsets (R51), character errors (R44, R45), and the bits of
a character (R43, R53, R174).
-/

namespace Sys2Proof.Machine

/-! ## Roles and pins -/

/-- R2: an output role. -/
def Role.isOutput : Role → Bool
  | .powerButton | .reset | .diag | .bootSelect | .generalOut => true
  | .powerGood | .generalIn | .unused => false

/-- R2: a role that at most one line of a node may hold. -/
def Role.isLimited : Role → Bool
  | .powerButton | .reset | .diag | .bootSelect | .powerGood => true
  | .generalOut | .generalIn | .unused => false

/-- R3: what a pin of the part does. -/
inductive PinDrive where
  | released | drivenHigh | drivenLow
  deriving DecidableEq, Repr

/-- The other level. -/
def otherLevel : Level → Level
  | .high => .low
  | .low => .high

/-- R3: what the pin of a line does. -/
def Line.pin (l : Line) : PinDrive :=
  if l.role.isOutput then
    let wanted := if l.driven then l.active else otherLevel l.active
    match l.drive, wanted with
    | .pushPull, .high => .drivenHigh
    | .pushPull, .low => .drivenLow
    | .openDrain, .high => .released
    | .openDrain, .low => .drivenLow
  else .released

/-- The level of a line's pin in a sample of all pins: bit 6n+l for Ll of Nn. -/
def pinLevel (pins : BitVec 24) (n : Node) (l : LineId) : Level :=
  if pins.getLsbD (6 * n.val + l.val) then .high else .low

/-! ## Debounce and event flags -/

/-- R5: a sample makes an edge when it agrees with the last sample and both differ from the recognized level. -/
def Line.edgeAt (l : Line) (sample : Level) : Bool := sample == l.last && sample != l.level

/-- R7, R8: a sense selects an edge to a level. -/
def Sense.selects (s : Sense) (newLevel : Level) : Bool :=
  match s, newLevel with
  | .rising, .high | .falling, .low | .both, _ | .levelHigh, .high | .levelLow, .low => true
  | _, _ => false

/-- R8: a level sense whose level is present. -/
def Sense.levelPresent (s : Sense) (level : Level) : Bool :=
  match s, level with
  | .levelHigh, .high | .levelLow, .low => true
  | _, _ => false

/-- R5, R7, R8: a line after one sample. -/
def Line.afterSample (l : Line) (sample : Level) : Line :=
  if l.edgeAt sample then
    { l with level := sample, last := sample, flag := l.flag || l.sense.selects sample }
  else { l with last := sample }

/-- R9: this step set the flag of a line that notifies. -/
def notifies (before after : Line) : Bool := after.notify && after.flag && !before.flag

/-- R8, R16: a clear of the event flag: without effect while a level sense's level is recognized. -/
def Line.clearFlag (l : Line) : Line := { l with flag := l.flag && l.sense.levelPresent l.level }

/-! ## Power state -/

/-- R11: the power state that the lines of a node give. -/
def powerOf (ls : Per6 Line) : PowerState :=
  match ls.toList.find? (fun l => l.role == .powerGood) with
  | some l => if l.level = l.active then .on else .off
  | none => .unknown

/-- R35: an expected state accepts an actual one. -/
def Expected.accepts (e : Expected) (p : PowerState) : Bool :=
  match e, p with
  | .any, _ | .on, .on | .off, .off | .unknown, .unknown => true
  | _, _ => false

/-! ## Console offsets (R51) -/

/-- R51: where an offset lies against a history. -/
inductive Place where
  | held | atLive | beyondLive | beforeOldest
  deriving DecidableEq, Repr

/-- R51: placing offset `x` against the oldest and live offsets. -/
def place (oldest live x : Word) : Place :=
  let d := (x - oldest).toNat
  let span := (live - oldest).toNat
  if d < span then .held
  else if d = span then .atLive
  else if d < 2147483648 then .beyondLive
  else .beforeOldest

/-- R51, R52, R73: the nearest offset that is held or at live. -/
def placed (oldest live x : Word) : Word :=
  match place oldest live x with
  | .held | .atLive => x
  | .beforeOldest => oldest
  | .beyondLive => live

/-! ## Characters (R43 to R45) -/

/-- R43: the data byte of a character as it is stored: with 7 data bits its top bit is 0. -/
def storedByte (c : ConsoleSettings) (data : Byte) : Byte := if c.dataBits = 7 then data &&& 0x7F#8 else data

/-- The number of set bits of a byte. -/
def onesIn (b : Byte) : Nat := (List.range 8).countP fun i => b.getLsbD i

/-- R44: the parity bit does not give the chosen parity over the data bits. -/
def parityError (c : ConsoleSettings) (data : Byte) (parityBit : Bool) : Bool :=
  let odd := (onesIn (storedByte c data) + parityBit.toNat) % 2 == 1
  match c.parity with
  | .none => false
  | .even => odd
  | .odd => !odd

/-- R44, R45: the data bits, the parity bit and the first stop bit were all sampled low. -/
def allLow (c : ConsoleSettings) (data : Byte) (parityBit stopBit : Bool) : Bool :=
  storedByte c data == 0#8 && (c.parity == .none || !parityBit) && !stopBit

/-- R53: the parity bit formed over the data bits that are sent. -/
def parityBits (p : Parity) (data : List Bool) : List Bool :=
  match p with
  | .none => []
  | .even => [data.countP id % 2 == 1]
  | .odd => [data.countP id % 2 == 0]

/-- R43, R53, R174: a byte as a UART sends it, true for high: the start bit, the data bits from the least significant
(log 52; with 7 the top bit of the byte is not sent), the parity bit over them, and the stop bits. -/
def uartBits (dataBits : Nat) (parity : Parity) (stopBits : Nat) (b : Byte) : List Bool :=
  let data := (List.range dataBits).map fun i => b.getLsbD i
  false :: (data ++ parityBits parity data ++ List.replicate stopBits true)

/-- R43, R53: a character of a console on the wire. -/
def characterBits (c : ConsoleSettings) (b : Byte) : List Bool := uartBits c.dataBits c.parity c.stopBits b

/-- The level of a pin that a bit stands for. -/
def levelOf (bit : Bool) : Level := if bit then .high else .low

/-- The number that bits make, the least significant first. -/
def bitsNumber (bits : List Bool) : Nat := bits.foldr (fun b n => b.toNat + 2 * n) 0

/-! ## Matching (R155) -/

/-- `p` stands at the end of `text`. -/
def endsWith (text p : List Byte) : Bool := p.length ≤ text.length && text.drop (text.length - p.length) == p

/-- The longest length, at most `k`, of a start of `literal` that stands at the end of `text`. -/
def longestMatch (literal text : List Byte) : Nat → Nat
  | 0 => 0
  | k + 1 => if endsWith text (literal.take (k + 1)) then k + 1 else longestMatch literal text k

/-- R155: the partial-match length after one more byte, and whether the literal completed. -/
def advanceMatch (literal : List Byte) (len : Nat) (b : Byte) : Nat × Bool :=
  let text := literal.take len ++ [b]
  let j := longestMatch literal text (min text.length literal.length)
  if j = literal.length then (longestMatch literal literal (literal.length - 1), true) else (j, false)

end Sys2Proof.Machine
end

