-- ==== Sys2Proof/Machine/Ops.lean ====
section
/-!
DEFINITION. The named operations over memory, registers and queues that the meanings share: the two memories, the
free orders, the access to each block's records, the reply and notice queues (R178 to R180), marks (R50), the taking
and releasing of lines (R10), the leaving of a console's oldest page (R48), and the tick of the timebase.
-/

namespace Sys2Proof.Machine

/-! ## Memories: canonical lists of cells -/

/-- What a byte of the pool RAM that nothing has written reads as (log 14). -/
def ramDefault : Byte := 0x00#8

/-- What a byte of the settings memory that nothing has written reads as: erased (R192; log 15). -/
def eepromDefault : Byte := 0xFF#8

/-- One byte of a memory whose unlisted addresses read as `d`. -/
def Memory.read (d : Byte) (m : List Host.Cell) (a : Nat) : Byte := (m.lookup a).getD d

/-- Bytes at consecutive addresses as cells, leaving out those that equal the default. -/
def Memory.cells (d : Byte) : Nat → List Byte → List Host.Cell
  | _, [] => []
  | a, b :: bs => if b = d then Memory.cells d (a + 1) bs else (a, b) :: Memory.cells d (a + 1) bs

/-- Write bytes at consecutive addresses. -/
def Memory.write (d : Byte) (m : List Host.Cell) (a : Nat) (bytes : List Byte) : List Host.Cell :=
  m.filter (fun c => c.1 < a) ++ Memory.cells d a bytes ++ m.filter (fun c => a + bytes.length ≤ c.1)

/-- Read consecutive bytes. -/
def Memory.readBlock (d : Byte) (m : List Host.Cell) (a len : Nat) : List Byte :=
  (List.range len).map fun i => Memory.read d m (a + i)

/-- The canonical form: addresses strictly rising, no cell at the default. -/
abbrev Memory.wf (d : Byte) (m : List Host.Cell) : Prop :=
  m.Pairwise (fun x y => x.1 < y.1) ∧ ∀ c ∈ m, c.2 ≠ d

/-- The byte address of a place in a pool page. -/
def pageAddress (p : PageId) (at_ : Nat) : Nat := blockSize * p.val + at_

/-! ## Free orders (log 7) -/

/-- Insert at a place, at the end where the place lies beyond it. -/
def insertAt {α : Type} (k : Nat) (x : α) : List α → List α
  | [] => [x]
  | y :: ys => if k = 0 then x :: y :: ys else y :: insertAt (k - 1) x ys

/-- An order of a list that the spec does not give: each choice is a free value. -/
def freeOrder {α : Type} (c : Nat) : List α → List α
  | [] => []
  | x :: xs => insertAt (Config.choice c % (xs.length + 1)) x (freeOrder (c + 1) xs)

namespace State

/-- The state after a free order of `k` things has been drawn. -/
def drew (s : State) (k : Nat) : State := { s with choices := s.choices + (k - 1) }

/-- Serve several things, one after another, in a free order. -/
def inFreeOrder {α : Type} (l : List α) (f : α → State → State) (s : State) : State :=
  (freeOrder s.choices l).foldl (fun t x => f x t) (s.drew l.length)

/-! ## Access to the records -/

/-- Change the Line Control Unit. -/
def modLines (f : Lines → Lines) (s : State) : State := { s with lines := f s.lines }

/-- Change the Power Sequencer. -/
def modPower (f : Sequencer → Sequencer) (s : State) : State := { s with power := f s.power }

/-- Change a console. -/
def modConsole (n : Node) (f : Console → Console) (s : State) : State :=
  { s with consoles := s.consoles.modify n f }

/-- Change the pool memory. -/
def modRam (f : List Host.Cell → List Host.Cell) (s : State) : State := { s with ram := f s.ram }

/-- Change the page pool. -/
def modPool (f : Pool → Pool) (s : State) : State := { s with pool := f s.pool }

/-- Change a unit. -/
def modUnit (u : UnitId) (f : MediaUnit → MediaUnit) (s : State) : State := { s with units := s.units.modify u f }

/-- Change the engine. -/
def modCache (f : Cache → Cache) (s : State) : State := { s with cache := f s.cache }

/-- Change the Boot Supervisor. -/
def modBoot (f : Boot → Boot) (s : State) : State := { s with boot := f s.boot }

/-- Change the link. -/
def modLink (f : Link → Link) (s : State) : State := { s with link := f s.link }

/-- Change the loader. -/
def modLoader (f : Loader → Loader) (s : State) : State := { s with loader := f s.loader }

end State

/-- R126: the conditions in which the idle timer counts. -/
def Port.counting (p : Port) : Bool :=
  match p.state with
  | .reading => !p.slots.isEmpty
  | .writing => true
  | .idle | .writeHeld | .flushing => false

/-- R126: the idle timer runs exactly in a counting condition; on coming to one it starts at the full timeout. -/
def Port.settleTimer (p : Port) : Port :=
  { p with idleTimer := if p.counting then some (p.idleTimer.getD p.idleTimeout) else none }

namespace State

/-- Change a port; its idle timer follows (R126). -/
def modPort (n : Node) (f : Port → Port) (s : State) : State :=
  { s with ports := s.ports.modify n fun p => (f p).settleTimer }

/-- A line record. -/
def line (s : State) (n : Node) (l : LineId) : Line := (s.lines.line.get n).get l

/-- Change a line record. -/
def modLine (n : Node) (l : LineId) (f : Line → Line) (s : State) : State :=
  s.modLines fun x => { x with line := x.line.modify n fun ls => ls.modify l f }

/-- The power state of a node. -/
def powerState (s : State) (n : Node) : PowerState := s.lines.power.get n

/-- The action record of a node. -/
def action (s : State) (n : Node) : Option Action := s.power.action.get n

/-- Replace the action record of a node. -/
def setAction (n : Node) (a : Option Action) (s : State) : State :=
  s.modPower fun p => { p with action := p.action.set n a }

/-- Replace the content of the pending-recovery slot of a node. -/
def setSlot (n : Node) (k : Option RecoveryKind) (s : State) : State :=
  s.modPower fun p => { p with slot := p.slot.set n k }

/-- The supervisor of a node. -/
def supervisor (s : State) (n : Node) : Supervisor := s.boot.supervisor.get n

/-- Change the supervisor of a node. -/
def modSupervisor (n : Node) (f : Supervisor → Supervisor) (s : State) : State :=
  s.modBoot fun b => { b with supervisor := b.supervisor.modify n f }

/-- R156: clear the partial matches of a node. -/
def clearPartials (n : Node) (s : State) : State :=
  s.modBoot fun b => { b with partials := b.partials.set n (Vector.replicate 16 0) }

/-- Run a step only while the part runs: before the end of loading every block is held, and the link and the ports
take nothing (R129, R174, R191). -/
def whenRunning (s : State) (f : State → State) : State := if s.phase = .running then f s else s

end State

/-! ## The reply queue (R178) -/

/-- The most replies the reply queue holds (R178). -/
def replyRoom : Nat := 16

/-- R178: queue a reply, in the reply queue if an entry is free and otherwise at the end of the waiting list. -/
def Link.addReply (r : Reply) (k : Link) : Link :=
  if k.replies.length < replyRoom ∧ k.waiting = [] then { k with replies := k.replies ++ [r] }
  else { k with waiting := k.waiting ++ [r] }

/-- R178: as entries free, the first replies of the waiting list move into the queue. -/
def Link.refill (k : Link) : Link :=
  match k.waiting with
  | [] => k
  | r :: rest => if k.replies.length < replyRoom then { k with replies := k.replies ++ [r], waiting := rest } else k

/-- Queue a reply to the request with this kind and tag. -/
def State.reply (tag : Tag) (kind : Byte) (result : Result) (details : List Byte) (s : State) : State :=
  s.modLink (Link.addReply { tag := tag, body := replyBody kind result details, rate := none })

/-! ## The notice queue (R179, R180) -/

/-- The most notices the notice queue holds (R179). -/
def noticeRoom : Nat := 32

/-- The greatest lost count and lost-before count (R180). -/
def lostMax : Nat := 65535

/-- R179: a new notice of the same kind and subject as an unsent one: the content that entry then has. Sums of skipped
counts wrap at 2^32 (log 41). -/
def Notice.combine (old new : Notice) : Option Notice :=
  match old, new with
  | .lineEvent n a, .lineEvent m b =>
    if n = m then
      some (.lineEvent n ⟨a.l0 || b.l0, a.l1 || b.l1, a.l2 || b.l2, a.l3 || b.l3, a.l4 || b.l4, a.l5 || b.l5⟩)
    else none
  | .powerState n _, .powerState m b => if n = m then some (.powerState n b) else none
  | .consoleGap n a _, .consoleGap m b c => if n = m then some (.consoleGap n (a + b) c) else none
  | .flood n _ a, .flood m on b => if n = m then some (.flood n on (a + b)) else none
  | .unitState u _ _ _ _, .unitState v st c t k => if u = v then some (.unitState u st c t k) else none
  | .bootProgress n _ _ _, .bootProgress m st a f => if n = m then some (.bootProgress n st a f) else none
  | .strayAnswer _, .strayAnswer c => some (.strayAnswer c)
  | .linkError _, .linkError c => some (.linkError c)
  | _, _ => none

/-- R179: the kinds whose update raises the occurrence count. -/
def Notice.counts : Notice → Bool
  | .powerState _ _ | .unitState _ _ _ _ _ | .bootProgress _ _ _ _ | .strayAnswer _ | .linkError _ => true
  | .start _ _ _ | .lineEvent _ _ | .consoleGap _ _ _ | .flood _ _ _ | .recovery _ _ _ _ _ _ => false

/-- R179, R180: update the unsent entry of the same kind and subject, if there is one. -/
def updateNotice (new : Notice) (lost : Nat) : List NoticeEntry → Option (List NoticeEntry)
  | [] => none
  | e :: es =>
    match e.notice.combine new with
    | some content =>
      some ({ notice := content, lostBefore := min lostMax (e.lostBefore + lost),
              occurrences := if new.counts then e.occurrences + 1 else e.occurrences } :: es)
    | none => (updateNotice new lost es).map (e :: ·)

/-- R179, R180: queue a notice: update an entry, join the end, or be dropped and counted. -/
def Link.addNotice (new : Notice) (k : Link) : Link :=
  match updateNotice new k.lost k.notices with
  | some es => { k with notices := es, lost := 0 }
  | none =>
    if k.notices.length < noticeRoom then
      { k with notices := k.notices ++ [{ notice := new, lostBefore := k.lost, occurrences := 1 }], lost := 0 }
    else { k with lost := min lostMax (k.lost + 1) }

/-- Queue a notice. -/
def State.notify (new : Notice) (s : State) : State := s.modLink (Link.addNotice new)

/-! ## Marks (R50) -/

/-- The most marks a console keeps (R49). -/
def markRoom : Nat := 32

/-- R50: add a mark at the live offset, the oldest giving way when 32 are held. -/
def Console.addMark (kind : MarkKind) (c : Console) : Console :=
  let kept := if c.marks.length < markRoom then c.marks else c.marks.drop 1
  { c with marks := kept ++ [{ offset := c.live, kind := kind }] }

/-- R50: add a mark to a node's console. -/
def State.mark (n : Node) (kind : MarkKind) (s : State) : State := s.modConsole n (Console.addMark kind)

/-! ## Lines taken and released (R10) -/

/-- The line of a node that holds a role. -/
def lineOf (s : State) (n : Node) (r : Role) : Option LineId := allLines.find? fun l => (s.line n l).role == r

/-- R3, R6: what a line's pin does: released until loading ends, then by R3. -/
def State.linePin (s : State) (n : Node) (l : LineId) : PinDrive :=
  if s.phase = .running then (s.line n l).pin else .released

/-- R10: the take of a line of a node that an owner asks for is granted: the role is one the owner may take, and the
line is unowned. -/
def takeGranted (n : Node) (o : Owner) (l : Line) : Bool :=
  l.owner == .none &&
    match o with
    | .none => false
    | .action m => m == n && (l.role == .powerButton || l.role == .reset || l.role == .diag)
    | .supervisor => l.role == .bootSelect

/-- R10: take a line; `none` where the take is refused. -/
def takeLine (n : Node) (l : LineId) (o : Owner) (s : State) : Option State :=
  if takeGranted n o (s.line n l) then some (s.modLine n l fun x => { x with owner := o }) else none

/-- R10: the owner drives its line. -/
def driveLine (n : Node) (l : LineId) (active : Bool) (s : State) : State :=
  s.modLine n l fun x => { x with driven := active }

/-- R10: a release sets the owner to none and the line INACTIVE. -/
def releaseLine (n : Node) (l : LineId) (s : State) : State :=
  s.modLine n l fun x => { x with owner := .none, driven := false }

/-! ## The history ring (R46 to R48) -/

/-- R48, R65, R69: the oldest page leaves the front of a console's list: the oldest offset advances by 512, the marks
before it go, and a cursor left behind is moved: in flood into the skip, otherwise with a CONSOLE GAP notice. The skip
wraps at 2^32 (log 41). -/
def oldestPageLeaves (n : Node) (s : State) : State :=
  let c := s.consoles.get n
  let oldest := c.oldest + 512
  let marks := c.marks.filter fun m => place oldest c.live m.offset != .beforeOldest
  let moved := { c with pages := c.pages.drop 1, oldest := oldest, marks := marks }
  match c.cursor with
  | none => s.modConsole n fun _ => moved
  | some x =>
    if place oldest c.live x = .beforeOldest then
      if c.flood then
        s.modConsole n fun _ => { moved with cursor := some oldest, skip := c.skip + (oldest - x) }
      else
        (s.modConsole n fun _ => { moved with cursor := some oldest }).notify (.consoleGap n (oldest - x) oldest)
    else s.modConsole n fun _ => moved

/-- R46: the pool page and place that an offset of a history lies in. -/
def Console.locate (c : Console) (x : Word) : Option (PageId × Nat) :=
  let d := (x - c.oldest).toNat
  (c.pages[d / blockSize]?).map fun p => (p, d % blockSize)

/-- R46: the byte of a history at an offset that is held. -/
def historyByte (s : State) (n : Node) (x : Word) : Byte :=
  match (s.consoles.get n).locate x with
  | some (p, i) => Memory.read ramDefault s.ram (pageAddress p i)
  | none => ramDefault

/-- R52, R67: consecutive bytes of a history. -/
def historyBytes (s : State) (n : Node) (start : Word) (count : Nat) : List Byte :=
  (List.range count).map fun i => historyByte s n (start + BitVec.ofNat 32 i)

/-! ## Pins that follow other state -/

/-- R39, R58: a console's RTS output is asserted (low) while the part runs. -/
def State.consoleRts (s : State) : Level := if s.phase = .running then .low else .high

/-- R53, R55, R58: a console's TX pin is held low by a break; outside characters and breaks it is high. -/
def State.consoleTxHeldLow (s : State) (n : Node) : Bool :=
  match (s.consoles.get n).break_ with
  | some b => b.phase == .low
  | none => false

/-- R53, R55, R58: a console's TX pin in bit time `i` of the character in progress; low in a break, else high. -/
def State.consoleTx (s : State) (n : Node) (i : Nat) : Level :=
  match (s.consoles.get n).sending with
  | some bits => levelOf (bits.getD i true)
  | none => if s.consoleTxHeldLow n then .low else .high

/-- R110, R129, R191, R200: a port's MISO pin in byte `i` of its latest transaction: released (`none`) while chip select
is deasserted and until loading ends; filler where the port has nothing to send. -/
def State.miso (s : State) (n : Node) (selected : Bool) (i : Nat) : Option Byte :=
  if s.phase = .running ∧ selected then some ((s.ports.get n).response.getD i filler) else none

/-- R191 (pin summary): the Settings Loader drives SCL and SDA while it loads and during a save; otherwise, and under
reset, it releases the settings bus. -/
def State.settingsBusDriven (s : State) : Bool :=
  match s.phase with
  | .inReset => false
  | .loading => true
  | .running => s.loader.save != .idle

/-- R176: the inbound buffers that are occupied. -/
def Link.occupied (k : Link) : List (Fin 4) := k.receiver.toList ++ k.inbox.map (·.buffer)

/-- R176: the free buffer with the lowest number. -/
def Link.freeBuffer (k : Link) : Option (Fin 4) := [0, 1, 2, 3].find? fun b => !k.occupied.contains b

/-- R174, R176: the part's RTS output: asserted (low) once START has been sent, while a buffer is free. -/
def State.linkRts (s : State) : Level :=
  if s.phase = .running ∧ s.link.rtsOn ∧ s.link.freeBuffer.isSome then .low else .high

/-! ## The tick of the timebase (log 2) -/

/-- One millisecond on a console's timers (R55, R63). -/
def Console.tick (c : Console) : Console :=
  { c with
    break_ := c.break_.map fun b => if b.phase = .low then { b with remaining := b.remaining - 1 } else b
    windowRemaining := c.windowRemaining - 1 }

/-- One millisecond on every running timer, stopping at 0: sample schedule, action and watch timers, breaks, flood
windows, idle timers, deadlines and the aging timer (00 Conventions, Time). -/
def State.tick (s : State) : State :=
  { s with
    now := s.now + 1
    lines := { s.lines with sinceSample := s.lines.sinceSample + 1 }
    power := { s.power with
      action := s.power.action.map fun a => a.map fun x => { x with timer := x.timer - 1 }
      watch := s.power.watch.map fun w => { w with remaining := w.remaining - 1 } }
    consoles := s.consoles.map Console.tick
    ports := s.ports.map fun p => { p with idleTimer := p.idleTimer.map (· - 1) }
    cache := { s.cache with agingRemaining := s.cache.agingRemaining - 1 }
    boot := { s.boot with
      supervisor := s.boot.supervisor.map fun v => { v with deadline := v.deadline.map (· - 1) } } }

end Sys2Proof.Machine
end

