-- ==== Sys2Proof/Machine/Pages.lean ====
section
/-!
DEFINITION. The Page Pool Manager (05): the derived values of R78, the allocation procedure of R80 to R86, and the
freeing of cache pages (R87).
-/

namespace Sys2Proof.Machine

/-- 00 Conventions (Holder order): CH0 to CH3, then MH0 to MH3. -/
def allHolders : List Holder := [.ch 0, .ch 1, .ch 2, .ch 3, .mh 0, .mh 1, .mh 2, .mh 3]

/-- All pages, in the order of their numbers. -/
def allPages : List PageId := List.finRange 256

namespace Pool

/-- The record of a holder. -/
def holder (p : Pool) (h : Holder) : HolderRecord :=
  match h with
  | .ch n => p.consoles.get n
  | .mh u => p.caches.get u

/-- Change the record of a holder. -/
def modHolder (h : Holder) (f : HolderRecord → HolderRecord) (p : Pool) : Pool :=
  match h with
  | .ch n => { p with consoles := p.consoles.modify n f }
  | .mh u => { p with caches := p.caches.modify u f }

/-- Replace the owner of a page. -/
def setOwner (page : PageId) (o : Option Holder) (p : Pool) : Pool :=
  { p with owners := p.owners.set page.val o page.isLt }

/-- R76: the held count: the pages whose owner is this holder. -/
def held (p : Pool) (h : Holder) : Nat := p.owners.toList.count (some h)

/-- R78: free pages F. -/
def free (p : Pool) : Nat := p.owners.toList.count none

/-- R78: the reservations' sum. -/
def reserved (p : Pool) : Nat := (allHolders.map fun h => (p.holder h).reservation).sum

/-- R78: the common part Q. -/
def common (p : Pool) : Nat := 256 - p.reserved

/-- R78: the borrow of a holder. -/
def borrow (p : Pool) (h : Holder) : Nat := p.held h - (p.holder h).reservation

/-- R78: the shortfall of a holder. -/
def shortfall (p : Pool) (h : Holder) : Nat := (p.holder h).reservation - p.held h

/-- R78: the sum of the borrows. -/
def borrowed (p : Pool) : Nat := (allHolders.map p.borrow).sum

/-- R76: the free page with the lowest number. -/
def lowestFree (p : Pool) : Option PageId :=
  match p.owners.toList.findIdx? (fun o => o == none) with
  | some i => if h : i < 256 then some ⟨i, h⟩ else none
  | none => none

end Pool

/-- R76: the flood state of a holder: the console's. -/
def floodOf (s : State) : Holder → Bool
  | .ch n => (s.consoles.get n).flood
  | .mh _ => false

/-- R71, R78: the ceiling of a holder: 0 for a console in flood. -/
def ceiling (s : State) (h : Holder) : Nat :=
  if floodOf s h then 0 else s.pool.common * (s.pool.holder h).share / 16

/-- R78: the excess of a holder. -/
def excess (s : State) (h : Holder) : Nat := s.pool.borrow h - ceiling s h

/-- R84: a console's oldest page, where it lies wholly before the write page. -/
def evictableConsolePage (c : Console) : Option PageId :=
  if blockSize ≤ (c.live - c.oldest).toNat then c.pages.head? else none

/-- R84: of two CLEAN pages, the one that leaves first: the older, and of equal ages the lower-numbered. -/
def leavesFirst (a b : DirRecord) : DirRecord :=
  if b.age < a.age then a else if a.age < b.age then b else if a.page ≤ b.page then a else b

/-- R84: a cache holder's CLEAN page of greatest age. -/
def evictableCachePage (d : List DirRecord) (u : UnitId) : Option PageId :=
  match d.filter fun r => r.unit == u && r.state == .clean with
  | [] => none
  | r :: rs => some (rs.foldl leavesFirst r).page

/-- R84: the evictable page of a holder. -/
def evictable (s : State) : Holder → Option PageId
  | .ch n => evictableConsolePage (s.consoles.get n)
  | .mh u => evictableCachePage s.cache.directory u

/-- R130, R150: remove the directory record of a page. -/
def dropRecord (page : PageId) (s : State) : State :=
  s.modCache fun c => { c with directory := c.directory.filter fun r => r.page != page }

/-- R84: a page leaves its holder's content. -/
def leaveContent (h : Holder) (page : PageId) (s : State) : State :=
  match h with
  | .ch n => oldestPageLeaves n s
  | .mh _ => dropRecord page s

/-- R80: the purpose of a request for a page. -/
inductive Purpose where
  | capture | demand | write | readAhead
  deriving DecidableEq, Repr

/-- R85: the purposes that may self-recycle. -/
def Purpose.recycles : Purpose → Bool
  | .capture | .demand | .write => true
  | .readAhead => false

/-- R83: the source of a reclamation: the holder with the largest excess that has an evictable page, the earliest in
holder order among equals. -/
def reclaimSource (s : State) (h : Holder) : Option (Holder × PageId) :=
  allHolders.foldl (fun best g =>
    if g = h ∨ excess s g = 0 then best
    else
      match evictable s g, best with
      | none, b => b
      | some p, none => some (g, p)
      | some p, some (g', p') => if excess s g' < excess s g then some (g, p) else some (g', p')) none

/-- R81, R82: grant the lowest-numbered free page. -/
def grantFree (h : Holder) (s : State) : Option (PageId × State) :=
  match s.pool.lowestFree with
  | some p => some (p, s.modPool (Pool.setOwner p (some h)))
  | none => none

/-- R83, R84: pass a page from a source to a holder. -/
def reclaim (h g : Holder) (p : PageId) (s : State) : State :=
  ((leaveContent g p s).modPool (Pool.setOwner p (some h))).modPool fun x =>
    (x.modHolder g fun r => { r with reclaimedFrom := r.reclaimedFrom + 1 }).modHolder h
      fun r => { r with reclaimedBy := r.reclaimedBy + 1 }

/-- R85: self-recycle a holder's own page: its old content leaves, its owner stays. -/
def selfRecycle (h : Holder) (p : PageId) (s : State) : State :=
  (leaveContent h p s).modPool fun x => x.modHolder h fun r => { r with selfRecycles := r.selfRecycles + 1 }

/-- R86: failure. -/
def allocationFails (h : Holder) (s : State) : State :=
  s.modPool fun x => x.modHolder h fun r => { r with failures := r.failures + 1 }

/-- R84 to R86: step 4 for the purposes that have it, and step 5. -/
def allocateOwn (h : Holder) (why : Purpose) (s : State) : Option PageId × State :=
  match why.recycles, evictable s h with
  | true, some p => (some p, selfRecycle h p s)
  | _, _ => (none, allocationFails h s)

/-- R80: one page for a holder, by the first step that succeeds; `none` is failure. -/
def allocate (h : Holder) (why : Purpose) (s : State) : Option PageId × State :=
  if s.pool.held h < (s.pool.holder h).reservation then
    match grantFree h s with
    | some (p, t) => (some p, t)
    | none => (none, allocationFails h s)
  else if s.pool.borrow h < ceiling s h then
    if s.pool.borrowed < s.pool.common ∧ s.pool.lowestFree.isSome then
      match grantFree h s with
      | some (p, t) => (some p, t)
      | none => (none, allocationFails h s)
    else
      match reclaimSource s h with
      | some (g, p) => (some p, reclaim h g p s)
      | none => allocateOwn h why s
  else allocateOwn h why s

/-- R87: a cache page is freed and its record removed. -/
def freePage (page : PageId) (s : State) : State :=
  (dropRecord page s).modPool (Pool.setOwner page none)

end Sys2Proof.Machine
end

