-- ==== Sys2Proof/Machine/Supervision.lean ====
section
/-!
DEFINITION. The Boot Supervisor (09) and the Power Sequencer (02) as they act on each other: arming, failures,
recovery requests, the start and the completion of power actions, the power watch, and the release of BOOT_SELECT.
-/

namespace Sys2Proof.Machine

/-! ## The supervisor's notices and small moves -/

/-- R172: queue a BOOT PROGRESS notice with the supervisor's present values. -/
def bootProgress (n : Node) (s : State) : State :=
  let v := s.supervisor n
  s.notify (.bootProgress n v.state v.attempts v.fallback)

/-- R172: queue a RECOVERY notice with the supervisor's present values. -/
def recoveryNotice (n : Node) (event : RecoveryEvent) (kind : Option RecoveryKind) (s : State) : State :=
  let v := s.supervisor n
  s.notify (.recovery n event kind v.attempts v.lastFailure v.fallback)

/-- R159, R162: move a supervisor to a state other than WATCHING; its deadline stops. -/
def supTo (n : Node) (st : SupState) (s : State) : State :=
  s.modSupervisor n fun v => { v with state := st, deadline := none }

/-- R162: a deadline of d seconds, 0 for none. -/
def deadlineOf (d : Nat) : Option Nat := if d = 0 then none else some (d * 1000)

/-- R158: the deadline dk of a policy. -/
def stageDeadline (p : Policy) (k : Nat) : Nat := p.deadlines.toList.getD k 0

/-- R161, R162: enter WATCHING(k) with its deadline. -/
def enterWatching (n : Node) (k : Nat) (s : State) : State :=
  s.modSupervisor n fun v =>
    { v with state := .watching k, deadline := deadlineOf (stageDeadline (s.boot.policy.get n) k) }

/-- R169: the supervisor releases the BOOT_SELECT line it owns and clears its fallback flag. -/
def releaseBootSelect (n : Node) (s : State) : State :=
  let t := match allLines.find? fun l => (s.line n l).owner == .supervisor with
    | some l => releaseLine n l s
    | none => s
  t.modSupervisor n fun v => { v with fallback := false }

/-- R160: arming. -/
def arm (n : Node) (s : State) : State :=
  bootProgress n (enterWatching n 0 (s.clearPartials n))

/-- R160: an arming cause is taken. `entry` is the power state's entry into ON; any other cause that finds the node
OFF puts the supervisor in IDLE instead, and clears no partial match (log 45). -/
def armingCause (n : Node) (entry : Bool) (s : State) : State :=
  match (s.supervisor n).state with
  | .recovering false => s
  | .halted => if !entry && s.powerState n == .off then s else arm n s
  | .idle | .watching _ | .complete | .recovering true =>
    if !entry && s.powerState n == .off then bootProgress n (supTo n .idle s) else arm n s

/-! ## The supervisor hears from the Power Sequencer (R165 to R167) -/

/-- R165: the recovery has started. -/
def supStarted (n : Node) (k : RecoveryKind) (s : State) : State :=
  recoveryNotice n .started (some k) (s.modSupervisor n fun v => { v with state := .recovering true })

/-- R165: the recovery was refused or dropped with NO_LINE. -/
def supNoLine (n : Node) (k : RecoveryKind) (s : State) : State :=
  recoveryNotice n .refused (some k) (supTo n .halted s)

/-- R165: the recovery was refused or dropped with NODE_OFF. -/
def supNodeOff (n : Node) (s : State) : State := bootProgress n (supTo n .idle s)

/-- R166: the results an action completes with (R30), without the ESCALATED that is added to them. -/
inductive ActionResult where
  | done | doneUnconfirmed | timeout | noLine | preempted
  deriving DecidableEq, Repr

/-- The recovery kind of a supervisor action's kind. -/
def recoveryOf : ActionKind → Option RecoveryKind
  | .reset => some .reset
  | .cycle => some .cycle
  | .powerOn | .softOff | .hardOff | .diag => none

/-- R166: the result of a supervisor action. -/
def supResult (n : Node) (kind : ActionKind) (r : ActionResult) (s : State) : State :=
  match r with
  | .done | .doneUnconfirmed => s
  | .timeout =>
    if (s.supervisor n).state = .recovering true then
      recoveryNotice n .actionTimeout (recoveryOf kind) (supTo n .halted s)
    else s
  | .noLine =>
    if (s.supervisor n).state = .recovering true then
      recoveryNotice n .refused (recoveryOf kind) (supTo n .halted s)
    else s
  | .preempted => recoveryNotice n .preempted (recoveryOf kind) (supTo n .idle s)

/-- R33, R167: the pending recovery is cancelled by an accepted host action of a kind. -/
def cancelPending (n : Node) (by_ : ActionKind) (s : State) : State :=
  match s.power.slot.get n with
  | none => s
  | some k =>
    let t := s.setSlot n none
    if (t.supervisor n).state = .recovering false then recoveryNotice n (.cancelled by_) (some k) (supTo n .idle t)
    else t

/-! ## Starting an action (R21, R22, R33) -/

/-- R21: the role of the line a kind needs first. -/
def firstRole : ActionKind → Role
  | .powerOn | .softOff | .hardOff | .cycle => .powerButton
  | .reset => .reset
  | .diag => .diag

/-- R18: the line a phase drives. -/
def drivenRole : ActionState → Option Role
  | .pressing | .holding => some .powerButton
  | .resetPulse => some .reset
  | .diagPulse => some .diag
  | .waitingOn | .waitingOff | .resting => none

/-- R18, R19: the timer of a phase, in ms. -/
def phaseTimer (t : Timings) : ActionState → Nat
  | .pressing => t.press
  | .waitingOn => t.on * 1000
  | .waitingOff => t.soft * 1000
  | .holding => t.hold * 1000
  | .resting => t.rest * 1000
  | .resetPulse => t.reset
  | .diagPulse => t.diag

/-- R22: an action enters a phase: its timer starts, and where the phase drives a line, the line is taken, held and
driven ACTIVE. -/
def enterPhase (n : Node) (a : Action) (st : ActionState) (s : State) : State :=
  let b := { a with state := st, timer := phaseTimer a.timings st, held := none }
  match drivenRole st with
  | none => s.setAction n (some b)
  | some r =>
    match lineOf s n r with
    | none => s.setAction n (some b)
    | some l =>
      match takeLine n l (.action n) s with
      | none => s.setAction n (some b)
      | some t => (driveLine n l true t).setAction n (some { b with held := some l })

/-- R22: the action's line, if it holds one, is released. -/
def releaseHeld (n : Node) (a : Action) (s : State) : State :=
  match a.held with
  | some l => (releaseLine n l s).setAction n (some { a with held := none })
  | none => s

/-- R20: an action is confirmed when the node's power state is ON or OFF as it starts. -/
def confirmedNow (s : State) (n : Node) : Bool := s.powerState n != .unknown

/-- R21, R33: the record of an action as it is filled at the start. -/
def newAction (s : State) (n : Node) (kind : ActionKind) (o : Originator) (escalate : Bool) : Action :=
  { kind := kind, originator := o, state := .resting, confirmed := confirmedNow s n, lostConfirmation := false,
    escalate := escalate, escalated := false, timer := 0, timings := s.power.timings.get n, held := none }

/-- R23, R24, R26 to R29: the first phase of a kind. -/
def firstPhase (s : State) (n : Node) : ActionKind → ActionState
  | .powerOn | .softOff => .pressing
  | .hardOff => .holding
  | .cycle => if s.powerState n = .off then .resting else .holding
  | .reset => .resetPulse
  | .diag => .diagPulse

/-- R21, R28: an action starts: its record is filled and its first phase entered; a RESET puts its mark. -/
def startAction (n : Node) (kind : ActionKind) (o : Originator) (escalate : Bool) (s : State) : State :=
  let t := enterPhase n (newAction s n kind o escalate) (firstPhase s n kind) s
  if kind = .reset then t.mark n .resetPulse else t

/-- R33: a recovery starts: its RECOVERY mark, the action, and the supervisor is told. -/
def startRecovery (n : Node) (k : RecoveryKind) (s : State) : State :=
  supStarted n k (startAction n (recoveryAction k) .supervisor false (s.mark n (.recovery k)))

/-- R33: why a recovery cannot start. -/
inductive RecoveryRefusal where
  | noLine | nodeOff
  deriving DecidableEq, Repr

/-- R33: a recovery can start unless its line is missing, or a RESET finds the node OFF. -/
def recoveryCheck (n : Node) (k : RecoveryKind) (s : State) : Option RecoveryRefusal :=
  if (lineOf s n (firstRole (recoveryAction k))).isNone then some .noLine
  else if k = .reset ∧ s.powerState n = .off then some .nodeOff
  else none

/-- R34: step 5 of R30: a pending recovery is checked again and started, or dropped. -/
def startPending (n : Node) (s : State) : State :=
  match s.power.slot.get n with
  | none => s
  | some k =>
    let t := s.setSlot n none
    match recoveryCheck n k t with
    | some .noLine => supNoLine n k t
    | some .nodeOff => supNodeOff n t
    | none => startRecovery n k t

/-- R33, R34, R165: the supervisor, RECOVERING, asks for its recovery. -/
def requestRecovery (n : Node) (k : RecoveryKind) (s : State) : State :=
  match recoveryCheck n k s with
  | some .noLine => supNoLine n k s
  | some .nodeOff => supNodeOff n s
  | none =>
    match s.action n with
    | some _ => s.setSlot n (some k)
    | none => startRecovery n k s

/-! ## Completion (R30) -/

/-- The reply code of an action's result. -/
def actionResultCode : ActionResult → Result
  | .done => .done
  | .doneUnconfirmed => .doneUnconfirmed
  | .timeout => .timeout
  | .noLine => .noLine
  | .preempted => .preempted

/-- R25, R30: the kind a request asked for: an escalated SOFT OFF runs as a HARD OFF. -/
def Action.requested (a : Action) : ActionKind := if a.escalated then .softOff else a.kind

/-- R199: what a POWER ACTION reply carries after kind and result. -/
def powerActionDetails (s : State) (n : Node) (kind : ActionKind) (escalated : Bool) : List Byte :=
  be8 n.val ++ be8 (actionKindCode kind) ++ [flagByte escalated] ++ be8 (powerCode (s.powerState n))

/-- R20: the result as it is reported: DONE of an action that lost its confirmation is DONE_UNCONFIRMED (log 10). -/
def reportedResult (a : Action) (r : ActionResult) : ActionResult :=
  if a.lostConfirmation ∧ r = .done then .doneUnconfirmed else r

/-- R30, steps 1 to 3: the line is released, the record returns to IDLE, the originator learns the result. -/
def endAction (n : Node) (a : Action) (r : ActionResult) (s : State) : State :=
  let t := (releaseHeld n a s).setAction n none
  match a.originator with
  | .host tag =>
    t.reply tag 0x20#8 (actionResultCode (reportedResult a r)) (powerActionDetails t n a.requested a.escalated)
  | .supervisor => supResult n a.kind (reportedResult a r) t

/-- R30, step 4: the completions that arm the supervisor. -/
def completionArms (kind : ActionKind) (r : ActionResult) : Bool :=
  match kind, r with
  | .reset, .done | .powerOn, .doneUnconfirmed | .cycle, .doneUnconfirmed => true
  | _, _ => false

/-- R21: the node of a POWER ACTION's body. -/
def actionNode? (body : List Byte) : Option Node :=
  match body with
  | [node, _, _] => node? node
  | _ => none

/-- R30: a POWER ACTION for this node arrives while step 5 is due and is taken before it: it is the command that comes
next, and says so (log 40). -/
def requestAhead (s : State) (n : Node) : Bool :=
  match s.pending.head? with
  | some (.powerAction _ ⟨body, true⟩) => actionNode? body == some n
  | _ => false

/-- R30: the running action of a node completes with a result. Step 5 follows in the same step, unless a POWER ACTION is
taken before it: the pending recovery then stays in its slot until that request has been taken (log 40). -/
def complete (n : Node) (r : ActionResult) (s : State) : State :=
  match s.action n with
  | none => s
  | some a =>
    let t := endAction n a r s
    let t := if completionArms a.kind r then armingCause n false t else t
    if requestAhead t n then t else startPending n t

/-! ## Phases end (R23 to R29) -/

/-- R22, R25, R27: an action takes its line anew; without a line it completes with NO_LINE. -/
def retake (n : Node) (a : Action) (st : ActionState) (s : State) : State :=
  match lineOf s n .powerButton with
  | none => complete n .noLine (s.setAction n (some a))
  | some _ => enterPhase n a st s

/-- R23, R24, R27: the end of PRESSING. -/
def pressEnds (n : Node) (a : Action) (s : State) : State :=
  let t := releaseHeld n a s
  let b := { a with held := none }
  if !a.confirmed then complete n .doneUnconfirmed t
  else if a.kind = .softOff then
    if s.powerState n = .off then complete n .done t else enterPhase n b .waitingOff t
  else if s.powerState n = .on then complete n .done t
  else enterPhase n b .waitingOn t

/-- R24, R25: the end of WAITING_OFF: TIMEOUT, or the SOFT OFF escalates in place. -/
def softEnds (n : Node) (a : Action) (s : State) : State :=
  if a.escalate then
    let b := { a with kind := .hardOff, escalated := true }
    match lineOf s n .powerButton with
    | none => complete n .noLine (s.setAction n (some b))
    | some _ =>
      let t := enterPhase n b .holding s
      if s.powerState n = .off then complete n .done t else t
  else complete n .timeout s

/-- R26, R27: the end of HOLDING by its timer. -/
def holdEnds (n : Node) (a : Action) (s : State) : State :=
  let t := releaseHeld n a s
  if a.confirmed then complete n .timeout t
  else if a.kind = .cycle then enterPhase n { a with held := none } .resting t
  else complete n .doneUnconfirmed t

/-- R27: the end of RESTING. -/
def restEnds (n : Node) (a : Action) (s : State) : State :=
  if a.confirmed ∧ s.powerState n = .on then complete n .done s else retake n a .pressing s

/-- R20, R23, R24, R26, R27: the Power Sequencer hears of a node's new power state. -/
def sequencerHears (n : Node) (p : PowerState) (s : State) : State :=
  match s.action n with
  | none => s
  | some a =>
    if !a.confirmed then s
    else
      match p, a.state with
      | .on, .waitingOn => complete n .done s
      | .off, .waitingOff => complete n .done s
      | .off, .holding =>
        let t := releaseHeld n a s
        if a.kind = .cycle then enterPhase n { a with held := none } .resting t else complete n .done t
      | .unknown, st =>
        let b := { a with confirmed := false, lostConfirmation := true }
        let t := s.setAction n (some b)
        if st = .waitingOn ∨ st = .waitingOff then complete n .doneUnconfirmed t else t
      | _, _ => s

/-! ## The power watch (R35 to R37) -/

/-- The four power states on the wire. -/
def powerBytes (s : State) : List Byte := s.lines.power.toList.flatMap fun p => be8 (powerCode p)

/-- R36: what a power watch's reply carries. -/
def watchDetails (s : State) (timeout : Nat) : List Byte := powerBytes s ++ be16 timeout

/-- R36: the running watch completes. -/
def endWatch (r : Result) (s : State) : State :=
  match s.power.watch with
  | none => s
  | some w => (s.modPower fun p => { p with watch := none }).reply w.tag 0x22#8 r (watchDetails s w.timeout)

/-- R35: the actual power states meet the expected ones. -/
def watchAgrees (s : State) (e : Per4 Expected) : Bool :=
  allNodes.all fun n => (e.get n).accepts (s.powerState n)

/-- R36: a published change makes the watch compare again. -/
def watchHears (s : State) : State :=
  match s.power.watch with
  | none => s
  | some w => if watchAgrees s w.expected then s else endWatch .changed s

/-! ## Failures and stages (R161 to R165) -/

/-- R164: fallback: the supervisor drives BOOT_SELECT when the attempt reaches m, a unit serves the node and the node
has the line. A refused take changes nothing. -/
def fallback (n : Node) (hasUnit : Bool) (s : State) : State :=
  let v := s.supervisor n
  let m := (s.boot.policy.get n).fallbackFrom
  if m ≠ 0 ∧ m ≤ v.attempts ∧ hasUnit then
    match lineOf s n .bootSelect with
    | none => s
    | some l =>
      match takeLine n l .supervisor s with
      | some t => (driveLine n l true t).modSupervisor n fun x => { x with fallback := true }
      | none => s
  else s

/-- The recovery kind a policy asks for. -/
def policyRecovery : RecoveryPolicy → Option RecoveryKind
  | .notify => none
  | .reset => some .reset
  | .cycle => some .cycle

/-- The mark's argument of a failure's cause. -/
def causeMark : Cause → Option (Fin 16)
  | .pattern i => some i
  | .deadline => none

/-- R93: a node is in some unit's node set. -/
def nodeHasUnit (s : State) (n : Node) : Bool := s.units.toList.any fun u => u.nodes.get n

/-- R163: a failure of a WATCHING supervisor. -/
def failure (n : Node) (cause : Cause) (s : State) : State :=
  let p := s.boot.policy.get n
  let t := (s.modSupervisor n fun v => { v with deadline := none, lastFailure := some cause }).mark n
    (.fail (causeMark cause))
  match policyRecovery p.recovery with
  | none => recoveryNotice n .notified none (supTo n .halted t)
  | some k =>
    if (t.supervisor n).attempts < p.limit then
      requestRecovery n k (fallback n (nodeHasUnit s n)
        (t.modSupervisor n fun v => { v with state := .recovering false, attempts := v.attempts + 1 }))
    else recoveryNotice n .limitReached none (supTo n .halted t)

/-- R161: the boot counts as complete. -/
def bootComplete (n : Node) (s : State) : State :=
  bootProgress n (releaseBootSelect n ((supTo n .complete s).modSupervisor n fun v => { v with attempts := 0 }))

/-- R161: stage j is reported to a supervisor in WATCHING(k). -/
def stageReported (n : Node) (k j : Nat) (s : State) : State :=
  if j ≤ k then s
  else
    let t := s.mark n (.stage j)
    if j < (s.boot.policy.get n).final then bootProgress n (enterWatching n j t) else bootComplete n t

/-! ## The matchers (R155 to R157) -/

/-- R153: an entry applies to a node. -/
def Pattern.applies (p : Pattern) (n : Node) : Bool := p.enabled && p.nodes.get n

/-- R155: the partial length of one entry after a byte, and whether the entry completed. -/
def advanceEntry (s : State) (n : Node) (b : Byte) (i : Fin 16) : Nat × Bool :=
  let p := s.boot.patterns[i]
  let len := (s.boot.partials.get n)[i]
  if p.applies n then advanceMatch p.literal len b else (len, false)

/-- R157: the entries that a byte completes for a node, in their order. -/
def completedEntries (s : State) (n : Node) (b : Byte) : List (Fin 16) :=
  (List.finRange 16).filter fun i => (advanceEntry s n b i).2

/-- R155: the matchers of a node advance on a byte. -/
def advancePartials (n : Node) (b : Byte) (s : State) : State :=
  s.modBoot fun x => { x with partials := x.partials.set n (Vector.ofFn fun i => (advanceEntry s n b i).1) }

/-- R157: the completions of one byte are decided together. -/
def decideCompletions (n : Node) (done : List (Fin 16)) (s : State) : State :=
  match (s.supervisor n).state with
  | .watching k =>
    match done.find? fun i => (s.boot.patterns[i]).isFail with
    | some i => failure n (.pattern i) s
    | none =>
      match done with
      | [] => s
      | _ => stageReported n k ((done.map fun i => (s.boot.patterns[i]).stage).foldl max 0) s
  | .idle | .complete | .recovering _ | .halted => s

/-- R155, R157: a byte is handed to the matchers of a node. -/
def matchByte (n : Node) (b : Byte) (s : State) : State :=
  decideCompletions n (completedEntries s n b) (advancePartials n b s)

/-! ## The supervisor hears of power states (R160, R168) -/

/-- R168: a supervisor CYCLE is running on the node. -/
def supervisorCycleRuns (s : State) (n : Node) : Bool :=
  match s.action n with
  | some a => a.originator == .supervisor && a.kind == .cycle
  | none => false

/-- R160, R168: the supervisor hears of a node's new power state. -/
def supervisorHears (n : Node) (p : PowerState) (s : State) : State :=
  match p with
  | .on => armingCause n true s
  | .unknown => s
  | .off =>
    match (s.supervisor n).state with
    | .watching _ | .complete => if supervisorCycleRuns s n then s else bootProgress n (supTo n .idle s)
    | .idle | .recovering _ | .halted => s

end Sys2Proof.Machine
end

