-- ==== Sys2Proof/Machine/Blocks.lean ====
section
/-!
DEFINITION. The Cache and Fetch Engine (08), the Node Media Ports (07) and the Media Unit Table (06) as they act on
each other: lookups, demand fetch, read-ahead, write offers, the store engine, the answers to calls, the endings of
port commands, store faults, and a unit's leaving service.
-/

namespace Sys2Proof.Machine

/-! ## Units and records -/

/-- R96: the unit whose node set holds a node. -/
def unitOf (s : State) (n : Node) : Option UnitId := allNodes.find? fun u => (s.units.get u).nodes.get n

/-- R132: the directory record of a block. -/
def findBlock (s : State) (u : UnitId) (lba : Nat) : Option DirRecord :=
  s.cache.directory.find? fun r => r.unit == u && r.lba == lba

/-- R130: a record joins the directory, in page order. -/
def insertRecord (r : DirRecord) : List DirRecord → List DirRecord
  | [] => [r]
  | x :: xs => if r.page < x.page then r :: x :: xs else x :: insertRecord r xs

/-- R130: give a page of a unit's cache holder its record. -/
def addRecord (r : DirRecord) (s : State) : State :=
  s.modCache fun c => { c with directory := insertRecord r c.directory }

/-- Change the record of a page. -/
def modRecord (page : PageId) (f : DirRecord → DirRecord) (s : State) : State :=
  s.modCache fun c => { c with directory := c.directory.map fun r => if r.page = page then f r else r }

/-- The 512 bytes of a page. -/
def pageBytes (s : State) (p : PageId) : List Byte := Memory.readBlock ramDefault s.ram (pageAddress p 0) blockSize

/-- Write a block into a page. -/
def writePage (p : PageId) (data : List Byte) (s : State) : State :=
  s.modRam fun m => Memory.write ramDefault m (pageAddress p 0) data

/-- R131: the number of a unit's pages in a state. -/
def pagesIn (s : State) (u : UnitId) (st : PageState) : Nat :=
  s.cache.directory.countP fun r => r.unit == u && r.state == st

/-- R131: the DIRTY and STORING count of a unit. -/
def dirtyCount (s : State) (u : UnitId) : Nat := pagesIn s u .dirty + pagesIn s u .storing

/-- R131: the outstanding fetch entries of a unit. -/
def fetchesOf (s : State) (u : UnitId) : Nat :=
  s.cache.fetches.toList.countP fun e => match e.busy with | some f => f.unit == u | none => false

/-- R131: the outstanding store entries of a unit. -/
def storesOf (s : State) (u : UnitId) : Nat :=
  s.cache.stores.toList.countP fun e => match e.busy with | some x => x.unit == u | none => false

/-- A port. -/
def port (s : State) (n : Node) : Port := s.ports.get n

/-! ## The end of a port command (R112) and attention (R124) -/

/-- R112: the active command of a port ends. -/
def endCommand (n : Node) (st : Status) (s : State) : State :=
  match (port s n).active with
  | none => s
  | some a =>
    (s.modCache fun c => { c with entryWait := c.entryWait.filter fun m => m != n }).modPort n fun p =>
      { p with
        wait := .none
        slots := []
        idleTimer := none
        sequential := if a.kind = .read then some (a.first + a.done) else p.sequential
        lastStatus := st
        lastCount := a.done
        active := none
        taking := p.taking.map fun t => { t with live := false } }

/-- R112, R117, R120: the status a command ends with when all its blocks are done. -/
def finalStatus (a : ActiveCommand) : Status := if a.effective = a.count then .good else .endOfMedium

/-- R124: attention is set; the sequential-read memory becomes absent. -/
def setAttention (n : Node) (s : State) : State :=
  s.modPort n fun p => { p with attention := true, sequential := none }

/-! ## Fetches (R132 to R136) -/

/-- Replace a fetch entry. -/
def Cache.setFetch (c : Cache) (i : Fin 16) (e : FetchEntry) : Cache :=
  { c with fetches := c.fetches.set i.val e i.isLt }

/-- Replace a store entry. -/
def Cache.setStore (c : Cache) (i : Fin 8) (e : StoreEntry) : Cache := { c with stores := c.stores.set i.val e i.isLt }

/-- R135: the free fetch entry with the lowest number. -/
def freeFetch (s : State) : Option (Fin 16) := (List.finRange 16).find? fun i => (s.cache.fetches[i]).busy.isNone

/-- The number of free fetch entries. -/
def freeFetches (s : State) : Nat := s.cache.fetches.toList.countP fun e => e.busy.isNone

/-- R135, R136: a fetch entry is allocated for consecutive blocks, all WAITING, and its call is queued. -/
def allocFetch (u : UnitId) (first count : Nat) (s : State) : State :=
  match freeFetch s with
  | none => s
  | some i =>
    (s.modCache fun c =>
      c.setFetch i
        { generation := (c.fetches[i]).generation + 1
          busy := some { unit := u, first := first, blocks := List.replicate count .waiting, created := s.now } }).modLink fun k => { k with calls := k.calls ++ [.fetch i] }

/-- R135, R136: a fetch entry is freed: its generation is kept, its unsent call withdrawn. -/
def freeFetchEntry (i : Fin 16) (s : State) : State :=
  (s.modCache fun c => c.setFetch i { (c.fetches[i]) with busy := none }).modLink fun k =>
      { k with calls := k.calls.filter fun x => x != .fetch i }

/-- R115: the next block a READING port stages. -/
def nextBlock (a : ActiveCommand) (p : Port) : Nat := a.first + a.done + p.slots.length

/-- R132: a page's bytes are copied into a port's empty slot; the wait ends and the page's age becomes 0. -/
def copyToSlot (n : Node) (r : DirRecord) (s : State) : State :=
  modRecord r.page (fun x => { x with age := 0 })
    (s.modPort n fun p => { p with slots := p.slots ++ [{ lba := r.lba, data := pageBytes s r.page }], wait := .none })

/-- R133, R142: a FILLING record for a page just obtained. -/
def fillingRecord (u : UnitId) (lba : Nat) (p : PageId) : DirRecord :=
  { page := p, unit := u, lba := lba, state := .filling, age := 0, redirtied := false }

/-- R133: pages for the missing blocks from `x` on, up to `last`, a block with a record, a failure of the pool, or the
fuel (eight blocks). The number of pages obtained. -/
def collectPages (u : UnitId) (last : Nat) : Nat → Nat → State → Nat × State
  | 0, _, s => (0, s)
  | k + 1, x, s =>
    if last < x ∨ (findBlock s u x).isSome then (0, s)
    else
      match allocate (.mh u) .demand s with
      | (none, t) => (0, t)
      | (some p, t) =>
        let r := collectPages u last k (x + 1) (addRecord (fillingRecord u x p) t)
        (r.1 + 1, r.2)

/-- R133: a demand fetch for a port whose next block is a miss. -/
def demandFetch (n : Node) (u : UnitId) (x last : Nat) (s : State) : State :=
  let r := collectPages u last 8 x s
  if r.1 = 0 then endCommand n .busy r.2
  else (allocFetch u x r.1 r.2).modPort n fun p => { p with wait := .page }

/-- R115, R132 to R134: a READING port asks for its next block, and goes on while it can. -/
def stage (n : Node) : Nat → State → State
  | 0, s => s
  | k + 1, s =>
    let p := port s n
    match p.active with
    | none => s
    | some a =>
      if a.kind = .read ∧ p.slots.length < 2 ∧ p.wait = .none ∧ nextBlock a p < a.first + a.effective then
        match unitOf s n with
        | none => s
        | some u =>
          match findBlock s u (nextBlock a p) with
          | some r =>
            if r.state = .filling then s.modPort n fun q => { q with wait := .page }
            else stage n k (copyToSlot n r s)
          | none =>
            if (freeFetch s).isSome then demandFetch n u (nextBlock a p) (a.first + a.effective - 1) s
            else
              (s.modCache fun c => { c with entryWait := c.entryWait ++ [n] }).modPort n fun q =>
                { q with wait := .entry }
      else s

/-- A port has two slots, so it asks at most three times in a row. -/
def stageFuel : Nat := 3

/-- R134: while an entry is free, the first port of the entry-wait order looks its next block up again. -/
def serveEntryWait : Nat → State → State
  | 0, s => s
  | k + 1, s =>
    match s.cache.entryWait with
    | [] => s
    | n :: rest =>
      if (freeFetch s).isSome then
        serveEntryWait k (stage n stageFuel
          ((s.modCache fun c => { c with entryWait := rest }).modPort n fun p => { p with wait := .none }))
      else s

/-- The order holds at most four ports, and a port joins it again only when no entry is free. -/
def entryWaitFuel : Nat := 8

/-- R132: the ports that wait on the page of a block. -/
def portsWaitingOn (s : State) (u : UnitId) (lba : Nat) : List Node :=
  allNodes.filter fun n =>
    (port s n).wait == .page && unitOf s n == some u &&
      match (port s n).active with
      | some a => nextBlock a (port s n) == lba
      | none => false

/-- R132, R137, R144: a FILLING page has got its content: every port waiting on it gets the block at that moment, and
then each goes on staging. -/
def servePorts (u : UnitId) (lba : Nat) (s : State) : State :=
  match findBlock s u lba with
  | none => s
  | some r =>
    let ns := portsWaitingOn s u lba
    (ns.foldl (fun t n => copyToSlot n r t) s).inFreeOrder ns fun n t => stage n stageFuel t

/-! ## Read-ahead (R141, R142) -/

/-- R142: the run of missing blocks that ends before `x` becomes a READAHEAD entry. -/
def flushRun (u : UnitId) (x run : Nat) (s : State) : State := if run = 0 then s else allocFetch u (x - run) run s

/-- R142: read-ahead walks a range; `run` blocks just before `x` have pages and wait for their entry. -/
def readAheadFrom (u : UnitId) (stop : Nat) : Nat → Nat → Nat → State → State
  | 0, x, run, s => flushRun u x run s
  | k + 1, x, run, s =>
    if stop ≤ x then flushRun u x run s
    else if (findBlock s u x).isSome then readAheadFrom u stop k (x + 1) 0 (flushRun u x run s)
    else if run = 0 ∧ freeFetches s < 5 then s
    else
      match allocate (.mh u) .readAhead s with
      | (none, t) => flushRun u x run t
      | (some p, t) =>
        let t' := addRecord (fillingRecord u x p) t
        if run + 1 = 8 then readAheadFrom u stop k (x + 1) 0 (flushRun u (x + 1) 8 t')
        else readAheadFrom u stop k (x + 1) (run + 1) t'

/-- R141: the delivery that decides read-ahead: half the effective count, rounded up. -/
def midpoint (a : ActiveCommand) : Nat := (a.effective + 1) / 2

/-- R141: read-ahead is decided at the midpoint delivery of a READ. -/
def readAhead (n : Node) (a : ActiveCommand) (s : State) : State :=
  match unitOf s n with
  | none => s
  | some u =>
    let w := (s.units.get u).window
    if w ≠ 0 ∧ (port s n).sequential = some a.first ∧ 4 ≤ freeFetches s then
      let start := a.first + a.effective
      readAheadFrom u (min (start + w) (s.units.get u).capacity) (w + 1) start 0 s
    else s

/-! ## The store engine (R146, R147) -/

/-- R147: the free store entry with the lowest number. -/
def freeStore (s : State) : Option (Fin 8) := (List.finRange 8).find? fun i => (s.cache.stores[i]).busy.isNone

/-- R147: among the first pages of the dirty orders of the units whose stores run, the one that joined earliest, of
the lower-numbered unit among equals. -/
def nextToStore (s : State) : Option (UnitId × DirtyPage) :=
  allNodes.foldl (fun best u =>
    if (s.units.get u).state = .storeFault then best
    else
      match s.cache.dirty.get u, best with
      | [], b => b
      | d :: _, none => some (u, d)
      | d :: _, some (v, e) => if d.moment < e.moment then some (u, d) else some (v, e)) none

/-- R147: one store is issued for the first page of a unit's dirty order. -/
def issueStore (i : Fin 8) (u : UnitId) (d : DirtyPage) (s : State) : State :=
  let lba := match s.cache.directory.find? fun r => r.page == d.page with
    | some r => r.lba
    | none => 0
  (modRecord d.page (fun r => { r with state := .storing, redirtied := false })
    (s.modCache fun c =>
      ({ c with dirty := c.dirty.modify u fun l => l.drop 1 } : Cache).setStore i
        { generation := (c.stores[i]).generation + 1
          busy := some { unit := u, lba := lba, page := d.page, created := s.now } })).modLink fun k =>
    { k with calls := k.calls ++ [.store i] }

/-- R147: the engine issues while an entry is free and a page waits. -/
def issueStores : Nat → State → State
  | 0, s => s
  | k + 1, s =>
    match freeStore s, nextToStore s with
    | some i, some (u, d) => issueStores k (issueStore i u d s)
    | _, _ => s

/-- There are eight store entries. -/
def storeFuel : Nat := 8

/-- R147: a store entry is freed: its generation is kept, its unsent call withdrawn. -/
def freeStoreEntry (i : Fin 8) (s : State) : State :=
  (s.modCache fun c => c.setStore i { (c.stores[i]) with busy := none }).modLink fun k =>
      { k with calls := k.calls.filter fun x => x != .store i }

/-- R146: a page joins the end of its unit's dirty order. -/
def joinDirty (u : UnitId) (p : PageId) (s : State) : State :=
  s.modCache fun c =>
    { c with dirty := c.dirty.modify u fun l => l ++ [{ page := p, moment := c.joins }], joins := c.joins + 1 }

/-! ## Writes (R120, R143 to R145) -/

/-- R143: a page takes a node's data and becomes DIRTY. -/
def makeDirty (u : UnitId) (p : PageId) (data : List Byte) (s : State) : State :=
  joinDirty u p (modRecord p (fun r => { r with state := .dirty, redirtied := false }) (writePage p data s))

/-- R144: the WAITING block of a fetch entry for (unit, LBA) becomes OVERTAKEN. -/
def overtakeBlock (u : UnitId) (lba : Nat) (f : Fetch) : Fetch :=
  if f.unit = u ∧ f.first ≤ lba ∧ f.blocks[lba - f.first]? = some .waiting then
    { f with blocks := f.blocks.set (lba - f.first) .overtaken }
  else f

/-- R144: a write overtakes a fill. The READ ports served go on staging here, before the writing port's next block is offered
and a store is issued (log 49). -/
def overtake (u : UnitId) (lba : Nat) (p : PageId) (data : List Byte) (s : State) : State :=
  servePorts u lba ((makeDirty u p data s).modCache fun c =>
    { c with fetches := c.fetches.map fun e => { e with busy := e.busy.map (overtakeBlock u lba) } })

/-- R143: a port's oldest staged block is offered to the cache: whether it is accepted, and the state after. -/
def offer (n : Node) (s : State) : Bool × State :=
  match (port s n).slots, unitOf s n with
  | slot :: _, some u =>
    let full := (s.units.get u).dirtyLimit ≤ dirtyCount s u
    match findBlock s u slot.lba with
    | some r =>
      match r.state with
      | .dirty => (true, writePage r.page slot.data s)
      | .storing => (true, modRecord r.page (fun x => { x with redirtied := true }) (writePage r.page slot.data s))
      | .clean => if full then (false, s) else (true, makeDirty u r.page slot.data s)
      | .filling => if full then (false, s) else (true, overtake u slot.lba r.page slot.data s)
    | none =>
      if full then (false, s)
      else
        match allocate (.mh u) .write s with
        | (none, t) => (false, t)
        | (some p, t) => (true, makeDirty u p slot.data (addRecord (fillingRecord u slot.lba p) t))
  | _, _ => (false, s)

/-- R120: an accepted block leaves its slot and is counted done; the last one ends the WRITE. -/
def acceptBlock (n : Node) (s : State) : State :=
  match (port s n).active with
  | none => s
  | some a =>
    let b := { a with done := a.done + 1 }
    let t := s.modPort n fun p => { p with slots := p.slots.drop 1, active := some b }
    if b.done = b.effective then endCommand n (finalStatus b) t else t

/-- R120: a port offers its staged blocks, one at a time, until none is left or one is held. -/
def offerBlocks (n : Node) : Nat → State → State
  | 0, s => s
  | k + 1, s =>
    match (port s n).slots with
    | [] => s.modPort n fun p => { p with wait := .none }
    | _ :: _ =>
      match offer n s with
      | (true, t) => offerBlocks n k (issueStores storeFuel (acceptBlock n t))
      | (false, t) => t.modPort n fun p => { p with wait := .cache }

/-- A port has two slots. -/
def offerFuel : Nat := 3

/-- R145: every WRITE_HELD port offers its oldest staged block again. -/
def retryHeld (s : State) : State :=
  s.inFreeOrder (allNodes.filter fun n => (port s n).state == .writeHeld) fun n t => offerBlocks n offerFuel t

/-- R87, R145, R147: what follows a step in which pages became free or evictable, or a store entry free. -/
def poolChanged (s : State) : State := issueStores storeFuel (retryHeld s)

/-! ## Unit notices and store faults (R101 to R106) -/

/-- R106: queue a UNIT STATE notice with the unit's present values. -/
def unitNotice (u : UnitId) (cause : UnitCause) (s : State) : State :=
  let x := s.units.get u
  s.notify (.unitState u x.state cause x.fetchTimeouts x.consecutive)

/-- The nodes of a unit's node set, in their order. -/
def nodesOf (s : State) (u : UnitId) : List Node := allNodes.filter fun n => (s.units.get u).nodes.get n

/-- R104, R121, R122: a unit's entry into STORE_FAULT ends the held writes and the flushes of its nodes. -/
def faultPorts (u : UnitId) (s : State) : State :=
  (nodesOf s u).foldl (fun t n =>
    match (port t n).state with
    | .writeHeld | .flushing => endCommand n .writeFault t
    | .idle | .reading | .writing => t) s

/-- R102, R103: a unit enters STORE_FAULT; a drain's deferred reply is answered UNIT_FAULTED. -/
def enterStoreFault (u : UnitId) (s : State) : State :=
  let x := s.units.get u
  let t := s.modUnit u fun y => { y with state := .storeFault, detachTag := none }
  let t := match x.detachTag with
    | some tag => t.reply tag 0x51#8 .unitFaulted (be8 u.val ++ be32 x.stored ++ be32 (dirtyCount s u))
    | none => t
  faultPorts u (unitNotice u .storeFault t)

/-- R103: a store of the unit failed. -/
def storeFailure (u : UnitId) (s : State) : State :=
  let t := s.modUnit u fun x =>
    { x with storeFailures := x.storeFailures + 1, consecutive := min 3 (x.consecutive + 1) }
  let x := t.units.get u
  if x.consecutive = 3 ∧ (x.state = .attached ∨ x.state = .draining) then enterStoreFault u t else t

/-- R99, R101, R105: a unit's record as it leaves service; its counters are kept (R107). -/
def MediaUnit.retired (x : MediaUnit) : MediaUnit :=
  { resetUnit with
    consecutive := x.consecutive
    storeFailures := x.storeFailures
    fetchFailures := x.fetchFailures
    fetchTimeouts := x.fetchTimeouts }

/-- R99, R101, R105: every page of a unit's cache holder is freed and its record removed; its dirty order empties. -/
def freeUnitPages (u : UnitId) (s : State) : State :=
  (s.modCache fun c =>
    { c with directory := c.directory.filter fun r => r.unit != u, dirty := c.dirty.set u [] }).modPool fun p =>
      { p with owners := p.owners.map fun o => if o = some (.mh u) then none else o }

/-- R101: a drain ends. -/
def drainEnds (u : UnitId) (s : State) : State :=
  let x := s.units.get u
  let t := (freeUnitPages u s).modUnit u MediaUnit.retired
  let t := match x.detachTag with
    | some tag => t.reply tag 0x51#8 .done (be8 u.val ++ be32 x.stored)
    | none => t
  unitNotice u .drained t

/-! ## Answers (R137 to R140, R148, R149) -/

/-- R140, R182: a stray answer is counted and reported. -/
def strayAnswer (s : State) : State :=
  let t := s.modLink fun k => { k with counters := { k.counters with stray := k.counters.stray + 1 } }
  t.notify (.strayAnswer t.link.counters.stray)

/-- R137: the outstanding fetch entry that a tag names. -/
def fetchOf (s : State) (tag : Tag) : Option (Fin 16 × Fetch) :=
  if h : tag.toNat % 256 < 16 then
    let i : Fin 16 := ⟨tag.toNat % 256, h⟩
    if (s.cache.fetches[i]).generation.toNat = tag.toNat / 256 then
      (s.cache.fetches[i]).busy.map fun f => (i, f)
    else none
  else none

/-- R148: the outstanding store entry that a tag names. -/
def storeOf (s : State) (tag : Tag) : Option (Fin 8 × Store) :=
  if h : 16 ≤ tag.toNat % 256 ∧ tag.toNat % 256 < 24 then
    let i : Fin 8 := ⟨tag.toNat % 256 - 16, by omega⟩
    if (s.cache.stores[i]).generation.toNat = tag.toNat / 256 then
      (s.cache.stores[i]).busy.map fun x => (i, x)
    else none
  else none

/-- R137: block j of an entry becomes RECEIVED. -/
def receiveBlock (i : Fin 16) (j : Nat) (s : State) : State :=
  s.modCache fun c =>
    c.setFetch i
      { (c.fetches[i]) with busy := (c.fetches[i]).busy.map fun f => { f with blocks := f.blocks.set j .received } }

/-- R137: an entry whose blocks are all RECEIVED is freed, and R134 serves the entry-wait order. -/
def fetchProgress (i : Fin 16) (s : State) : State :=
  match (s.cache.fetches[i]).busy with
  | some f =>
    if f.blocks.all fun b => b == .received then serveEntryWait entryWaitFuel (freeFetchEntry i s) else s
  | none => s

/-- R137: a FILLING page gets the block the host sent. -/
def fillPage (u : UnitId) (lba : Nat) (data : List Byte) (s : State) : State :=
  match findBlock s u lba with
  | some r => modRecord r.page (fun x => { x with state := .clean, age := 0 }) (writePage r.page data s)
  | none => s

/-- R137: a FILL answer. -/
def fillAnswer (tag : Tag) (lba : Nat) (data : List Byte) (s : State) : State :=
  match fetchOf s tag with
  | none => strayAnswer s
  | some (i, f) =>
    if lba < f.first then strayAnswer s
    else
      match f.blocks[lba - f.first]? with
      | none | some .received => strayAnswer s
      | some .waiting =>
        poolChanged (fetchProgress i
          (servePorts f.unit lba (receiveBlock i (lba - f.first) (fillPage f.unit lba data s))))
      | some .overtaken => fetchProgress i (receiveBlock i (lba - f.first) s)

/-- R135: the LBAs of an entry's WAITING blocks. -/
def waitingBlocks (f : Fetch) : List Nat :=
  ((List.range f.blocks.length).filter fun j => f.blocks[j]? == some .waiting).map fun j => f.first + j

/-- R138: the page of a block is freed. -/
def freeBlock (u : UnitId) (lba : Nat) (s : State) : State :=
  match findBlock s u lba with
  | some r => freePage r.page s
  | none => s

/-- R100, R138: a fetch entry is ended: the FILLING pages of its WAITING blocks are freed, and the entry. -/
def dropFetch (i : Fin 16) (f : Fetch) (s : State) : State :=
  freeFetchEntry i ((waitingBlocks f).foldl (fun t lba => freeBlock f.unit lba t) s)

/-- R138, R139: a fetch ends as a failure; the ports that wait on it end with MEDIUM_ERROR. `timedOut` says whether
the unit table is told of a timeout or of a failure. -/
def failFetch (i : Fin 16) (f : Fetch) (timedOut : Bool) (s : State) : State :=
  let lbas := waitingBlocks f
  let hit := allNodes.filter fun n => lbas.any fun lba => (portsWaitingOn s f.unit lba).contains n
  let t := hit.foldl (fun t n => endCommand n .mediumError t) (dropFetch i f s)
  let t :=
    if timedOut then
      unitNotice f.unit .fetchTimeout (t.modUnit f.unit fun x => { x with fetchTimeouts := x.fetchTimeouts + 1 })
    else t.modUnit f.unit fun x => { x with fetchFailures := x.fetchFailures + 1 }
  let t := serveEntryWait entryWaitFuel t
  if lbas.isEmpty then t else poolChanged t

/-- R138: a FETCH FAILED answer. -/
def fetchFailedAnswer (tag : Tag) (s : State) : State :=
  match fetchOf s tag with
  | none => strayAnswer s
  | some (i, f) => failFetch i f false s

/-- R122: when a unit's DIRTY and STORING count reaches 0, the FLUSHING ports of its nodes end. -/
def endFlushes (u : UnitId) (s : State) : State :=
  if dirtyCount s u = 0 then
    (nodesOf s u).foldl (fun t n => if (port t n).state = .flushing then endCommand n .good t else t) s
  else s

/-- R148: a store ended well. In a drain only a page that becomes CLEAN counts as stored (log 29). -/
def storeSucceeds (i : Fin 8) (x : Store) (s : State) : State :=
  let again := match s.cache.directory.find? fun r => r.page == x.page with
    | some r => r.redirtied
    | none => false
  let t := (freeStoreEntry i s).modUnit x.unit fun y => { y with consecutive := 0 }
  if again then
    issueStores storeFuel
      (joinDirty x.unit x.page (modRecord x.page (fun r => { r with state := .dirty, redirtied := false }) t))
  else
    let t := modRecord x.page (fun r => { r with state := .clean, age := 0 }) t
    let t :=
      if (t.units.get x.unit).state = .draining then t.modUnit x.unit fun y => { y with stored := y.stored + 1 }
      else t
    let t :=
      if (t.units.get x.unit).state = .draining ∧ dirtyCount t x.unit = 0 then drainEnds x.unit t else t
    poolChanged (endFlushes x.unit t)

/-- R148: a STORED answer. -/
def storedAnswer (tag : Tag) (s : State) : State :=
  match storeOf s tag with
  | none => strayAnswer s
  | some (i, x) => storeSucceeds i x s

/-- R149: a store ended as a failure. -/
def storeFails (i : Fin 8) (x : Store) (s : State) : State :=
  issueStores storeFuel (storeFailure x.unit
    (joinDirty x.unit x.page
      (modRecord x.page (fun r => { r with state := .dirty, redirtied := false }) (freeStoreEntry i s))))

/-- R149: a STORE FAILED answer. -/
def storeFailedAnswer (tag : Tag) (s : State) : State :=
  match storeOf s tag with
  | none => strayAnswer s
  | some (i, x) => storeFails i x s

/-! ## Leaving service (R99, R100, R105, R108) -/

/-- R99, R100, R105: every command active on a port of the unit's nodes ends with ABORTED. -/
def abortPorts (u : UnitId) (s : State) : State := (nodesOf s u).foldl (fun t n => endCommand n .aborted t) s

/-- The commands active on the ports of a unit's nodes. -/
def activePorts (s : State) (u : UnitId) : Nat := (nodesOf s u).countP fun n => (port s n).active.isSome

/-- R99, R100, R105: every fetch entry of a unit is freed, with the FILLING pages of its WAITING blocks. -/
def dropFetches (u : UnitId) (s : State) : State :=
  (List.finRange 16).foldl (fun t i =>
    match (t.cache.fetches[i]).busy with
    | some f => if f.unit = u then dropFetch i f t else t
    | none => t) s

/-- R105: every store entry of a unit is freed. -/
def dropStores (u : UnitId) (s : State) : State :=
  (List.finRange 8).foldl (fun t i =>
    match (t.cache.stores[i]).busy with
    | some x => if x.unit = u then freeStoreEntry i t else t
    | none => t) s

/-- R99, R100, R105: the node set and the writer are cleared; each former node's port has attention set, and the
supervisor is told that its node has left. -/
def clearNodes (u : UnitId) (s : State) : State :=
  (nodesOf s u).foldl (fun t n => releaseBootSelect n (setAttention n t))
    (s.modUnit u fun x => { x with nodes := Per4.all false, writer := none })

/-- R99, R105 (steps 1 to 6), R108: a unit is taken out of service at once. -/
def takeOut (u : UnitId) (s : State) : State :=
  (clearNodes u (freeUnitPages u (dropStores u (dropFetches u (abortPorts u s))))).modUnit u MediaUnit.retired

/-- R100: a drain starts. -/
def startDrain (u : UnitId) (tag : Tag) (s : State) : State :=
  (clearNodes u (dropFetches u (abortPorts u (s.modUnit u fun x => { x with detachTag := some tag })))).modUnit u
    fun x => { x with state := .draining, stored := 0 }

/-- What follows a unit's leaving service, from the state before it: freed fetch entries serve the entry-wait order
(R134); then, where pages became free (R87), the held writes are offered again (R145); freed store entries issue (R147).
The order is log 46. -/
def afterLeaving (before s : State) : State :=
  let t := serveEntryWait entryWaitFuel s
  if before.pool.free < s.pool.free then poolChanged t else issueStores storeFuel t

/-! ## Write permission (R96, R97) -/

/-- R96: the answer to a WRITE of a node; GOOD is "permitted". -/
def writePermission (s : State) (n : Node) : Status :=
  match unitOf s n with
  | none => .notPresent
  | some u =>
    let x := s.units.get u
    let foreign := match x.writer with
      | some w => w != n
      | none => false
    match x.state, x.mode with
    | .attached, .readOnly | .storeFault, .readOnly => .writeProtected
    | .attached, .exclusive => .good
    | .attached, .firstWriter => if foreign then .writeProtected else .good
    | .storeFault, .exclusive => .writeFault
    | .storeFault, .firstWriter => if foreign then .writeProtected else .writeFault
    | .detached, _ | .draining, _ => .notPresent

/-- R96: the answer to a FLUSH of a node. -/
def flushPermission (s : State) (n : Node) : Status :=
  match unitOf s n with
  | none => .notPresent
  | some u =>
    match (s.units.get u).state with
    | .attached => .good
    | .storeFault => .writeFault
    | .detached | .draining => .notPresent

/-- R97: the unit of a node has another node as its writer. -/
def writerElsewhere (s : State) (n : Node) : Bool :=
  match unitOf s n with
  | none => false
  | some u => (s.units.get u).writer.any fun w => w != n

/-- R97: a permitted WRITE takes the write lock of a FIRST_WRITER unit that has no writer; attention is set on the
ports of the other nodes of its set. -/
def takeWriteLock (n : Node) (u : UnitId) (s : State) : State :=
  let x := s.units.get u
  if x.mode = .firstWriter ∧ x.writer = none then
    ((nodesOf s u).filter fun m => m != n).foldl (fun t m => setAttention m t)
      (s.modUnit u fun y => { y with writer := some n })
  else s

/-! ## The node hears of power states (R56, R127) -/

/-- R127: the port hears of a node's new power state. -/
def portHears (n : Node) (p : PowerState) (s : State) : State :=
  match p with
  | .off => setAttention n (endCommand n .aborted s)
  | .on | .unknown => s

/-- R56: the console hears of a node's new power state: on OFF the transmit FIFO is emptied and counted. -/
def consoleHears (n : Node) (p : PowerState) (s : State) : State :=
  match p with
  | .off => s.modConsole n fun c => { c with dropped := c.dropped + BitVec.ofNat 32 c.fifo.length, fifo := [] }
  | .on | .unknown => s

/-- R12: the mark of a power state. -/
def powerMark (n : Node) (p : PowerState) (s : State) : State :=
  match p with
  | .on => s.mark n .powerOn
  | .off => s.mark n .powerOff
  | .unknown => s

/-- R12: a node's new power state is published: notice, mark, and then the blocks in the order R12 names them
(log 8). -/
def publish (n : Node) (p : PowerState) (s : State) : State :=
  supervisorHears n p (portHears n p (consoleHears n p (watchHears (sequencerHears n p
    (powerMark n p (s.notify (.powerState n p)))))))

/-- R11, R12: the power state of a node is derived again from its lines, and published when it changed. -/
def rederivePower (n : Node) (s : State) : State :=
  let p := powerOf (s.lines.line.get n)
  if p = s.powerState n then s
  else publish n p (s.modLines fun x => { x with power := x.power.set n p })

end Sys2Proof.Machine
end

