-- ==== Sys2Proof/Machine/LineRequests.lean ====
section
/-!
DEFINITION. The requests of the Line Control Unit (R13 to R16) and of the Power Sequencer (R19, R21, R31, R32, R35,
R37): what serving each of them does.
-/

namespace Sys2Proof.Machine

/-- R177, R199: refuse a request whose body is wrong in structure (log 22: the reply has no details). -/
def badRequest (tag : Tag) (kind : Byte) (s : State) : State := s.reply tag kind .badRequest []

/-! ## LINES CONFIG (R13) -/

/-- R199: the settings of the masked lines, from five bytes each. -/
def maskedSettings : List LineId → List Byte → Option (List (LineId × LineSettings))
  | [], [] => some []
  | [], _ :: _ => none
  | l :: ls, bytes =>
    match lineSettings? (bytes.take 5), maskedSettings ls (bytes.drop 5) with
    | some x, some xs => some ((l, x) :: xs)
    | _, _ => none

/-- The settings a line has. -/
def Line.settings (l : Line) : LineSettings :=
  { role := l.role, drive := l.drive, active := l.active, sense := l.sense, notify := l.notify }

/-- R3, R13: an output role with OPEN_DRAIN and HIGH is refused. -/
def LineSettings.openDrainHigh (x : LineSettings) : Bool :=
  x.role.isOutput && x.drive == .openDrain && x.active == .high

/-- R2: two lines hold one of the limited roles. -/
def duplicateRole (roles : List Role) : Bool := roles.any fun r => r.isLimited && 2 ≤ roles.count r

/-- R10, R13: a request that changes the role, drive or active level of an owned line. -/
def Line.heldAgainst (l : Line) (x : LineSettings) : Bool :=
  l.owner != .none && (l.role != x.role || l.drive != x.drive || l.active != x.active)

/-- R13: a line after an accepted LINES CONFIG gives it settings. -/
def Line.configure (l : Line) (x : LineSettings) : Line :=
  { l with
    role := x.role
    drive := x.drive
    active := x.active
    sense := x.sense
    notify := x.notify
    driven := if l.role = x.role then l.driven else false
    flag := if l.sense = x.sense then l.flag else x.sense.levelPresent l.level }

/-- R13: this configuration sets the event flag again under R8 with the notify enable on. -/
def Line.configureNotifies (l : Line) (x : LineSettings) : Bool :=
  l.sense != x.sense && x.sense.levelPresent l.level && x.notify

/-- The settings a list gives a line, if it names it. -/
def settingsFor (xs : List (LineId × LineSettings)) (l : LineId) : Option LineSettings := xs.lookup l

/-- The lines of a set. -/
def lineSet (f : LineId → Bool) : Per6 Bool := Per6.build f

/-- R9: queue a LINE EVENT for the lines of a node whose flags were set, if there are any. -/
def notifyLines (n : Node) (lines : Per6 Bool) (s : State) : State :=
  if lines.toList.any id then s.notify (.lineEvent n lines) else s

/-- R13, R199: what the reply to LINES CONFIG carries: T_s, then the settings of the six lines. -/
def linesConfigDetails (s : State) (n : Node) : List Byte :=
  be16 s.lines.samplePeriod ++ allLines.flatMap fun l => lineSettingsBytes (s.line n l).settings

/-- R13: an accepted LINES CONFIG: the masked lines together, then T_s, the LINE EVENT, the power state. -/
def applyLinesConfig (n : Node) (period : Nat) (xs : List (LineId × LineSettings)) (s : State) : State :=
  let before := s.lines.line.get n
  let after := Per6.build fun l =>
    match settingsFor xs l with
    | some x => (before.get l).configure x
    | none => before.get l
  let set_ := lineSet fun l =>
    match settingsFor xs l with
    | some x => (before.get l).configureNotifies x
    | none => false
  rederivePower n (notifyLines n set_ (s.modLines fun k =>
    { k with line := k.line.set n after, samplePeriod := clampOrKeep 1 255 k.samplePeriod period }))

/-- R13: the checks of LINES CONFIG after its structure; `none` accepts. -/
def linesConfigRefusal (s : State) (n : Node) (xs : List (LineId × LineSettings)) : Option Result :=
  let roles := allLines.map fun l =>
    match settingsFor xs l with
    | some x => x.role
    | none => (s.line n l).role
  if xs.any fun x => x.2.openDrainHigh then some .badRequest
  else if duplicateRole roles then some .duplicateRole
  else if xs.any fun x => (s.line n x.1).heldAgainst x.2 then some .linesHeld
  else none

/-- LINES CONFIG, R13. -/
def serveLinesConfig (tag : Tag) (body : List Byte) (s : State) : State :=
  match body with
  | node :: mask :: p0 :: p1 :: rest =>
    match node? node, lineMask? mask with
    | some n, some m =>
      match maskedSettings (allLines.filter fun l => m.get l) rest with
      | some xs =>
        match linesConfigRefusal s n xs with
        | some r => s.reply tag 0x10#8 r []
        | none =>
          let t := applyLinesConfig n (u16 p0 p1) xs s
          t.reply tag 0x10#8 .done (linesConfigDetails t n)
      | none => badRequest tag 0x10#8 s
    | _, _ => badRequest tag 0x10#8 s
  | _ => badRequest tag 0x10#8 s

/-! ## LINES SET, LINES READ, LINE EVENTS CLEAR (R14 to R16) -/

/-- R14: the masked output lines take the given driven states. -/
def setLines (n : Node) (m values : Per6 Bool) (s : State) : State :=
  s.modLines fun k =>
    { k with line := k.line.modify n fun ls => Per6.build fun l =>
        if m.get l && (ls.get l).role.isOutput then { ls.get l with driven := values.get l } else ls.get l }

/-- R14: what the reply to LINES SET carries. -/
def linesSetDetails (s : State) (n : Node) (m : Per6 Bool) : List Byte :=
  lineMaskByte (lineSet fun l => m.get l && !(s.line n l).role.isOutput)
    :: allLines.flatMap fun l => be8 (drivenCode (s.line n l).driven)

/-- LINES SET, R14. -/
def serveLinesSet (tag : Tag) (body : List Byte) (s : State) : State :=
  match body with
  | [node, mask, values] =>
    match node? node, lineMask? mask with
    | some n, some m =>
      if allLines.any fun l => m.get l && (s.line n l).role.isOutput && (s.line n l).owner != .none then
        s.reply tag 0x11#8 .linesHeld []
      else
        let t := setLines n m (lineSet fun l => values.getLsbD l.val) s
        t.reply tag 0x11#8 .done (linesSetDetails t n m)
    | _, _ => badRequest tag 0x11#8 s
  | _ => badRequest tag 0x11#8 s

/-- R15: what LINES READ reports of one line. -/
def lineReport (l : Line) : List Byte :=
  be8 (roleCode l.role) ++ be8 (drivenCode l.driven) ++ be8 (ownerCode l.owner) ++ be8 (levelCode l.level)
    ++ [flagByte l.flag, flagByte (l.flag && l.notify)]

/-- R15: what the reply to LINES READ carries. -/
def linesReadDetails (s : State) (n : Node) : List Byte :=
  (allLines.flatMap fun l => lineReport (s.line n l)) ++ be8 (powerCode (s.powerState n))
    ++ be16 s.lines.samplePeriod

/-- LINES READ, R15. -/
def serveLinesRead (tag : Tag) (body : List Byte) (s : State) : State :=
  match body with
  | [node] =>
    match node? node with
    | some n => s.reply tag 0x12#8 .done (linesReadDetails s n)
    | none => badRequest tag 0x12#8 s
  | _ => badRequest tag 0x12#8 s

/-- R16: a clear of the event flags of the masked lines. -/
def clearFlags (n : Node) (m : Per6 Bool) (s : State) : State :=
  s.modLines fun k =>
    { k with line := k.line.modify n fun ls => Per6.build fun l =>
        if m.get l then (ls.get l).clearFlag else ls.get l }

/-- LINE EVENTS CLEAR, R16. -/
def serveLineEventsClear (tag : Tag) (body : List Byte) (s : State) : State :=
  match body with
  | [node, mask] =>
    match node? node, lineMask? mask with
    | some n, some m =>
      let t := clearFlags n m s
      t.reply tag 0x13#8 .done (allLines.map fun l => flagByte (t.line n l).flag)
    | _, _ => badRequest tag 0x13#8 s
  | _ => badRequest tag 0x13#8 s

/-! ## POWER ACTION (R21, R31, R32) -/

/-- R31: a running kind that an arriving HARD OFF or CYCLE preempts (an escalated SOFT OFF runs as HARD OFF). -/
def preemptable : ActionKind → Bool
  | .powerOn | .softOff | .reset | .diag => true
  | .hardOff | .cycle => false

/-- R31: the kinds that preempt. -/
def preempts : ActionKind → Bool
  | .hardOff | .cycle => true
  | .powerOn | .softOff | .reset | .diag => false

/-- R21, R31: how a POWER ACTION of a kind is decided after its structure. -/
inductive ActionDecision where
  | answer (r : Result) | start | preempt
  deriving DecidableEq, Repr

/-- R21, checks 4: the kind already stands as asked. -/
def alreadySo (kind : ActionKind) (p : PowerState) : Bool :=
  match kind, p with
  | .powerOn, .on | .softOff, .off | .hardOff, .off => true
  | _, _ => false

/-- R21, check 3: RESET or DIAG on a node that is OFF. -/
def needsPower : ActionKind → Bool
  | .reset | .diag => true
  | .powerOn | .softOff | .hardOff | .cycle => false

/-- R21: the first check that applies. -/
def decideAction (s : State) (n : Node) (kind : ActionKind) : ActionDecision :=
  if (lineOf s n (firstRole kind)).isNone then .answer .noLine
  else if needsPower kind ∧ s.powerState n = .off then .answer .nodeOff
  else if alreadySo kind (s.powerState n) then .answer .already
  else
    match s.action n with
    | none => .start
    | some a => if preemptable a.kind ∧ preempts kind then .preempt else .answer .busy

/-- R33, R167: a host action is accepted: it cancels a pending recovery, unless it is a DIAG, and starts; a SOFT OFF
or HARD OFF releases a supervisor-owned BOOT_SELECT. -/
def acceptAction (n : Node) (kind : ActionKind) (tag : Tag) (escalate : Bool) (s : State) : State :=
  let t := if kind = .diag then s else cancelPending n kind s
  let t := startAction n kind (.host tag) (escalate && kind == .softOff) t
  if kind = .softOff ∨ kind = .hardOff then releaseBootSelect n t else t

/-- R32: the running action completes PREEMPTED, through steps 1 to 3 of R30. -/
def preemptRunning (n : Node) (s : State) : State :=
  match s.action n with
  | some a => endAction n a .preempted s
  | none => s

/-- POWER ACTION, R21. -/
def servePowerAction (tag : Tag) (body : List Byte) (s : State) : State :=
  match body with
  | [node, kind, options] =>
    match node? node, actionKind? kind with
    | some n, some k =>
      match decideAction s n k with
      | .answer r => s.reply tag 0x20#8 r (powerActionDetails s n k false)
      | .start => acceptAction n k tag (options.getLsbD 0) s
      | .preempt => acceptAction n k tag (options.getLsbD 0) (preemptRunning n s)
    | _, _ => badRequest tag 0x20#8 s
  | _ => badRequest tag 0x20#8 s

/-! ## POWER TIMINGS and POWER WATCH (R19, R35, R37) -/

/-- R19: a running action as POWER TIMINGS reports it. -/
def actionReport (a : Action) : List Byte :=
  be8 (actionKindCode a.kind) ++ be8 (originatorCode a.originator) ++ be8 (actionStateCode a.state)
    ++ [flagByte a.escalated]

/-- R19: what the reply to POWER TIMINGS carries. -/
def powerTimingsDetails (s : State) (n : Node) : List Byte :=
  timingsBytes (s.power.timings.get n) ++ optional 4 ((s.action n).map actionReport)
    ++ optional 1 ((s.power.slot.get n).map fun k => be8 (recoveryCode k))

/-- POWER TIMINGS, R19. -/
def servePowerTimings (tag : Tag) (body : List Byte) (s : State) : State :=
  match body with
  | node :: rest =>
    match node? node with
    | some n =>
      match timings? (s.power.timings.get n) rest with
      | some x =>
        let t := s.modPower fun p => { p with timings := p.timings.set n x }
        t.reply tag 0x21#8 .done (powerTimingsDetails t n)
      | none => badRequest tag 0x21#8 s
    | none => badRequest tag 0x21#8 s
  | [] => badRequest tag 0x21#8 s

/-- R35, R37: an accepted POWER WATCH: a running watch is superseded, then the states are compared. -/
def startWatch (tag : Tag) (e : Per4 Expected) (timeout : Nat) (s : State) : State :=
  let t := endWatch .superseded s
  if watchAgrees t e then
    t.modPower fun p =>
      { p with watch := some { tag := tag, expected := e, timeout := timeout, remaining := timeout * 1000 } }
  else t.reply tag 0x22#8 .changed (watchDetails t timeout)

/-- POWER WATCH, R35. -/
def servePowerWatch (tag : Tag) (body : List Byte) (s : State) : State :=
  match body with
  | [e0, e1, e2, e3, t0, t1] =>
    match expected? e0, expected? e1, expected? e2, expected? e3 with
    | some a, some b, some c, some d => startWatch tag ⟨a, b, c, d⟩ (clamp 1 3600 (u16 t0 t1)) s
    | _, _, _, _ => badRequest tag 0x22#8 s
  | _ => badRequest tag 0x22#8 s

end Sys2Proof.Machine
end

