-- ==== Sys2Proof/Machine/ConsoleRequests.lean ====
section
/-!
DEFINITION. The requests of the Console Engine (R41, R42, R52, R54, R55, R57, R73) and of the Page Pool Manager (R88
to R90): what serving each of them does.
-/

namespace Sys2Proof.Machine

/-! ## CONSOLE CONFIG (R41, R42, R61, R74) -/

/-- R63: the flood window restarts. -/
def Console.restartWindow (c : Console) : Console := { c with count := 0, windowRemaining := c.settings.window }

/-- R42: a character or break that is only partly received is discarded; a recognized break stays; otherwise the
receiver waits for a high line. The parity error that a held character was counted with under ODD parity stays (R44,
log 47). -/
def Receiver.reconfigured : Receiver → Receiver
  | .inBreak => .inBreak
  | .receiving | .held | .discarding => .discarding
  | .idle | .waitHigh => .waitHigh

/-- R42, R74: new settings reach a console. -/
def Console.configure (x : ConsoleSettings) (c : Console) : Console :=
  ({ c with settings := x, receiver := c.receiver.reconfigured } : Console).restartWindow

/-- R41, R62: settings with their derived values, as CONSOLE CONFIG reports them. -/
def consoleConfigDetails (c : ConsoleSettings) : List Byte :=
  be32 c.baud ++ be16 c.divisor ++ be32 c.actualBaud ++ be8 c.charBits
    ++ [BitVec.ofNat 8 c.dataBits, BitVec.ofNat 8 (parityCode c.parity), BitVec.ofNat 8 c.stopBits, flagByte c.ctsUse]
    ++ be16 c.window ++ be8 c.rise ++ be8 c.fall ++ be32 c.budget ++ be32 c.riseThreshold ++ be32 c.fallThreshold

/-- R42: an accepted CONSOLE CONFIG. -/
def applyConsoleConfig (n : Node) (x : ConsoleSettings) (s : State) : State :=
  ((s.modConsole n (Console.configure x)).mark n .reconfig).clearPartials n

/-- CONSOLE CONFIG, R41. -/
def serveConsoleConfig (tag : Tag) (body : List Byte) (s : State) : State :=
  match body with
  | node :: rest =>
    match node? node with
    | some n =>
      match consoleSettings? (s.consoles.get n).settings rest with
      | some x => (applyConsoleConfig n x s).reply tag 0x30#8 .done (consoleConfigDetails x)
      | none => badRequest tag 0x30#8 s
    | none => badRequest tag 0x30#8 s
  | [] => badRequest tag 0x30#8 s

/-! ## CONSOLE SEND and CONSOLE BREAK (R54, R55) -/

/-- The bytes a transmit FIFO holds at most (R53). -/
def fifoRoom : Nat := 256

/-- R54: how many of some bytes the transmit FIFO of a console takes. -/
def fifoAccepts (c : Console) (bytes : List Byte) : Nat := min bytes.length (fifoRoom - c.fifo.length)

/-- R54: the bytes that fit join the transmit FIFO. -/
def Console.send (bytes : List Byte) (c : Console) : Console :=
  { c with fifo := c.fifo ++ bytes.take (fifoAccepts c bytes) }

/-- CONSOLE SEND, R54; both numbers of the reply take two bytes (log 11). -/
def serveConsoleSend (tag : Tag) (body : List Byte) (s : State) : State :=
  match body with
  | node :: bytes =>
    match node? node with
    | some n =>
      if 1 ≤ bytes.length ∧ bytes.length ≤ fifoRoom then
        let k := fifoAccepts (s.consoles.get n) bytes
        let t := s.modConsole n (Console.send bytes)
        t.reply tag 0x31#8 .done (be16 k ++ be16 (fifoRoom - (t.consoles.get n).fifo.length))
      else badRequest tag 0x31#8 s
    | none => badRequest tag 0x31#8 s
  | [] => badRequest tag 0x31#8 s

/-- R55, step 1: a break begins: it waits for the character in progress, if there is one. -/
def Console.startBreak (tag : Tag) (d : Nat) (c : Console) : Console :=
  let b : Break :=
    { phase := if c.sending.isSome then .waiting else .low, duration := d, remaining := d, tag := tag }
  { c with break_ := some b }

/-- CONSOLE BREAK, R55. -/
def serveConsoleBreak (tag : Tag) (body : List Byte) (s : State) : State :=
  match body with
  | [node, d0, d1] =>
    match node? node with
    | some n =>
      if (s.consoles.get n).break_.isSome then s.reply tag 0x32#8 .busy []
      else s.modConsole n (Console.startBreak tag (clamp 1 2000 (u16 d0 d1)))
    | none => badRequest tag 0x32#8 s
  | _ => badRequest tag 0x32#8 s

/-! ## CONSOLE READ (R52) -/

/-- R52: the number of bytes a read from `start` returns. -/
def readLength (c : Console) (start : Word) (maximum : Nat) : Nat := min maximum (c.live - start).toNat

/-- R52: the marks of a returned range, in list order. -/
def marksInRange (c : Console) (start : Word) (number : Nat) : List Mark :=
  c.marks.filter fun m =>
    (m.offset - start).toNat < number || (start + BitVec.ofNat 32 number == c.live && m.offset == c.live)

/-- The marks one CONSOLE READ returns at most (R52). -/
def marksReturned : Nat := 8

/-- R52: what the reply to CONSOLE READ carries. -/
def consoleReadDetails (s : State) (n : Node) (offset : Word) (maximum skip : Nat) : List Byte :=
  let c := s.consoles.get n
  let start := placed c.oldest c.live offset
  let number := readLength c start maximum
  let marks := (marksInRange c start number).drop skip
  let shown := marks.take marksReturned
  word32 start ++ be16 number ++ word32 c.oldest ++ word32 c.live ++ be32 (marks.length - shown.length)
    ++ historyBytes s n start number ++ be16 shown.length ++ shown.flatMap markBytes

/-- CONSOLE READ, R52. -/
def serveConsoleRead (tag : Tag) (body : List Byte) (s : State) : State :=
  match body with
  | [node, o0, o1, o2, o3, m0, m1, skip] =>
    match node? node with
    | some n =>
      s.reply tag 0x33#8 .done (consoleReadDetails s n (BitVec.ofNat 32 (u32 o0 o1 o2 o3)) (clamp 1 512 (u16 m0 m1))
        (clamp 0 31 skip.toNat))
    | none => badRequest tag 0x33#8 s
  | _ => badRequest tag 0x33#8 s

/-! ## CONSOLE FORWARD (R73) -/

/-- R73: the cursor that an accepted CONSOLE FORWARD gives. -/
def forwardCursor (c : Console) (on atOffset : Bool) (offset : Word) : Option Word :=
  if on then some (if atOffset then placed c.oldest c.live offset else c.live) else none

/-- R73: the offset asked for was moved to the oldest or the live offset. -/
def forwardMoved (c : Console) (on atOffset : Bool) (offset : Word) : Bool :=
  on && atOffset && placed c.oldest c.live offset != offset

/-- R73: what the reply to CONSOLE FORWARD carries. -/
def consoleForwardDetails (n : Node) (c : Console) (moved : Bool) : List Byte :=
  be8 n.val ++ [flagByte c.cursor.isSome] ++ optional 4 (c.cursor.map word32) ++ [flagByte moved] ++ word32 c.oldest
    ++ word32 c.live ++ [flagByte c.flood]

/-- CONSOLE FORWARD, R73. -/
def serveConsoleForward (tag : Tag) (body : List Byte) (s : State) : State :=
  match body with
  | [node, state, selection, o0, o1, o2, o3] =>
    match node? node, flag? state, flag? selection with
    | some n, some on, some atOffset =>
      let offset : Word := BitVec.ofNat 32 (u32 o0 o1 o2 o3)
      let moved := forwardMoved (s.consoles.get n) on atOffset offset
      let t := s.modConsole n fun c => { c with cursor := forwardCursor c on atOffset offset, skip := 0 }
      t.reply tag 0x34#8 .done (consoleForwardDetails n (t.consoles.get n) moved)
    | _, _, _ => badRequest tag 0x34#8 s
  | _ => badRequest tag 0x34#8 s

/-! ## CONSOLE STATUS (R57, R60) -/

/-- R57, R60: what the reply to CONSOLE STATUS carries; `cts` is the level of the node's CTS pin (log 19), coded by its
position in R1's list of levels, HIGH 0 and LOW 1 (log 32). A break in its recovery time is reported as in progress, with
0 ms remaining (log 48). -/
def consoleStatusDetails (c : Console) (cts : Level) : List Byte :=
  let x := c.settings
  be32 x.baud ++ be16 x.divisor ++ be32 x.actualBaud ++ be8 x.charBits
    ++ [BitVec.ofNat 8 x.dataBits, BitVec.ofNat 8 (parityCode x.parity), BitVec.ofNat 8 x.stopBits, flagByte x.ctsUse]
    ++ word32 c.oldest ++ word32 c.live ++ be16 c.pages.length ++ be8 c.marks.length ++ be16 c.fifo.length
    ++ optional 2 (c.break_.map fun b => be16 b.remaining) ++ be8 (levelCode cts)
    ++ word32 c.framingErrors ++ word32 c.parityErrors ++ word32 c.breaks ++ word32 c.dropped
    ++ [flagByte c.cursor.isSome] ++ optional 4 (c.cursor.map word32) ++ [flagByte c.flood] ++ be32 c.count
    ++ be32 x.budget ++ be32 x.riseThreshold ++ be32 x.fallThreshold ++ be16 x.window ++ be8 x.rise ++ be8 x.fall

/-- CONSOLE STATUS, R57; `pins` are the levels of the nodes' CTS pins in this step. -/
def serveConsoleStatus (tag : Tag) (body : List Byte) (pins : Per4 Level) (s : State) : State :=
  match body with
  | [node] =>
    match node? node with
    | some n => s.reply tag 0x35#8 .done (consoleStatusDetails (s.consoles.get n) (pins.get n))
    | none => badRequest tag 0x35#8 s
  | _ => badRequest tag 0x35#8 s

/-! ## POOL CONFIG (R88, R89) -/

/-- R199: bit i of a holder mask is for the i-th holder in holder order. -/
def maskedHolders (mask : Byte) : List Holder :=
  (allHolders.zipIdx.filter fun x => mask.getLsbD x.2).map fun x => x.1

/-- R77, R199: the clamped reservation and share of the masked holders, from two bytes each. -/
def maskedShares : List Holder → List Byte → Option (List (Holder × Nat × Nat))
  | [], [] => some []
  | h :: hs, r :: x :: rest =>
    (maskedShares hs rest).map fun l => (h, clampReservation h r.toNat, clampShare x.toNat) :: l
  | _, _ => none

/-- R89: the holder records with the new reservations and shares. -/
def Pool.applyShares (xs : List (Holder × Nat × Nat)) (p : Pool) : Pool :=
  xs.foldl (fun q x => q.modHolder x.1 fun r => { r with reservation := x.2.1, share := x.2.2 }) p

/-- R88: at least one reservation changes. -/
def reservationChanges (p : Pool) (xs : List (Holder × Nat × Nat)) : Bool :=
  xs.any fun x => x.2.1 != (p.holder x.1).reservation

/-- The greatest sum of the reservations (R88). -/
def reservationLimit : Nat := 192

/-- R88, R151: the aging tick a request gives; a tick other than 0 restarts the aging timer. -/
def applyTick (tick : Nat) (s : State) : State :=
  if tick = 0 then s
  else
    (s.modPool fun p => { p with agingTick := clamp 1 60 tick }).modCache fun c =>
      { c with agingRemaining := clamp 1 60 tick * 1000 }

/-- R89: what the reply to an accepted POOL CONFIG carries: each holder's settings and ceiling, Q, the aging tick. -/
def poolConfigDetails (s : State) : List Byte :=
  (allHolders.flatMap fun h =>
    be8 (s.pool.holder h).reservation ++ be8 (s.pool.holder h).share ++ be8 (ceiling s h))
    ++ be8 s.pool.common ++ be8 s.pool.agingTick

/-- POOL CONFIG, R88. -/
def servePoolConfig (tag : Tag) (body : List Byte) (s : State) : State :=
  match body with
  | mask :: tick :: rest =>
    match maskedShares (maskedHolders mask) rest with
    | none => badRequest tag 0x40#8 s
    | some xs =>
      let p := s.pool.applyShares xs
      if reservationLimit < p.reserved then s.reply tag 0x40#8 .poolOvercommit (be32 p.reserved)
      else if reservationChanges s.pool xs ∧ p.common < p.borrowed then
        s.reply tag 0x40#8 .poolInUse (be32 p.borrowed ++ be8 p.common)
      else
        let t := poolChanged (applyTick tick.toNat { s with pool := p })
        t.reply tag 0x40#8 .done (poolConfigDetails t)
  | _ => badRequest tag 0x40#8 s

/-! ## POOL STATUS (R90) -/

/-- R78, R90: what POOL STATUS reports of one holder. -/
def holderReport (s : State) (h : Holder) : List Byte :=
  let r := s.pool.holder h
  be8 r.reservation ++ be8 r.share ++ be16 (s.pool.held h) ++ be16 (s.pool.borrow h) ++ be8 (s.pool.shortfall h)
    ++ be8 (ceiling s h) ++ be16 (excess s h)
    ++ match h with
      | .ch _ => [flagByte (floodOf s h)]
      | .mh _ => []

/-- R76, R90: the four counters of a holder. -/
def holderCounters (r : HolderRecord) : List Byte :=
  word32 r.reclaimedFrom ++ word32 r.reclaimedBy ++ word32 r.selfRecycles ++ word32 r.failures

/-- R90: the owner map, preceded by the count of its entries. -/
def ownerMap (p : Pool) (wanted : Bool) : List Byte :=
  if wanted then be16 256 ++ p.owners.toList.map fun o => BitVec.ofNat 8 (holderCode o) else be16 0

/-- R90: what the reply to POOL STATUS carries. -/
def poolStatusDetails (s : State) (map : Bool) : List Byte :=
  be16 s.pool.free ++ be8 s.pool.common ++ be32 s.pool.borrowed ++ allHolders.flatMap (holderReport s)
    ++ (allHolders.flatMap fun h => holderCounters (s.pool.holder h)) ++ be8 s.pool.agingTick ++ ownerMap s.pool map

/-- POOL STATUS, R90. -/
def servePoolStatus (tag : Tag) (body : List Byte) (s : State) : State :=
  match body with
  | [option] =>
    match flag? option with
    | some map => s.reply tag 0x41#8 .done (poolStatusDetails s map)
    | none => badRequest tag 0x41#8 s
  | _ => badRequest tag 0x41#8 s

end Sys2Proof.Machine
end

