-- ==== Sys2Proof/Machine/UnitRequests.lean ====
section
/-!
DEFINITION. The requests of the Media Unit Table (R94, R98, R107), of the Node Media Ports (R128) and of the Boot
Supervisor (R154, R158, R170, R171): what serving each of them does.
-/

namespace Sys2Proof.Machine

/-! ## UNIT ATTACH (R94, R95) -/

/-- R94: a fetch/store timeout as clamped. -/
def unitTimeout (t : Nat) : Nat := if t = 0 then 50 else clamp 1 600 t

/-- R94: a read-ahead window as clamped; 0 is off. -/
def unitWindow (w : Nat) : Nat := if w = 0 then 0 else clamp 8 64 w

/-- R94: a dirty limit as clamped. -/
def unitDirtyLimit (d : Nat) : Nat := if d = 0 then 16 else clamp 1 64 d

/-- R94: a capacity as clamped. -/
def unitCapacity (c : Nat) : Nat := max 1 c

/-- The nodes of a mask, in their order. -/
def maskNodes (m : Per4 Bool) : List Node := allNodes.filter fun n => m.get n

/-- R94, check 1: the mask is empty, or an EXCLUSIVE unit's mask names more than one node. -/
def badMask (mode : Mode) (m : Per4 Bool) : Bool :=
  (maskNodes m).isEmpty || (mode == .exclusive && 1 < (maskNodes m).length)

/-- R94, check 3: the first node of the mask that another unit's node set holds, with that unit. -/
def nodeConflict (s : State) (u : UnitId) (m : Per4 Bool) : Option (Node × UnitId) :=
  (maskNodes m).findSome? fun n =>
    (allNodes.find? fun v => v != u && (s.units.get v).nodes.get n).map fun v => (n, v)

/-- R95: the record of a unit as it is attached. -/
def attachedUnit (mode : Mode) (m : Per4 Bool) (capacity timeout window limit : Nat) : MediaUnit :=
  { state := .attached, capacity := unitCapacity capacity, mode := mode, nodes := m, writer := none,
    timeout := unitTimeout timeout, window := unitWindow window, dirtyLimit := unitDirtyLimit limit, consecutive := 0,
    storeFailures := 0, fetchFailures := 0, fetchTimeouts := 0, detachTag := none, stored := 0 }

/-- R95: an accepted UNIT ATTACH: the record is filled and the ports of the node set have attention set. -/
def attachUnit (u : UnitId) (x : MediaUnit) (s : State) : State :=
  (maskNodes x.nodes).foldl (fun t n => setAttention n t) (s.modUnit u fun _ => x)

/-- R95, R199: what an accepted reply to UNIT ATTACH carries. -/
def unitAttachDetails (u : UnitId) (x : MediaUnit) : List Byte :=
  be8 u.val ++ be8 (unitStateCode x.state) ++ be8 (modeCode x.mode) ++ [nodeMaskByte x.nodes] ++ be32 x.capacity
    ++ be16 x.timeout ++ be8 x.window ++ be8 x.dirtyLimit

/-- UNIT ATTACH, R94. -/
def serveUnitAttach (tag : Tag) (body : List Byte) (s : State) : State :=
  match body with
  | [unit, mode, mask, c0, c1, c2, c3, t0, t1, window, limit] =>
    match node? unit, mode? mode, nodeMask? mask with
    | some u, some k, some m =>
      if badMask k m then badRequest tag 0x50#8 s
      else if (s.units.get u).state ≠ .detached then s.reply tag 0x50#8 .unitBusy []
      else
        match nodeConflict s u m with
        | some (n, v) => s.reply tag 0x50#8 .nodeHasUnit (be8 n.val ++ be8 v.val)
        | none =>
          let x := attachedUnit k m (u32 c0 c1 c2 c3) (u16 t0 t1) window.toNat limit.toNat
          (attachUnit u x s).reply tag 0x50#8 .done (unitAttachDetails u x)
    | _, _, _ => badRequest tag 0x50#8 s
  | _ => badRequest tag 0x50#8 s

/-! ## UNIT DETACH (R98 to R100, R105) -/

/-- R99: a detach at once. -/
def detachAtOnce (u : UnitId) (tag : Tag) (s : State) : State :=
  (afterLeaving s (takeOut u s)).reply tag 0x51#8 .done (be32 (s.pool.held (.mh u)))

/-- R105, steps 1 to 6. -/
def forceOut (u : UnitId) (s : State) : State := (takeOut u s).modUnit u fun x => { x with consecutive := 0 }

/-- R105: what the reply to a forcing request carries, from the state before it. -/
def forcedDetails (s : State) (u : UnitId) : List Byte :=
  be8 u.val ++ be8 (unitStateCode (s.units.get u).state) ++ be32 (dirtyCount s u) ++ be32 (activePorts s u)
    ++ be32 (s.pool.held (.mh u))

/-- R105, R108: a drain's deferred reply is queued with a result and the discarded count. -/
def endDrainReply (before : State) (u : UnitId) (r : Result) (s : State) : State :=
  match (before.units.get u).detachTag with
  | some tag => s.reply tag 0x51#8 r (be32 (dirtyCount before u))
  | none => s

/-- R105: a forced detach. -/
def detachForced (u : UnitId) (tag : Tag) (s : State) : State :=
  (endDrainReply s u .forced (afterLeaving s (forceOut u s))).reply tag 0x51#8 .done (forcedDetails s u)

/-- R98: a UNIT DETACH of a unit, by its state and the force option. -/
def detachUnit (u : UnitId) (tag : Tag) (force : Bool) (s : State) : State :=
  match (s.units.get u).state, force with
  | .detached, _ => s.reply tag 0x51#8 .already []
  | .attached, true | .draining, true | .storeFault, true => detachForced u tag s
  | .attached, false => if dirtyCount s u = 0 then detachAtOnce u tag s else afterLeaving s (startDrain u tag s)
  | .draining, false => s.reply tag 0x51#8 .busy []
  | .storeFault, false => s.reply tag 0x51#8 .unitFaulted []

/-- UNIT DETACH, R98. -/
def serveUnitDetach (tag : Tag) (body : List Byte) (s : State) : State :=
  match body with
  | [unit, options] =>
    match node? unit with
    | some u => detachUnit u tag (options.getLsbD 0) s
    | none => badRequest tag 0x51#8 s
  | _ => badRequest tag 0x51#8 s

/-! ## UNIT STATUS (R107) -/

/-- A value that a DETACHED unit does not have. -/
def MediaUnit.present (x : MediaUnit) (bytes : List Byte) : Option (List Byte) :=
  if x.state = .detached then none else some bytes

/-- R107: what the reply to UNIT STATUS carries. -/
def unitStatusDetails (s : State) (u : UnitId) : List Byte :=
  let x := s.units.get u
  be8 (unitStateCode x.state) ++ optional 4 (x.present (be32 x.capacity)) ++ optional 1 (x.present (be8 (modeCode x.mode)))
    ++ optional 1 (x.present [nodeMaskByte x.nodes]) ++ optional 1 (x.writer.map fun n => be8 n.val)
    ++ optional 2 (x.present (be16 x.timeout)) ++ optional 1 (x.present (be8 x.window))
    ++ optional 1 (x.present (be8 x.dirtyLimit)) ++ [flagByte x.detachTag.isSome] ++ be8 x.consecutive
    ++ word32 x.storeFailures ++ word32 x.fetchFailures ++ word32 x.fetchTimeouts
    ++ be32 (pagesIn s u .filling) ++ be32 (pagesIn s u .clean) ++ be32 (pagesIn s u .dirty)
    ++ be32 (pagesIn s u .storing) ++ be32 (fetchesOf s u) ++ be32 (storesOf s u)

/-- UNIT STATUS, R107. -/
def serveUnitStatus (tag : Tag) (body : List Byte) (s : State) : State :=
  match body with
  | [unit] =>
    match node? unit with
    | some u => s.reply tag 0x52#8 .done (unitStatusDetails s u)
    | none => badRequest tag 0x52#8 s
  | _ => badRequest tag 0x52#8 s

/-! ## MEDIA PORT CONFIG (R128) -/

/-- R128: the active command of a port with its staged count. -/
def activeReport (p : Port) (a : ActiveCommand) : List Byte :=
  be8 (commandKindCode a.kind) ++ be32 a.first ++ be8 a.count ++ be8 a.effective ++ be8 a.done ++ be8 p.slots.length

/-- R128: what the reply to MEDIA PORT CONFIG carries. The last status has its code of R200, as in a status block, not its
position in R111's list, and the kind of the active command its position in R109's list, not its command code of R200
(log 32). -/
def mediaPortDetails (s : State) (n : Node) : List Byte :=
  let p := port s n
  be8 p.spiMode ++ be16 p.idleTimeout ++ be8 (portStateCode p.state) ++ optional 9 (p.active.map (activeReport p))
    ++ be8 (waitCode p.wait) ++ [flagByte p.attention] ++ be8 (statusCode p.lastStatus) ++ be8 p.lastCount
    ++ [flagByte (unitOf s n).isSome] ++ word32 p.shortTransactions ++ word32 p.badCommands ++ word32 p.dataCrcErrors

/-- R128: new settings reach a port. The mode applies from the next assertion of chip select: where it changes while a
command block is coming in, that transaction keeps the mode in force when its chip select was asserted (log 53). -/
def Port.configure (mode timeout : Nat) (midBlock : Bool) (p : Port) : Port :=
  { p with
    spiMode := mode
    idleTimeout := timeout
    opening := if midBlock && mode != p.spiMode then some (p.opening.getD p.spiMode) else p.opening }

/-- MEDIA PORT CONFIG, R128; `midBlock` says at which ports a command block is coming in in this step. -/
def serveMediaPortConfig (tag : Tag) (body : List Byte) (midBlock : Per4 Bool) (s : State) : State :=
  match body with
  | [node, mode, t0, t1] =>
    match node? node with
    | some n =>
      match spiMode? (port s n).spiMode mode with
      | some k =>
        let t := s.modPort n fun p => p.configure k (idleTimeoutFrom p.idleTimeout (u16 t0 t1)) (midBlock.get n)
        t.reply tag 0x53#8 .done (mediaPortDetails t n)
      | none => badRequest tag 0x53#8 s
    | none => badRequest tag 0x53#8 s
  | _ => badRequest tag 0x53#8 s

/-! ## PATTERN SET (R154) -/

/-- R154: an entry is replaced, and its partial match is cleared for every node. -/
def setPattern (i : Fin 16) (p : Pattern) (s : State) : State :=
  s.modBoot fun b =>
    { b with patterns := b.patterns.set i.val p i.isLt, partials := b.partials.map fun v => v.set i.val 0 i.isLt }

/-- An entry index, where the byte names one. -/
def entry? (b : Byte) : Option (Fin 16) := if h : b.toNat < 16 then some ⟨b.toNat, h⟩ else none

/-- R154: what the reply to PATTERN SET carries: the entry as applied. -/
def patternDetails (i : Fin 16) (p : Pattern) : List Byte := be8 i.val ++ patternHeadBytes p ++ p.literal

/-- PATTERN SET, R154. -/
def servePatternSet (tag : Tag) (body : List Byte) (s : State) : State :=
  match body with
  | index :: enabled :: mask :: kind :: stage :: len :: literal =>
    match entry? index, pattern? enabled mask kind stage len literal with
    | some i, some p => (setPattern i p s).reply tag 0x60#8 .done (patternDetails i p)
    | _, _ => badRequest tag 0x60#8 s
  | _ => badRequest tag 0x60#8 s

/-! ## BOOT POLICY, BOOT REARM, BOOT STATUS (R158, R170, R171) -/

/-- R158: an accepted policy and its effects on the running supervisor. -/
def applyPolicy (n : Node) (p : Policy) (s : State) : State :=
  let t := (s.modBoot fun b => { b with policy := b.policy.set n p }).modSupervisor n fun v =>
    { v with attempts := min v.attempts p.limit }
  match (t.supervisor n).state with
  | .watching k => if p.final ≤ k then bootComplete n t else t
  | .idle | .complete | .recovering _ | .halted => t

/-- BOOT POLICY, R158. -/
def serveBootPolicy (tag : Tag) (body : List Byte) (s : State) : State :=
  match body with
  | node :: rest =>
    match node? node, policy? rest with
    | some n, some p =>
      let t := applyPolicy n p s
      t.reply tag 0x61#8 .done (policyBytes p ++ be8 (supStateCode (t.supervisor n).state))
    | _, _ => badRequest tag 0x61#8 s
  | [] => badRequest tag 0x61#8 s

/-- R170: an accepted BOOT REARM. -/
def rearm (n : Node) (s : State) : State :=
  let t := releaseBootSelect n (s.modSupervisor n fun v => { v with attempts := 0, lastFailure := none })
  if t.powerState n = .off then bootProgress n (supTo n .idle t) else arm n t

/-- BOOT REARM, R170. -/
def serveBootRearm (tag : Tag) (body : List Byte) (s : State) : State :=
  match body with
  | [node] =>
    match node? node with
    | some n =>
      match (s.supervisor n).state with
      | .recovering _ => s.reply tag 0x62#8 .busy []
      | .idle | .watching _ | .complete | .halted =>
        let t := rearm n s
        let v := t.supervisor n
        t.reply tag 0x62#8 .done (be8 (supStateCode v.state) ++ stageBytes v.state ++ be8 v.attempts)
    | none => badRequest tag 0x62#8 s
  | _ => badRequest tag 0x62#8 s

/-- R171: what BOOT STATUS reports of one pattern entry. -/
def entryReport (s : State) (n : Node) (i : Fin 16) : List Byte :=
  let p := s.boot.patterns[i]
  [flagByte (p.applies n), flagByte p.isFail] ++ be8 p.stage ++ be8 (s.boot.partials.get n)[i]

/-- R171: what the reply to BOOT STATUS carries. -/
def bootStatusDetails (s : State) (n : Node) : List Byte :=
  let v := s.supervisor n
  be8 (supStateCode v.state) ++ stageBytes v.state ++ phaseBytes v.state ++ optional 4 (v.deadline.map be32)
    ++ be8 v.attempts ++ causeBytes v.lastFailure ++ [flagByte v.fallback] ++ policyBytes (s.boot.policy.get n)
    ++ (List.finRange 16).flatMap (entryReport s n)

/-- BOOT STATUS, R171. -/
def serveBootStatus (tag : Tag) (body : List Byte) (s : State) : State :=
  match body with
  | [node] =>
    match node? node with
    | some n => s.reply tag 0x63#8 .done (bootStatusDetails s n)
    | none => badRequest tag 0x63#8 s
  | _ => badRequest tag 0x63#8 s

end Sys2Proof.Machine
end

