-- ==== Sys2Proof/Machine/Settings.lean ====
section
/-!
DEFINITION. The settings image (R192, R193, R195, R201): the settings of all blocks, how they are written as 794
bytes, how an image is examined and taken, and how settings come into force at the end of a load (R6, R58, R91, R194).
-/

namespace Sys2Proof.Machine

/-! ## The settings -/

/-- The settings of a media port (R109). -/
structure PortSettings where
  spiMode : Nat
  idleTimeout : Nat
  deriving DecidableEq, Repr

/-- The settings of a holder (R76). -/
structure HolderSettings where
  reservation : Nat
  share : Nat
  deriving DecidableEq, Repr

/-- R201: every setting of the part. -/
structure Settings where
  baud : Nat
  ratio : Nat
  samplePeriod : Nat
  lines : Per4 (Per6 LineSettings)
  timings : Per4 Timings
  consoles : Per4 ConsoleSettings
  ports : Per4 PortSettings
  channels : Per4 HolderSettings
  caches : Per4 HolderSettings
  agingTick : Nat
  patterns : Vector Pattern 16
  policies : Per4 Policy
  deriving DecidableEq, Repr

/-- The default reservations and shares (R77). -/
def defaultChannel : HolderSettings := { reservation := 4, share := 2 }

/-- The default reservation and share of a cache holder (R77). -/
def defaultCache : HolderSettings := { reservation := 8, share := 4 }

/-- The defaults of every chapter (R6, R19, R39, R60, R77, R109, R153, R158, R174). -/
def defaultSettings : Settings :=
  { baud := 115200, ratio := 4, samplePeriod := 4,
    lines := Per4.all (Per6.all { role := .unused, drive := .openDrain, active := .low, sense := .none, notify := false }),
    timings := Per4.all defaultTimings, consoles := Per4.all defaultConsole,
    ports := Per4.all { spiMode := 0, idleTimeout := 2000 }, channels := Per4.all defaultChannel,
    caches := Per4.all defaultCache, agingTick := 10, patterns := Vector.replicate 16 defaultPattern,
    policies := Per4.all defaultPolicy }

/-- The settings of a holder. -/
def HolderRecord.settings (r : HolderRecord) : HolderSettings := { reservation := r.reservation, share := r.share }

/-- R195: the applied value of every setting in every block. -/
def State.settings (s : State) : Settings :=
  { baud := s.link.baud, ratio := s.link.ratio, samplePeriod := s.lines.samplePeriod,
    lines := s.lines.line.map fun ls => ls.map Line.settings, timings := s.power.timings,
    consoles := s.consoles.map fun c => c.settings,
    ports := s.ports.map fun p => { spiMode := p.spiMode, idleTimeout := p.idleTimeout },
    channels := s.pool.consoles.map HolderRecord.settings, caches := s.pool.caches.map HolderRecord.settings,
    agingTick := s.pool.agingTick, patterns := s.boot.patterns, policies := s.boot.policy }

/-! ## Writing an image (R195, R201) -/

/-- The length of the image's body (R201). -/
def bodyLength : Nat := 787

/-- R201: the two bytes of a holder. -/
def HolderSettings.bytes (h : HolderSettings) : List Byte := be8 h.reservation ++ be8 h.share

/-- R201: the three bytes of a port. -/
def PortSettings.bytes (p : PortSettings) : List Byte := be8 p.spiMode ++ be16 p.idleTimeout

/-- R201: the body of the image. -/
def Settings.body (x : Settings) : List Byte :=
  be32 x.baud ++ be8 x.ratio ++ be8 x.samplePeriod
    ++ (x.lines.toList.flatMap fun ls => ls.toList.flatMap lineSettingsBytes)
    ++ x.timings.toList.flatMap timingsBytes ++ x.consoles.toList.flatMap consoleSettingsBytes
    ++ x.ports.toList.flatMap PortSettings.bytes ++ x.channels.toList.flatMap HolderSettings.bytes
    ++ x.caches.toList.flatMap HolderSettings.bytes ++ be8 x.agingTick
    ++ x.patterns.toList.flatMap patternImageBytes ++ x.policies.toList.flatMap policyBytes

/-- R201: the signature. -/
def signature : List Byte := [0x43#8, 0x44#8]

/-- R201: everything before the CRC. -/
def imageCore (body : List Byte) : List Byte := signature ++ be16 bodyLength ++ [1#8] ++ body

/-- R195, R201: a complete image with this body. -/
def imageOf (body : List Byte) : List Byte := imageCore body ++ be16 (crc16 (imageCore body)).toNat

/-- R195: the complete image of settings. -/
def Settings.image (x : Settings) : List Byte := imageOf x.body

/-! ## Examining a body (R192, check 6; R193) -/

/-- A run of bytes. -/
def slice (bytes : List Byte) (start len : Nat) : List Byte := (bytes.drop start).take len

/-- Four results together. -/
def per4? {α : Type} (f : Node → Option α) : Option (Per4 α) :=
  match f 0, f 1, f 2, f 3 with
  | some a, some b, some c, some d => some ⟨a, b, c, d⟩
  | _, _, _, _ => none

/-- R193: the six lines of a node, unless LINES CONFIG would refuse them. -/
def loadLines (bytes : List Byte) : Option (Per6 LineSettings) :=
  match lineSettings? (slice bytes 0 5), lineSettings? (slice bytes 5 5), lineSettings? (slice bytes 10 5),
    lineSettings? (slice bytes 15 5), lineSettings? (slice bytes 20 5), lineSettings? (slice bytes 25 5) with
  | some a, some b, some c, some d, some e, some f =>
    let ls : Per6 LineSettings := ⟨a, b, c, d, e, f⟩
    if ls.toList.any LineSettings.openDrainHigh || duplicateRole (ls.toList.map fun x => x.role) then none else some ls
  | _, _, _, _, _, _ => none

/-- R193: the settings of a port; KEEP and 0 take the defaults. -/
def loadPort : List Byte → Option PortSettings
  | [mode, t0, t1] => (spiMode? 0 mode).map fun k => { spiMode := k, idleTimeout := idleTimeoutFrom 2000 (u16 t0 t1) }
  | _ => none

/-- R77, R193: the settings of a holder, clamped. -/
def loadHolder (h : Holder) : List Byte → Option HolderSettings
  | [r, x] => some { reservation := clampReservation h r.toNat, share := clampShare x.toNat }
  | _ => none

/-- R193, R201: a pattern entry; the places past the literal's length are ignored. -/
def loadPattern : List Byte → Option Pattern
  | enabled :: mask :: kind :: stage :: len :: literal => pattern? enabled mask kind stage len (literal.take len.toNat)
  | _ => none

/-- R193, R201: the pattern entries from entry i on. -/
def loadPatterns (bytes : List Byte) : Option (Vector Pattern 16) :=
  let ps := (List.range 16).filterMap fun i => loadPattern (slice bytes (29 * i) 29)
  if h : ps.length = 16 then some ⟨ps.toArray, by simpa using h⟩ else none

/-- The link settings of a body, the default where the image says "keep" (R193). -/
def loadBaud (bytes : List Byte) : Nat :=
  match bytes with
  | [a, b, c, d] => clampOrKeep 115200 12000000 115200 (u32 a b c d)
  | _ => 115200

/-- One byte of a body as a number. -/
def byteAt (bytes : List Byte) (i : Nat) : Nat := (bytes.getD i 0#8).toNat

/-- R91, R193: reservations that sum above 192 are replaced by the defaults. -/
def overcommitted (channels caches : Per4 HolderSettings) : Bool :=
  reservationLimit < ((channels.toList ++ caches.toList).map fun h => h.reservation).sum

/-- R91: the default reservation with the image's share. -/
def HolderSettings.withReservation (h : HolderSettings) (r : Nat) : HolderSettings := { h with reservation := r }

/-- R192, R193: the settings a body gives and whether the pool's reservations were defaulted; `none` is CONTENT. -/
def loadBody (b : List Byte) : Option (Settings × Bool) :=
  match per4? fun n => loadLines (slice b (6 + 30 * n.val) 30),
    per4? fun n => timings? defaultTimings (slice b (126 + 14 * n.val) 14),
    per4? fun n => consoleSettings? defaultConsole (slice b (182 + 12 * n.val) 12),
    per4? fun n => loadPort (slice b (230 + 3 * n.val) 3),
    per4? fun n => loadHolder (.ch n) (slice b (242 + 2 * n.val) 2),
    per4? fun u => loadHolder (.mh u) (slice b (250 + 2 * u.val) 2),
    loadPatterns (slice b 259 464),
    per4? fun n => policy? (slice b (723 + 16 * n.val) 16) with
  | some lines, some timings, some consoles, some ports, some channels, some caches, some patterns, some policies =>
    let tooMuch := overcommitted channels caches
    some ({ baud := loadBaud (slice b 0 4), ratio := clampOrKeep 1 15 4 (byteAt b 4),
            samplePeriod := clampOrKeep 1 255 4 (byteAt b 5), lines := lines, timings := timings, consoles := consoles,
            ports := ports,
            channels := if tooMuch then channels.map fun h => h.withReservation 4 else channels,
            caches := if tooMuch then caches.map fun h => h.withReservation 8 else caches,
            agingTick := clampOrKeep 1 60 10 (byteAt b 258), patterns := patterns, policies := policies }, tooMuch)
  | _, _, _, _, _, _, _, _ => none

/-! ## Deciding a load (R192) -/

/-- R191, R192: what a load came to. -/
structure LoadOutcome where
  result : LoadResult
  cause : LoadCause
  defaulted : Bool
  settings : Settings
  deriving DecidableEq, Repr

/-- R192: a load that ends on a failed check uses the defaults for every setting. -/
def failedLoad (r : LoadResult) (c : LoadCause) : LoadOutcome :=
  { result := r, cause := c, defaulted := false, settings := defaultSettings }

/-- R192: the checks of an image of 794 bytes, in their order; the first that fails ends the load. -/
def judgeImage (image : List Byte) : LoadOutcome :=
  if slice image 0 2 ≠ signature then failedLoad .blank .none
  else if byteAt image 4 ≠ 1 then failedLoad .corrupt .revision
  else if slice image 2 2 ≠ be16 bodyLength then failedLoad .corrupt .length
  else if slice image 792 2 ≠ be16 (crc16 (slice image 0 792)).toNat then failedLoad .corrupt .crc
  else
    match loadBody (slice image 5 bodyLength) with
    | none => failedLoad .corrupt .content
    | some (x, tooMuch) => { result := .stored, cause := .none, defaulted := tooMuch, settings := x }

/-! ## The settings bus in a load (R192, check 1) -/

/-- R192: the 7-bit address of the settings memory. -/
def settingsAddress : BitVec 7 := 0x50#7

/-- R192: the address byte on the bus: the seven bits, then 1 for a read and 0 for a write (log 50). -/
def addressByte (read : Bool) : Byte := settingsAddress ++ BitVec.ofBool read

/-- R192: how many clocks of SCL the loader gives to free SDA. -/
def freeingClocks : Nat := 9

/-- R192, R196: for how long the loader repeats an address byte that is not acknowledged: 10 ms, in microseconds. -/
def acknowledgeWithin : Nat := 10000

/-- The bytes after the first address byte and before the image: the memory address in two bytes, and the address byte of
the read. -/
def addressingBytes : Nat := 3

/-- R192: SDA is high, at once or after up to nine clocks. -/
def busFree (b : SettingsBus) : Bool := b.sdaFreeAfter.any fun k => k ≤ freeingClocks

/-- R192: the address byte is acknowledged within 10 ms. -/
def busAcknowledges (b : SettingsBus) : Bool := b.acknowledgedAfter.any fun t => t ≤ acknowledgeWithin

/-- R192: how many bytes of an image a load reads before a check ends it: the signature, the header, or all of it. -/
def bytesRead (image : List Byte) : Nat :=
  if slice image 0 2 ≠ signature then 2
  else if byteAt image 4 ≠ 1 ∨ slice image 2 2 ≠ be16 bodyLength then 5
  else imageSize

/-- R192: a byte is not acknowledged before the load has read what it reads. -/
def busLost (b : SettingsBus) (image : List Byte) : Bool :=
  b.lostAfter.any fun k => k < addressingBytes + bytesRead image

/-- R192: the checks of a load, the bus and the device first. -/
def judgeRead (b : SettingsBus) (image : List Byte) : LoadOutcome :=
  if busFree b ∧ busAcknowledges b ∧ ¬ busLost b image then judgeImage image else failedLoad .noDevice .none

/-- What the loader does on the settings bus: a clock of SCL, a start and an address byte repeated for a time in
microseconds, a byte, the reading of bytes. -/
inductive BusAction where
  | clock
  | address (b : Byte) (micros : Nat)
  | send (b : Byte)
  | read (count : Nat)
  deriving DecidableEq, Repr

/-- R192: what follows an acknowledged address byte, while every byte is acknowledged: memory address 0, and the image in
address order. -/
def readActions (image : List Byte) : List BusAction :=
  [.send 0x00#8, .send 0x00#8, .address (addressByte true) 0, .read (bytesRead image)]

/-- R192: what follows an acknowledged address byte: everything, or what goes before the byte that is not acknowledged,
that one included. -/
def actionsAfterAddress (b : SettingsBus) (image : List Byte) : List BusAction :=
  match b.lostAfter with
  | none => readActions image
  | some k =>
    if k < addressingBytes then (readActions image).take (k + 1)
    else (readActions image).take addressingBytes ++ [.read (min (k - addressingBytes) (bytesRead image))]

/-- R192: everything the loader does on the settings bus in a load. -/
def loadActions (b : SettingsBus) (image : List Byte) : List BusAction :=
  List.replicate (min freeingClocks (b.sdaFreeAfter.getD freeingClocks)) .clock
    ++ (if busFree b then
      .address (addressByte false) (min acknowledgeWithin (b.acknowledgedAfter.getD acknowledgeWithin))
        :: (if busAcknowledges b then actionsAfterAddress b image else [])
    else [])

/-! ## Settings come into force (R6, R58, R91, R129, R174, R194) -/

/-- R6: a line at the end of loading: its settings, INACTIVE, unowned, its level acquired from one sample; a level
sense whose level is present sets the flag. -/
def acquiredLine (x : LineSettings) (sample : Level) : Line :=
  { role := x.role, drive := x.drive, active := x.active, sense := x.sense, notify := x.notify, driven := false,
    level := sample, last := sample, flag := x.sense.levelPresent sample, owner := .none }

/-- R6: the Line Control Unit at the end of loading; the power states are derived, not published. -/
def acquire (x : Settings) (pins : BitVec 24) (k : Lines) : Lines :=
  let line := Per4.build fun n => Per6.build fun l => acquiredLine ((x.lines.get n).get l) (pinLevel pins n l)
  { k with line := line, samplePeriod := x.samplePeriod, sinceSample := 0, power := line.map powerOf }

/-- R58: a console at the end of loading. -/
def Console.begin (x : ConsoleSettings) (c : Console) : Console :=
  ({ c with settings := x, receiver := .idle } : Console).restartWindow

/-- R91: a holder at the end of loading. -/
def HolderRecord.load (x : HolderSettings) (r : HolderRecord) : HolderRecord :=
  { r with reservation := x.reservation, share := x.share }

/-- R194: the settings come into force in every block. -/
def inForce (x : Settings) (pins : BitVec 24) (s : State) : State :=
  { s with
    lines := acquire x pins s.lines
    power := { s.power with timings := x.timings }
    consoles := Per4.build fun n => (s.consoles.get n).begin (x.consoles.get n)
    pool := { s.pool with
      consoles := Per4.build fun n => (s.pool.consoles.get n).load (x.channels.get n)
      caches := Per4.build fun u => (s.pool.caches.get u).load (x.caches.get u)
      agingTick := x.agingTick }
    ports := Per4.build fun n =>
      { s.ports.get n with spiMode := (x.ports.get n).spiMode, idleTimeout := (x.ports.get n).idleTimeout }
    cache := { s.cache with agingRemaining := x.agingTick * 1000 }
    boot := { s.boot with patterns := x.patterns, policy := x.policies }
    link := { s.link with baud := x.baud, ratio := x.ratio, lineBaud := x.baud } }

end Sys2Proof.Machine
end

