-- ==== Sys2Proof/Machine/LinkRequests.lean ====
section
/-!
DEFINITION. The requests of the Management Link Interface (R185, R186, R189 with every block's part of CLEAR) and of
the Settings Loader (R195), and the handing of a request to the block that owns it (R177).
-/

namespace Sys2Proof.Machine

/-! ## IDENTIFY and LINK CONFIG (R185, R186) -/

/-- R186: what the reply to IDENTIFY carries: the part code in two bytes, the revision and the numbers of nodes and units in
one each, the pool size in two (log 11). -/
def identifyDetails (s : State) : List Byte :=
  be16 0x0440 ++ be8 1 ++ be8 4 ++ be8 4 ++ be16 256 ++ be8 (loadResultCode s.loader.result)

/-- IDENTIFY, R186. -/
def serveIdentify (tag : Tag) (body : List Byte) (s : State) : State :=
  match body with
  | [] => s.reply tag 0x01#8 .done (identifyDetails s)
  | _ :: _ => badRequest tag 0x01#8 s

/-- R185: what the reply to LINK CONFIG carries. -/
def linkConfigDetails (k : Link) : List Byte :=
  be32 k.baud ++ be8 (linkDivisor k.baud) ++ be32 (linkActual k.baud) ++ be8 k.ratio ++ errorCounterBytes k.counters
    ++ word32 k.counters.stray

/-- R185: the applied link settings. -/
def Link.configure (baud ratio : Nat) (k : Link) : Link :=
  { k with baud := clampOrKeep 115200 12000000 k.baud baud, ratio := clampOrKeep 1 15 k.ratio ratio }

/-- LINK CONFIG, R185: the reply carries the new rate with it. -/
def serveLinkConfig (tag : Tag) (body : List Byte) (s : State) : State :=
  match body with
  | [b0, b1, b2, b3, ratio] =>
    s.modLink fun k =>
      let x := k.configure (u32 b0 b1 b2 b3) ratio.toNat
      x.addReply { tag := tag, body := replyBody 0x02#8 .done (linkConfigDetails x), rate := some x.baud }
  | _ => badRequest tag 0x02#8 s

/-! ## SAVE SETTINGS (R195) -/

/-- SAVE SETTINGS, R195. -/
def serveSaveSettings (tag : Tag) (body : List Byte) (s : State) : State :=
  match body with
  | [] =>
    if s.loader.save = .idle then
      s.modLoader fun x => { x with save := .invalidating, snapshot := some s.settings.image, saveTag := some tag }
    else s.reply tag 0x04#8 .busy []
  | _ :: _ => badRequest tag 0x04#8 s

/-! ## CLEAR (R189) -/

/-- The deferred replies that a CLEAR completes with the result CLEARED. -/
inductive ClearedReply where
  | action (n : Node) | watch | break_ (n : Node) | drain (u : UnitId)
  deriving DecidableEq, Repr

/-- R38: a HOST action runs on a node. -/
def hostActionRuns (s : State) (n : Node) : Bool :=
  match s.action n with
  | some a => a.originator != .supervisor
  | none => false

/-- R55, R59: a break whose deferred reply is still to come. -/
def breakUnanswered (s : State) (n : Node) : Bool :=
  match (s.consoles.get n).break_ with
  | some b => b.phase != .recovery
  | none => false

/-- R38, R59, R108: the replies that a CLEAR completes. -/
def clearedReplies (s : State) : List ClearedReply :=
  (allNodes.filter (hostActionRuns s)).map .action ++ (if s.power.watch.isSome then [.watch] else [])
    ++ (allNodes.filter (breakUnanswered s)).map .break_
    ++ (allNodes.filter fun u => (s.units.get u).detachTag.isSome).map .drain

/-- R38, R59, R108: one of those replies is queued. -/
def answerCleared (r : ClearedReply) (s : State) : State :=
  match r with
  | .action n =>
    match s.action n with
    | some a =>
      match a.originator with
      | .host tag => s.reply tag 0x20#8 .cleared (powerActionDetails s n a.requested a.escalated)
      | .supervisor => s
    | none => s
  | .watch => endWatch .cleared s
  | .break_ n =>
    match (s.consoles.get n).break_ with
    | some b => s.reply b.tag 0x32#8 .cleared []
    | none => s
  | .drain u => endDrainReply s u .cleared s

/-- R17: a line after CLEAR. -/
def Line.cleared (l : Line) : Line :=
  { l.clearFlag with driven := if l.role.isOutput then false else l.driven, owner := .none }

/-- R38: the Power Sequencer after CLEAR. -/
def Sequencer.cleared (p : Sequencer) : Sequencer :=
  { p with action := Per4.all none, slot := Per4.all none, watch := none }

/-- R59, R75: a console after CLEAR. -/
def Console.cleared (c : Console) : Console :=
  ({ c.addMark .clear with
      cursor := none, flood := false, skip := 0, fifo := [], break_ := none, framingErrors := 0, parityErrors := 0,
      breaks := 0, dropped := 0 } : Console).restartWindow

/-- R92: the counters of a holder after CLEAR. -/
def HolderRecord.cleared (r : HolderRecord) : HolderRecord :=
  { r with reclaimedFrom := 0, reclaimedBy := 0, selfRecycles := 0, failures := 0 }

/-- R92: the pool after CLEAR: every page of a cache holder is free. -/
def Pool.cleared (p : Pool) : Pool :=
  { p with
    owners := p.owners.map fun o => match o with | some (.mh _) => none | o => o
    consoles := p.consoles.map HolderRecord.cleared
    caches := p.caches.map HolderRecord.cleared }

/-- R108: the Media Unit Table's CLEAR. -/
def clearUnits (s : State) : State :=
  allNodes.foldl (fun t u => if (t.units.get u).state = .detached then t else forceOut u t) s

/-- R129: a port after CLEAR. -/
def Port.cleared (p : Port) : Port :=
  { p with sequential := none, shortTransactions := 0, badCommands := 0, dataCrcErrors := 0 }

/-- R173: the Boot Supervisor after CLEAR. -/
def Boot.cleared (b : Boot) : Boot :=
  { b with supervisor := Per4.all resetSupervisor, partials := Per4.all (Vector.replicate 16 0) }

/-- R189: the link's own part of CLEAR. -/
def Link.cleared (k : Link) : Link :=
  { k with receiver := none, inbox := [], notices := [], lost := 0, calls := [], runCount := 0, counters := zeroCounters }

/-- R17, R38, R59, R92, R108, R129, R152, R173, R189: every block takes its part of CLEAR. -/
def clearBlocks (s : State) : State :=
  let t := clearUnits (s.modLink Link.cleared)
  { t with
    lines := { t.lines with line := t.lines.line.map fun ls => ls.map Line.cleared }
    power := t.power.cleared
    consoles := t.consoles.map Console.cleared
    pool := t.pool.cleared
    ports := t.ports.map Port.cleared
    cache := { t.cache with entryWait := [] }
    boot := t.boot.cleared }

/-- R108: the discarded count of a unit, 0 for a DETACHED one. -/
def discardedOf (s : State) (u : UnitId) : Nat := if (s.units.get u).state = .detached then 0 else dirtyCount s u

/-- R189: what the reply to CLEAR carries. -/
def clearDetails (s : State) : List Byte :=
  be32 s.link.inbox.length ++ be32 s.link.notices.length ++ allNodes.flatMap fun u => be32 (discardedOf s u)

/-- CLEAR, R189. -/
def serveClear (tag : Tag) (body : List Byte) (s : State) : State :=
  match body with
  | [] => (clearBlocks (s.inFreeOrder (clearedReplies s) answerCleared)).reply tag 0x03#8 .done (clearDetails s)
  | _ :: _ => badRequest tag 0x03#8 s

/-! ## Dispatch (R177) -/

/-- R177: a kind that is no request is answered UNKNOWN_KIND, with the kind received. -/
def serveUnknown (kind : Byte) (tag : Tag) (s : State) : State := s.reply tag kind .unknownKind []

/-- What is given for the nodes' pins in a step that takes no CONSOLE STATUS and no MEDIA PORT CONFIG: requests wait only
where the reply queue has no room, and only ARBITER_CHOICE makes room, so these are never looked at (log 19, log 53). -/
def unseenPins : NodePins := { cts := Per4.all .high, midBlock := Per4.all false }

/-- R177, R198: hand a request to the block that owns it; `pins` is what it finds on the nodes' pins in this step, for a
CONSOLE STATUS (R57) and a MEDIA PORT CONFIG (R128). -/
def serveRequest (kind : Byte) (tag : Tag) (body : List Byte) (pins : NodePins) (s : State) : State :=
  match kind.toNat with
  | 0x01 => serveIdentify tag body s
  | 0x02 => serveLinkConfig tag body s
  | 0x03 => serveClear tag body s
  | 0x04 => serveSaveSettings tag body s
  | 0x10 => serveLinesConfig tag body s
  | 0x11 => serveLinesSet tag body s
  | 0x12 => serveLinesRead tag body s
  | 0x13 => serveLineEventsClear tag body s
  | 0x20 => servePowerAction tag body s
  | 0x21 => servePowerTimings tag body s
  | 0x22 => servePowerWatch tag body s
  | 0x30 => serveConsoleConfig tag body s
  | 0x31 => serveConsoleSend tag body s
  | 0x32 => serveConsoleBreak tag body s
  | 0x33 => serveConsoleRead tag body s
  | 0x34 => serveConsoleForward tag body s
  | 0x35 => serveConsoleStatus tag body pins.cts s
  | 0x40 => servePoolConfig tag body s
  | 0x41 => servePoolStatus tag body s
  | 0x50 => serveUnitAttach tag body s
  | 0x51 => serveUnitDetach tag body s
  | 0x52 => serveUnitStatus tag body s
  | 0x53 => serveMediaPortConfig tag body pins.midBlock s
  | 0x60 => servePatternSet tag body s
  | 0x61 => serveBootPolicy tag body s
  | 0x62 => serveBootRearm tag body s
  | 0x63 => serveBootStatus tag body s
  | _ => serveUnknown kind tag s

/-- R177: the oldest complete request may be taken: the reply queue has a free entry and no reply waits for room. -/
def Link.mayTake (k : Link) : Bool := k.replies.length < replyRoom && k.waiting.isEmpty

/-- R177: requests are taken one at a time, in arrival order, while they may be. -/
def drainRequests (pins : NodePins) : Nat → State → State
  | 0, s => s
  | fuel + 1, s =>
    match s.link.inbox with
    | [] => s
    | f :: rest =>
      if s.link.mayTake then
        drainRequests pins fuel (serveRequest f.kind f.tag f.body pins (s.modLink fun k => { k with inbox := rest }))
      else s

/-- R177: take what requests may be taken; each take empties a buffer. -/
def takeRequests (pins : NodePins) (s : State) : State := drainRequests pins s.link.inbox.length s

end Sys2Proof.Machine
end

