-- ==== Sys2Proof/Machine/Transport.lean ====
section
/-!
DEFINITION. The two directions of the management link: the receiver's buffers, errors and complete frames (R175 to
R177, R182, R188), and the arbiter and transmitter (R67, R181, R183, R184).
-/

namespace Sys2Proof.Machine

/-! ## Receiver (R175, R176, R188) -/

/-- R187, R188: count an error and queue a LINK ERROR notice with the counters. -/
def linkError (f : LinkCounters → LinkCounters) (s : State) : State :=
  let t := s.modLink fun k => { k with counters := f k.counters }
  t.notify (.linkError t.link.counters)

/-- R187: one more CRC error. -/
def LinkCounters.addCrc (c : LinkCounters) : LinkCounters := { c with crc := c.crc + 1 }

/-- R187: one more length error. -/
def LinkCounters.addLength (c : LinkCounters) : LinkCounters := { c with length := c.length + 1 }

/-- R187: one more escape error. -/
def LinkCounters.addEscape (c : LinkCounters) : LinkCounters := { c with escape := c.escape + 1 }

/-- R187: one more truncated frame. -/
def LinkCounters.addTruncated (c : LinkCounters) : LinkCounters := { c with truncated := c.truncated + 1 }

/-- R187: one more byte framing error. -/
def LinkCounters.addFraming (c : LinkCounters) : LinkCounters := { c with framing := c.framing + 1 }

/-- R187: one more overrun. -/
def LinkCounters.addOverrun (c : LinkCounters) : LinkCounters := { c with overruns := c.overruns + 1 }

/-- R187: one more malformed answer. -/
def LinkCounters.addMalformed (c : LinkCounters) : LinkCounters := { c with malformed := c.malformed + 1 }

/-- The receiver hunts: the buffer of a frame in progress is free. -/
def hunt (s : State) : State := s.modLink fun k => { k with receiver := none }

/-- R176: a start byte, while hunting, takes the free buffer with the lowest number; with none free it is an
overrun. -/
def huntStart (s : State) : State :=
  match s.link.freeBuffer with
  | some b => s.modLink fun k => { k with receiver := some b }
  | none => linkError LinkCounters.addOverrun s

/-- R175: a frame in progress is abandoned: its buffer frees, the error is counted and reported. Outside a frame
nothing happens. -/
def abandonFrame (f : LinkCounters → LinkCounters) (s : State) : State :=
  match s.link.receiver with
  | some _ => linkError f (hunt s)
  | none => s

/-- R175: a start byte inside a frame: the frame is truncated and a new one starts at once. -/
def truncateFrame (s : State) : State :=
  match s.link.receiver with
  | some _ => huntStart (linkError LinkCounters.addTruncated (hunt s))
  | none => s

/-- R175, R176: a start byte. -/
def startByte (s : State) : State := if s.link.receiver.isSome then truncateFrame s else huntStart s

/-- R176: a start byte that finds all four buffers occupied. -/
def overrunByte (s : State) : State :=
  if s.link.receiver.isNone ∧ s.link.freeBuffer.isNone then linkError LinkCounters.addOverrun s else s

/-- R176: the buffer a complete frame stands in: that of the frame in progress or, where the receiver is hunting, the
one its start byte takes within this step (log 5). -/
def frameBuffer (k : Link) : Option (Fin 4) :=
  match k.receiver with
  | some b => some b
  | none => k.freeBuffer

/-- R177: a complete request joins the requests that wait, and the oldest are taken while they may be; `pins` is what a
request finds on the nodes' pins in this step. -/
def receiveRequest (kind : Byte) (tag : Tag) (body : List Byte) (pins : NodePins) (s : State) : State :=
  match frameBuffer s.link with
  | some b =>
    takeRequests pins (s.modLink fun k =>
      { k with
        receiver := none
        inbox := k.inbox ++ [{ buffer := b, kind := kind, tag := tag, body := body }] })
  | none => linkError LinkCounters.addOverrun s

/-- R177: a complete answer is taken at once, whatever requests wait. -/
def receiveAnswer (f : State → State) (s : State) : State :=
  match frameBuffer s.link with
  | some _ => f (hunt s)
  | none => linkError LinkCounters.addOverrun s

/-! ## Transmitter (R184) -/

/-- R67: a console has bulk data. -/
def Console.hasBulk (c : Console) : Bool :=
  match c.cursor with
  | some x => !c.flood && x != c.live
  | none => false

/-- R183: the round robin, beginning with the node after the last node served. -/
def roundRobin (last : Node) : List Node := [last + 1, last + 2, last + 3, last]

/-- R183: the first console of the round robin that has bulk data. -/
def nextConsole (s : State) : Option Node := (roundRobin s.link.lastServed).find? fun n => (s.consoles.get n).hasBulk

/-- R184: a control message begins to go out. -/
def Link.startControl (wire : List Byte) (e : SentEffect) (k : Link) : Link :=
  { k with sending := some { wire := wire, effect := e }, runCount := min 15 (k.runCount + 1) }

/-- R184: a bulk message begins to go out. -/
def Link.startBulk (wire : List Byte) (k : Link) : Link :=
  { k with sending := some { wire := wire, effect := .none }, runCount := 0 }

/-- R185: what the end of a reply's frame brings about. -/
def replyEffect (r : Reply) : SentEffect :=
  match r.rate with
  | some b => .rate b
  | none => .none

/-- R178, R184: the first reply begins to go out; a waiting reply moves into the freed entry, and requests may be
taken (log 6), each with what it finds on the nodes' pins now (R57, R128). -/
def sendReply (pins : NodePins) (r : Reply) (rest : List Reply) (s : State) : State :=
  takeRequests pins (s.modLink fun k =>
    (({ k with replies := rest } : Link).startControl (frameWire 0x80#8 r.tag r.body) (replyEffect r)).refill)

/-- R194: a START notice. -/
def Notice.isStart : Notice → Bool
  | .start _ _ _ => true
  | .lineEvent _ _ | .powerState _ _ | .consoleGap _ _ _ | .flood _ _ _ | .unitState _ _ _ _ _
  | .bootProgress _ _ _ _ | .recovery _ _ _ _ _ _ | .strayAnswer _ | .linkError _ => false

/-- R179, R184: the first notice begins to go out. -/
def sendNotice (e : NoticeEntry) (rest : List NoticeEntry) (s : State) : State :=
  s.modLink fun k =>
    ({ k with notices := rest } : Link).startControl (frameWire (noticeKind e.notice) 0#16 (noticeBody e))
      (if e.notice.isStart then .start else .none)

/-- R198: the tag of a call: generation, then entry number. -/
def callTag (generation : Byte) (entry : Nat) : Tag := BitVec.ofNat 16 (generation.toNat * 256 + entry)

/-- R135, R181, R199: a FETCH call. -/
def fetchWire (s : State) (i : Fin 16) : List Byte :=
  match (s.cache.fetches[i]).busy with
  | some f =>
    frameWire 0xA0#8 (callTag (s.cache.fetches[i]).generation i.val)
      (be8 f.unit.val ++ be32 f.first ++ be8 f.blocks.length)
  | none => []

/-- R147, R181, R199: a STORE call, with what the page holds at this moment. -/
def storeWire (s : State) (i : Fin 8) : List Byte :=
  match (s.cache.stores[i]).busy with
  | some x =>
    frameWire 0xA1#8 (callTag (s.cache.stores[i]).generation (16 + i.val))
      (be8 x.unit.val ++ be32 x.lba ++ pageBytes s x.page)
  | none => []

/-- R181: the frame of a call. -/
def callWire (s : State) : Call → List Byte
  | .fetch i => fetchWire s i
  | .store i => storeWire s i

/-- R181: the first call begins to go out, built in full. -/
def sendCall (c : Call) (rest : List Call) (s : State) : State :=
  s.modLink fun k => ({ k with calls := rest } : Link).startBulk (callWire s c)

/-- The bytes one CONSOLE DATA carries at most (R67). -/
def dataRoom : Nat := 256

/-- R67: the byte count of a CONSOLE DATA. -/
def dataCount (c : Console) (cursor : Word) : Nat := min dataRoom (c.live - cursor).toNat

/-- R67, R199: the body of a CONSOLE DATA. -/
def dataBody (s : State) (n : Node) (cursor : Word) (count : Nat) : List Byte :=
  be8 n.val ++ word32 cursor ++ historyBytes s n cursor count

/-- R67, R183: a CONSOLE DATA of a node is built and begins to go out (log 30). -/
def sendData (n : Node) (s : State) : State :=
  let c := s.consoles.get n
  match c.cursor with
  | none => s
  | some x =>
    let k := dataCount c x
    (s.modConsole n fun c => { c with cursor := some (x + BitVec.ofNat 32 k) }).modLink fun l =>
      ({ l with lastServed := n } : Link).startBulk (frameWire 0xB0#8 0#16 (dataBody s n x k))

/-- R184: BULK offers the first call, and with no call, console data. -/
def sendBulk (s : State) : State :=
  match s.link.calls, nextConsole s with
  | c :: rest, _ => sendCall c rest s
  | [], some n => sendData n s
  | [], none => s

/-- R184: CONTROL offers the first reply, and with no reply, the first notice. -/
def sendControl (pins : NodePins) (s : State) : State :=
  match s.link.replies, s.link.notices with
  | r :: rest, _ => sendReply pins r rest s
  | [], e :: rest => sendNotice e rest s
  | [], [] => s

/-- R184: CONTROL waits. -/
def controlWaits (s : State) : Bool := !s.link.replies.isEmpty || !s.link.notices.isEmpty

/-- R184: BULK waits. -/
def bulkWaits (s : State) : Bool := !s.link.calls.isEmpty || (nextConsole s).isSome

/-- R184: the arbiter's choice between the classes. -/
def chooseClass (pins : NodePins) (s : State) : State :=
  if controlWaits s ∧ (¬ bulkWaits s ∨ s.link.runCount < s.link.ratio) then sendControl pins s else sendBulk s

/-- R184, R194: the arbiter chooses the next message; an unsent START goes before any other frame (log 31). `pins` is
what a request that is taken now finds on the nodes' pins. -/
def arbitrate (pins : NodePins) (s : State) : State :=
  match s.link.notices with
  | e :: rest => if e.notice.isStart then sendNotice e rest s else chooseClass pins s
  | [] => chooseClass pins s

/-- R174, R185: what a sent frame brings about. -/
def Link.afterSent (e : SentEffect) (k : Link) : Link :=
  match e with
  | .none => k
  | .start => { k with rtsOn := true }
  | .rate b => { k with lineBaud := b }

end Sys2Proof.Machine
end

