-- ==== Sys2Proof/Machine/RequestCommands.lean ====
section
/-!
DEFINITION. The meanings of the host requests (R177): a complete frame with a good CRC of each request kind. What
serving a request does is the owning block's `serve` function; when it is served is R177's.
-/

namespace Sys2Proof.Machine

/-- The outcome of a step. -/
abbrev Outcome := Host.Outcome State Fault Refusal

/-- R177: a complete request frame of a kind, and what it finds on the nodes' pins where it is taken in this step. A body
above 600 bytes is no frame (log 28). -/
def requestMeeting (pins : NodePins) (kind : Byte) (tag : Tag) (body : List Byte) (s : State) : Outcome :=
  if bodyFits body then .next (s.whenRunning (receiveRequest kind tag body pins)) else .fault .illFormedCommand

/-- R177: a complete request frame of a kind that looks at no pin. -/
def requestFrame (kind : Byte) (tag : Tag) (body : List Byte) (s : State) : Outcome :=
  requestMeeting unseenPins kind tag body s

/-- IDENTIFY, R186. -/
def execIdentify (tag : Tag) (body : List Byte) (s : State) : Outcome := requestFrame 0x01#8 tag body s

/-- LINK_CONFIG, R185. -/
def execLinkConfig (tag : Tag) (body : List Byte) (s : State) : Outcome := requestFrame 0x02#8 tag body s

/-- CLEAR, R189. -/
def execClear (tag : Tag) (body : List Byte) (s : State) : Outcome := requestFrame 0x03#8 tag body s

/-- SAVE_SETTINGS, R195. -/
def execSaveSettings (tag : Tag) (body : List Byte) (s : State) : Outcome := requestFrame 0x04#8 tag body s

/-- LINES_CONFIG, R13. -/
def execLinesConfig (tag : Tag) (body : List Byte) (s : State) : Outcome := requestFrame 0x10#8 tag body s

/-- LINES_SET, R14. -/
def execLinesSet (tag : Tag) (body : List Byte) (s : State) : Outcome := requestFrame 0x11#8 tag body s

/-- LINES_READ, R15. -/
def execLinesRead (tag : Tag) (body : List Byte) (s : State) : Outcome := requestFrame 0x12#8 tag body s

/-- LINE_EVENTS_CLEAR, R16. -/
def execLineEventsClear (tag : Tag) (body : List Byte) (s : State) : Outcome := requestFrame 0x13#8 tag body s

/-- R30, step 5, after a POWER ACTION that was taken before it: where no action has started on the node, the pending
recovery starts; behind one that has, it waits. -/
def startBehind (ahead : Bool) (body : List Byte) (s : State) : State :=
  match ahead, actionNode? body with
  | true, some n => if (s.action n).isNone then startPending n s else s
  | true, none | false, _ => s

/-- POWER_ACTION, R21, R30. -/
def execPowerAction (tag : Tag) (asked : ActionBody) (s : State) : Outcome :=
  if bodyFits asked.bytes then
    .next (s.whenRunning fun s =>
      startBehind asked.ahead asked.bytes (receiveRequest 0x20#8 tag asked.bytes unseenPins s))
  else .fault .illFormedCommand

/-- POWER_TIMINGS, R19. -/
def execPowerTimings (tag : Tag) (body : List Byte) (s : State) : Outcome := requestFrame 0x21#8 tag body s

/-- POWER_WATCH, R35. -/
def execPowerWatch (tag : Tag) (body : List Byte) (s : State) : Outcome := requestFrame 0x22#8 tag body s

/-- CONSOLE_CONFIG, R41. -/
def execConsoleConfig (tag : Tag) (body : List Byte) (s : State) : Outcome := requestFrame 0x30#8 tag body s

/-- CONSOLE_SEND, R54. -/
def execConsoleSend (tag : Tag) (body : List Byte) (s : State) : Outcome := requestFrame 0x31#8 tag body s

/-- CONSOLE_BREAK, R55. -/
def execConsoleBreak (tag : Tag) (body : List Byte) (s : State) : Outcome := requestFrame 0x32#8 tag body s

/-- CONSOLE_READ, R52. -/
def execConsoleRead (tag : Tag) (body : List Byte) (s : State) : Outcome := requestFrame 0x33#8 tag body s

/-- CONSOLE_FORWARD, R73. -/
def execConsoleForward (tag : Tag) (body : List Byte) (s : State) : Outcome := requestFrame 0x34#8 tag body s

/-- CONSOLE_STATUS, R57. -/
def execConsoleStatus (tag : Tag) (asked : ConsoleQuery) (s : State) : Outcome :=
  requestMeeting { unseenPins with cts := Per4.all asked.cts } 0x35#8 tag asked.bytes s

/-- POOL_CONFIG, R88. -/
def execPoolConfig (tag : Tag) (body : List Byte) (s : State) : Outcome := requestFrame 0x40#8 tag body s

/-- POOL_STATUS, R90. -/
def execPoolStatus (tag : Tag) (body : List Byte) (s : State) : Outcome := requestFrame 0x41#8 tag body s

/-- UNIT_ATTACH, R94. -/
def execUnitAttach (tag : Tag) (body : List Byte) (s : State) : Outcome := requestFrame 0x50#8 tag body s

/-- UNIT_DETACH, R98. -/
def execUnitDetach (tag : Tag) (body : List Byte) (s : State) : Outcome := requestFrame 0x51#8 tag body s

/-- UNIT_STATUS, R107. -/
def execUnitStatus (tag : Tag) (body : List Byte) (s : State) : Outcome := requestFrame 0x52#8 tag body s

/-- MEDIA_PORT_CONFIG, R128. -/
def execMediaPortConfig (tag : Tag) (asked : PortQuery) (s : State) : Outcome :=
  requestMeeting { unseenPins with midBlock := Per4.all asked.midBlock } 0x53#8 tag asked.bytes s

/-- PATTERN_SET, R154. -/
def execPatternSet (tag : Tag) (body : List Byte) (s : State) : Outcome := requestFrame 0x60#8 tag body s

/-- BOOT_POLICY, R158. -/
def execBootPolicy (tag : Tag) (body : List Byte) (s : State) : Outcome := requestFrame 0x61#8 tag body s

/-- BOOT_REARM, R170. -/
def execBootRearm (tag : Tag) (body : List Byte) (s : State) : Outcome := requestFrame 0x62#8 tag body s

/-- BOOT_STATUS, R171. -/
def execBootStatus (tag : Tag) (body : List Byte) (s : State) : Outcome := requestFrame 0x63#8 tag body s

/-- UNKNOWN_KIND, R177: a frame of any other kind is taken like a request. A request's or an answer's kind is no
unknown kind (log 28). -/
def execUnknownKind (kind : Byte) (tag : Tag) (body : List Byte) (s : State) : Outcome :=
  if isRequestKind kind || isAnswerKind kind then .fault .illFormedCommand else requestFrame kind tag body s

end Sys2Proof.Machine
end

