-- ==== Sys2Proof/Machine/ConsoleCommands.lean ====
section
/-!
DEFINITION. The meanings of the console events: reception and breaks received (R43 to R48), transmission and breaks
sent (R53, R55), and the flood window (R63 to R66).
-/

namespace Sys2Proof.Machine

/-! ## Capture (R43, R47, R63, R64) -/

/-- R47: write a byte at the live offset of a console, and advance the live offset. -/
def storeByte (n : Node) (b : Byte) (s : State) : State :=
  let c := s.consoles.get n
  let t := match c.locate c.live with
    | some (p, i) => s.modRam fun m => Memory.write ramDefault m (pageAddress p i) [b]
    | none => s
  t.modConsole n fun x => { x with live := x.live + 1 }

/-- R47: the live offset lies at the end of every page the console holds. -/
def Console.full (c : Console) : Bool := (c.live - c.oldest).toNat == blockSize * c.pages.length

/-- R47: when the last page is full, a page is asked for at once and joins the end of the list. -/
def extendHistory (n : Node) (s : State) : State :=
  if (s.consoles.get n).full then
    match allocate (.ch n) .capture s with
    | (some p, t) => t.modConsole n fun c => { c with pages := c.pages ++ [p] }
    | (none, t) => t
  else s

/-- R64: a console enters flood. -/
def enterFlood (n : Node) (s : State) : State :=
  poolChanged ((s.modConsole n fun c => { c with flood := true, skip := 0 }).notify (.flood n true 0))

/-- R63, R64: a received character is counted, and may start flood. -/
def countCharacter (n : Node) (s : State) : State :=
  let t := s.modConsole n fun c => { c with count := c.count + 1 }
  let c := t.consoles.get n
  if !c.flood && c.settings.riseThreshold < c.count then enterFlood n t else t

/-- R43: a byte of console data: history, matchers, flood window. -/
def captureByte (n : Node) (b : Byte) (s : State) : State :=
  countCharacter n (matchByte n b (extendHistory n (storeByte n b s)))

/-- R44: the error counters of a received character. -/
def Console.countErrors (data : Byte) (parityBit stopBit : Bool) (c : Console) : Console :=
  { c with
    parityErrors := if parityError c.settings data parityBit then c.parityErrors + 1 else c.parityErrors
    framingErrors := if stopBit then c.framingErrors else c.framingErrors + 1 }

/-- R43 to R45: a character is received: an all-low one has its parity counted and is held back; any other is counted
and stored. One that a reconfiguration discarded has no effect (R42). A character whose START_BIT was not given is taken
whole where the receiver could have taken its start bit (log 21). A parity error counted for a character held back stays
counted if CONSOLE CONFIG discards that character (log 47). -/
def receiveCharacter (n : Node) (data : Byte) (parityBit stopBit : Bool) (s : State) : State :=
  let c := s.consoles.get n
  match c.receiver with
  | .idle | .receiving | .waitHigh =>
    if allLow c.settings data parityBit stopBit then
      s.modConsole n fun x => { x.countErrors data parityBit true with receiver := .held }
    else
      captureByte n (storedByte c.settings data)
        (s.modConsole n fun x => { x.countErrors data parityBit stopBit with receiver := .idle })
  | .held | .inBreak | .discarding => s

/-- CHARACTER_RECEIVED, R43. -/
def execCharacterReceived (n : Node) (data : Byte) (parityBit stopBit : Bool) (s : State) : Outcome :=
  .next (s.whenRunning (receiveCharacter n data parityBit stopBit))

/-- R45: RX went high before one character time had passed: a framing error, and the byte 0x00 is stored. -/
def storeHeld (n : Node) (s : State) : State :=
  if (s.consoles.get n).receiver = .held then
    captureByte n 0#8 (s.modConsole n fun x => { x with receiver := .idle, framingErrors := x.framingErrors + 1 })
  else s

/-- HELD_CHARACTER_STORED, R45. -/
def execHeldCharacterStored (n : Node) (s : State) : Outcome := .next (s.whenRunning (storeHeld n))

/-- R45: a break is recognized. -/
def recognizeBreak (n : Node) (s : State) : State :=
  if (s.consoles.get n).receiver = .held then
    ((s.modConsole n fun x => { x with receiver := .inBreak, breaks := x.breaks + 1 }).mark n
      .breakReceived).clearPartials n
  else s

/-- BREAK_RECOGNIZED, R45. -/
def execBreakRecognized (n : Node) (s : State) : Outcome := .next (s.whenRunning (recognizeBreak n))

/-- R45: RX is high again after a recognized break. -/
def endBreak (n : Node) (s : State) : State :=
  if (s.consoles.get n).receiver = .inBreak then s.modConsole n fun x => { x with receiver := .idle } else s

/-- BREAK_END, R45. -/
def execBreakEnd (n : Node) (s : State) : Outcome := .next (s.whenRunning (endBreak n))

/-- R43: a start bit is confirmed half a bit time later, or ignored. -/
def confirmStart (n : Node) (mid : Level) (s : State) : State :=
  match (s.consoles.get n).receiver with
  | .idle | .waitHigh | .discarding =>
    s.modConsole n fun x => { x with receiver := if mid = .low then .receiving else .idle }
  | .receiving | .held | .inBreak => s

/-- START_BIT, R43. -/
def execStartBit (n : Node) (mid : Level) (s : State) : Outcome := .next (s.whenRunning (confirmStart n mid))

/-! ## Transmission (R53, R55) -/

/-- R53: a character may start. -/
def Console.mayStart (c : Console) : Bool :=
  c.sending.isNone && c.break_.isNone && (!c.settings.ctsUse || c.cts == .low)

/-- R53: a byte leaves the transmit FIFO as its character starts; its bits are fixed by the settings of that moment
(R42). -/
def Console.startCharacter (c : Console) : Console :=
  match c.fifo with
  | b :: rest => if c.mayStart then { c with sending := some (characterBits c.settings b), fifo := rest } else c
  | [] => c

/-- TRANSMIT_CHARACTER_START, R53: the transmitter looks at CTS and starts a character if it may (log 19). -/
def execTransmitCharacterStart (n : Node) (cts : Level) (s : State) : Outcome :=
  .next (s.whenRunning fun s => s.modConsole n fun c => ({ c with cts := cts } : Console).startCharacter)

/-- R55, step 2: TX is held low for the applied duration. -/
def Break.begin (b : Break) : Break :=
  if b.phase = .waiting then { b with phase := .low, remaining := b.duration } else b

/-- R53, R55: the character in progress on TX has finished; a waiting break begins. -/
def Console.endCharacter (c : Console) : Console :=
  if c.sending.isSome then { c with sending := none, break_ := c.break_.map Break.begin } else c

/-- TRANSMIT_CHARACTER_END, R55. -/
def execTransmitCharacterEnd (n : Node) (s : State) : Outcome :=
  .next (s.whenRunning fun s => s.modConsole n Console.endCharacter)

/-- R55, step 3: TX returns high: the mark, and the deferred reply with the duration and the mark's offset. -/
def finishBreak (n : Node) (s : State) : State :=
  match (s.consoles.get n).break_ with
  | some b =>
    if b.phase = .low then
      let t := (s.modConsole n fun c => { c with break_ := some { b with phase := .recovery, remaining := 0 } }).mark n
        (.breakSent b.duration)
      t.reply b.tag 0x32#8 .done (be16 b.duration ++ word32 (s.consoles.get n).live)
    else s
  | none => s

/-- BREAK_SENT, R55. -/
def execBreakSent (n : Node) (s : State) : Outcome := .next (s.whenRunning (finishBreak n))

/-- R55, step 4: the recovery time is over. -/
def recoverBreak (n : Node) (s : State) : State :=
  match (s.consoles.get n).break_ with
  | some b => if b.phase = .recovery then s.modConsole n fun c => { c with break_ := none } else s
  | none => s

/-- BREAK_RECOVERY_END, R55. -/
def execBreakRecoveryEnd (n : Node) (s : State) : Outcome := .next (s.whenRunning (recoverBreak n))

/-! ## The flood window (R63, R66) -/

/-- R66: the skipped count of a console that leaves flood. -/
def Console.skipped (c : Console) : Word :=
  match c.cursor with
  | some x => c.skip + (c.live - x)
  | none => 0

/-- R66: a console leaves flood. -/
def leaveFlood (n : Node) (s : State) : State :=
  let c := s.consoles.get n
  (s.modConsole n fun x => { x with cursor := x.cursor.map fun _ => x.live, flood := false, skip := 0 }).notify
    (.flood n false c.skipped)

/-- R63, R66: a window ends: a console in flood may leave it; the next window starts at once. -/
def endWindow (n : Node) (s : State) : State :=
  let c := s.consoles.get n
  let t := s.modConsole n Console.restartWindow
  if c.flood && c.count ≤ c.settings.fallThreshold then poolChanged (leaveFlood n t) else t

/-- WINDOW_END, R66. -/
def execWindowEnd (n : Node) (s : State) : Outcome := .next (s.whenRunning (endWindow n))

end Sys2Proof.Machine
end

