-- ==== Sys2Proof/Machine/EngineCommands.lean ====
section
/-!
DEFINITION. The meanings of the timeouts of fetch and store entries (R139, R149), of the aging timer (R151) and of a
supervisor's deadline (R162).
-/

namespace Sys2Proof.Machine

/-- R139: a fetch entry times out. -/
def fetchTimesOut (i : Fin 16) (s : State) : State :=
  match (s.cache.fetches[i]).busy with
  | some f => failFetch i f true s
  | none => s

/-- FETCH_TIMEOUT, R139. -/
def execFetchTimeout (i : Fin 16) (s : State) : Outcome := .next (s.whenRunning (fetchTimesOut i))

/-- R149: a store entry times out. -/
def storeTimesOut (i : Fin 8) (s : State) : State :=
  match (s.cache.stores[i]).busy with
  | some x => storeFails i x s
  | none => s

/-- STORE_TIMEOUT, R149. -/
def execStoreTimeout (i : Fin 8) (s : State) : Outcome := .next (s.whenRunning (storeTimesOut i))

/-- The greatest age of a page (R151). -/
def ageMax : Nat := 255

/-- R151: a CLEAN page grows older. -/
def DirRecord.older (r : DirRecord) : DirRecord :=
  if r.state = .clean then { r with age := min ageMax (r.age + 1) } else r

/-- R151: the aging timer expires and starts anew. -/
def agePages (s : State) : State :=
  s.modCache fun c =>
    { c with directory := c.directory.map DirRecord.older, agingRemaining := s.pool.agingTick * 1000 }

/-- AGING_TICK, R151. -/
def execAgingTick (s : State) : Outcome := .next (s.whenRunning agePages)

/-- R162: the deadline of a WATCHING supervisor runs out. -/
def deadlineEnds (n : Node) (s : State) : State :=
  match (s.supervisor n).state, (s.supervisor n).deadline with
  | .watching _, some _ => failure n .deadline s
  | _, _ => s

/-- DEADLINE, R162. -/
def execDeadline (n : Node) (s : State) : Outcome := .next (s.whenRunning (deadlineEnds n))

end Sys2Proof.Machine
end

