-- ==== Sys2Proof/Machine/LineCommands.lean ====
section
/-!
DEFINITION. The meanings of the line and power events: the sample instant (R5, R9, R11) and the ends of the Power
Sequencer's timers (R23 to R29, R36).
-/

namespace Sys2Proof.Machine

/-! ## SAMPLE_INSTANT -/

/-- R5: the lines of a node after a sample of all pins. -/
def sampledLines (s : State) (pins : BitVec 24) (n : Node) : Per6 Line :=
  Per6.build fun l => (s.line n l).afterSample (pinLevel pins n l)

/-- R9: the lines of a node whose flags went from clear to set with the notify enable on. -/
def newlyFlagged (before after : Per6 Line) : Per6 Bool := lineSet fun l => notifies (before.get l) (after.get l)

/-- R4, R5, R9, R11: one sample instant: every line is debounced, the LINE EVENT notices are queued, then the power
states are derived again and published (log 9); nodes in a free order (log 7). -/
def sampleAll (pins : BitVec 24) (s : State) : State :=
  let t := s.modLines fun k => { k with line := Per4.build (sampledLines s pins), sinceSample := 0 }
  let flagged := allNodes.filter fun n =>
    (newlyFlagged (s.lines.line.get n) (t.lines.line.get n)).toList.any id
  let u := t.inFreeOrder flagged fun n x =>
    notifyLines n (newlyFlagged (s.lines.line.get n) (t.lines.line.get n)) x
  u.inFreeOrder (allNodes.filter fun n => powerOf (u.lines.line.get n) != u.powerState n) rederivePower

/-- SAMPLE_INSTANT, R5. -/
def execSampleInstant (pins : BitVec 24) (s : State) : Outcome := .next (s.whenRunning (sampleAll pins))

/-! ## The ends of the Power Sequencer's timers -/

/-- The timer of a state ends: nothing happens unless the node's action is in that state (log 3, log 4). -/
def timerEnds (n : Node) (st : ActionState) (f : Action → State → State) (s : State) : State :=
  match s.action n with
  | some a => if a.state = st then f a s else s
  | none => s

/-- T_PRESS_END, R23, R24, R27. -/
def execTPressEnd (n : Node) (s : State) : Outcome := .next (s.whenRunning (timerEnds n .pressing (pressEnds n)))

/-- T_ON_END, R23. -/
def execTOnEnd (n : Node) (s : State) : Outcome :=
  .next (s.whenRunning (timerEnds n .waitingOn fun _ => complete n .timeout))

/-- T_SOFT_END, R24, R25. -/
def execTSoftEnd (n : Node) (s : State) : Outcome := .next (s.whenRunning (timerEnds n .waitingOff (softEnds n)))

/-- T_HOLD_END, R26, R27. -/
def execTHoldEnd (n : Node) (s : State) : Outcome := .next (s.whenRunning (timerEnds n .holding (holdEnds n)))

/-- T_REST_END, R27. -/
def execTRestEnd (n : Node) (s : State) : Outcome := .next (s.whenRunning (timerEnds n .resting (restEnds n)))

/-- T_RESET_END, R28. -/
def execTResetEnd (n : Node) (s : State) : Outcome :=
  .next (s.whenRunning (timerEnds n .resetPulse fun _ => complete n .done))

/-- T_DIAG_END, R29. -/
def execTDiagEnd (n : Node) (s : State) : Outcome :=
  .next (s.whenRunning (timerEnds n .diagPulse fun _ => complete n .done))

/-- POWER_WATCH_TIMEOUT, R36. -/
def execPowerWatchTimeout (s : State) : Outcome := .next (s.whenRunning (endWatch .timeout))

end Sys2Proof.Machine
end

