-- ==== Sys2Proof/Machine/LinkCommands.lean ====
section
/-!
DEFINITION. The meanings of the host answers (R137, R138, R148, R149, R182), of the link receiver's events (R175,
R176) and of the link transmitter's events (R184, R185).
-/

namespace Sys2Proof.Machine

/-! ## Answers -/

/-- FILL, R137. -/
def execFill (tag : Tag) (lba : Word) (data : List Byte) (s : State) : Outcome :=
  if data.length = blockSize then .next (s.whenRunning (receiveAnswer (fillAnswer tag lba.toNat data)))
  else .fault .illFormedCommand

/-- FETCH_FAILED, R138. -/
def execFetchFailed (tag : Tag) (s : State) : Outcome := .next (s.whenRunning (receiveAnswer (fetchFailedAnswer tag)))

/-- STORED, R148. -/
def execStored (tag : Tag) (s : State) : Outcome := .next (s.whenRunning (receiveAnswer (storedAnswer tag)))

/-- STORE_FAILED, R149. -/
def execStoreFailed (tag : Tag) (s : State) : Outcome := .next (s.whenRunning (receiveAnswer (storeFailedAnswer tag)))

/-- MALFORMED_ANSWER, R182: an answer of the wrong body length is discarded, counted and reported. -/
def execMalformedAnswer (kind : Byte) (_tag : Tag) (body : List Byte) (s : State) : Outcome :=
  if bodyFits body && isAnswerKind kind && body.length != answerLength kind then
    .next (s.whenRunning (receiveAnswer (linkError LinkCounters.addMalformed)))
  else .fault .illFormedCommand

/-! ## Receiver -/

/-- FRAME_START, R175, R176: the receiver gets a start byte. -/
def execFrameStart (s : State) : Outcome := .next (s.whenRunning startByte)

/-- CRC_ERROR, R175. -/
def execCrcError (s : State) : Outcome := .next (s.whenRunning (abandonFrame LinkCounters.addCrc))

/-- TRUNCATED_FRAME, R175. -/
def execTruncatedFrame (s : State) : Outcome := .next (s.whenRunning truncateFrame)

/-- ESCAPE_ERROR, R175: the byte after the escape is none of the three that may follow it. -/
def execEscapeError (next : Byte) (s : State) : Outcome :=
  if next = 0x85#8 ∨ next = 0x86#8 ∨ next = 0xA5#8 then .fault .illFormedCommand
  else .next (s.whenRunning (abandonFrame LinkCounters.addEscape))

/-- LENGTH_ERROR, R175: the length field is above 600. -/
def execLengthError (length : BitVec 16) (s : State) : Outcome :=
  if maxBody < length.toNat then .next (s.whenRunning (abandonFrame LinkCounters.addLength))
  else .fault .illFormedCommand

/-- BYTE_FRAMING_ERROR, R175. -/
def execByteFramingError (s : State) : Outcome := .next (s.whenRunning (abandonFrame LinkCounters.addFraming))

/-- OVERRUN, R176. -/
def execOverrun (s : State) : Outcome := .next (s.whenRunning overrunByte)

/-! ## Transmitter -/

/-- R184: the arbiter looks at CTS and, when the transmitter is free and CTS asserted, chooses. -/
def arbiterLooks (pins : ArbiterPins) (s : State) : State :=
  let t := s.modLink fun k => { k with cts := pins.cts }
  if t.link.sending.isNone ∧ pins.cts = .low then arbitrate pins.nodes t else t

/-- ARBITER_CHOICE, R184. -/
def execArbiterChoice (pins : ArbiterPins) (s : State) : Outcome := .next (s.whenRunning (arbiterLooks pins))

/-- R184, R185: the frame on the wire has been sent. -/
def frameEnds (s : State) : State :=
  match s.link.sending with
  | some x => s.modLink fun k => ({ k with sending := none } : Link).afterSent x.effect
  | none => s

/-- FRAME_SENT, R185. -/
def execFrameSent (s : State) : Outcome := .next (s.whenRunning frameEnds)

end Sys2Proof.Machine
end

