-- ==== Sys2Proof/Machine/LoaderCommands.lean ====
section
/-!
DEFINITION. The meanings of reset, load and save events (R191, R192, R194, R196) of the Settings Loader.
-/

namespace Sys2Proof.Machine

/-! ## The settings memory -/

/-- The 794 bytes of the settings memory. -/
def imageIn (m : List Host.Cell) : List Byte := Memory.readBlock eepromDefault m 0 imageSize

/-- Write bytes into the settings memory. -/
def writeEeprom (start : Nat) (bytes : List Byte) (x : Loader) : Loader :=
  { x with eeprom := Memory.write eepromDefault x.eeprom start bytes }

/-- R196, INVALIDATING: 0xFF, 0xFF over the signature. -/
def Loader.unsign (x : Loader) : Loader := writeEeprom 0 [0xFF#8, 0xFF#8] x

/-- R196, WRITING: every byte of the snapshot after the signature. -/
def Loader.writeBody (x : Loader) : Loader :=
  match x.snapshot with
  | some image => writeEeprom 2 (image.drop 2) x
  | none => x

/-- R196, SEALING: the signature. -/
def Loader.seal (x : Loader) : Loader := writeEeprom 0 signature x

/-! ## PART_RESET, RESET_RELEASE (R191) -/

/-- R196: the first `taken` bytes of the body, written in address order. -/
def Loader.writePart (taken : Nat) (x : Loader) : Loader :=
  match x.snapshot with
  | some image => writeEeprom 2 ((image.drop 2).take taken) x
  | none => x

/-- R196: what the settings memory holds when a reset or a failure cuts a save short: the signature is 0xFFFF in
INVALIDATING and WRITING (log 16); in WRITING the bytes that the memory had taken, in address order, and in SEALING the
signature's bytes that it had taken, are those of the snapshot (log 17). -/
def Loader.cutShort (taken : Nat) (x : Loader) : Loader :=
  match x.save with
  | .invalidating => x.unsign
  | .writing => x.unsign.writePart taken
  | .sealing => writeEeprom 0 (signature.take taken) x.unsign
  | .idle | .verifying => x

/-- R191: the loader after a save is over or abandoned. -/
def Loader.ended (x : Loader) : Loader := { x with save := .idle, snapshot := none, saveTag := none }

/-- R191: part reset: every block in its part-reset state; the settings memory and the outcome of the most recent load
stay (log 18), a save in progress is abandoned without a reply. -/
def partReset (taken : Nat) (s : State) : State :=
  { State.reset with
    pending := s.pending
    choices := s.choices
    loader := (s.loader.cutShort taken).ended }

/-- PART_RESET, R191. -/
def execPartReset (taken : Nat) (s : State) : Outcome := .next (partReset taken s)

/-- R191: the reset input is released and a load starts. -/
def releaseReset (s : State) : State := if s.phase = .inReset then { s with phase := .loading } else s

/-- RESET_RELEASE, R192. -/
def execResetRelease (s : State) : Outcome := .next (releaseReset s)

/-! ## LOAD_END (R192, R194) -/

/-- R192: the memory as a load finds it: an image put there by other means is what it then holds. -/
def findMemory (found : LoadRead) (x : Loader) : Loader :=
  match found.image with
  | some image => writeEeprom 0 image x
  | none => x

/-- R192: what the load comes to. -/
def judgeLoad (found : LoadRead) (x : Loader) : LoadOutcome := judgeRead found.bus (imageIn x.eeprom)

/-- R191: the loader's record after a load. -/
def Loader.loaded (o : LoadOutcome) (x : Loader) : Loader :=
  { x with result := o.result, cause := o.cause, poolDefaulted := o.defaulted }

/-- R194: the START notice. -/
def startNotice (o : LoadOutcome) : Notice := .start (loadResultCode o.result) (loadCauseCode o.cause) o.defaulted

/-- R194: the load ends: the settings come into force, the part runs, START is queued. -/
def endLoad (pins : BitVec 24) (found : LoadRead) (s : State) : State :=
  if s.phase = .loading then
    let x := findMemory found s.loader
    let o := judgeLoad found x
    ({ inForce o.settings pins s with phase := .running, loader := x.loaded o }).notify (startNotice o)
  else s

/-- LOAD_END, R194. -/
def execLoadEnd (pins : BitVec 24) (found : LoadRead) (s : State) : Outcome :=
  if found.image.all fun image => image.length == imageSize then .next (endLoad pins found s)
  else .fault .illFormedCommand

/-! ## The phases of a save (R196) -/

/-- R196: a phase of a save ends: nothing happens in any other phase (log 3). -/
def savePhaseEnds (now next : SaveState) (f : Loader → Loader) (s : State) : State :=
  s.modLoader fun x => if x.save = now then { f x with save := next } else x

/-- INVALIDATING_END, R196. -/
def execInvalidatingEnd (s : State) : Outcome :=
  .next (s.whenRunning (savePhaseEnds .invalidating .writing Loader.unsign))

/-- WRITING_END, R196. -/
def execWritingEnd (s : State) : Outcome := .next (s.whenRunning (savePhaseEnds .writing .sealing Loader.writeBody))

/-- SEALING_END, R196. -/
def execSealingEnd (s : State) : Outcome := .next (s.whenRunning (savePhaseEnds .sealing .verifying Loader.seal))

/-- R196: a save ends with a reply. -/
def endSave (r : Result) (details : List Byte) (s : State) : State :=
  match s.loader.saveTag with
  | some tag => (s.modLoader Loader.ended).reply tag 0x04#8 r details
  | none => s.modLoader Loader.ended

/-- R196: the details of SAVE_FAILED: the phase, coded as R191's save state (log 11), the address, and 0 for a
no-acknowledge or 1 for a mismatch. -/
def saveFailedDetails (phase : SaveState) (address : Nat) (mismatch : Bool) : List Byte :=
  be8 (saveStateCode phase) ++ be16 address ++ [flagByte mismatch]

/-- R196: a byte read back that differs because the memory itself holds it stays in the memory. -/
def Loader.damaged (d : ReadFault) (x : Loader) : Loader :=
  if d.inMemory then writeEeprom d.address [d.value] x else x

/-- R196: the byte that the read-back finds at an address: what the memory holds, or what a faulty read gives. -/
def readBack (fault : Option ReadFault) (m : List Host.Cell) (a : Nat) : Byte :=
  match fault with
  | some d => if a = d.address then d.value else Memory.read eepromDefault m a
  | none => Memory.read eepromDefault m a

/-- R196: the first address at which the read-back differs from the snapshot. -/
def firstDifference (image : List Byte) (m : List Host.Cell) (fault : Option ReadFault) : Option Nat :=
  (List.range imageSize).find? fun a => readBack fault m a != image.getD a eepromDefault

/-- R196: the read-back reaches the last byte or the first difference. -/
def verify (fault : Option ReadFault) (s : State) : State :=
  if s.loader.save = .verifying then
    let x := match fault with
      | some d => s.loader.damaged d
      | none => s.loader
    let t := s.modLoader fun _ => x
    match firstDifference (x.snapshot.getD []) x.eeprom fault with
    | none => endSave .done (be16 bodyLength) t
    | some a => endSave .saveFailed (saveFailedDetails .verifying a true) t
  else s

/-- VERIFYING_END, R196. -/
def execVerifyingEnd (difference : Option ReadFault) (s : State) : Outcome :=
  match difference with
  | some d =>
    if d.address < imageSize then .next (s.whenRunning (verify (some d))) else .fault .illFormedCommand
  | none => .next (s.whenRunning (verify none))

/-- The memory addresses that no run of writes crosses a multiple of (R196). -/
def runSize : Nat := 32

/-- R196: how many bytes of a phase's writes the memory had taken at a no-acknowledge: in WRITING those of the runs before
the one that failed, which lies between two multiples of 32, and of that run as many as `taken` leaves (log 17). -/
def takenAt (save : SaveState) (address taken : Nat) : Nat :=
  match save with
  | .writing =>
    clamp (runSize * (address / runSize) - 2) (runSize * (address / runSize + 1) - 2) taken
  | .idle | .invalidating | .sealing | .verifying => taken

/-- R196: a no-acknowledge ends a save in the phase where it happened. -/
def saveFails (address taken : Nat) (s : State) : State :=
  if s.loader.save = .idle then s
  else
    endSave .saveFailed (saveFailedDetails s.loader.save address false)
      (s.modLoader (Loader.cutShort (takenAt s.loader.save address taken)))

/-- SAVE_NO_ACK, R196. -/
def execSaveNoAck (address taken : Nat) (s : State) : Outcome :=
  if address < imageSize then .next (s.whenRunning (saveFails address taken)) else .fault .illFormedCommand

end Sys2Proof.Machine
end

