-- ==== Sys2Proof/Machine/PortCommands.lean ====
section
/-!
DEFINITION. The meanings of the node media port's commands and events (R110 to R126, R200).
-/

namespace Sys2Proof.Machine

/-! ## Transactions (R110, R111, R200) -/

/-- R110: the block of a TAKE is clocked out no more: its transaction has ended. -/
def endTaking (n : Node) (s : State) : State := s.modPort n fun p => { p with taking := none }

/-- R110, R128: the command block of a new transaction has come in, or was cut short: a TAKE of an earlier transaction clocks
out no more, and this one has the SPI mode that was in force when its chip select was asserted. -/
def beginTransaction (n : Node) (s : State) : State :=
  s.modPort n fun p => { p with taking := none, clocking := p.opening.getD p.spiMode, opening := none }

/-- The bytes of a command block (R110). -/
def commandBytes : Nat := 8

/-- The bytes a GIVE brings after its command block: the data and its CRC-16 (R110). -/
def giveBytes : Nat := blockSize + 2

/-- R110, R200: MISO carries filler while `taken` bytes are clocked in. -/
def fillerFor (taken : Nat) : List Byte := List.replicate taken filler

/-- R110, R111: what MISO carries: filler while `taken` bytes come in, then the status block and what follows it; the
status block shows the port as it stands after the command's effects. -/
def respond (n : Node) (taken : Nat) (txn : Byte) (r : Status) (after : List Byte) (s : State) : State :=
  s.modPort n fun p => { p with response := fillerFor taken ++ statusBlock p txn r ++ after }

/-- The effects of a command at a port, with its transaction result, then the status block. -/
def answerWith (n : Node) (txn : Byte) (f : State → Status × State) (s : State) : State :=
  let r := f (beginTransaction n s)
  respond n commandBytes txn r.1 [] r.2

/-- R110: a command block that gets BAD_COMMAND. -/
def badCommandAt (n : Node) (s : State) : Status × State :=
  (.badCommand, s.modPort n fun p => { p with badCommands := p.badCommands + 1 })

/-- R126: the idle timer restarts at the full timeout, where it counts. -/
def restartIdle (n : Node) (s : State) : State := s.modPort n fun p => { p with idleTimer := some p.idleTimeout }

/-! ## READ, WRITE, FLUSH (R113, R114, R118, R122) -/

/-- R114, R118: a command opens on a port. -/
def openCommand (n : Node) (a : ActiveCommand) (s : State) : State :=
  s.modPort n fun p => { p with active := some a, slots := [], wait := .none, idleTimer := none }

/-- R114, R118: a READ or WRITE that starts at or beyond the capacity starts and ends at once. -/
def openAndEnd (n : Node) (a : ActiveCommand) (st : Status) (s : State) : Status × State :=
  (st, endCommand n st (openCommand n a s))

/-- R114: the record of a READ or WRITE of `count` blocks from `first` on a unit of this capacity. -/
def rangeCommand (kind : CommandKind) (first count capacity : Nat) : ActiveCommand :=
  { kind := kind, first := first, count := count, effective := min count (capacity - first), done := 0 }

/-- R113, R114: a READ is taken. It stages what it can before its status block is built (log 43). -/
def takeRead (n : Node) (lba count : Nat) (s : State) : Status × State :=
  if (port s n).active.isSome then (.busy, s)
  else if (port s n).attention then (.unitAttention, s)
  else
    match unitOf s n with
    | none => (.notPresent, s)
    | some u =>
      let a := rangeCommand .read lba count (s.units.get u).capacity
      if (s.units.get u).capacity ≤ lba then openAndEnd n a .endOfMedium s
      else (.good, stage n stageFuel (openCommand n a s))

/-- R97, R118: a permitted WRITE is taken: the write lock, then the range. -/
def openWrite (n : Node) (u : UnitId) (lba count : Nat) (s : State) : Status × State :=
  let t := takeWriteLock n u s
  let a := rangeCommand .write lba count (s.units.get u).capacity
  if (s.units.get u).capacity ≤ lba then openAndEnd n a .endOfMedium t else (.good, openCommand n a t)

/-- R97, R113: attention refuses a WRITE, but for one presented together with the WRITE that took the write lock: its
attention check came before that lock was taken (log 39). -/
def attentionRefuses (n : Node) (together : Bool) (s : State) : Bool :=
  (port s n).attention && !(together && writerElsewhere s n)

/-- R113, R118: a WRITE is taken. -/
def takeWrite (n : Node) (lba count : Nat) (together : Bool) (s : State) : Status × State :=
  if (port s n).active.isSome then (.busy, s)
  else if attentionRefuses n together s then (.unitAttention, s)
  else
    match writePermission s n, unitOf s n with
    | .good, some u => openWrite n u lba count s
    | r, _ => (r, s)

/-- R109: the record of a FLUSH, which has no blocks: 0 stands in its first LBA and its counts (log 44). -/
def flushCommand : ActiveCommand := { kind := .flush, first := 0, count := 0, effective := 0, done := 0 }

/-- R113, R122: a FLUSH is taken. -/
def takeFlush (n : Node) (s : State) : Status × State :=
  if (port s n).active.isSome then (.busy, s)
  else
    match flushPermission s n, unitOf s n with
    | .good, some u =>
      if dirtyCount s u = 0 then openAndEnd n flushCommand .good s else (.good, openCommand n flushCommand s)
    | r, _ => (r, s)

/-- READ, R114. -/
def execRead (n : Node) (lba : Word) (count txn : Byte) (s : State) : Outcome :=
  .next (s.whenRunning (answerWith n txn fun t =>
    if countFits count then takeRead n lba.toNat count.toNat t else badCommandAt n t))

/-- WRITE, R118. -/
def execWrite (n : Node) (lba : Word) (count : Byte) (txn : WriteNumber) (s : State) : Outcome :=
  .next (s.whenRunning (answerWith n txn.txn fun t =>
    if countFits count then takeWrite n lba.toNat count.toNat txn.together t else badCommandAt n t))

/-- FLUSH, R122. -/
def execFlush (n : Node) (txn : Byte) (s : State) : Outcome := .next (s.whenRunning (answerWith n txn (takeFlush n)))

/-! ## TAKE and the delivery of a block (R116, R117, R141) -/

/-- R116, R126: a TAKE: the answer, and the bytes that follow the status block. The idle timer restarts in every state in
which it counts, WRITING included (log 42). -/
def takeBlock (n : Node) (txn : Byte) (s : State) : State :=
  let t := restartIdle n (beginTransaction n s)
  match (port t n).state, (port t n).slots with
  | .reading, slot :: _ =>
    respond n commandBytes txn .good (dataWithCrc slot.data)
      (t.modPort n fun p => { p with taking := some { lba := slot.lba, live := true } })
  | .reading, [] => respond n commandBytes txn .notReady [] t
  | .idle, _ | .writing, _ | .writeHeld, _ | .flushing, _ => respond n commandBytes txn .noCommand [] t

/-- TAKE, R116. -/
def execTake (n : Node) (txn : Byte) (s : State) : Outcome := .next (s.whenRunning (takeBlock n txn))

/-- R116, R117, R141: the block is delivered: its slot empties, the done count rises, read-ahead is decided at the
midpoint, and the READ ends or goes on staging. -/
def deliver (n : Node) (a : ActiveCommand) (s : State) : State :=
  let b := { a with done := a.done + 1 }
  let t := s.modPort n fun p => { p with slots := p.slots.drop 1, active := some b }
  let t := if b.done = midpoint a then readAhead n a t else t
  if b.done = b.effective then endCommand n (finalStatus b) t else stage n stageFuel t

/-- R112, R116: the last CRC bit of a TAKE's block has been clocked out. -/
def blockEnds (n : Node) (s : State) : State :=
  match (port s n).taking, (port s n).active with
  | some t, some a =>
    let s' := endTaking n s
    if t.live && (port s n).state == .reading && !(port s n).slots.isEmpty then deliver n a s' else s'
  | some _, none => endTaking n s
  | none, _ => s

/-- BLOCK_DELIVERED, R116. -/
def execBlockDelivered (n : Node) (s : State) : Outcome := .next (s.whenRunning (blockEnds n))

/-! ## GIVE (R119, R120) -/

/-- R110, R126: the command block of a GIVE is taken; MISO carries filler while its data come in. -/
def giveBlockTaken (n : Node) (s : State) : State :=
  (restartIdle n (beginTransaction n s)).modPort n fun p => { p with response := fillerFor (commandBytes + giveBytes) }

/-- GIVE_COMMAND_BLOCK, R126. -/
def execGiveCommandBlock (n : Node) (s : State) : Outcome := .next (s.whenRunning (giveBlockTaken n))

/-- R119, case 2: the unit of the node is in STORE_FAULT. -/
def unitFaulted (s : State) (n : Node) : Bool :=
  match unitOf s n with
  | some u => (s.units.get u).state == .storeFault
  | none => false

/-- R119, case 6: the block moves into an empty slot. -/
def stageGiven (n : Node) (a : ActiveCommand) (data : List Byte) (s : State) : State :=
  s.modPort n fun p => { p with slots := p.slots ++ [{ lba := a.first + a.done + p.slots.length, data := data }] }

/-- R119: a complete GIVE is decided by the first case that applies. -/
def decideGive (n : Node) (data : List Byte) (crc : BitVec 16) (s : State) : Status × State :=
  let p := port s n
  match p.active with
  | none => (.noCommand, s)
  | some a =>
    if a.kind ≠ .write then (.noCommand, s)
    else if unitFaulted s n then (.writeFault, endCommand n .writeFault s)
    else if a.effective ≤ a.done + p.slots.length then (.noCommand, s)
    else if crc ≠ crc16 data then
      (.dataCrc, endCommand n .dataCrc (s.modPort n fun q => { q with dataCrcErrors := q.dataCrcErrors + 1 }))
    else if 2 ≤ p.slots.length then (.overrun, endCommand n .overrun s)
    else if p.wait = .cache then (.good, stageGiven n a data s)
    else (.good, offerBlocks n offerFuel (stageGiven n a data s))

/-- R109, R119: the receive buffer holds the data of the GIVE. -/
def receiveGive (n : Node) (data : List Byte) (s : State) : State :=
  s.modPort n fun p => { p with receiveBuffer := data }

/-- R110, R119: a GIVE is complete: its data stand in the receive buffer, it is decided, and its status block follows the
data. Its transaction began with its command block (GIVE_COMMAND_BLOCK). -/
def completeGive (n : Node) (txn : Byte) (data : List Byte) (crc : BitVec 16) (s : State) : State :=
  let r := decideGive n data crc (endTaking n (receiveGive n data s))
  respond n (commandBytes + giveBytes) txn r.1 [] r.2

/-- GIVE, R119. -/
def execGive (n : Node) (txn : Byte) (data : List Byte) (crc : BitVec 16) (s : State) : Outcome :=
  if data.length = blockSize then
    .next (s.whenRunning (completeGive n txn data crc))
  else .fault .illFormedCommand

/-! ## STATUS, SENSE, ACK CHANGE, ABORT (R123 to R125) -/

/-- STATUS, R123. -/
def execStatus (n : Node) (txn : Byte) (s : State) : Outcome :=
  .next (s.whenRunning (answerWith n txn fun t => (.good, t)))

/-- R123: the sense record of a node. -/
def senseOf (s : State) (n : Node) : List Byte :=
  senseRecord (unitOf s n).isSome (match unitOf s n with | some u => (s.units.get u).capacity | none => 0)
    (writePermission s n == .good) (port s n).attention

/-- R123: SENSE is taken. -/
def takeSense (n : Node) (txn : Byte) (s : State) : State :=
  let t := beginTransaction n s
  respond n commandBytes txn .good (senseOf t n) t

/-- SENSE, R123. -/
def execSense (n : Node) (txn : Byte) (s : State) : Outcome := .next (s.whenRunning (takeSense n txn))

/-- ACK_CHANGE, R124. -/
def execAckChange (n : Node) (txn : Byte) (s : State) : Outcome :=
  .next (s.whenRunning (answerWith n txn fun t => (.good, t.modPort n fun p => { p with attention := false })))

/-- R125: ABORT is taken. -/
def takeAbort (n : Node) (s : State) : Status × State :=
  if (port s n).active.isSome then (.good, endCommand n .aborted s) else (.noCommand, s)

/-- ABORT, R125. -/
def execAbort (n : Node) (txn : Byte) (s : State) : Outcome := .next (s.whenRunning (answerWith n txn (takeAbort n)))

/-! ## Bad and short transactions, the idle timer (R110, R126) -/

/-- R110: a bad command block is taken; any other block is none of this row's (log 3). -/
def badBlock (n : Node) (block : List Byte) (s : State) : State :=
  match blockCommand n false block with
  | some (.badCommand _ b) => answerWith n (blockTransaction b) (badCommandAt n) s
  | _ => s

/-- BAD_COMMAND, R110. -/
def execBadCommand (n : Node) (block : List Byte) (s : State) : Outcome :=
  if block.length = 8 then .next (s.whenRunning (badBlock n block)) else .fault .illFormedCommand

/-- R110, R116: a transaction ends before its command block is complete: it is counted, and nothing is taken. The TAKE of
an earlier transaction, whose chip select was deasserted before, delivers no more. -/
def shortTransaction (n : Node) (s : State) : State :=
  (beginTransaction n s).modPort n fun p =>
    { p with shortTransactions := p.shortTransactions + 1, response := fillerFor commandBytes }

/-- SHORT_TRANSACTION, R110. -/
def execShortTransaction (n : Node) (s : State) : Outcome := .next (s.whenRunning (shortTransaction n))

/-- R126: the idle timer reaches 0; it runs only in a counting condition. -/
def idleEnds (n : Node) (s : State) : State := if (port s n).counting then endCommand n .timeout s else s

/-- IDLE_TIMEOUT, R126. -/
def execIdleTimeout (n : Node) (s : State) : Outcome := .next (s.whenRunning (idleEnds n))

end Sys2Proof.Machine
end

