-- ==== Sys2Proof/Machine/Dispatch.lean ====
section
/-! DEFINITION. The dispatch of a command to its meaning, one arm per row of spec/opcode_table.json. -/

namespace Sys2Proof.Machine

def exec (i : Instr) (s : State) : Host.Outcome State Fault Refusal :=
  match i with
  | .identify tag body => Sys2Proof.Machine.execIdentify tag body s
  | .linkConfig tag body => Sys2Proof.Machine.execLinkConfig tag body s
  | .clear tag body => Sys2Proof.Machine.execClear tag body s
  | .saveSettings tag body => Sys2Proof.Machine.execSaveSettings tag body s
  | .linesConfig tag body => Sys2Proof.Machine.execLinesConfig tag body s
  | .linesSet tag body => Sys2Proof.Machine.execLinesSet tag body s
  | .linesRead tag body => Sys2Proof.Machine.execLinesRead tag body s
  | .lineEventsClear tag body => Sys2Proof.Machine.execLineEventsClear tag body s
  | .powerAction tag asked => Sys2Proof.Machine.execPowerAction tag asked s
  | .powerTimings tag body => Sys2Proof.Machine.execPowerTimings tag body s
  | .powerWatch tag body => Sys2Proof.Machine.execPowerWatch tag body s
  | .consoleConfig tag body => Sys2Proof.Machine.execConsoleConfig tag body s
  | .consoleSend tag body => Sys2Proof.Machine.execConsoleSend tag body s
  | .consoleBreak tag body => Sys2Proof.Machine.execConsoleBreak tag body s
  | .consoleRead tag body => Sys2Proof.Machine.execConsoleRead tag body s
  | .consoleForward tag body => Sys2Proof.Machine.execConsoleForward tag body s
  | .consoleStatus tag asked => Sys2Proof.Machine.execConsoleStatus tag asked s
  | .poolConfig tag body => Sys2Proof.Machine.execPoolConfig tag body s
  | .poolStatus tag body => Sys2Proof.Machine.execPoolStatus tag body s
  | .unitAttach tag body => Sys2Proof.Machine.execUnitAttach tag body s
  | .unitDetach tag body => Sys2Proof.Machine.execUnitDetach tag body s
  | .unitStatus tag body => Sys2Proof.Machine.execUnitStatus tag body s
  | .mediaPortConfig tag asked => Sys2Proof.Machine.execMediaPortConfig tag asked s
  | .patternSet tag body => Sys2Proof.Machine.execPatternSet tag body s
  | .bootPolicy tag body => Sys2Proof.Machine.execBootPolicy tag body s
  | .bootRearm tag body => Sys2Proof.Machine.execBootRearm tag body s
  | .bootStatus tag body => Sys2Proof.Machine.execBootStatus tag body s
  | .unknownKind kind tag body => Sys2Proof.Machine.execUnknownKind kind tag body s
  | .fill tag lba data => Sys2Proof.Machine.execFill tag lba data s
  | .fetchFailed tag => Sys2Proof.Machine.execFetchFailed tag s
  | .stored tag => Sys2Proof.Machine.execStored tag s
  | .storeFailed tag => Sys2Proof.Machine.execStoreFailed tag s
  | .malformedAnswer kind tag body => Sys2Proof.Machine.execMalformedAnswer kind tag body s
  | .crcError => Sys2Proof.Machine.execCrcError s
  | .truncatedFrame => Sys2Proof.Machine.execTruncatedFrame s
  | .escapeError next => Sys2Proof.Machine.execEscapeError next s
  | .lengthError length => Sys2Proof.Machine.execLengthError length s
  | .byteFramingError => Sys2Proof.Machine.execByteFramingError s
  | .overrun => Sys2Proof.Machine.execOverrun s
  | .arbiterChoice pins => Sys2Proof.Machine.execArbiterChoice pins s
  | .frameSent => Sys2Proof.Machine.execFrameSent s
  | .sampleInstant pins => Sys2Proof.Machine.execSampleInstant pins s
  | .tPressEnd n => Sys2Proof.Machine.execTPressEnd n s
  | .tOnEnd n => Sys2Proof.Machine.execTOnEnd n s
  | .tSoftEnd n => Sys2Proof.Machine.execTSoftEnd n s
  | .tHoldEnd n => Sys2Proof.Machine.execTHoldEnd n s
  | .tRestEnd n => Sys2Proof.Machine.execTRestEnd n s
  | .tResetEnd n => Sys2Proof.Machine.execTResetEnd n s
  | .tDiagEnd n => Sys2Proof.Machine.execTDiagEnd n s
  | .powerWatchTimeout => Sys2Proof.Machine.execPowerWatchTimeout s
  | .characterReceived n data parityBit stopBit => Sys2Proof.Machine.execCharacterReceived n data parityBit stopBit s
  | .breakRecognized n => Sys2Proof.Machine.execBreakRecognized n s
  | .heldCharacterStored n => Sys2Proof.Machine.execHeldCharacterStored n s
  | .breakEnd n => Sys2Proof.Machine.execBreakEnd n s
  | .transmitCharacterStart n cts => Sys2Proof.Machine.execTransmitCharacterStart n cts s
  | .breakSent n => Sys2Proof.Machine.execBreakSent n s
  | .breakRecoveryEnd n => Sys2Proof.Machine.execBreakRecoveryEnd n s
  | .windowEnd n => Sys2Proof.Machine.execWindowEnd n s
  | .read n lba count txn => Sys2Proof.Machine.execRead n lba count txn s
  | .write n lba count txn => Sys2Proof.Machine.execWrite n lba count txn s
  | .take n txn => Sys2Proof.Machine.execTake n txn s
  | .give n txn data crc => Sys2Proof.Machine.execGive n txn data crc s
  | .status n txn => Sys2Proof.Machine.execStatus n txn s
  | .sense n txn => Sys2Proof.Machine.execSense n txn s
  | .flush n txn => Sys2Proof.Machine.execFlush n txn s
  | .ackChange n txn => Sys2Proof.Machine.execAckChange n txn s
  | .abort n txn => Sys2Proof.Machine.execAbort n txn s
  | .badCommand n block => Sys2Proof.Machine.execBadCommand n block s
  | .shortTransaction n => Sys2Proof.Machine.execShortTransaction n s
  | .blockDelivered n => Sys2Proof.Machine.execBlockDelivered n s
  | .idleTimeout n => Sys2Proof.Machine.execIdleTimeout n s
  | .fetchTimeout entry => Sys2Proof.Machine.execFetchTimeout entry s
  | .storeTimeout entry => Sys2Proof.Machine.execStoreTimeout entry s
  | .agingTick => Sys2Proof.Machine.execAgingTick s
  | .deadline n => Sys2Proof.Machine.execDeadline n s
  | .partReset taken => Sys2Proof.Machine.execPartReset taken s
  | .resetRelease => Sys2Proof.Machine.execResetRelease s
  | .loadEnd pins found => Sys2Proof.Machine.execLoadEnd pins found s
  | .invalidatingEnd => Sys2Proof.Machine.execInvalidatingEnd s
  | .writingEnd => Sys2Proof.Machine.execWritingEnd s
  | .sealingEnd => Sys2Proof.Machine.execSealingEnd s
  | .verifyingEnd difference => Sys2Proof.Machine.execVerifyingEnd difference s
  | .saveNoAck address taken => Sys2Proof.Machine.execSaveNoAck address taken s
  | .frameStart => Sys2Proof.Machine.execFrameStart s
  | .startBit n mid => Sys2Proof.Machine.execStartBit n mid s
  | .transmitCharacterEnd n => Sys2Proof.Machine.execTransmitCharacterEnd n s
  | .giveCommandBlock n => Sys2Proof.Machine.execGiveCommandBlock n s

end Sys2Proof.Machine
end

