-- ==== Sys2Proof/Machine/Pins.lean ====
section
/-!
DEFINITION. What stands on the lines bit by bit: the link's TX and RX (R174, R184, R185), a character on a console's RX (R43),
and the clock and data lines of a node media port (R110, R128).
-/

namespace Sys2Proof.Machine

/-! ## The link's lines (R174, R184) -/

/-- R174: a byte on the link: 8 data bits, the least significant first (log 52), no parity, 1 stop bit. -/
def linkBits (b : Byte) : List Bool := uartBits 8 .none 1 b

/-- R184: the bits of the frame on the wire, byte after byte without a pause (log 52). -/
def Link.txBits (k : Link) : List Bool :=
  match k.sending with
  | some x => x.wire.flatMap linkBits
  | none => []

/-- R174, R184: the part's TX pin in bit time `i` of the frame on the wire; high after its last bit, between frames and until
loading ends. -/
def State.linkTx (s : State) (i : Nat) : Level := if s.phase = .running then levelOf (s.link.txBits.getD i true) else .high

/-- R174, R185: the rate in force, in bits per second, in both directions. -/
def State.linkRate (s : State) : Nat := linkActual s.link.lineBaud

/-- R174, R175: the byte that ten bit times on the link's RX line are: a low start bit, eight data bits, the stop bit. -/
def lineByte? (bits : List Bool) : Option LineByte :=
  match bits with
  | [false, b0, b1, b2, b3, b4, b5, b6, b7, stop] =>
    some { data := BitVec.ofNat 8 (bitsNumber [b0, b1, b2, b3, b4, b5, b6, b7]), stop := stop }
  | _ => none

/-! ## A character on a console's RX line (R43) -/

/-- R43: the command that the samples after a confirmed start bit are: the data bits, the parity bit if there is one, and the
first stop bit. Without parity no bit is sampled for it, and the row's is not looked at. -/
def sampledCharacter (n : Node) (c : ConsoleSettings) (samples : List Bool) : Option Instr :=
  let data : Byte := BitVec.ofNat 8 (bitsNumber (samples.take c.dataBits))
  match c.parity, samples.drop c.dataBits with
  | .none, [stop] => some (.characterReceived n data true stop)
  | .even, [parity, stop] | .odd, [parity, stop] => some (.characterReceived n data parity stop)
  | _, _ => none

/-! ## The lines of a node media port (R110) -/

/-- The levels of a port's SCK and MOSI pins at a moment. -/
structure SpiPins where
  sck : Level
  mosi : Level
  deriving DecidableEq, Repr

/-- R110: the level at which the clock idles: low in SPI mode 0, high in mode 3. -/
def sckIdle (mode : Nat) : Level := if mode = 3 then .high else .low

/-- R110: the bits that a port takes: MOSI at each rising edge of SCK. The list holds the levels from the assertion of chip
select on, one moment after another. -/
def mosiBits : List SpiPins → List Bool
  | a :: b :: rest =>
    (if a.sck = .low ∧ b.sck = .high then [b.mosi == .high] else []) ++ mosiBits (b :: rest)
  | [_] | [] => []

/-- R110: the falling edges of SCK, at each of which a port changes MISO. -/
def fallingEdges : List SpiPins → Nat
  | a :: b :: rest => (if a.sck = .high ∧ b.sck = .low then 1 else 0) + fallingEdges (b :: rest)
  | [_] | [] => 0

/-- R110: the bits of a byte as a port's lines carry it, the most significant first. -/
def spiBits (b : Byte) : List Bool := (List.range 8).map b.getMsbD

/-- R110: the whole bytes that bits make, the most significant bit of each first. -/
def spiBytes : List Bool → List Byte
  | b7 :: b6 :: b5 :: b4 :: b3 :: b2 :: b1 :: b0 :: rest =>
    BitVec.ofNat 8 (bitsNumber [b0, b1, b2, b3, b4, b5, b6, b7]) :: spiBytes rest
  | _ => []

/-- R110: which bit of the transaction MISO carries after so many falling edges. Where the clock idles low the first bit is
there from the assertion of chip select on and each falling edge brings the next; where it idles high the first falling
edge brings the first bit (log 53). -/
def misoBit (mode falls : Nat) : Nat :=
  match sckIdle mode with
  | .low => falls
  | .high => falls - 1

/-- R110, R128, R129, R191, R200: a port's MISO pin after these levels of its lines; released while chip select is deasserted
(`none`) and until loading ends. The mode is that of the port's latest transaction. -/
def State.misoPin (s : State) (n : Node) (clocked : Option (List SpiPins)) : PinDrive :=
  match s.phase, clocked with
  | .running, some pins =>
    let p := port s n
    if ((p.response.flatMap spiBits).getD (misoBit p.clocking (fallingEdges pins)) true) then .drivenHigh else .drivenLow
  | .running, none | .inReset, _ | .loading, _ => .released

/-- The bytes of a whole TAKE: its command block, its status block, the data and their CRC-16 (R110). -/
def takeBytes : Nat := commandBytes + 9 + (blockSize + 2)

/-- R110, R116, R119: the commands that one transaction is, from its first byte on MOSI to the deassertion of chip select:
fewer than eight whole bytes are a short transaction; a GIVE is decided when its data and CRC-16 are complete; a TAKE's block
is delivered when its last CRC bit has been clocked out (where the TAKE got no block, that row finds nothing to do, log 3).
Bytes beyond these are ignored. -/
def transactionCommands (n : Node) (together : Bool) (bytes : List Byte) : List Instr :=
  if bytes.length < commandBytes then [.shortTransaction n]
  else
    match blockCommand n together (bytes.take commandBytes) with
    | some (.take m txn) => .take m txn :: if takeBytes ≤ bytes.length then [.blockDelivered m] else []
    | some (.giveCommandBlock m) =>
      let given := (bytes.drop commandBytes).take giveBytes
      .giveCommandBlock m ::
        if given.length = giveBytes then
          [.give m (blockTransaction bytes) (given.take blockSize)
            (BitVec.ofNat 16 (u16 (given.getD blockSize 0#8) (given.getD (blockSize + 1) 0#8)))]
        else []
    | some c => [c]
    | none => []

/-- R110: what a node puts on SCK and MOSI to clock bits in: SCK idles at the level of the mode, each bit is on MOSI from
before the falling edge, or the idle low, to after the rising edge, and SCK goes back to its idle level. -/
def nodeClocks (mode : Nat) (bits : List Bool) : List SpiPins :=
  { sck := sckIdle mode, mosi := .high } ::
    ((bits.flatMap fun b => [{ sck := .low, mosi := levelOf b }, { sck := .high, mosi := levelOf b }])
      ++ [{ sck := sckIdle mode, mosi := .high }])

end Sys2Proof.Machine
end

