-- ==== Sys2Proof/Safety.lean ====
section
/-!
DEFINITION. The standing conditions of the part, in the terms the statements use: the laws its chapters state (R2, R3,
R10, R18, R19, R46, R60, R61, R76, R77, R79, R93, R96, R109, R126, R130, R159, R176 to R180), and the states in which a
request is taken at once.
-/

namespace Sys2Proof.Machine

/-! ## When a request is taken at once -/

/-- R177: the part runs, no complete request waits, the reply queue has a free entry and no reply waits for room: a
request frame that completes now is taken in the same step. -/
abbrev RequestReady (s : State) : Prop :=
  s.phase = .running ∧ s.link.inbox = [] ∧ s.link.waiting = [] ∧ s.link.replies.length < replyRoom

/-- The reply that R178 queues: the request's tag, its kind, the result and the details. -/
def replyTo (tag : Tag) (kind : Byte) (r : Result) (details : List Byte) : Reply :=
  { tag := tag, body := replyBody kind r details, rate := none }

/-- The state in which a request has been taken from its buffer and this one reply queued, and nothing else. -/
def answered (s : State) (r : Reply) : State :=
  { s with link := { s.link with receiver := none, replies := s.link.replies ++ [r] } }

/-- The state in which a port has answered a command block with this result and these bytes after it, and nothing else
has changed: filler while the block came in, then the status block, which shows the port as it stands (R110, R111), with 0 in
bits 1 to 7 of its flags (log 54). The transaction has the SPI mode in force when its chip select was asserted (R128,
log 53). -/
def portAnswered (n : Node) (txn : Byte) (r : Status) (after : List Byte) (s : State) : State :=
  { s with
    ports := s.ports.modify n fun p =>
      { p with
        taking := none, clocking := p.opening.getD p.spiMode, opening := none,
        response := List.replicate 8 0xFF#8 ++ statusBlock p txn r ++ after } }

/-- The same for a complete GIVE, whose 512 data bytes and CRC-16 come in before its status block (R110). -/
def giveAnswered (n : Node) (txn : Byte) (r : Status) (s : State) : State :=
  { s with
    ports := s.ports.modify n fun p =>
      { p with taking := none, response := List.replicate (8 + 514) 0xFF#8 ++ statusBlock p txn r } }

/-- R112: a port after its active command has ended with a status. -/
def endedPort (p : Port) (a : ActiveCommand) (st : Status) : Port :=
  { p with
    active := none, slots := [], wait := .none, idleTimer := none, lastStatus := st, lastCount := a.done,
    sequential := if a.kind = .read then some (a.first + a.done) else p.sequential,
    taking := p.taking.map fun t => { t with live := false } }

/-- R112: the state in which the active command of a port has ended with a status, and nothing else has changed. -/
def commandEnded (n : Node) (a : ActiveCommand) (st : Status) (s : State) : State :=
  { s with
    ports := s.ports.modify n fun p => endedPort p a st
    cache := { s.cache with entryWait := s.cache.entryWait.filter fun m => m != n } }

/-- Nothing follows from pages that become free or evictable: no port holds a write and no page waits to be stored. -/
abbrev NothingHeld (s : State) : Prop :=
  (∀ n : Node, (s.ports.get n).wait ≠ .cache) ∧ ∀ u : UnitId, s.cache.dirty.get u = []

/-- The request frame that a command stands for: kind (R198), tag, body. -/
def requestOf : Instr → Option (Byte × Tag × List Byte)
  | .identify tag body => some (0x01#8, tag, body)
  | .linkConfig tag body => some (0x02#8, tag, body)
  | .clear tag body => some (0x03#8, tag, body)
  | .saveSettings tag body => some (0x04#8, tag, body)
  | .linesConfig tag body => some (0x10#8, tag, body)
  | .linesSet tag body => some (0x11#8, tag, body)
  | .linesRead tag body => some (0x12#8, tag, body)
  | .lineEventsClear tag body => some (0x13#8, tag, body)
  | .powerAction tag ⟨body, _⟩ => some (0x20#8, tag, body)
  | .powerTimings tag body => some (0x21#8, tag, body)
  | .powerWatch tag body => some (0x22#8, tag, body)
  | .consoleConfig tag body => some (0x30#8, tag, body)
  | .consoleSend tag body => some (0x31#8, tag, body)
  | .consoleBreak tag body => some (0x32#8, tag, body)
  | .consoleRead tag body => some (0x33#8, tag, body)
  | .consoleForward tag body => some (0x34#8, tag, body)
  | .consoleStatus tag ⟨body, _⟩ => some (0x35#8, tag, body)
  | .poolConfig tag body => some (0x40#8, tag, body)
  | .poolStatus tag body => some (0x41#8, tag, body)
  | .unitAttach tag body => some (0x50#8, tag, body)
  | .unitDetach tag body => some (0x51#8, tag, body)
  | .unitStatus tag body => some (0x52#8, tag, body)
  | .mediaPortConfig tag ⟨body, _⟩ => some (0x53#8, tag, body)
  | .patternSet tag body => some (0x60#8, tag, body)
  | .bootPolicy tag body => some (0x61#8, tag, body)
  | .bootRearm tag body => some (0x62#8, tag, body)
  | .bootStatus tag body => some (0x63#8, tag, body)
  | .unknownKind kind tag body => some (kind, tag, body)
  | .fill _ _ _ | .fetchFailed _ | .stored _ | .storeFailed _ | .malformedAnswer _ _ _ | .crcError | .truncatedFrame
  | .escapeError _ | .lengthError _ | .byteFramingError | .overrun | .arbiterChoice _ | .frameSent | .sampleInstant _
  | .tPressEnd _ | .tOnEnd _ | .tSoftEnd _ | .tHoldEnd _ | .tRestEnd _ | .tResetEnd _ | .tDiagEnd _
  | .powerWatchTimeout | .characterReceived _ _ _ _ | .breakRecognized _ | .heldCharacterStored _ | .breakEnd _
  | .transmitCharacterStart _ _ | .breakSent _ | .breakRecoveryEnd _ | .windowEnd _ | .read _ _ _ _ | .write _ _ _ _
  | .take _ _ | .give _ _ _ _ | .status _ _ | .sense _ _ | .flush _ _ | .ackChange _ _ | .abort _ _ | .badCommand _ _
  | .shortTransaction _ | .blockDelivered _ | .idleTimeout _ | .fetchTimeout _ | .storeTimeout _ | .agingTick
  | .deadline _ | .partReset _ | .resetRelease | .loadEnd _ _ | .invalidatingEnd | .writingEnd | .sealingEnd
  | .verifyingEnd _ | .saveNoAck _ _ | .frameStart | .startBit _ _ | .transmitCharacterEnd _ | .giveCommandBlock _ =>
    none

/-- R169: from `s` to `t` a node has left its unit: the line that its supervisor owned is INACTIVE and owned by nothing
(the lowest, where a state that no run reaches has more than one), every other line as it was, and the fallback flag is
clear. -/
abbrev LeavesBootSelect (s t : State) (n : Node) : Prop :=
  (∀ l : LineId, t.line n l =
    if (s.line n l).owner = .supervisor ∧ ∀ m : LineId, m < l → (s.line n m).owner ≠ .supervisor then
      { s.line n l with owner := .none, driven := false }
    else s.line n l)
  ∧ t.supervisor n = { s.supervisor n with fallback := false }

/-- R30: this command is no POWER ACTION taken ahead of a recovery that step 5 is due to start. -/
abbrev NoRecoveryBehind (c : Instr) (s : State) : Prop :=
  ∀ (tag : Tag) (body : List Byte) (n : Node), c = .powerAction tag ⟨body, true⟩ → actionNode? body = some n →
    s.action n = none → s.power.slot.get n = none

/-- R199: the body lengths of the requests whose record has one length. -/
def fixedLength (kind : Byte) : Option Nat :=
  ([(0x01#8, 0), (0x02#8, 5), (0x03#8, 0), (0x04#8, 0), (0x11#8, 3), (0x12#8, 1), (0x13#8, 2), (0x20#8, 3),
    (0x21#8, 15), (0x22#8, 6), (0x30#8, 13), (0x32#8, 3), (0x33#8, 8), (0x34#8, 7), (0x35#8, 1), (0x41#8, 1),
    (0x50#8, 11), (0x51#8, 2), (0x52#8, 1), (0x53#8, 4), (0x61#8, 17), (0x62#8, 1), (0x63#8, 1)] :
    List (Byte × Nat)).lookup kind

/-! ## The link (R176 to R180, R184) -/

/-- The queues and counts of the link stay within their bounds, and no two frames share a buffer. -/
abbrev LinkLaw (s : State) : Prop :=
  s.link.replies.length ≤ replyRoom ∧ s.link.notices.length ≤ noticeRoom ∧ s.link.lost ≤ lostMax
    ∧ s.link.runCount ≤ 15 ∧ (∀ e ∈ s.link.notices, e.lostBefore ≤ lostMax)
    ∧ (s.link.waiting ≠ [] → s.link.replies.length = replyRoom) ∧ s.link.occupied.Nodup

/-! ## Memories -/

/-- Both memories are in canonical form. -/
abbrev MemoryLaw (s : State) : Prop :=
  Memory.wf ramDefault s.ram ∧ Memory.wf eepromDefault s.loader.eeprom

/-! ## Consoles (R49, R50, R53) -/

/-- The mark lists and transmit FIFOs stay within their sizes. -/
abbrev ConsoleLaw (s : State) : Prop :=
  ∀ n : Node, (s.consoles.get n).marks.length ≤ markRoom ∧ (s.consoles.get n).fifo.length ≤ fifoRoom

/-! ## Lines and power actions (R10, R18) -/

/-- R10: an owned line has a role its owner may take. -/
abbrev OwnerFits (n : Node) (l : Line) : Prop :=
  (∀ m : Node, l.owner = .action m → m = n ∧ (l.role = .powerButton ∨ l.role = .reset ∨ l.role = .diag))
    ∧ (l.owner = .supervisor → l.role = .bootSelect)

/-- R10: the law of owners. -/
abbrev OwnerLaw (s : State) : Prop := ∀ (n : Node) (l : LineId), OwnerFits n (s.line n l)

/-- R18, R30: a pending recovery exists only while an action runs on its node, or while the POWER ACTION that is taken
before step 5 of a completion comes next (log 40). -/
abbrev RecoveryLaw (s : State) : Prop :=
  ∀ n : Node, (s.power.slot.get n).isSome → (s.action n).isSome ∨ (s.phase = .running ∧ requestAhead s n)

/-- R159: an attempt counter never exceeds its limit (and is 0 until the part runs, R173). -/
abbrev AttemptLaw (s : State) : Prop :=
  ∀ n : Node, (s.supervisor n).attempts ≤ (s.boot.policy.get n).limit
    ∧ (s.phase ≠ .running → (s.supervisor n).attempts = 0)

/-! ## Ports (R126) -/

/-- R126: a port's idle timer runs exactly in a counting condition. -/
abbrev TimerLaw (s : State) : Prop := ∀ n : Node, (s.ports.get n).idleTimer.isSome = (s.ports.get n).counting

/-! ## Units (R93, R96) -/

/-- R96: a node is in the node set of at most one unit, an EXCLUSIVE unit's node set has at most one node, a unit has a
writer only in FIRST_WRITER mode and in its node set; a DETACHED or DRAINING unit has no nodes (R93). -/
abbrev UnitLaw (s : State) : Prop :=
  (∀ (n : Node) (u v : UnitId), (s.units.get u).nodes.get n → (s.units.get v).nodes.get n → u = v)
    ∧ (∀ u : UnitId, (s.units.get u).mode = .exclusive →
        ∀ n m : Node, (s.units.get u).nodes.get n → (s.units.get u).nodes.get m → n = m)
    ∧ (∀ (u : UnitId) (n : Node), (s.units.get u).writer = some n →
        (s.units.get u).mode = .firstWriter ∧ (s.units.get u).nodes.get n)
    ∧ (∀ u : UnitId, (s.units.get u).state = .detached ∨ (s.units.get u).state = .draining →
        (s.units.get u).nodes = Per4.all false)

/-! ## Settings (R2, R3, R19, R39, R60, R77, R109, R153, R158, R174) -/

/-- A number lies in a range. -/
abbrev InRange (lo hi x : Nat) : Prop := lo ≤ x ∧ x ≤ hi

/-- R2, R3: the lines of a node that LINES CONFIG would accept. -/
abbrev LinesLegal (ls : Per6 LineSettings) : Prop :=
  duplicateRole (ls.toList.map fun x => x.role) = false ∧ ∀ l : LineId, (ls.get l).openDrainHigh = false

/-- R19: timings within their ranges. -/
abbrev TimingsLegal (t : Timings) : Prop :=
  InRange 20 5000 t.press ∧ InRange 1 120 t.on ∧ InRange 1 600 t.soft ∧ InRange 1 30 t.hold ∧ InRange 1 60 t.rest
    ∧ InRange 10 5000 t.reset ∧ InRange 10 5000 t.diag

/-- R39, R60: console settings within their ranges. -/
abbrev ConsoleLegal (c : ConsoleSettings) : Prop :=
  InRange 300 3000000 c.baud ∧ (c.dataBits = 7 ∨ c.dataBits = 8) ∧ (c.stopBits = 1 ∨ c.stopBits = 2)
    ∧ InRange 10 1000 c.window ∧ InRange 1 100 c.rise ∧ c.fall < c.rise

/-- R109: port settings within their ranges. -/
abbrev PortLegal (p : PortSettings) : Prop := (p.spiMode = 0 ∨ p.spiMode = 3) ∧ InRange 100 10000 p.idleTimeout

/-- R77: the reservation and share of a holder within their ranges. -/
abbrev HolderLegal (least : Nat) (h : HolderSettings) : Prop := InRange least 64 h.reservation ∧ h.share ≤ 16

/-- R153: a pattern entry within its ranges. -/
abbrev PatternLegal (p : Pattern) : Prop := InRange 1 24 p.literal.length ∧ InRange 1 6 p.stage

/-- R158: a boot policy within its ranges. -/
abbrev PolicyLegal (p : Policy) : Prop :=
  (∀ k : LineId, p.deadlines.get k ≤ 3600) ∧ InRange 1 6 p.final ∧ p.limit ≤ 15 ∧ p.fallbackFrom ≤ 15

/-- The sum of all reservations. -/
def Settings.reserved (x : Settings) : Nat :=
  ((x.channels.toList ++ x.caches.toList).map fun h => h.reservation).sum

/-- Every setting has a value its request would apply. -/
abbrev SettingsLegal (x : Settings) : Prop :=
  InRange 115200 12000000 x.baud ∧ InRange 1 15 x.ratio ∧ InRange 1 255 x.samplePeriod ∧ InRange 1 60 x.agingTick
    ∧ (∀ n : Node, LinesLegal (x.lines.get n) ∧ TimingsLegal (x.timings.get n) ∧ ConsoleLegal (x.consoles.get n)
        ∧ PortLegal (x.ports.get n) ∧ HolderLegal 2 (x.channels.get n) ∧ HolderLegal 0 (x.caches.get n)
        ∧ PolicyLegal (x.policies.get n))
    ∧ (∀ i : Fin 16, PatternLegal x.patterns[i]) ∧ x.reserved ≤ reservationLimit

/-- The settings in force are legal. -/
abbrev SettingsLaw (s : State) : Prop := SettingsLegal s.settings

/-! ## The pool and the cache (R76, R79, R93, R130) -/

/-- R46, R76: the page list of a console names exactly the pages its holder owns, each once, and at least two. -/
abbrev HistoryPagesLaw (s : State) (n : Node) : Prop :=
  (s.consoles.get n).pages.Nodup ∧ 2 ≤ (s.consoles.get n).pages.length
    ∧ ∀ p : PageId, p ∈ (s.consoles.get n).pages ↔ s.pool.owners[p] = some (.ch n)

/-- R93, R130: the directory has one record for each page that a cache holder owns, of a unit that is not DETACHED. -/
abbrev DirectoryLaw (s : State) : Prop :=
  (s.cache.directory.map fun r => r.page).Nodup
    ∧ (∀ r ∈ s.cache.directory, s.pool.owners[r.page] = some (.mh r.unit) ∧ (s.units.get r.unit).state ≠ .detached)
    ∧ ∀ (p : PageId) (u : UnitId), s.pool.owners[p] = some (.mh u) → p ∈ s.cache.directory.map fun r => r.page

/-- R79: every page free or held by exactly one holder, the consoles at their two pages or more, the borrows within the
common part; with the unit table's law and the settings' ranges, on which the pool rests. -/
abbrev PoolLaw (s : State) : Prop :=
  UnitLaw s ∧ SettingsLaw s ∧ (∀ n : Node, HistoryPagesLaw s n) ∧ DirectoryLaw s ∧ s.pool.borrowed ≤ s.pool.common
    ∧ (s.phase ≠ .running → s.pool.owners = resetOwners)

/-- How many characters a console history holds (R46). -/
def Console.heldSpan (c : Console) : Nat := (c.live - c.oldest).toNat

/-- How far a forward cursor lies above the oldest held character (R60); 0 while forwarding is off. -/
def Console.cursorLead (c : Console) : Nat :=
  match c.cursor with
  | none => 0
  | some x => (x - c.oldest).toNat

/-- R46, R60: the held span lies within the pages, with room for the next byte, and a forward cursor lies on it. -/
abbrev HistoryLaw (s : State) : Prop :=
  ∀ n : Node, (s.consoles.get n).heldSpan < blockSize * (s.consoles.get n).pages.length
    ∧ (s.consoles.get n).cursorLead ≤ (s.consoles.get n).heldSpan

/-- The blocks with a record in a state (R130). -/
def blocksIn (s : State) (st : PageState) : List (UnitId × Nat) :=
  (s.cache.directory.filter fun r => r.state == st).map fun r => (r.unit, r.lba)

/-- The busy fetch entries (R135). -/
def busyFetches (s : State) : List Fetch := s.cache.fetches.toList.filterMap fun e => e.busy

/-- The busy store entries (R147). -/
def busyStores (s : State) : List Store := s.cache.stores.toList.filterMap fun e => e.busy

/-- The WAITING blocks of all fetch entries (R135). -/
def awaited (s : State) : List (UnitId × Nat) :=
  (busyFetches s).flatMap fun f => (waitingBlocks f).map fun lba => (f.unit, lba)

/-- R130, R135: the FILLING pages are exactly those of the WAITING blocks, each awaited once, for units in service. -/
abbrev FetchLaw (s : State) : Prop :=
  (awaited s).Nodup ∧ (∀ b ∈ awaited s, b ∈ blocksIn s .filling) ∧ (∀ b ∈ blocksIn s .filling, b ∈ awaited s)
    ∧ ∀ f ∈ busyFetches s, (s.units.get f.unit).state = .attached ∨ (s.units.get f.unit).state = .storeFault

/-- R147: the STORING pages are exactly those of the busy store entries, each in one. -/
abbrev StoreLaw (s : State) : Prop :=
  ((busyStores s).map fun x => x.page).Nodup
    ∧ (∀ x ∈ busyStores s, ∃ r ∈ s.cache.directory, r.page = x.page ∧ r.unit = x.unit ∧ r.lba = x.lba ∧ r.state = .storing)
    ∧ ∀ r ∈ s.cache.directory, r.state = .storing → ∃ x ∈ busyStores s, x.page = r.page

/-- R146: the dirty order of a unit holds exactly its DIRTY pages, each once. -/
abbrev DirtyLaw (s : State) : Prop :=
  ∀ u : UnitId, ((s.cache.dirty.get u).map fun d => d.page).Nodup
    ∧ (∀ d ∈ s.cache.dirty.get u, ∃ r ∈ s.cache.directory, r.page = d.page ∧ r.unit = u ∧ r.state = .dirty)
    ∧ ∀ r ∈ s.cache.directory, r.unit = u → r.state = .dirty → ∃ d ∈ s.cache.dirty.get u, d.page = r.page

/-- R115: the page that a port's next block has, where its wait is PAGE and a unit serves it. -/
def waitedRecord (s : State) (n : Node) : Option DirRecord :=
  match (port s n).active, unitOf s n with
  | some a, some u => if a.kind = .read then findBlock s u (nextBlock a (port s n)) else none
  | _, _ => none

/-- R115: every port that waits on a block waits on a FILLING page of the unit that serves its node. -/
abbrev WaitLaw (s : State) : Prop :=
  ∀ n : Node, (port s n).wait = .page → (waitedRecord s n).map (fun r => r.state) = some .filling

/-- R130, R131, R135, R146, R147: at most one record for a block, the DIRTY and STORING count of a unit within its dirty
limit, and the tables of the engine in agreement with its directory. -/
abbrev CacheLaw (s : State) : Prop :=
  (s.cache.directory.map fun r => (r.unit, r.lba)).Nodup
    ∧ (∀ u : UnitId, dirtyCount s u ≤ (s.units.get u).dirtyLimit) ∧ FetchLaw s ∧ StoreLaw s ∧ DirtyLaw s

end Sys2Proof.Machine
end

