-- ==== Sys2Proof/Certificates/Slice0/Obligations.lean ====
section
/-!
DEFINITION. The statements for the provers. Each says in its docstring which rules of the spec it formalises.
-/

open Sys2Proof Sys2Proof.Machine

/-! ## The machine as a whole -/

/-- A step with a command at the front of the queue is that command's effect on the state with the queue's rest (the
model's form of a block). On an empty queue a step is the millisecond tick (log 2), which this statement does not
touch. -/
def Obligations.StepRunsFrontCommand : Prop :=
  ∀ (c : Instr) (rest : List Instr) (s : State), s.pending = c :: rest → step s = exec c { s with pending := rest }

/-- Every command runs: a command whose operands some wire can carry answers a next state in every state, and its effect
leaves the queue of waiting commands alone; one whose operands no wire can carry stops with the one fault of the model
(log 28). That a command whose event cannot happen in a state answers that state is the model's choice (log 3). -/
def Obligations.EveryCommandCompletes : Prop :=
  ∀ (c : Instr) (s : State),
    (c.wellFormed = true → ∃ t, exec c s = .next t ∧ t.pending = s.pending)
    ∧ (c.wellFormed = false → exec c s = .fault .illFormedCommand)

/-- Until loading ends the part takes nothing (R38, R58, R91, R129, R174, R191): in every phase but running, every
command other than part reset, its release and the end of loading leaves the whole state as it is. -/
def Obligations.NothingTakenBeforeLoadingEnds : Prop :=
  ∀ (c : Instr) (s t : State), s.phase ≠ .running → (∀ b, c ≠ .partReset b) → c ≠ .resetRelease →
    (∀ pins found, c ≠ .loadEnd pins found) → exec c s = .next t → t = s

/-- The laws of the part hold in the reset state. The reset state is the state held in part reset; where the spec
names no value for a field there, the value is the model's choice (log 1, log 13). -/
def Obligations.ResetMeetsEveryLaw : Prop :=
  LinkLaw State.reset ∧ MemoryLaw State.reset ∧ ConsoleLaw State.reset ∧ OwnerLaw State.reset
    ∧ RecoveryLaw State.reset ∧ AttemptLaw State.reset ∧ TimerLaw State.reset ∧ PoolLaw State.reset
    ∧ HistoryLaw State.reset ∧ CacheLaw State.reset ∧ WaitLaw State.reset

/-- R49, R53, R176 to R180, R184: both memories keep their canonical form, the queues of the link keep their bounds, a
reply waits for room only behind a full queue, no two frames share an inbound buffer, and a console never keeps more
than 32 marks nor more than 256 bytes to send. -/
def Obligations.MemoriesAndQueuesKeepTheirForm : Prop :=
  ∀ s t : State, step s = .next t →
    (MemoryLaw s → MemoryLaw t) ∧ (LinkLaw s → LinkLaw t) ∧ (ConsoleLaw s → ConsoleLaw t)

/-- R10, R18, R30, R159: an owned line has a role its owner may take and an action owns only lines of its own node; a
pending recovery exists only while an action runs on its node, or while the POWER ACTION that is taken before step 5 of
a completion comes next (log 40); a supervisor's attempts never exceed its limit. -/
def Obligations.OwnersRecoveriesAndAttemptsStayLawful : Prop :=
  ∀ s t : State, step s = .next t →
    (OwnerLaw s → OwnerLaw t) ∧ (RecoveryLaw s → RecoveryLaw t) ∧ (AttemptLaw s → AttemptLaw t)

/-- R93, R96, R126: a port's idle timer runs exactly in a counting condition; a node has at most one unit, an EXCLUSIVE
unit at most one node, only a FIRST_WRITER unit a writer, of its node set, and a unit out of service no node.
Every setting in force keeps a value its request would apply: no open-drain high output, no role held twice, every
number in its range, the reservations within 192. -/
def Obligations.PortTimersUnitsAndSettingsStayLawful : Prop :=
  (∀ s t : State, step s = .next t → (TimerLaw s → TimerLaw t) ∧ (UnitLaw s → UnitLaw t))
  ∧ (∀ s t : State, SettingsLaw s → step s = .next t → SettingsLaw t)

/-- R79: the law of the pool: every page is free or held by exactly one holder, each console holds two pages or more in
its list, each cache page has its one record, and the borrows stay within the common part. -/
def Obligations.PoolStaysLawful : Prop :=
  ∀ s t : State, PoolLaw s → step s = .next t → PoolLaw t

/-- R46, R60: the span a history holds lies within its pages with room for the next byte, and a forward cursor lies on
it. The pool's law is the premise: it gives capture its page. -/
def Obligations.HistoryFitsItsPages : Prop :=
  ∀ s t : State, PoolLaw s → HistoryLaw s → step s = .next t → HistoryLaw t

/-- R115, R130, R131, R135, R146, R147: at most one record for a block, the dirty limit, the fetch table, the store table
and the dirty orders in agreement with the directory, and every port that waits on a block waits on a FILLING page of
its unit. The pool's law is the premise. -/
def Obligations.CacheTablesAgree : Prop :=
  ∀ s t : State, PoolLaw s → CacheLaw s → step s = .next t → CacheLaw t ∧ (WaitLaw s → WaitLaw t)

/-! ## Requests in general -/

/-- R176, R177: a request that completes while no reply entry is free, or while a reply waits for room, waits in its
buffer and nothing else changes; one that finds the receiver hunting and all four buffers occupied is an overrun,
counted and reported (log 5). A POWER ACTION ahead of a due recovery is not meant here
(log 40).
R177, R199: in a ready state a request whose body has not the length of its record is answered BAD_REQUEST and
changes nothing. -/
def Obligations.RequestsWaitOverrunOrAreRefused : Prop :=
  (∀ (c : Instr) (kind : Byte) (tag : Tag) (body : List Byte) (s : State),
    requestOf c = some (kind, tag, body) → c.wellFormed = true → s.phase = .running → NoRecoveryBehind c s →
    (∀ b : Fin 4, frameBuffer s.link = some b → (replyRoom ≤ s.link.replies.length ∨ s.link.waiting ≠ []) →
      exec c s = .next { s with link := { s.link with
        receiver := none
        inbox := s.link.inbox ++ [{ buffer := b, kind := kind, tag := tag, body := body }] } })
    ∧ (frameBuffer s.link = none →
      exec c s = .next { s with
        link := ({ s.link with counters := s.link.counters.addOverrun } : Link).addNotice
          (.linkError s.link.counters.addOverrun) }))
  ∧ (∀ (c : Instr) (kind : Byte) (tag : Tag) (body : List Byte) (len : Nat) (s : State),
    requestOf c = some (kind, tag, body) → fixedLength kind = some len → body.length ≠ len → c.wellFormed = true →
    RequestReady s → exec c s = .next (answered s (replyTo tag kind .badRequest [])))

/-! ## Lines (01) -/

/-- R15: LINES READ reports role, driven state, owner, recognized level and both flags of the six lines, the power
state and T_s as they are, and changes nothing. The fields of the reply stand as log 11 reads R199. -/
def Obligations.LinesReadReportsAndChangesNothing : Prop :=
  ∀ (n : Node) (tag : Tag) (b : Byte) (s : State), RequestReady s → b.toNat = n.val →
    exec (.linesRead tag [b]) s = .next (answered s (replyTo tag 0x12#8 .done
      ((allLines.flatMap fun l =>
          be8 (roleCode (s.line n l).role) ++ be8 (drivenCode (s.line n l).driven) ++ be8 (ownerCode (s.line n l).owner)
            ++ be8 (levelCode (s.line n l).level)
            ++ [flagByte (s.line n l).flag, flagByte ((s.line n l).flag && (s.line n l).notify)])
        ++ be8 (powerCode (s.powerState n)) ++ be16 s.lines.samplePeriod)))

/-- R16: LINE EVENTS CLEAR clears the flag of every masked line, except a level-sensed one whose level is recognized;
the reply carries the six flags after it, no notice is queued, nothing else changes.
R14: LINES SET (the reply's fields stand as log 11 reads R199, values bits above L5 are ignored: log 32) moves exactly the masked output lines, ignores the masked others and reports them, and is refused
whole with LINES_HELD where one masked output line has an owner. -/
def Obligations.LinesSetAndEventsClearMaskedLines : Prop :=
  (∀ (n : Node) (m : Per6 Bool) (tag : Tag) (b mask : Byte) (s : State), RequestReady s → b.toNat = n.val →
    mask.toNat < 64 → (∀ l : LineId, m.get l = mask.getLsbD l.val) →
    ∃ lines : Per6 Line,
      (∀ l : LineId, lines.get l = { s.line n l with
      flag :=
        if m.get l then (s.line n l).flag && ((s.line n l).sense == .levelHigh && (s.line n l).level == .high
          || (s.line n l).sense == .levelLow && (s.line n l).level == .low) else (s.line n l).flag })
      ∧ exec (.lineEventsClear tag [b, mask]) s = .next (answered
        { s with lines := { s.lines with line := s.lines.line.set n lines } }
        (replyTo tag 0x13#8 .done (allLines.map fun l => flagByte (lines.get l).flag))))
  ∧ (∀ (n : Node) (m : Per6 Bool) (tag : Tag) (b mask values : Byte) (s : State), RequestReady s → b.toNat = n.val →
    mask.toNat < 64 → (∀ l : LineId, m.get l = mask.getLsbD l.val) →
    ((∃ l : LineId, m.get l = true ∧ (s.line n l).role.isOutput = true ∧ (s.line n l).owner ≠ .none) →
      exec (.linesSet tag [b, mask, values]) s = .next (answered s (replyTo tag 0x11#8 .linesHeld [])))
    ∧ ((∀ l : LineId, m.get l = true → (s.line n l).role.isOutput = true → (s.line n l).owner = .none) →
      ∃ lines : Per6 Line,
        (∀ l : LineId, lines.get l = { s.line n l with
        driven :=
          if m.get l && (s.line n l).role.isOutput then values.getLsbD l.val else (s.line n l).driven })
        ∧ exec (.linesSet tag [b, mask, values]) s = .next (answered
          { s with lines := { s.lines with line := s.lines.line.set n lines } }
          (replyTo tag 0x11#8 .done
            (lineMaskByte (Per6.build fun l => m.get l && !(s.line n l).role.isOutput)
              :: allLines.flatMap fun l => be8 (drivenCode (lines.get l).driven))))))

/-- R13: the checks of LINES CONFIG in their order, each a refusal that changes nothing, T_s included. `xs` are the
settings its body gives the masked lines. An accepted one that gives no line event and leaves the node's power state:
the masked lines take their settings together, a changed role makes a line INACTIVE, a changed sense gives the flag of
R8, levels and last samples stay, a period other than 0 sets T_s (255 at most), and nothing else changes. The fields
of the reply stand as log 11 reads R199. -/
def Obligations.LinesConfigChecksThenApplies : Prop :=
  ∀ (n : Node) (m : Per6 Bool) (tag : Tag) (b mask p0 p1 : Byte) (rest : List Byte)
    (xs : List (LineId × LineSettings)) (s : State), RequestReady s → b.toNat = n.val → mask.toNat < 64 →
    (∀ l : LineId, m.get l = mask.getLsbD l.val) → rest.length ≤ 30 →
    maskedSettings (allLines.filter fun l => m.get l) rest = some xs →
    ((∃ x ∈ xs, x.2.openDrainHigh = true) →
      exec (.linesConfig tag (b :: mask :: p0 :: p1 :: rest)) s
        = .next (answered s (replyTo tag 0x10#8 .badRequest [])))
    ∧ ((∀ x ∈ xs, x.2.openDrainHigh = false) →
      duplicateRole (allLines.map fun l => match xs.lookup l with | some x => x.role | none => (s.line n l).role) = true →
      exec (.linesConfig tag (b :: mask :: p0 :: p1 :: rest)) s
        = .next (answered s (replyTo tag 0x10#8 .duplicateRole [])))
    ∧ ((∀ x ∈ xs, x.2.openDrainHigh = false) →
      duplicateRole (allLines.map fun l => match xs.lookup l with | some x => x.role | none => (s.line n l).role) = false →
      (∃ x ∈ xs, (s.line n x.1).owner ≠ .none ∧ ((s.line n x.1).role ≠ x.2.role ∨ (s.line n x.1).drive ≠ x.2.drive
        ∨ (s.line n x.1).active ≠ x.2.active)) →
      exec (.linesConfig tag (b :: mask :: p0 :: p1 :: rest)) s
        = .next (answered s (replyTo tag 0x10#8 .linesHeld [])))
    ∧ (∀ lines : Per6 Line, linesConfigRefusal s n xs = none →
      (∀ l : LineId, lines.get l = match xs.lookup l with
        | none => s.line n l
        | some x => { role := x.role, drive := x.drive, active := x.active, sense := x.sense, notify := x.notify,
                      driven := (s.line n l).driven && (s.line n l).role == x.role, level := (s.line n l).level,
                      last := (s.line n l).last, owner := (s.line n l).owner,
                      flag := if (s.line n l).sense = x.sense then (s.line n l).flag
                        else x.sense.levelPresent (s.line n l).level }) →
      (∀ x ∈ xs, (s.line n x.1).sense = x.2.sense ∨ x.2.notify = false ∨ x.2.sense.levelPresent (s.line n x.1).level = false) →
      powerOf lines = s.powerState n →
      exec (.linesConfig tag (b :: mask :: p0 :: p1 :: rest)) s = .next (answered
        { s with
          lines := { s.lines with
            line := s.lines.line.set n lines
            samplePeriod := if u16 p0 p1 = 0 then s.lines.samplePeriod else min 255 (u16 p0 p1) } }
        (replyTo tag 0x10#8 .done
          (be16 (if u16 p0 p1 = 0 then s.lines.samplePeriod else min 255 (u16 p0 p1))
            ++ allLines.flatMap fun l => lineSettingsBytes (lines.get l).settings))))

/-- R5, R7, R8, R11: a sample instant: a level is recognized exactly when the sample agrees with the last one and both
differ from the recognized level; the sample becomes the last one; a flag is set by a selected edge and never cleared;
the settings stay; the power state is what the lines then give. Memories, pool, units and loader are untouched.
R9, R12: a sample instant that changes no power state and sets the notifying flags of one node only queues that
node's LINE EVENT with the set of those lines, and nothing else but the lines changes.
R12, R20, R26, R36, R56, R127, R168: a node's entry into OFF alone: its POWER STATE notice, its POWER_OFF mark, the
confirmed HARD OFF in HOLDING of a host done with its line released, a watch that no longer agrees answered CHANGED,
the transmit FIFO emptied and counted, the port's command ended ABORTED with attention set, a WATCHING or COMPLETE
supervisor IDLE with a BOOT PROGRESS. R12, R23, R160: an entry into ON alone: notice, POWER_ON mark, the confirmed
POWER ON in WAITING_ON of a host done, the watch likewise, and the supervisor armed. The blocks hear in R12's order
(log 8); the watch's timeout stands in its reply (log 23). -/
def Obligations.SampleInstantDebouncesAndReports : Prop :=
  (∀ (pins : BitVec 24) (s : State), s.phase = .running → ∃ t, exec (.sampleInstant pins) s = .next t
    ∧ (∀ (n : Node) (l : LineId),
        (t.line n l).last = pinLevel pins n l
        ∧ (t.line n l).level = (if pinLevel pins n l = (s.line n l).last ∧ pinLevel pins n l ≠ (s.line n l).level
            then pinLevel pins n l else (s.line n l).level)
        ∧ ((t.line n l).flag = true ↔ (s.line n l).flag = true
            ∨ (t.line n l).level ≠ (s.line n l).level ∧ (s.line n l).sense.selects (t.line n l).level = true)
        ∧ (t.line n l).settings = (s.line n l).settings)
    ∧ (∀ n : Node, t.powerState n = powerOf (t.lines.line.get n))
    ∧ t.lines.samplePeriod = s.lines.samplePeriod ∧ t.ram = s.ram ∧ t.pool = s.pool ∧ t.units = s.units
    ∧ t.loader = s.loader ∧ t.phase = s.phase)
  ∧ (∀ (pins : BitVec 24) (n : Node) (lines : Per4 (Per6 Line)) (set_ : Per6 Bool) (s : State), s.phase = .running →
    (∀ (m : Node) (l : LineId), (lines.get m).get l = (s.line m l).afterSample (pinLevel pins m l)) →
    (∀ m : Node, powerOf (lines.get m) = s.powerState m) →
    (∀ (m : Node) (l : LineId), m ≠ n → ((lines.get m).get l).notify = true → ((lines.get m).get l).flag = true →
      (s.line m l).flag = true) →
    (∀ l : LineId, set_.get l
      = (((lines.get n).get l).notify && ((lines.get n).get l).flag && !(s.line n l).flag)) →
    (∃ l : LineId, set_.get l = true) →
    exec (.sampleInstant pins) s = .next { s with
      lines := { s.lines with line := lines, sinceSample := 0 }
      link := s.link.addNotice (.lineEvent n set_) })
  ∧ (∀ (pins : BitVec 24) (n : Node) (p : PowerState) (lines : Per4 (Per6 Line)) (power : Per4 PowerState)
    (acted watched : Link) (c : Console) (q : Port) (v : Supervisor) (s : State), s.phase = .running →
    (∀ (m : Node) (l : LineId), (lines.get m).get l = (s.line m l).afterSample (pinLevel pins m l)) →
    (∀ (m : Node) (l : LineId), ((lines.get m).get l).notify = true → ((lines.get m).get l).flag = true →
      (s.line m l).flag = true) →
    (∀ m : Node, powerOf (lines.get m) = power.get m) → (∀ m : Node, m ≠ n → power.get m = s.powerState m) →
    power.get n = p → s.powerState n ≠ p → (∀ a : Action, s.action n = some a → ∃ (tag : Tag) (l : LineId),
      a.originator = .host tag ∧ a.confirmed = true ∧ a.lostConfirmation = false ∧ s.power.slot.get n = none
        ∧ (p = .off ∧ a.kind = .hardOff ∧ a.state = .holding ∧ a.held = some l
          ∨ p = .on ∧ a.kind = .powerOn ∧ a.state = .waitingOn ∧ a.held = none)) →
    acted = (match s.action n with
      | some a => (s.link.addNotice (.powerState n p)).addReply (replyTo
          (match a.originator with | .host tag => tag | .supervisor => 0#16) 0x20#8 .done
          (be8 n.val ++ be8 (if a.escalated then 1 else actionKindCode a.kind) ++ [flagByte a.escalated]
            ++ be8 (powerCode p)))
      | none => s.link.addNotice (.powerState n p)) →
    watched = (match s.power.watch with
      | some w => if ∀ m : Node, (w.expected.get m).accepts (power.get m) = true then acted
          else acted.addReply (replyTo w.tag 0x22#8 .changed
            ((power.toList.map fun x => BitVec.ofNat 8 (powerCode x)) ++ be16 w.timeout))
      | none => acted) →
    c = s.consoles.get n → q = port s n → v = s.supervisor n →
    (p = .off → (∀ running : Bool, v.state ≠ .recovering running) →
      exec (.sampleInstant pins) s = .next { s with
        lines := { s.lines with
          line := (match (s.action n).bind fun a => a.held with
            | some l => lines.modify n fun ls => ls.modify l fun x => { x with owner := .none, driven := false }
            | none => lines)
          power := power
          sinceSample := 0 }
        power := { s.power with
          action := s.power.action.set n none
          watch := (match s.power.watch with
            | some w => if ∀ m : Node, (w.expected.get m).accepts (power.get m) = true then some w else none
            | none => none) }
        consoles := s.consoles.set n
          { c.addMark .powerOff with dropped := c.dropped + BitVec.ofNat 32 c.fifo.length, fifo := [] }
        ports := s.ports.set n (match q.active with
          | some a => { endedPort q a .aborted with attention := true, sequential := none }
          | none => { q with attention := true, sequential := none, idleTimer := none })
        cache := { s.cache with
          entryWait := if q.active = none then s.cache.entryWait else s.cache.entryWait.filter fun m => m != n }
        boot := { s.boot with
          supervisor := if v.state = .idle ∨ v.state = .halted then s.boot.supervisor
            else s.boot.supervisor.set n { v with state := .idle, deadline := none } }
        link := if v.state = .idle ∨ v.state = .halted then watched
          else watched.addNotice (.bootProgress n .idle v.attempts v.fallback) })
    ∧ (p = .on → v.state ≠ .recovering false →
      exec (.sampleInstant pins) s = .next { s with
        lines := { s.lines with line := lines, power := power, sinceSample := 0 }
        power := { s.power with
          action := s.power.action.set n none
          watch := (match s.power.watch with
            | some w => if ∀ m : Node, (w.expected.get m).accepts (power.get m) = true then some w else none
            | none => none) }
        consoles := s.consoles.set n (c.addMark .powerOn)
        boot := { s.boot with
          supervisor := s.boot.supervisor.set n { v with
            state := .watching 0
            deadline := if (s.boot.policy.get n).deadlines.l0 = 0 then none
              else some ((s.boot.policy.get n).deadlines.l0 * 1000) }
          partials := s.boot.partials.set n (Vector.replicate 16 0) }
        link := watched.addNotice (.bootProgress n (.watching 0) v.attempts v.fallback) }))

/-! ## Power actions (02) -/

/-- R19: POWER TIMINGS sets each timing to its value clamped into its range, 0 keeping it; a running action keeps its
own copy; the reply carries the timings, the action and the pending slot; nothing else changes. The fields of the
reply stand as log 11 reads R199, the pending recovery's code is log 32's. -/
def Obligations.PowerTimingsClampedAndKept : Prop :=
  ∀ (n : Node) (tag : Tag) (b a0 a1 b0 b1 c0 c1 d0 d1 e0 e1 f0 f1 g0 g1 : Byte) (x : Timings) (s : State),
    RequestReady s → b.toNat = n.val →
    x = { press := if u16 a0 a1 = 0 then (s.power.timings.get n).press else max 20 (min 5000 (u16 a0 a1))
          on := if u16 b0 b1 = 0 then (s.power.timings.get n).on else max 1 (min 120 (u16 b0 b1))
          soft := if u16 c0 c1 = 0 then (s.power.timings.get n).soft else max 1 (min 600 (u16 c0 c1))
          hold := if u16 d0 d1 = 0 then (s.power.timings.get n).hold else max 1 (min 30 (u16 d0 d1))
          rest := if u16 e0 e1 = 0 then (s.power.timings.get n).rest else max 1 (min 60 (u16 e0 e1))
          reset := if u16 f0 f1 = 0 then (s.power.timings.get n).reset else max 10 (min 5000 (u16 f0 f1))
          diag := if u16 g0 g1 = 0 then (s.power.timings.get n).diag else max 10 (min 5000 (u16 g0 g1)) } →
    exec (.powerTimings tag [b, a0, a1, b0, b1, c0, c1, d0, d1, e0, e1, f0, f1, g0, g1]) s = .next (answered
      { s with power := { s.power with timings := s.power.timings.set n x } }
      (replyTo tag 0x21#8 .done (timingsBytes x ++ optional 4 ((s.action n).map actionReport)
        ++ optional 1 ((s.power.slot.get n).map fun k => be8 (recoveryCode k)))))

/-- R21, R31: a POWER ACTION without the line its kind needs, a RESET or DIAG of a node that is OFF, a kind that stands
already, and a kind that neither starts nor preempts are answered at once, in that order, and change nothing (behind one taken ahead of a due recovery, that recovery starts: log 40 and
TimersCompleteHostActionsAndArm). -/
def Obligations.PowerActionChecksInOrder : Prop :=
  ∀ (n : Node) (k : ActionKind) (tag : Tag) (b kb options : Byte) (ahead : Bool) (s : State), RequestReady s →
    b.toNat = n.val → kb.toNat = actionKindCode k →
    (ahead = true → s.action n = none → s.power.slot.get n = none) →
    ((∀ l : LineId, (s.line n l).role ≠ firstRole k) →
      exec (.powerAction tag ⟨[b, kb, options], ahead⟩) s
        = .next (answered s (replyTo tag 0x20#8 .noLine (powerActionDetails s n k false))))
    ∧ ((∃ l : LineId, (s.line n l).role = firstRole k) → (k = .reset ∨ k = .diag) → s.powerState n = .off →
      exec (.powerAction tag ⟨[b, kb, options], ahead⟩) s
        = .next (answered s (replyTo tag 0x20#8 .nodeOff (powerActionDetails s n k false))))
    ∧ ((∃ l : LineId, (s.line n l).role = firstRole k) →
      (k = .powerOn ∧ s.powerState n = .on ∨ (k = .softOff ∨ k = .hardOff) ∧ s.powerState n = .off) →
      exec (.powerAction tag ⟨[b, kb, options], ahead⟩) s
        = .next (answered s (replyTo tag 0x20#8 .already (powerActionDetails s n k false))))
    ∧ (∀ a : Action, (∃ l : LineId, (s.line n l).role = firstRole k) →
      ((k = .reset ∨ k = .diag) → s.powerState n ≠ .off) → (k = .powerOn → s.powerState n ≠ .on) →
      ((k = .softOff ∨ k = .hardOff) → s.powerState n ≠ .off) → s.action n = some a →
      (a.kind = .hardOff ∨ a.kind = .cycle ∨ (k ≠ .hardOff ∧ k ≠ .cycle)) →
      exec (.powerAction tag ⟨[b, kb, options], ahead⟩) s
        = .next (answered s (replyTo tag 0x20#8 .busy (powerActionDetails s n k false))))

/-- R18, R19, R21 to R24, R26 to R29: on an IDLE node with the needed line unowned and no pending recovery, each kind
starts: its record is filled, its line is owned by the action and ACTIVE (a confirmed CYCLE of a node that is OFF rests
instead), no reply is queued, a RESET puts its mark at the live offset, and nothing else changes, except that SOFT OFF
and HARD OFF release the node's BOOT_SELECT (R169). R30, R33: one taken before step 5 finds the node IDLE with its
recovery in the slot: a DIAG starts and leaves the recovery there, a RESET starts and cancels it (log 40). -/
def Obligations.PowerActionStartsItsFirstPhase : Prop :=
  (∀ (n : Node) (k : ActionKind) (l : LineId) (st : ActionState) (tag : Tag) (b kb options : Byte) (ahead : Bool)
    (a : Action) (started marked : State) (s : State), RequestReady s → b.toNat = n.val → kb.toNat = actionKindCode k →
    lineOf s n (firstRole k) = some l → (s.line n l).owner = .none → s.action n = none → s.power.slot.get n = none →
    ((k = .reset ∨ k = .diag) → s.powerState n ≠ .off) → (k = .powerOn → s.powerState n ≠ .on) →
    ((k = .softOff ∨ k = .hardOff) → s.powerState n ≠ .off) →
    st = (match k with
      | .powerOn | .softOff => .pressing
      | .hardOff => .holding
      | .cycle => if s.powerState n = .off then .resting else .holding
      | .reset => .resetPulse
      | .diag => .diagPulse) →
    a = { kind := k, originator := .host tag, state := st, confirmed := s.powerState n != .unknown,
          lostConfirmation := false, escalate := options.getLsbD 0 && k == .softOff, escalated := false,
          timer := phaseTimer (s.power.timings.get n) st, timings := s.power.timings.get n,
          held := if st = .resting then none else some l } →
    started = { s with
      power := { s.power with action := s.power.action.set n (some a) }
      lines := if st = .resting then s.lines else
        { s.lines with
          line := s.lines.line.modify n fun ls =>
            ls.modify l fun x => { x with owner := .action n, driven := true } }
      link := { s.link with receiver := none } } →
    marked = (if k = .reset then
      { started with consoles := s.consoles.modify n (Console.addMark .resetPulse) } else started) →
    exec (.powerAction tag ⟨[b, kb, options], ahead⟩) s
      = .next (if k = .softOff ∨ k = .hardOff then releaseBootSelect n marked else marked))
  ∧ (∀ (n : Node) (k : ActionKind) (st : ActionState) (l : LineId) (rk : RecoveryKind) (tag : Tag) (b kb options : Byte)
    (v : Supervisor) (started s : State), RequestReady s → b.toNat = n.val → kb.toNat = actionKindCode k →
    lineOf s n (firstRole k) = some l → (s.line n l).owner = .none → s.action n = none →
    s.power.slot.get n = some rk → s.powerState n ≠ .off → v = s.supervisor n → v.state = .recovering false →
    started = { s with
      lines := { s.lines with
        line := s.lines.line.modify n fun ls => ls.modify l fun x => { x with owner := .action n, driven := true } }
      power := { s.power with
        action := s.power.action.set n (some
          { kind := k, originator := .host tag, state := st, confirmed := s.powerState n != .unknown,
            lostConfirmation := false, escalate := false, escalated := false,
            timer := phaseTimer (s.power.timings.get n) st, timings := s.power.timings.get n, held := some l }) }
      link := { s.link with receiver := none } } →
    (k = .diag → st = .diagPulse → exec (.powerAction tag ⟨[b, kb, options], true⟩) s = .next started)
    ∧ (k = .reset → st = .resetPulse → exec (.powerAction tag ⟨[b, kb, options], true⟩) s = .next { started with
        consoles := s.consoles.modify n (Console.addMark .resetPulse)
        power := { started.power with slot := s.power.slot.set n none }
        boot := { s.boot with supervisor := s.boot.supervisor.set n { v with state := .idle, deadline := none } }
        link := started.link.addNotice (.recovery n (.cancelled .reset) (some rk) v.attempts v.lastFailure v.fallback) }))

/-- R31, R32: a host HARD OFF or CYCLE preempts a running host POWER ON, SOFT OFF, RESET or DIAG: the running action's
line is released, its originator gets PREEMPTED, and the new action runs in its place. -/
def Obligations.HardKindsPreemptHostActions : Prop :=
  ∀ (n : Node) (k : ActionKind) (l : LineId) (tag old : Tag) (b kb options : Byte) (ahead : Bool) (a : Action)
    (s : State), RequestReady s → b.toNat = n.val → kb.toNat = actionKindCode k →
    (k = .hardOff ∨ k = .cycle) → lineOf s n .powerButton = some l → s.powerState n = .on →
    s.action n = some a → (a.kind = .powerOn ∨ a.kind = .softOff ∨ a.kind = .reset ∨ a.kind = .diag) →
    a.originator = .host old → s.power.slot.get n = none → ((s.line n l).owner = .none ∨ a.held = some l) →
    ∃ t, exec (.powerAction tag ⟨[b, kb, options], ahead⟩) s = .next t
      ∧ t.link = { s.link with
          receiver := none
          replies := s.link.replies ++ [replyTo old 0x20#8 .preempted (powerActionDetails s n a.requested a.escalated)] }
      ∧ t.action n = some
          { kind := k, originator := .host tag, state := .holding, confirmed := true, lostConfirmation := false,
            escalate := false, escalated := false, timer := (s.power.timings.get n).hold * 1000,
            timings := s.power.timings.get n, held := some l }
      ∧ (t.line n l).owner = .action n ∧ (t.line n l).driven = true
      ∧ (∀ m, a.held = some m → m ≠ l → (t.line n m).owner = .none ∧ (t.line n m).driven = false)
      ∧ (∀ m, m ≠ n → t.action m = s.action m ∧ t.lines.line.get m = s.lines.line.get m)
      ∧ t.consoles = s.consoles ∧ t.ram = s.ram ∧ t.pool = s.pool ∧ t.units = s.units ∧ t.ports = s.ports
      ∧ t.cache = s.cache ∧ t.loader = s.loader ∧ t.power.timings = s.power.timings ∧ t.power.watch = s.power.watch

/-- R22 to R25, R27: where a timer leads to another phase, the held line is released, the next phase's timer starts
and, where it presses POWER_BUTTON, that line is taken and ACTIVE; no reply is queued and nothing else changes: SOFT
OFF and POWER ON or CYCLE to their waits, an escalating SOFT OFF to HOLDING as a HARD OFF, an unconfirmed CYCLE to
RESTING, a CYCLE from RESTING to PRESSING. A timer's end is taken whatever time remains (log 4). -/
def Obligations.TimersLeadToNextPhase : Prop :=
  ∀ (n : Node) (a : Action) (l : LineId) (s : State), s.phase = .running → s.action n = some a →
    (a.state = .pressing → a.confirmed = true → a.kind = .softOff → a.held = some l → s.powerState n ≠ .off →
      exec (.tPressEnd n) s = .next { releaseLine n l s with
    power := { s.power with
      action := s.power.action.set n
        (some { a with state := .waitingOff, timer := a.timings.soft * 1000, held := none }) } })
    ∧ (a.state = .pressing → a.confirmed = true → a.kind ≠ .softOff → a.held = some l → s.powerState n ≠ .on →
      exec (.tPressEnd n) s = .next { releaseLine n l s with
    power := { s.power with
      action := s.power.action.set n
        (some { a with state := .waitingOn, timer := a.timings.on * 1000, held := none }) } })
    ∧ (a.state = .waitingOff → a.escalate = true → lineOf s n .powerButton = some l → (s.line n l).owner = .none →
      s.powerState n ≠ .off →
      exec (.tSoftEnd n) s = .next { s.modLine n l (fun x => { x with owner := .action n, driven := true }) with
        power := { s.power with
        action := s.power.action.set n (some { a with
          kind := .hardOff, escalated := true, state := .holding, timer := a.timings.hold * 1000, held := some l }) } })
    ∧ (a.state = .holding → a.confirmed = false → a.kind = .cycle → a.held = some l →
      exec (.tHoldEnd n) s = .next { releaseLine n l s with
    power := { s.power with
      action := s.power.action.set n
        (some { a with state := .resting, timer := a.timings.rest * 1000, held := none }) } })
    ∧ (a.state = .resting → (a.confirmed = false ∨ s.powerState n ≠ .on) → lineOf s n .powerButton = some l →
      (s.line n l).owner = .none →
      exec (.tRestEnd n) s = .next { s.modLine n l (fun x => { x with owner := .action n, driven := true }) with
        power := { s.power with
        action := s.power.action.set n
          (some { a with state := .pressing, timer := a.timings.press, held := some l }) } })

/-- R20, R23 to R27, R29, R30: where a timer ends a HOST action that arms nothing and no recovery waits, the held line
is released, the record is IDLE, the deferred reply is queued with the kind asked for, the result, whether it
escalated and the power state, and nothing else changes. R28, R30, R160: the end of t_reset completes the RESET with
DONE, the end of PRESSING an unconfirmed POWER ON or CYCLE with DONE_UNCONFIRMED; these arm the supervisor of a node
that is not OFF: it enters WATCHING(0) with the deadline d0, its matchers are cleared, and a BOOT PROGRESS notice
follows the deferred reply. R30, R33, R34: a recovery that waits starts in the same step, with its mark, its line and
its notice, unless a POWER ACTION for the node comes next and is taken before it; behind one that starts nothing, it
then starts (log 40). A timer's end is taken whatever time remains (log 4); a DIAG that lost its confirmation ends
DONE_UNCONFIRMED (log 10). -/
def Obligations.TimersCompleteHostActionsAndArm : Prop :=
  (∀ (n : Node) (a : Action) (tag : Tag) (r : Result) (c : Instr) (freed : State) (s : State), s.phase = .running →
    s.action n = some a → a.originator = .host tag → s.power.slot.get n = none →
    ((c = .tOnEnd n ∧ a.state = .waitingOn ∧ r = .timeout)
      ∨ (c = .tSoftEnd n ∧ a.state = .waitingOff ∧ a.escalate = false ∧ r = .timeout)
      ∨ (c = .tHoldEnd n ∧ a.state = .holding ∧ a.confirmed = true ∧ r = .timeout)
      ∨ (c = .tHoldEnd n ∧ a.state = .holding ∧ a.confirmed = false ∧ a.kind = .hardOff ∧ r = .doneUnconfirmed)
      ∨ (c = .tPressEnd n ∧ a.state = .pressing ∧ a.confirmed = true ∧ a.kind = .softOff ∧ s.powerState n = .off
          ∧ a.lostConfirmation = false ∧ r = .done)
      ∨ (c = .tPressEnd n ∧ a.state = .pressing ∧ a.confirmed = true ∧ (a.kind = .powerOn ∨ a.kind = .cycle)
          ∧ s.powerState n = .on ∧ a.lostConfirmation = false ∧ r = .done)
      ∨ (c = .tPressEnd n ∧ a.state = .pressing ∧ a.confirmed = false ∧ a.kind = .softOff ∧ r = .doneUnconfirmed)
      ∨ (c = .tRestEnd n ∧ a.state = .resting ∧ a.kind = .cycle ∧ a.confirmed = true ∧ s.powerState n = .on
          ∧ a.lostConfirmation = false ∧ r = .done)
      ∨ (c = .tDiagEnd n ∧ a.state = .diagPulse ∧ a.kind = .diag
          ∧ r = if a.lostConfirmation then .doneUnconfirmed else .done)) →
    freed = (match a.held with | some l => releaseLine n l s | none => s) →
    exec c s = .next { freed with
      power := { s.power with action := s.power.action.set n none }
      link := s.link.addReply (replyTo tag 0x20#8 r (powerActionDetails s n
        (if a.escalated then .softOff else a.kind) a.escalated)) })
  ∧ (∀ (n : Node) (a : Action) (tag : Tag) (r : Result) (c : Instr) (v w : Supervisor) (s : State), s.phase = .running →
    s.action n = some a → a.originator = .host tag →
    ((c = .tResetEnd n ∧ a.kind = .reset ∧ a.state = .resetPulse ∧ a.lostConfirmation = false ∧ r = .done)
      ∨ (c = .tPressEnd n ∧ (a.kind = .powerOn ∨ a.kind = .cycle) ∧ a.state = .pressing ∧ a.confirmed = false
          ∧ r = .doneUnconfirmed)) →
    a.escalated = false → s.power.slot.get n = none → s.powerState n ≠ .off → s.supervisor n = v →
    v.state ≠ .recovering false →
    w = { v with
      state := .watching 0
      deadline := if (s.boot.policy.get n).deadlines.l0 = 0 then none
        else some ((s.boot.policy.get n).deadlines.l0 * 1000) } →
    exec c s = .next { (match a.held with | some l => releaseLine n l s | none => s) with
      power := { s.power with action := s.power.action.set n none }
      boot := { s.boot with
        supervisor := s.boot.supervisor.set n w
        partials := s.boot.partials.set n (Vector.replicate 16 0) }
      link := (s.link.addReply (replyTo tag 0x20#8 r (powerActionDetails s n a.kind false))).addNotice
        (.bootProgress n (.watching 0) v.attempts v.fallback) })
  ∧ (∀ (n : Node) (l : LineId) (tag : Tag) (v : Supervisor) (recovered : State → State) (s : State), s.phase = .running →
    lineOf s n .powerButton = some l → (s.line n l).owner = .none → s.power.slot.get n = some .cycle →
    s.powerState n = .on → v = s.supervisor n → v.state = .recovering false →
    (∀ x : State, recovered x = { x with
      lines := { x.lines with
        line := x.lines.line.modify n fun ls => ls.modify l fun y => { y with owner := .action n, driven := true } }
      power := { x.power with
        slot := s.power.slot.set n none
        action := s.power.action.set n (some
          { kind := .cycle, originator := .supervisor, state := .holding, confirmed := true, lostConfirmation := false,
            escalate := false, escalated := false, timer := (s.power.timings.get n).hold * 1000,
            timings := s.power.timings.get n, held := some l }) }
      consoles := s.consoles.modify n (Console.addMark (.recovery .cycle))
      boot := { s.boot with supervisor := s.boot.supervisor.set n { v with state := .recovering true } }
      link := x.link.addNotice (.recovery n .started (some .cycle) v.attempts v.lastFailure v.fallback) }) →
    (∀ (a : Action) (h : LineId) (ended : State), s.action n = some a → a.kind = .diag → a.state = .diagPulse →
      a.originator = .host tag → a.lostConfirmation = false → a.escalated = false → a.held = some h → h ≠ l →
      ended = { releaseLine n h s with
        power := { s.power with action := s.power.action.set n none }
        link := s.link.addReply (replyTo tag 0x20#8 .done (powerActionDetails s n .diag false)) } →
      ((∀ (next : Tag) (body : List Byte), s.pending.head? = some (.powerAction next ⟨body, true⟩) →
          actionNode? body ≠ some n) → exec (.tDiagEnd n) s = .next (recovered ended))
      ∧ (∀ (next : Tag) (body : List Byte), s.pending.head? = some (.powerAction next ⟨body, true⟩) →
          actionNode? body = some n → exec (.tDiagEnd n) s = .next ended))
    ∧ (∀ b options : Byte, RequestReady s → s.action n = none → b.toNat = n.val →
      exec (.powerAction tag ⟨[b, 0#8, options], true⟩) s
        = .next (recovered (answered s (replyTo tag 0x20#8 .already (powerActionDetails s n .powerOn false))))))

/-- R35 to R37: an accepted POWER WATCH: a running watch gets SUPERSEDED first; then, where every expected state is
ANY or the actual one, the watch is recorded and runs for its clamped timeout, and otherwise it is answered CHANGED.
When a watch's timeout ends, it is answered TIMEOUT with the actual states and there is no watch. The timeout stands
in every reply (log 23). -/
def Obligations.PowerWatchRunsAnswersOrTimesOut : Prop :=
  (∀ (e : Per4 Expected) (tag : Tag) (e0 e1 e2 e3 t0 t1 : Byte) (timeout : Nat) (link : Link) (s : State),
    RequestReady s → expected? e0 = some e.n0 → expected? e1 = some e.n1 → expected? e2 = some e.n2 →
    expected? e3 = some e.n3 → timeout = max 1 (min 3600 (u16 t0 t1)) →
    link = (match s.power.watch with
      | some w => ({ s.link with receiver := none } : Link).addReply (replyTo w.tag 0x22#8 .superseded
          ((s.lines.power.toList.map fun p => BitVec.ofNat 8 (powerCode p)) ++ be16 w.timeout))
      | none => { s.link with receiver := none }) →
    ((∀ n : Node, e.get n = .any ∨ (e.get n = .on ∧ s.powerState n = .on) ∨ (e.get n = .off ∧ s.powerState n = .off)
        ∨ (e.get n = .unknown ∧ s.powerState n = .unknown)) →
      exec (.powerWatch tag [e0, e1, e2, e3, t0, t1]) s = .next { s with
        power := { s.power with
        watch :=
          some { tag := tag, expected := e, timeout := timeout, remaining := timeout * 1000 } }
        link := link })
    ∧ (¬ (∀ n : Node, e.get n = .any ∨ (e.get n = .on ∧ s.powerState n = .on)
        ∨ (e.get n = .off ∧ s.powerState n = .off) ∨ (e.get n = .unknown ∧ s.powerState n = .unknown)) →
      exec (.powerWatch tag [e0, e1, e2, e3, t0, t1]) s = .next { s with
        power := { s.power with watch := none }
        link := link.addReply (replyTo tag 0x22#8 .changed
          ((s.lines.power.toList.map fun p => BitVec.ofNat 8 (powerCode p)) ++ be16 timeout)) }))
  ∧ (∀ (w : Watch) (s : State), s.phase = .running → s.power.watch = some w →
    exec .powerWatchTimeout s = .next { s with
      power := { s.power with watch := none }
      link := s.link.addReply (replyTo w.tag 0x22#8 .timeout
        ((s.lines.power.toList.map fun p => BitVec.ofNat 8 (powerCode p)) ++ be16 w.timeout)) })

/-! ## Consoles (03, 04) -/

/-- R40, R62: the divisor is 48 MHz over 16 times the baud rounded half up, within 1 to 10,000, the actual baud and
the bits per character follow, and the budget and thresholds of flood are the floors R62 gives. R41, R42, R61, R74: an
accepted CONSOLE CONFIG applies every setting, 0 keeping the baud, the window or the rise; the receiver discards the
character it is in and waits for a high line, unless a recognized break still lasts, the flood window restarts, a RECONFIG mark is put at the live offset
and the partial matches go; nothing else changes. The fields of the reply stand as log 11 reads R199. -/
def Obligations.ConsoleConfigAppliesDerivedRates : Prop :=
  (∀ c : ConsoleSettings, ConsoleLegal c →
    (1 ≤ c.divisor ∧ c.divisor ≤ 10000
      ∧ (16 * c.baud * (2 * c.divisor) ≤ 2 * 48000000 + 16 * c.baud ∨ c.divisor = 1)
      ∧ (2 * 48000000 + 16 * c.baud < 16 * c.baud * (2 * c.divisor) + 2 * (16 * c.baud) ∨ c.divisor = 10000))
    ∧ c.actualBaud * (16 * c.divisor) ≤ 48000000 ∧ 48000000 < (c.actualBaud + 1) * (16 * c.divisor)
    ∧ c.charBits = 1 + c.dataBits + (if c.parity = .none then 0 else 1) + c.stopBits
    ∧ 9 ≤ c.charBits ∧ c.charBits ≤ 12
    ∧ c.budget * (1000 * c.charBits) ≤ c.actualBaud * c.window
    ∧ c.actualBaud * c.window < (c.budget + 1) * (1000 * c.charBits)
    ∧ c.riseThreshold = max 1 (c.budget * c.rise / 100) ∧ c.fallThreshold = c.budget * c.fall / 100
    ∧ c.fallThreshold ≤ c.riseThreshold)
  ∧ (∀ (n : Node) (tag : Tag) (b b0 b1 b2 b3 db pb sb cb w0 w1 rise fall : Byte) (x : ConsoleSettings) (s : State),
    RequestReady s → b.toNat = n.val → (db = 7#8 ∨ db = 8#8) → x.dataBits = db.toNat → parity? pb = some x.parity →
    (sb = 1#8 ∨ sb = 2#8) → x.stopBits = sb.toNat → flag? cb = some x.ctsUse →
    x.baud = (if u32 b0 b1 b2 b3 = 0 then (s.consoles.get n).settings.baud
      else max 300 (min 3000000 (u32 b0 b1 b2 b3))) →
    x.window = (if u16 w0 w1 = 0 then (s.consoles.get n).settings.window else max 10 (min 1000 (u16 w0 w1))) →
    x.rise = (if rise = 0#8 then (s.consoles.get n).settings.rise else min 100 rise.toNat) →
    x.fall = (if x.rise ≤ fall.toNat then x.rise - 1 else fall.toNat) →
    exec (.consoleConfig tag [b, b0, b1, b2, b3, db, pb, sb, cb, w0, w1, rise, fall]) s = .next (answered
      { s with
        consoles := s.consoles.modify n fun c => Console.addMark .reconfig { c with
          settings := x
          receiver := if c.receiver = .inBreak then .inBreak
            else if c.receiver = .idle ∨ c.receiver = .waitHigh then .waitHigh else .discarding
          count := 0
          windowRemaining := x.window }
        boot := { s.boot with partials := s.boot.partials.set n (Vector.replicate 16 0) } }
      (replyTo tag 0x30#8 .done
        (be32 x.baud ++ be16 x.divisor ++ be32 x.actualBaud ++ be8 x.charBits
          ++ [BitVec.ofNat 8 x.dataBits, BitVec.ofNat 8 (parityCode x.parity), BitVec.ofNat 8 x.stopBits,
              flagByte x.ctsUse]
          ++ be16 x.window ++ be8 x.rise ++ be8 x.fall ++ be32 x.budget ++ be32 x.riseThreshold
          ++ be32 x.fallThreshold))))

/-- R54: CONSOLE SEND appends the bytes that fit, from the first on, and answers how many it took and the room left; no
byte, more than 256, or a node above 3, is refused with BAD_REQUEST. That the reply's two numbers take two bytes each is
log 11's reading of R199. -/
def Obligations.ConsoleSendTakesWhatFits : Prop :=
  (∀ (n : Node) (tag : Tag) (b : Byte) (bytes : List Byte) (s : State), RequestReady s → ConsoleLaw s →
    b.toNat = n.val → 1 ≤ bytes.length → bytes.length ≤ 256 →
    exec (.consoleSend tag (b :: bytes)) s = .next (answered
      { s with
        consoles := s.consoles.modify n fun c =>
          { c with fifo := c.fifo ++ bytes.take (256 - c.fifo.length) } }
      (replyTo tag 0x31#8 .done
        (be16 (min bytes.length (256 - (s.consoles.get n).fifo.length))
          ++ be16 (256 - min 256 ((s.consoles.get n).fifo.length + bytes.length))))))
  ∧ (∀ (tag : Tag) (b : Byte) (bytes : List Byte) (s : State), RequestReady s →
    (4 ≤ b.toNat ∨ bytes = [] ∨ 256 < bytes.length) → bytes.length < 600 →
    exec (.consoleSend tag (b :: bytes)) s = .next (answered s (replyTo tag 0x31#8 .badRequest [])))

/-- R53: a character starts, its byte leaving the FIFO, exactly when the FIFO holds a byte, no character and no break is
in progress, and CTS use is off or CTS asserted; its bits are a start bit, the 7 or 8 data bits from the least
significant (log 52), the parity over those sent, and the stop bits. A character's end frees the transmitter. Nothing
else changes, but that the level of CTS last looked at is kept, which is log 19's choice.
R55: a break runs through its four steps: accepted, it waits for a character in progress or holds TX low at once
(BUSY while another runs); the character's end begins it; its end puts the BREAK_SENT mark and queues the deferred reply
with the duration and the mark's offset; the recovery time frees the transmitter. -/
def Obligations.TransmitterSendsCharactersAndBreaks : Prop :=
  (∀ (n : Node) (cts : Level) (s : State), s.phase = .running →
    (∀ (x : Byte) (rest : List Byte) (k : ConsoleSettings) (data : List Bool), (s.consoles.get n).fifo = x :: rest →
      (s.consoles.get n).sending = none → (s.consoles.get n).break_ = none → k = (s.consoles.get n).settings →
      (k.ctsUse = false ∨ cts = .low) → data.length = k.dataBits →
      (∀ (i : Nat) (h : i < data.length), data[i] = x.getLsbD i) →
      exec (.transmitCharacterStart n cts) s = .next { s with
      consoles := s.consoles.modify n fun c =>
        { c with
          cts := cts
          fifo := rest
          sending := some (false :: (data
            ++ (match k.parity with
                | .none => []
                | .even => [decide (data.count true % 2 = 1)]
                | .odd => [decide (data.count true % 2 = 0)])
            ++ List.replicate k.stopBits true)) } })
    ∧ ((s.consoles.get n).fifo = [] ∨ (s.consoles.get n).sending ≠ none ∨ (s.consoles.get n).break_ ≠ none
        ∨ ((s.consoles.get n).settings.ctsUse = true ∧ cts = .high) →
      exec (.transmitCharacterStart n cts) s = .next { s with
      consoles := s.consoles.modify n fun c =>
        { c with cts := cts } })
    ∧ ((s.consoles.get n).break_ = none →
      exec (.transmitCharacterEnd n) s = .next { s with
      consoles := s.consoles.modify n fun c =>
        { c with sending := none } }))
  ∧ (∀ (n : Node) (tag : Tag) (b d0 d1 : Byte) (k : Break) (s : State), s.phase = .running → b.toNat = n.val →
    (RequestReady s → (s.consoles.get n).break_ = none →
      exec (.consoleBreak tag [b, d0, d1]) s = .next { s with
        consoles := s.consoles.modify n fun c => { c with
        break_ := some
          { phase := if c.sending.isSome then .waiting else .low, duration := max 1 (min 2000 (u16 d0 d1)),
            remaining := max 1 (min 2000 (u16 d0 d1)), tag := tag } }
        link := { s.link with receiver := none } })
    ∧ (RequestReady s → (s.consoles.get n).break_ = some k →
      exec (.consoleBreak tag [b, d0, d1]) s = .next (answered s (replyTo tag 0x32#8 .busy [])))
    ∧ ((s.consoles.get n).break_ = some k → k.phase = .waiting → (s.consoles.get n).sending ≠ none →
      exec (.transmitCharacterEnd n) s = .next { s with
      consoles := s.consoles.modify n fun c =>
        { c with sending := none, break_ := some { k with phase := .low, remaining := k.duration } } })
    ∧ ((s.consoles.get n).break_ = some k → k.phase = .low →
      exec (.breakSent n) s = .next { s with
        consoles := s.consoles.modify n fun c => Console.addMark (.breakSent k.duration)
          { c with break_ := some { k with phase := .recovery, remaining := 0 } }
        link := s.link.addReply (replyTo k.tag 0x32#8 .done (be16 k.duration ++ word32 (s.consoles.get n).live)) })
    ∧ ((s.consoles.get n).break_ = some k → k.phase = .recovery →
      exec (.breakRecoveryEnd n) s = .next { s with consoles := s.consoles.modify n fun c => { c with break_ := none } }))

/-- R51: an offset is placed by its distance from the oldest offset alone: held, at the live offset, beyond live or
before oldest; the span of a history that keeps the pool's and the history's law is at most 131,072. -/
def Obligations.OffsetsPlacedByDistance : Prop :=
  (∀ oldest live x : Word,
    (place oldest live x = .held ↔ (x - oldest).toNat < (live - oldest).toNat)
    ∧ (place oldest live x = .atLive ↔ (x - oldest).toNat = (live - oldest).toNat)
    ∧ (place oldest live x = .beyondLive ↔
        (live - oldest).toNat < (x - oldest).toNat ∧ (x - oldest).toNat < 2 ^ 31)
    ∧ ((live - oldest).toNat < 2 ^ 31 → (place oldest live x = .beforeOldest ↔ 2 ^ 31 ≤ (x - oldest).toNat)))
  ∧ (∀ (n : Node) (s : State), PoolLaw s → HistoryLaw s →
    ((s.consoles.get n).live - (s.consoles.get n).oldest).toNat ≤ 131072)

/-- R43 to R45, R47, R63: a character with data, and a held character that was no break, is stored at the live offset in
the one byte of memory its page gives, counted in the window and for its errors (the parity of a held one was counted
at its reception), and handed to the matchers; that one without its START_BIT is taken whole is log 21's choice. While
neither the last page fills, nor flood starts, nor an entry completes, nothing else changes.
R47, R80 to R82: a console that fills its last page while it holds less than its reservation gets the free page with
the lowest number, at the end of its list; its oldest offset stays and nothing else changes but the character's own
effects. -/
def Obligations.CharacterIsStoredAndHistoryGrows : Prop :=
  (∀ (n : Node) (cmd : Instr) (data stored : Byte) (parityBit stopBit wrong : Bool) (c : Console) (p : PageId) (i : Nat)
    (s : State), s.phase = .running → c = s.consoles.get n →
    ((cmd = .characterReceived n data parityBit stopBit
        ∧ (c.receiver = .idle ∨ c.receiver = .receiving ∨ c.receiver = .waitHigh)
        ∧ allLow c.settings data parityBit stopBit = false ∧ wrong = parityError c.settings data parityBit
        ∧ stored = if c.settings.dataBits = 7 then data &&& 0x7F#8 else data)
      ∨ (cmd = .heldCharacterStored n ∧ c.receiver = .held ∧ stopBit = false ∧ wrong = false ∧ stored = 0#8)) →
    c.locate c.live = some (p, i) → (c.live + 1 - c.oldest).toNat ≠ 512 * c.pages.length →
    completedEntries s n stored = [] → (c.flood = true ∨ c.count < c.settings.riseThreshold) →
    exec cmd s = .next { s with
      ram := Memory.write ramDefault s.ram (512 * p.val + i) [stored]
      consoles := s.consoles.set n { c with
        receiver := .idle
        live := c.live + 1
        count := c.count + 1
        parityErrors := if wrong then c.parityErrors + 1 else c.parityErrors
        framingErrors := if stopBit then c.framingErrors else c.framingErrors + 1 }
      boot := { s.boot with partials := s.boot.partials.set n (Vector.ofFn fun e => (advanceEntry s n stored e).1) } })
  ∧ (∀ (n : Node) (data : Byte) (c : Console) (p q : PageId) (i : Nat) (s : State), s.phase = .running →
    c = s.consoles.get n → c.receiver = .receiving → c.settings.dataBits = 8 → c.settings.parity = .none →
    c.locate c.live = some (p, i) → (c.live + 1 - c.oldest).toNat = 512 * c.pages.length →
    s.pool.held (.ch n) < (s.pool.consoles.get n).reservation → s.pool.owners[q] = none →
    (∀ r : PageId, r < q → s.pool.owners[r] ≠ none) → completedEntries s n data = [] →
    (c.flood = true ∨ c.count < c.settings.riseThreshold) →
    exec (.characterReceived n data true true) s = .next { s with
      ram := Memory.write ramDefault s.ram (512 * p.val + i) [data]
      pool := { s.pool with owners := s.pool.owners.set q.val (some (.ch n)) q.isLt }
      consoles := s.consoles.set n { c with
        receiver := .idle, live := c.live + 1, count := c.count + 1, pages := c.pages ++ [q] }
      boot := { s.boot with partials := s.boot.partials.set n (Vector.ofFn fun e => (advanceEntry s n data e).1) } })

/-- R42 to R45: the receiver's other moves: a start bit is confirmed or ignored; an all-low character has its parity
counted and is held back; a line still low makes it one break, counted and marked, with the partial matches cleared and
no byte stored; the break lasts until the line is high. Each changes only that. A character that CONSOLE CONFIG
discarded has no effect. That an all-low character without its START_BIT is held back is log 21's choice, and that one
in a held character or a break has no effect log 3's. -/
def Obligations.BreakReceptionStoresNothing : Prop :=
  ∀ (n : Node) (data : Byte) (parityBit : Bool) (c : Console) (s : State), s.phase = .running → c = s.consoles.get n →
    ((c.receiver = .idle ∨ c.receiver = .waitHigh ∨ c.receiver = .discarding) →
      exec (.startBit n .low) s = .next { s with consoles := s.consoles.set n { c with receiver := .receiving } }
      ∧ exec (.startBit n .high) s = .next { s with consoles := s.consoles.set n { c with receiver := .idle } })
    ∧ ((c.receiver = .idle ∨ c.receiver = .receiving ∨ c.receiver = .waitHigh) →
      allLow c.settings data parityBit false = true →
      exec (.characterReceived n data parityBit false) s = .next { s with
        consoles := s.consoles.set n { c with
          receiver := .held
          parityErrors := if c.settings.parity = .odd then c.parityErrors + 1 else c.parityErrors } })
    ∧ ((c.receiver = .discarding ∨ c.receiver = .held ∨ c.receiver = .inBreak) → ∀ stopBit : Bool,
      exec (.characterReceived n data parityBit stopBit) s = .next s)
    ∧ (c.receiver = .held → exec (.breakRecognized n) s = .next { s with
        consoles := s.consoles.set n (Console.addMark .breakReceived
          { c with receiver := .inBreak, breaks := c.breaks + 1 })
        boot := { s.boot with partials := s.boot.partials.set n (Vector.replicate 16 0) } })
    ∧ (c.receiver = .inBreak → exec (.breakEnd n) s = .next { s with
        consoles := s.consoles.set n { c with receiver := .idle } })

/-- R48, R65, R69: when the oldest page leaves a console, the oldest offset advances by 512 and the marks before it go;
a cursor left behind moves to the new oldest offset, in flood into the skip, otherwise with a CONSOLE GAP notice of the
distance. That the skip wraps at 2^32 is log 41's choice. -/
def Obligations.OldestPageLeavesWithItsMarks : Prop :=
  ∀ (n : Node) (c d : Console) (s : State), c = s.consoles.get n →
    512 ≤ (c.live - c.oldest).toNat → (c.live - c.oldest).toNat < 2 ^ 31 →
    d = { c with
      pages := c.pages.drop 1
      oldest := c.oldest + 512
      marks := c.marks.filter fun m => decide ((m.offset - (c.oldest + 512)).toNat < 2 ^ 31) } →
    (c.cursor = none → oldestPageLeaves n s = { s with consoles := s.consoles.set n d })
    ∧ (∀ x : Word, c.cursor = some x → 512 ≤ (x - c.oldest).toNat → (x - c.oldest).toNat ≤ (c.live - c.oldest).toNat →
      oldestPageLeaves n s = { s with consoles := s.consoles.set n d })
    ∧ (∀ x : Word, c.cursor = some x → (x - c.oldest).toNat < 512 → c.flood = true →
      oldestPageLeaves n s = { s with
      consoles := s.consoles.set n
        { d with cursor := some (c.oldest + 512), skip := c.skip + (c.oldest + 512 - x) } })
    ∧ (∀ x : Word, c.cursor = some x → (x - c.oldest).toNat < 512 → c.flood = false →
      oldestPageLeaves n s = { s with
        consoles := s.consoles.set n { d with cursor := some (c.oldest + 512) }
        link := s.link.addNotice (.consoleGap n (c.oldest + 512 - x) (c.oldest + 512)) })

/-- R64: the character that makes the count exceed the rise threshold puts the console in flood, with a FLOOD notice of
state on and count 0, where no store is to be issued and no write is held.
R63, R66: a window's end starts the next with a count of 0; a console in flood whose count is at most the fall
threshold leaves flood: its cursor jumps to the live offset and a FLOOD notice carries what was skipped (where no store
is to be issued and no write is held, nothing else changes). That the skip wraps at 2^32 is log 41's choice. -/
def Obligations.FloodFollowsThresholds : Prop :=
  (∀ (n : Node) (data : Byte) (c : Console) (p : PageId) (i : Nat) (s : State), s.phase = .running →
    c = s.consoles.get n → c.receiver = .receiving → c.settings.dataBits = 8 → c.settings.parity = .none →
    c.locate c.live = some (p, i) → (c.live + 1 - c.oldest).toNat ≠ 512 * c.pages.length →
    completedEntries s n data = [] → c.flood = false → c.count = c.settings.riseThreshold →
    NothingHeld s →
    exec (.characterReceived n data true true) s = .next { s with
      ram := Memory.write ramDefault s.ram (512 * p.val + i) [data]
      consoles := s.consoles.set n { c with
        receiver := .idle, live := c.live + 1, count := c.count + 1, flood := true, skip := 0 }
      boot := { s.boot with partials := s.boot.partials.set n (Vector.ofFn fun e => (advanceEntry s n data e).1) }
      link := s.link.addNotice (.flood n true 0) })
  ∧ (∀ (n : Node) (c : Console) (s : State), s.phase = .running → c = s.consoles.get n →
    ((c.flood = false ∨ c.settings.fallThreshold < c.count) →
      exec (.windowEnd n) s = .next { s with
      consoles := s.consoles.set n
        { c with count := 0, windowRemaining := c.settings.window } })
    ∧ (c.flood = true → c.count ≤ c.settings.fallThreshold → NothingHeld s →
      exec (.windowEnd n) s = .next { s with
        consoles := s.consoles.set n { c with
          count := 0, windowRemaining := c.settings.window, cursor := c.cursor.map fun _ => c.live, flood := false,
          skip := 0 }
        link := s.link.addNotice (.flood n false
          (match c.cursor with | some x => c.skip + (c.live - x) | none => 0)) }))

/-- R73: CONSOLE FORWARD: on at live, on at an offset placed by R51, or off; the flood skip starts afresh; nothing else
changes. A node above 3, a state other than on or off, and on with an unknown start selection are refused. The fields of
the reply stand as log 11 gives them. -/
def Obligations.ConsoleForwardSetsCursor : Prop :=
  ∀ (n : Node) (tag : Tag) (b o0 o1 o2 o3 : Byte) (c : Console) (x y : Word) (s : State), RequestReady s →
    b.toNat = n.val → c = s.consoles.get n → x = BitVec.ofNat 32 (u32 o0 o1 o2 o3) →
    y = (if (x - c.oldest).toNat ≤ (c.live - c.oldest).toNat then x
      else if (x - c.oldest).toNat < 2 ^ 31 then c.live else c.oldest) →
    (∀ sel : Byte, (sel = 0#8 ∨ sel = 1#8) →
      exec (.consoleForward tag [b, 0#8, sel, o0, o1, o2, o3]) s = .next (answered
        { s with consoles := s.consoles.set n { c with cursor := none, skip := 0 } }
        (replyTo tag 0x34#8 .done (be8 n.val ++ [0#8] ++ [0#8, 0#8, 0#8, 0#8, 0#8] ++ [0#8] ++ word32 c.oldest
          ++ word32 c.live ++ [flagByte c.flood]))))
    ∧ exec (.consoleForward tag [b, 1#8, 0#8, o0, o1, o2, o3]) s = .next (answered
        { s with consoles := s.consoles.set n { c with cursor := some c.live, skip := 0 } }
        (replyTo tag 0x34#8 .done (be8 n.val ++ [1#8] ++ 1#8 :: word32 c.live ++ [0#8] ++ word32 c.oldest
          ++ word32 c.live ++ [flagByte c.flood])))
    ∧ exec (.consoleForward tag [b, 1#8, 1#8, o0, o1, o2, o3]) s = .next (answered
        { s with consoles := s.consoles.set n { c with cursor := some y, skip := 0 } }
        (replyTo tag 0x34#8 .done (be8 n.val ++ [1#8] ++ 1#8 :: word32 y ++ [flagByte (y != x)] ++ word32 c.oldest
          ++ word32 c.live ++ [flagByte c.flood])))
    ∧ (∀ node on sel : Byte, (4 ≤ node.toNat ∨ 2 ≤ on.toNat ∨ on = 1#8 ∧ 2 ≤ sel.toNat) →
      exec (.consoleForward tag [node, on, sel, o0, o1, o2, o3]) s
        = .next (answered s (replyTo tag 0x34#8 .badRequest [])))

/-! ## The page pool (05) and the readings -/

/-- R78: what the pool derives from its settings and counts, in every state: the free pages, the common part, and each
holder's borrow, shortfall, ceiling and excess are as the table defines them; under the settings' ranges they lie in the
table's ranges; a share of 16 gives the whole common part as ceiling, a share of 0 none, and no request raises such a
holder's borrow; the ceilings may sum to more than the common part. A holder's count is its reservation plus its borrow
minus its shortfall, and so the free pages are the common part that nobody borrows plus the reservations not filled;
while the borrows stay within the common part, a holder below its reservation finds a free page. -/
def Obligations.FreePagesCoverShortfalls : Prop :=
  (∀ s : State, s.pool.reserved ≤ 256 →
    s.pool.free + s.pool.borrowed = s.pool.common + (allHolders.map s.pool.shortfall).sum
    ∧ (s.pool.borrowed ≤ s.pool.common → ∀ h : Holder, s.pool.held h < (s.pool.holder h).reservation →
      ∃ p : PageId, s.pool.owners[p] = none))
  ∧ (∀ (h : Holder) (r : HolderRecord) (s : State), r = s.pool.holder h →
    s.pool.free + (allHolders.map s.pool.held).sum = 256
    ∧ s.pool.common = 256 - (allHolders.map fun g => (s.pool.holder g).reservation).sum
    ∧ (s.pool.borrow h : Int) = max 0 ((s.pool.held h : Int) - r.reservation)
    ∧ (s.pool.shortfall h : Int) = max 0 ((r.reservation : Int) - s.pool.held h)
    ∧ (excess s h : Int) = max 0 ((s.pool.borrow h : Int) - ceiling s h)
    ∧ ((∀ n : Node, h = .ch n → (s.consoles.get n).flood = false) → ceiling s h = s.pool.common * r.share / 16)
    ∧ (∀ n : Node, h = .ch n → (s.consoles.get n).flood = true → ceiling s h = 0)
    ∧ s.pool.held h + s.pool.shortfall h = r.reservation + s.pool.borrow h
    ∧ s.pool.free ≤ 256 ∧ s.pool.borrow h ≤ 256 ∧ excess s h ≤ 256
    ∧ (SettingsLaw s → 64 ≤ s.pool.common ∧ s.pool.common ≤ 248 ∧ s.pool.shortfall h ≤ 64
      ∧ ceiling s h ≤ s.pool.common)
    ∧ (r.share = 16 → (∀ n : Node, h = .ch n → (s.consoles.get n).flood = false) → ceiling s h = s.pool.common)
    ∧ (r.share = 0 → ceiling s h = 0
      ∧ ∀ why : Purpose, (allocate h why s).2.pool.borrow h ≤ s.pool.borrow h))
  ∧ (∃ s : State, SettingsLaw s ∧ s.pool.common < (allHolders.map (ceiling s)).sum)

/-- R81, R82: a holder below its reservation, and one whose borrow is below its ceiling while the borrows sum below the
common part, is granted the free page with the lowest number; only that page's owner changes.
R85, R86: a cache holder at its ceiling reuses its own CLEAN page of greatest age, the owner staying, except for
READAHEAD; with no CLEAN page, and for READAHEAD, the request fails: only a counter of the holder rises.
R83, R84: with the common part lent out, a holder below its ceiling gets the CLEAN page of greatest age (of equal
ages the lowest number) of the cache holder with the largest excess, the earliest in holder order among equals; the
page's record goes, and the two counters of reclamation rise. -/
def Obligations.AllocationTakesFirstStepThatSucceeds : Prop :=
  ((∀ (h : Holder) (why : Purpose) (q : PageId) (s : State), s.pool.owners[q] = none →
    (∀ p : PageId, p < q → s.pool.owners[p] ≠ none) →
    (s.pool.held h < (s.pool.holder h).reservation
      ∨ (s.pool.held h - (s.pool.holder h).reservation < ceiling s h ∧ s.pool.borrowed < s.pool.common)) →
    allocate h why s
      = (some q, { s with pool := { s.pool with owners := s.pool.owners.set q.val (some h) q.isLt } }))
  ∧ (∀ (u : UnitId) (why : Purpose) (s : State), (s.pool.caches.get u).reservation ≤ s.pool.held (.mh u) →
    ceiling s (.mh u) ≤ s.pool.held (.mh u) - (s.pool.caches.get u).reservation →
    (∀ r ∈ s.cache.directory, why ≠ .readAhead → r.unit = u → r.state = .clean →
      (s.cache.directory.map fun x => x.page).Nodup →
      (∀ x ∈ s.cache.directory, x.unit = u → x.state = .clean → x.age < r.age ∨ (x.age = r.age ∧ r.page ≤ x.page)) →
      allocate (.mh u) why s = (some r.page, { s with
        cache := { s.cache with directory := s.cache.directory.filter fun x => x.page != r.page }
        pool := { s.pool with
        caches :=
          s.pool.caches.modify u fun x => { x with selfRecycles := x.selfRecycles + 1 } } }))
    ∧ ((why = .readAhead ∨ ∀ r ∈ s.cache.directory, r.unit = u → r.state ≠ .clean) →
      allocate (.mh u) why s = (none, { s with
    pool := { s.pool with
      caches :=
        s.pool.caches.modify u fun x => { x with failures := x.failures + 1 } } }))))
  ∧ (∀ (h : Holder) (u : UnitId) (why : Purpose) (r : DirRecord) (s : State),
    (s.pool.holder h).reservation ≤ s.pool.held h →
    s.pool.held h - (s.pool.holder h).reservation < ceiling s h → s.pool.common ≤ s.pool.borrowed → h ≠ .mh u →
    (s.cache.directory.map fun x => x.page).Nodup → r ∈ s.cache.directory → r.unit = u → r.state = .clean →
    (∀ x ∈ s.cache.directory, x.unit = u → x.state = .clean → x.age < r.age ∨ (x.age = r.age ∧ r.page ≤ x.page)) →
    0 < excess s (.mh u) →
    (∀ g : Holder, g ≠ h → evictable s g ≠ none → excess s g ≤ excess s (.mh u)) →
    (∀ n : Node, Holder.ch n ≠ h → evictable s (.ch n) ≠ none → excess s (.ch n) < excess s (.mh u)) →
    (∀ v : UnitId, v < u → Holder.mh v ≠ h → evictable s (.mh v) ≠ none → excess s (.mh v) < excess s (.mh u)) →
    allocate h why s = (some r.page, { s with
      cache := { s.cache with directory := s.cache.directory.filter fun x => x.page != r.page }
      pool := (({ s.pool with owners := s.pool.owners.set r.page.val (some h) r.page.isLt }).modHolder (.mh u)
          fun x => { x with reclaimedFrom := x.reclaimedFrom + 1 }).modHolder h
            fun x => { x with reclaimedBy := x.reclaimedBy + 1 } }))

/-- R77, R88, R89: POOL CONFIG: reservations that would sum above 192, and changed reservations under which the
borrows would exceed the common part, are refused and change nothing; otherwise all values apply together, clamped, an
aging tick other than 0 restarts the aging timer, no page moves, and (where no write is held and no page waits to be
stored) nothing else changes. `xs` are the clamped values of the masked holders, `p` the pool with them. The fields of
the reply stand as log 11 reads R199. -/
def Obligations.PoolConfigChecksThenApplies : Prop :=
  ∀ (tag : Tag) (mask tick : Byte) (rest : List Byte) (xs : List (Holder × Nat × Nat)) (p : Pool) (s : State),
    RequestReady s → rest.length ≤ 16 → maskedShares (maskedHolders mask) rest = some xs →
    p.owners = s.pool.owners → p.agingTick = s.pool.agingTick →
    (∀ h : Holder, p.holder h = match xs.lookup h with
      | some (r, x) => { s.pool.holder h with reservation := r, share := x }
      | none => s.pool.holder h) →
    (192 < p.reserved → exec (.poolConfig tag (mask :: tick :: rest)) s
      = .next (answered s (replyTo tag 0x40#8 .poolOvercommit (be32 p.reserved))))
    ∧ (p.reserved ≤ 192 → (∃ h : Holder, (p.holder h).reservation ≠ (s.pool.holder h).reservation) →
      p.common < p.borrowed → exec (.poolConfig tag (mask :: tick :: rest)) s
        = .next (answered s (replyTo tag 0x40#8 .poolInUse (be32 p.borrowed ++ be8 p.common))))
    ∧ (∀ (k : Nat) (remaining : Nat), p.reserved ≤ 192 →
      ((∀ h : Holder, (p.holder h).reservation = (s.pool.holder h).reservation) ∨ p.borrowed ≤ p.common) →
      NothingHeld s →
      k = (if tick = 0#8 then s.pool.agingTick else min 60 tick.toNat) →
      remaining = (if tick = 0#8 then s.cache.agingRemaining else min 60 tick.toNat * 1000) →
      exec (.poolConfig tag (mask :: tick :: rest)) s = .next (answered
        { s with pool := { p with agingTick := k }, cache := { s.cache with agingRemaining := remaining } }
        (replyTo tag 0x40#8 .done ((allHolders.flatMap fun h =>
          be8 (p.holder h).reservation ++ be8 (p.holder h).share
            ++ be8 (if floodOf s h then 0 else p.common * (p.holder h).share / 16)) ++ be8 p.common ++ be8 k))))

/-- R52, R57, R60: CONSOLE READ answers the start its offset is placed at, the bytes from there up to the maximum or
the live offset, both offsets, and up to 8 marks of the range after those skipped with the number left; CONSOLE STATUS
answers the console's registers, with the level of its CTS pin that comes with the request (log 19; its code: log 32). Neither changes
anything. R57, R78, R90, R107, R171, R186: POOL STATUS, UNIT STATUS,
BOOT STATUS and IDENTIFY answer what their rules name and change nothing. The fields of the reply stand as log 11
reads R199, for the four status requests in the model's own Details functions. -/
def Obligations.ReadingsChangeNothing : Prop :=
  (∀ (n : Node) (tag : Tag) (b o0 o1 o2 o3 m0 m1 sk : Byte) (c : Console) (cts : Level) (x start : Word)
    (number : Nat) (range : List Mark) (s : State), RequestReady s → b.toNat = n.val → c = s.consoles.get n →
    x = BitVec.ofNat 32 (u32 o0 o1 o2 o3) →
    start = (if (x - c.oldest).toNat ≤ (c.live - c.oldest).toNat then x
      else if (x - c.oldest).toNat < 2 ^ 31 then c.live else c.oldest) →
    number = min (max 1 (min 512 (u16 m0 m1))) (c.live - start).toNat →
    range = (c.marks.filter fun m => decide ((m.offset - start).toNat < number)
      || (start + BitVec.ofNat 32 number == c.live && m.offset == c.live)).drop (min 31 sk.toNat) →
    exec (.consoleRead tag [b, o0, o1, o2, o3, m0, m1, sk]) s = .next (answered s (replyTo tag 0x33#8 .done
      (word32 start ++ be16 number ++ word32 c.oldest ++ word32 c.live ++ be32 (range.length - (range.take 8).length)
        ++ ((List.range number).map fun i => historyByte s n (start + BitVec.ofNat 32 i))
        ++ be16 (range.take 8).length ++ (range.take 8).flatMap markBytes)))
    ∧ exec (.consoleStatus tag ⟨[b], cts⟩) s = .next (answered s (replyTo tag 0x35#8 .done (consoleStatusDetails c cts))))
  ∧ (∀ (x : Fin 4) (tag : Tag) (b : Byte) (s : State), RequestReady s → b.toNat = x.val →
    exec (.identify tag []) s = .next (answered s (replyTo tag 0x01#8 .done
      [0x04#8, 0x40#8, 1#8, 4#8, 4#8, 1#8, 0#8, BitVec.ofNat 8 (loadResultCode s.loader.result)]))
    ∧ exec (.poolStatus tag [0#8]) s = .next (answered s (replyTo tag 0x41#8 .done (poolStatusDetails s false)))
    ∧ exec (.poolStatus tag [1#8]) s = .next (answered s (replyTo tag 0x41#8 .done (poolStatusDetails s true)))
    ∧ exec (.unitStatus tag [b]) s = .next (answered s (replyTo tag 0x52#8 .done (unitStatusDetails s x)))
    ∧ exec (.bootStatus tag [b]) s = .next (answered s (replyTo tag 0x63#8 .done (bootStatusDetails s x))))

/-! ## Media units (06) -/

/-- R94, R95: UNIT ATTACH: an empty mask or an EXCLUSIVE unit for several nodes is refused with BAD_REQUEST, a unit in
service with UNIT_BUSY, a node of another unit with NODE_HAS_UNIT, in that order; an accepted one fills the record with
the clamped values and sets attention on the ports of its nodes, and nothing else changes. -/
def Obligations.UnitAttachChecksThenFills : Prop :=
  ∀ (u : UnitId) (k : Mode) (m : Per4 Bool) (tag : Tag) (b kb mask c0 c1 c2 c3 t0 t1 w d : Byte) (x : MediaUnit)
    (s : State), RequestReady s → b.toNat = u.val → kb.toNat = modeCode k → mask.toNat < 16 →
    (∀ n : Node, m.get n = mask.getLsbD n.val) →
    x = { state := .attached, capacity := max 1 (u32 c0 c1 c2 c3), mode := k, nodes := m, writer := none,
          timeout := if u16 t0 t1 = 0 then 50 else min 600 (u16 t0 t1),
          window := if w = 0#8 then 0 else max 8 (min 64 w.toNat),
          dirtyLimit := if d = 0#8 then 16 else min 64 d.toNat,
          consecutive := 0, storeFailures := 0, fetchFailures := 0, fetchTimeouts := 0, detachTag := none, stored := 0 } →
    ((m = Per4.all false ∨ (k = .exclusive ∧ ∃ n n' : Node, n ≠ n' ∧ m.get n = true ∧ m.get n' = true)) →
      exec (.unitAttach tag [b, kb, mask, c0, c1, c2, c3, t0, t1, w, d]) s
        = .next (answered s (replyTo tag 0x50#8 .badRequest [])))
    ∧ (m ≠ Per4.all false → (k = .exclusive → ∀ n n' : Node, m.get n = true → m.get n' = true → n = n') →
      ((s.units.get u).state ≠ .detached →
        exec (.unitAttach tag [b, kb, mask, c0, c1, c2, c3, t0, t1, w, d]) s
          = .next (answered s (replyTo tag 0x50#8 .unitBusy [])))
      ∧ (∀ n v : Fin 4, (s.units.get u).state = .detached → m.get n = true → v ≠ u → (s.units.get v).nodes.get n = true →
        UnitLaw s → (∀ n' v' : Fin 4, n' < n → m.get n' = true → v' ≠ u → (s.units.get v').nodes.get n' = false) →
        exec (.unitAttach tag [b, kb, mask, c0, c1, c2, c3, t0, t1, w, d]) s
          = .next (answered s (replyTo tag 0x50#8 .nodeHasUnit (be8 n.val ++ be8 v.val))))
      ∧ ((s.units.get u).state = .detached →
        (∀ n v : Fin 4, m.get n = true → v ≠ u → (s.units.get v).nodes.get n = false) → TimerLaw s →
        exec (.unitAttach tag [b, kb, mask, c0, c1, c2, c3, t0, t1, w, d]) s = .next (answered
          { s with
            units := s.units.set u x
            ports := Per4.build fun n => if m.get n then { s.ports.get n with attention := true, sequential := none }
              else s.ports.get n }
          (replyTo tag 0x50#8 .done (be8 u.val ++ be8 1 ++ be8 (modeCode k) ++ [mask] ++ be32 x.capacity
            ++ be16 x.timeout ++ be8 x.window ++ be8 x.dirtyLimit)))))

/-- R98: a UNIT DETACH of a DETACHED unit is answered ALREADY; without force a DRAINING unit is BUSY and one in
STORE_FAULT UNIT_FAULTED. Each changes nothing. R99, R105: a detach of a unit without DIRTY or STORING pages, and a
forced one, take the unit out of service in one step: commands on its nodes' ports end ABORTED, with the blocks staged
there dropped, its entries are freed with their unsent calls and all its pages with their records, its nodes' ports have
attention set, the BOOT_SELECT of its nodes is released (R169), its counters stay, and the replies carry what the rules
name (where no other port waits on the cache and no other unit has a page to store). The fields of the
reply stand as log 11 reads R199; that a plain detach keeps the consecutive failures is log 38, what a DETACHED unit's
other fields hold log 13. -/
def Obligations.DetachFreesEverythingOfUnit : Prop :=
  (∀ (u : UnitId) (tag : Tag) (b options : Byte) (s : State), RequestReady s → b.toNat = u.val →
    ((s.units.get u).state = .detached →
      exec (.unitDetach tag [b, options]) s = .next (answered s (replyTo tag 0x51#8 .already [])))
    ∧ (options.getLsbD 0 = false → (s.units.get u).state = .draining →
      exec (.unitDetach tag [b, options]) s = .next (answered s (replyTo tag 0x51#8 .busy [])))
    ∧ (options.getLsbD 0 = false → (s.units.get u).state = .storeFault →
      exec (.unitDetach tag [b, options]) s = .next (answered s (replyTo tag 0x51#8 .unitFaulted []))))
  ∧ (∀ (u : UnitId) (tag : Tag) (b options : Byte) (x : MediaUnit) (s : State), RequestReady s → PoolLaw s →
    b.toNat = u.val → x = s.units.get u → s.cache.entryWait = [] → (∀ n : Node, (s.ports.get n).wait ≠ .cache) →
    (∀ v : UnitId, v ≠ u → s.cache.dirty.get v = []) →
    ((options.getLsbD 0 = false ∧ x.state = .attached ∧ dirtyCount s u = 0)
      ∨ (options.getLsbD 0 = true ∧ x.state ≠ .detached)) →
    ∃ t, exec (.unitDetach tag [b, options]) s = .next t
      ∧ t.units = s.units.set u { resetUnit with
          consecutive := if options.getLsbD 0 then 0 else x.consecutive
          storeFailures := x.storeFailures, fetchFailures := x.fetchFailures, fetchTimeouts := x.fetchTimeouts }
      ∧ (∀ p : PageId, t.pool.owners[p] = if s.pool.owners[p] = some (.mh u) then none else s.pool.owners[p])
      ∧ t.cache.directory = s.cache.directory.filter (fun r => r.unit != u)
      ∧ t.cache.dirty.get u = []
      ∧ (∀ i : Fin 16, t.cache.fetches[i] = match (s.cache.fetches[i]).busy with
          | some f => if f.unit = u then { s.cache.fetches[i] with busy := none } else s.cache.fetches[i]
          | none => s.cache.fetches[i])
      ∧ (∀ i : Fin 8, t.cache.stores[i] = match (s.cache.stores[i]).busy with
          | some y => if y.unit = u then { s.cache.stores[i] with busy := none } else s.cache.stores[i]
          | none => s.cache.stores[i])
      ∧ t.link.calls = s.link.calls.filter (fun k => match k with
          | .fetch i => !((s.cache.fetches[i]).busy.any fun f => f.unit == u)
          | .store i => !((s.cache.stores[i]).busy.any fun y => y.unit == u))
      ∧ (∀ n : Node, x.nodes.get n = true → (t.ports.get n).active = none ∧ (t.ports.get n).attention = true
          ∧ (t.ports.get n).sequential = none ∧ ((s.ports.get n).active.isSome → (t.ports.get n).slots = [])
          ∧ (t.ports.get n).lastStatus
            = (if (s.ports.get n).active.isSome then .aborted else (s.ports.get n).lastStatus)
          ∧ (t.ports.get n).lastCount
            = (match (s.ports.get n).active with | some a => a.done | none => (s.ports.get n).lastCount))
      ∧ (∀ n : Node, x.nodes.get n = true → LeavesBootSelect s t n)
      ∧ (∀ n : Node, x.nodes.get n = false → t.ports.get n = s.ports.get n
          ∧ t.lines.line.get n = s.lines.line.get n ∧ t.supervisor n = s.supervisor n)
      ∧ t.link.replies ++ t.link.waiting = s.link.replies
        ++ (match options.getLsbD 0, x.detachTag with
            | true, some old => [replyTo old 0x51#8 .forced (be32 (dirtyCount s u))]
            | _, _ => [])
        ++ [replyTo tag 0x51#8 .done (if options.getLsbD 0 then
              be8 u.val ++ be8 (unitStateCode x.state) ++ be32 (dirtyCount s u)
                ++ be32 (allNodes.countP fun n => x.nodes.get n && (s.ports.get n).active.isSome)
                ++ be32 (s.pool.held (.mh u))
            else be32 (s.pool.held (.mh u)))]
      ∧ t.link.notices = s.link.notices ∧ t.consoles = s.consoles ∧ t.ram = s.ram ∧ t.power = s.power
      ∧ t.loader = s.loader)

/-- R100: a detach without force of a unit with DIRTY or STORING pages starts a drain: no reply is queued, the tag is
kept, the nodes leave with their BOOT_SELECT released (R169), their commands end ABORTED, the unit's fetch entries are
freed with their unsent calls and their FILLING pages, every other page stays (where no port waits on the cache or for
an entry and no store can be issued). -/
def Obligations.DetachOfDirtyUnitStartsDrain : Prop :=
  ∀ (u : UnitId) (tag : Tag) (b options : Byte) (x : MediaUnit) (s : State), RequestReady s → PoolLaw s → CacheLaw s →
    b.toNat = u.val → options.getLsbD 0 = false → x = s.units.get u → x.state = .attached → 0 < dirtyCount s u →
    s.cache.entryWait = [] → NothingHeld s →
    ∃ t, exec (.unitDetach tag [b, options]) s = .next t
      ∧ t.units = s.units.set u
        { x with state := .draining, nodes := Per4.all false, writer := none, detachTag := some tag, stored := 0 }
      ∧ t.cache.directory = s.cache.directory.filter (fun r => !(r.unit == u && r.state == .filling))
      ∧ t.cache.stores = s.cache.stores ∧ t.cache.dirty = s.cache.dirty
      ∧ (∀ p : PageId, t.pool.owners[p] = if ∃ r ∈ s.cache.directory, r.page = p ∧ r.unit = u ∧ r.state = .filling
          then none else s.pool.owners[p])
      ∧ t.pool.consoles = s.pool.consoles ∧ t.pool.caches = s.pool.caches ∧ t.pool.agingTick = s.pool.agingTick
      ∧ (∀ i : Fin 16, t.cache.fetches[i] = match (s.cache.fetches[i]).busy with
          | some f => if f.unit = u then { s.cache.fetches[i] with busy := none } else s.cache.fetches[i]
          | none => s.cache.fetches[i])
      ∧ t.link.calls = s.link.calls.filter (fun k => match k with
          | .fetch i => !((s.cache.fetches[i]).busy.any fun f => f.unit == u)
          | .store _ => true)
      ∧ (∀ n : Node, x.nodes.get n = true → (t.ports.get n).active = none ∧ (t.ports.get n).attention = true
          ∧ (t.ports.get n).sequential = none ∧ ((s.ports.get n).active.isSome → (t.ports.get n).slots = [])
          ∧ (t.ports.get n).lastStatus
            = (if (s.ports.get n).active.isSome then .aborted else (s.ports.get n).lastStatus)
          ∧ (t.ports.get n).lastCount
            = (match (s.ports.get n).active with | some a => a.done | none => (s.ports.get n).lastCount))
      ∧ (∀ n : Node, x.nodes.get n = true → LeavesBootSelect s t n)
      ∧ (∀ n : Node, x.nodes.get n = false → t.ports.get n = s.ports.get n ∧ t.lines.line.get n = s.lines.line.get n
          ∧ t.supervisor n = s.supervisor n)
      ∧ t.link.replies = s.link.replies ∧ t.link.waiting = [] ∧ t.link.notices = s.link.notices
      ∧ t.consoles = s.consoles ∧ t.ram = s.ram ∧ t.power = s.power ∧ t.loader = s.loader

/-! ## Node media ports (07) -/

/-- R97, R113: a READ, WRITE or FLUSH of a busy port, a READ or WRITE under attention, and one of a node without a unit or
without permission get that result and change nothing at the port. Of two WRITEs presented together, the one that comes
after the other has taken the write lock is answered WRITE_PROTECTED, its port's attention staying set (log 39).
The status block of a transaction has 0 in bits 1 to 7 of its flags (log 54), and the transaction the SPI mode in force when
its chip select was asserted (R128, log 53). -/
def Obligations.PortCommandChecksInOrder : Prop :=
  ∀ (n : Node) (lba : Word) (count txn : Byte) (together : Bool) (s : State), s.phase = .running → TimerLaw s →
    1 ≤ count.toNat → count.toNat ≤ 64 →
    (∀ a : ActiveCommand, (port s n).active = some a →
      exec (.read n lba count txn) s = .next (portAnswered n txn .busy [] s)
      ∧ exec (.write n lba count ⟨txn, together⟩) s = .next (portAnswered n txn .busy [] s)
      ∧ exec (.flush n txn) s = .next (portAnswered n txn .busy [] s))
    ∧ ((port s n).active = none → (port s n).attention = true →
      exec (.read n lba count txn) s = .next (portAnswered n txn .unitAttention [] s)
      ∧ exec (.write n lba count ⟨txn, false⟩) s = .next (portAnswered n txn .unitAttention [] s)
      ∧ ((∀ (u : UnitId) (w : Node), (s.units.get u).nodes.get n = true → (s.units.get u).writer = some w → w = n) →
        exec (.write n lba count ⟨txn, together⟩) s = .next (portAnswered n txn .unitAttention [] s)))
    ∧ (∀ (u : UnitId) (w : Node), (port s n).active = none → UnitLaw s → (s.units.get u).nodes.get n = true →
      (s.units.get u).writer = some w → w ≠ n →
      exec (.write n lba count ⟨txn, true⟩) s = .next (portAnswered n txn .writeProtected [] s))
    ∧ ((port s n).active = none → (∀ u : UnitId, (s.units.get u).nodes.get n = false) →
      ((port s n).attention = false →
        exec (.read n lba count txn) s = .next (portAnswered n txn .notPresent [] s)
        ∧ exec (.write n lba count ⟨txn, together⟩) s = .next (portAnswered n txn .notPresent [] s))
      ∧ exec (.flush n txn) s = .next (portAnswered n txn .notPresent [] s))
    ∧ (∀ u : UnitId, (port s n).active = none → UnitLaw s → (s.units.get u).nodes.get n = true →
      ((port s n).attention = false →
        ((s.units.get u).mode = .readOnly
          ∨ ((s.units.get u).mode = .firstWriter ∧ ∃ w : Node, w ≠ n ∧ (s.units.get u).writer = some w)) →
        exec (.write n lba count ⟨txn, together⟩) s = .next (portAnswered n txn .writeProtected [] s))
      ∧ ((port s n).attention = false → (s.units.get u).state = .storeFault → (s.units.get u).mode ≠ .readOnly →
        (∀ w : Node, (s.units.get u).writer = some w → w = n) →
        exec (.write n lba count ⟨txn, together⟩) s = .next (portAnswered n txn .writeFault [] s))
      ∧ ((s.units.get u).state = .storeFault →
        exec (.flush n txn) s = .next (portAnswered n txn .writeFault [] s)))

/-- R114, R115, R132: a READ from or beyond the capacity starts and ends at once with END_OF_MEDIUM; one whose first
block is FILLING is accepted and waits on its page; one of a single block that is CLEAN gets its bytes in a slot, the
page's age becomes 0 and the idle timer starts (before the status block is built: log 43). R133 to R136: one whose
first block has no record, with a fetch entry free: of a single block or before a block with a record, a page becomes
FILLING, the lowest free entry is taken for it under its next generation, its FETCH call is queued and the port waits
on the page; without a page the READ ends BUSY; with no entry free, the port joins the end of the entry-wait order.
Nothing else changes. The status block of a transaction has 0 in bits 1 to 7 of its flags (log 54), and the transaction the SPI mode in force when
its chip select was asserted (R128, log 53). -/
def Obligations.ReadOpensAndStages : Prop :=
  ∀ (n : Node) (u : UnitId) (lba : Word) (count txn : Byte) (a : ActiveCommand) (r : DirRecord) (s : State),
    s.phase = .running → TimerLaw s → UnitLaw s → 1 ≤ count.toNat → count.toNat ≤ 64 → (port s n).active = none →
    (port s n).attention = false → (s.units.get u).nodes.get n = true →
    a = { kind := .read, first := lba.toNat, count := count.toNat,
          effective := min count.toNat ((s.units.get u).capacity - lba.toNat), done := 0 } →
    ((s.units.get u).capacity ≤ lba.toNat →
      exec (.read n lba count txn) s = .next (portAnswered n txn .endOfMedium [] (commandEnded n a .endOfMedium s)))
    ∧ (lba.toNat < (s.units.get u).capacity → findBlock s u lba.toNat = some r → r.state = .filling →
      exec (.read n lba count txn) s = .next (portAnswered n txn .good []
        { s with
          ports := s.ports.modify n fun p =>
            { p with active := some a, slots := [], wait := .page, idleTimer := none } }))
    ∧ (lba.toNat < (s.units.get u).capacity → a.effective = 1 → findBlock s u lba.toNat = some r → r.state = .clean →
      exec (.read n lba count txn) s = .next (portAnswered n txn .good []
        { s with
          ports := s.ports.modify n fun p => { p with
            active := some a, wait := .none, idleTimer := some p.idleTimeout,
            slots := [{ lba := r.lba, data := (List.range 512).map fun i =>
              Memory.read ramDefault s.ram (512 * r.page.val + i) }] }
          cache := { s.cache with
          directory :=
            s.cache.directory.map fun x => if x.page = r.page then { x with age := 0 } else x } }))
    ∧ (∀ (i : Fin 16) (g : PageId), lba.toNat < (s.units.get u).capacity → findBlock s u lba.toNat = none →
      (a.effective = 1 ∨ (findBlock s u (lba.toNat + 1)).isSome) → (s.cache.fetches[i]).busy = none →
      (∀ j : Fin 16, j < i → (s.cache.fetches[j]).busy ≠ none) → s.pool.owners[g] = none →
      (∀ h : PageId, h < g → s.pool.owners[h] ≠ none) → s.pool.held (.mh u) < (s.pool.caches.get u).reservation →
      exec (.read n lba count txn) s = .next (portAnswered n txn .good []
        { s with
          ports := s.ports.modify n fun p =>
            { p with active := some a, slots := [], wait := .page, idleTimer := none }
          pool := { s.pool with owners := s.pool.owners.set g.val (some (.mh u)) g.isLt }
          cache := { s.cache with
            directory := insertRecord
              { page := g, unit := u, lba := lba.toNat, state := .filling, age := 0, redirtied := false }
              s.cache.directory
            fetches := s.cache.fetches.set i.val
              { generation := (s.cache.fetches[i]).generation + 1
                busy := some { unit := u, first := lba.toNat, blocks := [.waiting], created := s.now } } i.isLt }
          link := { s.link with calls := s.link.calls ++ [.fetch i] } }))
    ∧ (lba.toNat < (s.units.get u).capacity → findBlock s u lba.toNat = none →
      (∃ i : Fin 16, (s.cache.fetches[i]).busy = none) → (allocate (.mh u) .demand s).1 = none →
      exec (.read n lba count txn) s = .next (portAnswered n txn .good [] (commandEnded n a .busy
        { s with
          pool := { s.pool with
            caches := s.pool.caches.modify u fun x => { x with failures := x.failures + 1 } } })))
    ∧ (lba.toNat < (s.units.get u).capacity → findBlock s u lba.toNat = none →
      (∀ i : Fin 16, (s.cache.fetches[i]).busy ≠ none) →
      exec (.read n lba count txn) s = .next (portAnswered n txn .good []
        { s with
          ports := s.ports.modify n fun p =>
            { p with active := some a, slots := [], wait := .entry, idleTimer := none }
          cache := { s.cache with entryWait := s.cache.entryWait ++ [n] } }))

/-- R97, R118: a permitted WRITE takes the write lock of a FIRST_WRITER unit that has no writer (attention set on the
ports of its other nodes), even where it ends at once with END_OF_MEDIUM; otherwise it opens with its idle timer at the
full timeout. Nothing else changes.
The status block of a transaction has 0 in bits 1 to 7 of its flags (log 54), and the transaction the SPI mode in force when
its chip select was asserted (R128, log 53). -/
def Obligations.WriteTakesLockThenOpens : Prop :=
  ∀ (n : Node) (u : UnitId) (lba : Word) (count txn : Byte) (together : Bool) (a : ActiveCommand) (locked : State)
    (s : State), s.phase = .running → TimerLaw s → UnitLaw s → 1 ≤ count.toNat → count.toNat ≤ 64 → (port s n).active = none →
    (port s n).attention = false → (s.units.get u).nodes.get n = true → (s.units.get u).state = .attached →
    ((s.units.get u).mode = .exclusive
      ∨ ((s.units.get u).mode = .firstWriter ∧ ∀ w : Node, (s.units.get u).writer = some w → w = n)) →
    a = { kind := .write, first := lba.toNat, count := count.toNat,
          effective := min count.toNat ((s.units.get u).capacity - lba.toNat), done := 0 } →
    locked = (if (s.units.get u).mode = .firstWriter ∧ (s.units.get u).writer = none then
      { s with
        units := s.units.modify u fun x => { x with writer := some n }
        ports := Per4.build fun m => if m ≠ n ∧ (s.units.get u).nodes.get m = true
          then { s.ports.get m with attention := true, sequential := none } else s.ports.get m }
      else s) →
    ((s.units.get u).capacity ≤ lba.toNat →
      exec (.write n lba count ⟨txn, together⟩) s
        = .next (portAnswered n txn .endOfMedium [] (commandEnded n a .endOfMedium locked)))
    ∧ (lba.toNat < (s.units.get u).capacity →
      exec (.write n lba count ⟨txn, together⟩) s = .next (portAnswered n txn .good []
        { locked with
          ports := locked.ports.modify n fun p =>
            { p with active := some a, slots := [], wait := .none, idleTimer := some p.idleTimeout } }))

/-- R116, R117, R126: a TAKE of a staged block answers GOOD with its data and CRC, without one NOT_READY, outside
READING NO_COMMAND; where the timer counts it restarts (in WRITING too: log 42). A delivery empties the slot and raises
the done count, and the READ goes on with its other staged block or its wait; the last one ends it: GOOD, or
END_OF_MEDIUM where the range passed the capacity. R141, R142: a midpoint delivery whose READ follows on the one before
it fetches the block after its range ahead (here the one block up to the capacity): a page, a FILLING record, an entry
and a FETCH call. That BLOCK_DELIVERED without a block being clocked out changes nothing is the model's choice
(log 3).
The status block of a transaction has 0 in bits 1 to 7 of its flags (log 54), and the transaction the SPI mode in force when
its chip select was asserted (R128, log 53). -/
def Obligations.TakeDeliversStagedBlock : Prop :=
  ∀ (n : Node) (txn : Byte) (p : Port) (s : State), s.phase = .running → TimerLaw s → p = port s n →
    (∀ (a : ActiveCommand) (x : Slot) (rest : List Slot), p.active = some a → a.kind = .read → p.slots = x :: rest →
      exec (.take n txn) s = .next { s with
      ports := s.ports.set n { p with
        idleTimer := some p.idleTimeout
        taking := some { lba := x.lba, live := true }
        clocking := p.opening.getD p.spiMode
        opening := none
        response := List.replicate 8 0xFF#8 ++ statusBlock p txn .good ++ (x.data ++ be16 (crc16 x.data).toNat) } })
    ∧ (∀ a : ActiveCommand, p.active = some a → a.kind = .read → p.slots = [] →
      exec (.take n txn) s = .next (portAnswered n txn .notReady [] s))
    ∧ (p.state = .idle ∨ p.state = .writeHeld ∨ p.state = .flushing →
      exec (.take n txn) s = .next (portAnswered n txn .noCommand [] s))
    ∧ (p.state = .writing → exec (.take n txn) s = .next { s with
      ports := s.ports.set n { p with
        idleTimer := some p.idleTimeout, taking := none,
        clocking := p.opening.getD p.spiMode, opening := none,
        response := List.replicate 8 0xFF#8 ++ statusBlock p txn .noCommand } })
    ∧ (∀ (a : ActiveCommand) (x : Slot) (k : Taking), p.active = some a → a.kind = .read → p.slots = [x] →
      p.taking = some k → k.live = true → a.done + 1 = a.effective → (a.done + 1 ≠ (a.effective + 1) / 2
        ∨ ∀ u : UnitId, (s.units.get u).window = 0) →
      exec (.blockDelivered n) s = .next (commandEnded n { a with done := a.done + 1 }
        (if a.effective = a.count then .good else .endOfMedium)
        { s with ports := s.ports.modify n fun q => { q with taking := none, slots := [] } }))
    ∧ (∀ (a : ActiveCommand) (x y : Slot) (k : Taking), p.active = some a → a.kind = .read → p.slots = [x, y] →
      p.taking = some k → k.live = true → a.done + 2 = a.effective → (a.done + 1 ≠ (a.effective + 1) / 2
        ∨ ∀ u : UnitId, (s.units.get u).window = 0) →
      exec (.blockDelivered n) s = .next { s with
        ports := s.ports.set n { p with taking := none, active := some { a with done := a.done + 1 }, slots := [y] } })
    ∧ (∀ (a : ActiveCommand) (x : Slot) (k : Taking), p.active = some a → a.kind = .read → p.slots = [x] →
      p.wait = .page → p.taking = some k → k.live = true → a.done + 1 < a.effective →
      (a.done + 1 ≠ (a.effective + 1) / 2 ∨ ∀ u : UnitId, (s.units.get u).window = 0) →
      exec (.blockDelivered n) s = .next { s with
        ports := s.ports.set n
          { p with taking := none, active := some { a with done := a.done + 1 }, slots := [], idleTimer := none } })
    ∧ (∀ (u : UnitId) (a : ActiveCommand) (x : Slot) (k : Taking) (i : Fin 16) (g : PageId), UnitLaw s →
      (s.units.get u).nodes.get n = true → p.active = some a → a.kind = .read → p.slots = [x] → p.taking = some k →
      k.live = true → a.done = 0 → a.effective = 1 → p.sequential = some a.first → (s.units.get u).window ≠ 0 →
      (s.units.get u).capacity = a.first + 2 → findBlock s u (a.first + 1) = none →
      5 ≤ (s.cache.fetches.toList.countP fun e => e.busy.isNone) → (s.cache.fetches[i]).busy = none →
      (∀ j : Fin 16, j < i → (s.cache.fetches[j]).busy ≠ none) → s.pool.owners[g] = none →
      (∀ h : PageId, h < g → s.pool.owners[h] ≠ none) → s.pool.held (.mh u) < (s.pool.caches.get u).reservation →
      exec (.blockDelivered n) s = .next (commandEnded n { a with done := 1 }
        (if a.effective = a.count then .good else .endOfMedium)
        { s with
          ports := s.ports.modify n fun q => { q with taking := none, slots := [] }
          pool := { s.pool with owners := s.pool.owners.set g.val (some (.mh u)) g.isLt }
          cache := { s.cache with
            directory := insertRecord
              { page := g, unit := u, lba := a.first + 1, state := .filling, age := 0, redirtied := false }
              s.cache.directory
            fetches := s.cache.fetches.set i.val
              { generation := (s.cache.fetches[i]).generation + 1
                busy := some { unit := u, first := a.first + 1, blocks := [.waiting], created := s.now } } i.isLt }
          link := { s.link with calls := s.link.calls ++ [.fetch i] } }))
    ∧ (p.taking = none → exec (.blockDelivered n) s = .next s)

/-- R119, R120: a complete GIVE is decided in the order of R119: no WRITE, the unit's store fault, every block staged
already, a failed CRC, no empty slot; while a block is held, the next one waits behind it in the other slot.
The status block has 0 in bits 1 to 7 of its flags (log 54). -/
def Obligations.GiveDecidedInOrder : Prop :=
  ∀ (n : Node) (u : UnitId) (txn : Byte) (data : List Byte) (crc : BitVec 16) (a : ActiveCommand) (given : State)
    (s : State), s.phase = .running → TimerLaw s → UnitLaw s → data.length = 512 →
    (s.units.get u).nodes.get n = true →
    given = { s with ports := s.ports.modify n fun p => { p with receiveBuffer := data } } →
    ((port s n).active = none ∨ (port s n).state = .reading ∨ (port s n).state = .flushing →
      exec (.give n txn data crc) s = .next (giveAnswered n txn .noCommand given))
    ∧ ((port s n).active = some a → a.kind = .write →
      ((s.units.get u).state = .storeFault →
        exec (.give n txn data crc) s = .next (giveAnswered n txn .writeFault (commandEnded n a .writeFault given)))
      ∧ ((s.units.get u).state ≠ .storeFault → a.effective ≤ a.done + (port s n).slots.length →
        exec (.give n txn data crc) s = .next (giveAnswered n txn .noCommand given))
      ∧ ((s.units.get u).state ≠ .storeFault → a.done + (port s n).slots.length < a.effective →
        (crc ≠ crc16 data →
          exec (.give n txn data crc) s = .next (giveAnswered n txn .dataCrc (commandEnded n a .dataCrc
            { given with ports := given.ports.modify n fun p => { p with dataCrcErrors := p.dataCrcErrors + 1 } })))
        ∧ (crc = crc16 data → 2 ≤ (port s n).slots.length →
          exec (.give n txn data crc) s = .next (giveAnswered n txn .overrun (commandEnded n a .overrun given)))
        ∧ (crc = crc16 data → (port s n).slots.length < 2 → (port s n).wait = .cache →
          exec (.give n txn data crc) s = .next (giveAnswered n txn .good
            { given with
          ports := given.ports.modify n fun p => { p with
            slots :=
              p.slots ++ [{ lba := a.first + a.done + p.slots.length, data := data }] } }))))

/-- R119, R120, R143, R147: a GIVE of the only block left, whose LBA's page is DIRTY, writes the page's 512 bytes in
place and ends the WRITE; one whose page is CLEAN makes it DIRTY and, with a free store entry and no other dirty page, a
store is issued for it at once: the page is STORING, the lowest free entry is taken with its generation advanced, and a
STORE call is queued. The status block has 0 in bits 1 to 7 of its flags (log 54). -/
def Obligations.GivenBlockReachesCache : Prop :=
  ∀ (n : Node) (u : UnitId) (txn : Byte) (data : List Byte) (a : ActiveCommand) (r : DirRecord) (s : State),
    s.phase = .running → TimerLaw s → UnitLaw s → data.length = 512 → (s.units.get u).nodes.get n = true →
    (s.units.get u).state = .attached → (port s n).active = some a → a.kind = .write → a.done + 1 = a.effective →
    (port s n).slots = [] → (port s n).wait = .none → findBlock s u (a.first + a.done) = some r →
    n ∉ s.cache.entryWait → (∀ x ∈ s.cache.directory, x.page = r.page → x = r) →
    (r.state = .dirty → (∀ j : Fin 8, (s.cache.stores[j]).busy ≠ none) →
      exec (.give n txn data (crc16 data)) s = .next (giveAnswered n txn .good
        (commandEnded n { a with done := a.done + 1 } (if a.effective = a.count then .good else .endOfMedium)
          { s with
            ram := Memory.write ramDefault s.ram (512 * r.page.val) data
            ports := s.ports.modify n fun p => { p with receiveBuffer := data } })))
    ∧ (∀ i : Fin 8, r.state = .clean → dirtyCount s u < (s.units.get u).dirtyLimit →
      (∀ v : UnitId, s.cache.dirty.get v = []) → (s.cache.stores[i]).busy = none → (∀ j : Fin 8, j < i → (s.cache.stores[j]).busy ≠ none) →
      ∃ t, exec (.give n txn data (crc16 data)) s = .next t
        ∧ t.ram = Memory.write ramDefault s.ram (512 * r.page.val) data
        ∧ t.cache.directory = s.cache.directory.map (fun x => if x.page = r.page
            then { x with state := .storing, redirtied := false } else x)
        ∧ t.cache.stores = s.cache.stores.set i.val
            { generation := (s.cache.stores[i]).generation + 1,
              busy := some { unit := u, lba := r.lba, page := r.page, created := s.now } } i.isLt
        ∧ t.cache.dirty = s.cache.dirty ∧ t.cache.fetches = s.cache.fetches
        ∧ t.link = { s.link with calls := s.link.calls ++ [.store i] }
        ∧ (t.ports.get n).active = none ∧ (t.ports.get n).lastCount = a.done + 1
        ∧ (∀ m : Node, m ≠ n → t.ports.get m = s.ports.get m)
        ∧ t.pool = s.pool ∧ t.units = s.units ∧ t.consoles = s.consoles ∧ t.lines = s.lines ∧ t.power = s.power
        ∧ t.boot = s.boot ∧ t.loader = s.loader)

/-- R110, R122 to R126, R200: the port's other transactions and events: STATUS and SENSE change nothing, ACK CHANGE clears
attention, ABORT and the idle timer end an active command, FLUSH ends at once without DIRTY or STORING pages and waits
otherwise (its first LBA and counts are 0: log 44), a bad command block and a short transaction are counted, and a
GIVE's command block restarts the timer; a transaction ends the one before it, and MISO carries 0xFF where the port has
nothing to send and is released while chip select is deasserted. Bit by bit, most significant first, the node that clocks
in the mode of the transaction samples what MISO carries, and the port takes what is on MOSI, at each rising edge, in
either mode (log 53): a transaction of fewer than 64 bits is a short one, any other the command of its block, a GIVE of 514
more bytes its GIVE, a TAKE of 531 bytes a delivery too; bytes beyond these are ignored. A well-formed command block is the command of its code
with its LBA, count and transaction number (that a WRITE's block does not say whether it came together with another is
log 39's); a wrong CRC-8 or code, or a READ or WRITE count outside 1 to 64, is BAD_COMMAND.
R128: MEDIA PORT CONFIG sets mode and idle timeout (KEEP and 0 keep them, the timeout is clamped), a running timer
keeps its length, and the reply carries them with the port's snapshot; a new mode applies from the next assertion of chip
select, and a transaction whose command block is coming in keeps the old one (log 53). The fields of the reply stand as
log 11 reads R199, with the codes of log 32. The status block of a transaction has 0 in bits 1 to 7 of its flags (log 54),
and the transaction the SPI mode in force when its chip select was asserted. -/
def Obligations.PortStatusEndingsAndSettings : Prop :=
  (∀ (n : Node) (txn : Byte) (block : List Byte) (s : State), s.phase = .running → TimerLaw s → UnitLaw s →
    exec (.status n txn) s = .next (portAnswered n txn .good [] s)
    ∧ exec (.sense n txn) s = .next (portAnswered n txn .good
        (senseRecord (unitOf s n).isSome (match unitOf s n with | some u => (s.units.get u).capacity | none => 0)
          (writePermission s n == .good) (port s n).attention) s)
    ∧ exec (.ackChange n txn) s = .next (portAnswered n txn .good []
        { s with ports := s.ports.modify n fun p => { p with attention := false } })
    ∧ ((port s n).active = none → exec (.abort n txn) s = .next (portAnswered n txn .noCommand [] s))
    ∧ (∀ a : ActiveCommand, (port s n).active = some a →
      exec (.abort n txn) s = .next (portAnswered n txn .good [] (commandEnded n a .aborted s)))
    ∧ (∀ a : ActiveCommand, (port s n).active = some a → (port s n).idleTimer ≠ none →
      exec (.idleTimeout n) s = .next (commandEnded n a .timeout s))
    ∧ (∀ u : UnitId, (port s n).active = none → (s.units.get u).nodes.get n = true →
      (s.units.get u).state = .attached →
      (dirtyCount s u = 0 → exec (.flush n txn) s
        = .next (portAnswered n txn .good [] (commandEnded n flushCommand .good s)))
      ∧ (0 < dirtyCount s u → exec (.flush n txn) s = .next (portAnswered n txn .good []
        { s with
          ports := s.ports.modify n fun p =>
            { p with active := some flushCommand, slots := [], wait := .none, idleTimer := none } })))
    ∧ (block.length = 8 → isBadBlock block = true →
      exec (.badCommand n block) s = .next (portAnswered n (block.getD 6 0#8) .badCommand []
        { s with ports := s.ports.modify n fun p => { p with badCommands := p.badCommands + 1 } }))
    ∧ exec (.shortTransaction n) s = .next
        { s with
          ports := s.ports.modify n fun p => { p with
            shortTransactions := p.shortTransactions + 1, taking := none, response := List.replicate 8 0xFF#8,
            clocking := p.opening.getD p.spiMode, opening := none } }
    ∧ exec (.giveCommandBlock n) s = .next { s with
      ports := s.ports.modify n fun p => { p with
        taking := none, idleTimer := if p.idleTimer.isSome then some p.idleTimeout else none,
        response := List.replicate (8 + 514) 0xFF#8, clocking := p.opening.getD p.spiMode, opening := none } }
    ∧ (∀ i : Nat, s.miso n false i = none ∧ s.miso n true i = some ((port s n).response.getD i 0xFF#8))
    ∧ s.misoPin n none = .released
    ∧ (∀ (bits : List Bool) (i : Nat), i < bits.length →
      s.misoPin n (some ((nodeClocks (port s n).clocking bits).take (2 * i + 3)))
        = if ((port s n).response.getD (i / 8) 0xFF#8).getMsbD (i % 8) then .drivenHigh else .drivenLow))
  ∧ (∀ (n : Node) (together : Bool) (mode : Nat) (txn : Byte) (data block rest : List Byte) (bits : List Bool),
    block.length = 8 → data.length = 512 →
    (bits.length < 64 →
      transactionCommands n together (spiBytes (mosiBits (nodeClocks mode bits))) = [.shortTransaction n])
    ∧ (∀ c : Instr, blockCommand n together block = some c → c ≠ .giveCommandBlock n →
      (∀ k : Byte, c = .take n k → (block ++ rest).length < 531) →
      transactionCommands n together (spiBytes (mosiBits (nodeClocks mode ((block ++ rest).flatMap spiBits)))) = [c])
    ∧ (blockCommand n together block = some (.take n txn) → 531 ≤ (block ++ rest).length →
      transactionCommands n together (spiBytes (mosiBits (nodeClocks mode ((block ++ rest).flatMap spiBits))))
        = [.take n txn, .blockDelivered n])
    ∧ (∀ given : BitVec 16, blockCommand n together block = some (.giveCommandBlock n) →
      transactionCommands n together (spiBytes (mosiBits (nodeClocks mode
          ((block ++ (data ++ be16 given.toNat) ++ rest).flatMap spiBits))))
        = [.giveCommandBlock n, .give n (block.getD 6 0#8) data given]))
  ∧ (∀ (n : Node) (together : Bool) (code count txn crc : Byte) (lba : Word) (block : List Byte),
    block = code :: (word32 lba ++ [count, txn]) →
    (crc = crc8 block → (code = 1#8 ∨ code = 2#8 → 1 ≤ count.toNat ∧ count.toNat ≤ 64) →
      (code = 1#8 → blockCommand n together (block ++ [crc]) = some (.read n lba count txn))
      ∧ (code = 2#8 → blockCommand n together (block ++ [crc]) = some (.write n lba count ⟨txn, together⟩))
      ∧ (code = 3#8 → blockCommand n together (block ++ [crc]) = some (.take n txn))
      ∧ (code = 4#8 → blockCommand n together (block ++ [crc]) = some (.giveCommandBlock n))
      ∧ (code = 5#8 → blockCommand n together (block ++ [crc]) = some (.status n txn))
      ∧ (code = 6#8 → blockCommand n together (block ++ [crc]) = some (.sense n txn))
      ∧ (code = 7#8 → blockCommand n together (block ++ [crc]) = some (.flush n txn))
      ∧ (code = 8#8 → blockCommand n together (block ++ [crc]) = some (.ackChange n txn))
      ∧ (code = 9#8 → blockCommand n together (block ++ [crc]) = some (.abort n txn)))
    ∧ (crc ≠ crc8 block ∨ code = 0#8 ∨ 9 < code.toNat
        ∨ (code = 1#8 ∨ code = 2#8) ∧ (count = 0#8 ∨ 64 < count.toNat) →
      blockCommand n together (block ++ [crc]) = some (.badCommand n (block ++ [crc]))))
  ∧ (∀ (n : Node) (tag : Tag) (b mode t0 t1 : Byte) (midBlock : Bool) (k : Nat) (p : Port) (s : State), RequestReady s →
    TimerLaw s →
    b.toNat = n.val → (mode = 0#8 ∧ k = 0 ∨ mode = 3#8 ∧ k = 3 ∨ mode = 0xFF#8 ∧ k = (port s n).spiMode) →
    p = { port s n with
      spiMode := k
      opening := if midBlock = true ∧ k ≠ (port s n).spiMode then some ((port s n).opening.getD (port s n).spiMode)
        else (port s n).opening
      idleTimeout := if u16 t0 t1 = 0 then (port s n).idleTimeout else max 100 (min 10000 (u16 t0 t1)) } →
    exec (.mediaPortConfig tag ⟨[b, mode, t0, t1], midBlock⟩) s = .next (answered { s with ports := s.ports.set n p }
      (replyTo tag 0x53#8 .done
        (be8 k ++ be16 p.idleTimeout ++ be8 (portStateCode p.state) ++ optional 9 (p.active.map (activeReport p))
          ++ be8 (waitCode p.wait) ++ [flagByte p.attention] ++ be8 (statusCode p.lastStatus) ++ be8 p.lastCount
          ++ [flagByte (unitOf s n).isSome] ++ word32 p.shortTransactions ++ word32 p.badCommands
          ++ word32 p.dataCrcErrors))))

/-! ## The cache (08) -/

/-- R137, R144: a FILL for a WAITING block: its page takes the 512 bytes and is CLEAN with age 0, the block is RECEIVED,
the entry is freed (and an unsent call withdrawn) once every block is RECEIVED, and the one port that waits for this last
block of its READ has it in its slot; for an OVERTAKEN block only the entry changes. No write is held, no page waits to
be stored and no port waits for an entry. -/
def Obligations.FillMakesPageClean : Prop :=
  ∀ (i : Fin 16) (f : Fetch) (tag : Tag) (lba : Word) (data : List Byte) (e : FetchEntry) (calls : List Call) (s : State),
    s.phase = .running → frameBuffer s.link ≠ none → data.length = 512 → (s.cache.fetches[i]).busy = some f →
    tag.toNat = (s.cache.fetches[i]).generation.toNat * 256 + i.val → f.first ≤ lba.toNat → s.cache.entryWait = [] →
    e = { s.cache.fetches[i] with
      busy := if (f.blocks.set (lba.toNat - f.first) .received).all (fun b => b == .received) then none
        else some { f with blocks := f.blocks.set (lba.toNat - f.first) .received } } →
    calls = (if e.busy = none then s.link.calls.filter (fun x => x != .fetch i) else s.link.calls) →
    (∀ (r : DirRecord) (filled : State), f.blocks[lba.toNat - f.first]? = some .waiting → NothingHeld s →
      findBlock s f.unit lba.toNat = some r → (∀ x ∈ s.cache.directory, x.page = r.page → x = r) →
      filled = { s with
        ram := Memory.write ramDefault s.ram (512 * r.page.val) data
        cache := { s.cache with
          directory := s.cache.directory.map fun x => if x.page = r.page then { x with state := .clean, age := 0 } else x
          fetches := s.cache.fetches.set i.val e i.isLt }
        link := { s.link with receiver := none, calls := calls } } →
      ((∀ n : Node, (port s n).wait ≠ .page) → exec (.fill tag lba data) s = .next filled)
      ∧ (∀ (n : Node) (a : ActiveCommand), MemoryLaw s → UnitLaw s → (s.units.get f.unit).nodes.get n = true →
        (port s n).active = some a → a.kind = .read → (port s n).wait = .page →
        lba.toNat = a.first + a.done + (port s n).slots.length → lba.toNat + 1 = a.first + a.effective →
        (∀ m : Node, m ≠ n → (port s m).wait ≠ .page) →
        exec (.fill tag lba data) s = .next { filled with
          ports := s.ports.modify n fun p => { p with
            slots := p.slots ++ [{ lba := lba.toNat, data := data }], wait := .none,
            idleTimer := some (p.idleTimer.getD p.idleTimeout) } }))
    ∧ (f.blocks[lba.toNat - f.first]? = some .overtaken →
      exec (.fill tag lba data) s = .next { s with
        cache := { s.cache with fetches := s.cache.fetches.set i.val e i.isLt }
        link := { s.link with receiver := none, calls := calls } })

/-- R138, R139: a FETCH FAILED and a fetch entry's timeout end the fetch: the pages of its WAITING blocks are freed with
their records, the entry too, the READs that wait on those blocks end with MEDIUM_ERROR, and the unit's failure or
timeout counter rises, a timeout with a UNIT STATE notice. No write is held, no page waits to be stored and no port waits
for an entry. -/
def Obligations.FetchFailureEndsWaitingPorts : Prop :=
  ∀ (i : Fin 16) (f : Fetch) (tag : Tag) (timedOut : Bool) (c : Instr) (x : MediaUnit) (s : State),
    s.phase = .running → PoolLaw s → CacheLaw s → NothingHeld s → s.cache.entryWait = [] →
    (s.cache.fetches[i]).busy = some f → x = s.units.get f.unit →
    ((timedOut = true ∧ c = .fetchTimeout i)
      ∨ (timedOut = false ∧ c = .fetchFailed tag ∧ frameBuffer s.link ≠ none
          ∧ tag.toNat = (s.cache.fetches[i]).generation.toNat * 256 + i.val)) →
    ∃ t, exec c s = .next t
      ∧ t.cache.directory = s.cache.directory.filter (fun r =>
          !(r.unit == f.unit && decide (f.first ≤ r.lba) && f.blocks[r.lba - f.first]? == some .waiting))
      ∧ (∀ p : PageId, t.pool.owners[p] = if ∃ r ∈ s.cache.directory, r.page = p ∧ r.unit = f.unit ∧ f.first ≤ r.lba
          ∧ f.blocks[r.lba - f.first]? = some .waiting then none else s.pool.owners[p])
      ∧ t.cache.fetches = s.cache.fetches.set i.val { s.cache.fetches[i] with busy := none } i.isLt
      ∧ t.cache.stores = s.cache.stores ∧ t.cache.dirty = s.cache.dirty
      ∧ (∀ (n : Node) (a : ActiveCommand), (port s n).active = some a → a.kind = .read → (port s n).wait = .page →
          x.nodes.get n = true → f.first ≤ nextBlock a (port s n) →
          f.blocks[nextBlock a (port s n) - f.first]? = some .waiting →
          port t n = endedPort (port s n) a .mediumError)
      ∧ (∀ n : Node, ((port s n).wait ≠ .page ∨ x.nodes.get n = false) → port t n = port s n)
      ∧ t.units = s.units.set f.unit (if timedOut then { x with fetchTimeouts := x.fetchTimeouts + 1 }
          else { x with fetchFailures := x.fetchFailures + 1 })
      ∧ t.link = (if timedOut then
            ({ s.link with calls := s.link.calls.filter (fun k => k != .fetch i) } : Link).addNotice
              (.unitState f.unit x.state .fetchTimeout (x.fetchTimeouts + 1) x.consecutive)
          else { s.link with receiver := none, calls := s.link.calls.filter (fun k => k != .fetch i) })
      ∧ t.ram = s.ram ∧ t.consoles = s.consoles ∧ t.lines = s.lines ∧ t.power = s.power ∧ t.boot = s.boot
      ∧ t.loader = s.loader

/-- R103, R104, R122, R147 to R149, R151: a STORED for a page that was not written again makes it CLEAN with age 0, sets
the unit's consecutive failures to 0, and ends its nodes' FLUSHes where it was the last; for one that was, the page is
stored again under the next generation. A STORE FAILED and a store's timeout return the page to DIRTY: it is stored
again, or at the third failure in a row the unit is in STORE_FAULT, with its notice, and its nodes' FLUSHes end with
WRITE_FAULT. R101, R102: of a DRAINING unit, a STORED counts a page stored (one written again is not counted: log 29);
the one that leaves no DIRTY or STORING page ends the drain: every page and record is freed, the unit is DETACHED (its
other fields: log 13), and the deferred reply DONE and the UNIT STATE notice are queued; the third failure in a row
answers the drain UNIT_FAULTED with the pages stored and left, and the unit keeps them. An aging tick makes every
CLEAN page older, up to 255, and restarts the timer. The fields of both replies, the page counts in four bytes, stand
as log 11 reads R199. -/
def Obligations.StoresEndAndPagesAge : Prop :=
  (∀ (i : Fin 8) (y : Store) (r : DirRecord) (x : MediaUnit) (tag : Tag) (again : StoreEntry) (s : State),
    s.phase = .running → (s.cache.stores[i]).busy = some y → (∀ j : Fin 8, j < i → (s.cache.stores[j]).busy ≠ none) →
    r ∈ s.cache.directory → r.page = y.page → r.unit = y.unit → r.lba = y.lba → r.state = .storing →
    (s.cache.directory.map fun z => z.page).Nodup → x = s.units.get r.unit → x.state = .attached →
    x.consecutive ≤ 2 → NothingHeld s → UnitLaw s →
    again = { generation := (s.cache.stores[i]).generation + 1,
              busy := some { unit := r.unit, lba := r.lba, page := r.page, created := s.now } } →
    (∀ c : Instr, c = .stored tag → frameBuffer s.link ≠ none →
      tag.toNat = (s.cache.stores[i]).generation.toNat * 256 + (16 + i.val) →
      (r.redirtied = false → ∃ t, exec c s = .next t
        ∧ t.cache = { s.cache with
            directory := s.cache.directory.map fun z => if z.page = r.page then { z with state := .clean, age := 0 } else z
            stores := s.cache.stores.set i.val { s.cache.stores[i] with busy := none } i.isLt
            entryWait := t.cache.entryWait }
        ∧ t.units = s.units.set r.unit { x with consecutive := 0 }
        ∧ t.link = { s.link with receiver := none, calls := s.link.calls.filter (fun k => k != .store i) }
        ∧ (∀ n : Node, port t n = match (port s n).active with
            | some a => if a.kind = .flush ∧ x.nodes.get n = true ∧ dirtyCount s r.unit = 1
                then endedPort (port s n) a .good else port s n
            | none => port s n)
        ∧ t.ram = s.ram ∧ t.pool = s.pool ∧ t.consoles = s.consoles ∧ t.lines = s.lines ∧ t.boot = s.boot)
      ∧ (r.redirtied = true → exec c s = .next { s with
          cache := { s.cache with
            directory := s.cache.directory.map fun z => if z.page = r.page then { z with redirtied := false } else z
            joins := s.cache.joins + 1
            stores := s.cache.stores.set i.val again i.isLt }
          units := s.units.set r.unit { x with consecutive := 0 }
          link := { s.link with
            receiver := none, calls := s.link.calls.filter (fun k => k != .store i) ++ [.store i] } }))
    ∧ (∀ (c : Instr) (link : Link),
      ((c = .storeTimeout i ∧ link = s.link)
        ∨ (c = .storeFailed tag ∧ frameBuffer s.link ≠ none ∧ link = { s.link with receiver := none }
            ∧ tag.toNat = (s.cache.stores[i]).generation.toNat * 256 + (16 + i.val))) →
      (x.consecutive < 2 → exec c s = .next { s with
        cache := { s.cache with
          directory := s.cache.directory.map fun z => if z.page = r.page then { z with redirtied := false } else z
          joins := s.cache.joins + 1
          stores := s.cache.stores.set i.val again i.isLt }
        units := s.units.set r.unit { x with storeFailures := x.storeFailures + 1, consecutive := x.consecutive + 1 }
        link := { link with calls := s.link.calls.filter (fun k => k != .store i) ++ [.store i] } })
      ∧ (x.consecutive = 2 → x.detachTag = none → ∃ t, exec c s = .next t
        ∧ t.cache.directory = s.cache.directory.map (fun z => if z.page = r.page
            then { z with state := .dirty, redirtied := false } else z)
        ∧ t.cache.dirty = s.cache.dirty.set r.unit [{ page := r.page, moment := s.cache.joins }]
        ∧ t.cache.stores = s.cache.stores.set i.val { s.cache.stores[i] with busy := none } i.isLt
        ∧ t.units = s.units.set r.unit
            { x with state := .storeFault, storeFailures := x.storeFailures + 1, consecutive := 3 }
        ∧ t.link = ({ link with calls := s.link.calls.filter (fun k => k != .store i) } : Link).addNotice
            (.unitState r.unit .storeFault .storeFault x.fetchTimeouts 3)
        ∧ (∀ n : Node, port t n = match (port s n).active with
            | some a => if a.kind = .flush ∧ x.nodes.get n = true
                then endedPort (port s n) a .writeFault else port s n
            | none => port s n)
        ∧ t.cache.fetches = s.cache.fetches ∧ t.ram = s.ram ∧ t.pool = s.pool ∧ t.consoles = s.consoles)))
  ∧ (∀ (i : Fin 8) (y : Store) (r : DirRecord) (x : MediaUnit) (tag old : Tag) (freed : StoreEntry) (calls : List Call)
    (s : State), s.phase = .running → (s.cache.stores[i]).busy = some y →
    (∀ j : Fin 8, j < i → (s.cache.stores[j]).busy ≠ none) → r ∈ s.cache.directory → r.page = y.page →
    r.unit = y.unit → r.lba = y.lba → r.state = .storing → (s.cache.directory.map fun z => z.page).Nodup →
    x = s.units.get r.unit → x.state = .draining → x.detachTag = some old → x.consecutive ≤ 2 → NothingHeld s →
    UnitLaw s → freed = { s.cache.stores[i] with busy := none } →
    calls = s.link.calls.filter (fun k => k != .store i) →
    (frameBuffer s.link ≠ none → tag.toNat = (s.cache.stores[i]).generation.toNat * 256 + (16 + i.val) →
      (r.redirtied = false → dirtyCount s r.unit = 1 → ∃ t, exec (.stored tag) s = .next t
        ∧ t.units = s.units.set r.unit { resetUnit with
            storeFailures := x.storeFailures, fetchFailures := x.fetchFailures, fetchTimeouts := x.fetchTimeouts }
        ∧ (∀ p : PageId, t.pool.owners[p]
            = if s.pool.owners[p] = some (.mh r.unit) then none else s.pool.owners[p])
        ∧ t.cache.directory = s.cache.directory.filter (fun z => z.unit != r.unit)
        ∧ t.cache.stores = s.cache.stores.set i.val freed i.isLt ∧ t.cache.dirty = s.cache.dirty
        ∧ t.cache.fetches = s.cache.fetches
        ∧ t.link = (({ s.link with receiver := none, calls := calls } : Link).addReply
            (replyTo old 0x51#8 .done (be8 r.unit.val ++ be32 (x.stored + 1)))).addNotice
              (.unitState r.unit .detached .drained x.fetchTimeouts 0)
        ∧ t.ports = s.ports ∧ t.ram = s.ram ∧ t.consoles = s.consoles ∧ t.lines = s.lines ∧ t.boot = s.boot)
      ∧ (r.redirtied = false → 2 ≤ dirtyCount s r.unit → exec (.stored tag) s = .next { s with
          cache := { s.cache with
            directory := s.cache.directory.map fun z => if z.page = r.page then { z with state := .clean, age := 0 } else z
            stores := s.cache.stores.set i.val freed i.isLt }
          units := s.units.set r.unit { x with consecutive := 0, stored := x.stored + 1 }
          link := { s.link with receiver := none, calls := calls } })
      ∧ (r.redirtied = true → exec (.stored tag) s = .next { s with
          cache := { s.cache with
            directory := s.cache.directory.map fun z => if z.page = r.page then { z with redirtied := false } else z
            joins := s.cache.joins + 1
            stores := s.cache.stores.set i.val
              { generation := freed.generation + 1
                busy := some { unit := r.unit, lba := r.lba, page := r.page, created := s.now } } i.isLt }
          units := s.units.set r.unit { x with consecutive := 0 }
          link := { s.link with receiver := none, calls := calls ++ [.store i] } }))
    ∧ (x.consecutive = 2 → ∃ t, exec (.storeTimeout i) s = .next t
        ∧ t.cache.directory = s.cache.directory.map (fun z => if z.page = r.page
            then { z with state := .dirty, redirtied := false } else z)
        ∧ t.cache.dirty = s.cache.dirty.set r.unit [{ page := r.page, moment := s.cache.joins }]
        ∧ t.cache.stores = s.cache.stores.set i.val freed i.isLt
        ∧ t.units = s.units.set r.unit
            { x with state := .storeFault, detachTag := none, storeFailures := x.storeFailures + 1, consecutive := 3 }
        ∧ t.link = (({ s.link with calls := calls } : Link).addReply (replyTo old 0x51#8 .unitFaulted
            (be8 r.unit.val ++ be32 x.stored ++ be32 (dirtyCount s r.unit)))).addNotice
              (.unitState r.unit .storeFault .storeFault x.fetchTimeouts 3)
        ∧ t.cache.fetches = s.cache.fetches ∧ t.ports = s.ports ∧ t.ram = s.ram ∧ t.pool = s.pool
        ∧ t.consoles = s.consoles))
  ∧ (∀ s : State, s.phase = .running → exec .agingTick s = .next { s with
      cache := { s.cache with
        directory := s.cache.directory.map fun r => if r.state = .clean then { r with age := min 255 (r.age + 1) } else r
        agingRemaining := s.pool.agingTick * 1000 } })

/-! ## Boot supervision (09) -/

/-- R154, R158, R170: PATTERN SET replaces one entry whole, its stage clamped, and clears that entry's partial match
for every node; an index, flag, mask, kind or literal length out of range, or a literal of another length, is refused.
BOOT POLICY replaces a node's policy, clamped; the attempts are cut to the new limit, a running deadline keeps its
time, and a WATCHING supervisor at or above the new final stage goes COMPLETE with a BOOT PROGRESS and no mark. BOOT
REARM is BUSY while RECOVERING; otherwise the attempts are 0, the last failure none, BOOT_SELECT is released, and the
supervisor arms, or is IDLE where the node is OFF. That an enabled flag above 1 is refused is
log 32's reading, not a refusal of R154's list. The fields of the reply stand as log 11 reads R199. -/
def Obligations.BootRequestsSetPatternPolicyAndArm : Prop :=
  (∀ (i : Fin 16) (m : Per4 Bool) (tag : Tag) (b enabled mask kind stage len : Byte) (literal : List Byte) (p : Pattern)
    (s : State), RequestReady s → b.toNat = i.val → (enabled = 0#8 ∨ enabled = 1#8) → mask.toNat < 16 →
    (∀ n : Node, m.get n = mask.getLsbD n.val) → (kind = 0#8 ∨ kind = 1#8) → 1 ≤ len.toNat → len.toNat ≤ 24 →
    literal.length = len.toNat →
    p = { enabled := enabled == 1#8, nodes := m, literal := literal, isFail := kind == 1#8,
          stage := max 1 (min 6 stage.toNat) } →
    exec (.patternSet tag (b :: enabled :: mask :: kind :: stage :: len :: literal)) s = .next (answered
      { s with
      boot := { s.boot with
        patterns := s.boot.patterns.set i.val p i.isLt
        partials := s.boot.partials.map fun v => v.set i.val 0 i.isLt } }
      (replyTo tag 0x60#8 .done (b :: enabled :: mask :: kind :: be8 p.stage ++ len :: literal))))
  ∧ (∀ (tag : Tag) (b enabled mask kind stage len : Byte) (literal : List Byte) (s : State), RequestReady s →
    (16 ≤ b.toNat ∨ 2 ≤ enabled.toNat ∨ 16 ≤ mask.toNat ∨ 2 ≤ kind.toNat ∨ len = 0#8 ∨ 24 < len.toNat
      ∨ literal.length ≠ len.toNat) → literal.length ≤ 594 →
    exec (.patternSet tag (b :: enabled :: mask :: kind :: stage :: len :: literal)) s
      = .next (answered s (replyTo tag 0x60#8 .badRequest [])))
  ∧ (∀ (n : Node) (k : RecoveryPolicy) (tag : Tag) (b a0 a1 b0 b1 c0 c1 d0 d1 e0 e1 f0 f1 final kb limit m : Byte)
    (p : Policy) (v : Supervisor) (s : State), RequestReady s → b.toNat = n.val → kb.toNat = policyRecoveryCode k →
    p = { deadlines := ⟨min 3600 (u16 a0 a1), min 3600 (u16 b0 b1), min 3600 (u16 c0 c1), min 3600 (u16 d0 d1),
            min 3600 (u16 e0 e1), min 3600 (u16 f0 f1)⟩
          final := max 1 (min 6 final.toNat), recovery := k, limit := min 15 limit.toNat,
          fallbackFrom := min 15 m.toNat } →
    v = s.supervisor n →
    ((∀ j : Nat, v.state = .watching j → j < p.final) →
      exec (.bootPolicy tag [b, a0, a1, b0, b1, c0, c1, d0, d1, e0, e1, f0, f1, final, kb, limit, m]) s = .next (answered
        { s with
        boot := { s.boot with
          policy := s.boot.policy.set n p
          supervisor := s.boot.supervisor.set n { v with attempts := min v.attempts p.limit } } }
        (replyTo tag 0x61#8 .done (policyBytes p ++ be8 (supStateCode v.state)))))
    ∧ (∀ j : Nat, v.state = .watching j → p.final ≤ j → (∀ l : LineId, (s.line n l).owner ≠ .supervisor) →
      exec (.bootPolicy tag [b, a0, a1, b0, b1, c0, c1, d0, d1, e0, e1, f0, f1, final, kb, limit, m]) s = .next (answered
        { s with
          boot := { s.boot with
            policy := s.boot.policy.set n p
            supervisor := s.boot.supervisor.set n
              { v with state := .complete, deadline := none, attempts := 0, fallback := false } }
          link := s.link.addNotice (.bootProgress n .complete 0 false) }
        (replyTo tag 0x61#8 .done (policyBytes p ++ be8 2)))))
  ∧ (∀ (n : Node) (tag : Tag) (b : Byte) (d : Nat) (v : Supervisor) (freed s : State), RequestReady s → b.toNat = n.val →
    v = s.supervisor n → d = (s.boot.policy.get n).deadlines.l0 →
    ((∀ l : LineId, (s.line n l).owner ≠ .supervisor) ∧ freed = s
      ∨ ∃ l : LineId, (s.line n l).owner = .supervisor ∧ (∀ m : LineId, m < l → (s.line n m).owner ≠ .supervisor)
          ∧ freed = releaseLine n l s) →
    (∀ running : Bool, v.state = .recovering running →
      exec (.bootRearm tag [b]) s = .next (answered s (replyTo tag 0x62#8 .busy [])))
    ∧ ((∀ running : Bool, v.state ≠ .recovering running) →
      (s.powerState n = .off → exec (.bootRearm tag [b]) s = .next (answered
        { freed with
          boot := { s.boot with
          supervisor := s.boot.supervisor.set n
            { state := .idle, deadline := none, attempts := 0, fallback := false, lastFailure := none } }
          link := s.link.addNotice (.bootProgress n .idle 0 false) }
        (replyTo tag 0x62#8 .done [0#8, 0#8, 0#8, 0#8])))
      ∧ (s.powerState n ≠ .off → exec (.bootRearm tag [b]) s = .next (answered
        { freed with
          boot := { s.boot with
            supervisor := s.boot.supervisor.set n
              { state := .watching 0, deadline := if d = 0 then none else some (d * 1000), attempts := 0,
                fallback := false, lastFailure := none }
            partials := s.boot.partials.set n (Vector.replicate 16 0) }
          link := s.link.addNotice (.bootProgress n (.watching 0) 0 false) }
        (replyTo tag 0x62#8 .done [1#8, 1#8, 0#8, 0#8])))))

/-- R155: a matcher's length is the longest prefix of its literal, short of the whole, that ends the bytes received; one
byte keeps it so, and completes the entry exactly when the literal ends them. -/
def Obligations.MatcherKeepsLongestPrefix : Prop :=
  ∀ (literal text : List Byte) (b : Byte) (k j : Nat) (done : Bool), k < literal.length → literal.take k <:+ text →
    (∀ m : Nat, m < literal.length → literal.take m <:+ text → m ≤ k) → advanceMatch literal k b = (j, done) →
    j < literal.length ∧ literal.take j <:+ text ++ [b]
    ∧ (∀ m : Nat, m < literal.length → literal.take m <:+ text ++ [b] → m ≤ j)
    ∧ (done = true ↔ literal <:+ text ++ [b])

/-- R157, R161: a character that completes one STAGE entry j of a WATCHING(k) supervisor: with j at most k the
character's own effects stand alone; above k and below f the supervisor is in WATCHING(j) with the deadline dj, a
STAGE(j) mark at the offset after the byte and a BOOT PROGRESS; at or above f it is COMPLETE with 0 attempts and no
deadline. -/
def Obligations.StagesMoveTheSupervisor : Prop :=
  ∀ (n : Node) (data : Byte) (c : Console) (p : PageId) (i : Nat) (e : Fin 16) (k j d : Nat) (v : Supervisor)
    (stored_ s : State), s.phase = .running → c = s.consoles.get n → c.receiver = .receiving → c.settings.dataBits = 8 →
    c.settings.parity = .none → c.locate c.live = some (p, i) → (c.live + 1 - c.oldest).toNat ≠ 512 * c.pages.length →
    (c.flood = true ∨ c.count < c.settings.riseThreshold) → completedEntries s n data = [e] →
    (s.boot.patterns[e]).isFail = false → (s.boot.patterns[e]).stage = j → v = s.supervisor n → v.state = .watching k →
    (∀ l : LineId, (s.line n l).owner ≠ .supervisor) → d = (s.boot.policy.get n).deadlines.toList.getD j 0 →
    stored_ = { s with
      ram := Memory.write ramDefault s.ram (512 * p.val + i) [data]
      consoles := s.consoles.set n { c with receiver := .idle, live := c.live + 1, count := c.count + 1 }
      boot := { s.boot with partials := s.boot.partials.set n (Vector.ofFn fun x => (advanceEntry s n data x).1) } } →
    (j ≤ k → exec (.characterReceived n data true true) s = .next stored_)
    ∧ (k < j → j < (s.boot.policy.get n).final → exec (.characterReceived n data true true) s = .next { stored_ with
        consoles := stored_.consoles.modify n (Console.addMark (.stage j))
        boot := { stored_.boot with
        supervisor := s.boot.supervisor.set n
          { v with state := .watching j, deadline := if d = 0 then none else some (d * 1000) } }
        link := s.link.addNotice (.bootProgress n (.watching j) v.attempts v.fallback) })
    ∧ (k < j → (s.boot.policy.get n).final ≤ j → exec (.characterReceived n data true true) s = .next { stored_ with
        consoles := stored_.consoles.modify n (Console.addMark (.stage j))
        boot := { stored_.boot with
        supervisor := s.boot.supervisor.set n
          { v with state := .complete, deadline := none, attempts := 0, fallback := false } }
        link := s.link.addNotice (.bootProgress n .complete 0 false) })

/-- R162 to R165: a deadline that runs out puts a FAIL mark and records the cause; NOTIFY and a counter at the limit halt
with their RECOVERY notice; otherwise the counter rises and the recovery starts at once on an IDLE node (with its marks,
its line and the STARTED notice), waits in the slot behind a running action (BOOT_SELECT taken and ACTIVE first, where
the attempt reaches m and a unit serves the node), or is refused for want of its line. Nothing else changes. -/
def Obligations.DeadlineFailureFollowsPolicy : Prop :=
  ∀ (n : Node) (k left : Nat) (p : Policy) (v w : Supervisor) (s : State), s.phase = .running → v = s.supervisor n →
    v.state = .watching k → v.deadline = some left → p = s.boot.policy.get n →
    w = { v with deadline := none, lastFailure := some .deadline } →
    (p.recovery = .notify → exec (.deadline n) s = .next { s with
      consoles := s.consoles.modify n (Console.addMark (.fail none))
      boot := { s.boot with supervisor := s.boot.supervisor.set n { w with state := .halted } }
      link := s.link.addNotice (.recovery n .notified none v.attempts (some .deadline) v.fallback) })
    ∧ (p.recovery ≠ .notify → p.limit ≤ v.attempts → exec (.deadline n) s = .next { s with
      consoles := s.consoles.modify n (Console.addMark (.fail none))
      boot := { s.boot with supervisor := s.boot.supervisor.set n { w with state := .halted } }
      link := s.link.addNotice (.recovery n .limitReached none v.attempts (some .deadline) v.fallback) })
    ∧ (∀ l : LineId, p.recovery = .reset → v.attempts < p.limit → (p.fallbackFrom = 0 ∨ v.attempts + 1 < p.fallbackFrom) →
      lineOf s n .reset = some l → (s.line n l).owner = .none → s.powerState n ≠ .off → s.action n = none →
      exec (.deadline n) s = .next { s with
        consoles := s.consoles.modify n fun c =>
          ((c.addMark (.fail none)).addMark (.recovery .reset)).addMark .resetPulse
        lines := { s.lines with
          line := s.lines.line.modify n fun ls => ls.modify l fun x => { x with owner := .action n, driven := true } }
        power := { s.power with
        action := s.power.action.set n (some
          { kind := .reset, originator := .supervisor, state := .resetPulse, confirmed := s.powerState n != .unknown,
            lostConfirmation := false, escalate := false, escalated := false, timer := (s.power.timings.get n).reset,
            timings := s.power.timings.get n, held := some l }) }
        boot := { s.boot with
          supervisor := s.boot.supervisor.set n { w with state := .recovering true, attempts := v.attempts + 1 } }
        link := s.link.addNotice (.recovery n .started (some .reset) (v.attempts + 1) (some .deadline) v.fallback) })
    ∧ (∀ (a : Action) (l u : LineId) (x : UnitId), p.recovery = .cycle → v.attempts < p.limit → s.action n = some a →
      lineOf s n .powerButton = some u → p.fallbackFrom ≠ 0 → p.fallbackFrom ≤ v.attempts + 1 →
      (s.units.get x).nodes.get n = true → lineOf s n .bootSelect = some l → (s.line n l).owner = .none →
      exec (.deadline n) s = .next { s with
        consoles := s.consoles.modify n (Console.addMark (.fail none))
        lines := { s.lines with
          line := s.lines.line.modify n fun ls => ls.modify l fun y => { y with owner := .supervisor, driven := true } }
        power := { s.power with slot := s.power.slot.set n (some .cycle) }
        boot := { s.boot with
        supervisor := s.boot.supervisor.set n
          { w with state := .recovering false, attempts := v.attempts + 1, fallback := true } } })
    ∧ (p.recovery = .reset → v.attempts < p.limit → (p.fallbackFrom = 0 ∨ v.attempts + 1 < p.fallbackFrom) →
      lineOf s n .reset = none → exec (.deadline n) s = .next { s with
        consoles := s.consoles.modify n (Console.addMark (.fail none))
        boot := { s.boot with
          supervisor := s.boot.supervisor.set n { w with state := .halted, attempts := v.attempts + 1 } }
        link := s.link.addNotice
          (.recovery n .refused (some .reset) (v.attempts + 1) (some .deadline) v.fallback) })

/-! ## The management link (10) -/

/-- R175, R176, R182, R187, R188: each frame error counts in its own counter, frees the buffer and queues a LINK ERROR
with the counters; outside a frame it is ignored. A start byte inside a frame truncates it and starts a new one at
once; hunting, it takes the free buffer with the lowest number, and with none free it is an overrun. A malformed
answer is counted and reported. That these commands act only in a frame, and an overrun only when none is free, is the
model's choice (log 3, log 5). -/
def Obligations.FrameErrorsAreCountedAndReported : Prop :=
  ∀ (b : Byte) (len : BitVec 16) (kind : Byte) (tag : Tag) (body : List Byte) (failed : LinkCounters → State) (s : State),
    s.phase = .running → b ≠ 0x85#8 → b ≠ 0x86#8 → b ≠ 0xA5#8 → 600 < len.toNat →
    (∀ c : LinkCounters, failed c
      = { s with link := ({ s.link with receiver := none, counters := c } : Link).addNotice (.linkError c) }) →
    (s.link.receiver = none →
      exec .crcError s = .next s ∧ exec (.escapeError b) s = .next s ∧ exec (.lengthError len) s = .next s
      ∧ exec .byteFramingError s = .next s ∧ exec .truncatedFrame s = .next s)
    ∧ (s.link.receiver ≠ none →
      exec .crcError s = .next (failed { s.link.counters with crc := s.link.counters.crc + 1 })
      ∧ exec (.escapeError b) s = .next (failed { s.link.counters with escape := s.link.counters.escape + 1 })
      ∧ exec (.lengthError len) s = .next (failed { s.link.counters with length := s.link.counters.length + 1 })
      ∧ exec .byteFramingError s = .next (failed { s.link.counters with framing := s.link.counters.framing + 1 })
      ∧ exec .overrun s = .next s)
    ∧ (∀ (x : Fin 4) (t : State), s.link.receiver ≠ none → (∀ f ∈ s.link.inbox, f.buffer ≠ x) →
      (∀ y : Fin 4, y < x → ∃ f ∈ s.link.inbox, f.buffer = y) →
      t = failed { s.link.counters with truncated := s.link.counters.truncated + 1 } →
      exec .frameStart s = .next { t with link := { t.link with receiver := some x } }
      ∧ exec .truncatedFrame s = .next { t with link := { t.link with receiver := some x } })
    ∧ (∀ x : Fin 4, s.link.receiver = none → (∀ f ∈ s.link.inbox, f.buffer ≠ x) →
      (∀ y : Fin 4, y < x → ∃ f ∈ s.link.inbox, f.buffer = y) →
      exec .frameStart s = .next { s with link := { s.link with receiver := some x } } ∧ exec .overrun s = .next s)
    ∧ (s.link.receiver = none → (∀ x : Fin 4, ∃ f ∈ s.link.inbox, f.buffer = x) →
      exec .frameStart s = .next (failed { s.link.counters with overruns := s.link.counters.overruns + 1 })
      ∧ exec .overrun s = .next (failed { s.link.counters with overruns := s.link.counters.overruns + 1 }))
    ∧ (body.length ≤ 600 → (kind = 0x70#8 ∧ body.length ≠ 516 ∨ (kind = 0x71#8 ∨ kind = 0x72#8 ∨ kind = 0x73#8) ∧ body ≠ []) →
      frameBuffer s.link ≠ none → exec (.malformedAnswer kind tag body) s
        = .next (failed { s.link.counters with malformed := s.link.counters.malformed + 1 }))

/-- R137, R140, R182: an answer whose tag names no outstanding entry of its table with the entry's generation, and a FILL
outside its entry's blocks or for a RECEIVED one, is stray: counted and reported, and nothing else changes. -/
def Obligations.StrayAnswersChangeNothing : Prop :=
  ∀ (tag : Tag) (lba : Word) (data : List Byte) (t s : State), s.phase = .running → frameBuffer s.link ≠ none →
    data.length = 512 →
    t = { s with
    link := ({ s.link with
      receiver := none, counters := { s.link.counters with stray := s.link.counters.stray + 1 } } : Link).addNotice
        (.strayAnswer (s.link.counters.stray + 1)) } →
    ((∀ i : Fin 16, (s.cache.fetches[i]).busy ≠ none →
        tag.toNat ≠ (s.cache.fetches[i]).generation.toNat * 256 + i.val) →
      exec (.fill tag lba data) s = .next t ∧ exec (.fetchFailed tag) s = .next t)
    ∧ ((∀ i : Fin 8, (s.cache.stores[i]).busy ≠ none →
        tag.toNat ≠ (s.cache.stores[i]).generation.toNat * 256 + (16 + i.val)) →
      exec (.stored tag) s = .next t ∧ exec (.storeFailed tag) s = .next t)
    ∧ (∀ (i : Fin 16) (f : Fetch), (s.cache.fetches[i]).busy = some f →
      tag.toNat = (s.cache.fetches[i]).generation.toNat * 256 + i.val →
      (lba.toNat < f.first ∨ f.first + f.blocks.length ≤ lba.toNat
        ∨ f.blocks[lba.toNat - f.first]? = some .received) →
      exec (.fill tag lba data) s = .next t)

/-- R67, R174, R178, R181, R183 to R185: while a frame is on the wire or CTS is deasserted nothing starts. Otherwise
BULK goes where CONTROL does not wait or the run count has reached N, CONTROL else: the first reply (a waiting one moves
into its place), then the first notice; the first call, then the console data of the first node after the last one
served, up to 256 bytes from its cursor. The end of a frame frees the transmitter, and brings a LINK CONFIG's rate, or
RTS after START. No request waits and no START is unsent. That the level of CTS is kept is log 19's choice, and that
FRAME_SENT without a frame on the wire changes nothing log 3's. R57, R177: a CONSOLE STATUS that waits is taken when a
reply leaves its place, in the same step (log 6), and reports the level that its node's CTS pin has then (the reply's
layout and the level's code: logs 11 and 32). R174, R184: TX carries each byte of the frame on the wire as a low start bit,
its eight bits, the least significant first and byte after byte (log 52), and a high stop bit; between frames and until
loading ends it is high. -/
def Obligations.ArbiterChoosesByRatio : Prop :=
  (∀ (pins : ArbiterPins) (k : Link) (s : State), s.phase = .running → k = { s.link with cts := pins.cts } →
    s.link.inbox = [] → (∀ e ∈ s.link.notices, e.notice.isStart = false) →
    ((s.link.sending ≠ none ∨ pins.cts = .high
        ∨ (s.link.replies = [] ∧ s.link.notices = [] ∧ s.link.calls = []
            ∧ ∀ n : Node, (s.consoles.get n).hasBulk = false)) →
      exec (.arbiterChoice pins) s = .next { s with link := k })
    ∧ (s.link.sending = none → pins.cts = .low →
      ((s.link.runCount < s.link.ratio ∨ (s.link.calls = [] ∧ ∀ n : Node, (s.consoles.get n).hasBulk = false)) →
        (∀ (r : Reply) (rest : List Reply), s.link.replies = r :: rest → rest.length < 16 →
          exec (.arbiterChoice pins) s = .next { s with
          link := { k with
            replies := rest ++ s.link.waiting.take 1
            waiting := s.link.waiting.drop 1
            sending := some { wire := frameWire 0x80#8 r.tag r.body,
                              effect := match r.rate with | some x => .rate x | none => .none }
            runCount := min 15 (s.link.runCount + 1) } })
        ∧ (∀ (e : NoticeEntry) (rest : List NoticeEntry), s.link.replies = [] → s.link.notices = e :: rest →
          exec (.arbiterChoice pins) s = .next { s with
          link := { k with
            notices := rest
            sending := some { wire := frameWire (noticeKind e.notice) 0#16 (noticeBody e), effect := .none }
            runCount := min 15 (s.link.runCount + 1) } }))
      ∧ (((s.link.replies = [] ∧ s.link.notices = []) ∨ s.link.ratio ≤ s.link.runCount) →
        (∀ (i : Fin 16) (f : Fetch) (rest : List Call), s.link.calls = .fetch i :: rest →
          (s.cache.fetches[i]).busy = some f →
          exec (.arbiterChoice pins) s = .next { s with
          link := { k with
            calls := rest, runCount := 0
            sending := some ⟨frameWire 0xA0#8
              (BitVec.ofNat 16 ((s.cache.fetches[i]).generation.toNat * 256 + i.val))
              (be8 f.unit.val ++ be32 f.first ++ be8 f.blocks.length), .none⟩ } })
        ∧ (∀ (i : Fin 8) (x : Store) (rest : List Call), s.link.calls = .store i :: rest →
          (s.cache.stores[i]).busy = some x →
          exec (.arbiterChoice pins) s = .next { s with
          link := { k with
            calls := rest, runCount := 0
            sending := some ⟨frameWire 0xA1#8
              (BitVec.ofNat 16 ((s.cache.stores[i]).generation.toNat * 256 + (16 + i.val)))
              (be8 x.unit.val ++ be32 x.lba ++ (List.range 512).map fun j =>
                Memory.read ramDefault s.ram (512 * x.page.val + j)), .none⟩ } })
        ∧ (∀ (n : Node) (x : Word) (d count : Nat), s.link.calls = [] → (s.consoles.get n).hasBulk = true →
          (s.consoles.get n).cursor = some x → 1 ≤ d → d ≤ 4 → n = s.link.lastServed + Fin.ofNat 4 d →
          (∀ e : Nat, 1 ≤ e → e < d → (s.consoles.get (s.link.lastServed + Fin.ofNat 4 e)).hasBulk = false) →
          count = min 256 ((s.consoles.get n).live - x).toNat →
          exec (.arbiterChoice pins) s = .next { s with
            consoles := s.consoles.modify n fun c => { c with cursor := some (x + BitVec.ofNat 32 count) }
            link := { k with
              lastServed := n, runCount := 0
              sending := some ⟨frameWire 0xB0#8 0#16 (be8 n.val ++ word32 x
                ++ (List.range count).map fun j => historyByte s n (x + BitVec.ofNat 32 j)), .none⟩ } }))))
  ∧ (∀ (w : List Byte) (s : State), s.phase = .running →
    (s.link.sending = some { wire := w, effect := .none } →
      exec .frameSent s = .next { s with link := { s.link with sending := none } })
    ∧ (s.link.sending = some { wire := w, effect := .start } →
      exec .frameSent s = .next { s with link := { s.link with sending := none, rtsOn := true } })
    ∧ (∀ x : Nat, s.link.sending = some { wire := w, effect := .rate x } →
      exec .frameSent s = .next { s with link := { s.link with sending := none, lineBaud := x } })
    ∧ (s.link.sending = none → exec .frameSent s = .next s))
  ∧ (∀ (pins : ArbiterPins) (f : InFrame) (n : Node) (b : Byte) (r : Reply) (rest : List Reply) (s : State),
    s.phase = .running → s.link.inbox = [f] → f.kind = 0x35#8 → f.body = [b] → b.toNat = n.val →
    (∀ e ∈ s.link.notices, e.notice.isStart = false) → s.link.sending = none → pins.cts = .low →
    s.link.runCount < s.link.ratio → s.link.waiting = [] → s.link.replies = r :: rest → rest.length < 16 →
    exec (.arbiterChoice pins) s = .next { s with
      link := { s.link with
        cts := pins.cts
        inbox := []
        replies := rest ++ [replyTo f.tag 0x35#8 .done (consoleStatusDetails (s.consoles.get n) (pins.nodes.cts.get n))]
        sending := some { wire := frameWire 0x80#8 r.tag r.body,
                          effect := match r.rate with | some x => .rate x | none => .none }
        runCount := min 15 (s.link.runCount + 1) } })
  ∧ (∀ (x : Sending) (s : State), s.phase = .running → s.link.sending = some x →
    (∀ (i j : Nat) (b : Byte), x.wire[i]? = some b → j < 8 →
      s.linkTx (10 * i) = .low ∧ s.linkTx (10 * i + 1 + j) = (if b.getLsbD j then .high else .low)
        ∧ s.linkTx (10 * i + 9) = .high)
    ∧ (∀ i : Nat, 10 * x.wire.length ≤ i → s.linkTx i = .high))
  ∧ (∀ (i : Nat) (s : State), s.link.sending = none ∨ s.phase ≠ .running → s.linkTx i = .high)

/-- R174, R177, R185: LINK CONFIG sets baud and ratio, each clamped, 0 keeping it; the reply carries what R185 names
and takes the new rate with it, the line's rate staying; nothing else changes. A frame of any other kind is answered
UNKNOWN_KIND with the kind received, and changes nothing. The reply lists the eight counters, and its rate comes with
the end of its frame (log 11). -/
def Obligations.LinkConfigAppliesWithItsReply : Prop :=
  (∀ (tag : Tag) (b0 b1 b2 b3 rb : Byte) (baud ratio div : Nat) (c : LinkCounters) (s : State), RequestReady s →
    c = s.link.counters →
    baud = (if u32 b0 b1 b2 b3 = 0 then s.link.baud else max 115200 (min 12000000 (u32 b0 b1 b2 b3))) →
    ratio = (if rb = 0#8 then s.link.ratio else min 15 rb.toNat) →
    div = max 1 (min 104 ((2 * 48000000 + 4 * baud) / (8 * baud))) →
    exec (.linkConfig tag [b0, b1, b2, b3, rb]) s = .next { s with
      link := { s.link with
        receiver := none, baud := baud, ratio := ratio
        replies := s.link.replies ++ [{ tag := tag, rate := some baud, body := 0x02#8 :: 0x00#8 ::
          (be32 baud ++ be8 div ++ be32 (48000000 / (4 * div)) ++ be8 ratio ++ word32 c.crc ++ word32 c.length
            ++ word32 c.escape ++ word32 c.truncated ++ word32 c.framing ++ word32 c.overruns ++ word32 c.malformed
            ++ word32 c.stray) }] } })
  ∧ (∀ (kind : Byte) (tag : Tag) (body : List Byte) (s : State), RequestReady s → body.length ≤ 600 →
    isRequestKind kind = false → isAnswerKind kind = false →
    exec (.unknownKind kind tag body) s = .next (answered s (replyTo tag kind .unknownKind [])))

/-- R17, R38, R59, R75, R92, R108, R129, R152, R173, R189, R197: CLEAR: a running watch is answered CLEARED (with its
timeout: log 23) before the reply to CLEAR, which is last and carries the notices and dirty pages discarded; notices,
calls, counters and every action, pending recovery, watch, break and supervisor record go; every unit is out of
service, its fetch and store entries and every cache page free; the holders' and the ports' counters are 0 and the
sequential-read memories absent; the settings, the histories' bytes, the generations, the last statuses and a save in
progress stay. No other deferred reply is open. The fields of the reply are log 11's, the order of CLEARED replies
log 7's. -/
def Obligations.ClearEmptiesEveryBlockAndKeepsSettings : Prop :=
  ∀ (tag : Tag) (s : State), RequestReady s → UnitLaw s → OwnerLaw s → (∀ n : Node, hostActionRuns s n = false) →
    (∀ n : Node, breakUnanswered s n = false) → (∀ u : UnitId, (s.units.get u).detachTag = none) →
    ∃ t, exec (.clear tag []) s = .next t
      ∧ t.link.replies ++ t.link.waiting = s.link.replies
          ++ (match s.power.watch with
              | some w => [replyTo w.tag 0x22#8 .cleared
                  ((s.lines.power.toList.map fun p => BitVec.ofNat 8 (powerCode p)) ++ be16 w.timeout)]
              | none => [])
          ++ [replyTo tag 0x03#8 .done (be32 0 ++ be32 s.link.notices.length
              ++ allNodes.flatMap fun u => be32 (if (s.units.get u).state = .detached then 0 else dirtyCount s u))]
      ∧ t.link.notices = [] ∧ t.link.lost = 0 ∧ t.link.calls = [] ∧ t.link.runCount = 0 ∧ t.link.inbox = []
      ∧ t.link.receiver = none ∧ t.link.counters = zeroCounters ∧ t.link.sending = s.link.sending
      ∧ t.link.lastServed = s.link.lastServed ∧ t.link.lineBaud = s.link.lineBaud
      ∧ t.settings = s.settings ∧ t.loader = s.loader ∧ t.ram = s.ram ∧ t.lines.power = s.lines.power
      ∧ (∀ n : Node, t.action n = none ∧ t.power.slot.get n = none ∧ t.supervisor n = resetSupervisor
          ∧ t.boot.partials.get n = Vector.replicate 16 0) ∧ t.power.watch = none
      ∧ (∀ (n : Node) (l : LineId), (t.line n l).owner = .none
          ∧ (t.line n l).driven = ((s.line n l).driven && !(s.line n l).role.isOutput)
          ∧ (t.line n l).level = (s.line n l).level
          ∧ (t.line n l).flag = ((s.line n l).flag && (s.line n l).sense.levelPresent (s.line n l).level))
      ∧ (∀ n : Node, t.consoles.get n = { (s.consoles.get n).addMark .clear with
          cursor := none, flood := false, skip := 0, fifo := [], break_ := none, framingErrors := 0, parityErrors := 0,
          breaks := 0, dropped := 0, count := 0, windowRemaining := (s.consoles.get n).settings.window })
      ∧ (∀ p : PageId, t.pool.owners[p] = match s.pool.owners[p] with | some (.mh _) => none | o => o)
      ∧ (∀ u : UnitId, (s.units.get u).state ≠ .detached →
          (t.units.get u).state = .detached ∧ (t.units.get u).nodes = Per4.all false ∧ (t.units.get u).consecutive = 0
            ∧ t.cache.dirty.get u = [] ∧ ∀ r ∈ t.cache.directory, r.unit ≠ u)
      ∧ (∀ (u : UnitId) (n : Node), (s.units.get u).state ≠ .detached → (s.units.get u).nodes.get n = true →
          (port t n).active = none ∧ (port t n).attention = true
            ∧ (port t n).lastStatus = if (port s n).active.isSome then .aborted else (port s n).lastStatus)
      ∧ (∀ h : Holder, t.pool.holder h = { s.pool.holder h with
          reclaimedFrom := 0, reclaimedBy := 0, selfRecycles := 0, failures := 0 })
      ∧ (∀ n : Node, (port t n).sequential = none ∧ (port t n).shortTransactions = 0 ∧ (port t n).badCommands = 0
          ∧ (port t n).dataCrcErrors = 0)
      ∧ (∀ n : Node, (∀ u : UnitId, (s.units.get u).nodes.get n = false) →
          (port t n).attention = (port s n).attention ∧ (port t n).lastStatus = (port s n).lastStatus)
      ∧ t.cache.entryWait = []
      ∧ (∀ i : Fin 16, (t.cache.fetches[i]).generation = (s.cache.fetches[i]).generation
          ∧ ∀ f : Fetch, (s.cache.fetches[i]).busy = some f → (s.units.get f.unit).state ≠ .detached →
            (t.cache.fetches[i]).busy = none)
      ∧ (∀ i : Fin 8, (t.cache.stores[i]).generation = (s.cache.stores[i]).generation
          ∧ ∀ x : Store, (s.cache.stores[i]).busy = some x → (s.units.get x.unit).state ≠ .detached →
            (t.cache.stores[i]).busy = none)

/-! ## Settings and start-up (11) -/

/-- R195 to R197: SAVE SETTINGS takes a snapshot and answers nothing (BUSY while a save runs); the ends of its phases
write 0xFF, 0xFF over the signature, then every byte after it, then the signature; a read-back that agrees is answered
DONE with 787 bytes, one that differs at an address SAVE_FAILED with the phase, the address and the mismatch flag; a
no-acknowledge is answered SAVE_FAILED in its phase: in WRITING the bytes before the failing run of 32 addresses are
those of the snapshot, in SEALING the bytes of the signature that were taken. Each phase end acts in its own phase alone
(the model's choice, log 3); what a no-acknowledge leaves of the signature is log 16's, how many bytes of the failing
run were taken log 17's, the reply's layout log 11's. -/
def Obligations.SavePhasesWriteTheImage : Prop :=
  (∀ (tag : Tag) (s : State), RequestReady s →
    (s.loader.save = .idle → exec (.saveSettings tag []) s = .next { s with
      link := { s.link with receiver := none }
      loader := { s.loader with save := .invalidating, snapshot := some s.settings.image, saveTag := some tag } })
    ∧ (s.loader.save ≠ .idle → exec (.saveSettings tag []) s = .next (answered s (replyTo tag 0x04#8 .busy []))))
  ∧ (∀ (image : List Byte) (tag : Tag) (s : State), s.phase = .running → s.loader.snapshot = some image →
    s.loader.saveTag = some tag →
    exec .invalidatingEnd s = .next (if s.loader.save = .invalidating then { s with
    loader := { s.loader with
      save := .writing, eeprom := Memory.write eepromDefault s.loader.eeprom 0 [0xFF#8, 0xFF#8] } } else s)
    ∧ exec .writingEnd s = .next (if s.loader.save = .writing then { s with
    loader := { s.loader with
      save := .sealing, eeprom := Memory.write eepromDefault s.loader.eeprom 2 (image.drop 2) } } else s)
    ∧ exec .sealingEnd s = .next (if s.loader.save = .sealing then { s with
    loader := { s.loader with
      save := .verifying, eeprom := Memory.write eepromDefault s.loader.eeprom 0 [0x43#8, 0x44#8] } } else s)
    ∧ (s.loader.save = .verifying →
      (∀ a : Nat, a < 794 → Memory.read eepromDefault s.loader.eeprom a = image.getD a 0xFF#8) →
      exec (.verifyingEnd none) s = .next { s with
        loader := { s.loader with save := .idle, snapshot := none, saveTag := none }
        link := s.link.addReply (replyTo tag 0x04#8 .done (be16 787)) }
      ∧ ∀ d : ReadFault, d.address < 794 → d.inMemory = false → d.value ≠ image.getD d.address 0xFF#8 →
        exec (.verifyingEnd (some d)) s = .next { s with
          loader := { s.loader with save := .idle, snapshot := none, saveTag := none }
          link := s.link.addReply (replyTo tag 0x04#8 .saveFailed ([4#8] ++ be16 d.address ++ [1#8])) })
    ∧ (∀ address taken : Nat, address < 794 → s.loader.save = .verifying →
      exec (.saveNoAck address taken) s = .next { s with
        loader := { s.loader with save := .idle, snapshot := none, saveTag := none }
        link := s.link.addReply (replyTo tag 0x04#8 .saveFailed ([4#8] ++ be16 address ++ [0#8])) })
    ∧ (∀ (address taken : Nat) (unsigned left : List Host.Cell), address < 794 →
      unsigned = Memory.write eepromDefault s.loader.eeprom 0 [0xFF#8, 0xFF#8] →
      ((s.loader.save = .invalidating ∧ left = unsigned)
        ∨ (s.loader.save = .writing ∧ left = Memory.write eepromDefault unsigned 2
            ((image.drop 2).take (max (32 * (address / 32) - 2) (min (32 * (address / 32 + 1) - 2) taken))))
        ∨ (s.loader.save = .sealing
            ∧ left = Memory.write eepromDefault unsigned 0 (([0x43#8, 0x44#8] : List Byte).take taken))) →
      exec (.saveNoAck address taken) s = .next { s with
        loader := { s.loader with save := .idle, snapshot := none, saveTag := none, eeprom := left }
        link := s.link.addReply (replyTo tag 0x04#8 .saveFailed
          ([if s.loader.save = .invalidating then 1#8 else if s.loader.save = .writing then 2#8 else 3#8]
            ++ be16 address ++ [0#8])) }))

/-- R6, R191, R192, R194, R196: part reset puts every block in its part-reset state and abandons a save without a reply
(outside a save and in VERIFYING the settings memory stays; in WRITING the bytes taken, in address order, and in
SEALING the signature's bytes taken are the snapshot's: log 16, log 17); its release starts a load. A load comes to
NO_DEVICE where SDA is not free after nine clocks, the address byte is not acknowledged within 10 ms, or a later byte is
not acknowledged before a check of the image ends the load (log 50), and else to what the image's checks give. The end
of a load by any result puts the loaded or default settings in force, acquires every line at the level of its pin with a
level sense's flag, derives the power states without publishing them, starts windows and aging, and queues START as the
first notice. What the part-reset state holds where the spec names no value is the model's choice (log 1, log 13), as are the kept counter of free orders
(log 7) and that a release or a load's end outside its phase has no effect (log 3). -/
def Obligations.ResetThenLoadPutsSettingsInForce : Prop :=
  (∀ (taken : Nat) (s : State), (s.loader.save = .idle ∨ s.loader.save = .verifying) →
    exec (.partReset taken) s = .next { State.reset with
      pending := s.pending
      choices := s.choices
      loader := { s.loader with save := .idle, snapshot := none, saveTag := none } })
  ∧ (∀ (taken : Nat) (image : List Byte) (unsigned left : List Host.Cell) (s : State),
    unsigned = Memory.write eepromDefault s.loader.eeprom 0 [0xFF#8, 0xFF#8] →
    ((s.loader.save = .invalidating ∧ left = unsigned)
      ∨ (s.loader.save = .writing ∧ s.loader.snapshot = some image
          ∧ left = Memory.write eepromDefault unsigned 2 ((image.drop 2).take taken))
      ∨ (s.loader.save = .sealing
          ∧ left = Memory.write eepromDefault unsigned 0 (([0x43#8, 0x44#8] : List Byte).take taken))) →
    exec (.partReset taken) s = .next { State.reset with
      pending := s.pending
      choices := s.choices
      loader := { s.loader with save := .idle, snapshot := none, saveTag := none, eeprom := left } })
  ∧ (∀ s : State, exec .resetRelease s = .next (if s.phase = .inReset then { s with phase := .loading } else s))
  ∧ (∀ (pins : BitVec 24) (found : LoadRead) (image : List Byte) (checked : Nat) (o : LoadOutcome) (s : State),
    s.phase = .loading →
    ((found.image = none ∧ image = (List.range 794).map (Memory.read eepromDefault s.loader.eeprom))
      ∨ (found.image = some image ∧ image.length = 794 ∧ MemoryLaw s)) →
    checked = (if image.take 2 ≠ [0x43#8, 0x44#8] then 2
      else if (image.drop 2).take 3 ≠ [0x03#8, 0x13#8, 1#8] then 5 else 794) →
    o = (if found.bus.sdaFreeAfter.any (fun k => k ≤ 9) ∧ found.bus.acknowledgedAfter.any (fun t => t ≤ 10000)
          ∧ found.bus.lostAfter.all (fun k => 3 + checked ≤ k) then judgeImage image
        else failedLoad .noDevice .none) →
    ∃ t, exec (.loadEnd pins found) s = .next t ∧ t.phase = .running ∧ t.settings = o.settings
      ∧ t.loader.result = o.result ∧ t.loader.cause = o.cause ∧ t.loader.poolDefaulted = o.defaulted
      ∧ t.link = ({ s.link with
          baud := o.settings.baud, lineBaud := o.settings.baud, ratio := o.settings.ratio } : Link).addNotice
            (.start (loadResultCode o.result) (loadCauseCode o.cause) o.defaulted)
      ∧ (∀ (n : Node) (l : LineId), (t.line n l).level = pinLevel pins n l ∧ (t.line n l).last = pinLevel pins n l
          ∧ (t.line n l).driven = false ∧ (t.line n l).owner = .none
          ∧ (t.line n l).flag = (t.line n l).sense.levelPresent (pinLevel pins n l))
      ∧ (∀ n : Node, t.powerState n = powerOf (t.lines.line.get n))
      ∧ (∀ n : Node, (t.consoles.get n).windowRemaining = (t.consoles.get n).settings.window
          ∧ (t.consoles.get n).marks = (s.consoles.get n).marks)
      ∧ t.cache.agingRemaining = o.settings.agingTick * 1000 ∧ t.units = s.units ∧ t.pool.owners = s.pool.owners)
  ∧ (∀ (pins : BitVec 24) (s : State), s.phase ≠ .loading → exec (.loadEnd pins .asStored) s = .next s)

/-- R192, R193, R195, R201: an image written from legal settings passes every check of a load and gives back exactly
those settings; and so the settings saved before a part reset are in force after it: a save that runs through its four
phases, a reset, and a load of the memory it left. -/
def Obligations.SavedSettingsComeBack : Prop :=
  (∀ x : Settings, SettingsLegal x →
    x.image.length = 794
      ∧ judgeImage x.image = { result := .stored, cause := .none, defaulted := false, settings := x })
  ∧ (∀ (tag : Tag) (taken : Nat) (pins : BitVec 24) (s : State), RequestReady s → SettingsLaw s → MemoryLaw s →
    s.loader.save = .idle →
    ∃ s1 s2 s3 s4 s5 s6 s7 t, exec (.saveSettings tag []) s = .next s1 ∧ exec .invalidatingEnd s1 = .next s2
      ∧ exec .writingEnd s2 = .next s3 ∧ exec .sealingEnd s3 = .next s4 ∧ exec (.verifyingEnd none) s4 = .next s5
      ∧ exec (.partReset taken) s5 = .next s6 ∧ exec .resetRelease s6 = .next s7
      ∧ exec (.loadEnd pins .asStored) s7 = .next t ∧ t.phase = .running ∧ t.loader.result = .stored
      ∧ t.settings = s.settings)
end

