-- ==== Sys2Proof/Laws/Frames.lean ====
section
/-!
SUPPORT. What the link's receiver makes of bytes (R175, R177, R198): a frame as it stands on the wire is, after its start
byte, the command of its kind, whatever its tag and body; that command is well formed and stands for that request.
-/

namespace Sys2Proof.Machine

variable {m : FrameMeets}

/-- Two bytes that a number below 65536 was written in read back as the number. -/
theorem u16_be16 {n : Nat} (h : n < 65536) : u16 (BitVec.ofNat 8 (n / 256)) (BitVec.ofNat 8 n) = n := by
  unfold u16
  simp only [BitVec.toNat_ofNat]
  omega

/-- A tag written in two bytes reads back as the tag. -/
theorem tag_be16 (tag : Tag) :
    BitVec.ofNat 16 (u16 (BitVec.ofNat 8 (tag.toNat / 256)) (BitVec.ofNat 8 tag.toNat)) = tag := by
  rw [u16_be16 tag.isLt]
  simp

/-- The bytes of a whole frame after the start byte, before stuffing (R198). -/
abbrev frameBytes (kind : Byte) (tag : Tag) (body : List Byte) : List Byte :=
  frameCore kind tag body ++ be16 (crc16 (frameCore kind tag body)).toNat

/-- A frame's own start goes on: no length error, and no end before its last byte. -/
theorem frameByte_goes_on {kind : Byte} {tag : Tag} {body p : List Byte} (hb : body.length ≤ 600)
    (hp : p <+: frameBytes kind tag body) (hl : p.length < (frameBytes kind tag body).length) :
    frameByte m p = (some ⟨p, false⟩, none) := by
  obtain ⟨q, hq⟩ := hp
  have total : (frameBytes kind tag body).length = body.length + 7 := by
    simp [frameBytes, frameCore, be16]
  unfold frameByte
  split
  · next k t1 t0 l1 l0 rest =>
    simp only [frameBytes, frameCore, be16, List.cons_append, List.nil_append, List.cons.injEq] at hq
    obtain ⟨-, -, -, rfl, rfl, -⟩ := hq
    rw [u16_be16 (by omega)]
    simp only [List.length_cons, total] at hl
    rw [if_neg (by unfold maxBody; omega), if_neg (by omega)]
  · rfl

/-- A frame's last byte completes it, with a good CRC. -/
theorem frameByte_completes {kind : Byte} {tag : Tag} {body : List Byte} (hb : body.length ≤ 600) :
    frameByte m (frameBytes kind tag body) = (none, some (kindCommand m kind tag body)) := by
  simp only [frameBytes, frameCore, be16, List.cons_append, List.nil_append, frameByte]
  rw [u16_be16 (by omega), if_neg (by unfold maxBody; omega), if_pos (by simp), tag_be16]
  simp

/-- A stuffed byte in a frame is that byte of the frame. -/
theorem received_stuffed {p : List Byte} (b : Byte) (rest : List LineByte) :
    receivedCommands m (some ⟨p, false⟩) ((stuffByte b).map (fun x => ⟨x, true⟩) ++ rest)
      = (frameByte m (p ++ [b])).2.toList
        ++ receivedCommands m (frameByte m (p ++ [b])).1 rest := by
  unfold stuffByte
  split
  · next h => rcases h with rfl | rfl <;> simp [receivedCommands, receiveByte]
  · next h =>
    rw [not_or] at h
    simp [receivedCommands, receiveByte, h.1, h.2]

/-- What is left of a frame on the wire brings about its command and nothing else. -/
theorem received_rest {kind : Byte} {tag : Tag} {body : List Byte} (hb : body.length ≤ 600) :
    ∀ (q p : List Byte), p ++ q = frameBytes kind tag body → q ≠ [] →
      receivedCommands m (some ⟨p, false⟩) ((stuff q).map fun x => ⟨x, true⟩)
        = [kindCommand m kind tag body] := by
  intro q
  induction q with
  | nil => intro p _ hq; exact absurd rfl hq
  | cons b q ih =>
    intro p hpq _
    have hpb : (p ++ [b]) ++ q = frameBytes kind tag body := by rw [← hpq]; simp
    simp only [stuff, List.flatMap_cons, List.map_append]
    rw [received_stuffed]
    cases q with
    | nil =>
      rw [List.append_nil] at hpb
      rw [hpb, frameByte_completes hb]
      rfl
    | cons c q =>
      have hl : (p ++ [b]).length < (frameBytes kind tag body).length := by rw [← hpb]; simp
      rw [frameByte_goes_on hb ⟨_, hpb⟩ hl]
      simpa [stuff] using ih (p ++ [b]) hpb (by simp)

/-- R175, R177, R198: a frame as the transmitter would put it on the wire, byte for byte with its stuffing, length and CRC,
is a start byte and the command of its kind. -/
theorem received_frame {kind : Byte} {tag : Tag} {body : List Byte} (hb : body.length ≤ 600) :
    receivedCommands m none ((frameWire kind tag body).map fun x => ⟨x, true⟩)
      = [.frameStart, kindCommand m kind tag body] := by
  have h := received_rest (m := m) hb (frameBytes kind tag body) [] rfl
    (by simp [frameBytes, frameCore])
  simp only [frameWire, List.map_cons, receivedCommands, receiveByte]
  simpa using h

/-- A FILL frame's command is one that a wire can carry. -/
theorem fillCommand_wellFormed {tag : Tag} {body : List Byte} (hb : bodyFits body = true) :
    (fillCommand tag body).wellFormed = true := by
  unfold fillCommand
  split
  · split
    · next h => simp [Instr.wellFormed, h]
    · next h =>
      simp only [Instr.wellFormed, hb, answerLength]
      simp only [blockSize] at h
      simp [isAnswerKind]
      omega
  · next h =>
    have short : body.length < 4 := by
      match body with
      | [] | [_] | [_, _] | [_, _, _] => simp
      | a :: b :: c :: d :: data => exact absurd rfl (h a b c d data)
    simp [Instr.wellFormed, hb, answerLength, isAnswerKind]
    omega

/-- The command of an answer frame with an empty body by its kind is one that a wire can carry. -/
theorem emptyAnswer_wellFormed {answer : Tag → Instr} {kind : Byte} {tag : Tag} {body : List Byte}
    (ha : (answer tag).wellFormed = true) (hk : kind = 0x71#8 ∨ kind = 0x72#8 ∨ kind = 0x73#8)
    (hb : bodyFits body = true) : (emptyAnswer answer kind tag body).wellFormed = true := by
  unfold emptyAnswer
  split
  · exact ha
  · next h =>
    simp only [List.isEmpty_iff] at h
    rcases hk with rfl | rfl | rfl <;> simp [Instr.wellFormed, hb, answerLength, isAnswerKind, h]

/-- The command of a frame's kind is one that a wire can carry. -/
theorem kindCommand_wellFormed {kind : Byte} {tag : Tag} {body : List Byte} (hb : body.length ≤ 600) :
    (kindCommand m kind tag body).wellFormed = true := by
  have fits : bodyFits body = true := by unfold bodyFits maxBody; exact decide_eq_true hb
  have is {k : Byte} (h : kind.toNat = k.toNat) : kind = k := BitVec.eq_of_toNat_eq h
  unfold kindCommand
  split
  case h_28 => exact fillCommand_wellFormed fits
  case h_29 h => exact emptyAnswer_wellFormed rfl (.inl (is (k := 0x71#8) h)) fits
  case h_30 h => exact emptyAnswer_wellFormed rfl (.inr (.inl (is (k := 0x72#8) h))) fits
  case h_31 h => exact emptyAnswer_wellFormed rfl (.inr (.inr (is (k := 0x73#8) h))) fits
  case h_32 =>
    have other : isRequestKind kind = false ∧ isAnswerKind kind = false := by
      constructor <;> simp only [isRequestKind, isAnswerKind, List.mem_cons, List.not_mem_nil, decide_eq_false_iff_not]
        <;> rintro h <;> aesop
    simp [Instr.wellFormed, fits, other]
  all_goals exact fits

/-- R177: the command of a frame that is no answer stands for that request: kind, tag and body. -/
theorem requestOf_kindCommand {kind : Byte} {tag : Tag} {body : List Byte} (hk : isAnswerKind kind = false) :
    requestOf (kindCommand m kind tag body) = some (kind, tag, body) := by
  have is {k : Byte} (h : kind.toNat = k.toNat) : kind = k := BitVec.eq_of_toNat_eq h
  unfold kindCommand
  split
  case h_32 => rfl
  all_goals
    next h =>
      have e := congrArg (BitVec.ofNat 8) h
      rw [BitVec.ofNat_toNat, BitVec.setWidth_eq] at e
      subst e
      first
        | rfl
        | exact absurd hk (by decide)

end Sys2Proof.Machine
end

