-- ==== Sys2Proof/Laws/Memory.lean ====
section
/-!
SUPPORT. The laws of the two memories: a write keeps the canonical form, a read inside a write gives the byte written,
a read outside it gives what it gave before.
-/

namespace Sys2Proof.Machine.Memory

/-- Every cell of a run of bytes lies in the run and is not at the default. -/
theorem mem_cells {d : Byte} {c : Host.Cell} : ∀ {bytes : List Byte} {a : Nat}, c ∈ cells d a bytes →
    a ≤ c.1 ∧ c.1 < a + bytes.length ∧ c.2 ≠ d
  | [], _, h => by simp [cells] at h
  | b :: bs, a, h => by
    unfold cells at h
    split at h
    · obtain ⟨h1, h2, h3⟩ := mem_cells h
      exact ⟨by omega, by simp only [List.length_cons]; omega, h3⟩
    · rename_i hb
      rcases List.mem_cons.mp h with rfl | h
      · exact ⟨Nat.le_refl _, by simp, hb⟩
      · obtain ⟨h1, h2, h3⟩ := mem_cells h
        exact ⟨by omega, by simp only [List.length_cons]; omega, h3⟩

/-- The cells of a run of bytes rise strictly. -/
theorem cells_pairwise (d : Byte) : ∀ (bytes : List Byte) (a : Nat),
    (cells d a bytes).Pairwise (fun x y => x.1 < y.1)
  | [], _ => by simp [cells]
  | b :: bs, a => by
    unfold cells
    split
    · exact cells_pairwise d bs (a + 1)
    · exact List.pairwise_cons.mpr ⟨fun c hc => by have := mem_cells hc; simp only; omega, cells_pairwise d bs (a + 1)⟩

/-- A write keeps the canonical form. -/
theorem write_wf {d : Byte} {m : List Host.Cell} (h : wf d m) (a : Nat) (bytes : List Byte) :
    wf d (write d m a bytes) := by
  obtain ⟨hp, hd⟩ := h
  refine ⟨?_, fun c hc => ?_⟩
  · unfold write
    refine List.pairwise_append.mpr ⟨List.pairwise_append.mpr ⟨hp.filter _, cells_pairwise d bytes a, ?_⟩,
      hp.filter _, ?_⟩
    · intro x hx y hy
      have hx := (List.mem_filter.mp hx).2
      have hy := mem_cells hy
      simp only [decide_eq_true_eq] at hx
      omega
    · intro x hx y hy
      have hy := (List.mem_filter.mp hy).2
      simp only [decide_eq_true_eq] at hy
      rcases List.mem_append.mp hx with hx | hx
      · have hx := (List.mem_filter.mp hx).2
        simp only [decide_eq_true_eq] at hx
        omega
      · have hx := mem_cells hx
        omega
  · unfold write at hc
    rcases List.mem_append.mp hc with hc | hc
    · rcases List.mem_append.mp hc with hc | hc
      · exact hd c (List.mem_filter.mp hc).1
      · exact (mem_cells hc).2.2
    · exact hd c (List.mem_filter.mp hc).1

theorem lookup_append (l r : List Host.Cell) (a : Nat) : (l ++ r).lookup a = (l.lookup a).or (r.lookup a) := by
  induction l with
  | nil => simp
  | cons c cs ih =>
    obtain ⟨k, v⟩ := c
    simp only [List.cons_append, List.lookup_cons]
    split <;> simp_all

theorem lookup_filter_keep (p : Nat → Bool) (m : List Host.Cell) (a : Nat) (h : p a = true) :
    (m.filter fun c => p c.1).lookup a = m.lookup a := by
  induction m with
  | nil => rfl
  | cons c cs ih =>
    obtain ⟨k, v⟩ := c
    by_cases hc : a = k
    · subst hc
      simp [h]
    · have hne : (a == k) = false := by simpa using hc
      by_cases hp : p k = true <;> simp [hp, List.lookup_cons, hne, ih]

theorem lookup_filter_drop (p : Nat → Bool) (m : List Host.Cell) (a : Nat) (h : p a = false) :
    (m.filter fun c => p c.1).lookup a = none := by
  induction m with
  | nil => rfl
  | cons c cs ih =>
    obtain ⟨k, v⟩ := c
    by_cases hc : a = k
    · subst hc
      simp only [h, List.filter_cons, Bool.false_eq_true, if_false, ih]
    · have hne : (a == k) = false := by simpa using hc
      by_cases hp : p k = true
      · simp only [hp, List.filter_cons, if_true, List.lookup_cons, hne, ih]
      · simp only [hp, List.filter_cons, Bool.false_eq_true, if_false, ih]

/-- What a run of bytes holds at an address: nothing outside the run, and the byte inside it. -/
theorem lookup_cells (d : Byte) (x : Nat) : ∀ (bytes : List Byte) (a : Nat),
    ((cells d a bytes).lookup x).getD d = if a ≤ x ∧ x < a + bytes.length then bytes.getD (x - a) d else d
  | [], a => by simp [cells]
  | b :: bs, a => by
    have ih := lookup_cells d x bs (a + 1)
    unfold cells
    by_cases hx : x = a
    · subst hx
      by_cases hb : b = d
      · subst hb
        rw [if_pos rfl, ih]
        simp
      · simp [hb]
    · have hne : (x == a) = false := by simpa using hx
      have key : ((if b = d then cells d (a + 1) bs else (a, b) :: cells d (a + 1) bs).lookup x).getD d
          = ((cells d (a + 1) bs).lookup x).getD d := by
        split
        · rfl
        · simp [List.lookup_cons, hne]
      rw [key, ih]
      simp only [List.length_cons]
      by_cases hc : a + 1 ≤ x ∧ x < a + 1 + bs.length
      · rw [if_pos hc, if_pos (by omega)]
        obtain ⟨k, hk⟩ : ∃ k, x - a = k + 1 := ⟨x - a - 1, by omega⟩
        rw [hk, show x - (a + 1) = k by omega]
        rfl
      · rw [if_neg hc, if_neg (by omega)]

theorem lookup_cells_outside (d : Byte) (x : Nat) (bytes : List Byte) (a : Nat)
    (h : ¬ (a ≤ x ∧ x < a + bytes.length)) : (cells d a bytes).lookup x = none := by
  by_contra hne
  obtain ⟨v, hv⟩ := Option.ne_none_iff_exists'.mp hne
  obtain ⟨l, r, he, -⟩ := List.lookup_eq_some_iff.mp hv
  have hm : (x, v) ∈ cells d a bytes := by rw [he]; simp
  have := mem_cells hm
  exact h ⟨this.1, this.2.1⟩

/-- A write says what every address reads after it: the byte written inside the run, the old byte outside it. -/
theorem read_write (d : Byte) (m : List Host.Cell) (a x : Nat) (bytes : List Byte) :
    read d (write d m a bytes) x = if a ≤ x ∧ x < a + bytes.length then bytes.getD (x - a) d else read d m x := by
  unfold read write
  rw [lookup_append, lookup_append]
  by_cases hin : a ≤ x ∧ x < a + bytes.length
  · rw [if_pos hin, lookup_filter_drop (fun k => decide (k < a)) m x (by simp; omega),
      lookup_filter_drop (fun k => decide (a + bytes.length ≤ k)) m x (by simp; omega), Option.none_or, Option.or_none]
    rw [lookup_cells, if_pos hin]
  · rw [if_neg hin, lookup_cells_outside d x bytes a hin, Option.or_none]
    by_cases hlt : x < a
    · rw [lookup_filter_keep (fun k => decide (k < a)) m x (by simp; omega),
        lookup_filter_drop (fun k => decide (a + bytes.length ≤ k)) m x (by simp; omega), Option.or_none]
    · rw [lookup_filter_drop (fun k => decide (k < a)) m x (by simp; omega),
        lookup_filter_keep (fun k => decide (a + bytes.length ≤ k)) m x (by simp; omega), Option.none_or]

theorem read_write_outside (d : Byte) (m : List Host.Cell) (a x : Nat) (bytes : List Byte)
    (h : ¬ (a ≤ x ∧ x < a + bytes.length)) : read d (write d m a bytes) x = read d m x := by
  rw [read_write, if_neg h]

/-- The memories of the reset state are in canonical form. -/
theorem reset_wf : MemoryLaw State.reset := by decide

end Sys2Proof.Machine.Memory
end

