-- ==== Sys2Proof/Laws/State.lean ====
section
/-!
SUPPORT. What each update of the state does to each field, and the reads and writes of the four-fold and six-fold
families. All are true by computation, so that no later proof unfolds an update.
-/

namespace Sys2Proof

/-! ## The families -/

namespace Per4

variable {α β : Type}

@[simp] theorem get_set_same (x : Per4 α) (i : Node) (a : α) : (x.set i a).get i = a := by
  fin_cases i <;> rfl

theorem get_set_other (x : Per4 α) {i j : Node} (h : j ≠ i) (a : α) : (x.set i a).get j = x.get j := by
  fin_cases i <;> fin_cases j <;> first | rfl | exact absurd rfl h

@[simp] theorem get_modify_same (x : Per4 α) (i : Node) (f : α → α) : (x.modify i f).get i = f (x.get i) :=
  get_set_same x i _

theorem get_modify_other (x : Per4 α) {i j : Node} (h : j ≠ i) (f : α → α) : (x.modify i f).get j = x.get j :=
  get_set_other x h _

@[simp] theorem get_map (x : Per4 α) (f : α → β) (i : Node) : (x.map f).get i = f (x.get i) := by
  fin_cases i <;> rfl

@[simp] theorem get_build (f : Node → α) (i : Node) : (build f).get i = f i := by
  fin_cases i <;> rfl

@[simp] theorem get_all (a : α) (i : Node) : (all a).get i = a := by
  fin_cases i <;> rfl

theorem ext_get {x y : Per4 α} (h : ∀ i, x.get i = y.get i) : x = y := by
  obtain ⟨a, b, c, d⟩ := x
  obtain ⟨a', b', c', d'⟩ := y
  have h0 : a = a' := h 0
  have h1 : b = b' := h 1
  have h2 : c = c' := h 2
  have h3 : d = d' := h 3
  rw [h0, h1, h2, h3]

@[simp] theorem set_get (x : Per4 α) (i : Node) : x.set i (x.get i) = x := by
  fin_cases i <;> rfl

end Per4

namespace Per6

variable {α β : Type}

@[simp] theorem get_set_same (x : Per6 α) (i : LineId) (a : α) : (x.set i a).get i = a := by
  fin_cases i <;> rfl

theorem get_set_other (x : Per6 α) {i j : LineId} (h : j ≠ i) (a : α) : (x.set i a).get j = x.get j := by
  fin_cases i <;> fin_cases j <;> first | rfl | exact absurd rfl h

@[simp] theorem get_modify_same (x : Per6 α) (i : LineId) (f : α → α) : (x.modify i f).get i = f (x.get i) :=
  get_set_same x i _

theorem get_modify_other (x : Per6 α) {i j : LineId} (h : j ≠ i) (f : α → α) : (x.modify i f).get j = x.get j :=
  get_set_other x h _

@[simp] theorem get_map (x : Per6 α) (f : α → β) (i : LineId) : (x.map f).get i = f (x.get i) := by
  fin_cases i <;> rfl

@[simp] theorem get_build (f : LineId → α) (i : LineId) : (build f).get i = f i := by
  fin_cases i <;> rfl

@[simp] theorem get_all (a : α) (i : LineId) : (all a).get i = a := by
  fin_cases i <;> rfl

theorem ext_get {x y : Per6 α} (h : ∀ i, x.get i = y.get i) : x = y := by
  obtain ⟨a, b, c, d, e, f⟩ := x
  obtain ⟨a', b', c', d', e', f'⟩ := y
  have h0 : a = a' := h 0
  have h1 : b = b' := h 1
  have h2 : c = c' := h 2
  have h3 : d = d' := h 3
  have h4 : e = e' := h 4
  have h5 : f = f' := h 5
  rw [h0, h1, h2, h3, h4, h5]

end Per6

end Sys2Proof

namespace Sys2Proof.Machine.State

/-! ## modLines -/

@[simp] theorem modLines_pending (f : Lines → Lines) (s : State) :
    (State.modLines f s).pending = s.pending := rfl
@[simp] theorem modLines_phase (f : Lines → Lines) (s : State) :
    (State.modLines f s).phase = s.phase := rfl
@[simp] theorem modLines_now (f : Lines → Lines) (s : State) :
    (State.modLines f s).now = s.now := rfl
@[simp] theorem modLines_choices (f : Lines → Lines) (s : State) :
    (State.modLines f s).choices = s.choices := rfl
@[simp] theorem modLines_lines (f : Lines → Lines) (s : State) :
    (State.modLines f s).lines = f s.lines := rfl
@[simp] theorem modLines_power (f : Lines → Lines) (s : State) :
    (State.modLines f s).power = s.power := rfl
@[simp] theorem modLines_consoles (f : Lines → Lines) (s : State) :
    (State.modLines f s).consoles = s.consoles := rfl
@[simp] theorem modLines_ram (f : Lines → Lines) (s : State) :
    (State.modLines f s).ram = s.ram := rfl
@[simp] theorem modLines_pool (f : Lines → Lines) (s : State) :
    (State.modLines f s).pool = s.pool := rfl
@[simp] theorem modLines_units (f : Lines → Lines) (s : State) :
    (State.modLines f s).units = s.units := rfl
@[simp] theorem modLines_ports (f : Lines → Lines) (s : State) :
    (State.modLines f s).ports = s.ports := rfl
@[simp] theorem modLines_cache (f : Lines → Lines) (s : State) :
    (State.modLines f s).cache = s.cache := rfl
@[simp] theorem modLines_boot (f : Lines → Lines) (s : State) :
    (State.modLines f s).boot = s.boot := rfl
@[simp] theorem modLines_link (f : Lines → Lines) (s : State) :
    (State.modLines f s).link = s.link := rfl
@[simp] theorem modLines_loader (f : Lines → Lines) (s : State) :
    (State.modLines f s).loader = s.loader := rfl

/-! ## modPower -/

@[simp] theorem modPower_pending (f : Sequencer → Sequencer) (s : State) :
    (State.modPower f s).pending = s.pending := rfl
@[simp] theorem modPower_phase (f : Sequencer → Sequencer) (s : State) :
    (State.modPower f s).phase = s.phase := rfl
@[simp] theorem modPower_now (f : Sequencer → Sequencer) (s : State) :
    (State.modPower f s).now = s.now := rfl
@[simp] theorem modPower_choices (f : Sequencer → Sequencer) (s : State) :
    (State.modPower f s).choices = s.choices := rfl
@[simp] theorem modPower_lines (f : Sequencer → Sequencer) (s : State) :
    (State.modPower f s).lines = s.lines := rfl
@[simp] theorem modPower_power (f : Sequencer → Sequencer) (s : State) :
    (State.modPower f s).power = f s.power := rfl
@[simp] theorem modPower_consoles (f : Sequencer → Sequencer) (s : State) :
    (State.modPower f s).consoles = s.consoles := rfl
@[simp] theorem modPower_ram (f : Sequencer → Sequencer) (s : State) :
    (State.modPower f s).ram = s.ram := rfl
@[simp] theorem modPower_pool (f : Sequencer → Sequencer) (s : State) :
    (State.modPower f s).pool = s.pool := rfl
@[simp] theorem modPower_units (f : Sequencer → Sequencer) (s : State) :
    (State.modPower f s).units = s.units := rfl
@[simp] theorem modPower_ports (f : Sequencer → Sequencer) (s : State) :
    (State.modPower f s).ports = s.ports := rfl
@[simp] theorem modPower_cache (f : Sequencer → Sequencer) (s : State) :
    (State.modPower f s).cache = s.cache := rfl
@[simp] theorem modPower_boot (f : Sequencer → Sequencer) (s : State) :
    (State.modPower f s).boot = s.boot := rfl
@[simp] theorem modPower_link (f : Sequencer → Sequencer) (s : State) :
    (State.modPower f s).link = s.link := rfl
@[simp] theorem modPower_loader (f : Sequencer → Sequencer) (s : State) :
    (State.modPower f s).loader = s.loader := rfl

/-! ## modConsole -/

@[simp] theorem modConsole_pending (n : Node) (f : Console → Console) (s : State) :
    (State.modConsole n f s).pending = s.pending := rfl
@[simp] theorem modConsole_phase (n : Node) (f : Console → Console) (s : State) :
    (State.modConsole n f s).phase = s.phase := rfl
@[simp] theorem modConsole_now (n : Node) (f : Console → Console) (s : State) :
    (State.modConsole n f s).now = s.now := rfl
@[simp] theorem modConsole_choices (n : Node) (f : Console → Console) (s : State) :
    (State.modConsole n f s).choices = s.choices := rfl
@[simp] theorem modConsole_lines (n : Node) (f : Console → Console) (s : State) :
    (State.modConsole n f s).lines = s.lines := rfl
@[simp] theorem modConsole_power (n : Node) (f : Console → Console) (s : State) :
    (State.modConsole n f s).power = s.power := rfl
@[simp] theorem modConsole_consoles (n : Node) (f : Console → Console) (s : State) :
    (State.modConsole n f s).consoles = s.consoles.modify n f := rfl
@[simp] theorem modConsole_ram (n : Node) (f : Console → Console) (s : State) :
    (State.modConsole n f s).ram = s.ram := rfl
@[simp] theorem modConsole_pool (n : Node) (f : Console → Console) (s : State) :
    (State.modConsole n f s).pool = s.pool := rfl
@[simp] theorem modConsole_units (n : Node) (f : Console → Console) (s : State) :
    (State.modConsole n f s).units = s.units := rfl
@[simp] theorem modConsole_ports (n : Node) (f : Console → Console) (s : State) :
    (State.modConsole n f s).ports = s.ports := rfl
@[simp] theorem modConsole_cache (n : Node) (f : Console → Console) (s : State) :
    (State.modConsole n f s).cache = s.cache := rfl
@[simp] theorem modConsole_boot (n : Node) (f : Console → Console) (s : State) :
    (State.modConsole n f s).boot = s.boot := rfl
@[simp] theorem modConsole_link (n : Node) (f : Console → Console) (s : State) :
    (State.modConsole n f s).link = s.link := rfl
@[simp] theorem modConsole_loader (n : Node) (f : Console → Console) (s : State) :
    (State.modConsole n f s).loader = s.loader := rfl

/-! ## modRam -/

@[simp] theorem modRam_pending (f : List Host.Cell → List Host.Cell) (s : State) :
    (State.modRam f s).pending = s.pending := rfl
@[simp] theorem modRam_phase (f : List Host.Cell → List Host.Cell) (s : State) :
    (State.modRam f s).phase = s.phase := rfl
@[simp] theorem modRam_now (f : List Host.Cell → List Host.Cell) (s : State) :
    (State.modRam f s).now = s.now := rfl
@[simp] theorem modRam_choices (f : List Host.Cell → List Host.Cell) (s : State) :
    (State.modRam f s).choices = s.choices := rfl
@[simp] theorem modRam_lines (f : List Host.Cell → List Host.Cell) (s : State) :
    (State.modRam f s).lines = s.lines := rfl
@[simp] theorem modRam_power (f : List Host.Cell → List Host.Cell) (s : State) :
    (State.modRam f s).power = s.power := rfl
@[simp] theorem modRam_consoles (f : List Host.Cell → List Host.Cell) (s : State) :
    (State.modRam f s).consoles = s.consoles := rfl
@[simp] theorem modRam_ram (f : List Host.Cell → List Host.Cell) (s : State) :
    (State.modRam f s).ram = f s.ram := rfl
@[simp] theorem modRam_pool (f : List Host.Cell → List Host.Cell) (s : State) :
    (State.modRam f s).pool = s.pool := rfl
@[simp] theorem modRam_units (f : List Host.Cell → List Host.Cell) (s : State) :
    (State.modRam f s).units = s.units := rfl
@[simp] theorem modRam_ports (f : List Host.Cell → List Host.Cell) (s : State) :
    (State.modRam f s).ports = s.ports := rfl
@[simp] theorem modRam_cache (f : List Host.Cell → List Host.Cell) (s : State) :
    (State.modRam f s).cache = s.cache := rfl
@[simp] theorem modRam_boot (f : List Host.Cell → List Host.Cell) (s : State) :
    (State.modRam f s).boot = s.boot := rfl
@[simp] theorem modRam_link (f : List Host.Cell → List Host.Cell) (s : State) :
    (State.modRam f s).link = s.link := rfl
@[simp] theorem modRam_loader (f : List Host.Cell → List Host.Cell) (s : State) :
    (State.modRam f s).loader = s.loader := rfl

/-! ## modPool -/

@[simp] theorem modPool_pending (f : Pool → Pool) (s : State) :
    (State.modPool f s).pending = s.pending := rfl
@[simp] theorem modPool_phase (f : Pool → Pool) (s : State) :
    (State.modPool f s).phase = s.phase := rfl
@[simp] theorem modPool_now (f : Pool → Pool) (s : State) :
    (State.modPool f s).now = s.now := rfl
@[simp] theorem modPool_choices (f : Pool → Pool) (s : State) :
    (State.modPool f s).choices = s.choices := rfl
@[simp] theorem modPool_lines (f : Pool → Pool) (s : State) :
    (State.modPool f s).lines = s.lines := rfl
@[simp] theorem modPool_power (f : Pool → Pool) (s : State) :
    (State.modPool f s).power = s.power := rfl
@[simp] theorem modPool_consoles (f : Pool → Pool) (s : State) :
    (State.modPool f s).consoles = s.consoles := rfl
@[simp] theorem modPool_ram (f : Pool → Pool) (s : State) :
    (State.modPool f s).ram = s.ram := rfl
@[simp] theorem modPool_pool (f : Pool → Pool) (s : State) :
    (State.modPool f s).pool = f s.pool := rfl
@[simp] theorem modPool_units (f : Pool → Pool) (s : State) :
    (State.modPool f s).units = s.units := rfl
@[simp] theorem modPool_ports (f : Pool → Pool) (s : State) :
    (State.modPool f s).ports = s.ports := rfl
@[simp] theorem modPool_cache (f : Pool → Pool) (s : State) :
    (State.modPool f s).cache = s.cache := rfl
@[simp] theorem modPool_boot (f : Pool → Pool) (s : State) :
    (State.modPool f s).boot = s.boot := rfl
@[simp] theorem modPool_link (f : Pool → Pool) (s : State) :
    (State.modPool f s).link = s.link := rfl
@[simp] theorem modPool_loader (f : Pool → Pool) (s : State) :
    (State.modPool f s).loader = s.loader := rfl

/-! ## modUnit -/

@[simp] theorem modUnit_pending (u : UnitId) (f : MediaUnit → MediaUnit) (s : State) :
    (State.modUnit u f s).pending = s.pending := rfl
@[simp] theorem modUnit_phase (u : UnitId) (f : MediaUnit → MediaUnit) (s : State) :
    (State.modUnit u f s).phase = s.phase := rfl
@[simp] theorem modUnit_now (u : UnitId) (f : MediaUnit → MediaUnit) (s : State) :
    (State.modUnit u f s).now = s.now := rfl
@[simp] theorem modUnit_choices (u : UnitId) (f : MediaUnit → MediaUnit) (s : State) :
    (State.modUnit u f s).choices = s.choices := rfl
@[simp] theorem modUnit_lines (u : UnitId) (f : MediaUnit → MediaUnit) (s : State) :
    (State.modUnit u f s).lines = s.lines := rfl
@[simp] theorem modUnit_power (u : UnitId) (f : MediaUnit → MediaUnit) (s : State) :
    (State.modUnit u f s).power = s.power := rfl
@[simp] theorem modUnit_consoles (u : UnitId) (f : MediaUnit → MediaUnit) (s : State) :
    (State.modUnit u f s).consoles = s.consoles := rfl
@[simp] theorem modUnit_ram (u : UnitId) (f : MediaUnit → MediaUnit) (s : State) :
    (State.modUnit u f s).ram = s.ram := rfl
@[simp] theorem modUnit_pool (u : UnitId) (f : MediaUnit → MediaUnit) (s : State) :
    (State.modUnit u f s).pool = s.pool := rfl
@[simp] theorem modUnit_units (u : UnitId) (f : MediaUnit → MediaUnit) (s : State) :
    (State.modUnit u f s).units = s.units.modify u f := rfl
@[simp] theorem modUnit_ports (u : UnitId) (f : MediaUnit → MediaUnit) (s : State) :
    (State.modUnit u f s).ports = s.ports := rfl
@[simp] theorem modUnit_cache (u : UnitId) (f : MediaUnit → MediaUnit) (s : State) :
    (State.modUnit u f s).cache = s.cache := rfl
@[simp] theorem modUnit_boot (u : UnitId) (f : MediaUnit → MediaUnit) (s : State) :
    (State.modUnit u f s).boot = s.boot := rfl
@[simp] theorem modUnit_link (u : UnitId) (f : MediaUnit → MediaUnit) (s : State) :
    (State.modUnit u f s).link = s.link := rfl
@[simp] theorem modUnit_loader (u : UnitId) (f : MediaUnit → MediaUnit) (s : State) :
    (State.modUnit u f s).loader = s.loader := rfl

/-! ## modCache -/

@[simp] theorem modCache_pending (f : Cache → Cache) (s : State) :
    (State.modCache f s).pending = s.pending := rfl
@[simp] theorem modCache_phase (f : Cache → Cache) (s : State) :
    (State.modCache f s).phase = s.phase := rfl
@[simp] theorem modCache_now (f : Cache → Cache) (s : State) :
    (State.modCache f s).now = s.now := rfl
@[simp] theorem modCache_choices (f : Cache → Cache) (s : State) :
    (State.modCache f s).choices = s.choices := rfl
@[simp] theorem modCache_lines (f : Cache → Cache) (s : State) :
    (State.modCache f s).lines = s.lines := rfl
@[simp] theorem modCache_power (f : Cache → Cache) (s : State) :
    (State.modCache f s).power = s.power := rfl
@[simp] theorem modCache_consoles (f : Cache → Cache) (s : State) :
    (State.modCache f s).consoles = s.consoles := rfl
@[simp] theorem modCache_ram (f : Cache → Cache) (s : State) :
    (State.modCache f s).ram = s.ram := rfl
@[simp] theorem modCache_pool (f : Cache → Cache) (s : State) :
    (State.modCache f s).pool = s.pool := rfl
@[simp] theorem modCache_units (f : Cache → Cache) (s : State) :
    (State.modCache f s).units = s.units := rfl
@[simp] theorem modCache_ports (f : Cache → Cache) (s : State) :
    (State.modCache f s).ports = s.ports := rfl
@[simp] theorem modCache_cache (f : Cache → Cache) (s : State) :
    (State.modCache f s).cache = f s.cache := rfl
@[simp] theorem modCache_boot (f : Cache → Cache) (s : State) :
    (State.modCache f s).boot = s.boot := rfl
@[simp] theorem modCache_link (f : Cache → Cache) (s : State) :
    (State.modCache f s).link = s.link := rfl
@[simp] theorem modCache_loader (f : Cache → Cache) (s : State) :
    (State.modCache f s).loader = s.loader := rfl

/-! ## modBoot -/

@[simp] theorem modBoot_pending (f : Boot → Boot) (s : State) :
    (State.modBoot f s).pending = s.pending := rfl
@[simp] theorem modBoot_phase (f : Boot → Boot) (s : State) :
    (State.modBoot f s).phase = s.phase := rfl
@[simp] theorem modBoot_now (f : Boot → Boot) (s : State) :
    (State.modBoot f s).now = s.now := rfl
@[simp] theorem modBoot_choices (f : Boot → Boot) (s : State) :
    (State.modBoot f s).choices = s.choices := rfl
@[simp] theorem modBoot_lines (f : Boot → Boot) (s : State) :
    (State.modBoot f s).lines = s.lines := rfl
@[simp] theorem modBoot_power (f : Boot → Boot) (s : State) :
    (State.modBoot f s).power = s.power := rfl
@[simp] theorem modBoot_consoles (f : Boot → Boot) (s : State) :
    (State.modBoot f s).consoles = s.consoles := rfl
@[simp] theorem modBoot_ram (f : Boot → Boot) (s : State) :
    (State.modBoot f s).ram = s.ram := rfl
@[simp] theorem modBoot_pool (f : Boot → Boot) (s : State) :
    (State.modBoot f s).pool = s.pool := rfl
@[simp] theorem modBoot_units (f : Boot → Boot) (s : State) :
    (State.modBoot f s).units = s.units := rfl
@[simp] theorem modBoot_ports (f : Boot → Boot) (s : State) :
    (State.modBoot f s).ports = s.ports := rfl
@[simp] theorem modBoot_cache (f : Boot → Boot) (s : State) :
    (State.modBoot f s).cache = s.cache := rfl
@[simp] theorem modBoot_boot (f : Boot → Boot) (s : State) :
    (State.modBoot f s).boot = f s.boot := rfl
@[simp] theorem modBoot_link (f : Boot → Boot) (s : State) :
    (State.modBoot f s).link = s.link := rfl
@[simp] theorem modBoot_loader (f : Boot → Boot) (s : State) :
    (State.modBoot f s).loader = s.loader := rfl

/-! ## modLink -/

@[simp] theorem modLink_pending (f : Link → Link) (s : State) :
    (State.modLink f s).pending = s.pending := rfl
@[simp] theorem modLink_phase (f : Link → Link) (s : State) :
    (State.modLink f s).phase = s.phase := rfl
@[simp] theorem modLink_now (f : Link → Link) (s : State) :
    (State.modLink f s).now = s.now := rfl
@[simp] theorem modLink_choices (f : Link → Link) (s : State) :
    (State.modLink f s).choices = s.choices := rfl
@[simp] theorem modLink_lines (f : Link → Link) (s : State) :
    (State.modLink f s).lines = s.lines := rfl
@[simp] theorem modLink_power (f : Link → Link) (s : State) :
    (State.modLink f s).power = s.power := rfl
@[simp] theorem modLink_consoles (f : Link → Link) (s : State) :
    (State.modLink f s).consoles = s.consoles := rfl
@[simp] theorem modLink_ram (f : Link → Link) (s : State) :
    (State.modLink f s).ram = s.ram := rfl
@[simp] theorem modLink_pool (f : Link → Link) (s : State) :
    (State.modLink f s).pool = s.pool := rfl
@[simp] theorem modLink_units (f : Link → Link) (s : State) :
    (State.modLink f s).units = s.units := rfl
@[simp] theorem modLink_ports (f : Link → Link) (s : State) :
    (State.modLink f s).ports = s.ports := rfl
@[simp] theorem modLink_cache (f : Link → Link) (s : State) :
    (State.modLink f s).cache = s.cache := rfl
@[simp] theorem modLink_boot (f : Link → Link) (s : State) :
    (State.modLink f s).boot = s.boot := rfl
@[simp] theorem modLink_link (f : Link → Link) (s : State) :
    (State.modLink f s).link = f s.link := rfl
@[simp] theorem modLink_loader (f : Link → Link) (s : State) :
    (State.modLink f s).loader = s.loader := rfl

/-! ## modLoader -/

@[simp] theorem modLoader_pending (f : Loader → Loader) (s : State) :
    (State.modLoader f s).pending = s.pending := rfl
@[simp] theorem modLoader_phase (f : Loader → Loader) (s : State) :
    (State.modLoader f s).phase = s.phase := rfl
@[simp] theorem modLoader_now (f : Loader → Loader) (s : State) :
    (State.modLoader f s).now = s.now := rfl
@[simp] theorem modLoader_choices (f : Loader → Loader) (s : State) :
    (State.modLoader f s).choices = s.choices := rfl
@[simp] theorem modLoader_lines (f : Loader → Loader) (s : State) :
    (State.modLoader f s).lines = s.lines := rfl
@[simp] theorem modLoader_power (f : Loader → Loader) (s : State) :
    (State.modLoader f s).power = s.power := rfl
@[simp] theorem modLoader_consoles (f : Loader → Loader) (s : State) :
    (State.modLoader f s).consoles = s.consoles := rfl
@[simp] theorem modLoader_ram (f : Loader → Loader) (s : State) :
    (State.modLoader f s).ram = s.ram := rfl
@[simp] theorem modLoader_pool (f : Loader → Loader) (s : State) :
    (State.modLoader f s).pool = s.pool := rfl
@[simp] theorem modLoader_units (f : Loader → Loader) (s : State) :
    (State.modLoader f s).units = s.units := rfl
@[simp] theorem modLoader_ports (f : Loader → Loader) (s : State) :
    (State.modLoader f s).ports = s.ports := rfl
@[simp] theorem modLoader_cache (f : Loader → Loader) (s : State) :
    (State.modLoader f s).cache = s.cache := rfl
@[simp] theorem modLoader_boot (f : Loader → Loader) (s : State) :
    (State.modLoader f s).boot = s.boot := rfl
@[simp] theorem modLoader_link (f : Loader → Loader) (s : State) :
    (State.modLoader f s).link = s.link := rfl
@[simp] theorem modLoader_loader (f : Loader → Loader) (s : State) :
    (State.modLoader f s).loader = f s.loader := rfl

/-! ## modPort -/

@[simp] theorem modPort_pending (n : Node) (f : Port → Port) (s : State) :
    (State.modPort n f s).pending = s.pending := rfl
@[simp] theorem modPort_phase (n : Node) (f : Port → Port) (s : State) :
    (State.modPort n f s).phase = s.phase := rfl
@[simp] theorem modPort_now (n : Node) (f : Port → Port) (s : State) :
    (State.modPort n f s).now = s.now := rfl
@[simp] theorem modPort_choices (n : Node) (f : Port → Port) (s : State) :
    (State.modPort n f s).choices = s.choices := rfl
@[simp] theorem modPort_lines (n : Node) (f : Port → Port) (s : State) :
    (State.modPort n f s).lines = s.lines := rfl
@[simp] theorem modPort_power (n : Node) (f : Port → Port) (s : State) :
    (State.modPort n f s).power = s.power := rfl
@[simp] theorem modPort_consoles (n : Node) (f : Port → Port) (s : State) :
    (State.modPort n f s).consoles = s.consoles := rfl
@[simp] theorem modPort_ram (n : Node) (f : Port → Port) (s : State) :
    (State.modPort n f s).ram = s.ram := rfl
@[simp] theorem modPort_pool (n : Node) (f : Port → Port) (s : State) :
    (State.modPort n f s).pool = s.pool := rfl
@[simp] theorem modPort_units (n : Node) (f : Port → Port) (s : State) :
    (State.modPort n f s).units = s.units := rfl
@[simp] theorem modPort_ports (n : Node) (f : Port → Port) (s : State) :
    (State.modPort n f s).ports = s.ports.modify n fun p => (f p).settleTimer := rfl
@[simp] theorem modPort_cache (n : Node) (f : Port → Port) (s : State) :
    (State.modPort n f s).cache = s.cache := rfl
@[simp] theorem modPort_boot (n : Node) (f : Port → Port) (s : State) :
    (State.modPort n f s).boot = s.boot := rfl
@[simp] theorem modPort_link (n : Node) (f : Port → Port) (s : State) :
    (State.modPort n f s).link = s.link := rfl
@[simp] theorem modPort_loader (n : Node) (f : Port → Port) (s : State) :
    (State.modPort n f s).loader = s.loader := rfl

/-! ## setAction -/

@[simp] theorem setAction_pending (n : Node) (a : Option Action) (s : State) :
    (State.setAction n a s).pending = s.pending := rfl
@[simp] theorem setAction_phase (n : Node) (a : Option Action) (s : State) :
    (State.setAction n a s).phase = s.phase := rfl
@[simp] theorem setAction_now (n : Node) (a : Option Action) (s : State) :
    (State.setAction n a s).now = s.now := rfl
@[simp] theorem setAction_choices (n : Node) (a : Option Action) (s : State) :
    (State.setAction n a s).choices = s.choices := rfl
@[simp] theorem setAction_lines (n : Node) (a : Option Action) (s : State) :
    (State.setAction n a s).lines = s.lines := rfl
@[simp] theorem setAction_power (n : Node) (a : Option Action) (s : State) :
    (State.setAction n a s).power = { s.power with action := s.power.action.set n a } := rfl
@[simp] theorem setAction_consoles (n : Node) (a : Option Action) (s : State) :
    (State.setAction n a s).consoles = s.consoles := rfl
@[simp] theorem setAction_ram (n : Node) (a : Option Action) (s : State) :
    (State.setAction n a s).ram = s.ram := rfl
@[simp] theorem setAction_pool (n : Node) (a : Option Action) (s : State) :
    (State.setAction n a s).pool = s.pool := rfl
@[simp] theorem setAction_units (n : Node) (a : Option Action) (s : State) :
    (State.setAction n a s).units = s.units := rfl
@[simp] theorem setAction_ports (n : Node) (a : Option Action) (s : State) :
    (State.setAction n a s).ports = s.ports := rfl
@[simp] theorem setAction_cache (n : Node) (a : Option Action) (s : State) :
    (State.setAction n a s).cache = s.cache := rfl
@[simp] theorem setAction_boot (n : Node) (a : Option Action) (s : State) :
    (State.setAction n a s).boot = s.boot := rfl
@[simp] theorem setAction_link (n : Node) (a : Option Action) (s : State) :
    (State.setAction n a s).link = s.link := rfl
@[simp] theorem setAction_loader (n : Node) (a : Option Action) (s : State) :
    (State.setAction n a s).loader = s.loader := rfl

/-! ## setSlot -/

@[simp] theorem setSlot_pending (n : Node) (k : Option RecoveryKind) (s : State) :
    (State.setSlot n k s).pending = s.pending := rfl
@[simp] theorem setSlot_phase (n : Node) (k : Option RecoveryKind) (s : State) :
    (State.setSlot n k s).phase = s.phase := rfl
@[simp] theorem setSlot_now (n : Node) (k : Option RecoveryKind) (s : State) :
    (State.setSlot n k s).now = s.now := rfl
@[simp] theorem setSlot_choices (n : Node) (k : Option RecoveryKind) (s : State) :
    (State.setSlot n k s).choices = s.choices := rfl
@[simp] theorem setSlot_lines (n : Node) (k : Option RecoveryKind) (s : State) :
    (State.setSlot n k s).lines = s.lines := rfl
@[simp] theorem setSlot_power (n : Node) (k : Option RecoveryKind) (s : State) :
    (State.setSlot n k s).power = { s.power with slot := s.power.slot.set n k } := rfl
@[simp] theorem setSlot_consoles (n : Node) (k : Option RecoveryKind) (s : State) :
    (State.setSlot n k s).consoles = s.consoles := rfl
@[simp] theorem setSlot_ram (n : Node) (k : Option RecoveryKind) (s : State) :
    (State.setSlot n k s).ram = s.ram := rfl
@[simp] theorem setSlot_pool (n : Node) (k : Option RecoveryKind) (s : State) :
    (State.setSlot n k s).pool = s.pool := rfl
@[simp] theorem setSlot_units (n : Node) (k : Option RecoveryKind) (s : State) :
    (State.setSlot n k s).units = s.units := rfl
@[simp] theorem setSlot_ports (n : Node) (k : Option RecoveryKind) (s : State) :
    (State.setSlot n k s).ports = s.ports := rfl
@[simp] theorem setSlot_cache (n : Node) (k : Option RecoveryKind) (s : State) :
    (State.setSlot n k s).cache = s.cache := rfl
@[simp] theorem setSlot_boot (n : Node) (k : Option RecoveryKind) (s : State) :
    (State.setSlot n k s).boot = s.boot := rfl
@[simp] theorem setSlot_link (n : Node) (k : Option RecoveryKind) (s : State) :
    (State.setSlot n k s).link = s.link := rfl
@[simp] theorem setSlot_loader (n : Node) (k : Option RecoveryKind) (s : State) :
    (State.setSlot n k s).loader = s.loader := rfl

/-! ## modSupervisor -/

@[simp] theorem modSupervisor_pending (n : Node) (f : Supervisor → Supervisor) (s : State) :
    (State.modSupervisor n f s).pending = s.pending := rfl
@[simp] theorem modSupervisor_phase (n : Node) (f : Supervisor → Supervisor) (s : State) :
    (State.modSupervisor n f s).phase = s.phase := rfl
@[simp] theorem modSupervisor_now (n : Node) (f : Supervisor → Supervisor) (s : State) :
    (State.modSupervisor n f s).now = s.now := rfl
@[simp] theorem modSupervisor_choices (n : Node) (f : Supervisor → Supervisor) (s : State) :
    (State.modSupervisor n f s).choices = s.choices := rfl
@[simp] theorem modSupervisor_lines (n : Node) (f : Supervisor → Supervisor) (s : State) :
    (State.modSupervisor n f s).lines = s.lines := rfl
@[simp] theorem modSupervisor_power (n : Node) (f : Supervisor → Supervisor) (s : State) :
    (State.modSupervisor n f s).power = s.power := rfl
@[simp] theorem modSupervisor_consoles (n : Node) (f : Supervisor → Supervisor) (s : State) :
    (State.modSupervisor n f s).consoles = s.consoles := rfl
@[simp] theorem modSupervisor_ram (n : Node) (f : Supervisor → Supervisor) (s : State) :
    (State.modSupervisor n f s).ram = s.ram := rfl
@[simp] theorem modSupervisor_pool (n : Node) (f : Supervisor → Supervisor) (s : State) :
    (State.modSupervisor n f s).pool = s.pool := rfl
@[simp] theorem modSupervisor_units (n : Node) (f : Supervisor → Supervisor) (s : State) :
    (State.modSupervisor n f s).units = s.units := rfl
@[simp] theorem modSupervisor_ports (n : Node) (f : Supervisor → Supervisor) (s : State) :
    (State.modSupervisor n f s).ports = s.ports := rfl
@[simp] theorem modSupervisor_cache (n : Node) (f : Supervisor → Supervisor) (s : State) :
    (State.modSupervisor n f s).cache = s.cache := rfl
@[simp] theorem modSupervisor_boot (n : Node) (f : Supervisor → Supervisor) (s : State) :
    (State.modSupervisor n f s).boot = { s.boot with supervisor := s.boot.supervisor.modify n f } := rfl
@[simp] theorem modSupervisor_link (n : Node) (f : Supervisor → Supervisor) (s : State) :
    (State.modSupervisor n f s).link = s.link := rfl
@[simp] theorem modSupervisor_loader (n : Node) (f : Supervisor → Supervisor) (s : State) :
    (State.modSupervisor n f s).loader = s.loader := rfl

/-! ## clearPartials -/

@[simp] theorem clearPartials_pending (n : Node) (s : State) :
    (State.clearPartials n s).pending = s.pending := rfl
@[simp] theorem clearPartials_phase (n : Node) (s : State) :
    (State.clearPartials n s).phase = s.phase := rfl
@[simp] theorem clearPartials_now (n : Node) (s : State) :
    (State.clearPartials n s).now = s.now := rfl
@[simp] theorem clearPartials_choices (n : Node) (s : State) :
    (State.clearPartials n s).choices = s.choices := rfl
@[simp] theorem clearPartials_lines (n : Node) (s : State) :
    (State.clearPartials n s).lines = s.lines := rfl
@[simp] theorem clearPartials_power (n : Node) (s : State) :
    (State.clearPartials n s).power = s.power := rfl
@[simp] theorem clearPartials_consoles (n : Node) (s : State) :
    (State.clearPartials n s).consoles = s.consoles := rfl
@[simp] theorem clearPartials_ram (n : Node) (s : State) :
    (State.clearPartials n s).ram = s.ram := rfl
@[simp] theorem clearPartials_pool (n : Node) (s : State) :
    (State.clearPartials n s).pool = s.pool := rfl
@[simp] theorem clearPartials_units (n : Node) (s : State) :
    (State.clearPartials n s).units = s.units := rfl
@[simp] theorem clearPartials_ports (n : Node) (s : State) :
    (State.clearPartials n s).ports = s.ports := rfl
@[simp] theorem clearPartials_cache (n : Node) (s : State) :
    (State.clearPartials n s).cache = s.cache := rfl
@[simp] theorem clearPartials_boot (n : Node) (s : State) :
    (State.clearPartials n s).boot = { s.boot with partials := s.boot.partials.set n (Vector.replicate 16 0) } := rfl
@[simp] theorem clearPartials_link (n : Node) (s : State) :
    (State.clearPartials n s).link = s.link := rfl
@[simp] theorem clearPartials_loader (n : Node) (s : State) :
    (State.clearPartials n s).loader = s.loader := rfl

/-! ## reply -/

@[simp] theorem reply_pending (tag : Tag) (kind : Byte) (r : Result) (d : List Byte) (s : State) :
    (State.reply tag kind r d s).pending = s.pending := rfl
@[simp] theorem reply_phase (tag : Tag) (kind : Byte) (r : Result) (d : List Byte) (s : State) :
    (State.reply tag kind r d s).phase = s.phase := rfl
@[simp] theorem reply_now (tag : Tag) (kind : Byte) (r : Result) (d : List Byte) (s : State) :
    (State.reply tag kind r d s).now = s.now := rfl
@[simp] theorem reply_choices (tag : Tag) (kind : Byte) (r : Result) (d : List Byte) (s : State) :
    (State.reply tag kind r d s).choices = s.choices := rfl
@[simp] theorem reply_lines (tag : Tag) (kind : Byte) (r : Result) (d : List Byte) (s : State) :
    (State.reply tag kind r d s).lines = s.lines := rfl
@[simp] theorem reply_power (tag : Tag) (kind : Byte) (r : Result) (d : List Byte) (s : State) :
    (State.reply tag kind r d s).power = s.power := rfl
@[simp] theorem reply_consoles (tag : Tag) (kind : Byte) (r : Result) (d : List Byte) (s : State) :
    (State.reply tag kind r d s).consoles = s.consoles := rfl
@[simp] theorem reply_ram (tag : Tag) (kind : Byte) (r : Result) (d : List Byte) (s : State) :
    (State.reply tag kind r d s).ram = s.ram := rfl
@[simp] theorem reply_pool (tag : Tag) (kind : Byte) (r : Result) (d : List Byte) (s : State) :
    (State.reply tag kind r d s).pool = s.pool := rfl
@[simp] theorem reply_units (tag : Tag) (kind : Byte) (r : Result) (d : List Byte) (s : State) :
    (State.reply tag kind r d s).units = s.units := rfl
@[simp] theorem reply_ports (tag : Tag) (kind : Byte) (r : Result) (d : List Byte) (s : State) :
    (State.reply tag kind r d s).ports = s.ports := rfl
@[simp] theorem reply_cache (tag : Tag) (kind : Byte) (r : Result) (d : List Byte) (s : State) :
    (State.reply tag kind r d s).cache = s.cache := rfl
@[simp] theorem reply_boot (tag : Tag) (kind : Byte) (r : Result) (d : List Byte) (s : State) :
    (State.reply tag kind r d s).boot = s.boot := rfl
@[simp] theorem reply_link (tag : Tag) (kind : Byte) (r : Result) (d : List Byte) (s : State) :
    (State.reply tag kind r d s).link = s.link.addReply { tag := tag, body := replyBody kind r d, rate := none } := rfl
@[simp] theorem reply_loader (tag : Tag) (kind : Byte) (r : Result) (d : List Byte) (s : State) :
    (State.reply tag kind r d s).loader = s.loader := rfl

/-! ## notify -/

@[simp] theorem notify_pending (new : Notice) (s : State) :
    (State.notify new s).pending = s.pending := rfl
@[simp] theorem notify_phase (new : Notice) (s : State) :
    (State.notify new s).phase = s.phase := rfl
@[simp] theorem notify_now (new : Notice) (s : State) :
    (State.notify new s).now = s.now := rfl
@[simp] theorem notify_choices (new : Notice) (s : State) :
    (State.notify new s).choices = s.choices := rfl
@[simp] theorem notify_lines (new : Notice) (s : State) :
    (State.notify new s).lines = s.lines := rfl
@[simp] theorem notify_power (new : Notice) (s : State) :
    (State.notify new s).power = s.power := rfl
@[simp] theorem notify_consoles (new : Notice) (s : State) :
    (State.notify new s).consoles = s.consoles := rfl
@[simp] theorem notify_ram (new : Notice) (s : State) :
    (State.notify new s).ram = s.ram := rfl
@[simp] theorem notify_pool (new : Notice) (s : State) :
    (State.notify new s).pool = s.pool := rfl
@[simp] theorem notify_units (new : Notice) (s : State) :
    (State.notify new s).units = s.units := rfl
@[simp] theorem notify_ports (new : Notice) (s : State) :
    (State.notify new s).ports = s.ports := rfl
@[simp] theorem notify_cache (new : Notice) (s : State) :
    (State.notify new s).cache = s.cache := rfl
@[simp] theorem notify_boot (new : Notice) (s : State) :
    (State.notify new s).boot = s.boot := rfl
@[simp] theorem notify_link (new : Notice) (s : State) :
    (State.notify new s).link = s.link.addNotice new := rfl
@[simp] theorem notify_loader (new : Notice) (s : State) :
    (State.notify new s).loader = s.loader := rfl

/-! ## mark -/

@[simp] theorem mark_pending (n : Node) (k : MarkKind) (s : State) :
    (State.mark n k s).pending = s.pending := rfl
@[simp] theorem mark_phase (n : Node) (k : MarkKind) (s : State) :
    (State.mark n k s).phase = s.phase := rfl
@[simp] theorem mark_now (n : Node) (k : MarkKind) (s : State) :
    (State.mark n k s).now = s.now := rfl
@[simp] theorem mark_choices (n : Node) (k : MarkKind) (s : State) :
    (State.mark n k s).choices = s.choices := rfl
@[simp] theorem mark_lines (n : Node) (k : MarkKind) (s : State) :
    (State.mark n k s).lines = s.lines := rfl
@[simp] theorem mark_power (n : Node) (k : MarkKind) (s : State) :
    (State.mark n k s).power = s.power := rfl
@[simp] theorem mark_consoles (n : Node) (k : MarkKind) (s : State) :
    (State.mark n k s).consoles = s.consoles.modify n (Console.addMark k) := rfl
@[simp] theorem mark_ram (n : Node) (k : MarkKind) (s : State) :
    (State.mark n k s).ram = s.ram := rfl
@[simp] theorem mark_pool (n : Node) (k : MarkKind) (s : State) :
    (State.mark n k s).pool = s.pool := rfl
@[simp] theorem mark_units (n : Node) (k : MarkKind) (s : State) :
    (State.mark n k s).units = s.units := rfl
@[simp] theorem mark_ports (n : Node) (k : MarkKind) (s : State) :
    (State.mark n k s).ports = s.ports := rfl
@[simp] theorem mark_cache (n : Node) (k : MarkKind) (s : State) :
    (State.mark n k s).cache = s.cache := rfl
@[simp] theorem mark_boot (n : Node) (k : MarkKind) (s : State) :
    (State.mark n k s).boot = s.boot := rfl
@[simp] theorem mark_link (n : Node) (k : MarkKind) (s : State) :
    (State.mark n k s).link = s.link := rfl
@[simp] theorem mark_loader (n : Node) (k : MarkKind) (s : State) :
    (State.mark n k s).loader = s.loader := rfl

end Sys2Proof.Machine.State
end

