-- ==== Sys2Proof/Laws/Operations.lean ====
section
/-!
SUPPORT. What the shared operations over lines, pages, ports and orders do, each said once: the step, the free orders,
the taking and releasing of lines (R10), the free page of the pool (R76), the allocation (R80 to R86), the freeing of a
page (R87), the end of a port's command (R112), the release of a held line (R22) and of BOOT_SELECT (R169).
-/

namespace Sys2Proof.Machine

/-! ## The step -/

/-- A step with a command in front runs it. -/
theorem step_front {s : State} {c : Instr} {rest : List Instr} (h : s.pending = c :: rest) :
    step s = exec c { s with pending := rest } := by
  unfold step
  rw [h]

/-- On an empty queue a millisecond passes (log 2). -/
theorem step_idle {s : State} (h : s.pending = []) : step s = .next s.tick := by
  unfold step
  rw [h]

/-- A tick changes no setting, page, unit, link or loader value. -/
theorem tick_frame (s : State) :
    s.tick.pending = s.pending ∧ s.tick.phase = s.phase ∧ s.tick.ram = s.ram ∧ s.tick.pool = s.pool
      ∧ s.tick.units = s.units ∧ s.tick.link = s.link ∧ s.tick.loader = s.loader ∧ s.tick.choices = s.choices :=
  ⟨rfl, rfl, rfl, rfl, rfl, rfl, rfl, rfl⟩

/-- While the part runs, a command's effect is its body. -/
theorem whenRunning_running {s : State} (h : s.phase = .running) (f : State → State) : s.whenRunning f = f s :=
  if_pos h

/-- Before the end of loading a guarded command has no effect. -/
theorem whenRunning_held {s : State} (h : s.phase ≠ .running) (f : State → State) : s.whenRunning f = s :=
  if_neg h

/-! ## Free orders (log 7) -/

theorem insertAt_perm {α : Type} (x : α) : ∀ (k : Nat) (l : List α), (insertAt k x l).Perm (x :: l)
  | _, [] => List.Perm.refl _
  | k, y :: ys => by
    unfold insertAt
    split
    · exact List.Perm.refl _
    · exact ((insertAt_perm x (k - 1) ys).cons y).trans (List.Perm.swap x y ys)

/-- A free order serves each thing once. -/
theorem freeOrder_perm {α : Type} : ∀ (c : Nat) (l : List α), (freeOrder c l).Perm l
  | _, [] => List.Perm.refl _
  | c, x :: xs => (insertAt_perm x _ _).trans ((freeOrder_perm (c + 1) xs).cons x)

/-- A free order of at most one thing is that thing. -/
theorem freeOrder_single {α : Type} (c : Nat) (x : α) : freeOrder c [x] = [x] := rfl

/-! ## Lines (R10) -/

/-- A take is granted exactly when R10 grants it, and then changes the owner alone. -/
theorem takeLine_eq_some {n : Node} {l : LineId} {o : Owner} {s t : State} :
    takeLine n l o s = some t
      ↔ takeGranted n o (s.line n l) = true ∧ t = s.modLine n l fun x => { x with owner := o } := by
  unfold takeLine
  by_cases h : takeGranted n o (s.line n l) = true
  · rw [if_pos h]
    exact ⟨fun e => ⟨h, (Option.some.inj e).symm⟩, fun e => congrArg some e.2.symm⟩
  · rw [if_neg h]
    exact ⟨fun e => by simp at e, fun e => absurd e.1 h⟩

/-- The records that one change of a line leaves. -/
theorem line_modLine (n m : Node) (l k : LineId) (f : Line → Line) (s : State) :
    (s.modLine n l f).line m k = if m = n ∧ k = l then f (s.line n l) else s.line m k := by
  simp only [State.modLine, State.modLines, State.line]
  by_cases hm : m = n
  · subst hm
    by_cases hk : k = l
    · subst hk
      simp [Per4.modify, Per6.modify]
    · simp [Per4.modify, Per6.get_modify_other _ hk, hk]
  · simp [Per4.get_modify_other _ hm, hm]

/-- A released line has no owner and is INACTIVE; every other line stays. -/
theorem line_releaseLine (n m : Node) (l k : LineId) (s : State) :
    (releaseLine n l s).line m k
      = if m = n ∧ k = l then { s.line n l with owner := .none, driven := false } else s.line m k :=
  line_modLine n m l k _ s

/-- A driven line changes its driven state alone; every other line stays. -/
theorem line_driveLine (n m : Node) (l k : LineId) (active : Bool) (s : State) :
    (driveLine n l active s).line m k
      = if m = n ∧ k = l then { s.line n l with driven := active } else s.line m k :=
  line_modLine n m l k _ s

/-- R22: an action's release frees the line it holds, and does nothing where it holds none. -/
theorem releaseHeld_cases (n : Node) (a : Action) (s : State) :
    (∃ l, a.held = some l ∧ releaseHeld n a s = (releaseLine n l s).setAction n (some { a with held := none }))
      ∨ (a.held = none ∧ releaseHeld n a s = s) := by
  unfold releaseHeld
  cases a.held with
  | some l => exact .inl ⟨l, rfl, rfl⟩
  | none => exact .inr ⟨rfl, rfl⟩

/-- R169: a release of BOOT_SELECT clears the fallback flag, and frees the line the supervisor owns, if there is one. -/
theorem releaseBootSelect_cases (n : Node) (s : State) :
    (∃ l, (s.line n l).owner = .supervisor
        ∧ releaseBootSelect n s = (releaseLine n l s).modSupervisor n fun v => { v with fallback := false })
      ∨ ((∀ l, (s.line n l).owner ≠ .supervisor)
        ∧ releaseBootSelect n s = s.modSupervisor n fun v => { v with fallback := false }) := by
  unfold releaseBootSelect
  cases h : allLines.find? fun l => (s.line n l).owner == .supervisor with
  | some l => exact .inl ⟨l, by simpa using List.find?_some h, rfl⟩
  | none =>
    refine .inr ⟨fun l => ?_, rfl⟩
    have hl : l ∈ allLines := by fin_cases l <;> decide
    simpa using List.find?_eq_none.mp h l hl

/-! ## The pool (R76, R80 to R87) -/

/-- R76: the page that the pool offers is free, and none below it is. -/
theorem lowestFree_some {p : Pool} {q : PageId} (h : p.lowestFree = some q) :
    p.owners[q] = none ∧ ∀ r : PageId, r < q → p.owners[r] ≠ none := by
  unfold Pool.lowestFree at h
  split at h
  · rename_i i hi
    split at h
    · rename_i hlt
      obtain rfl := Option.some.inj h
      obtain ⟨hb, ht, hf⟩ := List.findIdx?_eq_some_iff_getElem.mp hi
      refine ⟨by simpa using ht, fun r hr => ?_⟩
      have := hf r.val hr
      simpa using this
    · exact absurd h (by simp)
  · exact absurd h (by simp)

/-- R76: the pool offers no page only where none is free. -/
theorem lowestFree_none {p : Pool} (h : p.lowestFree = none) (r : PageId) : p.owners[r] ≠ none := by
  unfold Pool.lowestFree at h
  split at h
  · rename_i i hi
    split at h
    · exact absurd h (by simp)
    · rename_i hge
      obtain ⟨hb, -, -⟩ := List.findIdx?_eq_some_iff_getElem.mp hi
      exact absurd (by simpa using hb) hge
  · rename_i hn
    intro hr
    have hm : p.owners[r] ∈ p.owners.toList := by simp
    have := List.findIdx?_eq_none_iff.mp hn _ hm
    simp [hr] at this

/-- R81: a grant takes the page the pool offers. -/
theorem grantFree_eq_some {h : Holder} {p : PageId} {s t : State} :
    grantFree h s = some (p, t)
      ↔ s.pool.lowestFree = some p ∧ t = s.modPool (Pool.setOwner p (some h)) := by
  unfold grantFree
  cases hl : s.pool.lowestFree with
  | none => simp
  | some q =>
    constructor
    · intro e
      obtain ⟨rfl, rfl⟩ := Prod.mk.inj (Option.some.inj e)
      exact ⟨rfl, rfl⟩
    · rintro ⟨hq, rfl⟩
      obtain rfl := Option.some.inj hq
      rfl

/-- R84 to R86: a holder's own page where the purpose recycles and one is evictable, failure otherwise. -/
theorem allocateOwn_cases (h : Holder) (why : Purpose) (s : State) :
    (∃ p, why ≠ .readAhead ∧ evictable s h = some p ∧ allocateOwn h why s = (some p, selfRecycle h p s))
      ∨ ((why = .readAhead ∨ evictable s h = none) ∧ allocateOwn h why s = (none, allocationFails h s)) := by
  unfold allocateOwn
  cases he : evictable s h with
  | none => exact .inr ⟨.inr rfl, by cases why <;> rfl⟩
  | some p =>
    cases why
    case readAhead => exact .inr ⟨.inl rfl, rfl⟩
    all_goals exact .inl ⟨p, by simp, rfl, rfl⟩

/-- R80: what an allocation can do: grant a free page, pass a page from a source, recycle the holder's own page, or
fail with its counter raised. -/
theorem allocate_cases (h : Holder) (why : Purpose) (s : State) :
    (∃ p, s.pool.lowestFree = some p
        ∧ (s.pool.held h < (s.pool.holder h).reservation
          ∨ s.pool.borrow h < ceiling s h ∧ s.pool.borrowed < s.pool.common)
        ∧ allocate h why s = (some p, s.modPool (Pool.setOwner p (some h))))
      ∨ (∃ g p, reclaimSource s h = some (g, p) ∧ s.pool.borrow h < ceiling s h
        ∧ allocate h why s = (some p, reclaim h g p s))
      ∨ (∃ p, why ≠ .readAhead ∧ evictable s h = some p ∧ (s.pool.holder h).reservation ≤ s.pool.held h
        ∧ allocate h why s = (some p, selfRecycle h p s))
      ∨ allocate h why s = (none, allocationFails h s) := by
  unfold allocate grantFree
  by_cases h1 : s.pool.held h < (s.pool.holder h).reservation
  · rw [if_pos h1]
    cases hl : s.pool.lowestFree with
    | some p => exact .inl ⟨p, rfl, .inl h1, rfl⟩
    | none => exact .inr (.inr (.inr rfl))
  · rw [if_neg h1]
    have own := allocateOwn_cases h why s
    by_cases h2 : s.pool.borrow h < ceiling s h
    · rw [if_pos h2]
      by_cases h3 : s.pool.borrowed < s.pool.common ∧ s.pool.lowestFree.isSome
      · rw [if_pos h3]
        cases hl : s.pool.lowestFree with
        | some p => exact .inl ⟨p, rfl, .inr ⟨h2, h3.1⟩, rfl⟩
        | none => exact .inr (.inr (.inr rfl))
      · rw [if_neg h3]
        cases hr : reclaimSource s h with
        | some gp => exact .inr (.inl ⟨gp.1, gp.2, rfl, h2, rfl⟩)
        | none =>
          rcases own with ⟨p, hw, he, ho⟩ | ⟨-, ho⟩
          · exact .inr (.inr (.inl ⟨p, hw, he, by omega, ho⟩))
          · exact .inr (.inr (.inr ho))
    · rw [if_neg h2]
      rcases own with ⟨p, hw, he, ho⟩ | ⟨-, ho⟩
      · exact .inr (.inr (.inl ⟨p, hw, he, by omega, ho⟩))
      · exact .inr (.inr (.inr ho))

/-- The owner table after one change of owner. -/
theorem owners_setOwner (p : Pool) (q r : PageId) (o : Option Holder) :
    (p.setOwner q o).owners[r] = if r = q then o else p.owners[r] := by
  unfold Pool.setOwner
  by_cases hr : r = q
  · subst hr
    simp
  · rw [if_neg hr]
    exact Vector.getElem_set_ne q.isLt r.isLt (fun hv => hr (Fin.ext hv.symm))

/-- R87: a freed page has no owner and no record; nothing else changes. -/
theorem freePage_eq (page : PageId) (s : State) :
    freePage page s = { s with
      cache := { s.cache with directory := s.cache.directory.filter fun r => r.page != page }
      pool := s.pool.setOwner page none } :=
  rfl

/-- R48: what leaves with a console's oldest page lies in its record and the notice queue alone. -/
theorem oldestPageLeaves_frame (n : Node) (s : State) :
    (oldestPageLeaves n s).pending = s.pending ∧ (oldestPageLeaves n s).phase = s.phase
      ∧ (oldestPageLeaves n s).lines = s.lines ∧ (oldestPageLeaves n s).power = s.power
      ∧ (oldestPageLeaves n s).ram = s.ram ∧ (oldestPageLeaves n s).pool = s.pool
      ∧ (oldestPageLeaves n s).units = s.units ∧ (oldestPageLeaves n s).ports = s.ports
      ∧ (oldestPageLeaves n s).cache = s.cache ∧ (oldestPageLeaves n s).boot = s.boot
      ∧ (oldestPageLeaves n s).loader = s.loader := by
  unfold oldestPageLeaves
  dsimp only
  split
  · exact ⟨rfl, rfl, rfl, rfl, rfl, rfl, rfl, rfl, rfl, rfl, rfl⟩
  · split
    · split <;> exact ⟨rfl, rfl, rfl, rfl, rfl, rfl, rfl, rfl, rfl, rfl, rfl⟩
    · exact ⟨rfl, rfl, rfl, rfl, rfl, rfl, rfl, rfl, rfl, rfl, rfl⟩

/-! ## Ports (R112) -/

/-- R112: the end of an active command is the state the statements name; without one nothing happens. -/
theorem endCommand_eq (n : Node) (st : Status) (s : State) :
    endCommand n st s = match (port s n).active with
      | some a => commandEnded n a st s
      | none => s := by
  unfold endCommand
  cases h : (port s n).active with
  | none => rfl
  | some a =>
    simp only [commandEnded, State.modPort, State.modCache, endedPort, Port.settleTimer, Port.counting, Port.state]
    rfl

/-- R110, R200: what a port's MISO carries after a command: the filler of the bytes that came in, the status block of the
port as it stands, and what follows. -/
theorem response_respond (n : Node) (taken : Nat) (txn : Byte) (r : Status) (after : List Byte) (s : State) :
    (port (respond n taken txn r after s) n).response
      = List.replicate taken 0xFF#8 ++ statusBlock (port s n) txn r ++ after := by
  simp [respond, State.modPort, port, Per4.modify, Port.settleTimer, fillerFor, filler]

/-! ## Characters (R40, R53) -/

/-- R40, R53: a character on the wire has as many bits as the settings give it. -/
theorem length_characterBits (c : ConsoleSettings) (b : Byte) : (characterBits c b).length = c.charBits := by
  unfold characterBits uartBits ConsoleSettings.charBits
  cases c.parity <;> simp [parityBits] <;> omega

/-! ## Leaving service (R87, R134, R145) -/

/-- What follows a unit's leaving service: the entry-wait order is served; the held writes are offered again exactly
where pages became free, and stores are issued in either case. -/
theorem afterLeaving_cases (before s : State) :
    (before.pool.free < s.pool.free ∧ afterLeaving before s = poolChanged (serveEntryWait entryWaitFuel s))
      ∨ (s.pool.free ≤ before.pool.free
          ∧ afterLeaving before s = issueStores storeFuel (serveEntryWait entryWaitFuel s)) := by
  unfold afterLeaving
  by_cases h : before.pool.free < s.pool.free
  · exact .inl ⟨h, if_pos h⟩
  · exact .inr ⟨Nat.le_of_not_lt h, if_neg h⟩

/-! ## Matching (R155) -/

/-- The model's suffix test is the list library's. -/
theorem endsWith_iff (text p : List Byte) : endsWith text p = true ↔ p <:+ text := by
  unfold endsWith
  rw [Bool.and_eq_true, decide_eq_true_eq, beq_iff_eq, List.suffix_iff_eq_drop]
  constructor
  · exact fun h => h.2.symm
  · intro h
    refine ⟨?_, h.symm⟩
    have hl := congrArg List.length h
    rw [List.length_drop] at hl
    omega

/-- The length found ends the text, and no longer one up to the bound does. -/
theorem longestMatch_spec (literal text : List Byte) : ∀ k : Nat,
    longestMatch literal text k ≤ k ∧ literal.take (longestMatch literal text k) <:+ text
      ∧ ∀ m : Nat, m ≤ k → literal.take m <:+ text → m ≤ longestMatch literal text k
  | 0 => ⟨Nat.le_refl 0, by simp [longestMatch], fun m hm _ => hm⟩
  | k + 1 => by
    obtain ⟨hle, hs, hmax⟩ := longestMatch_spec literal text k
    unfold longestMatch
    split
    · rename_i he
      exact ⟨Nat.le_refl _, (endsWith_iff _ _).mp he, fun m hm _ => hm⟩
    · rename_i he
      refine ⟨Nat.le_succ_of_le hle, hs, fun m hm hsuf => ?_⟩
      rcases Nat.lt_or_ge k m with h | h
      · obtain rfl : m = k + 1 := by omega
        exact absurd ((endsWith_iff _ _).mpr hsuf) he
      · exact hmax m h hsuf

end Sys2Proof.Machine
end

