-- ==== Sys2Proof/Laws/Pins.lean ====
section
/-!
SUPPORT. What goes over the lines bit by bit comes in as it went out: a byte on the link (R174), and the bytes of a
transaction at a node media port, in either SPI mode (R110).
-/

namespace Sys2Proof.Machine

/-! ## Bits in blocks of one length -/

/-- In a row of blocks of one length, the place `j` of block `i` is the place `k * i + j` of the row. -/
theorem getD_flatMap_block {α β : Type} {f : α → List β} {k : Nat} (hk : ∀ a, (f a).length = k) (d : β) :
    ∀ (l : List α) (i j : Nat) (a : α), l[i]? = some a → j < k → (l.flatMap f).getD (k * i + j) d = (f a).getD j d
  | [], i, j, a, h, _ => by simp at h
  | x :: l, 0, j, a, h, hj => by
    obtain rfl : x = a := by simpa using h
    simp [List.getD_eq_getElem?_getD, List.getElem?_append_left, hk, hj]
  | x :: l, i + 1, j, a, h, hj => by
    have ih := getD_flatMap_block hk d l i j a (by simpa using h) hj
    have e : k * (i + 1) + j = (f x).length + (k * i + j) := by rw [hk, Nat.mul_succ]; omega
    rw [List.getD_eq_getElem?_getD] at ih ⊢
    rw [List.flatMap_cons, e, List.getElem?_append_right (Nat.le_add_right _ _), Nat.add_sub_cancel_left]
    exact ih

/-- Past the last block the row has ended. -/
theorem getD_flatMap_beyond {α β : Type} {f : α → List β} {k : Nat} (hk : ∀ a, (f a).length = k) (d : β) (l : List α)
    {i : Nat} (h : k * l.length ≤ i) : (l.flatMap f).getD i d = d := by
  have e : (l.flatMap f).length = k * l.length := by
    induction l with
    | nil => simp
    | cons x l ih => rw [List.flatMap_cons, List.length_append, hk, ih (by simp at h; grind), List.length_cons, Nat.mul_succ]; omega
  rw [List.getD_eq_getElem?_getD, List.getElem?_eq_none (by omega)]
  rfl

/-! ## The link (R174, R184) -/

/-- R174: a byte takes ten bit times. -/
theorem length_linkBits (b : Byte) : (linkBits b).length = 10 := by
  simp [linkBits, uartBits, parityBits]

/-- R174: the ten bit times of a byte on TX are that byte, with its stop bit high, on the other side's RX. -/
theorem lineByte_linkBits : ∀ b : Byte, lineByte? (linkBits b) = some { data := b, stop := true } := by
  decide +kernel

/-! ## The node media port (R110) -/

/-- R110: a byte takes eight clocks. -/
theorem length_spiBits (b : Byte) : (spiBits b).length = 8 := by simp [spiBits]

/-- R110: the eight bits of a byte are that byte. -/
theorem spiBytes_spiBits (b : Byte) (rest : List Bool) : spiBytes (spiBits b ++ rest) = b :: spiBytes rest := by
  have h : ∀ b : Byte, BitVec.ofNat 8 (bitsNumber [b.getMsbD 7, b.getMsbD 6, b.getMsbD 5, b.getMsbD 4, b.getMsbD 3,
      b.getMsbD 2, b.getMsbD 1, b.getMsbD 0]) = b := by decide +kernel
  simp only [spiBits, List.range, List.range.loop, List.map_cons, List.map_nil, List.cons_append, List.nil_append,
    spiBytes, h]

/-- R110: the bits of some bytes are those bytes. -/
theorem spiBytes_flatMap (bytes : List Byte) : spiBytes (bytes.flatMap spiBits) = bytes := by
  induction bytes with
  | nil => rfl
  | cons b bytes ih => rw [List.flatMap_cons, spiBytes_spiBits, ih]

/-- R110: bits make as many bytes as there are eights among them. -/
theorem length_spiBytes : ∀ bits : List Bool, (spiBytes bits).length = bits.length / 8
  | b7 :: b6 :: b5 :: b4 :: b3 :: b2 :: b1 :: b0 :: rest => by
    simp only [spiBytes, List.length_cons, length_spiBytes rest]
    omega
  | [] | [_] | [_, _] | [_, _, _] | [_, _, _, _] | [_, _, _, _, _] | [_, _, _, _, _, _] | [_, _, _, _, _, _, _] => by
    simp [spiBytes]

/-- One clock of a node: the level of the clock before it does not matter to the bit that comes in. -/
theorem mosiBits_clock (a : SpiPins) (b : Bool) (rest : List SpiPins) :
    mosiBits (a :: { sck := .low, mosi := levelOf b } :: { sck := .high, mosi := levelOf b } :: rest)
      = b :: mosiBits ({ sck := .high, mosi := levelOf b } :: rest) := by
  cases b <;> simp [mosiBits, levelOf]

/-- R110: what a node clocks in comes in, in either mode. -/
theorem mosiBits_nodeClocks (mode : Nat) (bits : List Bool) : mosiBits (nodeClocks mode bits) = bits := by
  have key : ∀ (bits : List Bool) (a e : SpiPins), (e.sck = .low ∨ a.sck = .high ∨ bits ≠ []) →
      mosiBits (a :: ((bits.flatMap fun b => [{ sck := .low, mosi := levelOf b }, { sck := .high, mosi := levelOf b }])
        ++ [e])) = bits := by
    intro bits
    induction bits with
    | nil =>
      intro a e h
      rcases h with h | h | h
      · simp [mosiBits, h]
      · simp [mosiBits, h]
      · exact absurd rfl h
    | cons b bits ih =>
      intro a e _
      simp only [List.flatMap_cons, List.cons_append, List.nil_append]
      rw [mosiBits_clock, ih _ _ (.inr (.inl rfl))]
  refine key bits _ _ ?_
  cases h : sckIdle mode <;> simp

/-- The falling edges of a node's clocks up to the rising edge of bit `i`: where the clock idles low the first bit has
none before it. -/
theorem fallingEdges_nodeClocks (mode : Nat) (bits : List Bool) {i : Nat} (h : i < bits.length) :
    misoBit mode (fallingEdges ((nodeClocks mode bits).take (2 * i + 3))) = i := by
  have key : ∀ (bits : List Bool) (i : Nat) (a : SpiPins) (e : List SpiPins), i < bits.length →
      fallingEdges ((a :: ((bits.flatMap fun b => [{ sck := .low, mosi := levelOf b },
        { sck := .high, mosi := levelOf b }]) ++ e)).take (2 * i + 3)) = i + (if a.sck = .high then 1 else 0) := by
    intro bits
    induction bits with
    | nil => intro i a e h; exact absurd h (by simp)
    | cons b bits ih =>
      intro i a e h
      cases i with
      | zero => simp [fallingEdges]
      | succ i =>
        have hi : i < bits.length := by simpa using h
        have e2 : 2 * (i + 1) + 3 = (2 * i + 3) + 1 + 1 := by omega
        have := ih i { sck := .high, mosi := levelOf b } e hi
        simp only [List.flatMap_cons, List.cons_append, List.nil_append, e2, List.take_succ_cons, fallingEdges] at this ⊢
        simp only [reduceCtorEq, and_true, and_false, if_false, Nat.zero_add, if_true] at this ⊢
        split <;> omega
  unfold nodeClocks misoBit
  rw [key bits i _ _ h]
  cases sckIdle mode <;> simp

end Sys2Proof.Machine
end

