-- ==== Sys2Proof/Laws/Queues.lean ====
section
/-!
SUPPORT. What the shared operations over the queues of the link do, each said once: queueing a reply (R178) and a
notice (R179, R180), taking a request that completes (R177), taking an answer, and adding a mark (R50).
-/

namespace Sys2Proof.Machine

/-! ## Replies -/

/-- With a free entry and no reply waiting for room, a reply joins the end of the reply queue. -/
theorem Link.addReply_free (r : Reply) (k : Link) (h : k.replies.length < replyRoom) (hw : k.waiting = []) :
    k.addReply r = { k with replies := k.replies ++ [r] } := by
  unfold Link.addReply
  rw [if_pos ⟨h, hw⟩]

/-- Otherwise it joins the end of the waiting list. -/
theorem Link.addReply_full (r : Reply) (k : Link) (h : ¬ (k.replies.length < replyRoom ∧ k.waiting = [])) :
    k.addReply r = { k with waiting := k.waiting ++ [r] } := by
  unfold Link.addReply
  rw [if_neg h]

/-- The reply that a ready state queues once its receiver hunts. -/
theorem reply_hunt {s : State} (h : RequestReady s) (tag : Tag) (kind : Byte) (r : Result) (d : List Byte) :
    State.reply tag kind r d (hunt s) = answered s (replyTo tag kind r d) := by
  obtain ⟨-, -, hw, hr⟩ := h
  simp only [State.reply, hunt, State.modLink, answered, replyTo]
  rw [Link.addReply_free]
  · exact hr
  · exact hw

/-! ## Requests (R177) -/

/-- A link whose receiver is the only holder of a buffer has a buffer for the frame that completes. -/
theorem frameBuffer_some {k : Link} (h : k.inbox = []) : ∃ b, frameBuffer k = some b := by
  unfold frameBuffer
  cases hk : k.receiver with
  | some b => exact ⟨b, rfl⟩
  | none => exact ⟨0, by simp [Link.freeBuffer, Link.occupied, h, hk]⟩

/-- R177: in a ready state a complete request is served at once. -/
theorem receiveRequest_ready {s : State} (h : RequestReady s) (kind : Byte) (tag : Tag) (body : List Byte)
    (pins : NodePins) : receiveRequest kind tag body pins s = serveRequest kind tag body pins (hunt s) := by
  obtain ⟨-, hi, hw, hr⟩ := h
  obtain ⟨b, hb⟩ := frameBuffer_some hi
  unfold receiveRequest
  rw [hb]
  simp only [takeRequests, State.modLink, hi, List.nil_append, List.length_singleton, drainRequests, Link.mayTake, hw,
    hr, decide_true, List.isEmpty_nil, Bool.and_self, if_true]
  simp only [hunt, State.modLink, ← hi, ← hw]

/-- R177: a request that completes while no reply entry is free, or while a reply waits for room, waits in its
buffer. -/
theorem receiveRequest_waits {s : State} {b : Fin 4} (hb : frameBuffer s.link = some b) (hm : s.link.mayTake = false)
    (kind : Byte) (tag : Tag) (body : List Byte) (pins : NodePins) :
    receiveRequest kind tag body pins s = s.modLink fun k =>
      { k with
        receiver := none
        inbox := k.inbox ++ [{ buffer := b, kind := kind, tag := tag, body := body }] } := by
  unfold receiveRequest
  rw [hb]
  have key : ∀ (n : Nat) (t : State), t.link.mayTake = false → drainRequests pins n t = t := by
    intro n t ht
    cases n with
    | zero => rfl
    | succ n =>
      unfold drainRequests
      split
      · rfl
      · rw [ht]
        rfl
  exact key _ _ hm

/-- The outcome of a request command in a ready state, with what it finds on the nodes' pins. -/
theorem requestMeeting_ready {s : State} (h : RequestReady s) (pins : NodePins) (kind : Byte) (tag : Tag)
    {body : List Byte} (hb : bodyFits body = true) :
    requestMeeting pins kind tag body s = .next (serveRequest kind tag body pins (hunt s)) := by
  unfold requestMeeting
  rw [if_pos hb]
  unfold State.whenRunning
  rw [if_pos h.1, receiveRequest_ready h]

/-- The outcome of a request command that looks at no pin in a ready state. -/
theorem requestFrame_ready {s : State} (h : RequestReady s) (kind : Byte) (tag : Tag) {body : List Byte}
    (hb : bodyFits body = true) : requestFrame kind tag body s = .next (serveRequest kind tag body unseenPins (hunt s)) :=
  requestMeeting_ready h unseenPins kind tag hb

/-- R30: a POWER ACTION's outcome in a ready state: it is served, and behind it a recovery that it was taken ahead of
starts. -/
theorem execPowerAction_ready {s : State} (h : RequestReady s) (tag : Tag) {body : List Byte} (ahead : Bool)
    (hb : bodyFits body = true) :
    execPowerAction tag ⟨body, ahead⟩ s = .next (startBehind ahead body (serveRequest 0x20#8 tag body unseenPins (hunt s))) := by
  unfold execPowerAction
  rw [if_pos hb]
  unfold State.whenRunning
  rw [if_pos h.1]
  dsimp only
  rw [receiveRequest_ready h]

/-- Without a recovery to start, and for a POWER ACTION not taken ahead of one, nothing follows the request. -/
theorem startBehind_nothing {ahead : Bool} {body : List Byte} {s : State}
    (h : ahead = true → ∀ n, actionNode? body = some n → s.action n = none → s.power.slot.get n = none) :
    startBehind ahead body s = s := by
  unfold startBehind
  cases ahead with
  | false => rfl
  | true =>
    cases hn : actionNode? body with
    | none => rfl
    | some n =>
      cases ha : s.action n with
      | some a => simp [ha]
      | none => simp [ha, startPending, h rfl n hn ha]

/-- R30: what a completion does: nothing without an action; else steps 1 to 4, and step 5 unless a POWER ACTION is taken
before it. -/
theorem complete_cases (n : Node) (r : ActionResult) (s : State) :
    (s.action n = none ∧ complete n r s = s)
      ∨ ∃ a t, s.action n = some a
          ∧ t = (if completionArms a.kind r then armingCause n false (endAction n a r s) else endAction n a r s)
          ∧ (requestAhead t n = true ∧ complete n r s = t ∨ requestAhead t n = false ∧ complete n r s = startPending n t) := by
  unfold complete
  cases ha : s.action n with
  | none => exact .inl ⟨rfl, rfl⟩
  | some a =>
    refine .inr ⟨a, _, rfl, rfl, ?_⟩
    dsimp only
    cases h : requestAhead (if completionArms a.kind r then armingCause n false (endAction n a r s)
      else endAction n a r s) n with
    | true => exact .inl ⟨rfl, if_pos rfl⟩
    | false => exact .inr ⟨rfl, if_neg Bool.false_ne_true⟩

/-! ## Answers and notices -/

/-- An answer that finds a buffer has its effect with the receiver hunting. -/
theorem receiveAnswer_some {s : State} {b : Fin 4} (hb : frameBuffer s.link = some b) (f : State → State) :
    receiveAnswer f s = f (hunt s) := by
  unfold receiveAnswer
  rw [hb]

/-- R179, R180: what queueing a notice does: an unsent entry is updated, the notice joins the end, or it is dropped and
counted. -/
theorem Link.addNotice_cases (new : Notice) (k : Link) :
    (∃ es, updateNotice new k.lost k.notices = some es ∧ k.addNotice new = { k with notices := es, lost := 0 })
      ∨ (updateNotice new k.lost k.notices = none ∧ k.notices.length < noticeRoom
          ∧ k.addNotice new
            = { k with notices := k.notices ++ [{ notice := new, lostBefore := k.lost, occurrences := 1 }], lost := 0 })
      ∨ (updateNotice new k.lost k.notices = none ∧ noticeRoom ≤ k.notices.length
          ∧ k.addNotice new = { k with lost := min lostMax (k.lost + 1) }) := by
  unfold Link.addNotice
  cases hu : updateNotice new k.lost k.notices with
  | some es => exact .inl ⟨es, rfl, rfl⟩
  | none =>
    by_cases hl : k.notices.length < noticeRoom
    · exact .inr (.inl ⟨rfl, hl, by simp only [if_pos hl]⟩)
    · exact .inr (.inr ⟨rfl, by omega, by simp only [if_neg hl]⟩)

/-- An update of an unsent entry keeps the number of entries. -/
theorem updateNotice_length {new : Notice} {lost : Nat} : ∀ {l es : List NoticeEntry},
    updateNotice new lost l = some es → es.length = l.length
  | [], _, h => by simp [updateNotice] at h
  | e :: rest, es, h => by
    unfold updateNotice at h
    split at h
    · obtain rfl := Option.some.inj h
      rfl
    · obtain ⟨es', h', rfl⟩ := Option.map_eq_some_iff.mp h
      simp [updateNotice_length h']

/-- The notice queue keeps its bounds. -/
theorem Link.addNotice_bounds (new : Notice) (k : Link) (hn : k.notices.length ≤ noticeRoom) :
    (k.addNotice new).notices.length ≤ noticeRoom ∧ (k.addNotice new).lost ≤ lostMax := by
  rcases Link.addNotice_cases new k with ⟨es, hu, he⟩ | ⟨-, hroom, he⟩ | ⟨-, -, he⟩
  · rw [he]
    exact ⟨by rw [updateNotice_length hu]; exact hn, Nat.zero_le _⟩
  · rw [he]
    refine ⟨?_, Nat.zero_le _⟩
    simp only [List.length_append, List.length_singleton]
    omega
  · rw [he]
    exact ⟨hn, Nat.min_le_left _ _⟩

/-! ## Marks -/

/-- A console's mark list keeps its size. -/
theorem Console.addMark_length (kind : MarkKind) (c : Console) (h : c.marks.length ≤ markRoom) :
    (c.addMark kind).marks.length ≤ markRoom := by
  unfold Console.addMark
  simp only [List.length_append, List.length_singleton]
  split
  · omega
  · rw [List.length_drop]
    have : markRoom = 32 := rfl
    omega

/-- The newest mark stands at the live offset. -/
theorem Console.addMark_last (kind : MarkKind) (c : Console) :
    (c.addMark kind).marks.getLast? = some { offset := c.live, kind := kind } := by
  simp [Console.addMark]

end Sys2Proof.Machine
end

