-- ==== Sys2Proof/Tests/Slice0.lean ====
section
/-!
SUPPORT. The author's own tests: the smoke tests of WellFormed, small tests of the commands whose expected results
come from the spec's rules, and for each clause of each statement a witness that its hypotheses can be met.
-/

namespace Sys2Proof.Tests

open Sys2Proof.Machine

-- one theorem after another: each of the many kernel evaluations would else hold a thread of its own
set_option Elab.async false

/-! ## Small states -/

/-- The part right after a load without a settings device, its START notice sent. -/
def ready : State := { State.reset with phase := .running, link := { resetLink with rtsOn := true } }

/-- The lines of a wired node: L0 POWER_BUTTON, L1 RESET, L2 POWER_GOOD active high at a level, L3 BOOT_SELECT, L4 DIAG
with a level sense, L5 unused; every other level is high. -/
def wiring (good : Level) : Per6 Line :=
  let base : Line := { defaultLine with level := .high, last := .high }
  ⟨{ base with role := .powerButton, notify := true },
   { base with role := .reset, sense := .both, notify := true },
   { base with role := .powerGood, active := .high, sense := .both, notify := true, level := good, last := good },
   { base with role := .bootSelect },
   { base with role := .diag, drive := .pushPull, active := .high, sense := .levelHigh, flag := true },
   base⟩

/-- Node N2 wired, its power good at a level. -/
def powered (good : Level) : State :=
  { ready with
    lines := { ready.lines with
      line := ready.lines.line.set 2 (wiring good)
      power := ready.lines.power.set 2 (powerOf (wiring good)) } }

/-- Node N2 wired and on. -/
def onState : State := powered .high

/-- Node N2 wired and off. -/
def offState : State := powered .low

/-- Node N2 wired, but for a power good line. -/
def blindState : State :=
  { onState with
    lines := { onState.lines with
      line := onState.lines.line.modify 2 fun ls => ls.modify 2 fun x => { x with role := .generalIn }
      power := onState.lines.power.set 2 .unknown } }

/-- An action of the host with tag 3. -/
def hostAction (kind : ActionKind) (state : ActionState) (held : Option LineId) : Action :=
  { kind := kind, originator := .host 3, state := state, confirmed := true, lostConfirmation := false,
    escalate := false, escalated := false, timer := 5, timings := defaultTimings, held := held }

/-- An action running on N2, with the line it holds. -/
def acting (a : Action) (s : State) : State :=
  { s with
    power := { s.power with action := s.power.action.set 2 (some a) }
    lines := match a.held with
      | some l => { s.lines with
          line :=
            s.lines.line.modify 2 fun ls => ls.modify l fun x => { x with owner := .action 2, driven := true } }
      | none => s.lines }

/-- A watch for N2 with tag 9. -/
def watching (s : State) : State :=
  { s with
    power := { s.power with
      watch := some { tag := 9, expected := ⟨.any, .any, .on, .any⟩, timeout := 9, remaining := 9000 } } }

/-- N2's supervisor in a state, after three attempts with the fallback driven. -/
def supervised (x : SupState) (s : State) : State :=
  { s with
    boot := { s.boot with
      supervisor := s.boot.supervisor.set 2
        { state := x, deadline := some 77, attempts := 3, fallback := true, lastFailure := some .deadline } } }

/-- A policy with deadlines, a recovery, a limit and an attempt from which the fallback boots. -/
def policyOf (recovery : RecoveryPolicy) (final limit m : Nat) : Policy :=
  { deadlines := ⟨3600, 1, 0, 0, 0, 256⟩, final := final, recovery := recovery, limit := limit, fallbackFrom := m }

/-- A policy in force for N2. -/
def governed (p : Policy) (s : State) : State := { s with
    boot := { s.boot with
      policy := s.boot.policy.set 2 p } }

/-- A node's BOOT_SELECT line owned by its supervisor and ACTIVE. -/
def selecting (s : State) (n : Node := 2) : State :=
  { s with
    lines := { s.lines with
      line := s.lines.line.modify n fun ls => ls.modify 3 fun x => { x with owner := .supervisor, driven := true } } }

/-- Change N1's console. -/
def console (f : Console → Console) (s : State) : State := { s with consoles := s.consoles.modify 1 f }

/-- A unit in service. -/
def inService (mode : Mode) (nodes : Per4 Bool) : MediaUnit :=
  { resetUnit with
    state := .attached, capacity := 1000, mode := mode, nodes := nodes, timeout := 50, dirtyLimit := 16 }

/-- U1 serves N0 and N1 with FIRST_WRITER, U2 serves N2 alone. -/
def served : State :=
  { ready with units :=
      ⟨resetUnit, inService .firstWriter ⟨true, true, false, false⟩, inService .exclusive ⟨false, false, true, false⟩,
       resetUnit⟩ }

/-- A block of equal bytes. -/
def block (b : Byte) : List Byte := List.replicate 512 b

/-- A cache page of U1. -/
def page (p : PageId) (lba : Nat) (state : PageState) : DirRecord :=
  { page := p, unit := 1, lba := lba, state := state, age := 3, redirtied := false }

/-- The cache holding these pages. -/
def caching (records : List DirRecord) (s : State) : State :=
  { s with
    cache := { s.cache with directory := records }
    pool := { s.pool with
      owners := records.foldl (fun o r => o.set r.page.val (some (.mh r.unit)) r.page.isLt) s.pool.owners } }

/-- Change a port. -/
def portWith (n : Node) (f : Port → Port) (s : State) : State := { s with ports := s.ports.modify n f }

/-- A command on a port. -/
def command (kind : CommandKind) (first count done : Nat) : ActiveCommand :=
  { kind := kind, first := first, count := count, effective := count, done := done }

/-- A fetch of U1 in entry 0, of generation 1. -/
def fetching (first : Nat) (blocks : List BlockState) (s : State) : State :=
  { s with
    cache := { s.cache with
      fetches := s.cache.fetches.set 0
        { generation := 1, busy := some { unit := 1, first := first, blocks := blocks, created := 0 } } }
    link := { s.link with calls := s.link.calls ++ [.fetch 0] } }

/-- A store of U1 in entry 0, of generation 1. -/
def storing (lba : Nat) (p : PageId) (s : State) : State :=
  { s with
    cache := { s.cache with
      stores := s.cache.stores.set 0
        { generation := 1, busy := some { unit := 1, lba := lba, page := p, created := 0 } } }
    link := { s.link with calls := s.link.calls ++ [.store 0] } }

/-- N0 reads blocks 3 to 6 of U1 and waits for the first; all four are being fetched. -/
def readingState : State :=
  fetching 3 [.waiting, .waiting, .waiting, .waiting]
    (portWith 0 (fun p => { p with active := some (command .read 3 4 0), wait := .page })
      (caching [page 8 3 .filling, page 9 4 .filling, page 10 5 .filling, page 11 6 .filling] served))

/-- N1 writes blocks 9 and 10 of U1 and has given the first, which is being stored. -/
def writingState : State :=
  storing 9 12 (portWith 1 (fun p => { p with active := some (command .write 9 2 1), idleTimer := some 2000 })
    (caching [page 12 9 .storing] served))

/-- Block 3 of U1 is CLEAN; N0 has it in its slot. -/
def stagedState : State :=
  portWith 0 (fun p => { p with
    active := some (command .read 3 1 0), slots := [{ lba := 3, data := block 9 }], idleTimer := some 5 })
    (caching [page 8 3 .clean] served)

/-- Frames in link buffers. -/
def buffered (receiver : Option (Fin 4)) (buffers : List (Fin 4)) (s : State) : State :=
  { s with
    link := { s.link with
      receiver := receiver
      inbox := buffers.map fun b => { buffer := b, kind := 0x01#8, tag := 3, body := [] } } }

/-- A save with tag 5 in a phase, of the settings of the ready state. -/
def saving (phase : SaveState) (s : State) : State :=
  { s with loader := { s.loader with save := phase, snapshot := some ready.settings.image, saveTag := some 5 } }

/-- What bytes on the link are, each with its stop bit high. -/
def received (bytes : List Byte) : List Instr := receivedCommands ⟨false, .low, false⟩ none (bytes.map fun b => ⟨b, true⟩)

/-- What a command leaves. -/
def after (c : Instr) (s : State) : State := match exec c s with | .next t => t | _ => s

/-- An outcome is a next state. -/
def isNext (o : Host.Outcome State Fault Refusal) : Bool := match o with | .next _ => true | _ => false

/-- The next state of a step. -/
def stepped (s : State) : State := match step s with | .next t => t | _ => s

theorem step_next {s : State} (h : isNext (step s) = true) : step s = .next (stepped s) := by
  unfold stepped
  cases hs : step s with
  | next t => rfl
  | fault f => rw [hs] at h; exact absurd h Bool.false_ne_true
  | refused r => rw [hs] at h; exact absurd h Bool.false_ne_true

/-- One command waiting. -/
def queued (c : Instr) (s : State) : State := { s with pending := [c] }

/-- A reply queue with no free entry. -/
def crowded : State :=
  { ready with
    link := { ready.link with replies := List.replicate 16 { tag := 1, body := [0x01#8, 0x00#8], rate := none } } }

/-- Settings that R2 refuses: an open-drain output that is active high. -/
def openDrainHigh : LineSettings :=
  { role := .generalOut, drive := .openDrain, active := .high, sense := .none, notify := false }

/-- A RESET line. -/
def secondReset : LineSettings :=
  { role := .reset, drive := .openDrain, active := .low, sense := .both, notify := true }

/-- An input with a level sense. -/
def levelInput : LineSettings :=
  { role := .generalIn, drive := .pushPull, active := .low, sense := .levelHigh, notify := false }

/-- An output without a sense. -/
def plainOutput : LineSettings :=
  { role := .generalOut, drive := .openDrain, active := .low, sense := .none, notify := false }

/-- The lines of N2 after `levelInput` for L4 and `plainOutput` for L5. -/
def reconfigured : Per6 Line :=
  let ls := onState.lines.line.get 2
  { ls with
    l4 := { ls.l4 with role := .generalIn, drive := .pushPull, active := .low }
    l5 := { ls.l5 with role := .generalOut } }

/-- N2's L1 was sampled low once. -/
def risingState : State :=
  { onState with
    lines := { onState.lines with
      line := (onState.lines.line.map fun ls => ls.map fun x => { x with last := .high }).modify 2 fun ls =>
        ls.modify 1 fun x => { x with last := .low } } }

/-- The lines of a state after a sample. -/
def sampled (pins : BitVec 24) (s : State) : Per4 (Per6 Line) :=
  Per4.build fun m => Per6.build fun l => (s.line m l).afterSample (pinLevel pins m l)

/-- N2's power good was sampled once at this level, its flag set. -/
def goodAt (x : Level) (s : State) : State :=
  { s with
    lines := { s.lines with
      line := s.lines.line.modify 2 fun ls => ls.modify 2 fun y => { y with last := x, flag := true } } }

/-- N2 is about to be found OFF: a HARD OFF holds its button, its console has bytes to send and its port reads. -/
def fallingState : State :=
  let s := goodAt .low (supervised (.watching 1) (watching (acting (hostAction .hardOff .holding (some 0)) onState)))
  { s with
    consoles := s.consoles.modify 2 fun c => { c with fifo := [1#8, 2#8] }
    ports := s.ports.modify 2 fun p => { p with active := some (command .read 3 4 1), wait := .page } }

/-- N2 is about to be found ON: a POWER ON waits for it. -/
def comingState : State := goodAt .high (watching (acting (hostAction .powerOn .waitingOn none) offState))

/-- A CYCLE recovery waits for N2. -/
def recoveryDue (s : State) : State :=
  let t := supervised (.recovering false) s
  { t with power := { t.power with slot := t.power.slot.set 2 (some .cycle) } }

/-- What the start of that recovery leaves of a state, in which it finds N2 as it stands in `s`. -/
def recovered (s x : State) : State :=
  { x with
    lines := { x.lines with
      line := x.lines.line.modify 2 fun ls => ls.modify 0 fun y => { y with owner := .action 2, driven := true } }
    power := { x.power with
      slot := s.power.slot.set 2 none
      action := s.power.action.set 2 (some
        { kind := .cycle, originator := .supervisor, state := .holding, confirmed := true, lostConfirmation := false,
          escalate := false, escalated := false, timer := (s.power.timings.get 2).hold * 1000,
          timings := s.power.timings.get 2, held := some 0 }) }
    consoles := s.consoles.modify 2 (Console.addMark (.recovery .cycle))
    boot := { s.boot with
      supervisor := s.boot.supervisor.set 2 { s.supervisor 2 with state := .recovering true } }
    link := x.link.addNotice (.recovery 2 .started (some .cycle) (s.supervisor 2).attempts
      (s.supervisor 2).lastFailure (s.supervisor 2).fallback) }

/-- N2 is in a DIAG of the host, a recovery behind it. -/
def diagState : State := recoveryDue (acting (hostAction .diag .diagPulse (some 4)) onState)

theorem poolLaw_of {s : State} (a : UnitLaw s ∧ s.phase = .running) (b : SettingsLaw s)
    (c : (∀ n : Node, HistoryPagesLaw s n) ∧ DirectoryLaw s ∧ s.pool.borrowed ≤ s.pool.common) : PoolLaw s :=
  ⟨a.1, b, c.1, c.2.1, c.2.2, fun h => absurd a.2 h⟩

theorem poolLaw_served_reading : PoolLaw readingState :=
  poolLaw_of (by decide +kernel) (by decide +kernel) (by decide +kernel)

theorem poolLaw_reading : PoolLaw (queued (.fetchTimeout 0) readingState) := poolLaw_served_reading

theorem poolLaw_writing : PoolLaw writingState :=
  poolLaw_of (by decide +kernel) (by decide +kernel) (by decide +kernel)

/-- N1 writes as before, and block 3 is being fetched. -/
def fillingState : State :=
  fetching 3 [.waiting] (caching [page 8 3 .filling, page 12 9 .storing] writingState)

theorem poolLaw_filling : PoolLaw fillingState :=
  poolLaw_of (by decide +kernel) (by decide +kernel) (by decide +kernel)

/-- Consecutive pages of a unit, three of them CLEAN: the sixth younger, the eighth and the tenth of one age. -/
def pageRun (u : UnitId) (first count : Nat) : List DirRecord :=
  (List.range count).map fun k =>
    { page (Fin.ofNat 256 (first + k)) k (if k = 5 ∨ k = 7 ∨ k = 9 then .clean else .dirty) with
      unit := u, age := if k = 5 then 3 else 8 }

/-- U0 holds 60 pages, its reservation of 8 and its ceiling of 52. -/
def cappedState : State := caching (pageRun 0 8 60) ready

/-- The whole common part is lent: U0 and U1 hold 60 and 112 pages, and the reservations sum to 102. -/
def lentState : State :=
  let s := caching (pageRun 0 8 60 ++ pageRun 1 68 112) ready
  { s with
    pool := { s.pool with
      consoles := (Per4.all (resetHolder 4 2)).set 2 (resetHolder 2 2)
      caches := (Per4.all (resetHolder 8 4)).set 3 (resetHolder 64 4) } }

/-- The pool with these reservations and shares. -/
def pooled (xs : List (Holder × Nat × Nat)) (s : State) : Pool :=
  let put (h : Holder) (x : HolderRecord) : HolderRecord :=
    match xs.lookup h with
    | some (r, y) => { x with reservation := r, share := y }
    | none => x
  { s.pool with
    consoles := Per4.build fun n => put (.ch n) (s.pool.consoles.get n)
    caches := Per4.build fun u => put (.mh u) (s.pool.caches.get u) }

/-- U1 in a state. -/
def unitIs (x : UnitState) (s : State) : State :=
  { s with units := s.units.modify 1 fun u => { u with state := x } }

/-- Block 10 of U1 is DIRTY, and every store entry is busy. -/
def dirtyState : State :=
  let s := caching [page 12 9 .storing, page 40 10 .dirty] writingState
  { s with
    cache := { s.cache with
      dirty := s.cache.dirty.set 1 [{ page := 40, moment := 7 }]
      stores :=
        Vector.replicate 8 { generation := 1, busy := some { unit := 1, lba := 9, page := 12, created := 0 } } } }

/-- Block 10 of U1 is CLEAN. -/
def cleanState : State := caching [page 12 9 .storing, page 40 10 .clean] writingState

/-- The page that is being stored was written again. -/
def redirtiedState : State := caching [{ page 12 9 .storing with redirtied := true }] writingState

/-- U1 holds 60 DIRTY pages, its ceiling reached. -/
def dirtyUnit : State := caching ((List.range 60).map fun k => page (Fin.ofNat 256 (8 + k)) (100 + k) .dirty) served

/-- Every fetch entry is busy. -/
def allFetching : State :=
  { served with
    cache := { served.cache with
      fetches := Vector.replicate 16
        { generation := 1, busy := some { unit := 1, first := 500, blocks := [.waiting], created := 0 } } } }

/-- N0's READ has delivered part of its blocks. -/
def reading (count done : Nat) (slots : List Slot) (wait : Wait) (s : State) : State :=
  portWith 0 (fun p => { p with
    active := some (command .read 3 count done), slots := slots, wait := wait, taking := some { lba := 3, live := true }
    idleTimer := some 5 }) s

/-- N0's READ of block 3 follows on the one before it; U1 has a read-ahead window and ends after block 4. -/
def aheadState : State :=
  let s := portWith 0 (fun p => { p with taking := some { lba := 3, live := true }, sequential := some 3 }) stagedState
  { s with units := s.units.modify 1 fun u => { u with window := 8, capacity := 5 } }

/-- U1 drains under tag 7, two pages stored; these are left, the first of them on the wire. -/
def draining (records : List DirRecord) : State :=
  let s := storing 9 12 (caching records served)
  { s with
    units := s.units.modify 1 fun u =>
      { u with state := .draining, nodes := Per4.all false, detachTag := some 7, stored := 2 } }

/-- U1's last two stores failed. -/
def unitFailedTwice (s : State) : State :=
  { s with units := s.units.modify 1 fun u => { u with consecutive := 2 } }

/-- N0 waits for the only block of its READ. -/
def oneBlockState : State :=
  fetching 3 [.waiting]
    (portWith 0 (fun p => { p with active := some (command .read 3 1 0), wait := .page })
      (caching [page 8 3 .filling] served))

/-- Pattern 5 has seen the first of its two bytes on N2, whose supervisor waits in stage k; the entry's stage is j. -/
def matched (j k : Nat) : State :=
  let s := governed (policyOf .reset 4 15 2) (supervised (.watching k) onState)
  { s with
    consoles := s.consoles.modify 2 fun c => { c with receiver := .receiving, live := 1, count := 1 }
    boot := { s.boot with
      patterns := s.boot.patterns.set 5
        { enabled := true, nodes := ⟨false, false, true, false⟩, literal := [0x61#8, 0x62#8], isFail := false,
          stage := j }
      partials := s.boot.partials.modify 2 fun v => v.set 5 1 } }

/-- What a frame error leaves, with the counters it leaves. -/
def linkFailed (s : State) (c : LinkCounters) : State :=
  { s with link := ({ s.link with receiver := none, counters := c } : Link).addNotice (.linkError c) }

/-- Both classes have something to send, with a run count. -/
def mixed (run : Nat) : State :=
  { readingState with
    link := { readingState.link with
      runCount := run
      replies := { tag := 1, body := [2#8, 0#8], rate := some 300000 }
        :: List.replicate 15 { tag := 2, body := [1#8, 0xA5#8], rate := none }
      waiting := [{ tag := 9, body := [2#8], rate := none }]
      notices := [{ notice := .strayAnswer 3, lostBefore := 0, occurrences := 1 },
        { notice := .flood 2 true 4, lostBefore := 3, occurrences := 1 }] } }

/-- Sixteen replies, and a CONSOLE STATUS of N2 that waits. -/
def statusWaits : State :=
  { ready with
    link := { ready.link with
      replies := { tag := 1, body := [2#8, 0#8], rate := none }
        :: List.replicate 15 { tag := 2, body := [1#8, 0xA5#8], rate := none }
      inbox := [{ buffer := 0, kind := 0x35#8, tag := 9, body := [2#8] }] } }

/-- N1 writes, and N2 is wired and on. -/
def writingWired : State := { writingState with lines := onState.lines }

theorem image_length : ready.settings.image.length = 794 := by decide +kernel

/-- The settings memory as the first three phases of a save leave it. -/
def sealed : State :=
  let s := saving .verifying ready
  { s with loader := { s.loader with eeprom := Memory.write eepromDefault [] 0 ready.settings.image } }

theorem sealed_agrees (a : Nat) (h : a < 794) :
    Memory.read eepromDefault sealed.loader.eeprom a = ready.settings.image.getD a 0xFF#8 := by
  show Memory.read eepromDefault (Memory.write eepromDefault [] 0 ready.settings.image) a = _
  rw [Memory.read_write, if_pos ⟨Nat.zero_le a, by rw [image_length]; omega⟩]
  rfl


/-! ## What no wire can carry -/

theorem test_wellFormed_request_too_long : (Instr.identify 1 (List.replicate 601 0#8)).wellFormed = false := by decide +kernel
theorem test_wellFormed_unknown_kind_is_request : (Instr.unknownKind 0x01#8 1 []).wellFormed = false := by decide +kernel
theorem test_wellFormed_unknown_kind_is_answer : (Instr.unknownKind 0x70#8 1 []).wellFormed = false := by decide +kernel
theorem test_wellFormed_unknown_kind_too_long :
    (Instr.unknownKind 0x05#8 1 (List.replicate 601 0#8)).wellFormed = false := by decide +kernel
theorem test_wellFormed_fill_short : (Instr.fill 1 0 (List.replicate 511 0#8)).wellFormed = false := by decide +kernel
theorem test_wellFormed_malformed_is_well_formed : (Instr.malformedAnswer 0x72#8 1 []).wellFormed = false := by decide +kernel
theorem test_wellFormed_malformed_is_request : (Instr.malformedAnswer 0x01#8 1 [1#8]).wellFormed = false := by decide +kernel
theorem test_wellFormed_malformed_too_long :
    (Instr.malformedAnswer 0x70#8 1 (List.replicate 601 0#8)).wellFormed = false := by decide +kernel
theorem test_wellFormed_escape_of_start : (Instr.escapeError 0x85#8).wellFormed = false := by decide +kernel
theorem test_wellFormed_escape_of_escape : (Instr.escapeError 0x86#8).wellFormed = false := by decide +kernel
theorem test_wellFormed_escape_before_start : (Instr.escapeError 0xA5#8).wellFormed = false := by decide +kernel
theorem test_wellFormed_length_allowed : (Instr.lengthError 600).wellFormed = false := by decide +kernel
theorem test_wellFormed_give_short : (Instr.give 0 1 (List.replicate 511 0#8) 0).wellFormed = false := by decide +kernel
theorem test_wellFormed_block_short : (Instr.badCommand 0 [1#8]).wellFormed = false := by decide +kernel
theorem test_wellFormed_image_short : (Instr.loadEnd 0 (.asRead [])).wellFormed = false := by decide +kernel
theorem test_wellFormed_read_back_outside :
    (Instr.verifyingEnd (some { address := 794, value := 0#8, inMemory := true })).wellFormed = false := by decide +kernel
theorem test_wellFormed_no_ack_outside : (Instr.saveNoAck 794 0).wellFormed = false := by decide +kernel

/-- An ill-formed command is the one fault. -/
theorem test_ill_formed_faults : exec (.saveNoAck 794 0) State.reset = .fault .illFormedCommand := rfl

/-- The table gives no word, so no word is fetched. -/
theorem test_no_word_spells_a_command : State.reset.withFetchWord 8 1 = State.reset := rfl

/-! ## The spec's worked figures and frames -/

/-- 09, after R155: "aab" against "aaab" goes to lengths 1, 2, 2, and completes. -/
theorem test_match_aab :
    advanceMatch [1#8, 1#8, 2#8] 2 1#8 = (2, false) ∧ advanceMatch [1#8, 1#8, 2#8] 2 2#8 = (0, true) := by
  decide

/-- 09, after R155: "abab" continues from 2. -/
theorem test_match_abab : advanceMatch [1#8, 2#8, 1#8, 2#8] 3 2#8 = (2, true) := by decide

/-- 03, worked reads: placing offsets against an oldest of 1024 and a live of 1800. -/
theorem test_placed : placed 1024 1800 600 = 1024 ∧ placed 1024 1800 1536 = 1536 ∧ placed 1024 1800 5000 = 1800 := by
  decide

/-- 04, worked figures: 9,600 8E1. -/
theorem test_figures_9600 :
    let c := { defaultConsole with baud := 9600, parity := .even }
    [c.divisor, c.actualBaud, c.charBits, c.budget, c.riseThreshold, c.fallThreshold] = [313, 9584, 11, 87, 43, 17] := by
  decide +kernel

/-- 04, worked figures: 300 7N1 with a window of 10 ms. -/
theorem test_figures_300 :
    let c := { defaultConsole with baud := 300, dataBits := 7, window := 10 }
    [c.divisor, c.actualBaud, c.charBits, c.budget, c.riseThreshold, c.fallThreshold] = [10000, 300, 9, 0, 1, 0] := by
  decide +kernel

/-- 12, worked frame: the fetch call of tag 0xA503 (the CRC's two bytes are not given there). -/
theorem test_stuffed_call :
    (frameWire 0xA0#8 0xA503#16 [1#8, 0#8, 0#8, 7#8, 0xD0#8, 4#8]).take 13
      = [0xA5#8, 0xA0#8, 0xA6#8, 0x85#8, 3#8, 0#8, 6#8, 1#8, 0#8, 0#8, 7#8, 0xD0#8, 4#8] := by
  decide +kernel

/-- The check value of the CRC that R175 describes, over the digits 1 to 9. -/
theorem test_crc16 :
    crc16 [0x31#8, 0x32#8, 0x33#8, 0x34#8, 0x35#8, 0x36#8, 0x37#8, 0x38#8, 0x39#8] = 0x29B1#16 := by
  decide +kernel

/-- 05, worked case: reservations that sum to 128 and shares of 2, 8 and 4 give ceilings of 16, 64 and 32. -/
theorem test_ceilings :
    let s := { ready with pool := pooled [(.mh 0, 48, 8), (.mh 1, 32, 4), (.mh 2, 16, 4), (.mh 3, 16, 4)] ready }
    [s.pool.common, ceiling s (.ch 0), ceiling s (.mh 0), ceiling s (.mh 3)] = [128, 16, 64, 32] := by
  decide +kernel

/-! ## Requests -/

/-- The body of the last reply that a command leaves. -/
def answer (c : Instr) (s : State) : List Byte := (((after c s).link.replies.getLast?).map fun r => r.body).getD []

theorem test_identify : answer (.identify 7 []) ready = [1#8, 0#8, 4#8, 0x40#8, 1#8, 4#8, 4#8, 1#8, 0#8, 1#8] := by
  decide +kernel
/-- A ratio above 15 is 15 at once, and the line keeps its rate. -/
theorem test_linkConfig :
    let t := after (.linkConfig 7 [0#8, 0xB7#8, 0x1B#8, 0#8, 16#8]) ready
    (t.link.ratio, t.link.baud, t.link.lineBaud) = (15, 12000000, 115200) := by
  decide +kernel
theorem test_clear_leaves_clear_marks :
    ((after (.clear 7 []) ready).consoles.get 3).marks = [{ offset := 0, kind := .clear }] := by
  decide +kernel
theorem test_saveSettings_queues_no_reply :
    let t := after (.saveSettings 7 []) ready
    (t.link.replies, t.loader.save, t.loader.saveTag) = ([], .invalidating, some 7) := by
  decide +kernel
/-- A role code past the list is refused. -/
theorem test_linesConfig_unknown_role :
    answer (.linesConfig 7 [1#8, 1#8, 0#8, 0#8, 8#8, 0#8, 0#8, 0#8, 0#8]) ready = [0x10#8, 3#8] := by
  decide +kernel
/-- A sample period above 255 is 255. -/
theorem test_linesConfig_period :
    (after (.linesConfig 7 [1#8, 0#8, 1#8, 0#8]) ready).lines.samplePeriod = 255 := by
  decide +kernel
/-- An input in the mask is ignored and reported; the reply carries six driven states. -/
theorem test_linesSet : answer (.linesSet 7 [2#8, 5#8, 5#8]) onState = [0x11#8, 0#8, 4#8, 0#8, 1#8, 1#8, 1#8, 1#8, 1#8] := by
  decide +kernel
theorem test_linesRead_bad_node : answer (.linesRead 7 [4#8]) ready = [0x12#8, 3#8] := by decide +kernel
/-- 01, worked example: a clear is without effect while the sensed level is recognized. -/
theorem test_lineEventsClear : ((after (.lineEventsClear 7 [2#8, 0x3F#8]) onState).line 2 4).flag = true := by
  decide +kernel
/-- 02, worked sequence: SOFT OFF starts PRESSING for 200 ms, with no reply. -/
theorem test_powerAction_soft_off :
    let t := after (.powerAction 7 ⟨[2#8, 1#8, 1#8], false⟩) onState
    ((t.action 2).map (fun a => (a.state, a.timer, a.escalate)), (t.line 2 0).owner, t.link.replies)
      = (some (.pressing, 200, true), .action 2, []) := by
  decide +kernel
/-- R30: a DIAG taken before step 5 leaves the recovery in its slot; without it the recovery starts. -/
theorem test_powerAction_before_step_5 :
    let s := { diagState with pending := [.powerAction 8 ⟨[2#8, 5#8, 0#8], true⟩] }
    let t := after (.powerAction 8 ⟨[2#8, 5#8, 0#8], true⟩) (after (.tDiagEnd 2) s)
    ((t.action 2).map fun a => a.originator, t.power.slot.get 2,
      ((after (.tDiagEnd 2) diagState).action 2).map fun a => a.originator)
      = (some (.host 8), some .cycle, some .supervisor) := by
  decide +kernel
/-- 02, worked sequence: POWER ON of a node that is ON is ALREADY even while an action runs. -/
theorem test_powerAction_already :
    answer (.powerAction 8 ⟨[2#8, 0#8, 0#8], false⟩) (acting (hostAction .softOff .waitingOff none) onState)
      = [0x20#8, 1#8, 2#8, 0#8, 0#8, 0#8] := by
  decide +kernel
theorem test_powerTimings_clamped :
    ((after (.powerTimings 7 (3#8 :: List.replicate 14 0xFF#8)) ready).power.timings.get 3)
      = { press := 5000, on := 120, soft := 600, hold := 30, rest := 60, reset := 5000, diag := 5000 } := by
  decide +kernel
theorem test_powerWatch_changed :
    answer (.powerWatch 7 [3#8, 3#8, 1#8, 3#8, 0#8, 5#8]) onState = [0x22#8, 0x14#8, 2#8, 2#8, 0#8, 2#8, 0#8, 5#8] := by
  decide +kernel
theorem test_consoleConfig_bad_data_bits :
    answer (.consoleConfig 7 [0#8, 0#8, 0#8, 0#8, 0#8, 9#8, 0#8, 1#8, 0#8, 0#8, 0#8, 0#8, 0#8]) ready = [0x30#8, 3#8] := by
  decide +kernel
/-- A fall at or above the rise is set to one below it. -/
theorem test_consoleConfig_fall :
    ((after (.consoleConfig 7 [0#8, 0#8, 0#8, 0#8, 0#8, 8#8, 0#8, 1#8, 0#8, 0#8, 0#8, 30#8, 30#8]) ready).consoles.get
      0).settings.fall = 29 := by
  decide +kernel
theorem test_consoleSend : ((after (.consoleSend 7 [3#8, 0x41#8, 0x42#8]) ready).consoles.get 3).fifo = [0x41#8, 0x42#8] := by
  decide +kernel
theorem test_consoleBreak_clamped :
    ((after (.consoleBreak 7 [3#8, 0xFF#8, 0xFF#8]) ready).consoles.get 3).break_
      = some { phase := .low, duration := 2000, remaining := 2000, tag := 7 } := by
  decide +kernel
/-- 03, worked reads: an offset beyond live gives no byte from the live offset. -/
theorem test_consoleRead_beyond_live :
    answer (.consoleRead 7 [1#8, 0#8, 0#8, 0x13#8, 0x88#8, 2#8, 0#8, 0#8])
        (console (fun c => { c with oldest := 1024, live := 1800 }) ready)
      = [0x33#8, 0#8, 0#8, 0#8, 7#8, 8#8, 0#8, 0#8, 0#8, 0#8, 4#8, 0#8, 0#8, 0#8, 7#8, 8#8,
        0#8, 0#8, 0#8, 0#8, 0#8, 0#8] := by
  decide +kernel
theorem test_consoleForward_live :
    ((after (.consoleForward 7 [1#8, 1#8, 0#8, 0#8, 0#8, 0#8, 0#8]) (console (fun c => { c with live := 9 }) ready)).consoles.get
      1).cursor = some 9 := by
  decide +kernel
theorem test_consoleStatus_bad_length : answer (.consoleStatus 7 ⟨[], .low⟩) ready = [0x35#8, 3#8] := by decide +kernel
/-- R57: the CTS level is the one at the request. -/
theorem test_consoleStatus_cts :
    answer (.consoleStatus 7 ⟨[1#8], .low⟩) ready ≠ answer (.consoleStatus 7 ⟨[1#8], .high⟩) ready := by
  decide +kernel
/-- R57, R177: a CONSOLE STATUS that waited reports the level of CTS when it is taken. -/
theorem test_consoleStatus_waited :
    let replies (x : Level) :=
      (after (.arbiterChoice { cts := .low, nodes := ⟨Per4.set (Per4.all .low) 2 x, Per4.all false⟩ }) statusWaits).link.replies
    ((replies .low).length, (replies .low).map (·.tag.toNat) == (replies .high).map (·.tag.toNat),
      replies .low == replies .high) = (16, true, false) := by
  decide +kernel
/-- R89: the holders come before the common part and the tick. -/
theorem test_poolConfig_order :
    (answer (.poolConfig 7 [1#8, 9#8, 5#8, 2#8]) ready).take 8 = [0x40#8, 0#8, 5#8, 2#8, 25#8, 4#8, 2#8, 25#8] := by
  decide +kernel
/-- R77: a console's reservation is at least 2. -/
theorem test_poolConfig_least :
    let t := after (.poolConfig 7 [8#8, 61#8, 0#8, 99#8]) ready
    ((t.pool.consoles.get 3).reservation, (t.pool.consoles.get 3).share, t.pool.agingTick) = (2, 16, 60) := by
  decide +kernel
theorem test_poolStatus_bad_flag : answer (.poolStatus 7 [2#8]) ready = [0x41#8, 3#8] := by decide +kernel
/-- 06, worked sequence: an attach sets attention on the ports of its nodes alone. -/
theorem test_unitAttach :
    let t := after (.unitAttach 7 [1#8, 2#8, 6#8, 0#8, 0x1E#8, 0x84#8, 0x80#8, 0#8, 50#8, 0#8, 4#8]) ready
    ((t.units.get 1).capacity, t.ports.toList.map fun p => p.attention) = (2000000, [false, true, true, false]) := by
  decide +kernel
theorem test_unitAttach_other_unit :
    answer (.unitAttach 7 [0#8, 0#8, 0xC#8, 0#8, 0#8, 0#8, 1#8, 0#8, 0#8, 0#8, 0#8]) served = [0x50#8, 0xA#8, 2#8, 2#8] := by
  decide +kernel
theorem test_unitDetach_already : answer (.unitDetach 7 [0#8, 0#8]) served = [0x51#8, 1#8] := by decide +kernel
/-- 06, worked sequence: a detach of a unit with STORING pages drains, its reply deferred. -/
theorem test_unitDetach_drains :
    let t := after (.unitDetach 7 [1#8, 0#8]) writingState
    ((t.units.get 1).state, (t.units.get 1).detachTag, t.link.replies, (t.ports.get 0).attention)
      = (.draining, some 7, [], true) := by
  decide +kernel
/-- R145: a detach that frees no page offers no held write again. -/
theorem test_unitDetach_of_empty_unit :
    let s := portWith 1 (fun p => { p with
      active := some (command .write 40 3 0), wait := .cache, slots := [{ lba := 40, data := block 1 }] }) dirtyUnit
    ((after (.unitDetach 7 [2#8, 0#8]) s).pool.caches.get 1).failures = (s.pool.caches.get 1).failures := by
  decide +kernel
theorem test_unitStatus_bad_unit : answer (.unitStatus 7 [4#8]) ready = [0x52#8, 3#8] := by decide +kernel
theorem test_mediaPortConfig_bad_mode : answer (.mediaPortConfig 7 ⟨[0#8, 1#8, 0#8, 0#8], false⟩) ready = [0x53#8, 3#8] := by
  decide +kernel
/-- A length that is not the literal's is refused. -/
theorem test_patternSet_length : answer (.patternSet 7 [0#8, 1#8, 1#8, 0#8, 1#8, 2#8, 0x41#8]) ready = [0x60#8, 3#8] := by
  decide +kernel
theorem test_bootPolicy_clamped :
    (((after (.bootPolicy 7 (2#8 :: List.replicate 12 0xFF#8 ++ [9#8, 1#8, 16#8, 16#8])) ready).boot.policy.get 2)
      : Policy) = { deadlines := Per6.all 3600, final := 6, recovery := .reset, limit := 15, fallbackFrom := 15 } := by
  decide +kernel
theorem test_bootRearm_busy : answer (.bootRearm 7 [2#8]) (supervised (.recovering false) onState) = [0x62#8, 2#8] := by
  decide +kernel
theorem test_bootStatus_bad_node : answer (.bootStatus 7 [4#8]) ready = [0x63#8, 3#8] := by decide +kernel
theorem test_unknownKind : answer (.unknownKind 0x80#8 7 []) ready = [0x80#8, 4#8] := by decide +kernel

/-! ## The link -/

/-- 08, worked sequence: a FILL for a block that is RECEIVED is stray. -/
theorem test_fill_twice :
    let t := after (.fill 0x0100#16 3 (block 1)) (after (.fill 0x0100#16 3 (block 1)) readingState)
    (t.link.counters.stray, t.cache.directory.map fun r => r.state) = (1, [.clean, .filling, .filling, .filling]) := by
  decide +kernel
/-- 07, after the worked read: a FETCH FAILED ends the READ with MEDIUM_ERROR. -/
theorem test_fetchFailed : ((after (.fetchFailed 0x0100#16) readingState).ports.get 0).lastStatus = .mediumError := by
  decide +kernel
/-- 08, worked sequence: a STORED for a page written again issues the next store under the next generation. -/
theorem test_stored_again :
    let t := after (.stored 0x0110#16) redirtiedState
    ((t.cache.stores[0]).generation, t.link.calls) = (2, [.store 0]) := by
  decide +kernel
/-- 06, worked sequence: the first failure counts and the store is issued again. -/
theorem test_storeFailed :
    let t := after (.storeFailed 0x0110#16) writingState
    ((t.units.get 1).consecutive, (t.units.get 1).storeFailures, (t.cache.stores[0]).generation) = (1, 1, 2) := by
  decide +kernel
theorem test_malformedAnswer : (after (.malformedAnswer 0x70#8 1 []) ready).link.counters.malformed = 1 := by
  decide +kernel
theorem test_crcError_outside_frame : (after .crcError ready).link.counters.crc = 0 := by decide +kernel
/-- A truncated frame is a new one at once, in the buffer it frees. -/
theorem test_truncatedFrame :
    let t := after .truncatedFrame (buffered (some 1) [0, 2] ready)
    (t.link.counters.truncated, t.link.receiver) = (1, some 1) := by
  decide +kernel
theorem test_escapeError : (after (.escapeError 0x20#8) (buffered (some 1) [] ready)).link.receiver = none := by
  decide +kernel
theorem test_lengthError : (after (.lengthError 601) (buffered (some 1) [] ready)).link.counters.length = 1 := by
  decide +kernel
theorem test_byteFramingError : (after .byteFramingError (buffered (some 1) [] ready)).link.counters.framing = 1 := by
  decide +kernel
theorem test_overrun : (after .overrun (buffered none [0, 1, 2, 3] ready)).link.counters.overruns = 1 := by
  decide +kernel
/-- 10, worked sequence: with the run count at N and both classes waiting, the call goes. -/
theorem test_arbiterChoice_bulk :
    let t := after (.arbiterChoice { cts := .low, nodes := unseenPins }) (mixed 4)
    (t.link.runCount, t.link.calls, (t.link.sending.map fun x => x.wire.take 2)) = (0, [], some [0xA5#8, 0xA0#8]) := by
  decide +kernel
theorem test_frameSent_start :
    (after .frameSent { ready with link := { resetLink with sending := some { wire := [], effect := .start } } }).linkRts
      = .low := by
  decide +kernel
/-- 12, stuffing and tags: a STORED of the worked tag 0xA503, its CRC-16 calculated by hand. -/
theorem test_received_stored :
    received [0x11#8, 0xA5#8, 0x72#8, 0xA6#8, 0x85#8, 0x03#8, 0#8, 0#8, 0x47#8, 0x6A#8] = [.frameStart, .stored 0xA503#16] := by
  decide +kernel
theorem test_received_crc_error :
    received [0xA5#8, 0x72#8, 0xA6#8, 0x85#8, 0x03#8, 0#8, 0#8, 0x47#8, 0x6B#8] = [.frameStart, .crcError] := by
  decide +kernel
/-- R175: an escape before a start byte is a truncated frame; 601 is an error at the second length byte. -/
theorem test_received_errors :
    received [0xA5#8, 0x72#8, 0xA6#8, 0xA5#8, 0x01#8, 0#8, 9#8, 0x02#8, 0x59#8, 0xA5#8, 0xA6#8, 0x84#8]
      = [.frameStart, .truncatedFrame, .lengthError 601, .frameStart, .escapeError 0x84#8] := by
  decide +kernel
theorem test_frameStart_lowest : (after .frameStart (buffered none [0, 2] ready)).link.receiver = some 1 := by
  decide +kernel

/-- R174: the ten bit times of 0xA5 on TX: low, 1 0 1 0 0 1 0 1 from the least significant bit on, high; then idle. -/
theorem test_linkTx :
    (List.range 12).map { ready with link := { resetLink with sending := some ⟨[0xA5#8], .start⟩ } }.linkTx
      = [.low, .high, .low, .high, .low, .low, .high, .low, .high, .high, .high, .high] := by
  decide +kernel
/-- R174: TX is high until loading ends. -/
theorem test_linkTx_loading : { State.reset with phase := .loading }.linkTx 0 = .high := by decide +kernel
/-- R175: a low stop bit is seen with the byte 0x41, whose bits come least significant first. -/
theorem test_lineByte_stop_low :
    lineByte? [false, true, false, false, false, false, false, true, false, false] = some ⟨0x41#8, false⟩ := by
  decide +kernel

/-! ## Lines and power -/

/-- 01, worked example: the fourth to sixth instants of a bouncing line. -/
theorem test_debounce :
    let l := { defaultLine with level := .high, last := .high, sense := .levelLow }
    ((([Level.low, .high, .low].foldl Line.afterSample l).level, ([Level.low, .high, .low, .low].foldl Line.afterSample l)))
      = (.high, { l with level := .low, last := .low, flag := true }) := by
  decide
theorem test_sampleInstant_one_sample_is_no_edge :
    let t := after (.sampleInstant 0#24) onState
    ((t.line 2 2).level, t.powerState 2) = (.high, .on) := by
  decide +kernel
/-- 02, worked sequence: the press ends and the wait for OFF starts. -/
theorem test_tPressEnd :
    ((after (.tPressEnd 2) (acting (hostAction .softOff .pressing (some 0)) onState)).action 2).map
      (fun a => (a.state, a.timer)) = some (.waitingOff, 60000) := by
  decide +kernel
theorem test_tOnEnd :
    answer (.tOnEnd 2) (acting (hostAction .powerOn .waitingOn none) offState) = [0x20#8, 0x11#8, 2#8, 0#8, 0#8, 1#8] := by
  decide +kernel
/-- 02, worked sequence: a soft off that escalates holds the button for 6 s. -/
theorem test_tSoftEnd_escalates :
    let t := after (.tSoftEnd 2) (acting { hostAction .softOff .waitingOff none with escalate := true } onState)
    ((t.action 2).map (fun a => (a.kind, a.escalated, a.timer)), (t.line 2 0).driven) = (some (.hardOff, true, 6000), true) := by
  decide +kernel
/-- 02, worked sequence: had POWER_GOOD still been active, the reply would have carried TIMEOUT with ESCALATED. -/
theorem test_tHoldEnd_escalated :
    answer (.tHoldEnd 2) (acting { hostAction .hardOff .holding (some 0) with escalated := true } onState)
      = [0x20#8, 0x11#8, 2#8, 1#8, 1#8, 0#8] := by
  decide +kernel
theorem test_tRestEnd_presses :
    ((after (.tRestEnd 2) (acting (hostAction .cycle .resting none) offState)).line 2 0).driven = true := by
  decide +kernel
/-- 09, worked sequence: the end of the reset arms the supervisor at WATCHING(0) with 60 s. -/
theorem test_tResetEnd_arms :
    let p : Policy := { policyOf .reset 3 3 2 with deadlines := ⟨60, 120, 90, 0, 0, 0⟩ }
    let t := after (.tResetEnd 2) (governed p (acting (hostAction .reset .resetPulse (some 1)) onState))
    ((t.supervisor 2).state, (t.supervisor 2).deadline) = (.watching 0, some 60000) := by
  decide +kernel
theorem test_tDiagEnd_releases :
    ((after (.tDiagEnd 2) (acting (hostAction .diag .diagPulse (some 4)) onState)).line 2 4).owner = .none := by
  decide +kernel
theorem test_powerWatchTimeout :
    answer .powerWatchTimeout (watching onState) = [0x22#8, 0x11#8, 2#8, 2#8, 0#8, 2#8, 0#8, 9#8] := by
  decide +kernel

/-! ## Consoles -/

/-- R42: the character that CONSOLE CONFIG came upon is neither stored nor counted. -/
theorem test_characterReceived_discarded :
    let s := after (.consoleConfig 7 [1#8, 0#8, 0#8, 0#8, 0#8, 8#8, 0#8, 1#8, 0#8, 0#8, 0#8, 0#8, 0#8])
      (after (.startBit 1 .low) ready)
    after (.characterReceived 1 0x41#8 true true) s = s := by
  decide +kernel
/-- R44: under ODD parity an all-low character's parity error is counted at its reception, a break or not. -/
theorem test_characterReceived_all_low_parity :
    let s := console (fun c => { c with receiver := .receiving, settings := { c.settings with parity := .odd } }) ready
    let c := (after (.breakRecognized 1) (after (.characterReceived 1 0#8 false false) s)).consoles.get 1
    (c.parityErrors, c.framingErrors, c.breaks) = (1, 0, 1) := by
  decide +kernel
/-- R53: 7E1 sends 0xC3 as a start bit, 1100001 from its least significant bit, an odd count's parity bit, a stop bit. -/
theorem test_transmitted_bits :
    characterBits { defaultConsole with dataBits := 7, parity := .even } 0xC3#8
      = [false, true, true, false, false, false, false, true, true, true] := by
  decide
/-- The bytes a console has stored, by their pages: 1024 and 1025 are page 2's first two. -/
theorem test_characterReceived_stores :
    (after (.characterReceived 1 0x41#8 true true) (console (fun c => { c with receiver := .receiving, live := 1 }) ready)).ram
      = [(1025, 0x41#8)] := by
  decide +kernel
/-- 04, worked figures: the 577th character of a window starts flood. -/
theorem test_characterReceived_floods :
    ((after (.characterReceived 1 0x41#8 true true)
        (console (fun c => { c with receiver := .receiving, count := 576 }) ready)).consoles.get 1).flood = true := by
  decide +kernel
theorem test_breakRecognized :
    let c := (after (.breakRecognized 1) (console (fun c => { c with receiver := .held, live := 1750 }) ready)).consoles.get 1
    (c.breaks, c.live, c.marks) = (1, 1750, [{ offset := 1750, kind := .breakReceived }]) := by
  decide +kernel
theorem test_heldCharacterStored :
    let c := (after (.heldCharacterStored 1) (console (fun c => { c with receiver := .held }) ready)).consoles.get 1
    (c.framingErrors, c.live) = (1, 1) := by
  decide +kernel
theorem test_breakEnd_without_break : after (.breakEnd 1) ready = ready := by decide +kernel
theorem test_transmitCharacterStart_cts :
    ((after (.transmitCharacterStart 1 .high)
        (console (fun c => { c with fifo := [0x41#8], settings := { c.settings with ctsUse := true } }) ready)).consoles.get
      1).sending = none := by
  decide +kernel
theorem test_transmitCharacterEnd : ((after (.transmitCharacterEnd 1)
    (console (fun c => { c with sending := some [false] }) ready)).consoles.get 1).sending = none := by
  decide +kernel
/-- The reply carries the duration and the mark's offset. -/
theorem test_breakSent :
    answer (.breakSent 1) (console (fun c => { c with live := 258, break_ := some ⟨.low, 300, 0, 6⟩ }) ready)
      = [0x32#8, 0#8, 1#8, 0x2C#8, 0#8, 0#8, 1#8, 2#8] := by
  decide +kernel
theorem test_breakRecoveryEnd_before_it :
    ((after (.breakRecoveryEnd 1) (console (fun c => { c with break_ := some ⟨.low, 3, 3, 6⟩ }) ready)).consoles.get 1).break_.isSome = true := by
  decide +kernel
/-- 04, worked sequence: flood is left with 152 + (12,770 - 10,752) = 2,170 bytes skipped. -/
theorem test_windowEnd_leaves_flood :
    let t := after (.windowEnd 1) (console (fun c => { c with
      oldest := 10752, live := 12770, cursor := some 10752, flood := true, count := 120, skip := 152 }) ready)
    ((t.consoles.get 1).cursor, t.link.notices.map fun e => e.notice) = (some 12770, [.flood 1 false 2170]) := by
  decide +kernel
theorem test_startBit_glitch : after (.startBit 1 .high) ready = ready := by decide +kernel

/-! ## Ports, cache, supervisor -/

/-- A command block with this code, transaction number 77 and its CRC-8. -/
def portBlock (code : Byte) : List Byte :=
  let first := [code, 0#8, 0#8, 0#8, 0#8, 0#8, 77#8]
  first ++ [crc8 first]

/-- R110: the byte 0xA5 clocked by hand into a port in mode 0, the most significant bit first, MOSI changing at each
falling edge: its bits are those at the rising edges. -/
theorem test_mosi_mode_0 :
    spiBytes (mosiBits [⟨.low, .high⟩, ⟨.high, .high⟩, ⟨.low, .low⟩, ⟨.high, .low⟩, ⟨.low, .high⟩, ⟨.high, .high⟩,
      ⟨.low, .low⟩, ⟨.high, .low⟩, ⟨.low, .low⟩, ⟨.high, .low⟩, ⟨.low, .high⟩, ⟨.high, .high⟩, ⟨.low, .low⟩,
      ⟨.high, .low⟩, ⟨.low, .high⟩, ⟨.high, .high⟩, ⟨.low, .high⟩]) = [0xA5#8] := by
  decide +kernel
/-- R110: MISO carries 0x40, the most significant bit first. In mode 0 its second bit is there after the first falling
edge, in mode 3, where the clock idles high, only after the second. -/
theorem test_miso_modes :
    let s := fun mode => portWith 1 (fun p => { p with response := [0x40#8], clocking := mode }) ready
    ((s 0).misoPin 1 (some [⟨.low, .low⟩, ⟨.high, .low⟩, ⟨.low, .low⟩]),
      (s 3).misoPin 1 (some [⟨.high, .low⟩, ⟨.low, .low⟩]),
      (s 3).misoPin 1 (some [⟨.high, .low⟩, ⟨.low, .low⟩, ⟨.high, .low⟩, ⟨.low, .low⟩]))
      = (.drivenHigh, .drivenLow, .drivenHigh) := by
  decide +kernel
/-- R128: a mode that changes while a command block is coming in applies from the next assertion of chip select. -/
theorem test_mode_from_next_chip_select :
    let s := after (.mediaPortConfig 7 ⟨[1#8, 3#8, 0#8, 0#8], true⟩) ready
    let t := after (.status 1 9) s
    (((s.ports.get 1).spiMode, (t.ports.get 1).clocking, ((after (.status 1 9) t).ports.get 1).clocking)) = (3, 0, 3) := by
  decide +kernel
/-- R43: 8E1, the character 0x07 with its parity bit 1. -/
theorem test_sampledCharacter :
    sampledCharacter 2 { defaultConsole with parity := .even }
      [true, true, true, false, false, false, false, false, true, true] = some (.characterReceived 2 7#8 true true) := by
  decide +kernel

/-- The result of the status block that a command leaves at a port. -/
def result (n : Node) (c : Instr) (s : State) : Byte := ((after c s).ports.get n).response.getD 9 0xFF#8

/-- 07, worked read: a READ of 6 at 996 of 1,000 has an effective count of 4. -/
theorem test_read_effective :
    ((after (.read 1 996 6 9) served).ports.get 1).active.map (fun a => (a.count, a.effective)) = some (6, 4) := by
  decide +kernel
/-- 06, worked sequence: the lock is taken, and the other node's port has attention set. -/
theorem test_write_takes_lock :
    let t := after (.write 1 100 3 ⟨9, false⟩) served
    ((t.units.get 1).writer, (t.ports.get 0).attention, (t.ports.get 1).attention) = (some 1, true, false) := by
  decide +kernel
/-- R97: of two WRITEs together, the other one is WRITE_PROTECTED; one that comes later meets the attention. -/
theorem test_write_together :
    let s := after (.write 1 100 3 ⟨9, false⟩) served
    (result 0 (.write 0 100 3 ⟨9, true⟩) s, result 0 (.write 0 100 3 ⟨9, false⟩) s) = (6#8, 4#8) := by
  decide +kernel
/-- R116: a transaction cut short ends the TAKE before it, so that nothing is delivered after it. -/
theorem test_take_cut_short :
    let s := after (.shortTransaction 0) (after (.take 0 9) stagedState)
    after (.blockDelivered 0) s = s := by
  decide +kernel
theorem test_take_not_ready : result 0 (.take 0 9) readingState = 1#8 := by decide +kernel
/-- 07, worked write: a GIVE while both slots are held ends the WRITE with OVERRUN. -/
theorem test_give_overrun :
    let s := portWith 1 (fun p => { p with
      active := some (command .write 40 3 0), wait := .cache, idleTimer := none
      slots := [{ lba := 40, data := block 1 }, { lba := 41, data := block 2 }] }) writingState
    let t := after (.give 1 9 (block 3) (crc16 (block 3))) s
    (((t.ports.get 1).active, (t.ports.get 1).lastStatus)) = (none, .overrun) := by
  decide +kernel
theorem test_status_block :
    (((after (.status 1 9) writingState).ports.get 1).response.drop 8).take 8 = [9#8, 0#8, 2#8, 0xC#8, 0#8, 1#8, 0#8, 0#8] := by
  decide +kernel
theorem test_sense_absent :
    (((after (.sense 3 9) served).ports.get 3).response.drop 17).take 7 = [0#8, 0#8, 0#8, 0#8, 0#8, 0#8, 0#8] := by
  decide +kernel
theorem test_flush_waits : ((after (.flush 0 9) writingState).ports.get 0).state = .flushing := by decide +kernel
theorem test_ackChange :
    ((after (.ackChange 1 9) (portWith 1 (fun p => { p with attention := true }) served)).ports.get 1).attention = false := by
  decide +kernel
/-- The count of an aborted WRITE is the number of blocks done. -/
theorem test_abort :
    let p := (after (.abort 1 9) writingState).ports.get 1
    (p.lastStatus, p.lastCount, p.active) = (.aborted, 1, none) := by
  decide +kernel
/-- The transaction number is echoed as received, the check failing. -/
theorem test_badCommand :
    let p := (after (.badCommand 1 [1#8, 0#8, 0#8, 0#8, 0#8, 1#8, 77#8, 0#8]) served).ports.get 1
    (p.badCommands, (p.response.drop 8).take 2) = (1, [77#8, 2#8]) := by
  decide +kernel
theorem test_shortTransaction : ((after (.shortTransaction 1) served).ports.get 1).shortTransactions = 1 := by
  decide +kernel
/-- 07, worked read: the last delivery of a READ that was cut ends it with END_OF_MEDIUM. -/
theorem test_blockDelivered_ends :
    let p := (after (.blockDelivered 0) (portWith 0 (fun p => { p with
      taking := some { lba := 3, live := true }, active := some { command .read 3 6 0 with effective := 1 } })
      stagedState)).ports.get 0
    (p.lastStatus, p.lastCount, p.sequential) = (.endOfMedium, 1, some 4) := by
  decide +kernel
theorem test_idleTimeout : ((after (.idleTimeout 1) writingState).ports.get 1).lastStatus = .timeout := by
  decide +kernel
theorem test_giveCommandBlock_restarts :
    ((after (.giveCommandBlock 1) (portWith 1 (fun p => { p with idleTimer := some 1 }) writingState)).ports.get 1).idleTimer
      = some 2000 := by
  decide +kernel
theorem test_fetchTimeout :
    let t := after (.fetchTimeout 0) readingState
    ((t.units.get 1).fetchTimeouts, t.cache.directory, (t.pool.owners[8])) = (1, [], none) := by
  decide +kernel
theorem test_storeTimeout_reissues : (after (.storeTimeout 0) writingState).cache.stores[0].generation = 2 := by
  decide +kernel
theorem test_agingTick :
    ((after .agingTick stagedState).cache.directory.map fun r => r.age, (after .agingTick stagedState).cache.agingRemaining)
      = ([4], 10000) := by
  decide +kernel
/-- 09, worked sequence: at attempt 2 of m = 2, with a unit serving the node, BOOT_SELECT is driven. -/
theorem test_deadline_drives_boot_select :
    let s := governed (policyOf .reset 3 9 4) (supervised (.watching 2) { onState with units := served.units })
    let t := after (.deadline 2) s
    ((t.line 2 3).owner, (t.line 2 3).driven, (t.line 2 1).driven) = (.supervisor, true, true) := by
  decide +kernel

/-! ## Reset, load and save -/

/-- 11, worked sequence: a reset in WRITING abandons the save without a reply, the signature erased. -/
theorem test_partReset_in_writing :
    let t := after (.partReset 3) (saving .writing ready)
    (t.phase, t.loader.save, t.link.replies, Memory.read eepromDefault t.loader.eeprom 0) = (.inReset, .idle, [], 0xFF#8) := by
  decide +kernel
/-- R196: the bytes that were taken before the failing run are in the memory. -/
theorem test_saveNoAck_in_writing :
    let t := after (.saveNoAck 70 0) (saving .writing ready)
    (Memory.readBlock eepromDefault t.loader.eeprom 2 62 = (ready.settings.image.drop 2).take 62)
      ∧ Memory.read eepromDefault t.loader.eeprom 65 = 0xFF#8 := by
  decide +kernel
theorem test_resetRelease : (after .resetRelease State.reset).phase = .loading := by decide +kernel
/-- 11, worked sequence: an erased signature is BLANK, and START carries it. -/
theorem test_loadEnd_blank :
    let t := after (.loadEnd 0 .asStored) { State.reset with phase := .loading }
    (t.loader.result, t.link.notices.map fun e => e.notice) = (.blank, [.start 1 0 false]) := by
  decide +kernel
/-- R192: the memory at 7-bit address 0x50, a two-byte address 0, after four clocks that free SDA; an erased memory ends
the load at its signature. -/
theorem test_load_on_the_bus :
    loadActions ⟨some 4, some 120, none⟩ (List.replicate 794 0xFF#8)
      = [.clock, .clock, .clock, .clock, .address 0xA0#8 120, .send 0#8, .send 0#8, .address 0xA1#8 0, .read 2] := by
  decide +kernel
theorem test_load_not_acknowledged :
    loadActions ⟨some 0, none, none⟩ [] = [.address 0xA0#8 10000] := by decide +kernel
theorem test_received_stop_low :
    receivedCommands ⟨false, .low, false⟩ (some ⟨[], true⟩) [⟨0xA5#8, false⟩, ⟨0x84#8, true⟩] = [.byteFramingError] := by
  decide +kernel
theorem test_invalidatingEnd : (after .invalidatingEnd (saving .invalidating ready)).loader.save = .writing := by
  decide +kernel
theorem test_writingEnd_leaves_signature :
    Memory.read eepromDefault (after .writingEnd (saving .writing ready)).loader.eeprom 0 = 0xFF#8 := by
  decide +kernel
theorem test_sealingEnd_writes_signature :
    let t := after .sealingEnd (saving .sealing ready)
    [Memory.read eepromDefault t.loader.eeprom 0, Memory.read eepromDefault t.loader.eeprom 1] = [0x43#8, 0x44#8] := by
  decide +kernel
theorem test_verifyingEnd_differs :
    answer (.verifyingEnd (some { address := 258, value := 0x77#8, inMemory := false })) sealed
      = [4#8, 0xE#8, 4#8, 1#8, 2#8, 1#8] := by
  decide +kernel
theorem test_saveNoAck : answer (.saveNoAck 5 0) (saving .writing ready) = [4#8, 0xE#8, 2#8, 0#8, 5#8, 0#8] := by
  decide +kernel

/-! ## The queue -/

/-- The front command runs on the state with the queue's rest. -/
theorem test_step_takes_front : (stepped { State.reset with pending := [.resetRelease, .crcError] }).pending = [.crcError] := by
  decide +kernel
/-- On an empty queue one millisecond passes. -/
theorem test_step_idles : (stepped (acting (hostAction .hardOff .holding (some 0)) onState)).now = 1 := by decide +kernel

/-! ## Witnesses: the hypotheses of each clause can be met -/

theorem witness_StepRunsFrontCommand :
    ∃ (c : Instr) (rest : List Instr) (s : State),
      s.pending = c :: rest :=
    ⟨.agingTick, [.crcError], { ready with pending := [.agingTick, .crcError] }, by decide +kernel⟩

theorem witness_EveryCommandCompletes_longest :
    ∃ (c : Instr),
      c.wellFormed = true :=
    ⟨.clear 3 (List.replicate 600 0#8), by decide +kernel⟩

theorem witness_EveryCommandCompletes_longer :
    ∃ (c : Instr),
      c.wellFormed = false :=
    ⟨.clear 3 (List.replicate 601 0#8), by decide +kernel⟩

theorem witness_NothingTakenBeforeLoadingEnds :
    ∃ (c : Instr) (s t : State),
      (∀ b, c ≠ .partReset b) ∧ c ≠ .resetRelease ∧ (∀ pins found, c ≠ .loadEnd pins found) ∧ exec c s = .next t ∧
      s.phase ≠ .running :=
    ⟨.agingTick, State.reset, State.reset, nofun, nofun, nofun, rfl, by decide +kernel⟩

theorem witness_MemoriesAndQueuesKeepTheirForm_memory :
    ∃ (s t : State),
      step s = .next t ∧ MemoryLaw s :=
    ⟨queued (.fetchTimeout 0) readingState, stepped (queued (.fetchTimeout 0) readingState),
    step_next (by decide +kernel), by decide +kernel⟩

theorem witness_MemoriesAndQueuesKeepTheirForm_link :
    ∃ (s t : State),
      step s = .next t ∧ LinkLaw s :=
    ⟨queued (.fetchTimeout 0) readingState, stepped (queued (.fetchTimeout 0) readingState),
    step_next (by decide +kernel), by decide +kernel⟩

theorem witness_MemoriesAndQueuesKeepTheirForm_console :
    ∃ (s t : State),
      step s = .next t ∧ ConsoleLaw s :=
    ⟨queued (.fetchTimeout 0) readingState, stepped (queued (.fetchTimeout 0) readingState),
    step_next (by decide +kernel), by decide +kernel⟩

theorem witness_OwnersRecoveriesAndAttemptsStayLawful_owners :
    ∃ (s t : State),
      step s = .next t ∧ OwnerLaw s :=
    ⟨queued (.tResetEnd 2) (acting (hostAction .reset .resetPulse (some 1)) (selecting onState)),
    stepped (queued (.tResetEnd 2) (acting (hostAction .reset .resetPulse (some 1)) (selecting onState))),
    step_next (by decide +kernel), by decide +kernel⟩

theorem witness_OwnersRecoveriesAndAttemptsStayLawful_recoveries :
    ∃ (s t : State),
      step s = .next t ∧ RecoveryLaw s :=
    ⟨queued (.tResetEnd 2) (acting (hostAction .reset .resetPulse (some 1)) (selecting onState)),
    stepped (queued (.tResetEnd 2) (acting (hostAction .reset .resetPulse (some 1)) (selecting onState))),
    step_next (by decide +kernel), by decide +kernel⟩

theorem witness_OwnersRecoveriesAndAttemptsStayLawful_attempts :
    ∃ (s t : State),
      step s = .next t ∧ AttemptLaw s :=
    ⟨queued (.tResetEnd 2) (acting (hostAction .reset .resetPulse (some 1)) (selecting onState)),
    stepped (queued (.tResetEnd 2) (acting (hostAction .reset .resetPulse (some 1)) (selecting onState))),
    step_next (by decide +kernel), by decide +kernel⟩

theorem witness_PortTimersUnitsAndSettingsStayLawful_timers :
    ∃ (s t : State),
      step s = .next t ∧ TimerLaw s :=
    ⟨queued (.fetchTimeout 0) readingState, stepped (queued (.fetchTimeout 0) readingState),
    step_next (by decide +kernel), by decide +kernel⟩

theorem witness_PortTimersUnitsAndSettingsStayLawful_units :
    ∃ (s t : State),
      step s = .next t ∧ UnitLaw s :=
    ⟨queued (.fetchTimeout 0) readingState, stepped (queued (.fetchTimeout 0) readingState),
    step_next (by decide +kernel), by decide +kernel⟩

theorem witness_PortTimersUnitsAndSettingsStayLawful_settings :
    ∃ (s t : State),
      SettingsLaw s ∧ step s = .next t :=
    ⟨queued (.fetchTimeout 0) readingState, stepped (queued (.fetchTimeout 0) readingState), (by decide +kernel),
    step_next (by decide +kernel)⟩

theorem witness_PoolStaysLawful :
    ∃ (s t : State),
      PoolLaw s ∧ step s = .next t :=
    ⟨queued (.fetchTimeout 0) readingState, stepped (queued (.fetchTimeout 0) readingState), poolLaw_reading,
    step_next (by decide +kernel)⟩

theorem witness_HistoryFitsItsPages :
    ∃ (s t : State),
      PoolLaw s ∧ step s = .next t ∧ HistoryLaw s :=
    ⟨queued (.fetchTimeout 0) readingState, stepped (queued (.fetchTimeout 0) readingState), poolLaw_reading,
    step_next (by decide +kernel), by decide +kernel⟩

theorem witness_CacheTablesAgree_tables :
    ∃ (s t : State),
      PoolLaw s ∧ step s = .next t ∧ CacheLaw s :=
    ⟨queued (.fetchTimeout 0) readingState, stepped (queued (.fetchTimeout 0) readingState), poolLaw_reading,
    step_next (by decide +kernel), by decide +kernel⟩

theorem witness_CacheTablesAgree_waits :
    ∃ (s t : State),
      PoolLaw s ∧ step s = .next t ∧ CacheLaw s ∧ WaitLaw s :=
    ⟨queued (.fetchTimeout 0) readingState, stepped (queued (.fetchTimeout 0) readingState), poolLaw_reading,
    step_next (by decide +kernel), by decide +kernel⟩

theorem witness_RequestsWaitOverrunOrAreRefused_full_queue :
    ∃ (c : Instr) (kind : Byte) (tag : Tag) (body : List Byte) (s : State) (b : Fin 4),
      NoRecoveryBehind c s ∧ requestOf c = some (kind, tag, body) ∧ c.wellFormed = true ∧ s.phase = .running ∧
      frameBuffer s.link = some b ∧ (replyRoom ≤ s.link.replies.length ∨ s.link.waiting ≠ []) :=
    ⟨.identify 4 [], 0x01#8, 4, [], crowded, 0, nofun, by decide +kernel⟩

theorem witness_RequestsWaitOverrunOrAreRefused_no_buffer :
    ∃ (c : Instr) (kind : Byte) (tag : Tag) (body : List Byte) (s : State),
      NoRecoveryBehind c s ∧ requestOf c = some (kind, tag, body) ∧ c.wellFormed = true ∧ s.phase = .running ∧
      frameBuffer s.link = none :=
    ⟨.identify 4 [], 0x01#8, 4, [], buffered none [0, 2, 3, 1] ready, nofun, by decide +kernel⟩

theorem witness_RequestsWaitOverrunOrAreRefused_too_long :
    ∃ (c : Instr) (kind : Byte) (tag : Tag) (body : List Byte) (len : Nat) (s : State),
      requestOf c = some (kind, tag, body) ∧ fixedLength kind = some len ∧ body.length ≠ len ∧ c.wellFormed = true ∧
      RequestReady s :=
    ⟨.identify 4 [1#8], 0x01#8, 4, [1#8], 0, ready, by decide +kernel⟩

theorem witness_RequestsWaitOverrunOrAreRefused_too_short :
    ∃ (c : Instr) (kind : Byte) (tag : Tag) (body : List Byte) (len : Nat) (s : State),
      requestOf c = some (kind, tag, body) ∧ fixedLength kind = some len ∧ body.length ≠ len ∧ c.wellFormed = true ∧
      RequestReady s :=
    ⟨.powerTimings 4 (List.replicate 14 0#8), 0x21#8, 4, List.replicate 14 0#8, 15, ready, by decide +kernel⟩

theorem witness_LinesReadReportsAndChangesNothing :
    ∃ (n : Node) (b : Byte) (s : State),
      RequestReady s ∧ b.toNat = n.val :=
    ⟨2, 2#8, onState, by decide +kernel⟩

theorem witness_LinesSetAndEventsClearMaskedLines_clear :
    ∃ (n : Node) (m : Per6 Bool) (b mask : Byte) (s : State),
      RequestReady s ∧ b.toNat = n.val ∧ mask.toNat < 64 ∧ (∀ l : LineId, m.get l = mask.getLsbD l.val) :=
    ⟨2, Per6.build fun l => l.val < 5, 2#8, 0x1F#8, onState, by decide +kernel⟩

theorem witness_LinesSetAndEventsClearMaskedLines_held :
    ∃ (n : Node) (m : Per6 Bool) (b mask : Byte) (s : State),
      RequestReady s ∧ b.toNat = n.val ∧ mask.toNat < 64 ∧ (∀ l : LineId, m.get l = mask.getLsbD l.val) ∧
      (∃ l : LineId, m.get l = true ∧ (s.line n l).role.isOutput = true ∧ (s.line n l).owner ≠ .none) :=
    ⟨2, Per6.build fun l => l.val < 5, 2#8, 0x1F#8, acting (hostAction .reset .resetPulse (some 1)) onState,
    by decide +kernel⟩

theorem witness_LinesSetAndEventsClearMaskedLines_set :
    ∃ (n : Node) (m : Per6 Bool) (b mask : Byte) (s : State),
      RequestReady s ∧ b.toNat = n.val ∧ mask.toNat < 64 ∧ (∀ l : LineId, m.get l = mask.getLsbD l.val) ∧
      (∀ l : LineId, m.get l = true → (s.line n l).role.isOutput = true → (s.line n l).owner = .none) :=
    ⟨2, Per6.build fun l => l.val < 5, 2#8, 0x1F#8, onState, by decide +kernel⟩

theorem witness_LinesConfigChecksThenApplies_open_drain_high :
    ∃ (n : Node) (m : Per6 Bool) (b mask : Byte) (rest : List Byte) (xs : List (LineId × LineSettings)) (s : State),
      RequestReady s ∧ b.toNat = n.val ∧ mask.toNat < 64 ∧ (∀ l : LineId, m.get l = mask.getLsbD l.val) ∧
      rest.length ≤ 30 ∧ maskedSettings (allLines.filter fun l => m.get l) rest = some xs ∧
      (∃ x ∈ xs, x.2.openDrainHigh = true) :=
    ⟨2, Per6.build fun l => l = 5, 2#8, 0x20#8, lineSettingsBytes openDrainHigh, [(5, openDrainHigh)], onState,
    by decide +kernel⟩

theorem witness_LinesConfigChecksThenApplies_second_reset_line :
    ∃ (n : Node) (m : Per6 Bool) (b mask : Byte) (rest : List Byte) (xs : List (LineId × LineSettings)) (s : State),
      RequestReady s ∧ b.toNat = n.val ∧ mask.toNat < 64 ∧ (∀ l : LineId, m.get l = mask.getLsbD l.val) ∧
      rest.length ≤ 30 ∧ maskedSettings (allLines.filter fun l => m.get l) rest = some xs ∧
      (∀ x ∈ xs, x.2.openDrainHigh = false) ∧
      duplicateRole (allLines.map fun l => match xs.lookup l with | some x => x.role | none => (s.line n l).role) = true :=
    ⟨2, Per6.build fun l => l = 5, 2#8, 0x20#8, lineSettingsBytes secondReset, [(5, secondReset)], onState,
    by decide +kernel⟩

theorem witness_LinesConfigChecksThenApplies_held_line :
    ∃ (n : Node) (m : Per6 Bool) (b mask : Byte) (rest : List Byte) (xs : List (LineId × LineSettings)) (s : State),
      RequestReady s ∧ b.toNat = n.val ∧ mask.toNat < 64 ∧ (∀ l : LineId, m.get l = mask.getLsbD l.val) ∧
      rest.length ≤ 30 ∧ maskedSettings (allLines.filter fun l => m.get l) rest = some xs ∧
      (∀ x ∈ xs, x.2.openDrainHigh = false) ∧
      duplicateRole (allLines.map fun l => match xs.lookup l with | some x => x.role | none => (s.line n l).role) = false ∧
      (∃ x ∈ xs, (s.line n x.1).owner ≠ .none ∧ ((s.line n x.1).role ≠ x.2.role ∨ (s.line n x.1).drive ≠ x.2.drive ∨ (s.line n x.1).active ≠ x.2.active)) :=
    ⟨2, Per6.build fun l => l = 1, 2#8, 0x02#8, lineSettingsBytes plainOutput, [(1, plainOutput)],
    acting (hostAction .reset .resetPulse (some 1)) onState, by decide +kernel⟩

theorem witness_LinesConfigChecksThenApplies_applied :
    ∃ (n : Node) (m : Per6 Bool) (b mask : Byte) (rest : List Byte) (xs : List (LineId × LineSettings)) (s : State) (lines : Per6 Line),
      RequestReady s ∧ b.toNat = n.val ∧ mask.toNat < 64 ∧ (∀ l : LineId, m.get l = mask.getLsbD l.val) ∧
      rest.length ≤ 30 ∧ maskedSettings (allLines.filter fun l => m.get l) rest = some xs ∧
      linesConfigRefusal s n xs = none ∧
      (∀ l : LineId, lines.get l = match xs.lookup l with
        | none => s.line n l
        | some x => { role := x.role, drive := x.drive, active := x.active, sense := x.sense, notify := x.notify,
                      driven := (s.line n l).driven && (s.line n l).role == x.role, level := (s.line n l).level,
                      last := (s.line n l).last, owner := (s.line n l).owner,
                      flag := if (s.line n l).sense = x.sense then (s.line n l).flag
                        else x.sense.levelPresent (s.line n l).level }) ∧
      (∀ x ∈ xs, (s.line n x.1).sense = x.2.sense ∨ x.2.notify = false ∨ x.2.sense.levelPresent (s.line n x.1).level = false) ∧
      powerOf lines = s.powerState n :=
    ⟨2, Per6.build fun l => l = 4 ∨ l = 5, 2#8, 0x30#8,
    lineSettingsBytes levelInput ++ lineSettingsBytes plainOutput, [(4, levelInput), (5, plainOutput)], onState,
    reconfigured, by decide +kernel⟩

theorem witness_SampleInstantDebouncesAndReports_any :
    ∃ (s : State),
      s.phase = .running :=
    ⟨onState, by decide +kernel⟩

theorem witness_SampleInstantDebouncesAndReports_reported :
    ∃ (pins : BitVec 24) (n : Node) (lines : Per4 (Per6 Line)) (set_ : Per6 Bool) (s : State),
      s.phase = .running ∧
      (∀ (m : Node) (l : LineId), (lines.get m).get l = (s.line m l).afterSample (pinLevel pins m l)) ∧
      (∀ m : Node, powerOf (lines.get m) = s.powerState m) ∧
      (∀ (m : Node) (l : LineId), m ≠ n → ((lines.get m).get l).notify = true → ((lines.get m).get l).flag = true → (s.line m l).flag = true) ∧
      (∀ l : LineId, set_.get l = (((lines.get n).get l).notify && ((lines.get n).get l).flag && !(s.line n l).flag)) ∧
      (∃ l : LineId, set_.get l = true) :=
    ⟨0xFFDFFF#24, 2, sampled 0xFFDFFF#24 risingState, Per6.build fun l => l = 1, risingState, by decide +kernel⟩

theorem witness_PowerTimingsClampedAndKept :
    ∃ (n : Node) (b a0 a1 b0 b1 c0 c1 d0 d1 e0 e1 f0 f1 g0 g1 : Byte) (x : Timings) (s : State),
      (x = { press := if u16 a0 a1 = 0 then (s.power.timings.get n).press else max 20 (min 5000 (u16 a0 a1))
             on := if u16 b0 b1 = 0 then (s.power.timings.get n).on else max 1 (min 120 (u16 b0 b1))
             soft := if u16 c0 c1 = 0 then (s.power.timings.get n).soft else max 1 (min 600 (u16 c0 c1))
             hold := if u16 d0 d1 = 0 then (s.power.timings.get n).hold else max 1 (min 30 (u16 d0 d1))
             rest := if u16 e0 e1 = 0 then (s.power.timings.get n).rest else max 1 (min 60 (u16 e0 e1))
             reset := if u16 f0 f1 = 0 then (s.power.timings.get n).reset else max 10 (min 5000 (u16 f0 f1))
             diag := if u16 g0 g1 = 0 then (s.power.timings.get n).diag else max 10 (min 5000 (u16 g0 g1)) }) ∧
      RequestReady s ∧ b.toNat = n.val :=
    ⟨2, 2#8, 0#8, 1#8, 0#8, 0#8, 0#8, 200#8, 0#8, 99#8, 9#8, 9#8, 1#8, 1#8, 0#8, 3#8, _, onState, rfl,
    by decide +kernel⟩

theorem witness_SampleInstantDebouncesAndReports_off :
    ∃ (pins : BitVec 24) (n : Node) (p : PowerState) (lines : Per4 (Per6 Line)) (power : Per4 PowerState) (acted watched : Link) (c : Console) (q : Port) (v : Supervisor) (s : State),
      (∀ a : Action, s.action n = some a → ∃ (tag : Tag) (l : LineId), a.originator = .host tag ∧ a.confirmed = true ∧ a.lostConfirmation = false ∧ s.power.slot.get n = none ∧ (p = .off ∧ a.kind = .hardOff ∧ a.state = .holding ∧ a.held = some l ∨ p = .on ∧ a.kind = .powerOn ∧ a.state = .waitingOn ∧ a.held = none)) ∧
      acted = (match s.action n with | some a => (s.link.addNotice (.powerState n p)).addReply (replyTo (match a.originator with | .host tag => tag | .supervisor => 0#16) 0x20#8 .done (be8 n.val ++ be8 (if a.escalated then 1 else actionKindCode a.kind) ++ [flagByte a.escalated] ++ be8 (powerCode p))) | none => s.link.addNotice (.powerState n p)) ∧
      watched = (match s.power.watch with | some w => if ∀ m : Node, (w.expected.get m).accepts (power.get m) = true then acted else acted.addReply (replyTo w.tag 0x22#8 .changed ((power.toList.map fun x => BitVec.ofNat 8 (powerCode x)) ++ be16 w.timeout)) | none => acted) ∧
      c = s.consoles.get n ∧ q = port s n ∧ v = s.supervisor n ∧ s.phase = .running ∧
      (∀ (m : Node) (l : LineId), (lines.get m).get l = (s.line m l).afterSample (pinLevel pins m l)) ∧
      (∀ (m : Node) (l : LineId), ((lines.get m).get l).notify = true → ((lines.get m).get l).flag = true → (s.line m l).flag = true) ∧
      (∀ m : Node, powerOf (lines.get m) = power.get m) ∧ (∀ m : Node, m ≠ n → power.get m = s.powerState m) ∧
      power.get n = p ∧ s.powerState n ≠ p ∧ p = .off ∧ (∀ running : Bool, v.state ≠ .recovering running) :=
    ⟨0xFFBFFF#24, 2, .off, sampled 0xFFBFFF#24 fallingState, fallingState.lines.power.set 2 .off, _, _, _, _, _,
    fallingState, fun a h => by cases Option.some.inj h; exact ⟨3, 0, by decide +kernel⟩, rfl, rfl, rfl, rfl, rfl,
    by decide +kernel⟩

theorem witness_SampleInstantDebouncesAndReports_on :
    ∃ (pins : BitVec 24) (n : Node) (p : PowerState) (lines : Per4 (Per6 Line)) (power : Per4 PowerState) (acted watched : Link) (c : Console) (q : Port) (v : Supervisor) (s : State),
      (∀ a : Action, s.action n = some a → ∃ (tag : Tag) (l : LineId), a.originator = .host tag ∧ a.confirmed = true ∧ a.lostConfirmation = false ∧ s.power.slot.get n = none ∧ (p = .off ∧ a.kind = .hardOff ∧ a.state = .holding ∧ a.held = some l ∨ p = .on ∧ a.kind = .powerOn ∧ a.state = .waitingOn ∧ a.held = none)) ∧
      acted = (match s.action n with | some a => (s.link.addNotice (.powerState n p)).addReply (replyTo (match a.originator with | .host tag => tag | .supervisor => 0#16) 0x20#8 .done (be8 n.val ++ be8 (if a.escalated then 1 else actionKindCode a.kind) ++ [flagByte a.escalated] ++ be8 (powerCode p))) | none => s.link.addNotice (.powerState n p)) ∧
      watched = (match s.power.watch with | some w => if ∀ m : Node, (w.expected.get m).accepts (power.get m) = true then acted else acted.addReply (replyTo w.tag 0x22#8 .changed ((power.toList.map fun x => BitVec.ofNat 8 (powerCode x)) ++ be16 w.timeout)) | none => acted) ∧
      c = s.consoles.get n ∧ q = port s n ∧ v = s.supervisor n ∧ s.phase = .running ∧
      (∀ (m : Node) (l : LineId), (lines.get m).get l = (s.line m l).afterSample (pinLevel pins m l)) ∧
      (∀ (m : Node) (l : LineId), ((lines.get m).get l).notify = true → ((lines.get m).get l).flag = true → (s.line m l).flag = true) ∧
      (∀ m : Node, powerOf (lines.get m) = power.get m) ∧ (∀ m : Node, m ≠ n → power.get m = s.powerState m) ∧
      power.get n = p ∧ s.powerState n ≠ p ∧ p = .on ∧ v.state ≠ .recovering false :=
    ⟨0xFFFFFF#24, 2, .on, sampled 0xFFFFFF#24 comingState, comingState.lines.power.set 2 .on, _, _, _, _, _,
    comingState, fun a h => by cases Option.some.inj h; exact ⟨3, 0, by decide +kernel⟩, rfl, rfl, rfl, rfl, rfl,
    by decide +kernel⟩

theorem witness_PowerActionChecksInOrder_no_line :
    ∃ (n : Node) (k : ActionKind) (b kb : Byte) (ahead : Bool) (s : State),
      RequestReady s ∧ b.toNat = n.val ∧ kb.toNat = actionKindCode k ∧
      (ahead = true → s.action n = none → s.power.slot.get n = none) ∧
      (∀ l : LineId, (s.line n l).role ≠ firstRole k) :=
    ⟨1, .reset, 1#8, 4#8, false, onState, by decide +kernel⟩

theorem witness_PowerActionChecksInOrder_node_off :
    ∃ (n : Node) (k : ActionKind) (b kb : Byte) (ahead : Bool) (s : State),
      RequestReady s ∧ b.toNat = n.val ∧ kb.toNat = actionKindCode k ∧
      (ahead = true → s.action n = none → s.power.slot.get n = none) ∧
      (∃ l : LineId, (s.line n l).role = firstRole k) ∧ (k = .reset ∨ k = .diag) ∧ s.powerState n = .off :=
    ⟨2, .diag, 2#8, 5#8, false, offState, by decide +kernel⟩

theorem witness_PowerActionChecksInOrder_already_on :
    ∃ (n : Node) (k : ActionKind) (b kb : Byte) (ahead : Bool) (s : State),
      RequestReady s ∧ b.toNat = n.val ∧ kb.toNat = actionKindCode k ∧
      (ahead = true → s.action n = none → s.power.slot.get n = none) ∧
      (∃ l : LineId, (s.line n l).role = firstRole k) ∧
      (k = .powerOn ∧ s.powerState n = .on ∨ (k = .softOff ∨ k = .hardOff) ∧ s.powerState n = .off) :=
    ⟨2, .powerOn, 2#8, 0#8, true, onState, by decide +kernel⟩

theorem witness_PowerActionChecksInOrder_already_off :
    ∃ (n : Node) (k : ActionKind) (b kb : Byte) (ahead : Bool) (s : State),
      RequestReady s ∧ b.toNat = n.val ∧ kb.toNat = actionKindCode k ∧
      (ahead = true → s.action n = none → s.power.slot.get n = none) ∧
      (∃ l : LineId, (s.line n l).role = firstRole k) ∧
      (k = .powerOn ∧ s.powerState n = .on ∨ (k = .softOff ∨ k = .hardOff) ∧ s.powerState n = .off) :=
    ⟨2, .hardOff, 2#8, 2#8, false, offState, by decide +kernel⟩

theorem witness_PowerActionChecksInOrder_busy :
    ∃ (n : Node) (k : ActionKind) (b kb : Byte) (ahead : Bool) (s : State) (a : Action),
      RequestReady s ∧ b.toNat = n.val ∧ kb.toNat = actionKindCode k ∧
      (ahead = true → s.action n = none → s.power.slot.get n = none) ∧
      (∃ l : LineId, (s.line n l).role = firstRole k) ∧ ((k = .reset ∨ k = .diag) → s.powerState n ≠ .off) ∧
      (k = .powerOn → s.powerState n ≠ .on) ∧ ((k = .softOff ∨ k = .hardOff) → s.powerState n ≠ .off) ∧
      s.action n = some a ∧ (a.kind = .hardOff ∨ a.kind = .cycle ∨ (k ≠ .hardOff ∧ k ≠ .cycle)) :=
    ⟨2, .softOff, 2#8, 1#8, true, acting (hostAction .reset .resetPulse (some 1)) onState,
    hostAction .reset .resetPulse (some 1), by decide +kernel⟩

theorem witness_PowerActionStartsItsFirstPhase_power_on :
    ∃ (n : Node) (k : ActionKind) (l : LineId) (st : ActionState) (tag : Tag) (b kb options : Byte) (a : Action) (started marked s : State),
      st = (match k with | .powerOn | .softOff => .pressing | .hardOff => .holding | .cycle => if s.powerState n = .off then .resting else .holding | .reset => .resetPulse | .diag => .diagPulse) ∧
      (a = { kind := k, originator := .host tag, state := st, confirmed := s.powerState n != .unknown,
             lostConfirmation := false, escalate := options.getLsbD 0 && k == .softOff, escalated := false,
             timer := phaseTimer (s.power.timings.get n) st, timings := s.power.timings.get n,
             held := if st = .resting then none else some l }) ∧
      (started = { s with
         power := { s.power with action := s.power.action.set n (some a) }
         lines := if st = .resting then s.lines else
           { s.lines with
             line := s.lines.line.modify n fun ls =>
               ls.modify l fun x => { x with owner := .action n, driven := true } }
         link := { s.link with receiver := none } }) ∧
      (marked = (if k = .reset then
         { started with consoles := s.consoles.modify n (Console.addMark .resetPulse) } else started)) ∧
      RequestReady s ∧ b.toNat = n.val ∧ kb.toNat = actionKindCode k ∧ lineOf s n (firstRole k) = some l ∧
      (s.line n l).owner = .none ∧ s.action n = none ∧ s.power.slot.get n = none ∧
      ((k = .reset ∨ k = .diag) → s.powerState n ≠ .off) ∧ (k = .powerOn → s.powerState n ≠ .on) ∧
      ((k = .softOff ∨ k = .hardOff) → s.powerState n ≠ .off) :=
    ⟨2, .powerOn, 0, _, 5, 2#8, 0#8, 1#8, _, _, _, offState, rfl, rfl, rfl, rfl, by decide +kernel⟩

theorem witness_PowerActionStartsItsFirstPhase_soft_off :
    ∃ (n : Node) (k : ActionKind) (l : LineId) (st : ActionState) (tag : Tag) (b kb options : Byte) (a : Action) (started marked s : State),
      st = (match k with | .powerOn | .softOff => .pressing | .hardOff => .holding | .cycle => if s.powerState n = .off then .resting else .holding | .reset => .resetPulse | .diag => .diagPulse) ∧
      (a = { kind := k, originator := .host tag, state := st, confirmed := s.powerState n != .unknown,
             lostConfirmation := false, escalate := options.getLsbD 0 && k == .softOff, escalated := false,
             timer := phaseTimer (s.power.timings.get n) st, timings := s.power.timings.get n,
             held := if st = .resting then none else some l }) ∧
      (started = { s with
         power := { s.power with action := s.power.action.set n (some a) }
         lines := if st = .resting then s.lines else
           { s.lines with
             line := s.lines.line.modify n fun ls =>
               ls.modify l fun x => { x with owner := .action n, driven := true } }
         link := { s.link with receiver := none } }) ∧
      (marked = (if k = .reset then
         { started with consoles := s.consoles.modify n (Console.addMark .resetPulse) } else started)) ∧
      RequestReady s ∧ b.toNat = n.val ∧ kb.toNat = actionKindCode k ∧ lineOf s n (firstRole k) = some l ∧
      (s.line n l).owner = .none ∧ s.action n = none ∧ s.power.slot.get n = none ∧
      ((k = .reset ∨ k = .diag) → s.powerState n ≠ .off) ∧ (k = .powerOn → s.powerState n ≠ .on) ∧
      ((k = .softOff ∨ k = .hardOff) → s.powerState n ≠ .off) :=
    ⟨2, .softOff, 0, _, 5, 2#8, 1#8, 1#8, _, _, _, onState, rfl, rfl, rfl, rfl, by decide +kernel⟩

theorem witness_PowerActionStartsItsFirstPhase_hard_off :
    ∃ (n : Node) (k : ActionKind) (l : LineId) (st : ActionState) (tag : Tag) (b kb options : Byte) (a : Action) (started marked s : State),
      st = (match k with | .powerOn | .softOff => .pressing | .hardOff => .holding | .cycle => if s.powerState n = .off then .resting else .holding | .reset => .resetPulse | .diag => .diagPulse) ∧
      (a = { kind := k, originator := .host tag, state := st, confirmed := s.powerState n != .unknown,
             lostConfirmation := false, escalate := options.getLsbD 0 && k == .softOff, escalated := false,
             timer := phaseTimer (s.power.timings.get n) st, timings := s.power.timings.get n,
             held := if st = .resting then none else some l }) ∧
      (started = { s with
         power := { s.power with action := s.power.action.set n (some a) }
         lines := if st = .resting then s.lines else
           { s.lines with
             line := s.lines.line.modify n fun ls =>
               ls.modify l fun x => { x with owner := .action n, driven := true } }
         link := { s.link with receiver := none } }) ∧
      (marked = (if k = .reset then
         { started with consoles := s.consoles.modify n (Console.addMark .resetPulse) } else started)) ∧
      RequestReady s ∧ b.toNat = n.val ∧ kb.toNat = actionKindCode k ∧ lineOf s n (firstRole k) = some l ∧
      (s.line n l).owner = .none ∧ s.action n = none ∧ s.power.slot.get n = none ∧
      ((k = .reset ∨ k = .diag) → s.powerState n ≠ .off) ∧ (k = .powerOn → s.powerState n ≠ .on) ∧
      ((k = .softOff ∨ k = .hardOff) → s.powerState n ≠ .off) :=
    ⟨2, .hardOff, 0, _, 5, 2#8, 2#8, 1#8, _, _, _, onState, rfl, rfl, rfl, rfl, by decide +kernel⟩

theorem witness_PowerActionStartsItsFirstPhase_cycle :
    ∃ (n : Node) (k : ActionKind) (l : LineId) (st : ActionState) (tag : Tag) (b kb options : Byte) (a : Action) (started marked s : State),
      st = (match k with | .powerOn | .softOff => .pressing | .hardOff => .holding | .cycle => if s.powerState n = .off then .resting else .holding | .reset => .resetPulse | .diag => .diagPulse) ∧
      (a = { kind := k, originator := .host tag, state := st, confirmed := s.powerState n != .unknown,
             lostConfirmation := false, escalate := options.getLsbD 0 && k == .softOff, escalated := false,
             timer := phaseTimer (s.power.timings.get n) st, timings := s.power.timings.get n,
             held := if st = .resting then none else some l }) ∧
      (started = { s with
         power := { s.power with action := s.power.action.set n (some a) }
         lines := if st = .resting then s.lines else
           { s.lines with
             line := s.lines.line.modify n fun ls =>
               ls.modify l fun x => { x with owner := .action n, driven := true } }
         link := { s.link with receiver := none } }) ∧
      (marked = (if k = .reset then
         { started with consoles := s.consoles.modify n (Console.addMark .resetPulse) } else started)) ∧
      RequestReady s ∧ b.toNat = n.val ∧ kb.toNat = actionKindCode k ∧ lineOf s n (firstRole k) = some l ∧
      (s.line n l).owner = .none ∧ s.action n = none ∧ s.power.slot.get n = none ∧
      ((k = .reset ∨ k = .diag) → s.powerState n ≠ .off) ∧ (k = .powerOn → s.powerState n ≠ .on) ∧
      ((k = .softOff ∨ k = .hardOff) → s.powerState n ≠ .off) :=
    ⟨2, .cycle, 0, _, 5, 2#8, 3#8, 1#8, _, _, _, offState, rfl, rfl, rfl, rfl, by decide +kernel⟩

theorem witness_PowerActionStartsItsFirstPhase_reset :
    ∃ (n : Node) (k : ActionKind) (l : LineId) (st : ActionState) (tag : Tag) (b kb options : Byte) (a : Action) (started marked s : State),
      st = (match k with | .powerOn | .softOff => .pressing | .hardOff => .holding | .cycle => if s.powerState n = .off then .resting else .holding | .reset => .resetPulse | .diag => .diagPulse) ∧
      (a = { kind := k, originator := .host tag, state := st, confirmed := s.powerState n != .unknown,
             lostConfirmation := false, escalate := options.getLsbD 0 && k == .softOff, escalated := false,
             timer := phaseTimer (s.power.timings.get n) st, timings := s.power.timings.get n,
             held := if st = .resting then none else some l }) ∧
      (started = { s with
         power := { s.power with action := s.power.action.set n (some a) }
         lines := if st = .resting then s.lines else
           { s.lines with
             line := s.lines.line.modify n fun ls =>
               ls.modify l fun x => { x with owner := .action n, driven := true } }
         link := { s.link with receiver := none } }) ∧
      (marked = (if k = .reset then
         { started with consoles := s.consoles.modify n (Console.addMark .resetPulse) } else started)) ∧
      RequestReady s ∧ b.toNat = n.val ∧ kb.toNat = actionKindCode k ∧ lineOf s n (firstRole k) = some l ∧
      (s.line n l).owner = .none ∧ s.action n = none ∧ s.power.slot.get n = none ∧
      ((k = .reset ∨ k = .diag) → s.powerState n ≠ .off) ∧ (k = .powerOn → s.powerState n ≠ .on) ∧
      ((k = .softOff ∨ k = .hardOff) → s.powerState n ≠ .off) :=
    ⟨2, .reset, 1, _, 5, 2#8, 4#8, 1#8, _, _, _, onState, rfl, rfl, rfl, rfl, by decide +kernel⟩

theorem witness_PowerActionStartsItsFirstPhase_diag :
    ∃ (n : Node) (k : ActionKind) (l : LineId) (st : ActionState) (tag : Tag) (b kb options : Byte) (a : Action) (started marked s : State),
      st = (match k with | .powerOn | .softOff => .pressing | .hardOff => .holding | .cycle => if s.powerState n = .off then .resting else .holding | .reset => .resetPulse | .diag => .diagPulse) ∧
      (a = { kind := k, originator := .host tag, state := st, confirmed := s.powerState n != .unknown,
             lostConfirmation := false, escalate := options.getLsbD 0 && k == .softOff, escalated := false,
             timer := phaseTimer (s.power.timings.get n) st, timings := s.power.timings.get n,
             held := if st = .resting then none else some l }) ∧
      (started = { s with
         power := { s.power with action := s.power.action.set n (some a) }
         lines := if st = .resting then s.lines else
           { s.lines with
             line := s.lines.line.modify n fun ls =>
               ls.modify l fun x => { x with owner := .action n, driven := true } }
         link := { s.link with receiver := none } }) ∧
      (marked = (if k = .reset then
         { started with consoles := s.consoles.modify n (Console.addMark .resetPulse) } else started)) ∧
      RequestReady s ∧ b.toNat = n.val ∧ kb.toNat = actionKindCode k ∧ lineOf s n (firstRole k) = some l ∧
      (s.line n l).owner = .none ∧ s.action n = none ∧ s.power.slot.get n = none ∧
      ((k = .reset ∨ k = .diag) → s.powerState n ≠ .off) ∧ (k = .powerOn → s.powerState n ≠ .on) ∧
      ((k = .softOff ∨ k = .hardOff) → s.powerState n ≠ .off) :=
    ⟨2, .diag, 4, _, 5, 2#8, 5#8, 1#8, _, _, _, onState, rfl, rfl, rfl, rfl, by decide +kernel⟩

theorem witness_PowerActionStartsItsFirstPhase_diag_before_recovery :
    ∃ (n : Node) (k : ActionKind) (st : ActionState) (l : LineId) (rk : RecoveryKind) (tag : Tag) (b kb : Byte) (v : Supervisor) (started s : State),
      v = s.supervisor n ∧
      (started = { s with
         lines := { s.lines with
           line := s.lines.line.modify n fun ls => ls.modify l fun x => { x with owner := .action n, driven := true } }
         power := { s.power with
           action := s.power.action.set n (some
             { kind := k, originator := .host tag, state := st, confirmed := s.powerState n != .unknown,
               lostConfirmation := false, escalate := false, escalated := false,
               timer := phaseTimer (s.power.timings.get n) st, timings := s.power.timings.get n, held := some l }) }
         link := { s.link with receiver := none } }) ∧
      RequestReady s ∧ b.toNat = n.val ∧ kb.toNat = actionKindCode k ∧ lineOf s n (firstRole k) = some l ∧
      (s.line n l).owner = .none ∧ s.action n = none ∧ s.power.slot.get n = some rk ∧ s.powerState n ≠ .off ∧
      v.state = .recovering false ∧ k = .diag ∧ st = .diagPulse :=
    ⟨2, .diag, .diagPulse, 4, .cycle, 8, 2#8, 5#8, _, _, recoveryDue onState, rfl, rfl, by decide +kernel⟩

theorem witness_PowerActionStartsItsFirstPhase_reset_before_recovery :
    ∃ (n : Node) (k : ActionKind) (st : ActionState) (l : LineId) (rk : RecoveryKind) (tag : Tag) (b kb : Byte) (v : Supervisor) (started s : State),
      v = s.supervisor n ∧
      (started = { s with
         lines := { s.lines with
           line := s.lines.line.modify n fun ls => ls.modify l fun x => { x with owner := .action n, driven := true } }
         power := { s.power with
           action := s.power.action.set n (some
             { kind := k, originator := .host tag, state := st, confirmed := s.powerState n != .unknown,
               lostConfirmation := false, escalate := false, escalated := false,
               timer := phaseTimer (s.power.timings.get n) st, timings := s.power.timings.get n, held := some l }) }
         link := { s.link with receiver := none } }) ∧
      RequestReady s ∧ b.toNat = n.val ∧ kb.toNat = actionKindCode k ∧ lineOf s n (firstRole k) = some l ∧
      (s.line n l).owner = .none ∧ s.action n = none ∧ s.power.slot.get n = some rk ∧ s.powerState n ≠ .off ∧
      v.state = .recovering false ∧ k = .reset ∧ st = .resetPulse :=
    ⟨2, .reset, .resetPulse, 1, .cycle, 8, 2#8, 4#8, _, _, recoveryDue onState, rfl, rfl, by decide +kernel⟩

theorem witness_HardKindsPreemptHostActions_other_line :
    ∃ (n : Node) (k : ActionKind) (l : LineId) (old : Tag) (b kb : Byte) (a : Action) (s : State),
      RequestReady s ∧ b.toNat = n.val ∧ kb.toNat = actionKindCode k ∧ (k = .hardOff ∨ k = .cycle) ∧
      lineOf s n .powerButton = some l ∧ s.powerState n = .on ∧ s.action n = some a ∧
      (a.kind = .powerOn ∨ a.kind = .softOff ∨ a.kind = .reset ∨ a.kind = .diag) ∧ a.originator = .host old ∧
      s.power.slot.get n = none ∧ ((s.line n l).owner = .none ∨ a.held = some l) :=
    ⟨2, .hardOff, 0, 3, 2#8, 2#8, hostAction .reset .resetPulse (some 1),
    acting (hostAction .reset .resetPulse (some 1)) onState, by decide +kernel⟩

theorem witness_HardKindsPreemptHostActions_same_line :
    ∃ (n : Node) (k : ActionKind) (l : LineId) (old : Tag) (b kb : Byte) (a : Action) (s : State),
      RequestReady s ∧ b.toNat = n.val ∧ kb.toNat = actionKindCode k ∧ (k = .hardOff ∨ k = .cycle) ∧
      lineOf s n .powerButton = some l ∧ s.powerState n = .on ∧ s.action n = some a ∧
      (a.kind = .powerOn ∨ a.kind = .softOff ∨ a.kind = .reset ∨ a.kind = .diag) ∧ a.originator = .host old ∧
      s.power.slot.get n = none ∧ ((s.line n l).owner = .none ∨ a.held = some l) :=
    ⟨2, .cycle, 0, 3, 2#8, 3#8, hostAction .softOff .pressing (some 0),
    acting (hostAction .softOff .pressing (some 0)) onState, by decide +kernel⟩

theorem witness_TimersLeadToNextPhase_soft_off :
    ∃ (n : Node) (a : Action) (l : LineId) (s : State),
      s.phase = .running ∧ s.action n = some a ∧ a.state = .pressing ∧ a.confirmed = true ∧ a.kind = .softOff ∧
      a.held = some l ∧ s.powerState n ≠ .off :=
    ⟨2, hostAction .softOff .pressing (some 0), 0, acting (hostAction .softOff .pressing (some 0)) onState,
    by decide +kernel⟩

theorem witness_TimersLeadToNextPhase_power_on :
    ∃ (n : Node) (a : Action) (l : LineId) (s : State),
      s.phase = .running ∧ s.action n = some a ∧ a.state = .pressing ∧ a.confirmed = true ∧ a.kind ≠ .softOff ∧
      a.held = some l ∧ s.powerState n ≠ .on :=
    ⟨2, hostAction .powerOn .pressing (some 0), 0, acting (hostAction .powerOn .pressing (some 0)) offState,
    by decide +kernel⟩

theorem witness_TimersLeadToNextPhase_escalates :
    ∃ (n : Node) (a : Action) (l : LineId) (s : State),
      s.phase = .running ∧ s.action n = some a ∧ a.state = .waitingOff ∧ a.escalate = true ∧
      lineOf s n .powerButton = some l ∧ (s.line n l).owner = .none ∧ s.powerState n ≠ .off :=
    ⟨2, { hostAction .softOff .waitingOff none with escalate := true }, 0,
    acting ({ hostAction .softOff .waitingOff none with escalate := true }) onState, by decide +kernel⟩

theorem witness_TimersLeadToNextPhase_rests :
    ∃ (n : Node) (a : Action) (l : LineId) (s : State),
      s.phase = .running ∧ s.action n = some a ∧ a.state = .holding ∧ a.confirmed = false ∧ a.kind = .cycle ∧
      a.held = some l :=
    ⟨2, { hostAction .cycle .holding (some 0) with confirmed := false }, 0,
    acting ({ hostAction .cycle .holding (some 0) with confirmed := false }) blindState, by decide +kernel⟩

theorem witness_TimersLeadToNextPhase_presses :
    ∃ (n : Node) (a : Action) (l : LineId) (s : State),
      s.phase = .running ∧ s.action n = some a ∧ a.state = .resting ∧ (a.confirmed = false ∨ s.powerState n ≠ .on) ∧
      lineOf s n .powerButton = some l ∧ (s.line n l).owner = .none :=
    ⟨2, hostAction .cycle .resting none, 0, acting (hostAction .cycle .resting none) offState, by decide +kernel⟩

theorem witness_TimersCompleteHostActionsAndArm_on_timeout :
    ∃ (n : Node) (a : Action) (tag : Tag) (r : Result) (c : Instr) (freed s : State),
      freed = (match a.held with | some l => releaseLine n l s | none => s) ∧ s.phase = .running ∧
      s.action n = some a ∧ a.originator = .host tag ∧ s.power.slot.get n = none ∧
      ((c = .tOnEnd n ∧ a.state = .waitingOn ∧ r = .timeout) ∨ (c = .tSoftEnd n ∧ a.state = .waitingOff ∧ a.escalate = false ∧ r = .timeout) ∨ (c = .tHoldEnd n ∧ a.state = .holding ∧ a.confirmed = true ∧ r = .timeout) ∨ (c = .tHoldEnd n ∧ a.state = .holding ∧ a.confirmed = false ∧ a.kind = .hardOff ∧ r = .doneUnconfirmed) ∨ (c = .tPressEnd n ∧ a.state = .pressing ∧ a.confirmed = true ∧ a.kind = .softOff ∧ s.powerState n = .off ∧ a.lostConfirmation = false ∧ r = .done) ∨ (c = .tPressEnd n ∧ a.state = .pressing ∧ a.confirmed = true ∧ (a.kind = .powerOn ∨ a.kind = .cycle) ∧ s.powerState n = .on ∧ a.lostConfirmation = false ∧ r = .done) ∨ (c = .tPressEnd n ∧ a.state = .pressing ∧ a.confirmed = false ∧ a.kind = .softOff ∧ r = .doneUnconfirmed) ∨ (c = .tRestEnd n ∧ a.state = .resting ∧ a.kind = .cycle ∧ a.confirmed = true ∧ s.powerState n = .on ∧ a.lostConfirmation = false ∧ r = .done) ∨ (c = .tDiagEnd n ∧ a.state = .diagPulse ∧ a.kind = .diag ∧ r = if a.lostConfirmation then .doneUnconfirmed else .done)) :=
    ⟨2, hostAction .powerOn .waitingOn none, 3, .timeout, .tOnEnd 2, _,
    acting (hostAction .powerOn .waitingOn none) offState, rfl, by decide +kernel⟩

theorem witness_TimersCompleteHostActionsAndArm_off_timeout :
    ∃ (n : Node) (a : Action) (tag : Tag) (r : Result) (c : Instr) (freed s : State),
      freed = (match a.held with | some l => releaseLine n l s | none => s) ∧ s.phase = .running ∧
      s.action n = some a ∧ a.originator = .host tag ∧ s.power.slot.get n = none ∧
      ((c = .tOnEnd n ∧ a.state = .waitingOn ∧ r = .timeout) ∨ (c = .tSoftEnd n ∧ a.state = .waitingOff ∧ a.escalate = false ∧ r = .timeout) ∨ (c = .tHoldEnd n ∧ a.state = .holding ∧ a.confirmed = true ∧ r = .timeout) ∨ (c = .tHoldEnd n ∧ a.state = .holding ∧ a.confirmed = false ∧ a.kind = .hardOff ∧ r = .doneUnconfirmed) ∨ (c = .tPressEnd n ∧ a.state = .pressing ∧ a.confirmed = true ∧ a.kind = .softOff ∧ s.powerState n = .off ∧ a.lostConfirmation = false ∧ r = .done) ∨ (c = .tPressEnd n ∧ a.state = .pressing ∧ a.confirmed = true ∧ (a.kind = .powerOn ∨ a.kind = .cycle) ∧ s.powerState n = .on ∧ a.lostConfirmation = false ∧ r = .done) ∨ (c = .tPressEnd n ∧ a.state = .pressing ∧ a.confirmed = false ∧ a.kind = .softOff ∧ r = .doneUnconfirmed) ∨ (c = .tRestEnd n ∧ a.state = .resting ∧ a.kind = .cycle ∧ a.confirmed = true ∧ s.powerState n = .on ∧ a.lostConfirmation = false ∧ r = .done) ∨ (c = .tDiagEnd n ∧ a.state = .diagPulse ∧ a.kind = .diag ∧ r = if a.lostConfirmation then .doneUnconfirmed else .done)) :=
    ⟨2, hostAction .softOff .waitingOff none, 3, .timeout, .tSoftEnd 2, _,
    acting (hostAction .softOff .waitingOff none) onState, rfl, by decide +kernel⟩

theorem witness_TimersCompleteHostActionsAndArm_hold_timeout :
    ∃ (n : Node) (a : Action) (tag : Tag) (r : Result) (c : Instr) (freed s : State),
      freed = (match a.held with | some l => releaseLine n l s | none => s) ∧ s.phase = .running ∧
      s.action n = some a ∧ a.originator = .host tag ∧ s.power.slot.get n = none ∧
      ((c = .tOnEnd n ∧ a.state = .waitingOn ∧ r = .timeout) ∨ (c = .tSoftEnd n ∧ a.state = .waitingOff ∧ a.escalate = false ∧ r = .timeout) ∨ (c = .tHoldEnd n ∧ a.state = .holding ∧ a.confirmed = true ∧ r = .timeout) ∨ (c = .tHoldEnd n ∧ a.state = .holding ∧ a.confirmed = false ∧ a.kind = .hardOff ∧ r = .doneUnconfirmed) ∨ (c = .tPressEnd n ∧ a.state = .pressing ∧ a.confirmed = true ∧ a.kind = .softOff ∧ s.powerState n = .off ∧ a.lostConfirmation = false ∧ r = .done) ∨ (c = .tPressEnd n ∧ a.state = .pressing ∧ a.confirmed = true ∧ (a.kind = .powerOn ∨ a.kind = .cycle) ∧ s.powerState n = .on ∧ a.lostConfirmation = false ∧ r = .done) ∨ (c = .tPressEnd n ∧ a.state = .pressing ∧ a.confirmed = false ∧ a.kind = .softOff ∧ r = .doneUnconfirmed) ∨ (c = .tRestEnd n ∧ a.state = .resting ∧ a.kind = .cycle ∧ a.confirmed = true ∧ s.powerState n = .on ∧ a.lostConfirmation = false ∧ r = .done) ∨ (c = .tDiagEnd n ∧ a.state = .diagPulse ∧ a.kind = .diag ∧ r = if a.lostConfirmation then .doneUnconfirmed else .done)) :=
    ⟨2, hostAction .hardOff .holding (some 0), 3, .timeout, .tHoldEnd 2, _,
    acting (hostAction .hardOff .holding (some 0)) onState, rfl, by decide +kernel⟩

theorem witness_TimersCompleteHostActionsAndArm_hold_unconfirmed :
    ∃ (n : Node) (a : Action) (tag : Tag) (r : Result) (c : Instr) (freed s : State),
      freed = (match a.held with | some l => releaseLine n l s | none => s) ∧ s.phase = .running ∧
      s.action n = some a ∧ a.originator = .host tag ∧ s.power.slot.get n = none ∧
      ((c = .tOnEnd n ∧ a.state = .waitingOn ∧ r = .timeout) ∨ (c = .tSoftEnd n ∧ a.state = .waitingOff ∧ a.escalate = false ∧ r = .timeout) ∨ (c = .tHoldEnd n ∧ a.state = .holding ∧ a.confirmed = true ∧ r = .timeout) ∨ (c = .tHoldEnd n ∧ a.state = .holding ∧ a.confirmed = false ∧ a.kind = .hardOff ∧ r = .doneUnconfirmed) ∨ (c = .tPressEnd n ∧ a.state = .pressing ∧ a.confirmed = true ∧ a.kind = .softOff ∧ s.powerState n = .off ∧ a.lostConfirmation = false ∧ r = .done) ∨ (c = .tPressEnd n ∧ a.state = .pressing ∧ a.confirmed = true ∧ (a.kind = .powerOn ∨ a.kind = .cycle) ∧ s.powerState n = .on ∧ a.lostConfirmation = false ∧ r = .done) ∨ (c = .tPressEnd n ∧ a.state = .pressing ∧ a.confirmed = false ∧ a.kind = .softOff ∧ r = .doneUnconfirmed) ∨ (c = .tRestEnd n ∧ a.state = .resting ∧ a.kind = .cycle ∧ a.confirmed = true ∧ s.powerState n = .on ∧ a.lostConfirmation = false ∧ r = .done) ∨ (c = .tDiagEnd n ∧ a.state = .diagPulse ∧ a.kind = .diag ∧ r = if a.lostConfirmation then .doneUnconfirmed else .done)) :=
    ⟨2, { hostAction .hardOff .holding (some 0) with confirmed := false }, 3, .doneUnconfirmed, .tHoldEnd 2, _,
    acting ({ hostAction .hardOff .holding (some 0) with confirmed := false }) blindState, rfl, by decide +kernel⟩

theorem witness_TimersCompleteHostActionsAndArm_press_done :
    ∃ (n : Node) (a : Action) (tag : Tag) (r : Result) (c : Instr) (freed s : State),
      freed = (match a.held with | some l => releaseLine n l s | none => s) ∧ s.phase = .running ∧
      s.action n = some a ∧ a.originator = .host tag ∧ s.power.slot.get n = none ∧
      ((c = .tOnEnd n ∧ a.state = .waitingOn ∧ r = .timeout) ∨ (c = .tSoftEnd n ∧ a.state = .waitingOff ∧ a.escalate = false ∧ r = .timeout) ∨ (c = .tHoldEnd n ∧ a.state = .holding ∧ a.confirmed = true ∧ r = .timeout) ∨ (c = .tHoldEnd n ∧ a.state = .holding ∧ a.confirmed = false ∧ a.kind = .hardOff ∧ r = .doneUnconfirmed) ∨ (c = .tPressEnd n ∧ a.state = .pressing ∧ a.confirmed = true ∧ a.kind = .softOff ∧ s.powerState n = .off ∧ a.lostConfirmation = false ∧ r = .done) ∨ (c = .tPressEnd n ∧ a.state = .pressing ∧ a.confirmed = true ∧ (a.kind = .powerOn ∨ a.kind = .cycle) ∧ s.powerState n = .on ∧ a.lostConfirmation = false ∧ r = .done) ∨ (c = .tPressEnd n ∧ a.state = .pressing ∧ a.confirmed = false ∧ a.kind = .softOff ∧ r = .doneUnconfirmed) ∨ (c = .tRestEnd n ∧ a.state = .resting ∧ a.kind = .cycle ∧ a.confirmed = true ∧ s.powerState n = .on ∧ a.lostConfirmation = false ∧ r = .done) ∨ (c = .tDiagEnd n ∧ a.state = .diagPulse ∧ a.kind = .diag ∧ r = if a.lostConfirmation then .doneUnconfirmed else .done)) :=
    ⟨2, hostAction .softOff .pressing (some 0), 3, .done, .tPressEnd 2, _,
    acting (hostAction .softOff .pressing (some 0)) offState, rfl, by decide +kernel⟩

theorem witness_TimersCompleteHostActionsAndArm_rest_done :
    ∃ (n : Node) (a : Action) (tag : Tag) (r : Result) (c : Instr) (freed s : State),
      freed = (match a.held with | some l => releaseLine n l s | none => s) ∧ s.phase = .running ∧
      s.action n = some a ∧ a.originator = .host tag ∧ s.power.slot.get n = none ∧
      ((c = .tOnEnd n ∧ a.state = .waitingOn ∧ r = .timeout) ∨ (c = .tSoftEnd n ∧ a.state = .waitingOff ∧ a.escalate = false ∧ r = .timeout) ∨ (c = .tHoldEnd n ∧ a.state = .holding ∧ a.confirmed = true ∧ r = .timeout) ∨ (c = .tHoldEnd n ∧ a.state = .holding ∧ a.confirmed = false ∧ a.kind = .hardOff ∧ r = .doneUnconfirmed) ∨ (c = .tPressEnd n ∧ a.state = .pressing ∧ a.confirmed = true ∧ a.kind = .softOff ∧ s.powerState n = .off ∧ a.lostConfirmation = false ∧ r = .done) ∨ (c = .tPressEnd n ∧ a.state = .pressing ∧ a.confirmed = true ∧ (a.kind = .powerOn ∨ a.kind = .cycle) ∧ s.powerState n = .on ∧ a.lostConfirmation = false ∧ r = .done) ∨ (c = .tPressEnd n ∧ a.state = .pressing ∧ a.confirmed = false ∧ a.kind = .softOff ∧ r = .doneUnconfirmed) ∨ (c = .tRestEnd n ∧ a.state = .resting ∧ a.kind = .cycle ∧ a.confirmed = true ∧ s.powerState n = .on ∧ a.lostConfirmation = false ∧ r = .done) ∨ (c = .tDiagEnd n ∧ a.state = .diagPulse ∧ a.kind = .diag ∧ r = if a.lostConfirmation then .doneUnconfirmed else .done)) :=
    ⟨2, hostAction .cycle .resting none, 3, .done, .tRestEnd 2, _, acting (hostAction .cycle .resting none) onState,
    rfl, by decide +kernel⟩

theorem witness_TimersCompleteHostActionsAndArm_diag_done :
    ∃ (n : Node) (a : Action) (tag : Tag) (r : Result) (c : Instr) (freed s : State),
      freed = (match a.held with | some l => releaseLine n l s | none => s) ∧ s.phase = .running ∧
      s.action n = some a ∧ a.originator = .host tag ∧ s.power.slot.get n = none ∧
      ((c = .tOnEnd n ∧ a.state = .waitingOn ∧ r = .timeout) ∨ (c = .tSoftEnd n ∧ a.state = .waitingOff ∧ a.escalate = false ∧ r = .timeout) ∨ (c = .tHoldEnd n ∧ a.state = .holding ∧ a.confirmed = true ∧ r = .timeout) ∨ (c = .tHoldEnd n ∧ a.state = .holding ∧ a.confirmed = false ∧ a.kind = .hardOff ∧ r = .doneUnconfirmed) ∨ (c = .tPressEnd n ∧ a.state = .pressing ∧ a.confirmed = true ∧ a.kind = .softOff ∧ s.powerState n = .off ∧ a.lostConfirmation = false ∧ r = .done) ∨ (c = .tPressEnd n ∧ a.state = .pressing ∧ a.confirmed = true ∧ (a.kind = .powerOn ∨ a.kind = .cycle) ∧ s.powerState n = .on ∧ a.lostConfirmation = false ∧ r = .done) ∨ (c = .tPressEnd n ∧ a.state = .pressing ∧ a.confirmed = false ∧ a.kind = .softOff ∧ r = .doneUnconfirmed) ∨ (c = .tRestEnd n ∧ a.state = .resting ∧ a.kind = .cycle ∧ a.confirmed = true ∧ s.powerState n = .on ∧ a.lostConfirmation = false ∧ r = .done) ∨ (c = .tDiagEnd n ∧ a.state = .diagPulse ∧ a.kind = .diag ∧ r = if a.lostConfirmation then .doneUnconfirmed else .done)) :=
    ⟨2, hostAction .diag .diagPulse (some 4), 3, .done, .tDiagEnd 2, _,
    acting (hostAction .diag .diagPulse (some 4)) onState, rfl, by decide +kernel⟩

theorem witness_TimersCompleteHostActionsAndArm_press_found_on :
    ∃ (n : Node) (a : Action) (tag : Tag) (r : Result) (c : Instr) (freed s : State),
      freed = (match a.held with | some l => releaseLine n l s | none => s) ∧ s.phase = .running ∧
      s.action n = some a ∧ a.originator = .host tag ∧ s.power.slot.get n = none ∧
      ((c = .tOnEnd n ∧ a.state = .waitingOn ∧ r = .timeout) ∨ (c = .tSoftEnd n ∧ a.state = .waitingOff ∧ a.escalate = false ∧ r = .timeout) ∨ (c = .tHoldEnd n ∧ a.state = .holding ∧ a.confirmed = true ∧ r = .timeout) ∨ (c = .tHoldEnd n ∧ a.state = .holding ∧ a.confirmed = false ∧ a.kind = .hardOff ∧ r = .doneUnconfirmed) ∨ (c = .tPressEnd n ∧ a.state = .pressing ∧ a.confirmed = true ∧ a.kind = .softOff ∧ s.powerState n = .off ∧ a.lostConfirmation = false ∧ r = .done) ∨ (c = .tPressEnd n ∧ a.state = .pressing ∧ a.confirmed = true ∧ (a.kind = .powerOn ∨ a.kind = .cycle) ∧ s.powerState n = .on ∧ a.lostConfirmation = false ∧ r = .done) ∨ (c = .tPressEnd n ∧ a.state = .pressing ∧ a.confirmed = false ∧ a.kind = .softOff ∧ r = .doneUnconfirmed) ∨ (c = .tRestEnd n ∧ a.state = .resting ∧ a.kind = .cycle ∧ a.confirmed = true ∧ s.powerState n = .on ∧ a.lostConfirmation = false ∧ r = .done) ∨ (c = .tDiagEnd n ∧ a.state = .diagPulse ∧ a.kind = .diag ∧ r = if a.lostConfirmation then .doneUnconfirmed else .done)) :=
    ⟨2, hostAction .powerOn .pressing (some 0), 3, .done, .tPressEnd 2, _,
    acting (hostAction .powerOn .pressing (some 0)) onState, rfl, by decide +kernel⟩

theorem witness_TimersCompleteHostActionsAndArm_press_unconfirmed :
    ∃ (n : Node) (a : Action) (tag : Tag) (r : Result) (c : Instr) (freed s : State),
      freed = (match a.held with | some l => releaseLine n l s | none => s) ∧ s.phase = .running ∧
      s.action n = some a ∧ a.originator = .host tag ∧ s.power.slot.get n = none ∧
      ((c = .tOnEnd n ∧ a.state = .waitingOn ∧ r = .timeout) ∨ (c = .tSoftEnd n ∧ a.state = .waitingOff ∧ a.escalate = false ∧ r = .timeout) ∨ (c = .tHoldEnd n ∧ a.state = .holding ∧ a.confirmed = true ∧ r = .timeout) ∨ (c = .tHoldEnd n ∧ a.state = .holding ∧ a.confirmed = false ∧ a.kind = .hardOff ∧ r = .doneUnconfirmed) ∨ (c = .tPressEnd n ∧ a.state = .pressing ∧ a.confirmed = true ∧ a.kind = .softOff ∧ s.powerState n = .off ∧ a.lostConfirmation = false ∧ r = .done) ∨ (c = .tPressEnd n ∧ a.state = .pressing ∧ a.confirmed = true ∧ (a.kind = .powerOn ∨ a.kind = .cycle) ∧ s.powerState n = .on ∧ a.lostConfirmation = false ∧ r = .done) ∨ (c = .tPressEnd n ∧ a.state = .pressing ∧ a.confirmed = false ∧ a.kind = .softOff ∧ r = .doneUnconfirmed) ∨ (c = .tRestEnd n ∧ a.state = .resting ∧ a.kind = .cycle ∧ a.confirmed = true ∧ s.powerState n = .on ∧ a.lostConfirmation = false ∧ r = .done) ∨ (c = .tDiagEnd n ∧ a.state = .diagPulse ∧ a.kind = .diag ∧ r = if a.lostConfirmation then .doneUnconfirmed else .done)) :=
    ⟨2, { hostAction .softOff .pressing (some 0) with confirmed := false }, 3, .doneUnconfirmed, .tPressEnd 2, _,
    acting ({ hostAction .softOff .pressing (some 0) with confirmed := false }) blindState, rfl, by decide +kernel⟩

theorem witness_TimersCompleteHostActionsAndArm_reset :
    ∃ (n : Node) (a : Action) (tag : Tag) (r : Result) (c : Instr) (v w : Supervisor) (s : State),
      s.supervisor n = v ∧
      (w = { v with
         state := .watching 0
         deadline := if (s.boot.policy.get n).deadlines.l0 = 0 then none
           else some ((s.boot.policy.get n).deadlines.l0 * 1000) }) ∧
      s.phase = .running ∧ s.action n = some a ∧ a.originator = .host tag ∧
      ((c = .tResetEnd n ∧ a.kind = .reset ∧ a.state = .resetPulse ∧ a.lostConfirmation = false ∧ r = .done) ∨ (c = .tPressEnd n ∧ (a.kind = .powerOn ∨ a.kind = .cycle) ∧ a.state = .pressing ∧ a.confirmed = false ∧ r = .doneUnconfirmed)) ∧
      a.escalated = false ∧ s.power.slot.get n = none ∧ s.powerState n ≠ .off ∧ v.state ≠ .recovering false :=
    ⟨2, hostAction .reset .resetPulse (some 1), 3, .done, .tResetEnd 2, _, _,
    acting (hostAction .reset .resetPulse (some 1)) onState, rfl, rfl, by decide +kernel⟩

theorem witness_TimersCompleteHostActionsAndArm_power_on_unconfirmed :
    ∃ (n : Node) (a : Action) (tag : Tag) (r : Result) (c : Instr) (v w : Supervisor) (s : State),
      s.supervisor n = v ∧
      (w = { v with
         state := .watching 0
         deadline := if (s.boot.policy.get n).deadlines.l0 = 0 then none
           else some ((s.boot.policy.get n).deadlines.l0 * 1000) }) ∧
      s.phase = .running ∧ s.action n = some a ∧ a.originator = .host tag ∧
      ((c = .tResetEnd n ∧ a.kind = .reset ∧ a.state = .resetPulse ∧ a.lostConfirmation = false ∧ r = .done) ∨ (c = .tPressEnd n ∧ (a.kind = .powerOn ∨ a.kind = .cycle) ∧ a.state = .pressing ∧ a.confirmed = false ∧ r = .doneUnconfirmed)) ∧
      a.escalated = false ∧ s.power.slot.get n = none ∧ s.powerState n ≠ .off ∧ v.state ≠ .recovering false :=
    ⟨2, { hostAction .powerOn .pressing (some 0) with confirmed := false }, 3, .doneUnconfirmed, .tPressEnd 2, _, _,
    acting ({ hostAction .powerOn .pressing (some 0) with confirmed := false }) blindState, rfl, rfl,
    by decide +kernel⟩

theorem witness_TimersCompleteHostActionsAndArm_recovery_starts :
    ∃ (n : Node) (l : LineId) (tag : Tag) (v : Supervisor) (recovered : State → State) (s : State) (a : Action) (h : LineId) (ended : State),
      v = s.supervisor n ∧
      (∀ x : State, recovered x = { x with
        lines := { x.lines with
          line := x.lines.line.modify n fun ls => ls.modify l fun y => { y with owner := .action n, driven := true } }
        power := { x.power with
          slot := s.power.slot.set n none
          action := s.power.action.set n (some
            { kind := .cycle, originator := .supervisor, state := .holding, confirmed := true, lostConfirmation := false,
              escalate := false, escalated := false, timer := (s.power.timings.get n).hold * 1000,
              timings := s.power.timings.get n, held := some l }) }
        consoles := s.consoles.modify n (Console.addMark (.recovery .cycle))
        boot := { s.boot with supervisor := s.boot.supervisor.set n { v with state := .recovering true } }
        link := x.link.addNotice (.recovery n .started (some .cycle) v.attempts v.lastFailure v.fallback) }) ∧
      (ended = { releaseLine n h s with
         power := { s.power with action := s.power.action.set n none }
         link := s.link.addReply (replyTo tag 0x20#8 .done (powerActionDetails s n .diag false)) }) ∧
      (∀ (next : Tag) (body : List Byte), s.pending.head? = some (.powerAction next ⟨body, true⟩) → actionNode? body ≠ some n) ∧
      s.phase = .running ∧ lineOf s n .powerButton = some l ∧ (s.line n l).owner = .none ∧
      s.power.slot.get n = some .cycle ∧ s.powerState n = .on ∧ v.state = .recovering false ∧ s.action n = some a ∧
      a.kind = .diag ∧ a.state = .diagPulse ∧ a.originator = .host tag ∧ a.lostConfirmation = false ∧
      a.escalated = false ∧ a.held = some h ∧ h ≠ l :=
    ⟨2, 0, 3, _, recovered (diagState), diagState, hostAction .diag .diagPulse (some 4), 4, _, rfl, fun _ => rfl,
    rfl, nofun, by decide +kernel⟩

theorem witness_TimersCompleteHostActionsAndArm_action_ahead :
    ∃ (n : Node) (l : LineId) (tag : Tag) (v : Supervisor) (recovered : State → State) (s : State) (a : Action) (h : LineId) (ended : State) (next : Tag) (body : List Byte),
      v = s.supervisor n ∧
      (∀ x : State, recovered x = { x with
        lines := { x.lines with
          line := x.lines.line.modify n fun ls => ls.modify l fun y => { y with owner := .action n, driven := true } }
        power := { x.power with
          slot := s.power.slot.set n none
          action := s.power.action.set n (some
            { kind := .cycle, originator := .supervisor, state := .holding, confirmed := true, lostConfirmation := false,
              escalate := false, escalated := false, timer := (s.power.timings.get n).hold * 1000,
              timings := s.power.timings.get n, held := some l }) }
        consoles := s.consoles.modify n (Console.addMark (.recovery .cycle))
        boot := { s.boot with supervisor := s.boot.supervisor.set n { v with state := .recovering true } }
        link := x.link.addNotice (.recovery n .started (some .cycle) v.attempts v.lastFailure v.fallback) }) ∧
      (ended = { releaseLine n h s with
         power := { s.power with action := s.power.action.set n none }
         link := s.link.addReply (replyTo tag 0x20#8 .done (powerActionDetails s n .diag false)) }) ∧
      s.phase = .running ∧ lineOf s n .powerButton = some l ∧ (s.line n l).owner = .none ∧
      s.power.slot.get n = some .cycle ∧ s.powerState n = .on ∧ v.state = .recovering false ∧ s.action n = some a ∧
      a.kind = .diag ∧ a.state = .diagPulse ∧ a.originator = .host tag ∧ a.lostConfirmation = false ∧
      a.escalated = false ∧ a.held = some h ∧ h ≠ l ∧ s.pending.head? = some (.powerAction next ⟨body, true⟩) ∧
      actionNode? body = some n :=
    ⟨2, 0, 3, _, recovered ({ diagState with pending := [.powerAction 8 ⟨[2#8, 5#8, 0#8], true⟩] }),
    { diagState with pending := [.powerAction 8 ⟨[2#8, 5#8, 0#8], true⟩] }, hostAction .diag .diagPulse (some 4), 4,
    _, 8, [2#8, 5#8, 0#8], rfl, fun _ => rfl, rfl, by decide +kernel⟩

theorem witness_TimersCompleteHostActionsAndArm_already_ahead :
    ∃ (n : Node) (l : LineId) (v : Supervisor) (recovered : State → State) (s : State) (b : Byte),
      v = s.supervisor n ∧
      (∀ x : State, recovered x = { x with
        lines := { x.lines with
          line := x.lines.line.modify n fun ls => ls.modify l fun y => { y with owner := .action n, driven := true } }
        power := { x.power with
          slot := s.power.slot.set n none
          action := s.power.action.set n (some
            { kind := .cycle, originator := .supervisor, state := .holding, confirmed := true, lostConfirmation := false,
              escalate := false, escalated := false, timer := (s.power.timings.get n).hold * 1000,
              timings := s.power.timings.get n, held := some l }) }
        consoles := s.consoles.modify n (Console.addMark (.recovery .cycle))
        boot := { s.boot with supervisor := s.boot.supervisor.set n { v with state := .recovering true } }
        link := x.link.addNotice (.recovery n .started (some .cycle) v.attempts v.lastFailure v.fallback) }) ∧
      s.phase = .running ∧ lineOf s n .powerButton = some l ∧ (s.line n l).owner = .none ∧
      s.power.slot.get n = some .cycle ∧ s.powerState n = .on ∧ v.state = .recovering false ∧ RequestReady s ∧
      s.action n = none ∧ b.toNat = n.val :=
    ⟨2, 0, _, recovered (recoveryDue onState), recoveryDue onState, 2#8, rfl, fun _ => rfl, by decide +kernel⟩

theorem witness_PowerWatchRunsAnswersOrTimesOut_runs :
    ∃ (e : Per4 Expected) (e0 e1 e2 e3 t0 t1 : Byte) (timeout : Nat) (link : Link) (s : State),
      timeout = max 1 (min 3600 (u16 t0 t1)) ∧
      (link = (match s.power.watch with
         | some w => ({ s.link with receiver := none } : Link).addReply (replyTo w.tag 0x22#8 .superseded
             ((s.lines.power.toList.map fun p => BitVec.ofNat 8 (powerCode p)) ++ be16 w.timeout))
         | none => { s.link with receiver := none })) ∧
      RequestReady s ∧ expected? e0 = some e.n0 ∧ expected? e1 = some e.n1 ∧ expected? e2 = some e.n2 ∧
      expected? e3 = some e.n3 ∧
      (∀ n : Node, e.get n = .any ∨ (e.get n = .on ∧ s.powerState n = .on) ∨ (e.get n = .off ∧ s.powerState n = .off) ∨ (e.get n = .unknown ∧ s.powerState n = .unknown)) :=
    ⟨⟨.any, .unknown, .on, .any⟩, 3#8, 2#8, 0#8, 3#8, 0#8, 0#8, _, _, watching onState, rfl, rfl, by decide +kernel⟩

theorem witness_PowerWatchRunsAnswersOrTimesOut_changed :
    ∃ (e : Per4 Expected) (e0 e1 e2 e3 t0 t1 : Byte) (timeout : Nat) (link : Link) (s : State),
      timeout = max 1 (min 3600 (u16 t0 t1)) ∧
      (link = (match s.power.watch with
         | some w => ({ s.link with receiver := none } : Link).addReply (replyTo w.tag 0x22#8 .superseded
             ((s.lines.power.toList.map fun p => BitVec.ofNat 8 (powerCode p)) ++ be16 w.timeout))
         | none => { s.link with receiver := none })) ∧
      RequestReady s ∧ expected? e0 = some e.n0 ∧ expected? e1 = some e.n1 ∧ expected? e2 = some e.n2 ∧
      expected? e3 = some e.n3 ∧
      (¬ (∀ n : Node, e.get n = .any ∨ (e.get n = .on ∧ s.powerState n = .on) ∨ (e.get n = .off ∧ s.powerState n = .off) ∨ (e.get n = .unknown ∧ s.powerState n = .unknown))) :=
    ⟨⟨.any, .unknown, .off, .any⟩, 3#8, 2#8, 1#8, 3#8, 255#8, 0#8, _, _, watching onState, rfl, rfl,
    by decide +kernel⟩

theorem witness_PowerWatchRunsAnswersOrTimesOut_timeout :
    ∃ (w : Watch) (s : State),
      s.phase = .running ∧ s.power.watch = some w :=
    ⟨{ tag := 9, expected := ⟨.any, .any, .on, .any⟩, timeout := 9, remaining := 9000 }, watching onState,
    by decide +kernel⟩

theorem witness_ConsoleConfigAppliesDerivedRates_default :
    ∃ (c : ConsoleSettings),
      ConsoleLegal c :=
    ⟨defaultConsole, by decide +kernel⟩

theorem witness_ConsoleConfigAppliesDerivedRates_slowest :
    ∃ (c : ConsoleSettings),
      ConsoleLegal c :=
    ⟨{ defaultConsole with baud := 300, parity := .odd, stopBits := 2, window := 10, rise := 1, fall := 0 },
    by decide +kernel⟩

theorem witness_ConsoleConfigAppliesDerivedRates_fastest :
    ∃ (c : ConsoleSettings),
      ConsoleLegal c :=
    ⟨{ defaultConsole with baud := 3000000, window := 1000, rise := 100, fall := 99 }, by decide +kernel⟩

theorem witness_ConsoleConfigAppliesDerivedRates_applied :
    ∃ (n : Node) (b b0 b1 b2 b3 db pb sb cb w0 w1 rise fall : Byte) (x : ConsoleSettings) (s : State),
      RequestReady s ∧ b.toNat = n.val ∧ (db = 7#8 ∨ db = 8#8) ∧ x.dataBits = db.toNat ∧
      parity? pb = some x.parity ∧ (sb = 1#8 ∨ sb = 2#8) ∧ x.stopBits = sb.toNat ∧ flag? cb = some x.ctsUse ∧
      x.baud = (if u32 b0 b1 b2 b3 = 0 then (s.consoles.get n).settings.baud else max 300 (min 3000000 (u32 b0 b1 b2 b3))) ∧
      x.window = (if u16 w0 w1 = 0 then (s.consoles.get n).settings.window else max 10 (min 1000 (u16 w0 w1))) ∧
      x.rise = (if rise = 0#8 then (s.consoles.get n).settings.rise else min 100 rise.toNat) ∧
      x.fall = (if x.rise ≤ fall.toNat then x.rise - 1 else fall.toNat) :=
    ⟨1, 1#8, 0#8, 0#8, 1#8, 0#8, 7#8, 2#8, 2#8, 1#8, 0#8, 0#8, 0#8, 60#8,
    { baud := 300, dataBits := 7, parity := .odd, stopBits := 2, ctsUse := true, window := 100, rise := 50, fall := 49 },
    ready, by decide +kernel⟩

theorem witness_ConsoleSendTakesWhatFits_overfull :
    ∃ (n : Node) (b : Byte) (bytes : List Byte) (s : State),
      RequestReady s ∧ ConsoleLaw s ∧ b.toNat = n.val ∧ 1 ≤ bytes.length ∧ bytes.length ≤ 256 :=
    ⟨1, 1#8, [1#8, 2#8, 3#8], console (fun c => { c with fifo := List.replicate 255 0x41#8 }) ready,
    by decide +kernel⟩

theorem witness_ConsoleSendTakesWhatFits_longest :
    ∃ (n : Node) (b : Byte) (bytes : List Byte) (s : State),
      RequestReady s ∧ ConsoleLaw s ∧ b.toNat = n.val ∧ 1 ≤ bytes.length ∧ bytes.length ≤ 256 :=
    ⟨1, 1#8, List.replicate 256 7#8, ready, by decide +kernel⟩

theorem witness_ConsoleSendTakesWhatFits_too_long :
    ∃ (b : Byte) (bytes : List Byte) (s : State),
      RequestReady s ∧ (4 ≤ b.toNat ∨ bytes = [] ∨ 256 < bytes.length) ∧ bytes.length < 600 :=
    ⟨3#8, List.replicate 257 7#8, ready, by decide +kernel⟩

theorem witness_ConsoleSendTakesWhatFits_no_node :
    ∃ (b : Byte) (bytes : List Byte) (s : State),
      RequestReady s ∧ (4 ≤ b.toNat ∨ bytes = [] ∨ 256 < bytes.length) ∧ bytes.length < 600 :=
    ⟨4#8, [7#8], ready, by decide +kernel⟩

theorem witness_ConsoleSendTakesWhatFits_empty :
    ∃ (b : Byte) (bytes : List Byte) (s : State),
      RequestReady s ∧ (4 ≤ b.toNat ∨ bytes = [] ∨ 256 < bytes.length) ∧ bytes.length < 600 :=
    ⟨3#8, [], ready, by decide +kernel⟩

theorem witness_TransmitterSendsCharactersAndBreaks_starts :
    ∃ (n : Node) (cts : Level) (s : State) (x : Byte) (rest : List Byte) (k : ConsoleSettings) (data : List Bool),
      k = (s.consoles.get n).settings ∧ s.phase = .running ∧ (s.consoles.get n).fifo = x :: rest ∧
      (s.consoles.get n).sending = none ∧ (s.consoles.get n).break_ = none ∧ (k.ctsUse = false ∨ cts = .low) ∧
      data.length = k.dataBits ∧ (∀ (i : Nat) (h : i < data.length), data[i] = x.getLsbD i) :=
    ⟨1, .high, console (fun c => { c with fifo := [0x41#8, 0x42#8] }) ready, 0x41#8, [0x42#8], _,
    [true, false, false, false, false, false, true, false], rfl, by decide +kernel⟩

theorem witness_TransmitterSendsCharactersAndBreaks_seven_bits :
    ∃ (n : Node) (cts : Level) (s : State) (x : Byte) (rest : List Byte) (k : ConsoleSettings) (data : List Bool),
      k = (s.consoles.get n).settings ∧ s.phase = .running ∧ (s.consoles.get n).fifo = x :: rest ∧
      (s.consoles.get n).sending = none ∧ (s.consoles.get n).break_ = none ∧ (k.ctsUse = false ∨ cts = .low) ∧
      data.length = k.dataBits ∧ (∀ (i : Nat) (h : i < data.length), data[i] = x.getLsbD i) :=
    ⟨1, .low,
    console (fun c => { c with fifo := [0xC1#8], settings := { c.settings with dataBits := 7, parity := .odd, ctsUse := true } }) ready,
    0xC1#8, [], _, [true, false, false, false, false, false, true], rfl, by decide +kernel⟩

theorem witness_TransmitterSendsCharactersAndBreaks_idle :
    ∃ (n : Node) (cts : Level) (s : State),
      s.phase = .running ∧
      ((s.consoles.get n).fifo = [] ∨ (s.consoles.get n).sending ≠ none ∨ (s.consoles.get n).break_ ≠ none ∨ ((s.consoles.get n).settings.ctsUse = true ∧ cts = .high)) :=
    ⟨1, .high, ready, by decide +kernel⟩

theorem witness_TransmitterSendsCharactersAndBreaks_cts_held :
    ∃ (n : Node) (cts : Level) (s : State),
      s.phase = .running ∧
      ((s.consoles.get n).fifo = [] ∨ (s.consoles.get n).sending ≠ none ∨ (s.consoles.get n).break_ ≠ none ∨ ((s.consoles.get n).settings.ctsUse = true ∧ cts = .high)) :=
    ⟨1, .high, console (fun c => { c with fifo := [0x41#8], settings := { c.settings with ctsUse := true } }) ready,
    by decide +kernel⟩

theorem witness_TransmitterSendsCharactersAndBreaks_ends :
    ∃ (n : Node) (s : State),
      s.phase = .running ∧ (s.consoles.get n).break_ = none :=
    ⟨1, console (fun c => { c with sending := some [false] }) ready, by decide +kernel⟩

theorem witness_TransmitterSendsCharactersAndBreaks_accepted :
    ∃ (n : Node) (b : Byte) (s : State),
      s.phase = .running ∧ b.toNat = n.val ∧ RequestReady s ∧ (s.consoles.get n).break_ = none :=
    ⟨1, 1#8, ready, by decide +kernel⟩

theorem witness_TransmitterSendsCharactersAndBreaks_busy :
    ∃ (n : Node) (b : Byte) (k : Break) (s : State),
      s.phase = .running ∧ b.toNat = n.val ∧ RequestReady s ∧ (s.consoles.get n).break_ = some k :=
    ⟨1, 1#8, { phase := .recovery, duration := 9, remaining := 9, tag := 6 },
    console (fun c => { c with sending := none, break_ := some { phase := .recovery, duration := 9, remaining := 9, tag := 6 } }) ready,
    by decide +kernel⟩

theorem witness_TransmitterSendsCharactersAndBreaks_begins :
    ∃ (n : Node) (b : Byte) (k : Break) (s : State),
      s.phase = .running ∧ b.toNat = n.val ∧ (s.consoles.get n).break_ = some k ∧ k.phase = .waiting ∧
      (s.consoles.get n).sending ≠ none :=
    ⟨1, 1#8, { phase := .waiting, duration := 9, remaining := 9, tag := 6 },
    console (fun c => { c with sending := some [false], break_ := some { phase := .waiting, duration := 9, remaining := 9, tag := 6 } }) ready,
    by decide +kernel⟩

theorem witness_TransmitterSendsCharactersAndBreaks_sent :
    ∃ (n : Node) (b : Byte) (k : Break) (s : State),
      s.phase = .running ∧ b.toNat = n.val ∧ (s.consoles.get n).break_ = some k ∧ k.phase = .low :=
    ⟨1, 1#8, { phase := .low, duration := 9, remaining := 9, tag := 6 },
    console (fun c => { c with sending := none, break_ := some { phase := .low, duration := 9, remaining := 9, tag := 6 } }) ready,
    by decide +kernel⟩

theorem witness_TransmitterSendsCharactersAndBreaks_recovers :
    ∃ (n : Node) (b : Byte) (k : Break) (s : State),
      s.phase = .running ∧ b.toNat = n.val ∧ (s.consoles.get n).break_ = some k ∧ k.phase = .recovery :=
    ⟨1, 1#8, { phase := .recovery, duration := 9, remaining := 9, tag := 6 },
    console (fun c => { c with sending := none, break_ := some { phase := .recovery, duration := 9, remaining := 9, tag := 6 } }) ready,
    by decide +kernel⟩

theorem witness_OffsetsPlacedByDistance_full_page :
    ∃ (s : State),
      PoolLaw s ∧ HistoryLaw s :=
    ⟨{ ready with consoles := ready.consoles.modify 3 fun c => { c with oldest := 0xFFFFFF00#32, live := 767 } },
    poolLaw_of (by decide +kernel) (by decide +kernel) (by decide +kernel), by decide +kernel⟩

theorem witness_OffsetsPlacedByDistance_wrapped :
    ∃ (oldest live : Word),
      (live - oldest).toNat < 2 ^ 31 :=
    ⟨0xFFFFFF00#32, 0x10#32, by decide +kernel⟩

theorem witness_CharacterIsStoredAndHistoryGrows_framing_error :
    ∃ (n : Node) (cmd : Instr) (data stored : Byte) (parityBit stopBit wrong : Bool) (c : Console) (p : PageId) (i : Nat) (s : State),
      c = s.consoles.get n ∧ s.phase = .running ∧
      ((cmd = .characterReceived n data parityBit stopBit ∧ (c.receiver = .idle ∨ c.receiver = .receiving ∨ c.receiver = .waitHigh) ∧ allLow c.settings data parityBit stopBit = false ∧ wrong = parityError c.settings data parityBit ∧ stored = if c.settings.dataBits = 7 then data &&& 0x7F#8 else data) ∨ (cmd = .heldCharacterStored n ∧ c.receiver = .held ∧ stopBit = false ∧ wrong = false ∧ stored = 0#8)) ∧
      c.locate c.live = some (p, i) ∧ (c.live + 1 - c.oldest).toNat ≠ 512 * c.pages.length ∧
      completedEntries s n stored = [] ∧ (c.flood = true ∨ c.count < c.settings.riseThreshold) :=
    ⟨1, .characterReceived 1 0xF5#8 true false, 0xF5#8, 0xF5#8, true, false, false, _, 2, 0,
    console (fun c => { c with receiver := .receiving }) ready, rfl, by decide +kernel⟩

theorem witness_CharacterIsStoredAndHistoryGrows_seven_bits :
    ∃ (n : Node) (cmd : Instr) (data stored : Byte) (parityBit stopBit wrong : Bool) (c : Console) (p : PageId) (i : Nat) (s : State),
      c = s.consoles.get n ∧ s.phase = .running ∧
      ((cmd = .characterReceived n data parityBit stopBit ∧ (c.receiver = .idle ∨ c.receiver = .receiving ∨ c.receiver = .waitHigh) ∧ allLow c.settings data parityBit stopBit = false ∧ wrong = parityError c.settings data parityBit ∧ stored = if c.settings.dataBits = 7 then data &&& 0x7F#8 else data) ∨ (cmd = .heldCharacterStored n ∧ c.receiver = .held ∧ stopBit = false ∧ wrong = false ∧ stored = 0#8)) ∧
      c.locate c.live = some (p, i) ∧ (c.live + 1 - c.oldest).toNat ≠ 512 * c.pages.length ∧
      completedEntries s n stored = [] ∧ (c.flood = true ∨ c.count < c.settings.riseThreshold) :=
    ⟨1, .characterReceived 1 0xF5#8 true true, 0xF5#8, 0x75#8, true, true, false, _, 2, 0,
    console (fun c => { c with receiver := .receiving, settings := { c.settings with dataBits := 7, parity := .even } }) ready,
    rfl, by decide +kernel⟩

theorem witness_CharacterIsStoredAndHistoryGrows_without_start_bit :
    ∃ (n : Node) (cmd : Instr) (data stored : Byte) (parityBit stopBit wrong : Bool) (c : Console) (p : PageId) (i : Nat) (s : State),
      c = s.consoles.get n ∧ s.phase = .running ∧
      ((cmd = .characterReceived n data parityBit stopBit ∧ (c.receiver = .idle ∨ c.receiver = .receiving ∨ c.receiver = .waitHigh) ∧ allLow c.settings data parityBit stopBit = false ∧ wrong = parityError c.settings data parityBit ∧ stored = if c.settings.dataBits = 7 then data &&& 0x7F#8 else data) ∨ (cmd = .heldCharacterStored n ∧ c.receiver = .held ∧ stopBit = false ∧ wrong = false ∧ stored = 0#8)) ∧
      c.locate c.live = some (p, i) ∧ (c.live + 1 - c.oldest).toNat ≠ 512 * c.pages.length ∧
      completedEntries s n stored = [] ∧ (c.flood = true ∨ c.count < c.settings.riseThreshold) :=
    ⟨1, .characterReceived 1 0xF5#8 false true, 0xF5#8, 0x75#8, false, true, true, _, 2, 0,
    console (fun c => { c with receiver := .waitHigh, settings := { c.settings with dataBits := 7, parity := .even } }) ready,
    rfl, by decide +kernel⟩

theorem witness_CharacterIsStoredAndHistoryGrows_held :
    ∃ (n : Node) (cmd : Instr) (data stored : Byte) (parityBit stopBit wrong : Bool) (c : Console) (p : PageId) (i : Nat) (s : State),
      c = s.consoles.get n ∧ s.phase = .running ∧
      ((cmd = .characterReceived n data parityBit stopBit ∧ (c.receiver = .idle ∨ c.receiver = .receiving ∨ c.receiver = .waitHigh) ∧ allLow c.settings data parityBit stopBit = false ∧ wrong = parityError c.settings data parityBit ∧ stored = if c.settings.dataBits = 7 then data &&& 0x7F#8 else data) ∨ (cmd = .heldCharacterStored n ∧ c.receiver = .held ∧ stopBit = false ∧ wrong = false ∧ stored = 0#8)) ∧
      c.locate c.live = some (p, i) ∧ (c.live + 1 - c.oldest).toNat ≠ 512 * c.pages.length ∧
      completedEntries s n stored = [] ∧ (c.flood = true ∨ c.count < c.settings.riseThreshold) :=
    ⟨1, .heldCharacterStored 1, 0#8, 0#8, false, false, false, _, 2, 0,
    console (fun c => { c with receiver := .held }) ready, rfl, by decide +kernel⟩

theorem witness_CharacterIsStoredAndHistoryGrows_grows :
    ∃ (n : Node) (data : Byte) (c : Console) (p q : PageId) (i : Nat) (s : State),
      c = s.consoles.get n ∧ s.phase = .running ∧ c.receiver = .receiving ∧ c.settings.dataBits = 8 ∧
      c.settings.parity = .none ∧ c.locate c.live = some (p, i) ∧
      (c.live + 1 - c.oldest).toNat = 512 * c.pages.length ∧
      s.pool.held (.ch n) < (s.pool.consoles.get n).reservation ∧ s.pool.owners[q] = none ∧
      (∀ r : PageId, r < q → s.pool.owners[r] ≠ none) ∧ completedEntries s n data = [] ∧
      (c.flood = true ∨ c.count < c.settings.riseThreshold) :=
    ⟨1, 0x33#8, _, 3, 8, 511, console (fun c => { c with receiver := .receiving, live := 1023 }) ready, rfl,
    by decide +kernel⟩

theorem witness_BreakReceptionStoresNothing_start_bit :
    ∃ (n : Node) (c : Console) (s : State),
      c = s.consoles.get n ∧ s.phase = .running ∧
      (c.receiver = .idle ∨ c.receiver = .waitHigh ∨ c.receiver = .discarding) :=
    ⟨1, _, ready, rfl, by decide +kernel⟩

theorem witness_BreakReceptionStoresNothing_start_bit_after_config :
    ∃ (n : Node) (c : Console) (s : State),
      c = s.consoles.get n ∧ s.phase = .running ∧
      (c.receiver = .idle ∨ c.receiver = .waitHigh ∨ c.receiver = .discarding) :=
    ⟨1, _, console (fun c => { c with receiver := .discarding }) ready, rfl, by decide +kernel⟩

theorem witness_BreakReceptionStoresNothing_all_low :
    ∃ (n : Node) (data : Byte) (parityBit : Bool) (c : Console) (s : State),
      c = s.consoles.get n ∧ s.phase = .running ∧
      (c.receiver = .idle ∨ c.receiver = .receiving ∨ c.receiver = .waitHigh) ∧
      allLow c.settings data parityBit false = true :=
    ⟨1, 0#8, false, _, console (fun c => { c with receiver := .receiving }) ready, rfl, by decide +kernel⟩

theorem witness_BreakReceptionStoresNothing_all_low_odd :
    ∃ (n : Node) (data : Byte) (parityBit : Bool) (c : Console) (s : State),
      c = s.consoles.get n ∧ s.phase = .running ∧
      (c.receiver = .idle ∨ c.receiver = .receiving ∨ c.receiver = .waitHigh) ∧
      allLow c.settings data parityBit false = true :=
    ⟨1, 0#8, false, _,
    console (fun c => { c with receiver := .receiving, settings := { c.settings with parity := .odd } }) ready, rfl,
    by decide +kernel⟩

theorem witness_BreakReceptionStoresNothing_discarded :
    ∃ (n : Node) (c : Console) (s : State),
      c = s.consoles.get n ∧ s.phase = .running ∧
      (c.receiver = .discarding ∨ c.receiver = .held ∨ c.receiver = .inBreak) :=
    ⟨1, _, console (fun c => { c with receiver := .discarding }) ready, rfl, by decide +kernel⟩

theorem witness_BreakReceptionStoresNothing_recognized :
    ∃ (n : Node) (c : Console) (s : State),
      c = s.consoles.get n ∧ s.phase = .running ∧ c.receiver = .held :=
    ⟨1, _, console (fun c => { c with receiver := .held }) ready, rfl, by decide +kernel⟩

theorem witness_BreakReceptionStoresNothing_ends :
    ∃ (n : Node) (c : Console) (s : State),
      c = s.consoles.get n ∧ s.phase = .running ∧ c.receiver = .inBreak :=
    ⟨1, _, console (fun c => { c with receiver := .inBreak }) ready, rfl, by decide +kernel⟩

theorem witness_OldestPageLeavesWithItsMarks_no_cursor :
    ∃ (n : Node) (c d : Console) (s : State),
      c = s.consoles.get n ∧
      (d = { c with
         pages := c.pages.drop 1
         oldest := c.oldest + 512
         marks := c.marks.filter fun m => decide ((m.offset - (c.oldest + 512)).toNat < 2 ^ 31) }) ∧
      512 ≤ (c.live - c.oldest).toNat ∧ (c.live - c.oldest).toNat < 2 ^ 31 ∧ c.cursor = none :=
    ⟨1, _, _,
    console (fun c => { c with live := 700, marks := [⟨511, .clear⟩, ⟨512, .clear⟩, ⟨700, .clear⟩], cursor := none, flood := false }) ready,
    rfl, rfl, by decide +kernel⟩

theorem witness_OldestPageLeavesWithItsMarks_cursor_ahead :
    ∃ (n : Node) (c d : Console) (s : State) (x : Word),
      c = s.consoles.get n ∧
      (d = { c with
         pages := c.pages.drop 1
         oldest := c.oldest + 512
         marks := c.marks.filter fun m => decide ((m.offset - (c.oldest + 512)).toNat < 2 ^ 31) }) ∧
      512 ≤ (c.live - c.oldest).toNat ∧ (c.live - c.oldest).toNat < 2 ^ 31 ∧ c.cursor = some x ∧
      512 ≤ (x - c.oldest).toNat ∧ (x - c.oldest).toNat ≤ (c.live - c.oldest).toNat :=
    ⟨1, _, _,
    console (fun c => { c with live := 700, marks := [⟨511, .clear⟩, ⟨512, .clear⟩, ⟨700, .clear⟩], cursor := some 512, flood := false }) ready,
    512, rfl, rfl, by decide +kernel⟩

theorem witness_OldestPageLeavesWithItsMarks_in_flood :
    ∃ (n : Node) (c d : Console) (s : State) (x : Word),
      c = s.consoles.get n ∧
      (d = { c with
         pages := c.pages.drop 1
         oldest := c.oldest + 512
         marks := c.marks.filter fun m => decide ((m.offset - (c.oldest + 512)).toNat < 2 ^ 31) }) ∧
      512 ≤ (c.live - c.oldest).toNat ∧ (c.live - c.oldest).toNat < 2 ^ 31 ∧ c.cursor = some x ∧
      (x - c.oldest).toNat < 512 ∧ c.flood = true :=
    ⟨1, _, _,
    console (fun c => { c with live := 700, marks := [⟨511, .clear⟩, ⟨512, .clear⟩, ⟨700, .clear⟩], cursor := some 511, flood := true }) ready,
    511, rfl, rfl, by decide +kernel⟩

theorem witness_OldestPageLeavesWithItsMarks_gap :
    ∃ (n : Node) (c d : Console) (s : State) (x : Word),
      c = s.consoles.get n ∧
      (d = { c with
         pages := c.pages.drop 1
         oldest := c.oldest + 512
         marks := c.marks.filter fun m => decide ((m.offset - (c.oldest + 512)).toNat < 2 ^ 31) }) ∧
      512 ≤ (c.live - c.oldest).toNat ∧ (c.live - c.oldest).toNat < 2 ^ 31 ∧ c.cursor = some x ∧
      (x - c.oldest).toNat < 512 ∧ c.flood = false :=
    ⟨1, _, _,
    console (fun c => { c with live := 700, marks := [⟨511, .clear⟩, ⟨512, .clear⟩, ⟨700, .clear⟩], cursor := some 0, flood := false }) ready,
    0, rfl, rfl, by decide +kernel⟩

theorem witness_FloodFollowsThresholds_rise :
    ∃ (n : Node) (data : Byte) (c : Console) (p : PageId) (i : Nat) (s : State),
      c = s.consoles.get n ∧ s.phase = .running ∧ c.receiver = .receiving ∧ c.settings.dataBits = 8 ∧
      c.settings.parity = .none ∧ c.locate c.live = some (p, i) ∧
      (c.live + 1 - c.oldest).toNat ≠ 512 * c.pages.length ∧ completedEntries s n data = [] ∧ c.flood = false ∧
      c.count = c.settings.riseThreshold ∧ NothingHeld s :=
    ⟨1, 0x35#8, _, 2, 0,
    console (fun c => { c with receiver := .receiving, count := c.settings.riseThreshold }) ready, rfl,
    by decide +kernel⟩

theorem witness_FloodFollowsThresholds_no_flood :
    ∃ (n : Node) (c : Console) (s : State),
      c = s.consoles.get n ∧ s.phase = .running ∧ (c.flood = false ∨ c.settings.fallThreshold < c.count) :=
    ⟨1, _, console (fun c => { c with receiver := .receiving, count := c.settings.riseThreshold }) ready, rfl,
    by decide +kernel⟩

theorem witness_FloodFollowsThresholds_fall :
    ∃ (n : Node) (c : Console) (s : State),
      c = s.consoles.get n ∧ s.phase = .running ∧ c.flood = true ∧ c.count ≤ c.settings.fallThreshold ∧
      NothingHeld s :=
    ⟨1, _,
    console (fun c => { c with flood := true, count := c.settings.fallThreshold, live := 700, cursor := some 100 }) ready,
    rfl, by decide +kernel⟩

theorem witness_ConsoleForwardSetsCursor_off :
    ∃ (n : Node) (b o0 o1 o2 o3 : Byte) (c : Console) (x y : Word) (s : State) (sel : Byte),
      c = s.consoles.get n ∧ x = BitVec.ofNat 32 (u32 o0 o1 o2 o3) ∧
      y = (if (x - c.oldest).toNat ≤ (c.live - c.oldest).toNat then x else if (x - c.oldest).toNat < 2 ^ 31 then c.live else c.oldest) ∧
      RequestReady s ∧ b.toNat = n.val ∧ (sel = 0#8 ∨ sel = 1#8) :=
    ⟨1, 1#8, 0#8, 0#8, 1#8, 0#8, _, _, _,
    console (fun c => { c with live := 700, marks := [⟨511, .clear⟩, ⟨512, .clear⟩, ⟨700, .clear⟩], cursor := none, flood := false }) ready,
    1#8, rfl, rfl, rfl, by decide +kernel⟩

theorem witness_ConsoleForwardSetsCursor_refused :
    ∃ (n : Node) (b o0 o1 o2 o3 : Byte) (c : Console) (x y : Word) (s : State) (node on sel : Byte),
      c = s.consoles.get n ∧ x = BitVec.ofNat 32 (u32 o0 o1 o2 o3) ∧
      y = (if (x - c.oldest).toNat ≤ (c.live - c.oldest).toNat then x else if (x - c.oldest).toNat < 2 ^ 31 then c.live else c.oldest) ∧
      RequestReady s ∧ b.toNat = n.val ∧ (4 ≤ node.toNat ∨ 2 ≤ on.toNat ∨ on = 1#8 ∧ 2 ≤ sel.toNat) :=
    ⟨1, 1#8, 0#8, 0#8, 1#8, 0#8, _, _, _, ready, 3#8, 1#8, 2#8, rfl, rfl, rfl, by decide +kernel⟩

theorem witness_ConsoleForwardSetsCursor_held_offset :
    ∃ (n : Node) (b o0 o1 o2 o3 : Byte) (c : Console) (x y : Word) (s : State),
      c = s.consoles.get n ∧ x = BitVec.ofNat 32 (u32 o0 o1 o2 o3) ∧
      y = (if (x - c.oldest).toNat ≤ (c.live - c.oldest).toNat then x else if (x - c.oldest).toNat < 2 ^ 31 then c.live else c.oldest) ∧
      RequestReady s ∧ b.toNat = n.val :=
    ⟨1, 1#8, 0#8, 0#8, 1#8, 0#8, _, _, _,
    console (fun c => { c with live := 700, marks := [⟨511, .clear⟩, ⟨512, .clear⟩, ⟨700, .clear⟩], cursor := none, flood := false }) ready,
    rfl, rfl, rfl, by decide +kernel⟩

theorem witness_ConsoleForwardSetsCursor_beyond_live :
    ∃ (n : Node) (b o0 o1 o2 o3 : Byte) (c : Console) (x y : Word) (s : State),
      c = s.consoles.get n ∧ x = BitVec.ofNat 32 (u32 o0 o1 o2 o3) ∧
      y = (if (x - c.oldest).toNat ≤ (c.live - c.oldest).toNat then x else if (x - c.oldest).toNat < 2 ^ 31 then c.live else c.oldest) ∧
      RequestReady s ∧ b.toNat = n.val :=
    ⟨1, 1#8, 0x7F#8, 0#8, 1#8, 0#8, _, _, _,
    console (fun c => { c with live := 700, marks := [⟨511, .clear⟩, ⟨512, .clear⟩, ⟨700, .clear⟩], cursor := none, flood := false }) ready,
    rfl, rfl, rfl, by decide +kernel⟩

theorem witness_ConsoleForwardSetsCursor_before_oldest :
    ∃ (n : Node) (b o0 o1 o2 o3 : Byte) (c : Console) (x y : Word) (s : State),
      c = s.consoles.get n ∧ x = BitVec.ofNat 32 (u32 o0 o1 o2 o3) ∧
      y = (if (x - c.oldest).toNat ≤ (c.live - c.oldest).toNat then x else if (x - c.oldest).toNat < 2 ^ 31 then c.live else c.oldest) ∧
      RequestReady s ∧ b.toNat = n.val :=
    ⟨1, 1#8, 0x80#8, 0#8, 0#8, 0#8, _, _, _,
    console (fun c => { c with live := 700, marks := [⟨511, .clear⟩, ⟨512, .clear⟩, ⟨700, .clear⟩], cursor := none, flood := false }) ready,
    rfl, rfl, rfl, by decide +kernel⟩

theorem witness_FreePagesCoverShortfalls :
    ∃ (s : State),
      s.pool.reserved ≤ 256 :=
    ⟨served, by decide +kernel⟩

theorem witness_FreePagesCoverShortfalls_console :
    ∃ (s : State) (h : Holder),
      s.pool.reserved ≤ 256 ∧ s.pool.borrowed ≤ s.pool.common ∧ s.pool.held h < (s.pool.holder h).reservation :=
    ⟨served, .ch 3, by decide +kernel⟩

theorem witness_FreePagesCoverShortfalls_cache :
    ∃ (s : State) (h : Holder),
      s.pool.reserved ≤ 256 ∧ s.pool.borrowed ≤ s.pool.common ∧ s.pool.held h < (s.pool.holder h).reservation :=
    ⟨served, .mh 3, by decide +kernel⟩

theorem witness_FreePagesCoverShortfalls_defined :
    ∃ (h : Holder) (r : HolderRecord) (s : State),
      r = s.pool.holder h :=
    ⟨.ch 2, lentState.pool.holder (.ch 2), lentState, by decide +kernel⟩

theorem witness_FreePagesCoverShortfalls_ceiling :
    ∃ (h : Holder) (r : HolderRecord) (s : State),
      r = s.pool.holder h ∧ (∀ n : Node, h = .ch n → (s.consoles.get n).flood = false) :=
    ⟨.mh 2, lentState.pool.holder (.mh 2), lentState, by decide +kernel⟩

theorem witness_FreePagesCoverShortfalls_flood :
    ∃ (h : Holder) (r : HolderRecord) (s : State) (n : Node),
      r = s.pool.holder h ∧ h = .ch n ∧ (s.consoles.get n).flood = true :=
    ⟨.ch 1, ready.pool.holder (.ch 1), console (fun c => { c with flood := true }) ready, 1, by decide +kernel⟩

theorem witness_FreePagesCoverShortfalls_ranges :
    ∃ (h : Holder) (r : HolderRecord) (s : State),
      SettingsLaw s ∧ r = s.pool.holder h :=
    ⟨.mh 1, ready.pool.holder (.mh 1), ready, (by decide +kernel), by decide +kernel⟩

theorem witness_FreePagesCoverShortfalls_whole_share :
    ∃ (h : Holder) (r : HolderRecord) (s : State),
      r = s.pool.holder h ∧ r.share = 16 ∧ (∀ n : Node, h = .ch n → (s.consoles.get n).flood = false) :=
    ⟨.mh 2, (pooled [(.mh 2, 8, 16)] ready).holder (.mh 2), { ready with pool := pooled [(.mh 2, 8, 16)] ready },
    by decide +kernel⟩

theorem witness_FreePagesCoverShortfalls_no_share :
    ∃ (h : Holder) (r : HolderRecord) (s : State),
      r = s.pool.holder h ∧ r.share = 0 :=
    ⟨.ch 2, (pooled [(.ch 2, 4, 0)] ready).holder (.ch 2), { ready with pool := pooled [(.ch 2, 4, 0)] ready },
    by decide +kernel⟩

theorem witness_FreePagesCoverShortfalls_no_share_request :
    ∃ (h : Holder) (r : HolderRecord) (s : State),
      r = s.pool.holder h ∧ r.share = 0 :=
    ⟨.ch 2, (pooled [(.ch 2, 2, 0)] ready).holder (.ch 2), { ready with pool := pooled [(.ch 2, 2, 0)] ready },
    by decide +kernel⟩

theorem witness_AllocationTakesFirstStepThatSucceeds_free_page :
    ∃ (h : Holder) (q : PageId) (s : State),
      s.pool.owners[q] = none ∧ (∀ p : PageId, p < q → s.pool.owners[p] ≠ none) ∧
      (s.pool.held h < (s.pool.holder h).reservation ∨ (s.pool.held h - (s.pool.holder h).reservation < ceiling s h ∧ s.pool.borrowed < s.pool.common)) :=
    ⟨.ch 2, 8, ready, by decide +kernel⟩

theorem witness_AllocationTakesFirstStepThatSucceeds_own_page :
    ∃ (u : UnitId) (why : Purpose) (s : State) (r : DirRecord),
      (s.pool.caches.get u).reservation ≤ s.pool.held (.mh u) ∧
      ceiling s (.mh u) ≤ s.pool.held (.mh u) - (s.pool.caches.get u).reservation ∧ r ∈ s.cache.directory ∧
      why ≠ .readAhead ∧ r.unit = u ∧ r.state = .clean ∧ (s.cache.directory.map fun x => x.page).Nodup ∧
      (∀ x ∈ s.cache.directory, x.unit = u → x.state = .clean → x.age < r.age ∨ (x.age = r.age ∧ r.page ≤ x.page)) :=
    ⟨0, .demand, cappedState, { page 15 7 .clean with unit := 0, age := 8 }, by decide +kernel⟩

theorem witness_AllocationTakesFirstStepThatSucceeds_read_ahead :
    ∃ (u : UnitId) (why : Purpose) (s : State),
      (s.pool.caches.get u).reservation ≤ s.pool.held (.mh u) ∧
      ceiling s (.mh u) ≤ s.pool.held (.mh u) - (s.pool.caches.get u).reservation ∧
      (why = .readAhead ∨ ∀ r ∈ s.cache.directory, r.unit = u → r.state ≠ .clean) :=
    ⟨0, .readAhead, cappedState, by decide +kernel⟩

theorem witness_AllocationTakesFirstStepThatSucceeds_reclaims :
    ∃ (h : Holder) (u : UnitId) (r : DirRecord) (s : State),
      (s.pool.holder h).reservation ≤ s.pool.held h ∧ s.pool.held h - (s.pool.holder h).reservation < ceiling s h ∧
      s.pool.common ≤ s.pool.borrowed ∧ h ≠ .mh u ∧ (s.cache.directory.map fun x => x.page).Nodup ∧
      r ∈ s.cache.directory ∧ r.unit = u ∧ r.state = .clean ∧
      (∀ x ∈ s.cache.directory, x.unit = u → x.state = .clean → x.age < r.age ∨ (x.age = r.age ∧ r.page ≤ x.page)) ∧
      0 < excess s (.mh u) ∧ (∀ g : Holder, g ≠ h → evictable s g ≠ none → excess s g ≤ excess s (.mh u)) ∧
      (∀ n : Node, Holder.ch n ≠ h → evictable s (.ch n) ≠ none → excess s (.ch n) < excess s (.mh u)) ∧
      (∀ v : UnitId, v < u → Holder.mh v ≠ h → evictable s (.mh v) ≠ none → excess s (.mh v) < excess s (.mh u)) :=
    ⟨.ch 2, 1, { page 75 7 .clean with age := 8 }, lentState, by decide +kernel⟩

theorem witness_PoolConfigChecksThenApplies_overcommit :
    ∃ (mask : Byte) (rest : List Byte) (xs : List (Holder × Nat × Nat)) (p : Pool) (s : State),
      p.owners = s.pool.owners ∧ p.agingTick = s.pool.agingTick ∧ RequestReady s ∧ rest.length ≤ 16 ∧
      maskedShares (maskedHolders mask) rest = some xs ∧
      (∀ h : Holder, p.holder h = match xs.lookup h with
        | some (r, x) => { s.pool.holder h with reservation := r, share := x }
        | none => s.pool.holder h) ∧
      192 < p.reserved :=
    ⟨0x13#8, [255#8, 99#8, 64#8, 0#8, 64#8, 3#8], [(.ch 0, 64, 16), (.ch 1, 64, 0), (.mh 0, 64, 3)],
    pooled [(.ch 0, 64, 16), (.ch 1, 64, 0), (.mh 0, 64, 3)] ready, ready, rfl, rfl, by decide +kernel⟩

theorem witness_PoolConfigChecksThenApplies_in_use :
    ∃ (mask : Byte) (rest : List Byte) (xs : List (Holder × Nat × Nat)) (p : Pool) (s : State),
      p.owners = s.pool.owners ∧ p.agingTick = s.pool.agingTick ∧ RequestReady s ∧ rest.length ≤ 16 ∧
      maskedShares (maskedHolders mask) rest = some xs ∧
      (∀ h : Holder, p.holder h = match xs.lookup h with
        | some (r, x) => { s.pool.holder h with reservation := r, share := x }
        | none => s.pool.holder h) ∧
      p.reserved ≤ 192 ∧ (∃ h : Holder, (p.holder h).reservation ≠ (s.pool.holder h).reservation) ∧
      p.common < p.borrowed :=
    ⟨0x01#8, [33#8, 2#8], [(.ch 0, 33, 2)], pooled [(.ch 0, 33, 2)] lentState, lentState, rfl, rfl,
    by decide +kernel⟩

theorem witness_PoolConfigChecksThenApplies_applied :
    ∃ (mask tick : Byte) (rest : List Byte) (xs : List (Holder × Nat × Nat)) (p : Pool) (s : State) (k remaining : Nat),
      p.owners = s.pool.owners ∧ p.agingTick = s.pool.agingTick ∧
      k = (if tick = 0#8 then s.pool.agingTick else min 60 tick.toNat) ∧
      remaining = (if tick = 0#8 then s.cache.agingRemaining else min 60 tick.toNat * 1000) ∧ RequestReady s ∧
      rest.length ≤ 16 ∧ maskedShares (maskedHolders mask) rest = some xs ∧
      (∀ h : Holder, p.holder h = match xs.lookup h with
        | some (r, x) => { s.pool.holder h with reservation := r, share := x }
        | none => s.pool.holder h) ∧
      p.reserved ≤ 192 ∧
      ((∀ h : Holder, (p.holder h).reservation = (s.pool.holder h).reservation) ∨ p.borrowed ≤ p.common) ∧
      NothingHeld s :=
    ⟨0x01#8, 70#8, [33#8, 2#8], [(.ch 0, 33, 2)], pooled [(.ch 0, 33, 2)] ready, ready, _, _, rfl, rfl, rfl, rfl,
    by decide +kernel⟩

theorem witness_PoolConfigChecksThenApplies_nothing_masked :
    ∃ (mask tick : Byte) (rest : List Byte) (xs : List (Holder × Nat × Nat)) (p : Pool) (s : State) (k remaining : Nat),
      p.owners = s.pool.owners ∧ p.agingTick = s.pool.agingTick ∧
      k = (if tick = 0#8 then s.pool.agingTick else min 60 tick.toNat) ∧
      remaining = (if tick = 0#8 then s.cache.agingRemaining else min 60 tick.toNat * 1000) ∧ RequestReady s ∧
      rest.length ≤ 16 ∧ maskedShares (maskedHolders mask) rest = some xs ∧
      (∀ h : Holder, p.holder h = match xs.lookup h with
        | some (r, x) => { s.pool.holder h with reservation := r, share := x }
        | none => s.pool.holder h) ∧
      p.reserved ≤ 192 ∧
      ((∀ h : Holder, (p.holder h).reservation = (s.pool.holder h).reservation) ∨ p.borrowed ≤ p.common) ∧
      NothingHeld s :=
    ⟨0x00#8, 0#8, [], [], ready.pool, ready, _, _, rfl, rfl, rfl, rfl, by decide +kernel⟩

theorem witness_ReadingsChangeNothing_held_range :
    ∃ (n : Node) (b o0 o1 o2 o3 m0 m1 sk : Byte) (c : Console) (x start : Word) (number : Nat) (range : List Mark) (s : State),
      c = s.consoles.get n ∧ x = BitVec.ofNat 32 (u32 o0 o1 o2 o3) ∧
      start = (if (x - c.oldest).toNat ≤ (c.live - c.oldest).toNat then x else if (x - c.oldest).toNat < 2 ^ 31 then c.live else c.oldest) ∧
      number = min (max 1 (min 512 (u16 m0 m1))) (c.live - start).toNat ∧
      range = (c.marks.filter fun m => decide ((m.offset - start).toNat < number) || (start + BitVec.ofNat 32 number == c.live && m.offset == c.live)).drop (min 31 sk.toNat) ∧
      RequestReady s ∧ b.toNat = n.val :=
    ⟨1, 1#8, 0#8, 0#8, 1#8, 0#8, 0#8, 3#8, 1#8, _, _, _, _, _,
    console (fun c => { c with live := 700, marks := [⟨511, .clear⟩, ⟨512, .clear⟩, ⟨700, .clear⟩], cursor := none, flood := false }) ready,
    rfl, rfl, rfl, rfl, rfl, by decide +kernel⟩

theorem witness_ReadingsChangeNothing_to_live :
    ∃ (n : Node) (b o0 o1 o2 o3 m0 m1 sk : Byte) (c : Console) (x start : Word) (number : Nat) (range : List Mark) (s : State),
      c = s.consoles.get n ∧ x = BitVec.ofNat 32 (u32 o0 o1 o2 o3) ∧
      start = (if (x - c.oldest).toNat ≤ (c.live - c.oldest).toNat then x else if (x - c.oldest).toNat < 2 ^ 31 then c.live else c.oldest) ∧
      number = min (max 1 (min 512 (u16 m0 m1))) (c.live - start).toNat ∧
      range = (c.marks.filter fun m => decide ((m.offset - start).toNat < number) || (start + BitVec.ofNat 32 number == c.live && m.offset == c.live)).drop (min 31 sk.toNat) ∧
      RequestReady s ∧ b.toNat = n.val :=
    ⟨1, 1#8, 0#8, 0#8, 1#8, 0#8, 2#8, 0#8, 0#8, _, _, _, _, _,
    console (fun c => { c with live := 700, marks := [⟨511, .clear⟩, ⟨512, .clear⟩, ⟨700, .clear⟩], cursor := none, flood := false }) ready,
    rfl, rfl, rfl, rfl, rfl, by decide +kernel⟩

theorem witness_ReadingsChangeNothing_status :
    ∃ (x : Fin 4) (b : Byte) (s : State),
      RequestReady s ∧ b.toNat = x.val :=
    ⟨3, 3#8, served, by decide +kernel⟩

theorem witness_UnitAttachChecksThenFills_exclusive_of_two :
    ∃ (u : UnitId) (k : Mode) (m : Per4 Bool) (b kb mask c0 c1 c2 c3 t0 t1 w d : Byte) (x : MediaUnit) (s : State),
      (x = { state := .attached, capacity := max 1 (u32 c0 c1 c2 c3), mode := k, nodes := m, writer := none,
             timeout := if u16 t0 t1 = 0 then 50 else min 600 (u16 t0 t1),
             window := if w = 0#8 then 0 else max 8 (min 64 w.toNat),
             dirtyLimit := if d = 0#8 then 16 else min 64 d.toNat,
             consecutive := 0, storeFailures := 0, fetchFailures := 0, fetchTimeouts := 0, detachTag := none, stored := 0 }) ∧
      RequestReady s ∧ b.toNat = u.val ∧ kb.toNat = modeCode k ∧ mask.toNat < 16 ∧
      (∀ n : Node, m.get n = mask.getLsbD n.val) ∧
      (m = Per4.all false ∨ (k = .exclusive ∧ ∃ n n' : Node, n ≠ n' ∧ m.get n = true ∧ m.get n' = true)) :=
    ⟨2, .exclusive, ⟨true, true, false, false⟩, 2#8, 1#8, 3#8, 0#8, 0#8, 1#8, 0#8, 0#8, 0#8, 3#8, 200#8, _, ready,
    rfl, by decide +kernel⟩

theorem witness_UnitAttachChecksThenFills_no_node :
    ∃ (u : UnitId) (k : Mode) (m : Per4 Bool) (b kb mask c0 c1 c2 c3 t0 t1 w d : Byte) (x : MediaUnit) (s : State),
      (x = { state := .attached, capacity := max 1 (u32 c0 c1 c2 c3), mode := k, nodes := m, writer := none,
             timeout := if u16 t0 t1 = 0 then 50 else min 600 (u16 t0 t1),
             window := if w = 0#8 then 0 else max 8 (min 64 w.toNat),
             dirtyLimit := if d = 0#8 then 16 else min 64 d.toNat,
             consecutive := 0, storeFailures := 0, fetchFailures := 0, fetchTimeouts := 0, detachTag := none, stored := 0 }) ∧
      RequestReady s ∧ b.toNat = u.val ∧ kb.toNat = modeCode k ∧ mask.toNat < 16 ∧
      (∀ n : Node, m.get n = mask.getLsbD n.val) ∧
      (m = Per4.all false ∨ (k = .exclusive ∧ ∃ n n' : Node, n ≠ n' ∧ m.get n = true ∧ m.get n' = true)) :=
    ⟨2, .firstWriter, ⟨false, false, false, false⟩, 2#8, 2#8, 0#8, 0#8, 0#8, 1#8, 0#8, 0#8, 0#8, 3#8, 200#8, _,
    ready, rfl, by decide +kernel⟩

theorem witness_UnitAttachChecksThenFills_busy :
    ∃ (u : UnitId) (k : Mode) (m : Per4 Bool) (b kb mask c0 c1 c2 c3 t0 t1 w d : Byte) (x : MediaUnit) (s : State),
      (x = { state := .attached, capacity := max 1 (u32 c0 c1 c2 c3), mode := k, nodes := m, writer := none,
             timeout := if u16 t0 t1 = 0 then 50 else min 600 (u16 t0 t1),
             window := if w = 0#8 then 0 else max 8 (min 64 w.toNat),
             dirtyLimit := if d = 0#8 then 16 else min 64 d.toNat,
             consecutive := 0, storeFailures := 0, fetchFailures := 0, fetchTimeouts := 0, detachTag := none, stored := 0 }) ∧
      RequestReady s ∧ b.toNat = u.val ∧ kb.toNat = modeCode k ∧ mask.toNat < 16 ∧
      (∀ n : Node, m.get n = mask.getLsbD n.val) ∧ m ≠ Per4.all false ∧
      (k = .exclusive → ∀ n n' : Node, m.get n = true → m.get n' = true → n = n') ∧
      (s.units.get u).state ≠ .detached :=
    ⟨2, .firstWriter, ⟨true, true, false, false⟩, 2#8, 2#8, 3#8, 0#8, 0#8, 1#8, 0#8, 0#8, 0#8, 3#8, 200#8, _,
    served, rfl, by decide +kernel⟩

theorem witness_UnitAttachChecksThenFills_node_taken :
    ∃ (u : UnitId) (k : Mode) (m : Per4 Bool) (b kb mask c0 c1 c2 c3 t0 t1 w d : Byte) (x : MediaUnit) (s : State) (n v : Fin 4),
      (x = { state := .attached, capacity := max 1 (u32 c0 c1 c2 c3), mode := k, nodes := m, writer := none,
             timeout := if u16 t0 t1 = 0 then 50 else min 600 (u16 t0 t1),
             window := if w = 0#8 then 0 else max 8 (min 64 w.toNat),
             dirtyLimit := if d = 0#8 then 16 else min 64 d.toNat,
             consecutive := 0, storeFailures := 0, fetchFailures := 0, fetchTimeouts := 0, detachTag := none, stored := 0 }) ∧
      UnitLaw s ∧ RequestReady s ∧ b.toNat = u.val ∧ kb.toNat = modeCode k ∧ mask.toNat < 16 ∧
      (∀ n : Node, m.get n = mask.getLsbD n.val) ∧ m ≠ Per4.all false ∧
      (k = .exclusive → ∀ n n' : Node, m.get n = true → m.get n' = true → n = n') ∧
      (s.units.get u).state = .detached ∧ m.get n = true ∧ v ≠ u ∧ (s.units.get v).nodes.get n = true ∧
      (∀ n' v' : Fin 4, n' < n → m.get n' = true → v' ≠ u → (s.units.get v').nodes.get n' = false) :=
    ⟨0, .firstWriter, ⟨false, true, true, false⟩, 0#8, 2#8, 6#8, 0#8, 0#8, 1#8, 0#8, 0#8, 0#8, 3#8, 200#8, _,
    served, 1, 1, rfl, (by decide +kernel), by decide +kernel⟩

theorem witness_UnitAttachChecksThenFills_attached :
    ∃ (u : UnitId) (k : Mode) (m : Per4 Bool) (b kb mask c0 c1 c2 c3 t0 t1 w d : Byte) (x : MediaUnit) (s : State),
      (x = { state := .attached, capacity := max 1 (u32 c0 c1 c2 c3), mode := k, nodes := m, writer := none,
             timeout := if u16 t0 t1 = 0 then 50 else min 600 (u16 t0 t1),
             window := if w = 0#8 then 0 else max 8 (min 64 w.toNat),
             dirtyLimit := if d = 0#8 then 16 else min 64 d.toNat,
             consecutive := 0, storeFailures := 0, fetchFailures := 0, fetchTimeouts := 0, detachTag := none, stored := 0 }) ∧
      RequestReady s ∧ b.toNat = u.val ∧ kb.toNat = modeCode k ∧ mask.toNat < 16 ∧
      (∀ n : Node, m.get n = mask.getLsbD n.val) ∧ m ≠ Per4.all false ∧
      (k = .exclusive → ∀ n n' : Node, m.get n = true → m.get n' = true → n = n') ∧
      (s.units.get u).state = .detached ∧
      (∀ n v : Fin 4, m.get n = true → v ≠ u → (s.units.get v).nodes.get n = false) ∧ TimerLaw s :=
    ⟨0, .firstWriter, ⟨false, false, false, true⟩, 0#8, 2#8, 8#8, 0#8, 0#8, 1#8, 0#8, 0#8, 0#8, 3#8, 200#8, _,
    served, rfl, by decide +kernel⟩

theorem witness_DetachFreesEverythingOfUnit_already :
    ∃ (u : UnitId) (b : Byte) (s : State),
      RequestReady s ∧ b.toNat = u.val ∧ (s.units.get u).state = .detached :=
    ⟨3, 3#8, served, by decide +kernel⟩

theorem witness_DetachFreesEverythingOfUnit_draining :
    ∃ (u : UnitId) (b options : Byte) (s : State),
      RequestReady s ∧ b.toNat = u.val ∧ options.getLsbD 0 = false ∧ (s.units.get u).state = .draining :=
    ⟨1, 1#8, 0#8, unitIs .draining served, by decide +kernel⟩

theorem witness_DetachFreesEverythingOfUnit_faulted :
    ∃ (u : UnitId) (b options : Byte) (s : State),
      RequestReady s ∧ b.toNat = u.val ∧ options.getLsbD 0 = false ∧ (s.units.get u).state = .storeFault :=
    ⟨1, 1#8, 2#8, unitIs .storeFault served, by decide +kernel⟩

theorem witness_DetachFreesEverythingOfUnit_clean_unit :
    ∃ (u : UnitId) (b options : Byte) (x : MediaUnit) (s : State),
      PoolLaw s ∧ x = s.units.get u ∧ RequestReady s ∧ b.toNat = u.val ∧ s.cache.entryWait = [] ∧
      (∀ n : Node, (s.ports.get n).wait ≠ .cache) ∧ (∀ v : UnitId, v ≠ u → s.cache.dirty.get v = []) ∧
      ((options.getLsbD 0 = false ∧ x.state = .attached ∧ dirtyCount s u = 0) ∨ (options.getLsbD 0 = true ∧ x.state ≠ .detached)) :=
    ⟨1, 1#8, 0#8, _, readingState, poolLaw_served_reading, rfl, by decide +kernel⟩

theorem witness_DetachFreesEverythingOfUnit_forced :
    ∃ (u : UnitId) (b options : Byte) (x : MediaUnit) (s : State),
      PoolLaw s ∧ x = s.units.get u ∧ RequestReady s ∧ b.toNat = u.val ∧ s.cache.entryWait = [] ∧
      (∀ n : Node, (s.ports.get n).wait ≠ .cache) ∧ (∀ v : UnitId, v ≠ u → s.cache.dirty.get v = []) ∧
      ((options.getLsbD 0 = false ∧ x.state = .attached ∧ dirtyCount s u = 0) ∨ (options.getLsbD 0 = true ∧ x.state ≠ .detached)) :=
    ⟨1, 1#8, 1#8, _, writingState, poolLaw_writing, rfl, by decide +kernel⟩

theorem witness_DetachOfDirtyUnitStartsDrain :
    ∃ (u : UnitId) (b options : Byte) (x : MediaUnit) (s : State),
      PoolLaw s ∧ x = s.units.get u ∧ RequestReady s ∧ CacheLaw s ∧ b.toNat = u.val ∧ options.getLsbD 0 = false ∧
      x.state = .attached ∧ 0 < dirtyCount s u ∧ s.cache.entryWait = [] ∧ NothingHeld s :=
    ⟨1, 1#8, 0#8, _, writingState, poolLaw_writing, rfl, by decide +kernel⟩

theorem witness_DetachFreesEverythingOfUnit_boot_select :
    ∃ (u : UnitId) (b options : Byte) (x : MediaUnit) (s : State),
      PoolLaw s ∧ x = s.units.get u ∧ RequestReady s ∧ b.toNat = u.val ∧ s.cache.entryWait = [] ∧
      (∀ n : Node, (s.ports.get n).wait ≠ .cache) ∧ (∀ v : UnitId, v ≠ u → s.cache.dirty.get v = []) ∧
      ((options.getLsbD 0 = false ∧ x.state = .attached ∧ dirtyCount s u = 0) ∨ (options.getLsbD 0 = true ∧ x.state ≠ .detached)) :=
    ⟨1, 1#8, 1#8, _, selecting writingState 1,
    poolLaw_of (by decide +kernel) (by decide +kernel) (by decide +kernel), rfl, by decide +kernel⟩

theorem witness_DetachOfDirtyUnitStartsDrain_with_boot_select :
    ∃ (u : UnitId) (b options : Byte) (x : MediaUnit) (s : State),
      PoolLaw s ∧ x = s.units.get u ∧ RequestReady s ∧ CacheLaw s ∧ b.toNat = u.val ∧ options.getLsbD 0 = false ∧
      x.state = .attached ∧ 0 < dirtyCount s u ∧ s.cache.entryWait = [] ∧ NothingHeld s :=
    ⟨1, 1#8, 0#8, _, selecting writingState 1,
    poolLaw_of (by decide +kernel) (by decide +kernel) (by decide +kernel), rfl, by decide +kernel⟩

theorem witness_DetachOfDirtyUnitStartsDrain_with_filling_pages :
    ∃ (u : UnitId) (b options : Byte) (x : MediaUnit) (s : State),
      PoolLaw s ∧ x = s.units.get u ∧ RequestReady s ∧ CacheLaw s ∧ b.toNat = u.val ∧ options.getLsbD 0 = false ∧
      x.state = .attached ∧ 0 < dirtyCount s u ∧ s.cache.entryWait = [] ∧ NothingHeld s :=
    ⟨1, 1#8, 0#8, _, fillingState, poolLaw_filling, rfl, by decide +kernel⟩

theorem witness_PortCommandChecksInOrder_busy :
    ∃ (n : Node) (count : Byte) (s : State) (a : ActiveCommand),
      s.phase = .running ∧ TimerLaw s ∧ 1 ≤ count.toNat ∧ count.toNat ≤ 64 ∧ (port s n).active = some a :=
    ⟨1, 1#8, writingState, command .write 9 2 1, by decide +kernel⟩

theorem witness_PortCommandChecksInOrder_attention :
    ∃ (n : Node) (count : Byte) (s : State),
      s.phase = .running ∧ TimerLaw s ∧ 1 ≤ count.toNat ∧ count.toNat ≤ 64 ∧ (port s n).active = none ∧
      (port s n).attention = true :=
    ⟨1, 64#8, portWith 1 (fun p => { p with attention := true }) served, by decide +kernel⟩

theorem witness_PortCommandChecksInOrder_attention_without_writer :
    ∃ (n : Node) (count : Byte) (s : State),
      s.phase = .running ∧ TimerLaw s ∧ 1 ≤ count.toNat ∧ count.toNat ≤ 64 ∧ (port s n).active = none ∧
      (port s n).attention = true ∧
      (∀ (u : UnitId) (w : Node), (s.units.get u).nodes.get n = true → (s.units.get u).writer = some w → w = n) :=
    ⟨1, 64#8, portWith 1 (fun p => { p with attention := true }) served, by decide +kernel⟩

theorem witness_PortCommandChecksInOrder_absent :
    ∃ (n : Node) (count : Byte) (s : State),
      s.phase = .running ∧ TimerLaw s ∧ 1 ≤ count.toNat ∧ count.toNat ≤ 64 ∧ (port s n).active = none ∧
      (∀ u : UnitId, (s.units.get u).nodes.get n = false) ∧ (port s n).attention = false :=
    ⟨3, 64#8, served, by decide +kernel⟩

theorem witness_PortCommandChecksInOrder_absent_flush :
    ∃ (n : Node) (count : Byte) (s : State),
      s.phase = .running ∧ TimerLaw s ∧ 1 ≤ count.toNat ∧ count.toNat ≤ 64 ∧ (port s n).active = none ∧
      (∀ u : UnitId, (s.units.get u).nodes.get n = false) :=
    ⟨3, 64#8, portWith 3 (fun p => { p with attention := true }) served, by decide +kernel⟩

theorem witness_PortCommandChecksInOrder_together :
    ∃ (n : Node) (count : Byte) (s : State) (u : UnitId) (w : Node),
      s.phase = .running ∧ TimerLaw s ∧ 1 ≤ count.toNat ∧ count.toNat ≤ 64 ∧ (port s n).active = none ∧ UnitLaw s ∧
      (s.units.get u).nodes.get n = true ∧ (s.units.get u).writer = some w ∧ w ≠ n :=
    ⟨0, 3#8, after (.write 1 100 3 ⟨9, false⟩) served, 1, 1, by decide +kernel⟩

theorem witness_PortCommandChecksInOrder_other_writer :
    ∃ (n : Node) (count : Byte) (s : State) (u : UnitId),
      s.phase = .running ∧ TimerLaw s ∧ 1 ≤ count.toNat ∧ count.toNat ≤ 64 ∧ (port s n).active = none ∧ UnitLaw s ∧
      (s.units.get u).nodes.get n = true ∧ (port s n).attention = false ∧
      ((s.units.get u).mode = .readOnly ∨ ((s.units.get u).mode = .firstWriter ∧ ∃ w : Node, w ≠ n ∧ (s.units.get u).writer = some w)) :=
    ⟨1, 64#8, { served with units := served.units.modify 1 (fun x => { x with writer := some 0 }) }, 1,
    by decide +kernel⟩

theorem witness_PortCommandChecksInOrder_read_only :
    ∃ (n : Node) (count : Byte) (s : State) (u : UnitId),
      s.phase = .running ∧ TimerLaw s ∧ 1 ≤ count.toNat ∧ count.toNat ≤ 64 ∧ (port s n).active = none ∧ UnitLaw s ∧
      (s.units.get u).nodes.get n = true ∧ (port s n).attention = false ∧
      ((s.units.get u).mode = .readOnly ∨ ((s.units.get u).mode = .firstWriter ∧ ∃ w : Node, w ≠ n ∧ (s.units.get u).writer = some w)) :=
    ⟨2, 64#8, { served with units := served.units.modify 2 (fun x => { x with mode := .readOnly }) }, 2,
    by decide +kernel⟩

theorem witness_PortCommandChecksInOrder_store_fault :
    ∃ (n : Node) (count : Byte) (s : State) (u : UnitId),
      s.phase = .running ∧ TimerLaw s ∧ 1 ≤ count.toNat ∧ count.toNat ≤ 64 ∧ (port s n).active = none ∧ UnitLaw s ∧
      (s.units.get u).nodes.get n = true ∧ (port s n).attention = false ∧ (s.units.get u).state = .storeFault ∧
      (s.units.get u).mode ≠ .readOnly ∧ (∀ w : Node, (s.units.get u).writer = some w → w = n) :=
    ⟨0, 64#8, unitIs .storeFault served, 1, by decide +kernel⟩

theorem witness_PortCommandChecksInOrder_flush_fault :
    ∃ (n : Node) (count : Byte) (s : State) (u : UnitId),
      s.phase = .running ∧ TimerLaw s ∧ 1 ≤ count.toNat ∧ count.toNat ≤ 64 ∧ (port s n).active = none ∧ UnitLaw s ∧
      (s.units.get u).nodes.get n = true ∧ (s.units.get u).state = .storeFault :=
    ⟨1, 64#8, unitIs .storeFault served, 1, by decide +kernel⟩

theorem witness_ReadOpensAndStages_end_of_medium :
    ∃ (n : Node) (u : UnitId) (lba : Word) (count : Byte) (a : ActiveCommand) (s : State),
      (a = { kind := .read, first := lba.toNat, count := count.toNat,
             effective := min count.toNat ((s.units.get u).capacity - lba.toNat), done := 0 }) ∧
      s.phase = .running ∧ TimerLaw s ∧ UnitLaw s ∧ 1 ≤ count.toNat ∧ count.toNat ≤ 64 ∧ (port s n).active = none ∧
      (port s n).attention = false ∧ (s.units.get u).nodes.get n = true ∧ (s.units.get u).capacity ≤ lba.toNat :=
    ⟨0, 1, 1000#32, 4#8, _, served, rfl, by decide +kernel⟩

theorem witness_ReadOpensAndStages_filling :
    ∃ (n : Node) (u : UnitId) (lba : Word) (count : Byte) (a : ActiveCommand) (r : DirRecord) (s : State),
      (a = { kind := .read, first := lba.toNat, count := count.toNat,
             effective := min count.toNat ((s.units.get u).capacity - lba.toNat), done := 0 }) ∧
      s.phase = .running ∧ TimerLaw s ∧ UnitLaw s ∧ 1 ≤ count.toNat ∧ count.toNat ≤ 64 ∧ (port s n).active = none ∧
      (port s n).attention = false ∧ (s.units.get u).nodes.get n = true ∧ lba.toNat < (s.units.get u).capacity ∧
      findBlock s u lba.toNat = some r ∧ r.state = .filling :=
    ⟨1, 1, 6#32, 4#8, _, page 11 6 .filling, readingState, rfl, by decide +kernel⟩

theorem witness_ReadOpensAndStages_clean :
    ∃ (n : Node) (u : UnitId) (lba : Word) (count : Byte) (a : ActiveCommand) (r : DirRecord) (s : State),
      UnitLaw s ∧
      (a = { kind := .read, first := lba.toNat, count := count.toNat,
             effective := min count.toNat ((s.units.get u).capacity - lba.toNat), done := 0 }) ∧
      s.phase = .running ∧ TimerLaw s ∧ 1 ≤ count.toNat ∧ count.toNat ≤ 64 ∧ (port s n).active = none ∧
      (port s n).attention = false ∧ (s.units.get u).nodes.get n = true ∧ lba.toNat < (s.units.get u).capacity ∧
      a.effective = 1 ∧ findBlock s u lba.toNat = some r ∧ r.state = .clean :=
    ⟨1, 1, 3#32, 1#8, _, page 8 3 .clean, stagedState, (by decide +kernel), rfl, by decide +kernel⟩

theorem witness_ReadOpensAndStages_demand_fetch :
    ∃ (n : Node) (u : UnitId) (lba : Word) (count : Byte) (a : ActiveCommand) (s : State) (i : Fin 16) (g : PageId),
      UnitLaw s ∧
      (a = { kind := .read, first := lba.toNat, count := count.toNat,
             effective := min count.toNat ((s.units.get u).capacity - lba.toNat), done := 0 }) ∧
      s.phase = .running ∧ TimerLaw s ∧ 1 ≤ count.toNat ∧ count.toNat ≤ 64 ∧ (port s n).active = none ∧
      (port s n).attention = false ∧ (s.units.get u).nodes.get n = true ∧ lba.toNat < (s.units.get u).capacity ∧
      findBlock s u lba.toNat = none ∧ (a.effective = 1 ∨ (findBlock s u (lba.toNat + 1)).isSome) ∧
      (s.cache.fetches[i]).busy = none ∧ (∀ j : Fin 16, j < i → (s.cache.fetches[j]).busy ≠ none) ∧
      s.pool.owners[g] = none ∧ (∀ h : PageId, h < g → s.pool.owners[h] ≠ none) ∧
      s.pool.held (.mh u) < (s.pool.caches.get u).reservation :=
    ⟨1, 1, 999#32, 9#8, _, served, 0, 8, (by decide +kernel), rfl, by decide +kernel⟩

theorem witness_ReadOpensAndStages_demand_fetch_of_one :
    ∃ (n : Node) (u : UnitId) (lba : Word) (count : Byte) (a : ActiveCommand) (s : State) (i : Fin 16) (g : PageId),
      UnitLaw s ∧
      (a = { kind := .read, first := lba.toNat, count := count.toNat,
             effective := min count.toNat ((s.units.get u).capacity - lba.toNat), done := 0 }) ∧
      s.phase = .running ∧ TimerLaw s ∧ 1 ≤ count.toNat ∧ count.toNat ≤ 64 ∧ (port s n).active = none ∧
      (port s n).attention = false ∧ (s.units.get u).nodes.get n = true ∧ lba.toNat < (s.units.get u).capacity ∧
      findBlock s u lba.toNat = none ∧ (a.effective = 1 ∨ (findBlock s u (lba.toNat + 1)).isSome) ∧
      (s.cache.fetches[i]).busy = none ∧ (∀ j : Fin 16, j < i → (s.cache.fetches[j]).busy ≠ none) ∧
      s.pool.owners[g] = none ∧ (∀ h : PageId, h < g → s.pool.owners[h] ≠ none) ∧
      s.pool.held (.mh u) < (s.pool.caches.get u).reservation :=
    ⟨1, 1, 4#32, 3#8, _, caching [page 9 5 .clean] served, 0, 8, (by decide +kernel), rfl, by decide +kernel⟩

theorem witness_ReadOpensAndStages_no_page :
    ∃ (n : Node) (u : UnitId) (lba : Word) (count : Byte) (a : ActiveCommand) (s : State),
      UnitLaw s ∧
      (a = { kind := .read, first := lba.toNat, count := count.toNat,
             effective := min count.toNat ((s.units.get u).capacity - lba.toNat), done := 0 }) ∧
      s.phase = .running ∧ TimerLaw s ∧ 1 ≤ count.toNat ∧ count.toNat ≤ 64 ∧ (port s n).active = none ∧
      (port s n).attention = false ∧ (s.units.get u).nodes.get n = true ∧ lba.toNat < (s.units.get u).capacity ∧
      findBlock s u lba.toNat = none ∧ (∃ i : Fin 16, (s.cache.fetches[i]).busy = none) ∧
      (allocate (.mh u) .demand s).1 = none :=
    ⟨1, 1, 4#32, 3#8, _, dirtyUnit, (by decide +kernel), rfl, by decide +kernel⟩

theorem witness_ReadOpensAndStages_no_entry :
    ∃ (n : Node) (u : UnitId) (lba : Word) (count : Byte) (a : ActiveCommand) (s : State),
      (a = { kind := .read, first := lba.toNat, count := count.toNat,
             effective := min count.toNat ((s.units.get u).capacity - lba.toNat), done := 0 }) ∧
      s.phase = .running ∧ TimerLaw s ∧ UnitLaw s ∧ 1 ≤ count.toNat ∧ count.toNat ≤ 64 ∧ (port s n).active = none ∧
      (port s n).attention = false ∧ (s.units.get u).nodes.get n = true ∧ lba.toNat < (s.units.get u).capacity ∧
      findBlock s u lba.toNat = none ∧ (∀ i : Fin 16, (s.cache.fetches[i]).busy ≠ none) :=
    ⟨1, 1, 4#32, 3#8, _, allFetching, rfl, by decide +kernel⟩

theorem witness_WriteTakesLockThenOpens_beyond :
    ∃ (n : Node) (u : UnitId) (lba : Word) (count : Byte) (a : ActiveCommand) (locked s : State),
      UnitLaw s ∧
      (a = { kind := .write, first := lba.toNat, count := count.toNat,
             effective := min count.toNat ((s.units.get u).capacity - lba.toNat), done := 0 }) ∧
      (locked = (if (s.units.get u).mode = .firstWriter ∧ (s.units.get u).writer = none then
         { s with
           units := s.units.modify u fun x => { x with writer := some n }
           ports := Per4.build fun m => if m ≠ n ∧ (s.units.get u).nodes.get m = true
             then { s.ports.get m with attention := true, sequential := none } else s.ports.get m }
         else s)) ∧
      s.phase = .running ∧ TimerLaw s ∧ 1 ≤ count.toNat ∧ count.toNat ≤ 64 ∧ (port s n).active = none ∧
      (port s n).attention = false ∧ (s.units.get u).nodes.get n = true ∧ (s.units.get u).state = .attached ∧
      ((s.units.get u).mode = .exclusive ∨ ((s.units.get u).mode = .firstWriter ∧ ∀ w : Node, (s.units.get u).writer = some w → w = n)) ∧
      (s.units.get u).capacity ≤ lba.toNat :=
    ⟨0, 1, 2000#32, 4#8, _, _, served, (by decide +kernel), rfl, rfl, by decide +kernel⟩

theorem witness_WriteTakesLockThenOpens_last_blocks :
    ∃ (n : Node) (u : UnitId) (lba : Word) (count : Byte) (a : ActiveCommand) (locked s : State),
      UnitLaw s ∧
      (a = { kind := .write, first := lba.toNat, count := count.toNat,
             effective := min count.toNat ((s.units.get u).capacity - lba.toNat), done := 0 }) ∧
      (locked = (if (s.units.get u).mode = .firstWriter ∧ (s.units.get u).writer = none then
         { s with
           units := s.units.modify u fun x => { x with writer := some n }
           ports := Per4.build fun m => if m ≠ n ∧ (s.units.get u).nodes.get m = true
             then { s.ports.get m with attention := true, sequential := none } else s.ports.get m }
         else s)) ∧
      s.phase = .running ∧ TimerLaw s ∧ 1 ≤ count.toNat ∧ count.toNat ≤ 64 ∧ (port s n).active = none ∧
      (port s n).attention = false ∧ (s.units.get u).nodes.get n = true ∧ (s.units.get u).state = .attached ∧
      ((s.units.get u).mode = .exclusive ∨ ((s.units.get u).mode = .firstWriter ∧ ∀ w : Node, (s.units.get u).writer = some w → w = n)) ∧
      lba.toNat < (s.units.get u).capacity :=
    ⟨0, 1, 998#32, 4#8, _, _, served, (by decide +kernel), rfl, rfl, by decide +kernel⟩

theorem witness_WriteTakesLockThenOpens_exclusive :
    ∃ (n : Node) (u : UnitId) (lba : Word) (count : Byte) (a : ActiveCommand) (locked s : State),
      UnitLaw s ∧
      (a = { kind := .write, first := lba.toNat, count := count.toNat,
             effective := min count.toNat ((s.units.get u).capacity - lba.toNat), done := 0 }) ∧
      (locked = (if (s.units.get u).mode = .firstWriter ∧ (s.units.get u).writer = none then
         { s with
           units := s.units.modify u fun x => { x with writer := some n }
           ports := Per4.build fun m => if m ≠ n ∧ (s.units.get u).nodes.get m = true
             then { s.ports.get m with attention := true, sequential := none } else s.ports.get m }
         else s)) ∧
      s.phase = .running ∧ TimerLaw s ∧ 1 ≤ count.toNat ∧ count.toNat ≤ 64 ∧ (port s n).active = none ∧
      (port s n).attention = false ∧ (s.units.get u).nodes.get n = true ∧ (s.units.get u).state = .attached ∧
      ((s.units.get u).mode = .exclusive ∨ ((s.units.get u).mode = .firstWriter ∧ ∀ w : Node, (s.units.get u).writer = some w → w = n)) ∧
      lba.toNat < (s.units.get u).capacity :=
    ⟨2, 2, 999#32, 64#8, _, _, served, (by decide +kernel), rfl, rfl, by decide +kernel⟩

theorem witness_TakeDeliversStagedBlock_staged :
    ∃ (n : Node) (p : Port) (s : State) (a : ActiveCommand) (x : Slot) (rest : List Slot),
      p = port s n ∧ s.phase = .running ∧ TimerLaw s ∧ p.active = some a ∧ a.kind = .read ∧ p.slots = x :: rest :=
    ⟨0, _, stagedState, command .read 3 1 0, { lba := 3, data := block 9 }, [], rfl, by decide +kernel⟩

theorem witness_TakeDeliversStagedBlock_not_ready :
    ∃ (n : Node) (p : Port) (s : State) (a : ActiveCommand),
      p = port s n ∧ s.phase = .running ∧ TimerLaw s ∧ p.active = some a ∧ a.kind = .read ∧ p.slots = [] :=
    ⟨0, _, readingState, command .read 3 4 0, rfl, by decide +kernel⟩

theorem witness_TakeDeliversStagedBlock_no_command :
    ∃ (n : Node) (p : Port) (s : State),
      p = port s n ∧ s.phase = .running ∧ TimerLaw s ∧
      (p.state = .idle ∨ p.state = .writeHeld ∨ p.state = .flushing) :=
    ⟨3, _, served, rfl, by decide +kernel⟩

theorem witness_TakeDeliversStagedBlock_writing :
    ∃ (n : Node) (p : Port) (s : State),
      p = port s n ∧ s.phase = .running ∧ TimerLaw s ∧ p.state = .writing :=
    ⟨1, _, writingState, rfl, by decide +kernel⟩

theorem witness_TakeDeliversStagedBlock_delivered :
    ∃ (n : Node) (p : Port) (s : State) (a : ActiveCommand) (x : Slot) (k : Taking),
      p = port s n ∧ s.phase = .running ∧ TimerLaw s ∧ p.active = some a ∧ a.kind = .read ∧ p.slots = [x] ∧
      p.taking = some k ∧ k.live = true ∧ a.done + 1 = a.effective ∧
      (a.done + 1 ≠ (a.effective + 1) / 2 ∨ ∀ u : UnitId, (s.units.get u).window = 0) :=
    ⟨0, _, portWith 0 (fun p => { p with taking := some { lba := 3, live := true } }) stagedState,
    command .read 3 1 0, { lba := 3, data := block 9 }, { lba := 3, live := true }, rfl, by decide +kernel⟩

theorem witness_TakeDeliversStagedBlock_other_slot :
    ∃ (n : Node) (p : Port) (s : State) (a : ActiveCommand) (x y : Slot) (k : Taking),
      p = port s n ∧ s.phase = .running ∧ TimerLaw s ∧ p.active = some a ∧ a.kind = .read ∧ p.slots = [x, y] ∧
      p.taking = some k ∧ k.live = true ∧ a.done + 2 = a.effective ∧
      (a.done + 1 ≠ (a.effective + 1) / 2 ∨ ∀ u : UnitId, (s.units.get u).window = 0) :=
    ⟨0, _, reading 2 0 [{ lba := 3, data := block 9 }, { lba := 4, data := block 8 }] .none served,
    command .read 3 2 0, { lba := 3, data := block 9 }, { lba := 4, data := block 8 }, { lba := 3, live := true },
    rfl, by decide +kernel⟩

theorem witness_TakeDeliversStagedBlock_next_waits :
    ∃ (n : Node) (p : Port) (s : State) (a : ActiveCommand) (x : Slot) (k : Taking),
      p = port s n ∧ s.phase = .running ∧ TimerLaw s ∧ p.active = some a ∧ a.kind = .read ∧ p.slots = [x] ∧
      p.wait = .page ∧ p.taking = some k ∧ k.live = true ∧ a.done + 1 < a.effective ∧
      (a.done + 1 ≠ (a.effective + 1) / 2 ∨ ∀ u : UnitId, (s.units.get u).window = 0) :=
    ⟨0, _, reading 4 0 [{ lba := 3, data := block 9 }] .page served, command .read 3 4 0,
    { lba := 3, data := block 9 }, { lba := 3, live := true }, rfl, by decide +kernel⟩

theorem witness_TakeDeliversStagedBlock_read_ahead :
    ∃ (n : Node) (p : Port) (s : State) (u : UnitId) (a : ActiveCommand) (x : Slot) (k : Taking) (i : Fin 16) (g : PageId),
      p = port s n ∧ UnitLaw s ∧ s.phase = .running ∧ TimerLaw s ∧ (s.units.get u).nodes.get n = true ∧
      p.active = some a ∧ a.kind = .read ∧ p.slots = [x] ∧ p.taking = some k ∧ k.live = true ∧ a.done = 0 ∧
      a.effective = 1 ∧ p.sequential = some a.first ∧ (s.units.get u).window ≠ 0 ∧
      (s.units.get u).capacity = a.first + 2 ∧ findBlock s u (a.first + 1) = none ∧
      5 ≤ (s.cache.fetches.toList.countP fun e => e.busy.isNone) ∧ (s.cache.fetches[i]).busy = none ∧
      (∀ j : Fin 16, j < i → (s.cache.fetches[j]).busy ≠ none) ∧ s.pool.owners[g] = none ∧
      (∀ h : PageId, h < g → s.pool.owners[h] ≠ none) ∧ s.pool.held (.mh u) < (s.pool.caches.get u).reservation :=
    ⟨0, _, aheadState, 1, command .read 3 1 0, { lba := 3, data := block 9 }, { lba := 3, live := true }, 0, 9, rfl,
    (by decide +kernel), by decide +kernel⟩

theorem witness_TakeDeliversStagedBlock_not_taking :
    ∃ (n : Node) (p : Port) (s : State),
      p = port s n ∧ s.phase = .running ∧ TimerLaw s ∧ p.taking = none :=
    ⟨0, _, stagedState, rfl, by decide +kernel⟩

theorem witness_GiveDecidedInOrder_no_command :
    ∃ (n : Node) (u : UnitId) (data : List Byte) (given s : State),
      given = { s with ports := s.ports.modify n fun p => { p with receiveBuffer := data } } ∧ s.phase = .running ∧
      TimerLaw s ∧ UnitLaw s ∧ data.length = 512 ∧ (s.units.get u).nodes.get n = true ∧
      ((port s n).active = none ∨ (port s n).state = .reading ∨ (port s n).state = .flushing) :=
    ⟨0, 1, block 1, _, served, rfl, by decide +kernel⟩

theorem witness_GiveDecidedInOrder_reading :
    ∃ (n : Node) (u : UnitId) (data : List Byte) (given s : State),
      given = { s with ports := s.ports.modify n fun p => { p with receiveBuffer := data } } ∧ s.phase = .running ∧
      TimerLaw s ∧ UnitLaw s ∧ data.length = 512 ∧ (s.units.get u).nodes.get n = true ∧
      ((port s n).active = none ∨ (port s n).state = .reading ∨ (port s n).state = .flushing) :=
    ⟨0, 1, block 1, _, readingState, rfl, by decide +kernel⟩

theorem witness_GiveDecidedInOrder_fault :
    ∃ (n : Node) (u : UnitId) (data : List Byte) (a : ActiveCommand) (given s : State),
      given = { s with ports := s.ports.modify n fun p => { p with receiveBuffer := data } } ∧ s.phase = .running ∧
      TimerLaw s ∧ UnitLaw s ∧ data.length = 512 ∧ (s.units.get u).nodes.get n = true ∧ (port s n).active = some a ∧
      a.kind = .write ∧ (s.units.get u).state = .storeFault :=
    ⟨1, 1, block 1, command .write 9 2 1, _, unitIs .storeFault writingState, rfl, by decide +kernel⟩

theorem witness_GiveDecidedInOrder_all_staged :
    ∃ (n : Node) (u : UnitId) (data : List Byte) (a : ActiveCommand) (given s : State),
      given = { s with ports := s.ports.modify n fun p => { p with receiveBuffer := data } } ∧ s.phase = .running ∧
      TimerLaw s ∧ UnitLaw s ∧ data.length = 512 ∧ (s.units.get u).nodes.get n = true ∧ (port s n).active = some a ∧
      a.kind = .write ∧ (s.units.get u).state ≠ .storeFault ∧ a.effective ≤ a.done + (port s n).slots.length :=
    ⟨1, 1, block 1, command .write 9 2 1, _,
    portWith 1 (fun p => { p with slots := [{ lba := 10, data := block 3 }], wait := .cache, idleTimer := none, active := some (command .write 9 2 1) }) writingState,
    rfl, by decide +kernel⟩

theorem witness_GiveDecidedInOrder_bad_crc :
    ∃ (n : Node) (u : UnitId) (data : List Byte) (crc : BitVec 16) (a : ActiveCommand) (given s : State),
      given = { s with ports := s.ports.modify n fun p => { p with receiveBuffer := data } } ∧ s.phase = .running ∧
      TimerLaw s ∧ UnitLaw s ∧ data.length = 512 ∧ (s.units.get u).nodes.get n = true ∧ (port s n).active = some a ∧
      a.kind = .write ∧ (s.units.get u).state ≠ .storeFault ∧ a.done + (port s n).slots.length < a.effective ∧
      crc ≠ crc16 data :=
    ⟨1, 1, block 1, 5#16, command .write 9 2 1, _, writingState, rfl, by decide +kernel⟩

theorem witness_GiveDecidedInOrder_overrun :
    ∃ (n : Node) (u : UnitId) (data : List Byte) (crc : BitVec 16) (a : ActiveCommand) (given s : State),
      given = { s with ports := s.ports.modify n fun p => { p with receiveBuffer := data } } ∧ s.phase = .running ∧
      TimerLaw s ∧ UnitLaw s ∧ data.length = 512 ∧ (s.units.get u).nodes.get n = true ∧ (port s n).active = some a ∧
      a.kind = .write ∧ (s.units.get u).state ≠ .storeFault ∧ a.done + (port s n).slots.length < a.effective ∧
      crc = crc16 data ∧ 2 ≤ (port s n).slots.length :=
    ⟨1, 1, block 1, crc16 (block 1), command .write 9 9 1, _,
    portWith 1 (fun p => { p with slots := [{ lba := 10, data := block 3 }, { lba := 11, data := block 4 }], wait := .cache, idleTimer := none, active := some (command .write 9 9 1) }) writingState,
    rfl, by decide +kernel⟩

theorem witness_GiveDecidedInOrder_second_slot :
    ∃ (n : Node) (u : UnitId) (data : List Byte) (crc : BitVec 16) (a : ActiveCommand) (given s : State),
      UnitLaw s ∧ given = { s with ports := s.ports.modify n fun p => { p with receiveBuffer := data } } ∧
      s.phase = .running ∧ TimerLaw s ∧ data.length = 512 ∧ (s.units.get u).nodes.get n = true ∧
      (port s n).active = some a ∧ a.kind = .write ∧ (s.units.get u).state ≠ .storeFault ∧
      a.done + (port s n).slots.length < a.effective ∧ crc = crc16 data ∧ (port s n).slots.length < 2 ∧
      (port s n).wait = .cache :=
    ⟨1, 1, block 1, crc16 (block 1), command .write 9 9 1, _,
    portWith 1 (fun p => { p with slots := [{ lba := 10, data := block 3 }], wait := .cache, idleTimer := none, active := some (command .write 9 9 1) }) writingState,
    (by decide +kernel), rfl, by decide +kernel⟩

theorem witness_GivenBlockReachesCache_dirty_page :
    ∃ (n : Node) (u : UnitId) (data : List Byte) (a : ActiveCommand) (r : DirRecord) (s : State),
      UnitLaw s ∧ s.phase = .running ∧ TimerLaw s ∧ data.length = 512 ∧ (s.units.get u).nodes.get n = true ∧
      (s.units.get u).state = .attached ∧ (port s n).active = some a ∧ a.kind = .write ∧ a.done + 1 = a.effective ∧
      (port s n).slots = [] ∧ (port s n).wait = .none ∧ findBlock s u (a.first + a.done) = some r ∧
      n ∉ s.cache.entryWait ∧ (∀ x ∈ s.cache.directory, x.page = r.page → x = r) ∧ r.state = .dirty ∧
      (∀ j : Fin 8, (s.cache.stores[j]).busy ≠ none) :=
    ⟨1, 1, block 1, command .write 9 2 1, page 40 10 .dirty, dirtyState, (by decide +kernel), by decide +kernel⟩

theorem witness_GivenBlockReachesCache_clean_page :
    ∃ (n : Node) (u : UnitId) (data : List Byte) (a : ActiveCommand) (r : DirRecord) (s : State) (i : Fin 8),
      UnitLaw s ∧ s.phase = .running ∧ TimerLaw s ∧ data.length = 512 ∧ (s.units.get u).nodes.get n = true ∧
      (s.units.get u).state = .attached ∧ (port s n).active = some a ∧ a.kind = .write ∧ a.done + 1 = a.effective ∧
      (port s n).slots = [] ∧ (port s n).wait = .none ∧ findBlock s u (a.first + a.done) = some r ∧
      n ∉ s.cache.entryWait ∧ (∀ x ∈ s.cache.directory, x.page = r.page → x = r) ∧ r.state = .clean ∧
      dirtyCount s u < (s.units.get u).dirtyLimit ∧ (∀ v : UnitId, s.cache.dirty.get v = []) ∧
      (s.cache.stores[i]).busy = none ∧ (∀ j : Fin 8, j < i → (s.cache.stores[j]).busy ≠ none) :=
    ⟨1, 1, block 1, command .write 9 2 1, page 40 10 .clean, cleanState, 1, (by decide +kernel), by decide +kernel⟩

theorem witness_PortStatusEndingsAndSettings_any :
    ∃ (s : State),
      s.phase = .running ∧ TimerLaw s ∧ UnitLaw s :=
    ⟨writingState, by decide +kernel⟩

theorem witness_PortStatusEndingsAndSettings_abort_idle :
    ∃ (n : Node) (s : State),
      s.phase = .running ∧ TimerLaw s ∧ UnitLaw s ∧ (port s n).active = none :=
    ⟨3, writingState, by decide +kernel⟩

theorem witness_PortStatusEndingsAndSettings_abort :
    ∃ (n : Node) (s : State) (a : ActiveCommand),
      s.phase = .running ∧ TimerLaw s ∧ UnitLaw s ∧ (port s n).active = some a :=
    ⟨1, writingState, command .write 9 2 1, by decide +kernel⟩

theorem witness_PortStatusEndingsAndSettings_idle_timer :
    ∃ (n : Node) (s : State) (a : ActiveCommand),
      s.phase = .running ∧ TimerLaw s ∧ UnitLaw s ∧ (port s n).active = some a ∧ (port s n).idleTimer ≠ none :=
    ⟨1, writingState, command .write 9 2 1, by decide +kernel⟩

theorem witness_PortStatusEndingsAndSettings_flush_clean :
    ∃ (n : Node) (s : State) (u : UnitId),
      s.phase = .running ∧ TimerLaw s ∧ UnitLaw s ∧ (port s n).active = none ∧ (s.units.get u).nodes.get n = true ∧
      (s.units.get u).state = .attached ∧ dirtyCount s u = 0 :=
    ⟨2, writingState, 2, by decide +kernel⟩

theorem witness_PortStatusEndingsAndSettings_flush_dirty :
    ∃ (n : Node) (s : State) (u : UnitId),
      s.phase = .running ∧ TimerLaw s ∧ UnitLaw s ∧ (port s n).active = none ∧ (s.units.get u).nodes.get n = true ∧
      (s.units.get u).state = .attached ∧ 0 < dirtyCount s u :=
    ⟨0, writingState, 1, by decide +kernel⟩

theorem witness_PortStatusEndingsAndSettings_bad_block :
    ∃ (block : List Byte) (s : State),
      s.phase = .running ∧ TimerLaw s ∧ UnitLaw s ∧ block.length = 8 ∧ isBadBlock block = true :=
    ⟨[9#8, 0#8, 0#8, 0#8, 0#8, 0#8, 77#8, 3#8], served, by decide +kernel⟩

theorem witness_PortStatusEndingsAndSettings_miso :
    ∃ (s : State) (bits : List Bool) (i : Nat),
      s.phase = .running ∧ TimerLaw s ∧ UnitLaw s ∧ i < bits.length :=
    ⟨writingState, spiBits 0x05#8, 0, by decide +kernel⟩

theorem witness_PortStatusEndingsAndSettings_short :
    ∃ (data block : List Byte) (bits : List Bool),
      block.length = 8 ∧ data.length = 512 ∧ bits.length < 64 :=
    ⟨List.replicate 512 7#8, List.replicate 8 0#8, List.replicate 63 true, by decide +kernel⟩

theorem witness_PortStatusEndingsAndSettings_one_command :
    ∃ (n : Node) (together : Bool) (data block rest : List Byte) (c : Instr),
      (∀ k : Byte, c = .take n k → (block ++ rest).length < 531) ∧
      block.length = 8 ∧ data.length = 512 ∧ blockCommand n together block = some c ∧ c ≠ .giveCommandBlock n :=
    ⟨2, false, List.replicate 512 7#8, portBlock 5#8, [], .status 2 77#8, (fun _ h => nomatch h), by decide +kernel⟩

theorem witness_PortStatusEndingsAndSettings_cut_take :
    ∃ (n : Node) (together : Bool) (data block rest : List Byte) (c : Instr),
      (∀ k : Byte, c = .take n k → (block ++ rest).length < 531) ∧
      block.length = 8 ∧ data.length = 512 ∧ blockCommand n together block = some c ∧ c ≠ .giveCommandBlock n :=
    ⟨2, false, List.replicate 512 7#8, portBlock 3#8, List.replicate 522 0xFF#8, .take 2 77#8,
    fun _ _ => by decide +kernel, by decide +kernel⟩

theorem witness_PortStatusEndingsAndSettings_whole_take :
    ∃ (n : Node) (together : Bool) (txn : Byte) (data block rest : List Byte),
      block.length = 8 ∧ data.length = 512 ∧ blockCommand n together block = some (.take n txn) ∧
      531 ≤ (block ++ rest).length :=
    ⟨2, false, 77#8, List.replicate 512 7#8, portBlock 3#8, List.replicate 523 0xFF#8, by decide +kernel⟩

theorem witness_PortStatusEndingsAndSettings_whole_give :
    ∃ (n : Node) (together : Bool) (data block : List Byte),
      block.length = 8 ∧ data.length = 512 ∧ blockCommand n together block = some (.giveCommandBlock n) :=
    ⟨0, true, List.replicate 512 7#8, portBlock 4#8, by decide +kernel⟩

theorem witness_PortStatusEndingsAndSettings_block_read :
    ∃ (code count txn crc : Byte) (lba : Word) (block : List Byte),
      block = code :: (word32 lba ++ [count, txn]) ∧ crc = crc8 block ∧
      (code = 1#8 ∨ code = 2#8 → 1 ≤ count.toNat ∧ count.toNat ≤ 64) ∧ code = 1#8 :=
    ⟨1#8, 64#8, 9#8, crc8 (1#8 :: (word32 100#32 ++ [64#8, 9#8])), 100#32, _, rfl, by decide +kernel⟩

theorem witness_PortStatusEndingsAndSettings_block_write :
    ∃ (code count txn crc : Byte) (lba : Word) (block : List Byte),
      block = code :: (word32 lba ++ [count, txn]) ∧ crc = crc8 block ∧
      (code = 1#8 ∨ code = 2#8 → 1 ≤ count.toNat ∧ count.toNat ≤ 64) ∧ code = 2#8 :=
    ⟨2#8, 64#8, 9#8, crc8 (2#8 :: (word32 100#32 ++ [64#8, 9#8])), 100#32, _, rfl, by decide +kernel⟩

theorem witness_PortStatusEndingsAndSettings_block_take :
    ∃ (code count txn crc : Byte) (lba : Word) (block : List Byte),
      block = code :: (word32 lba ++ [count, txn]) ∧ crc = crc8 block ∧
      (code = 1#8 ∨ code = 2#8 → 1 ≤ count.toNat ∧ count.toNat ≤ 64) ∧ code = 3#8 :=
    ⟨3#8, 64#8, 9#8, crc8 (3#8 :: (word32 100#32 ++ [64#8, 9#8])), 100#32, _, rfl, by decide +kernel⟩

theorem witness_PortStatusEndingsAndSettings_block_give :
    ∃ (code count txn crc : Byte) (lba : Word) (block : List Byte),
      block = code :: (word32 lba ++ [count, txn]) ∧ crc = crc8 block ∧
      (code = 1#8 ∨ code = 2#8 → 1 ≤ count.toNat ∧ count.toNat ≤ 64) ∧ code = 4#8 :=
    ⟨4#8, 64#8, 9#8, crc8 (4#8 :: (word32 100#32 ++ [64#8, 9#8])), 100#32, _, rfl, by decide +kernel⟩

theorem witness_PortStatusEndingsAndSettings_block_status :
    ∃ (code count txn crc : Byte) (lba : Word) (block : List Byte),
      block = code :: (word32 lba ++ [count, txn]) ∧ crc = crc8 block ∧
      (code = 1#8 ∨ code = 2#8 → 1 ≤ count.toNat ∧ count.toNat ≤ 64) ∧ code = 5#8 :=
    ⟨5#8, 64#8, 9#8, crc8 (5#8 :: (word32 100#32 ++ [64#8, 9#8])), 100#32, _, rfl, by decide +kernel⟩

theorem witness_PortStatusEndingsAndSettings_block_sense :
    ∃ (code count txn crc : Byte) (lba : Word) (block : List Byte),
      block = code :: (word32 lba ++ [count, txn]) ∧ crc = crc8 block ∧
      (code = 1#8 ∨ code = 2#8 → 1 ≤ count.toNat ∧ count.toNat ≤ 64) ∧ code = 6#8 :=
    ⟨6#8, 64#8, 9#8, crc8 (6#8 :: (word32 100#32 ++ [64#8, 9#8])), 100#32, _, rfl, by decide +kernel⟩

theorem witness_PortStatusEndingsAndSettings_block_flush :
    ∃ (code count txn crc : Byte) (lba : Word) (block : List Byte),
      block = code :: (word32 lba ++ [count, txn]) ∧ crc = crc8 block ∧
      (code = 1#8 ∨ code = 2#8 → 1 ≤ count.toNat ∧ count.toNat ≤ 64) ∧ code = 7#8 :=
    ⟨7#8, 64#8, 9#8, crc8 (7#8 :: (word32 100#32 ++ [64#8, 9#8])), 100#32, _, rfl, by decide +kernel⟩

theorem witness_PortStatusEndingsAndSettings_block_ack_change :
    ∃ (code count txn crc : Byte) (lba : Word) (block : List Byte),
      block = code :: (word32 lba ++ [count, txn]) ∧ crc = crc8 block ∧
      (code = 1#8 ∨ code = 2#8 → 1 ≤ count.toNat ∧ count.toNat ≤ 64) ∧ code = 8#8 :=
    ⟨8#8, 64#8, 9#8, crc8 (8#8 :: (word32 100#32 ++ [64#8, 9#8])), 100#32, _, rfl, by decide +kernel⟩

theorem witness_PortStatusEndingsAndSettings_block_abort :
    ∃ (code count txn crc : Byte) (lba : Word) (block : List Byte),
      block = code :: (word32 lba ++ [count, txn]) ∧ crc = crc8 block ∧
      (code = 1#8 ∨ code = 2#8 → 1 ≤ count.toNat ∧ count.toNat ≤ 64) ∧ code = 9#8 :=
    ⟨9#8, 64#8, 9#8, crc8 (9#8 :: (word32 100#32 ++ [64#8, 9#8])), 100#32, _, rfl, by decide +kernel⟩

theorem witness_PortStatusEndingsAndSettings_bad_crc :
    ∃ (code count txn crc : Byte) (lba : Word) (block : List Byte),
      block = code :: (word32 lba ++ [count, txn]) ∧
      (crc ≠ crc8 block ∨ code = 0#8 ∨ 9 < code.toNat ∨ (code = 1#8 ∨ code = 2#8) ∧ (count = 0#8 ∨ 64 < count.toNat)) :=
    ⟨5#8, 0#8, 9#8, crc8 (5#8 :: (word32 0#32 ++ [0#8, 9#8])) + 1#8, 0, _, rfl, by decide +kernel⟩

theorem witness_PortStatusEndingsAndSettings_bad_count :
    ∃ (code count txn crc : Byte) (lba : Word) (block : List Byte),
      block = code :: (word32 lba ++ [count, txn]) ∧
      (crc ≠ crc8 block ∨ code = 0#8 ∨ 9 < code.toNat ∨ (code = 1#8 ∨ code = 2#8) ∧ (count = 0#8 ∨ 64 < count.toNat)) :=
    ⟨2#8, 65#8, 9#8, crc8 (2#8 :: (word32 0#32 ++ [65#8, 9#8])), 0, _, rfl, by decide +kernel⟩

theorem witness_PortStatusEndingsAndSettings_mode :
    ∃ (n : Node) (b mode t0 t1 : Byte) (midBlock : Bool) (k : Nat) (p : Port) (s : State),
      (p = { port s n with
         spiMode := k
         opening := if midBlock = true ∧ k ≠ (port s n).spiMode then some ((port s n).opening.getD (port s n).spiMode)
           else (port s n).opening
         idleTimeout := if u16 t0 t1 = 0 then (port s n).idleTimeout else max 100 (min 10000 (u16 t0 t1)) }) ∧
      RequestReady s ∧ TimerLaw s ∧ b.toNat = n.val ∧
      (mode = 0#8 ∧ k = 0 ∨ mode = 3#8 ∧ k = 3 ∨ mode = 0xFF#8 ∧ k = (port s n).spiMode) :=
    ⟨1, 1#8, 3#8, 0#8, 0#8, false, 3, _, writingState, rfl, by decide +kernel⟩

theorem witness_PortStatusEndingsAndSettings_mode_within_a_block :
    ∃ (n : Node) (b mode t0 t1 : Byte) (midBlock : Bool) (k : Nat) (p : Port) (s : State),
      (p = { port s n with
         spiMode := k
         opening := if midBlock = true ∧ k ≠ (port s n).spiMode then some ((port s n).opening.getD (port s n).spiMode)
           else (port s n).opening
         idleTimeout := if u16 t0 t1 = 0 then (port s n).idleTimeout else max 100 (min 10000 (u16 t0 t1)) }) ∧
      RequestReady s ∧ TimerLaw s ∧ b.toNat = n.val ∧
      (mode = 0#8 ∧ k = 0 ∨ mode = 3#8 ∧ k = 3 ∨ mode = 0xFF#8 ∧ k = (port s n).spiMode) :=
    ⟨1, 1#8, 3#8, 0#8, 0#8, true, 3, _, writingState, rfl, by decide +kernel⟩

theorem witness_PortStatusEndingsAndSettings_keep :
    ∃ (n : Node) (b mode t0 t1 : Byte) (midBlock : Bool) (k : Nat) (p : Port) (s : State),
      (p = { port s n with
         spiMode := k
         opening := if midBlock = true ∧ k ≠ (port s n).spiMode then some ((port s n).opening.getD (port s n).spiMode)
           else (port s n).opening
         idleTimeout := if u16 t0 t1 = 0 then (port s n).idleTimeout else max 100 (min 10000 (u16 t0 t1)) }) ∧
      RequestReady s ∧ TimerLaw s ∧ b.toNat = n.val ∧
      (mode = 0#8 ∧ k = 0 ∨ mode = 3#8 ∧ k = 3 ∨ mode = 0xFF#8 ∧ k = (port s n).spiMode) :=
    ⟨0, 0#8, 0xFF#8, 0#8, 9#8, false, 0, _, writingState, rfl, by decide +kernel⟩

theorem witness_FillMakesPageClean_no_port :
    ∃ (i : Fin 16) (f : Fetch) (tag : Tag) (lba : Word) (data : List Byte) (e : FetchEntry) (calls : List Call) (s : State) (r : DirRecord) (filled : State),
      (e = { s.cache.fetches[i] with
         busy := if (f.blocks.set (lba.toNat - f.first) .received).all (fun b => b == .received) then none
           else some { f with blocks := f.blocks.set (lba.toNat - f.first) .received } }) ∧
      calls = (if e.busy = none then s.link.calls.filter (fun x => x != .fetch i) else s.link.calls) ∧
      (filled = { s with
         ram := Memory.write ramDefault s.ram (512 * r.page.val) data
         cache := { s.cache with
           directory := s.cache.directory.map fun x => if x.page = r.page then { x with state := .clean, age := 0 } else x
           fetches := s.cache.fetches.set i.val e i.isLt }
         link := { s.link with receiver := none, calls := calls } }) ∧
      s.phase = .running ∧ frameBuffer s.link ≠ none ∧ data.length = 512 ∧ (s.cache.fetches[i]).busy = some f ∧
      tag.toNat = (s.cache.fetches[i]).generation.toNat * 256 + i.val ∧ f.first ≤ lba.toNat ∧
      s.cache.entryWait = [] ∧ f.blocks[lba.toNat - f.first]? = some .waiting ∧ NothingHeld s ∧
      findBlock s f.unit lba.toNat = some r ∧ (∀ x ∈ s.cache.directory, x.page = r.page → x = r) ∧
      (∀ n : Node, (port s n).wait ≠ .page) :=
    ⟨0, { unit := 1, first := 3, blocks := [.waiting, .waiting, .waiting, .waiting], created := 0 }, 0x0100#16,
    5#32, block 7, _, _, portWith 0 (fun p => { p with active := none, wait := .none }) readingState,
    page 10 5 .filling, _, rfl, rfl, rfl, by decide +kernel⟩

theorem witness_FillMakesPageClean_last_block :
    ∃ (i : Fin 16) (f : Fetch) (tag : Tag) (lba : Word) (data : List Byte) (e : FetchEntry) (calls : List Call) (s : State) (r : DirRecord) (filled : State) (n : Node) (a : ActiveCommand),
      (e = { s.cache.fetches[i] with
         busy := if (f.blocks.set (lba.toNat - f.first) .received).all (fun b => b == .received) then none
           else some { f with blocks := f.blocks.set (lba.toNat - f.first) .received } }) ∧
      calls = (if e.busy = none then s.link.calls.filter (fun x => x != .fetch i) else s.link.calls) ∧
      (filled = { s with
         ram := Memory.write ramDefault s.ram (512 * r.page.val) data
         cache := { s.cache with
           directory := s.cache.directory.map fun x => if x.page = r.page then { x with state := .clean, age := 0 } else x
           fetches := s.cache.fetches.set i.val e i.isLt }
         link := { s.link with receiver := none, calls := calls } }) ∧
      MemoryLaw s ∧ UnitLaw s ∧ s.phase = .running ∧ frameBuffer s.link ≠ none ∧ data.length = 512 ∧
      (s.cache.fetches[i]).busy = some f ∧ tag.toNat = (s.cache.fetches[i]).generation.toNat * 256 + i.val ∧
      f.first ≤ lba.toNat ∧ s.cache.entryWait = [] ∧ f.blocks[lba.toNat - f.first]? = some .waiting ∧
      NothingHeld s ∧ findBlock s f.unit lba.toNat = some r ∧ (∀ x ∈ s.cache.directory, x.page = r.page → x = r) ∧
      (s.units.get f.unit).nodes.get n = true ∧ (port s n).active = some a ∧ a.kind = .read ∧
      (port s n).wait = .page ∧ lba.toNat = a.first + a.done + (port s n).slots.length ∧
      lba.toNat + 1 = a.first + a.effective ∧ (∀ m : Node, m ≠ n → (port s m).wait ≠ .page) :=
    ⟨0, { unit := 1, first := 3, blocks := [.waiting], created := 0 }, 0x0100#16, 3#32, block 7, _, _,
    oneBlockState, page 8 3 .filling, _, 0, command .read 3 1 0, rfl, rfl, rfl, (by decide +kernel),
    (by decide +kernel), by decide +kernel⟩

theorem witness_FillMakesPageClean_overtaken :
    ∃ (i : Fin 16) (f : Fetch) (tag : Tag) (lba : Word) (data : List Byte) (e : FetchEntry) (calls : List Call) (s : State),
      (e = { s.cache.fetches[i] with
         busy := if (f.blocks.set (lba.toNat - f.first) .received).all (fun b => b == .received) then none
           else some { f with blocks := f.blocks.set (lba.toNat - f.first) .received } }) ∧
      calls = (if e.busy = none then s.link.calls.filter (fun x => x != .fetch i) else s.link.calls) ∧
      s.phase = .running ∧ frameBuffer s.link ≠ none ∧ data.length = 512 ∧ (s.cache.fetches[i]).busy = some f ∧
      tag.toNat = (s.cache.fetches[i]).generation.toNat * 256 + i.val ∧ f.first ≤ lba.toNat ∧
      s.cache.entryWait = [] ∧ f.blocks[lba.toNat - f.first]? = some .overtaken :=
    ⟨0, { unit := 1, first := 3, blocks := [.waiting, .overtaken], created := 0 }, 0x0100#16, 4#32, block 7, _, _,
    fetching 3 [.waiting, .overtaken] served, rfl, rfl, by decide +kernel⟩

theorem witness_FetchFailureEndsWaitingPorts_timeout :
    ∃ (i : Fin 16) (f : Fetch) (tag : Tag) (timedOut : Bool) (c : Instr) (x : MediaUnit) (s : State),
      PoolLaw s ∧ x = s.units.get f.unit ∧ s.phase = .running ∧ CacheLaw s ∧ NothingHeld s ∧
      s.cache.entryWait = [] ∧ (s.cache.fetches[i]).busy = some f ∧
      ((timedOut = true ∧ c = .fetchTimeout i) ∨ (timedOut = false ∧ c = .fetchFailed tag ∧ frameBuffer s.link ≠ none ∧ tag.toNat = (s.cache.fetches[i]).generation.toNat * 256 + i.val)) :=
    ⟨0, { unit := 1, first := 3, blocks := [.waiting, .waiting, .waiting, .waiting], created := 0 }, 0, true,
    .fetchTimeout 0, _, readingState, poolLaw_served_reading, rfl, by decide +kernel⟩

theorem witness_FetchFailureEndsWaitingPorts_failed :
    ∃ (i : Fin 16) (f : Fetch) (tag : Tag) (timedOut : Bool) (c : Instr) (x : MediaUnit) (s : State),
      PoolLaw s ∧ x = s.units.get f.unit ∧ s.phase = .running ∧ CacheLaw s ∧ NothingHeld s ∧
      s.cache.entryWait = [] ∧ (s.cache.fetches[i]).busy = some f ∧
      ((timedOut = true ∧ c = .fetchTimeout i) ∨ (timedOut = false ∧ c = .fetchFailed tag ∧ frameBuffer s.link ≠ none ∧ tag.toNat = (s.cache.fetches[i]).generation.toNat * 256 + i.val)) :=
    ⟨0, { unit := 1, first := 3, blocks := [.waiting, .waiting, .waiting, .waiting], created := 0 }, 0x0100#16,
    false, .fetchFailed 0x0100#16, _, readingState, poolLaw_served_reading, rfl, by decide +kernel⟩

theorem witness_StoresEndAndPagesAge_stored :
    ∃ (i : Fin 8) (y : Store) (r : DirRecord) (x : MediaUnit) (tag : Tag) (again : StoreEntry) (s : State) (c : Instr),
      x = s.units.get r.unit ∧ UnitLaw s ∧
      (again = { generation := (s.cache.stores[i]).generation + 1,
                 busy := some { unit := r.unit, lba := r.lba, page := r.page, created := s.now } }) ∧
      s.phase = .running ∧ (s.cache.stores[i]).busy = some y ∧
      (∀ j : Fin 8, j < i → (s.cache.stores[j]).busy ≠ none) ∧ r ∈ s.cache.directory ∧ r.page = y.page ∧
      r.unit = y.unit ∧ r.lba = y.lba ∧ r.state = .storing ∧ (s.cache.directory.map fun z => z.page).Nodup ∧
      x.state = .attached ∧ x.consecutive ≤ 2 ∧ NothingHeld s ∧ c = .stored tag ∧ frameBuffer s.link ≠ none ∧
      tag.toNat = (s.cache.stores[i]).generation.toNat * 256 + (16 + i.val) ∧ r.redirtied = false :=
    ⟨0, { unit := 1, lba := 9, page := 12, created := 0 }, page 12 9 .storing, _, 0x0110#16, _, writingState,
    .stored 0x0110#16, rfl, (by decide +kernel), rfl, by decide +kernel⟩

theorem witness_StoresEndAndPagesAge_stored_again :
    ∃ (i : Fin 8) (y : Store) (r : DirRecord) (x : MediaUnit) (tag : Tag) (again : StoreEntry) (s : State) (c : Instr),
      x = s.units.get r.unit ∧ UnitLaw s ∧
      (again = { generation := (s.cache.stores[i]).generation + 1,
                 busy := some { unit := r.unit, lba := r.lba, page := r.page, created := s.now } }) ∧
      s.phase = .running ∧ (s.cache.stores[i]).busy = some y ∧
      (∀ j : Fin 8, j < i → (s.cache.stores[j]).busy ≠ none) ∧ r ∈ s.cache.directory ∧ r.page = y.page ∧
      r.unit = y.unit ∧ r.lba = y.lba ∧ r.state = .storing ∧ (s.cache.directory.map fun z => z.page).Nodup ∧
      x.state = .attached ∧ x.consecutive ≤ 2 ∧ NothingHeld s ∧ c = .stored tag ∧ frameBuffer s.link ≠ none ∧
      tag.toNat = (s.cache.stores[i]).generation.toNat * 256 + (16 + i.val) ∧ r.redirtied = true :=
    ⟨0, { unit := 1, lba := 9, page := 12, created := 0 }, { page 12 9 .storing with redirtied := true }, _,
    0x0110#16, _, redirtiedState, .stored 0x0110#16, rfl, (by decide +kernel), rfl, by decide +kernel⟩

theorem witness_StoresEndAndPagesAge_failed :
    ∃ (i : Fin 8) (y : Store) (r : DirRecord) (x : MediaUnit) (tag : Tag) (again : StoreEntry) (s : State) (c : Instr) (link : Link),
      x = s.units.get r.unit ∧ UnitLaw s ∧
      (again = { generation := (s.cache.stores[i]).generation + 1,
                 busy := some { unit := r.unit, lba := r.lba, page := r.page, created := s.now } }) ∧
      s.phase = .running ∧ (s.cache.stores[i]).busy = some y ∧
      (∀ j : Fin 8, j < i → (s.cache.stores[j]).busy ≠ none) ∧ r ∈ s.cache.directory ∧ r.page = y.page ∧
      r.unit = y.unit ∧ r.lba = y.lba ∧ r.state = .storing ∧ (s.cache.directory.map fun z => z.page).Nodup ∧
      x.state = .attached ∧ x.consecutive ≤ 2 ∧ NothingHeld s ∧
      ((c = .storeTimeout i ∧ link = s.link)
        ∨ (c = .storeFailed tag ∧ frameBuffer s.link ≠ none ∧ link = { s.link with receiver := none }
            ∧ tag.toNat = (s.cache.stores[i]).generation.toNat * 256 + (16 + i.val))) ∧
      x.consecutive < 2 :=
    ⟨0, { unit := 1, lba := 9, page := 12, created := 0 }, page 12 9 .storing, _, 0x0110#16, _, writingState,
    .storeFailed 0x0110#16, { writingState.link with receiver := none }, rfl, (by decide +kernel), rfl,
    by decide +kernel⟩

theorem witness_StoresEndAndPagesAge_timeout :
    ∃ (i : Fin 8) (y : Store) (r : DirRecord) (x : MediaUnit) (tag : Tag) (again : StoreEntry) (s : State) (c : Instr) (link : Link),
      x = s.units.get r.unit ∧ UnitLaw s ∧
      (again = { generation := (s.cache.stores[i]).generation + 1,
                 busy := some { unit := r.unit, lba := r.lba, page := r.page, created := s.now } }) ∧
      s.phase = .running ∧ (s.cache.stores[i]).busy = some y ∧
      (∀ j : Fin 8, j < i → (s.cache.stores[j]).busy ≠ none) ∧ r ∈ s.cache.directory ∧ r.page = y.page ∧
      r.unit = y.unit ∧ r.lba = y.lba ∧ r.state = .storing ∧ (s.cache.directory.map fun z => z.page).Nodup ∧
      x.state = .attached ∧ x.consecutive ≤ 2 ∧ NothingHeld s ∧
      ((c = .storeTimeout i ∧ link = s.link)
        ∨ (c = .storeFailed tag ∧ frameBuffer s.link ≠ none ∧ link = { s.link with receiver := none }
            ∧ tag.toNat = (s.cache.stores[i]).generation.toNat * 256 + (16 + i.val))) ∧
      x.consecutive < 2 :=
    ⟨0, { unit := 1, lba := 9, page := 12, created := 0 }, page 12 9 .storing, _, 0x0110#16, _, writingState,
    .storeTimeout 0, writingState.link, rfl, (by decide +kernel), rfl, by decide +kernel⟩

theorem witness_StoresEndAndPagesAge_third_failure :
    ∃ (i : Fin 8) (y : Store) (r : DirRecord) (x : MediaUnit) (tag : Tag) (again : StoreEntry) (s : State) (c : Instr) (link : Link),
      x = s.units.get r.unit ∧ UnitLaw s ∧
      (again = { generation := (s.cache.stores[i]).generation + 1,
                 busy := some { unit := r.unit, lba := r.lba, page := r.page, created := s.now } }) ∧
      s.phase = .running ∧ (s.cache.stores[i]).busy = some y ∧
      (∀ j : Fin 8, j < i → (s.cache.stores[j]).busy ≠ none) ∧ r ∈ s.cache.directory ∧ r.page = y.page ∧
      r.unit = y.unit ∧ r.lba = y.lba ∧ r.state = .storing ∧ (s.cache.directory.map fun z => z.page).Nodup ∧
      x.state = .attached ∧ x.consecutive ≤ 2 ∧ NothingHeld s ∧
      ((c = .storeTimeout i ∧ link = s.link)
        ∨ (c = .storeFailed tag ∧ frameBuffer s.link ≠ none ∧ link = { s.link with receiver := none }
            ∧ tag.toNat = (s.cache.stores[i]).generation.toNat * 256 + (16 + i.val))) ∧
      x.consecutive = 2 ∧ x.detachTag = none :=
    ⟨0, { unit := 1, lba := 9, page := 12, created := 0 }, page 12 9 .storing, _, 0, _,
    unitFailedTwice writingState, .storeTimeout 0, writingState.link, rfl, (by decide +kernel), rfl,
    by decide +kernel⟩

theorem witness_StoresEndAndPagesAge_drain_ends :
    ∃ (i : Fin 8) (y : Store) (r : DirRecord) (x : MediaUnit) (tag old : Tag) (freed : StoreEntry) (calls : List Call) (s : State),
      x = s.units.get r.unit ∧ UnitLaw s ∧ freed = { s.cache.stores[i] with busy := none } ∧
      calls = s.link.calls.filter (fun k => k != .store i) ∧ s.phase = .running ∧
      (s.cache.stores[i]).busy = some y ∧ (∀ j : Fin 8, j < i → (s.cache.stores[j]).busy ≠ none) ∧
      r ∈ s.cache.directory ∧ r.page = y.page ∧ r.unit = y.unit ∧ r.lba = y.lba ∧ r.state = .storing ∧
      (s.cache.directory.map fun z => z.page).Nodup ∧ x.state = .draining ∧ x.detachTag = some old ∧
      x.consecutive ≤ 2 ∧ NothingHeld s ∧ frameBuffer s.link ≠ none ∧
      tag.toNat = (s.cache.stores[i]).generation.toNat * 256 + (16 + i.val) ∧ r.redirtied = false ∧
      dirtyCount s r.unit = 1 :=
    ⟨0, { unit := 1, lba := 9, page := 12, created := 0 }, page 12 9 .storing, _, 0x0110#16, 7, _, _,
    draining [page 12 9 .storing], rfl, (by decide +kernel), rfl, rfl, by decide +kernel⟩

theorem witness_StoresEndAndPagesAge_drain_goes_on :
    ∃ (i : Fin 8) (y : Store) (r : DirRecord) (x : MediaUnit) (tag old : Tag) (freed : StoreEntry) (calls : List Call) (s : State),
      x = s.units.get r.unit ∧ UnitLaw s ∧ freed = { s.cache.stores[i] with busy := none } ∧
      calls = s.link.calls.filter (fun k => k != .store i) ∧ s.phase = .running ∧
      (s.cache.stores[i]).busy = some y ∧ (∀ j : Fin 8, j < i → (s.cache.stores[j]).busy ≠ none) ∧
      r ∈ s.cache.directory ∧ r.page = y.page ∧ r.unit = y.unit ∧ r.lba = y.lba ∧ r.state = .storing ∧
      (s.cache.directory.map fun z => z.page).Nodup ∧ x.state = .draining ∧ x.detachTag = some old ∧
      x.consecutive ≤ 2 ∧ NothingHeld s ∧ frameBuffer s.link ≠ none ∧
      tag.toNat = (s.cache.stores[i]).generation.toNat * 256 + (16 + i.val) ∧ r.redirtied = false ∧
      2 ≤ dirtyCount s r.unit :=
    ⟨0, { unit := 1, lba := 9, page := 12, created := 0 }, page 12 9 .storing, _, 0x0110#16, 7, _, _,
    draining [page 12 9 .storing, page 13 10 .storing], rfl, (by decide +kernel), rfl, rfl, by decide +kernel⟩

theorem witness_StoresEndAndPagesAge_drain_stores_again :
    ∃ (i : Fin 8) (y : Store) (r : DirRecord) (x : MediaUnit) (tag old : Tag) (freed : StoreEntry) (calls : List Call) (s : State),
      x = s.units.get r.unit ∧ UnitLaw s ∧ freed = { s.cache.stores[i] with busy := none } ∧
      calls = s.link.calls.filter (fun k => k != .store i) ∧ s.phase = .running ∧
      (s.cache.stores[i]).busy = some y ∧ (∀ j : Fin 8, j < i → (s.cache.stores[j]).busy ≠ none) ∧
      r ∈ s.cache.directory ∧ r.page = y.page ∧ r.unit = y.unit ∧ r.lba = y.lba ∧ r.state = .storing ∧
      (s.cache.directory.map fun z => z.page).Nodup ∧ x.state = .draining ∧ x.detachTag = some old ∧
      x.consecutive ≤ 2 ∧ NothingHeld s ∧ frameBuffer s.link ≠ none ∧
      tag.toNat = (s.cache.stores[i]).generation.toNat * 256 + (16 + i.val) ∧ r.redirtied = true :=
    ⟨0, { unit := 1, lba := 9, page := 12, created := 0 }, { page 12 9 .storing with redirtied := true }, _,
    0x0110#16, 7, _, _, draining [{ page 12 9 .storing with redirtied := true }], rfl, (by decide +kernel), rfl,
    rfl, by decide +kernel⟩

theorem witness_StoresEndAndPagesAge_drain_fails :
    ∃ (i : Fin 8) (y : Store) (r : DirRecord) (x : MediaUnit) (old : Tag) (freed : StoreEntry) (calls : List Call) (s : State),
      x = s.units.get r.unit ∧ UnitLaw s ∧ freed = { s.cache.stores[i] with busy := none } ∧
      calls = s.link.calls.filter (fun k => k != .store i) ∧ s.phase = .running ∧
      (s.cache.stores[i]).busy = some y ∧ (∀ j : Fin 8, j < i → (s.cache.stores[j]).busy ≠ none) ∧
      r ∈ s.cache.directory ∧ r.page = y.page ∧ r.unit = y.unit ∧ r.lba = y.lba ∧ r.state = .storing ∧
      (s.cache.directory.map fun z => z.page).Nodup ∧ x.state = .draining ∧ x.detachTag = some old ∧
      x.consecutive ≤ 2 ∧ NothingHeld s ∧ x.consecutive = 2 :=
    ⟨0, { unit := 1, lba := 9, page := 12, created := 0 }, page 12 9 .storing, _, 7, _, _,
    unitFailedTwice (draining [page 12 9 .storing]), rfl, (by decide +kernel), rfl, rfl, by decide +kernel⟩

theorem witness_StoresEndAndPagesAge_aging :
    ∃ (s : State),
      s.phase = .running :=
    ⟨stagedState, by decide +kernel⟩

theorem witness_BootRequestsSetPatternPolicyAndArm_pattern :
    ∃ (i : Fin 16) (m : Per4 Bool) (b enabled mask kind stage len : Byte) (literal : List Byte) (p : Pattern) (s : State),
      (p = { enabled := enabled == 1#8, nodes := m, literal := literal, isFail := kind == 1#8,
             stage := max 1 (min 6 stage.toNat) }) ∧
      RequestReady s ∧ b.toNat = i.val ∧ (enabled = 0#8 ∨ enabled = 1#8) ∧ mask.toNat < 16 ∧
      (∀ n : Node, m.get n = mask.getLsbD n.val) ∧ (kind = 0#8 ∨ kind = 1#8) ∧ 1 ≤ len.toNat ∧ len.toNat ≤ 24 ∧
      literal.length = len.toNat :=
    ⟨15, ⟨true, false, false, true⟩, 15#8, 1#8, 9#8, 1#8, 0#8, 3#8, [1#8, 2#8, 3#8], _, ready, rfl,
    by decide +kernel⟩

theorem witness_BootRequestsSetPatternPolicyAndArm_pattern_refused :
    ∃ (b enabled mask kind len : Byte) (literal : List Byte) (s : State),
      RequestReady s ∧
      (16 ≤ b.toNat ∨ 2 ≤ enabled.toNat ∨ 16 ≤ mask.toNat ∨ 2 ≤ kind.toNat ∨ len = 0#8 ∨ 24 < len.toNat ∨ literal.length ≠ len.toNat) ∧
      literal.length ≤ 594 :=
    ⟨15#8, 1#8, 15#8, 0#8, 25#8, List.replicate 25 7#8, ready, by decide +kernel⟩

theorem witness_BootRequestsSetPatternPolicyAndArm_below_final :
    ∃ (n : Node) (k : RecoveryPolicy) (b a0 a1 b0 b1 c0 c1 d0 d1 e0 e1 f0 f1 final kb limit m : Byte) (p : Policy) (v : Supervisor) (s : State),
      (p = { deadlines := ⟨min 3600 (u16 a0 a1), min 3600 (u16 b0 b1), min 3600 (u16 c0 c1), min 3600 (u16 d0 d1),
               min 3600 (u16 e0 e1), min 3600 (u16 f0 f1)⟩
             final := max 1 (min 6 final.toNat), recovery := k, limit := min 15 limit.toNat,
             fallbackFrom := min 15 m.toNat }) ∧
      v = s.supervisor n ∧ (∀ j : Nat, v.state = .watching j → j < p.final) ∧ RequestReady s ∧ b.toNat = n.val ∧
      kb.toNat = policyRecoveryCode k :=
    ⟨2, .cycle, 2#8, 255#8, 0#8, 0#8, 1#8, 0#8, 0#8, 0#8, 0#8, 0#8, 0#8, 1#8, 0#8, 2#8, 2#8, 99#8, 2#8, _, _,
    supervised (.watching 1) onState, rfl, rfl, fun j h => by cases h; decide, by decide +kernel⟩

theorem witness_BootRequestsSetPatternPolicyAndArm_at_final :
    ∃ (n : Node) (k : RecoveryPolicy) (b a0 a1 b0 b1 c0 c1 d0 d1 e0 e1 f0 f1 final kb limit m : Byte) (p : Policy) (v : Supervisor) (s : State) (j : Nat),
      (p = { deadlines := ⟨min 3600 (u16 a0 a1), min 3600 (u16 b0 b1), min 3600 (u16 c0 c1), min 3600 (u16 d0 d1),
               min 3600 (u16 e0 e1), min 3600 (u16 f0 f1)⟩
             final := max 1 (min 6 final.toNat), recovery := k, limit := min 15 limit.toNat,
             fallbackFrom := min 15 m.toNat }) ∧
      v = s.supervisor n ∧ RequestReady s ∧ b.toNat = n.val ∧ kb.toNat = policyRecoveryCode k ∧
      v.state = .watching j ∧ p.final ≤ j ∧ (∀ l : LineId, (s.line n l).owner ≠ .supervisor) :=
    ⟨2, .cycle, 2#8, 255#8, 0#8, 0#8, 1#8, 0#8, 0#8, 0#8, 0#8, 0#8, 0#8, 1#8, 0#8, 2#8, 2#8, 99#8, 2#8, _, _,
    supervised (.watching 2) onState, 2, rfl, rfl, by decide +kernel⟩

theorem witness_BootRequestsSetPatternPolicyAndArm_busy :
    ∃ (n : Node) (b : Byte) (d : Nat) (v : Supervisor) (freed s : State) (running : Bool),
      v = s.supervisor n ∧ d = (s.boot.policy.get n).deadlines.l0 ∧
      ((∀ l : LineId, (s.line n l).owner ≠ .supervisor) ∧ freed = s ∨ ∃ l : LineId, (s.line n l).owner = .supervisor ∧ (∀ m : LineId, m < l → (s.line n m).owner ≠ .supervisor) ∧ freed = releaseLine n l s) ∧
      RequestReady s ∧ b.toNat = n.val ∧ v.state = .recovering running :=
    ⟨2, 2#8, _, _, supervised (.recovering true) onState, supervised (.recovering true) onState, true, rfl, rfl,
    .inl ⟨by decide +kernel, rfl⟩, by decide +kernel⟩

theorem witness_BootRequestsSetPatternPolicyAndArm_off :
    ∃ (n : Node) (b : Byte) (d : Nat) (v : Supervisor) (freed s : State),
      v = s.supervisor n ∧ d = (s.boot.policy.get n).deadlines.l0 ∧
      ((∀ l : LineId, (s.line n l).owner ≠ .supervisor) ∧ freed = s ∨ ∃ l : LineId, (s.line n l).owner = .supervisor ∧ (∀ m : LineId, m < l → (s.line n m).owner ≠ .supervisor) ∧ freed = releaseLine n l s) ∧
      RequestReady s ∧ b.toNat = n.val ∧ (∀ running : Bool, v.state ≠ .recovering running) ∧ s.powerState n = .off :=
    ⟨2, 2#8, _, _, releaseLine 2 3 (supervised .halted (selecting offState)),
    supervised .halted (selecting offState), rfl, rfl, .inr ⟨3, by decide +kernel, by decide +kernel, rfl⟩,
    by decide +kernel⟩

theorem witness_BootRequestsSetPatternPolicyAndArm_on :
    ∃ (n : Node) (b : Byte) (d : Nat) (v : Supervisor) (freed s : State),
      v = s.supervisor n ∧ d = (s.boot.policy.get n).deadlines.l0 ∧
      ((∀ l : LineId, (s.line n l).owner ≠ .supervisor) ∧ freed = s ∨ ∃ l : LineId, (s.line n l).owner = .supervisor ∧ (∀ m : LineId, m < l → (s.line n m).owner ≠ .supervisor) ∧ freed = releaseLine n l s) ∧
      RequestReady s ∧ b.toNat = n.val ∧ (∀ running : Bool, v.state ≠ .recovering running) ∧ s.powerState n ≠ .off :=
    ⟨2, 2#8, _, _, releaseLine 2 3 (supervised .halted (selecting onState)), supervised .halted (selecting onState),
    rfl, rfl, .inr ⟨3, by decide +kernel, by decide +kernel, rfl⟩, by decide +kernel⟩

theorem witness_MatcherKeepsLongestPrefix_overlap :
    ∃ (literal text : List Byte) (b : Byte) (k j : Nat) (done : Bool),
      k < literal.length ∧ literal.take k <:+ text ∧
      (∀ m : Nat, m < literal.length → literal.take m <:+ text → m ≤ k) ∧ advanceMatch literal k b = (j, done) :=
    ⟨[1#8, 2#8, 1#8, 2#8], [9#8, 1#8, 2#8], 1#8, 2, 3, false, by decide +kernel⟩

theorem witness_MatcherKeepsLongestPrefix_other_length :
    ∃ (literal text : List Byte) (b : Byte) (k j : Nat) (done : Bool) (m : Nat),
      k < literal.length ∧ literal.take k <:+ text ∧
      (∀ m : Nat, m < literal.length → literal.take m <:+ text → m ≤ k) ∧ advanceMatch literal k b = (j, done) ∧
      m < literal.length ∧ literal.take m <:+ text ++ [b] :=
    ⟨[1#8, 2#8, 1#8, 2#8], [9#8, 1#8, 2#8], 1#8, 2, 3, false, 1, by decide +kernel⟩

theorem witness_StagesMoveTheSupervisor_not_above :
    ∃ (n : Node) (data : Byte) (c : Console) (p : PageId) (i : Nat) (e : Fin 16) (k j d : Nat) (v : Supervisor) (stored_ s : State),
      c = s.consoles.get n ∧ v = s.supervisor n ∧
      (stored_ = { s with
         ram := Memory.write ramDefault s.ram (512 * p.val + i) [data]
         consoles := s.consoles.set n { c with receiver := .idle, live := c.live + 1, count := c.count + 1 }
         boot := { s.boot with partials := s.boot.partials.set n (Vector.ofFn fun x => (advanceEntry s n data x).1) } }) ∧
      s.phase = .running ∧ c.receiver = .receiving ∧ c.settings.dataBits = 8 ∧ c.settings.parity = .none ∧
      c.locate c.live = some (p, i) ∧ (c.live + 1 - c.oldest).toNat ≠ 512 * c.pages.length ∧
      (c.flood = true ∨ c.count < c.settings.riseThreshold) ∧ completedEntries s n data = [e] ∧
      (s.boot.patterns[e]).isFail = false ∧ (s.boot.patterns[e]).stage = j ∧ v.state = .watching k ∧
      (∀ l : LineId, (s.line n l).owner ≠ .supervisor) ∧ d = (s.boot.policy.get n).deadlines.toList.getD j 0 ∧ j ≤ k :=
    ⟨2, 0x62#8, _, 4, 1, 5, 2, 2, 0, _, _, matched 2 2, rfl, rfl, rfl, by decide +kernel⟩

theorem witness_StagesMoveTheSupervisor_next_stage :
    ∃ (n : Node) (data : Byte) (c : Console) (p : PageId) (i : Nat) (e : Fin 16) (k j d : Nat) (v : Supervisor) (stored_ s : State),
      c = s.consoles.get n ∧ v = s.supervisor n ∧
      (stored_ = { s with
         ram := Memory.write ramDefault s.ram (512 * p.val + i) [data]
         consoles := s.consoles.set n { c with receiver := .idle, live := c.live + 1, count := c.count + 1 }
         boot := { s.boot with partials := s.boot.partials.set n (Vector.ofFn fun x => (advanceEntry s n data x).1) } }) ∧
      s.phase = .running ∧ c.receiver = .receiving ∧ c.settings.dataBits = 8 ∧ c.settings.parity = .none ∧
      c.locate c.live = some (p, i) ∧ (c.live + 1 - c.oldest).toNat ≠ 512 * c.pages.length ∧
      (c.flood = true ∨ c.count < c.settings.riseThreshold) ∧ completedEntries s n data = [e] ∧
      (s.boot.patterns[e]).isFail = false ∧ (s.boot.patterns[e]).stage = j ∧ v.state = .watching k ∧
      (∀ l : LineId, (s.line n l).owner ≠ .supervisor) ∧ d = (s.boot.policy.get n).deadlines.toList.getD j 0 ∧
      k < j ∧ j < (s.boot.policy.get n).final :=
    ⟨2, 0x62#8, _, 4, 1, 5, 0, 1, 1, _, _, matched 1 0, rfl, rfl, rfl, by decide +kernel⟩

theorem witness_StagesMoveTheSupervisor_no_deadline :
    ∃ (n : Node) (data : Byte) (c : Console) (p : PageId) (i : Nat) (e : Fin 16) (k j d : Nat) (v : Supervisor) (stored_ s : State),
      c = s.consoles.get n ∧ v = s.supervisor n ∧
      (stored_ = { s with
         ram := Memory.write ramDefault s.ram (512 * p.val + i) [data]
         consoles := s.consoles.set n { c with receiver := .idle, live := c.live + 1, count := c.count + 1 }
         boot := { s.boot with partials := s.boot.partials.set n (Vector.ofFn fun x => (advanceEntry s n data x).1) } }) ∧
      s.phase = .running ∧ c.receiver = .receiving ∧ c.settings.dataBits = 8 ∧ c.settings.parity = .none ∧
      c.locate c.live = some (p, i) ∧ (c.live + 1 - c.oldest).toNat ≠ 512 * c.pages.length ∧
      (c.flood = true ∨ c.count < c.settings.riseThreshold) ∧ completedEntries s n data = [e] ∧
      (s.boot.patterns[e]).isFail = false ∧ (s.boot.patterns[e]).stage = j ∧ v.state = .watching k ∧
      (∀ l : LineId, (s.line n l).owner ≠ .supervisor) ∧ d = (s.boot.policy.get n).deadlines.toList.getD j 0 ∧
      k < j ∧ j < (s.boot.policy.get n).final :=
    ⟨2, 0x62#8, _, 4, 1, 5, 2, 3, 0, _, _, matched 3 2, rfl, rfl, rfl, by decide +kernel⟩

theorem witness_StagesMoveTheSupervisor_final :
    ∃ (n : Node) (data : Byte) (c : Console) (p : PageId) (i : Nat) (e : Fin 16) (k j d : Nat) (v : Supervisor) (stored_ s : State),
      c = s.consoles.get n ∧ v = s.supervisor n ∧
      (stored_ = { s with
         ram := Memory.write ramDefault s.ram (512 * p.val + i) [data]
         consoles := s.consoles.set n { c with receiver := .idle, live := c.live + 1, count := c.count + 1 }
         boot := { s.boot with partials := s.boot.partials.set n (Vector.ofFn fun x => (advanceEntry s n data x).1) } }) ∧
      s.phase = .running ∧ c.receiver = .receiving ∧ c.settings.dataBits = 8 ∧ c.settings.parity = .none ∧
      c.locate c.live = some (p, i) ∧ (c.live + 1 - c.oldest).toNat ≠ 512 * c.pages.length ∧
      (c.flood = true ∨ c.count < c.settings.riseThreshold) ∧ completedEntries s n data = [e] ∧
      (s.boot.patterns[e]).isFail = false ∧ (s.boot.patterns[e]).stage = j ∧ v.state = .watching k ∧
      (∀ l : LineId, (s.line n l).owner ≠ .supervisor) ∧ d = (s.boot.policy.get n).deadlines.toList.getD j 0 ∧
      k < j ∧ (s.boot.policy.get n).final ≤ j :=
    ⟨2, 0x62#8, _, 4, 1, 5, 3, 4, 0, _, _, matched 4 3, rfl, rfl, rfl, by decide +kernel⟩

theorem witness_DeadlineFailureFollowsPolicy_notify :
    ∃ (n : Node) (k left : Nat) (p : Policy) (v w : Supervisor) (s : State),
      v = s.supervisor n ∧ p = s.boot.policy.get n ∧
      w = { v with deadline := none, lastFailure := some .deadline } ∧ s.phase = .running ∧ v.state = .watching k ∧
      v.deadline = some left ∧ p.recovery = .notify :=
    ⟨2, 1, 77, _, _, _, governed (policyOf .notify 4 9 0) (supervised (.watching 1) (onState)), rfl, rfl, rfl,
    by decide +kernel⟩

theorem witness_DeadlineFailureFollowsPolicy_limit :
    ∃ (n : Node) (k left : Nat) (p : Policy) (v w : Supervisor) (s : State),
      v = s.supervisor n ∧ p = s.boot.policy.get n ∧
      w = { v with deadline := none, lastFailure := some .deadline } ∧ s.phase = .running ∧ v.state = .watching k ∧
      v.deadline = some left ∧ p.recovery ≠ .notify ∧ p.limit ≤ v.attempts :=
    ⟨2, 1, 77, _, _, _, governed (policyOf .cycle 4 3 0) (supervised (.watching 1) (onState)), rfl, rfl, rfl,
    by decide +kernel⟩

theorem witness_DeadlineFailureFollowsPolicy_starts :
    ∃ (n : Node) (k left : Nat) (p : Policy) (v w : Supervisor) (s : State) (l : LineId),
      v = s.supervisor n ∧ p = s.boot.policy.get n ∧
      w = { v with deadline := none, lastFailure := some .deadline } ∧ s.phase = .running ∧ v.state = .watching k ∧
      v.deadline = some left ∧ p.recovery = .reset ∧ v.attempts < p.limit ∧
      (p.fallbackFrom = 0 ∨ v.attempts + 1 < p.fallbackFrom) ∧ lineOf s n .reset = some l ∧
      (s.line n l).owner = .none ∧ s.powerState n ≠ .off ∧ s.action n = none :=
    ⟨2, 1, 77, _, _, _, governed (policyOf .reset 4 4 5) (supervised (.watching 1) (onState)), 1, rfl, rfl, rfl,
    by decide +kernel⟩

theorem witness_DeadlineFailureFollowsPolicy_waits :
    ∃ (n : Node) (k left : Nat) (p : Policy) (v w : Supervisor) (s : State) (a : Action) (l u : LineId) (x : UnitId),
      v = s.supervisor n ∧ p = s.boot.policy.get n ∧
      w = { v with deadline := none, lastFailure := some .deadline } ∧ s.phase = .running ∧ v.state = .watching k ∧
      v.deadline = some left ∧ p.recovery = .cycle ∧ v.attempts < p.limit ∧ s.action n = some a ∧
      lineOf s n .powerButton = some u ∧ p.fallbackFrom ≠ 0 ∧ p.fallbackFrom ≤ v.attempts + 1 ∧
      (s.units.get x).nodes.get n = true ∧ lineOf s n .bootSelect = some l ∧ (s.line n l).owner = .none :=
    ⟨2, 1, 77, _, _, _,
    governed (policyOf .cycle 4 4 4) (supervised (.watching 1) ({ acting (hostAction .reset .resetPulse (some 1)) onState with units := served.units })),
    hostAction .reset .resetPulse (some 1), 3, 0, 2, rfl, rfl, rfl, by decide +kernel⟩

theorem witness_DeadlineFailureFollowsPolicy_refused :
    ∃ (n : Node) (k left : Nat) (p : Policy) (v w : Supervisor) (s : State),
      v = s.supervisor n ∧ p = s.boot.policy.get n ∧
      w = { v with deadline := none, lastFailure := some .deadline } ∧ s.phase = .running ∧ v.state = .watching k ∧
      v.deadline = some left ∧ p.recovery = .reset ∧ v.attempts < p.limit ∧
      (p.fallbackFrom = 0 ∨ v.attempts + 1 < p.fallbackFrom) ∧ lineOf s n .reset = none :=
    ⟨2, 1, 77, _, _, _, governed (policyOf .reset 4 4 5) (supervised (.watching 1) (ready)), rfl, rfl, rfl,
    by decide +kernel⟩

theorem witness_FrameErrorsAreCountedAndReported_hunting :
    ∃ (b : Byte) (len : BitVec 16) (failed : LinkCounters → State) (s : State),
      (∀ c : LinkCounters, failed c
        = { s with link := ({ s.link with receiver := none, counters := c } : Link).addNotice (.linkError c) }) ∧
      s.phase = .running ∧ b ≠ 0x85#8 ∧ b ≠ 0x86#8 ∧ b ≠ 0xA5#8 ∧ 600 < len.toNat ∧ s.link.receiver = none :=
    ⟨0x20#8, 601#16, linkFailed (buffered none [0, 2] ready), buffered none [0, 2] ready, fun _ => rfl,
    by decide +kernel⟩

theorem witness_FrameErrorsAreCountedAndReported_in_frame :
    ∃ (b : Byte) (len : BitVec 16) (failed : LinkCounters → State) (s : State),
      (∀ c : LinkCounters, failed c
        = { s with link := ({ s.link with receiver := none, counters := c } : Link).addNotice (.linkError c) }) ∧
      s.phase = .running ∧ b ≠ 0x85#8 ∧ b ≠ 0x86#8 ∧ b ≠ 0xA5#8 ∧ 600 < len.toNat ∧ s.link.receiver ≠ none :=
    ⟨0x20#8, 601#16, linkFailed (buffered (some 1) [0, 2] ready), buffered (some 1) [0, 2] ready, fun _ => rfl,
    by decide +kernel⟩

theorem witness_FrameErrorsAreCountedAndReported_restart :
    ∃ (b : Byte) (len : BitVec 16) (failed : LinkCounters → State) (s : State) (x : Fin 4) (t : State),
      (∀ c : LinkCounters, failed c
        = { s with link := ({ s.link with receiver := none, counters := c } : Link).addNotice (.linkError c) }) ∧
      t = failed { s.link.counters with truncated := s.link.counters.truncated + 1 } ∧ s.phase = .running ∧
      b ≠ 0x85#8 ∧ b ≠ 0x86#8 ∧ b ≠ 0xA5#8 ∧ 600 < len.toNat ∧ s.link.receiver ≠ none ∧
      (∀ f ∈ s.link.inbox, f.buffer ≠ x) ∧ (∀ y : Fin 4, y < x → ∃ f ∈ s.link.inbox, f.buffer = y) :=
    ⟨0x20#8, 601#16, linkFailed (buffered (some 1) [0, 2] ready), buffered (some 1) [0, 2] ready, 1, _,
    fun _ => rfl, rfl, by decide +kernel⟩

theorem witness_FrameErrorsAreCountedAndReported_lowest_buffer :
    ∃ (b : Byte) (len : BitVec 16) (failed : LinkCounters → State) (s : State) (x : Fin 4),
      (∀ c : LinkCounters, failed c
        = { s with link := ({ s.link with receiver := none, counters := c } : Link).addNotice (.linkError c) }) ∧
      s.phase = .running ∧ b ≠ 0x85#8 ∧ b ≠ 0x86#8 ∧ b ≠ 0xA5#8 ∧ 600 < len.toNat ∧ s.link.receiver = none ∧
      (∀ f ∈ s.link.inbox, f.buffer ≠ x) ∧ (∀ y : Fin 4, y < x → ∃ f ∈ s.link.inbox, f.buffer = y) :=
    ⟨0x20#8, 601#16, linkFailed (buffered none [0, 2] ready), buffered none [0, 2] ready, 1, fun _ => rfl,
    by decide +kernel⟩

theorem witness_FrameErrorsAreCountedAndReported_overrun :
    ∃ (b : Byte) (len : BitVec 16) (failed : LinkCounters → State) (s : State),
      (∀ c : LinkCounters, failed c
        = { s with link := ({ s.link with receiver := none, counters := c } : Link).addNotice (.linkError c) }) ∧
      s.phase = .running ∧ b ≠ 0x85#8 ∧ b ≠ 0x86#8 ∧ b ≠ 0xA5#8 ∧ 600 < len.toNat ∧ s.link.receiver = none ∧
      (∀ x : Fin 4, ∃ f ∈ s.link.inbox, f.buffer = x) :=
    ⟨0x20#8, 601#16, linkFailed (buffered none [0, 2, 3, 1] ready), buffered none [0, 2, 3, 1] ready, fun _ => rfl,
    by decide +kernel⟩

theorem witness_FrameErrorsAreCountedAndReported_malformed :
    ∃ (b : Byte) (len : BitVec 16) (kind : Byte) (body : List Byte) (failed : LinkCounters → State) (s : State),
      (∀ c : LinkCounters, failed c
        = { s with link := ({ s.link with receiver := none, counters := c } : Link).addNotice (.linkError c) }) ∧
      s.phase = .running ∧ b ≠ 0x85#8 ∧ b ≠ 0x86#8 ∧ b ≠ 0xA5#8 ∧ 600 < len.toNat ∧ body.length ≤ 600 ∧
      (kind = 0x70#8 ∧ body.length ≠ 516 ∨ (kind = 0x71#8 ∨ kind = 0x72#8 ∨ kind = 0x73#8) ∧ body ≠ []) ∧
      frameBuffer s.link ≠ none :=
    ⟨0x20#8, 601#16, 0x70#8, [], linkFailed (buffered none [0, 2] ready), buffered none [0, 2] ready, fun _ => rfl,
    by decide +kernel⟩

theorem witness_FrameErrorsAreCountedAndReported_malformed_stored :
    ∃ (b : Byte) (len : BitVec 16) (kind : Byte) (body : List Byte) (failed : LinkCounters → State) (s : State),
      (∀ c : LinkCounters, failed c
        = { s with link := ({ s.link with receiver := none, counters := c } : Link).addNotice (.linkError c) }) ∧
      s.phase = .running ∧ b ≠ 0x85#8 ∧ b ≠ 0x86#8 ∧ b ≠ 0xA5#8 ∧ 600 < len.toNat ∧ body.length ≤ 600 ∧
      (kind = 0x70#8 ∧ body.length ≠ 516 ∨ (kind = 0x71#8 ∨ kind = 0x72#8 ∨ kind = 0x73#8) ∧ body ≠ []) ∧
      frameBuffer s.link ≠ none :=
    ⟨0x20#8, 601#16, 0x72#8, [1#8], linkFailed (buffered (some 1) [0, 2] ready), buffered (some 1) [0, 2] ready,
    fun _ => rfl, by decide +kernel⟩

theorem witness_StrayAnswersChangeNothing_generation :
    ∃ (tag : Tag) (data : List Byte) (t s : State),
      (t = { s with
       link := ({ s.link with
         receiver := none, counters := { s.link.counters with stray := s.link.counters.stray + 1 } } : Link).addNotice
           (.strayAnswer (s.link.counters.stray + 1)) }) ∧
      s.phase = .running ∧ frameBuffer s.link ≠ none ∧ data.length = 512 ∧
      (∀ i : Fin 16, (s.cache.fetches[i]).busy ≠ none → tag.toNat ≠ (s.cache.fetches[i]).generation.toNat * 256 + i.val) :=
    ⟨0x0200#16, block 1, _, readingState, rfl, by decide +kernel⟩

theorem witness_StrayAnswersChangeNothing_store_entry :
    ∃ (tag : Tag) (data : List Byte) (t s : State),
      (t = { s with
       link := ({ s.link with
         receiver := none, counters := { s.link.counters with stray := s.link.counters.stray + 1 } } : Link).addNotice
           (.strayAnswer (s.link.counters.stray + 1)) }) ∧
      s.phase = .running ∧ frameBuffer s.link ≠ none ∧ data.length = 512 ∧
      (∀ i : Fin 8, (s.cache.stores[i]).busy ≠ none → tag.toNat ≠ (s.cache.stores[i]).generation.toNat * 256 + (16 + i.val)) :=
    ⟨0x0111#16, block 1, _, writingState, rfl, by decide +kernel⟩

theorem witness_StrayAnswersChangeNothing_outside :
    ∃ (tag : Tag) (lba : Word) (data : List Byte) (t s : State) (i : Fin 16) (f : Fetch),
      (t = { s with
       link := ({ s.link with
         receiver := none, counters := { s.link.counters with stray := s.link.counters.stray + 1 } } : Link).addNotice
           (.strayAnswer (s.link.counters.stray + 1)) }) ∧
      s.phase = .running ∧ frameBuffer s.link ≠ none ∧ data.length = 512 ∧ (s.cache.fetches[i]).busy = some f ∧
      tag.toNat = (s.cache.fetches[i]).generation.toNat * 256 + i.val ∧
      (lba.toNat < f.first ∨ f.first + f.blocks.length ≤ lba.toNat ∨ f.blocks[lba.toNat - f.first]? = some .received) :=
    ⟨0x0100#16, 7#32, block 1, _, readingState, 0,
    { unit := 1, first := 3, blocks := [.waiting, .waiting, .waiting, .waiting], created := 0 }, rfl,
    by decide +kernel⟩

theorem witness_ArbiterChoosesByRatio_cts_high :
    ∃ (pins : ArbiterPins) (k : Link) (s : State),
      k = { s.link with cts := pins.cts } ∧ s.phase = .running ∧ s.link.inbox = [] ∧
      (∀ e ∈ s.link.notices, e.notice.isStart = false) ∧
      (s.link.sending ≠ none ∨ pins.cts = .high ∨ (s.link.replies = [] ∧ s.link.notices = [] ∧ s.link.calls = [] ∧ ∀ n : Node, (s.consoles.get n).hasBulk = false)) :=
    ⟨{ cts := .high, nodes := ⟨Per4.all .low, Per4.all false⟩ }, _, readingState, rfl, by decide +kernel⟩

theorem witness_ArbiterChoosesByRatio_nothing :
    ∃ (pins : ArbiterPins) (k : Link) (s : State),
      k = { s.link with cts := pins.cts } ∧ s.phase = .running ∧ s.link.inbox = [] ∧
      (∀ e ∈ s.link.notices, e.notice.isStart = false) ∧
      (s.link.sending ≠ none ∨ pins.cts = .high ∨ (s.link.replies = [] ∧ s.link.notices = [] ∧ s.link.calls = [] ∧ ∀ n : Node, (s.consoles.get n).hasBulk = false)) :=
    ⟨{ cts := .low, nodes := ⟨Per4.all .low, Per4.all false⟩ }, _, ready, rfl, by decide +kernel⟩

theorem witness_ArbiterChoosesByRatio_reply_at_limit :
    ∃ (pins : ArbiterPins) (k : Link) (s : State) (r : Reply) (rest : List Reply),
      k = { s.link with cts := pins.cts } ∧ s.phase = .running ∧ s.link.inbox = [] ∧
      (∀ e ∈ s.link.notices, e.notice.isStart = false) ∧ s.link.sending = none ∧ pins.cts = .low ∧
      (s.link.runCount < s.link.ratio ∨ (s.link.calls = [] ∧ ∀ n : Node, (s.consoles.get n).hasBulk = false)) ∧
      s.link.replies = r :: rest ∧ rest.length < 16 :=
    ⟨{ cts := .low, nodes := ⟨Per4.all .low, Per4.all false⟩ }, _, mixed 3, { tag := 1, body := [2#8, 0#8], rate := some 300000 },
    List.replicate 15 { tag := 2, body := [1#8, 0xA5#8], rate := none }, rfl, by decide +kernel⟩

theorem witness_ArbiterChoosesByRatio_notice :
    ∃ (pins : ArbiterPins) (k : Link) (s : State) (e : NoticeEntry) (rest : List NoticeEntry),
      k = { s.link with cts := pins.cts } ∧ s.phase = .running ∧ s.link.inbox = [] ∧
      (∀ e ∈ s.link.notices, e.notice.isStart = false) ∧ s.link.sending = none ∧ pins.cts = .low ∧
      (s.link.runCount < s.link.ratio ∨ (s.link.calls = [] ∧ ∀ n : Node, (s.consoles.get n).hasBulk = false)) ∧
      s.link.replies = [] ∧ s.link.notices = e :: rest :=
    ⟨{ cts := .low, nodes := ⟨Per4.all .low, Per4.all false⟩ }, _,
    { mixed 3 with link := { (mixed 3).link with replies := [], waiting := [] } },
    { notice := .strayAnswer 3, lostBefore := 0, occurrences := 1 },
    [{ notice := .flood 2 true 4, lostBefore := 3, occurrences := 1 }], rfl, by decide +kernel⟩

theorem witness_ArbiterChoosesByRatio_fetch :
    ∃ (pins : ArbiterPins) (k : Link) (s : State) (i : Fin 16) (f : Fetch) (rest : List Call),
      k = { s.link with cts := pins.cts } ∧ s.phase = .running ∧ s.link.inbox = [] ∧
      (∀ e ∈ s.link.notices, e.notice.isStart = false) ∧ s.link.sending = none ∧ pins.cts = .low ∧
      ((s.link.replies = [] ∧ s.link.notices = []) ∨ s.link.ratio ≤ s.link.runCount) ∧
      s.link.calls = .fetch i :: rest ∧ (s.cache.fetches[i]).busy = some f :=
    ⟨{ cts := .low, nodes := ⟨Per4.all .low, Per4.all false⟩ }, _, mixed 4, 0,
    { unit := 1, first := 3, blocks := [.waiting, .waiting, .waiting, .waiting], created := 0 }, [], rfl,
    by decide +kernel⟩

theorem witness_ArbiterChoosesByRatio_store :
    ∃ (pins : ArbiterPins) (k : Link) (s : State) (i : Fin 8) (x : Store) (rest : List Call),
      k = { s.link with cts := pins.cts } ∧ s.phase = .running ∧ s.link.inbox = [] ∧
      (∀ e ∈ s.link.notices, e.notice.isStart = false) ∧ s.link.sending = none ∧ pins.cts = .low ∧
      ((s.link.replies = [] ∧ s.link.notices = []) ∨ s.link.ratio ≤ s.link.runCount) ∧
      s.link.calls = .store i :: rest ∧ (s.cache.stores[i]).busy = some x :=
    ⟨{ cts := .low, nodes := ⟨Per4.all .low, Per4.all false⟩ }, _, writingState, 0,
    { unit := 1, lba := 9, page := 12, created := 0 }, [], rfl, by decide +kernel⟩

theorem witness_ArbiterChoosesByRatio_second_node :
    ∃ (pins : ArbiterPins) (k : Link) (s : State) (n : Node) (x : Word) (d count : Nat),
      k = { s.link with cts := pins.cts } ∧
      (∀ e : Nat, 1 ≤ e → e < d → (s.consoles.get (s.link.lastServed + Fin.ofNat 4 e)).hasBulk = false) ∧
      s.phase = .running ∧ s.link.inbox = [] ∧ (∀ e ∈ s.link.notices, e.notice.isStart = false) ∧
      s.link.sending = none ∧ pins.cts = .low ∧
      ((s.link.replies = [] ∧ s.link.notices = []) ∨ s.link.ratio ≤ s.link.runCount) ∧ s.link.calls = [] ∧
      (s.consoles.get n).hasBulk = true ∧ (s.consoles.get n).cursor = some x ∧ 1 ≤ d ∧ d ≤ 4 ∧
      n = s.link.lastServed + Fin.ofNat 4 d ∧ count = min 256 ((s.consoles.get n).live - x).toNat :=
    ⟨{ cts := .low, nodes := ⟨Per4.all .low, Per4.all false⟩ }, _,
    console (fun c => { c with live := 300, cursor := some 0 }) ready, 1, 0, 2, 256, rfl,
    fun e h1 h2 => by interval_cases e; decide +kernel, by decide +kernel⟩

theorem witness_ArbiterChoosesByRatio_last_node :
    ∃ (pins : ArbiterPins) (k : Link) (s : State) (n : Node) (x : Word) (d count : Nat),
      k = { s.link with cts := pins.cts } ∧
      (∀ e : Nat, 1 ≤ e → e < d → (s.consoles.get (s.link.lastServed + Fin.ofNat 4 e)).hasBulk = false) ∧
      s.phase = .running ∧ s.link.inbox = [] ∧ (∀ e ∈ s.link.notices, e.notice.isStart = false) ∧
      s.link.sending = none ∧ pins.cts = .low ∧
      ((s.link.replies = [] ∧ s.link.notices = []) ∨ s.link.ratio ≤ s.link.runCount) ∧ s.link.calls = [] ∧
      (s.consoles.get n).hasBulk = true ∧ (s.consoles.get n).cursor = some x ∧ 1 ≤ d ∧ d ≤ 4 ∧
      n = s.link.lastServed + Fin.ofNat 4 d ∧ count = min 256 ((s.consoles.get n).live - x).toNat :=
    ⟨{ cts := .low, nodes := ⟨Per4.all .low, Per4.all false⟩ }, _,
    console (fun c => { c with live := 300, cursor := some 0 }) { ready with link := { ready.link with lastServed := 1 } },
    1, 0, 4, 256, rfl, fun e h1 h2 => by interval_cases e <;> decide +kernel, by decide +kernel⟩

theorem witness_ArbiterChoosesByRatio_sent :
    ∃ (w : List Byte) (s : State),
      s.phase = .running ∧ s.link.sending = some { wire := w, effect := .none } :=
    ⟨[1#8], { ready with link := { ready.link with sending := some { wire := [1#8], effect := .none } } },
    by decide +kernel⟩

theorem witness_ArbiterChoosesByRatio_start_sent :
    ∃ (w : List Byte) (s : State),
      s.phase = .running ∧ s.link.sending = some { wire := w, effect := .start } :=
    ⟨[1#8], { ready with link := { ready.link with sending := some { wire := [1#8], effect := .start } } },
    by decide +kernel⟩

theorem witness_ArbiterChoosesByRatio_rate_sent :
    ∃ (w : List Byte) (s : State) (x : Nat),
      s.phase = .running ∧ s.link.sending = some { wire := w, effect := .rate x } :=
    ⟨[1#8], { ready with link := { ready.link with sending := some { wire := [1#8], effect := .rate 300000 } } },
    300000, by decide +kernel⟩

theorem witness_ArbiterChoosesByRatio_idle :
    ∃ (s : State),
      s.phase = .running ∧ s.link.sending = none :=
    ⟨ready, by decide +kernel⟩

theorem witness_ArbiterChoosesByRatio_waiting_status :
    ∃ (pins : ArbiterPins) (f : InFrame) (n : Node) (b : Byte) (r : Reply) (rest : List Reply) (s : State),
      s.phase = .running ∧ s.link.inbox = [f] ∧ f.kind = 0x35#8 ∧ f.body = [b] ∧ b.toNat = n.val ∧
      (∀ e ∈ s.link.notices, e.notice.isStart = false) ∧ s.link.sending = none ∧ pins.cts = .low ∧
      s.link.runCount < s.link.ratio ∧ s.link.waiting = [] ∧ s.link.replies = r :: rest ∧ rest.length < 16 :=
    ⟨{ cts := .low, nodes := ⟨⟨.high, .high, .low, .high⟩, Per4.all false⟩ },
    { buffer := 0, kind := 0x35#8, tag := 9, body := [2#8] }, 2, 2#8,
    { tag := 1, body := [2#8, 0#8], rate := none },
    List.replicate 15 { tag := 2, body := [1#8, 0xA5#8], rate := none }, statusWaits, by decide +kernel⟩

theorem witness_ArbiterChoosesByRatio_on_the_wire :
    ∃ (x : Sending) (s : State) (i j : Nat) (b : Byte),
      s.phase = .running ∧ s.link.sending = some x ∧ x.wire[i]? = some b ∧ j < 8 :=
    ⟨{ wire := [1#8, 0xA5#8], effect := .none },
    { ready with link := { ready.link with sending := some { wire := [1#8, 0xA5#8], effect := .none } } },
    1, 7, 0xA5#8, by decide +kernel⟩

theorem witness_ArbiterChoosesByRatio_after_the_last_bit :
    ∃ (x : Sending) (s : State) (i : Nat),
      s.phase = .running ∧ s.link.sending = some x ∧ 10 * x.wire.length ≤ i :=
    ⟨{ wire := [1#8, 0xA5#8], effect := .none },
    { ready with link := { ready.link with sending := some { wire := [1#8, 0xA5#8], effect := .none } } },
    20, by decide +kernel⟩

theorem witness_ArbiterChoosesByRatio_not_running :
    ∃ (s : State), s.link.sending = none ∨ s.phase ≠ .running :=
    ⟨State.reset, by decide +kernel⟩

theorem witness_LinkConfigAppliesWithItsReply_slowest :
    ∃ (b0 b1 b2 b3 rb : Byte) (baud ratio div : Nat) (c : LinkCounters) (s : State),
      c = s.link.counters ∧
      baud = (if u32 b0 b1 b2 b3 = 0 then s.link.baud else max 115200 (min 12000000 (u32 b0 b1 b2 b3))) ∧
      ratio = (if rb = 0#8 then s.link.ratio else min 15 rb.toNat) ∧
      div = max 1 (min 104 ((2 * 48000000 + 4 * baud) / (8 * baud))) ∧ RequestReady s :=
    ⟨0#8, 0#8, 0#8, 1#8, 99#8, _, _, _, _, ready, rfl, rfl, rfl, rfl, by decide +kernel⟩

theorem witness_LinkConfigAppliesWithItsReply_fastest :
    ∃ (b0 b1 b2 b3 rb : Byte) (baud ratio div : Nat) (c : LinkCounters) (s : State),
      c = s.link.counters ∧
      baud = (if u32 b0 b1 b2 b3 = 0 then s.link.baud else max 115200 (min 12000000 (u32 b0 b1 b2 b3))) ∧
      ratio = (if rb = 0#8 then s.link.ratio else min 15 rb.toNat) ∧
      div = max 1 (min 104 ((2 * 48000000 + 4 * baud) / (8 * baud))) ∧ RequestReady s :=
    ⟨0#8, 0xFF#8, 0#8, 1#8, 0#8, _, _, _, _, ready, rfl, rfl, rfl, rfl, by decide +kernel⟩

theorem witness_LinkConfigAppliesWithItsReply_kept :
    ∃ (b0 b1 b2 b3 rb : Byte) (baud ratio div : Nat) (c : LinkCounters) (s : State),
      c = s.link.counters ∧
      baud = (if u32 b0 b1 b2 b3 = 0 then s.link.baud else max 115200 (min 12000000 (u32 b0 b1 b2 b3))) ∧
      ratio = (if rb = 0#8 then s.link.ratio else min 15 rb.toNat) ∧
      div = max 1 (min 104 ((2 * 48000000 + 4 * baud) / (8 * baud))) ∧ RequestReady s :=
    ⟨0#8, 0#8, 0#8, 0#8, 0#8, _, _, _, _, ready, rfl, rfl, rfl, rfl, by decide +kernel⟩

theorem witness_LinkConfigAppliesWithItsReply_unknown :
    ∃ (kind : Byte) (body : List Byte) (s : State),
      RequestReady s ∧ body.length ≤ 600 ∧ isRequestKind kind = false ∧ isAnswerKind kind = false :=
    ⟨0x80#8, [1#8], ready, by decide +kernel⟩

theorem witness_ClearEmptiesEveryBlockAndKeepsSettings :
    ∃ (s : State),
      RequestReady s ∧ UnitLaw s ∧ OwnerLaw s ∧ (∀ n : Node, hostActionRuns s n = false) ∧
      (∀ n : Node, breakUnanswered s n = false) ∧ (∀ u : UnitId, (s.units.get u).detachTag = none) :=
    ⟨watching (selecting writingWired), by decide +kernel⟩

theorem witness_SavePhasesWriteTheImage_idle :
    ∃ (s : State),
      RequestReady s ∧ s.loader.save = .idle :=
    ⟨ready, by decide +kernel⟩

theorem witness_SavePhasesWriteTheImage_busy :
    ∃ (s : State),
      RequestReady s ∧ s.loader.save ≠ .idle :=
    ⟨saving .sealing ready, by decide +kernel⟩

theorem witness_SavePhasesWriteTheImage_invalidating :
    ∃ (image : List Byte) (tag : Tag) (s : State),
      s.phase = .running ∧ s.loader.snapshot = some image ∧ s.loader.saveTag = some tag :=
    ⟨ready.settings.image, 5, saving .invalidating ready, by decide +kernel⟩

theorem witness_SavePhasesWriteTheImage_writing :
    ∃ (image : List Byte) (tag : Tag) (s : State),
      s.phase = .running ∧ s.loader.snapshot = some image ∧ s.loader.saveTag = some tag :=
    ⟨ready.settings.image, 5, saving .writing ready, by decide +kernel⟩

theorem witness_SavePhasesWriteTheImage_sealing :
    ∃ (image : List Byte) (tag : Tag) (s : State),
      s.phase = .running ∧ s.loader.snapshot = some image ∧ s.loader.saveTag = some tag :=
    ⟨ready.settings.image, 5, saving .sealing ready, by decide +kernel⟩

theorem witness_SavePhasesWriteTheImage_read_back_agrees :
    ∃ (image : List Byte) (tag : Tag) (s : State),
      (∀ a : Nat, a < 794 → Memory.read eepromDefault s.loader.eeprom a = image.getD a 0xFF#8) ∧
      s.phase = .running ∧ s.loader.snapshot = some image ∧ s.loader.saveTag = some tag ∧ s.loader.save = .verifying :=
    ⟨ready.settings.image, 5, sealed, sealed_agrees, by decide +kernel⟩

theorem witness_SavePhasesWriteTheImage_read_back :
    ∃ (image : List Byte) (tag : Tag) (s : State) (d : ReadFault),
      (∀ a : Nat, a < 794 → Memory.read eepromDefault s.loader.eeprom a = image.getD a 0xFF#8) ∧
      s.phase = .running ∧ s.loader.snapshot = some image ∧ s.loader.saveTag = some tag ∧
      s.loader.save = .verifying ∧ d.address < 794 ∧ d.inMemory = false ∧ d.value ≠ image.getD d.address 0xFF#8 :=
    ⟨ready.settings.image, 5, sealed, { address := 793, value := 0x77#8, inMemory := false }, sealed_agrees,
    by decide +kernel⟩

theorem witness_SavePhasesWriteTheImage_last_address :
    ∃ (image : List Byte) (tag : Tag) (s : State) (address : Nat),
      s.phase = .running ∧ s.loader.snapshot = some image ∧ s.loader.saveTag = some tag ∧ address < 794 ∧
      s.loader.save = .verifying :=
    ⟨ready.settings.image, 5, saving .verifying ready, 793, by decide +kernel⟩

theorem witness_SavePhasesWriteTheImage_no_ack_invalidating :
    ∃ (image : List Byte) (tag : Tag) (s : State) (address taken : Nat) (unsigned left : List Host.Cell),
      unsigned = Memory.write eepromDefault s.loader.eeprom 0 [0xFF#8, 0xFF#8] ∧
      ((s.loader.save = .invalidating ∧ left = unsigned) ∨ (s.loader.save = .writing ∧ left = Memory.write eepromDefault unsigned 2 ((image.drop 2).take (max (32 * (address / 32) - 2) (min (32 * (address / 32 + 1) - 2) taken)))) ∨ (s.loader.save = .sealing ∧ left = Memory.write eepromDefault unsigned 0 (([0x43#8, 0x44#8] : List Byte).take taken))) ∧
      s.phase = .running ∧ s.loader.snapshot = some image ∧ s.loader.saveTag = some tag ∧ address < 794 :=
    ⟨ready.settings.image, 5, saving .invalidating ready, 0, 1, _, _, rfl, .inl ⟨rfl, rfl⟩, by decide +kernel⟩

theorem witness_SavePhasesWriteTheImage_no_ack_writing :
    ∃ (image : List Byte) (tag : Tag) (s : State) (address taken : Nat) (unsigned left : List Host.Cell),
      unsigned = Memory.write eepromDefault s.loader.eeprom 0 [0xFF#8, 0xFF#8] ∧
      ((s.loader.save = .invalidating ∧ left = unsigned) ∨ (s.loader.save = .writing ∧ left = Memory.write eepromDefault unsigned 2 ((image.drop 2).take (max (32 * (address / 32) - 2) (min (32 * (address / 32 + 1) - 2) taken)))) ∨ (s.loader.save = .sealing ∧ left = Memory.write eepromDefault unsigned 0 (([0x43#8, 0x44#8] : List Byte).take taken))) ∧
      s.phase = .running ∧ s.loader.snapshot = some image ∧ s.loader.saveTag = some tag ∧ address < 794 :=
    ⟨ready.settings.image, 5, saving .writing ready, 793, 1, _, _, rfl, .inr (.inl ⟨rfl, rfl⟩), by decide +kernel⟩

theorem witness_SavePhasesWriteTheImage_no_ack_sealing :
    ∃ (image : List Byte) (tag : Tag) (s : State) (address taken : Nat) (unsigned left : List Host.Cell),
      unsigned = Memory.write eepromDefault s.loader.eeprom 0 [0xFF#8, 0xFF#8] ∧
      ((s.loader.save = .invalidating ∧ left = unsigned) ∨ (s.loader.save = .writing ∧ left = Memory.write eepromDefault unsigned 2 ((image.drop 2).take (max (32 * (address / 32) - 2) (min (32 * (address / 32 + 1) - 2) taken)))) ∨ (s.loader.save = .sealing ∧ left = Memory.write eepromDefault unsigned 0 (([0x43#8, 0x44#8] : List Byte).take taken))) ∧
      s.phase = .running ∧ s.loader.snapshot = some image ∧ s.loader.saveTag = some tag ∧ address < 794 :=
    ⟨ready.settings.image, 5, saving .sealing ready, 1, 1, _, _, rfl, .inr (.inr ⟨rfl, rfl⟩), by decide +kernel⟩

theorem witness_ResetThenLoadPutsSettingsInForce_running :
    ∃ (s : State),
      (s.loader.save = .idle ∨ s.loader.save = .verifying) :=
    ⟨readingState, by decide +kernel⟩

theorem witness_ResetThenLoadPutsSettingsInForce_verifying :
    ∃ (s : State),
      (s.loader.save = .idle ∨ s.loader.save = .verifying) :=
    ⟨saving .verifying ready, by decide +kernel⟩

theorem witness_ResetThenLoadPutsSettingsInForce_invalidating :
    ∃ (taken : Nat) (image : List Byte) (unsigned left : List Host.Cell) (s : State),
      unsigned = Memory.write eepromDefault s.loader.eeprom 0 [0xFF#8, 0xFF#8] ∧
      ((s.loader.save = .invalidating ∧ left = unsigned) ∨ (s.loader.save = .writing ∧ s.loader.snapshot = some image ∧ left = Memory.write eepromDefault unsigned 2 ((image.drop 2).take taken)) ∨ (s.loader.save = .sealing ∧ left = Memory.write eepromDefault unsigned 0 (([0x43#8, 0x44#8] : List Byte).take taken))) :=
    ⟨1, ready.settings.image, _, _, saving .invalidating ready, rfl, .inl ⟨rfl, rfl⟩⟩

theorem witness_ResetThenLoadPutsSettingsInForce_writing :
    ∃ (taken : Nat) (image : List Byte) (unsigned left : List Host.Cell) (s : State),
      unsigned = Memory.write eepromDefault s.loader.eeprom 0 [0xFF#8, 0xFF#8] ∧
      ((s.loader.save = .invalidating ∧ left = unsigned) ∨ (s.loader.save = .writing ∧ s.loader.snapshot = some image ∧ left = Memory.write eepromDefault unsigned 2 ((image.drop 2).take taken)) ∨ (s.loader.save = .sealing ∧ left = Memory.write eepromDefault unsigned 0 (([0x43#8, 0x44#8] : List Byte).take taken))) :=
    ⟨1, ready.settings.image, _, _, saving .writing ready, rfl, .inr (.inl ⟨rfl, rfl, rfl⟩)⟩

theorem witness_ResetThenLoadPutsSettingsInForce_sealing :
    ∃ (taken : Nat) (image : List Byte) (unsigned left : List Host.Cell) (s : State),
      unsigned = Memory.write eepromDefault s.loader.eeprom 0 [0xFF#8, 0xFF#8] ∧
      ((s.loader.save = .invalidating ∧ left = unsigned) ∨ (s.loader.save = .writing ∧ s.loader.snapshot = some image ∧ left = Memory.write eepromDefault unsigned 2 ((image.drop 2).take taken)) ∨ (s.loader.save = .sealing ∧ left = Memory.write eepromDefault unsigned 0 (([0x43#8, 0x44#8] : List Byte).take taken))) :=
    ⟨1, ready.settings.image, _, _, saving .sealing ready, rfl, .inr (.inr ⟨rfl, rfl⟩)⟩

theorem witness_ResetThenLoadPutsSettingsInForce_no_device :
    ∃ (found : LoadRead) (image : List Byte) (checked : Nat) (o : LoadOutcome) (s : State),
      ((found.image = none ∧ image = (List.range 794).map (Memory.read eepromDefault s.loader.eeprom)) ∨ (found.image = some image ∧ image.length = 794 ∧ MemoryLaw s)) ∧
      checked = (if image.take 2 ≠ [0x43#8, 0x44#8] then 2 else if (image.drop 2).take 3 ≠ [0x03#8, 0x13#8, 1#8] then 5 else 794) ∧
      (o = (if found.bus.sdaFreeAfter.any (fun k => k ≤ 9) ∧ found.bus.acknowledgedAfter.any (fun t => t ≤ 10000) ∧ found.bus.lostAfter.all (fun k => 3 + checked ≤ k) then judgeImage image else failedLoad .noDevice .none)) ∧
      s.phase = .loading :=
    ⟨.noDevice, _, _, _, { State.reset with phase := .loading }, .inl ⟨rfl, rfl⟩, rfl, rfl, by decide +kernel⟩

theorem witness_ResetThenLoadPutsSettingsInForce_acknowledged_late :
    ∃ (found : LoadRead) (image : List Byte) (checked : Nat) (o : LoadOutcome) (s : State),
      ((found.image = none ∧ image = (List.range 794).map (Memory.read eepromDefault s.loader.eeprom)) ∨ (found.image = some image ∧ image.length = 794 ∧ MemoryLaw s)) ∧
      checked = (if image.take 2 ≠ [0x43#8, 0x44#8] then 2 else if (image.drop 2).take 3 ≠ [0x03#8, 0x13#8, 1#8] then 5 else 794) ∧
      (o = (if found.bus.sdaFreeAfter.any (fun k => k ≤ 9) ∧ found.bus.acknowledgedAfter.any (fun t => t ≤ 10000) ∧ found.bus.lostAfter.all (fun k => 3 + checked ≤ k) then judgeImage image else failedLoad .noDevice .none)) ∧
      s.phase = .loading :=
    ⟨{ LoadRead.asStored with bus := ⟨some 9, some 10000, none⟩ }, _, _, _, { State.reset with phase := .loading },
    .inl ⟨rfl, rfl⟩, rfl, rfl, by decide +kernel⟩

theorem witness_ResetThenLoadPutsSettingsInForce_sda_held :
    ∃ (found : LoadRead) (image : List Byte) (checked : Nat) (o : LoadOutcome) (s : State),
      ((found.image = none ∧ image = (List.range 794).map (Memory.read eepromDefault s.loader.eeprom)) ∨ (found.image = some image ∧ image.length = 794 ∧ MemoryLaw s)) ∧
      checked = (if image.take 2 ≠ [0x43#8, 0x44#8] then 2 else if (image.drop 2).take 3 ≠ [0x03#8, 0x13#8, 1#8] then 5 else 794) ∧
      (o = (if found.bus.sdaFreeAfter.any (fun k => k ≤ 9) ∧ found.bus.acknowledgedAfter.any (fun t => t ≤ 10000) ∧ found.bus.lostAfter.all (fun k => 3 + checked ≤ k) then judgeImage image else failedLoad .noDevice .none)) ∧
      s.phase = .loading :=
    ⟨{ LoadRead.asStored with bus := ⟨some 10, some 0, none⟩ }, _, _, _, { State.reset with phase := .loading },
    .inl ⟨rfl, rfl⟩, rfl, rfl, by decide +kernel⟩

theorem witness_ResetThenLoadPutsSettingsInForce_not_acknowledged :
    ∃ (found : LoadRead) (image : List Byte) (checked : Nat) (o : LoadOutcome) (s : State),
      ((found.image = none ∧ image = (List.range 794).map (Memory.read eepromDefault s.loader.eeprom)) ∨ (found.image = some image ∧ image.length = 794 ∧ MemoryLaw s)) ∧
      checked = (if image.take 2 ≠ [0x43#8, 0x44#8] then 2 else if (image.drop 2).take 3 ≠ [0x03#8, 0x13#8, 1#8] then 5 else 794) ∧
      (o = (if found.bus.sdaFreeAfter.any (fun k => k ≤ 9) ∧ found.bus.acknowledgedAfter.any (fun t => t ≤ 10000) ∧ found.bus.lostAfter.all (fun k => 3 + checked ≤ k) then judgeImage image else failedLoad .noDevice .none)) ∧
      s.phase = .loading :=
    ⟨{ LoadRead.asStored with bus := ⟨some 0, some 10001, none⟩ }, _, _, _, { State.reset with phase := .loading },
    .inl ⟨rfl, rfl⟩, rfl, rfl, by decide +kernel⟩

theorem witness_ResetThenLoadPutsSettingsInForce_lost :
    ∃ (found : LoadRead) (image : List Byte) (checked : Nat) (o : LoadOutcome) (s : State),
      ((found.image = none ∧ image = (List.range 794).map (Memory.read eepromDefault s.loader.eeprom)) ∨ (found.image = some image ∧ image.length = 794 ∧ MemoryLaw s)) ∧
      checked = (if image.take 2 ≠ [0x43#8, 0x44#8] then 2 else if (image.drop 2).take 3 ≠ [0x03#8, 0x13#8, 1#8] then 5 else 794) ∧
      (o = (if found.bus.sdaFreeAfter.any (fun k => k ≤ 9) ∧ found.bus.acknowledgedAfter.any (fun t => t ≤ 10000) ∧ found.bus.lostAfter.all (fun k => 3 + checked ≤ k) then judgeImage image else failedLoad .noDevice .none)) ∧
      s.phase = .loading :=
    ⟨{ LoadRead.asStored with bus := ⟨some 0, some 0, some 4⟩ }, _, _, _, { State.reset with phase := .loading },
    .inl ⟨rfl, rfl⟩, rfl, rfl, by decide +kernel⟩

theorem witness_ResetThenLoadPutsSettingsInForce_blank_first :
    ∃ (found : LoadRead) (image : List Byte) (checked : Nat) (o : LoadOutcome) (s : State),
      ((found.image = none ∧ image = (List.range 794).map (Memory.read eepromDefault s.loader.eeprom)) ∨ (found.image = some image ∧ image.length = 794 ∧ MemoryLaw s)) ∧
      checked = (if image.take 2 ≠ [0x43#8, 0x44#8] then 2 else if (image.drop 2).take 3 ≠ [0x03#8, 0x13#8, 1#8] then 5 else 794) ∧
      (o = (if found.bus.sdaFreeAfter.any (fun k => k ≤ 9) ∧ found.bus.acknowledgedAfter.any (fun t => t ≤ 10000) ∧ found.bus.lostAfter.all (fun k => 3 + checked ≤ k) then judgeImage image else failedLoad .noDevice .none)) ∧
      s.phase = .loading :=
    ⟨{ LoadRead.asStored with bus := ⟨some 0, some 0, some 5⟩ }, _, _, _, { State.reset with phase := .loading },
    .inl ⟨rfl, rfl⟩, rfl, rfl, by decide +kernel⟩

theorem witness_ResetThenLoadPutsSettingsInForce_stored_memory :
    ∃ (found : LoadRead) (image : List Byte) (checked : Nat) (o : LoadOutcome) (s : State),
      ((found.image = none ∧ image = (List.range 794).map (Memory.read eepromDefault s.loader.eeprom)) ∨ (found.image = some image ∧ image.length = 794 ∧ MemoryLaw s)) ∧
      checked = (if image.take 2 ≠ [0x43#8, 0x44#8] then 2 else if (image.drop 2).take 3 ≠ [0x03#8, 0x13#8, 1#8] then 5 else 794) ∧
      (o = (if found.bus.sdaFreeAfter.any (fun k => k ≤ 9) ∧ found.bus.acknowledgedAfter.any (fun t => t ≤ 10000) ∧ found.bus.lostAfter.all (fun k => 3 + checked ≤ k) then judgeImage image else failedLoad .noDevice .none)) ∧
      s.phase = .loading :=
    ⟨.asStored, _, _, _, { State.reset with phase := .loading }, .inl ⟨rfl, rfl⟩, rfl, rfl, by decide +kernel⟩

theorem witness_ResetThenLoadPutsSettingsInForce_read_image :
    ∃ (found : LoadRead) (image : List Byte) (checked : Nat) (o : LoadOutcome) (s : State),
      ((found.image = none ∧ image = (List.range 794).map (Memory.read eepromDefault s.loader.eeprom)) ∨ (found.image = some image ∧ image.length = 794 ∧ MemoryLaw s)) ∧
      checked = (if image.take 2 ≠ [0x43#8, 0x44#8] then 2 else if (image.drop 2).take 3 ≠ [0x03#8, 0x13#8, 1#8] then 5 else 794) ∧
      (o = (if found.bus.sdaFreeAfter.any (fun k => k ≤ 9) ∧ found.bus.acknowledgedAfter.any (fun t => t ≤ 10000) ∧ found.bus.lostAfter.all (fun k => 3 + checked ≤ k) then judgeImage image else failedLoad .noDevice .none)) ∧
      s.phase = .loading :=
    ⟨.asRead ready.settings.image, ready.settings.image, _, _, { State.reset with phase := .loading },
    .inr ⟨rfl, by decide +kernel, by decide +kernel⟩, rfl, rfl, by decide +kernel⟩

theorem witness_ResetThenLoadPutsSettingsInForce_not_loading :
    ∃ (s : State),
      s.phase ≠ .loading :=
    ⟨ready, by decide +kernel⟩

theorem witness_SavedSettingsComeBack_defaults :
    ∃ (x : Settings),
      SettingsLegal x :=
    ⟨ready.settings, by decide +kernel⟩

theorem witness_SavedSettingsComeBack_save_and_load :
    ∃ (s : State),
      SettingsLaw s ∧ RequestReady s ∧ MemoryLaw s ∧ s.loader.save = .idle :=
    ⟨powered .high, (by decide +kernel), by decide +kernel⟩
end Sys2Proof.Tests
end

