-- ==== Sys2Proof/Proofs/ResetAndLineRequests.lean ====
section
/-!
SUPPORT. The laws of the reset state, and the requests of the Line Control Unit (R13 to R16) as they are answered in a
ready state.
-/

namespace Sys2Proof.Machine

/-! ## Nodes and masks as request bytes -/

theorem Per4.get_modify {α : Type} (x : Per4 α) (i j : Node) (f : α → α) :
    (x.modify i f).get j = if j = i then f (x.get i) else x.get j := by
  by_cases h : j = i
  · subst h
    simp
  · rw [if_neg h, Per4.get_modify_other _ h]

/-- A change of one value replaces it. -/
theorem Per4.modify_eq_set {α : Type} (x : Per4 α) (i : Node) (f : α → α) :
    x.modify i f = x.set i ((x.modify i f).get i) := by
  rw [Per4.get_modify_same]
  rfl

theorem Per4.get_set {α : Type} (x : Per4 α) (i j : Node) (a : α) :
    (x.set i a).get j = if j = i then a else x.get j := by
  by_cases h : j = i
  · subst h
    simp
  · rw [if_neg h, Per4.get_set_other _ h]

/-- A byte that holds the number of a node names it. -/
theorem node?_of_toNat {b : Byte} {n : Node} (h : b.toNat = n.val) : node? b = some n := by
  unfold node?
  rw [dif_pos (by omega)]
  exact congrArg some (Fin.ext h)

/-- A mask over the lines with no other bit set is the lines whose bits are set. -/
theorem lineMask?_of_bits {mask : Byte} {m : Per6 Bool} (hlt : mask.toNat < 64)
    (hm : ∀ l : LineId, m.get l = mask.getLsbD l.val) : lineMask? mask = some m := by
  unfold lineMask?
  rw [if_pos hlt]
  exact congrArg some (Per6.ext_get fun l => by rw [Per6.get_build, hm])

theorem mem_allLines (l : LineId) : l ∈ allLines := by
  fin_cases l <;> decide

theorem mem_allNodes (n : Node) : n ∈ allNodes := by
  fin_cases n <;> decide

/-! ## LINE EVENTS CLEAR and LINES SET (R14, R16) -/

/-- A ready state stays ready where only the lines change. -/
theorem RequestReady.withLines {s : State} (h : RequestReady s) (x : Lines) : RequestReady { s with lines := x } := h

/-- R8, R16: a level sense whose level is recognized, spelled out. -/
theorem Sense.levelPresent_eq (x : Sense) (v : Level) :
    x.levelPresent v = (x == .levelHigh && v == .high || x == .levelLow && v == .low) := by
  cases x <;> cases v <;> rfl

/-- R16: a clear of masked flags reads, line by line, as the flag kept exactly where a level sense's level stands. -/
theorem clearFlags_line (n : Node) (m : Per6 Bool) (s : State) (l : LineId) :
    (clearFlags n m s).line n l = { s.line n l with
      flag :=
        if m.get l then (s.line n l).flag && ((s.line n l).sense == .levelHigh && (s.line n l).level == .high
          || (s.line n l).sense == .levelLow && (s.line n l).level == .low) else (s.line n l).flag } := by
  simp only [State.line, clearFlags, State.modLines, Per4.get_modify_same, Per6.get_build]
  cases m.get l with
  | true => simp only [if_true, Line.clearFlag, Sense.levelPresent_eq]
  | false => simp only [Bool.false_eq_true, if_false]

/-- R14: the masked output lines take the given states, every other line keeps its own. -/
theorem setLines_line (n : Node) (m values : Per6 Bool) (s : State) (l : LineId) :
    (setLines n m values s).line n l = { s.line n l with
      driven := if m.get l && (s.line n l).role.isOutput then values.get l else (s.line n l).driven } := by
  have h : (setLines n m values s).line n l = if m.get l && (s.line n l).role.isOutput then
      { s.line n l with driven := values.get l } else s.line n l := by
    simp only [State.line, setLines, State.modLines, Per4.get_modify_same, Per6.get_build]
    rfl
  rw [h]
  by_cases hc : (m.get l && (s.line n l).role.isOutput) = true
  · rw [if_pos hc, if_pos hc]
  · rw [if_neg hc, if_neg hc]

/-- R14: LINES SET is refused whole exactly where a masked output line has an owner. -/
theorem anyHeld_iff (n : Node) (m : Per6 Bool) (s : State) :
    (allLines.any fun l => m.get l && (s.line n l).role.isOutput && (s.line n l).owner != .none) = true
      ↔ ∃ l : LineId, m.get l = true ∧ (s.line n l).role.isOutput = true ∧ (s.line n l).owner ≠ .none := by
  simp [List.any_eq_true, mem_allLines, and_assoc]

/-- What a ready state makes of a request that changes the lines of one node and is then answered. -/
theorem reply_modLines_hunt {s : State} (h : RequestReady s) (f : Lines → Lines) (tag : Tag) (kind : Byte) (r : Result)
    (d : List Byte) :
    State.reply tag kind r d ((hunt s).modLines f) = answered { s with lines := f s.lines } (replyTo tag kind r d) :=
  reply_hunt (h.withLines (f s.lines)) tag kind r d

/-! ## LINES CONFIG (R13) -/

theorem Line.heldAgainst_iff (l : Line) (x : LineSettings) :
    l.heldAgainst x = true
      ↔ l.owner ≠ .none ∧ (l.role ≠ x.role ∨ l.drive ≠ x.drive ∨ l.active ≠ x.active) := by
  simp [Line.heldAgainst, or_assoc]

/-- What a list names a key with is in the list. -/
theorem mem_of_lookup {α β : Type} [DecidableEq α] {k : α} {v : β} : ∀ {xs : List (α × β)}, xs.lookup k = some v → (k, v) ∈ xs
  | [], h => by simp at h
  | (a, b) :: rest, h => by
    rw [List.lookup_cons] at h
    by_cases hk : k = a
    · subst hk
      simp only [beq_self_eq_true, Option.some.injEq] at h
      subst h
      exact List.mem_cons_self
    · rw [beq_eq_false_iff_ne.mpr hk] at h
      exact List.mem_cons_of_mem _ (mem_of_lookup h)

/-- R3, R13: an open-drain high output is refused first. -/
theorem linesConfigRefusal_badRequest {s : State} {n : Node} {xs : List (LineId × LineSettings)}
    (h : ∃ x ∈ xs, x.2.openDrainHigh = true) : linesConfigRefusal s n xs = some .badRequest := by
  unfold linesConfigRefusal
  rw [if_pos (by simpa using h)]

/-- R2, R13: then a role held twice. -/
theorem linesConfigRefusal_duplicateRole {s : State} {n : Node} {xs : List (LineId × LineSettings)}
    (h : ∀ x ∈ xs, x.2.openDrainHigh = false)
    (hd : duplicateRole
      (allLines.map fun l => match xs.lookup l with | some x => x.role | none => (s.line n l).role) = true) :
    linesConfigRefusal s n xs = some .duplicateRole := by
  unfold linesConfigRefusal
  rw [if_neg (by simpa using h)]
  exact if_pos hd

/-- R10, R13: then an owned line whose role, drive or active level would change. -/
theorem linesConfigRefusal_linesHeld {s : State} {n : Node} {xs : List (LineId × LineSettings)}
    (h : ∀ x ∈ xs, x.2.openDrainHigh = false)
    (hd : duplicateRole
      (allLines.map fun l => match xs.lookup l with | some x => x.role | none => (s.line n l).role) = false)
    (hh : ∃ x ∈ xs, (s.line n x.1).owner ≠ .none ∧ ((s.line n x.1).role ≠ x.2.role ∨ (s.line n x.1).drive ≠ x.2.drive
      ∨ (s.line n x.1).active ≠ x.2.active)) :
    linesConfigRefusal s n xs = some .linesHeld := by
  unfold linesConfigRefusal
  obtain ⟨x, hx, hx'⟩ := hh
  have hany : (xs.any fun x => (s.line n x.1).heldAgainst x.2) = true :=
    List.any_eq_true.mpr ⟨x, hx, (Line.heldAgainst_iff _ _).mpr hx'⟩
  rw [if_neg (by simpa using h)]
  exact (if_neg (ne_true_of_eq_false hd)).trans (if_pos hany)

/-- R13: a LINES CONFIG of a well-formed body in a ready state is served with the settings its body gives. -/
theorem exec_linesConfig {n : Node} {m : Per6 Bool} {b mask p0 p1 : Byte} {rest : List Byte}
    {xs : List (LineId × LineSettings)} {s : State} (hs : RequestReady s) (hb : b.toNat = n.val)
    (hmask : mask.toNat < 64) (hm : ∀ l : LineId, m.get l = mask.getLsbD l.val) (hlen : rest.length ≤ 30)
    (hxs : maskedSettings (allLines.filter fun l => m.get l) rest = some xs) (tag : Tag) :
    exec (.linesConfig tag (b :: mask :: p0 :: p1 :: rest)) s = .next (match linesConfigRefusal s n xs with
      | some r => answered s (replyTo tag 0x10#8 r [])
      | none => (applyLinesConfig n (u16 p0 p1) xs (hunt s)).reply tag 0x10#8 .done
          (linesConfigDetails (applyLinesConfig n (u16 p0 p1) xs (hunt s)) n)) := by
  have hfits : bodyFits (b :: mask :: p0 :: p1 :: rest) = true := by
    simp only [bodyFits, maxBody, List.length_cons]
    exact decide_eq_true (by omega)
  have hsame : linesConfigRefusal (hunt s) n xs = linesConfigRefusal s n xs := rfl
  calc exec (.linesConfig tag (b :: mask :: p0 :: p1 :: rest)) s
      = .next (serveLinesConfig tag (b :: mask :: p0 :: p1 :: rest) (hunt s)) := requestFrame_ready hs 0x10#8 tag hfits
    _ = _ := by
      simp only [serveLinesConfig, node?_of_toNat hb, lineMask?_of_bits hmask hm, hxs, hsame]
      cases linesConfigRefusal s n xs with
      | some r => exact congrArg _ (reply_hunt hs tag 0x10#8 r [])
      | none => rfl

/-- R13: a period of 0 keeps T_s, any other is taken up to 255. -/
theorem clampOrKeep_samplePeriod (present x : Nat) :
    clampOrKeep 1 255 present x = if x = 0 then present else min 255 x := by
  unfold clampOrKeep clamp
  split_ifs <;> omega

/-- R8, R13: a line after an accepted configuration, spelled out. -/
theorem Line.configure_eq (l : Line) (x : LineSettings) :
    l.configure x =
      { role := x.role, drive := x.drive, active := x.active, sense := x.sense, notify := x.notify,
        driven := l.driven && l.role == x.role, level := l.level, last := l.last, owner := l.owner,
        flag := if l.sense = x.sense then l.flag else x.sense.levelPresent l.level } := by
  unfold Line.configure
  by_cases h : l.role = x.role <;> simp [h]

/-- R9: no LINE EVENT is queued for an empty set of lines. -/
theorem notifyLines_none {n : Node} {set_ : Per6 Bool} (h : ∀ l, set_.get l = false) (s : State) :
    notifyLines n set_ s = s := by
  unfold notifyLines
  rw [if_neg]
  have h0 := h 0; have h1 := h 1; have h2 := h 2; have h3 := h 3; have h4 := h 4; have h5 := h 5
  simp only [Per6.get] at h0 h1 h2 h3 h4 h5
  simp [Per6.toList, h0, h1, h2, h3, h4, h5]

/-- R11: lines that give the power state the node has publish nothing. -/
theorem rederivePower_same {n : Node} {s : State} (h : powerOf (s.lines.line.get n) = s.powerState n) :
    rederivePower n s = s := by
  unfold rederivePower
  exact if_pos h

/-- R13: an accepted LINES CONFIG that gives no line event and leaves the power state changes the lines of its node
and T_s alone. -/
theorem applyLinesConfig_quiet {n : Node} {period : Nat} {xs : List (LineId × LineSettings)} {lines : Per6 Line}
    {s : State}
    (hl : ∀ l, lines.get l = match xs.lookup l with
      | none => s.line n l
      | some x => (s.line n l).configure x)
    (hq : ∀ x ∈ xs, (s.line n x.1).configureNotifies x.2 = false) (hp : powerOf lines = s.powerState n) :
    applyLinesConfig n period xs s = s.modLines fun k =>
      { k with line := k.line.set n lines, samplePeriod := clampOrKeep 1 255 k.samplePeriod period } := by
  have hafter : (Per6.build fun l => match settingsFor xs l with
      | some x => ((s.lines.line.get n).get l).configure x
      | none => (s.lines.line.get n).get l) = lines := by
    refine Per6.ext_get fun l => ?_
    rw [Per6.get_build, hl, settingsFor]
    cases xs.lookup l <;> rfl
  have hset : ∀ l, (lineSet fun l => match settingsFor xs l with
      | some x => ((s.lines.line.get n).get l).configureNotifies x
      | none => false).get l = false := by
    intro l
    rw [lineSet, Per6.get_build, settingsFor]
    cases hx : xs.lookup l with
    | none => rfl
    | some x => exact hq (l, x) (mem_of_lookup hx)
  have hquiet : applyLinesConfig n period xs s = rederivePower n (s.modLines fun k =>
      { k with line := k.line.set n lines, samplePeriod := clampOrKeep 1 255 k.samplePeriod period }) := by
    rw [← hafter]
    exact congrArg (rederivePower n) (notifyLines_none hset _)
  rw [hquiet, rederivePower_same]
  simpa [State.powerState] using hp

end Sys2Proof.Machine

open Sys2Proof Sys2Proof.Machine

/-- Settles O4: every law holds of the reset state, which is one closed value. -/
theorem resetMeetsEveryLaw : Obligations.ResetMeetsEveryLaw := by
  have units : UnitLaw State.reset := by decide
  have settings : SettingsLaw State.reset := by decide
  have pages : ∀ n, HistoryPagesLaw State.reset n := by decide +kernel
  have directory : DirectoryLaw State.reset := by decide +kernel
  have borrows : State.reset.pool.borrowed ≤ State.reset.pool.common := by decide +kernel
  exact ⟨by decide, Memory.reset_wf, by decide, by decide, by decide, by decide, by decide,
    ⟨units, settings, pages, directory, borrows, fun _ => rfl⟩, by decide, by decide, by decide⟩

/-- Settles O12: the request is served at once on the lines as they are. -/
theorem linesReadReportsAndChangesNothing : Obligations.LinesReadReportsAndChangesNothing := by
  intro n tag b s hs hb
  calc exec (.linesRead tag [b]) s
      = .next (serveLinesRead tag [b] (hunt s)) := requestFrame_ready (body := [b]) hs 0x12#8 tag (by rfl)
    _ = .next (State.reply tag 0x12#8 .done (linesReadDetails (hunt s) n) (hunt s)) := by
      simp only [serveLinesRead, node?_of_toNat hb]
    _ = _ := congrArg _ (reply_hunt hs tag 0x12#8 .done _)

/-- Settles O13: each request changes the lines of its node alone, line by line, and its reply reads them back. -/
theorem linesSetAndEventsClearMaskedLines : Obligations.LinesSetAndEventsClearMaskedLines := by
  refine ⟨?_, ?_⟩
  · intro n m tag b mask s hs hb hmask hm
    refine ⟨(clearFlags n m s).lines.line.get n, clearFlags_line n m s, ?_⟩
    calc exec (.lineEventsClear tag [b, mask]) s
        = .next (serveLineEventsClear tag [b, mask] (hunt s)) := requestFrame_ready (body := [b, mask]) hs 0x13#8 tag (by rfl)
      _ = _ := by
        simp only [serveLineEventsClear, node?_of_toNat hb, lineMask?_of_bits hmask hm]
        exact congrArg _ (reply_modLines_hunt hs _ tag 0x13#8 .done _)
      _ = _ := congrArg (fun x => Host.Outcome.next (answered { s with lines := { s.lines with line := x } }
          (replyTo tag 0x13#8 .done (allLines.map fun l => flagByte ((clearFlags n m s).line n l).flag))))
          (Per4.modify_eq_set s.lines.line n _)
  · intro n m tag b mask values s hs hb hmask hm
    have hserve : exec (.linesSet tag [b, mask, values]) s
        = .next (serveLinesSet tag [b, mask, values] (hunt s)) := requestFrame_ready (body := [b, mask, values]) hs 0x11#8 tag (by rfl)
    refine ⟨fun hheld => ?_, fun hfree => ?_⟩
    · rw [hserve]
      simp only [serveLinesSet, node?_of_toNat hb, lineMask?_of_bits hmask hm]
      rw [if_pos ((anyHeld_iff n m (hunt s)).mpr hheld)]
      exact congrArg _ (reply_hunt hs tag 0x11#8 .linesHeld [])
    · have hnone : ¬ ∃ l : LineId, m.get l = true ∧ (s.line n l).role.isOutput = true ∧ (s.line n l).owner ≠ .none := by
        rintro ⟨l, h1, h2, h3⟩
        exact h3 (hfree l h1 h2)
      refine ⟨(setLines n m (lineSet fun l => values.getLsbD l.val) s).lines.line.get n, fun l => ?_, ?_⟩
      · have := setLines_line n m (lineSet fun l => values.getLsbD l.val) s l
        rwa [lineSet, Per6.get_build] at this
      · have hrole : ∀ l, ((setLines n m (lineSet fun l => values.getLsbD l.val) (hunt s)).line n l).role
            = (s.line n l).role := fun l => by rw [setLines_line]; rfl
        rw [hserve]
        simp only [serveLinesSet, node?_of_toNat hb, lineMask?_of_bits hmask hm]
        rw [if_neg (fun h => hnone ((anyHeld_iff n m (hunt s)).mp h))]
        refine congrArg _ ((reply_modLines_hunt hs _ tag 0x11#8 .done _).trans ?_)
        simp only [linesSetDetails, hrole]
        exact congrArg (fun x => answered { s with lines := { s.lines with line := x } } _)
          (Per4.modify_eq_set s.lines.line n _)

/-- Settles O14: the three refusals by the order of the checks; an accepted request is `applyLinesConfig_quiet`. -/
theorem linesConfigChecksThenApplies : Obligations.LinesConfigChecksThenApplies := by
  intro n m tag b mask p0 p1 rest xs s hs hb hmask hm hlen hxs
  have hexec := exec_linesConfig (p0 := p0) (p1 := p1) hs hb hmask hm hlen hxs tag
  refine ⟨fun hopen => ?_, fun hopen hdup => ?_, fun hopen hdup hheld => ?_, fun lines hnone hlines hquiet hpower => ?_⟩
  · rw [hexec, linesConfigRefusal_badRequest hopen]
  · rw [hexec, linesConfigRefusal_duplicateRole hopen hdup]
  · rw [hexec, linesConfigRefusal_linesHeld hopen hdup hheld]
  · have happly := applyLinesConfig_quiet (n := n) (period := u16 p0 p1) (xs := xs) (lines := lines) (s := hunt s)
      (fun l => by
        rw [hlines l]
        cases xs.lookup l with
        | none => rfl
        | some x => exact (Line.configure_eq (s.line n l) x).symm)
      (fun x hx => by
        rcases hquiet x hx with h | h | h
        · have h' : ((hunt s).line n x.1).sense = x.2.sense := h
          simp [Line.configureNotifies, h']
        · simp [Line.configureNotifies, h]
        · have h' : x.2.sense.levelPresent ((hunt s).line n x.1).level = false := h
          simp [Line.configureNotifies, h'])
      hpower
    rw [hexec, hnone, happly]
    refine congrArg _ ((reply_modLines_hunt hs _ tag 0x10#8 .done _).trans ?_)
    simp only [linesConfigDetails, State.modLines, State.line, Per4.get_set_same, clampOrKeep_samplePeriod]
    rfl
end

