-- ==== Sys2Proof/Proofs/Keeps.lean ====
section
/-!
SUPPORT. What everything the running part does keeps: the queue of commands and the phase, and, each from its own
premise alone, the laws of owners (R10), pending recoveries (R18, R30), attempts (R159), idle timers (R126), units (R93,
R96) and settings. The relation `Keeps` composes, so that each operation of the model is walked through once for all of
these laws together; here it is proved of the updates that the operations are built from.
-/

namespace Sys2Proof.Machine

/-! ## The families under an update -/

theorem Per6.get_modify {α : Type} (x : Per6 α) (i j : LineId) (f : α → α) :
    (x.modify i f).get j = if j = i then f (x.get i) else x.get j := by
  by_cases h : j = i
  · subst h
    simp
  · rw [if_neg h, Per6.get_modify_other _ h]

/-- A view of a family that an update of one value keeps is kept as a whole. -/
theorem Per4.map_modify {α β : Type} (x : Per4 α) (i : Node) {f : α → α} {g : α → β}
    (h : g (f (x.get i)) = g (x.get i)) : (x.modify i f).map g = x.map g := by
  refine Per4.ext_get fun j => ?_
  rw [Per4.get_map, Per4.get_map, Per4.get_modify]
  split_ifs with hj
  · rw [hj, h]
  · rfl

theorem Per6.map_modify {α β : Type} (x : Per6 α) (i : LineId) {f : α → α} {g : α → β}
    (h : g (f (x.get i)) = g (x.get i)) : (x.modify i f).map g = x.map g := by
  refine Per6.ext_get fun j => ?_
  rw [Per6.get_map, Per6.get_map, Per6.get_modify]
  split_ifs with hj
  · rw [hj, h]
  · rfl

/-! ## The laws at one node -/

/-- R18, R30: the law of pending recoveries at one node of a part that runs. -/
def RecoveryFits (s : State) (n : Node) : Prop :=
  (s.power.slot.get n).isSome → (s.action n).isSome ∨ requestAhead s n

/-- R159: the attempts of a node's supervisor lie within its limit. -/
def AttemptFits (s : State) (n : Node) : Prop := (s.supervisor n).attempts ≤ (s.boot.policy.get n).limit

/-- R126: a port's idle timer runs exactly in a counting condition. -/
def TimerFits (p : Port) : Prop := p.idleTimer.isSome = p.counting

theorem requestAhead_congr {s t : State} (h : t.pending = s.pending) (n : Node) :
    requestAhead t n = requestAhead s n := by
  unfold requestAhead
  rw [h]

/-- R126: a port whose timer has followed keeps the law. -/
theorem timerFits_settleTimer (p : Port) : TimerFits p.settleTimer := by
  have hc : p.settleTimer.counting = p.counting := rfl
  unfold TimerFits
  rw [hc]
  unfold Port.settleTimer
  cases p.counting <;> rfl

/-! ## The relation -/

/-- What an operation of the running part keeps; the law of pending recoveries is left open at the node `x`, if one is
given: between the steps of a completion (R30) it does not hold there. -/
structure KeepsBut (x : Option Node) (s t : State) : Prop where
  pending : t.pending = s.pending
  phase : t.phase = s.phase
  owner : ∀ (n : Node) (l : LineId), OwnerFits n (s.line n l) → OwnerFits n (t.line n l)
  recovery : ∀ n : Node, x ≠ some n → RecoveryFits s n → RecoveryFits t n
  attempts : ∀ n : Node, AttemptFits s n → AttemptFits t n
  timer : ∀ n : Node, TimerFits (port s n) → TimerFits (port t n)
  units : UnitLaw s → UnitLaw t
  settings : SettingsLaw s → SettingsLaw t

/-- What an operation of the running part keeps, with the law of pending recoveries at every node. -/
abbrev Keeps (s t : State) : Prop := KeepsBut none s t

variable {x : Option Node} {s t u : State}

@[refl] theorem KeepsBut.refl (s : State) : KeepsBut x s s :=
  ⟨rfl, rfl, fun _ _ h => h, fun _ _ h => h, fun _ h => h, fun _ h => h, fun h => h, fun h => h⟩

@[trans] theorem KeepsBut.trans (h : KeepsBut x s t) (h' : KeepsBut x t u) : KeepsBut x s u where
  pending := h'.pending.trans h.pending
  phase := h'.phase.trans h.phase
  owner n l hs := h'.owner n l (h.owner n l hs)
  recovery n hx hs := h'.recovery n hx (h.recovery n hx hs)
  attempts n hs := h'.attempts n (h.attempts n hs)
  timer n hs := h'.timer n (h.timer n hs)
  units hs := h'.units (h.units hs)
  settings hs := h'.settings (h.settings hs)

/-- What is kept at every node is kept at every node but one. -/
theorem KeepsBut.of_keeps (h : Keeps s t) : KeepsBut x s t :=
  { h with recovery := fun n _ => h.recovery n (by simp) }

/-- A law left open at one node is closed by that node's own law after the operation. -/
theorem KeepsBut.close {n : Node} (h : KeepsBut (some n) s t) (hn : RecoveryFits t n) : Keeps s t :=
  { h with
    recovery := fun m _ hs => by
      by_cases hm : m = n
      · exact hm ▸ hn
      · exact h.recovery m (fun e => hm (Option.some.inj e).symm) hs }

/-- An operation that leaves everything the laws speak of keeps them. -/
theorem KeepsBut.of_same (hq : t.pending = s.pending) (hp : t.phase = s.phase) (hl : t.lines.line = s.lines.line)
    (hs : t.power.slot = s.power.slot) (ha : t.power.action = s.power.action)
    (hv : t.boot.supervisor = s.boot.supervisor) (hb : t.boot.policy = s.boot.policy) (ho : t.ports = s.ports)
    (hu : t.units = s.units) (hx : t.settings = s.settings) : KeepsBut x s t where
  pending := hq
  phase := hp
  owner n l h := by rwa [State.line, hl]
  recovery n _ h := by rwa [RecoveryFits, State.action, hs, ha, requestAhead_congr hq]
  attempts n h := by rwa [AttemptFits, State.supervisor, hv, hb]
  timer n h := by rwa [port, ho]
  units h := by rwa [UnitLaw, hu]
  settings h := by rwa [SettingsLaw, hx]

/-- An operation served over a list keeps what each serving keeps. -/
theorem keeps_foldl {α : Type} {f : State → α → State} (hf : ∀ t a, Keeps t (f t a)) :
    ∀ (l : List α) (s : State), Keeps s (l.foldl f s)
  | [], s => KeepsBut.refl s
  | a :: l, s => (hf s a).trans (keeps_foldl hf l (f s a))

/-- An operation served in a free order keeps what each serving keeps. -/
theorem keeps_inFreeOrder {α : Type} {f : α → State → State} (hf : ∀ a t, Keeps t (f a t)) (l : List α) (s : State) :
    Keeps s (s.inFreeOrder l f) := by
  have hdrew : Keeps s (s.drew l.length) := .of_same rfl rfl rfl rfl rfl rfl rfl rfl rfl rfl
  exact hdrew.trans (keeps_foldl (f := fun t x => f x t) (fun t a => hf a t) (freeOrder s.choices l) (s.drew l.length))

/-! ## The updates -/

theorem keeps_modCache (f : Cache → Cache) (s : State) : Keeps s (s.modCache f) :=
  .of_same rfl rfl rfl rfl rfl rfl rfl rfl rfl rfl

theorem keeps_modRam (f : List Host.Cell → List Host.Cell) (s : State) : Keeps s (s.modRam f) :=
  .of_same rfl rfl rfl rfl rfl rfl rfl rfl rfl rfl

theorem keeps_modLoader (f : Loader → Loader) (s : State) : Keeps s (s.modLoader f) :=
  .of_same rfl rfl rfl rfl rfl rfl rfl rfl rfl rfl

/-- The link may change but for its settings. -/
theorem keeps_modLink {f : Link → Link} {s : State} (hb : (f s.link).baud = s.link.baud)
    (hr : (f s.link).ratio = s.link.ratio) : Keeps s (s.modLink f) :=
  .of_same rfl rfl rfl rfl rfl rfl rfl rfl rfl (by simp only [State.settings, State.modLink, hb, hr])

/-- A console may change but for its settings. -/
theorem keeps_modConsole {n : Node} {f : Console → Console} {s : State}
    (h : (f (s.consoles.get n)).settings = (s.consoles.get n).settings) : Keeps s (s.modConsole n f) :=
  .of_same rfl rfl rfl rfl rfl rfl rfl rfl rfl (by
    simp only [State.settings, State.modConsole]
    rw [Per4.map_modify _ _ (g := fun c : Console => c.settings) h])

/-- The pool may change but for its settings. -/
theorem keeps_modPool {f : Pool → Pool} {s : State}
    (hc : (f s.pool).consoles.map HolderRecord.settings = s.pool.consoles.map HolderRecord.settings)
    (hm : (f s.pool).caches.map HolderRecord.settings = s.pool.caches.map HolderRecord.settings)
    (ht : (f s.pool).agingTick = s.pool.agingTick) : Keeps s (s.modPool f) :=
  .of_same rfl rfl rfl rfl rfl rfl rfl rfl rfl (by simp only [State.settings, State.modPool, hc, hm, ht])

theorem keeps_setOwner (p : PageId) (o : Option Holder) (s : State) : Keeps s (s.modPool (Pool.setOwner p o)) :=
  keeps_modPool rfl rfl rfl

/-- A holder's record may change but for its settings. -/
theorem keeps_modHolder {h : Holder} {f : HolderRecord → HolderRecord} (hf : ∀ r, (f r).settings = r.settings)
    (s : State) : Keeps s (s.modPool (Pool.modHolder h f)) := by
  cases h with
  | ch n => exact keeps_modPool (Per4.map_modify _ _ (hf _)) rfl rfl
  | mh u => exact keeps_modPool rfl (Per4.map_modify _ _ (hf _)) rfl

/-- A port may change but for its settings: its idle timer follows. -/
theorem keeps_modPort {n : Node} {f : Port → Port} {s : State}
    (hm : (f (s.ports.get n)).spiMode = (s.ports.get n).spiMode)
    (ht : (f (s.ports.get n)).idleTimeout = (s.ports.get n).idleTimeout) : Keeps s (s.modPort n f) where
  pending := rfl
  phase := rfl
  owner _ _ h := h
  recovery _ _ h := h
  attempts _ h := h
  timer m h := by
    simp only [port, State.modPort_ports, Per4.get_modify]
    split_ifs
    · exact timerFits_settleTimer _
    · exact h
  units h := h
  settings h := by
    have hx : (s.modPort n f).settings = s.settings := by
      simp only [State.settings, State.modPort]
      rw [Per4.map_modify]
      exact congrArg₂ PortSettings.mk hm ht
    rwa [SettingsLaw, hx]

/-- A line may change but for its settings, where its owner goes on to fit. -/
theorem keeps_modLine {n : Node} {l : LineId} {f : Line → Line} {s : State}
    (hs : (f (s.line n l)).settings = (s.line n l).settings)
    (ho : OwnerFits n (s.line n l) → OwnerFits n (f (s.line n l))) : Keeps s (s.modLine n l f) where
  pending := rfl
  phase := rfl
  owner m k h := by
    rw [line_modLine]
    split_ifs with hk
    · obtain ⟨rfl, rfl⟩ := hk
      exact ho h
    · exact h
  recovery _ _ h := h
  attempts _ h := h
  timer _ h := h
  units h := h
  settings h := by
    have hx : (s.modLine n l f).settings = s.settings := by
      simp only [State.settings, State.modLine, State.modLines]
      rw [Per4.map_modify]
      exact Per6.map_modify _ _ hs
    rwa [SettingsLaw, hx]

/-- A supervisor may change where its attempts go on to lie within the limit. -/
theorem keeps_modSupervisor {n : Node} {f : Supervisor → Supervisor} {s : State}
    (h : AttemptFits s n → (f (s.supervisor n)).attempts ≤ (s.boot.policy.get n).limit) :
    Keeps s (s.modSupervisor n f) where
  pending := rfl
  phase := rfl
  owner _ _ h := h
  recovery _ _ h := h
  attempts m hm := by
    simp only [AttemptFits, State.supervisor, State.modSupervisor, State.modBoot, Per4.get_modify] at hm ⊢
    split_ifs with e
    · subst e
      exact h hm
    · exact hm
  timer _ h := h
  units h := h
  settings h := h

/-- The partial matches may change. -/
theorem keeps_partials (f : Per4 (Vector Nat 16) → Per4 (Vector Nat 16)) (s : State) :
    Keeps s (s.modBoot fun b => { b with partials := f b.partials }) :=
  .of_same rfl rfl rfl rfl rfl rfl rfl rfl rfl rfl

/-- The power watch may change. -/
theorem keeps_watch (w : Option Watch) (s : State) : Keeps s (s.modPower fun p => { p with watch := w }) :=
  .of_same rfl rfl rfl rfl rfl rfl rfl rfl rfl rfl

/-- An action's record may change; without a record the recovery of its node is left open. -/
theorem keepsBut_setAction (n : Node) (a : Option Action) (s : State) : KeepsBut (some n) s (s.setAction n a) where
  pending := rfl
  phase := rfl
  owner _ _ h := h
  recovery m hm h hs := by
    have hne : m ≠ n := fun e => hm (e ▸ rfl)
    have hact : (s.setAction n a).action m = s.action m := Per4.get_set_other _ hne _
    rw [hact]
    exact h hs
  attempts _ h := h
  timer _ h := h
  units h := h
  settings h := h

/-- While an action runs on a node a recovery may wait there. -/
theorem RecoveryFits.of_action {n : Node} (h : (s.action n).isSome) : RecoveryFits s n := fun _ => .inl h

/-- An empty slot fits. -/
theorem RecoveryFits.of_empty {n : Node} (h : s.power.slot.get n = none) : RecoveryFits s n := fun hs => by
  rw [h] at hs
  exact absurd hs (by simp)

theorem action_setAction (n : Node) (a : Option Action) (s : State) : (s.setAction n a).action n = a :=
  Per4.get_set_same _ _ _

theorem keeps_setAction (n : Node) (a : Action) (s : State) : Keeps s (s.setAction n (some a)) :=
  (keepsBut_setAction n (some a) s).close (.of_action (by rw [action_setAction]; rfl))

theorem keepsBut_setSlot (n : Node) (k : Option RecoveryKind) (s : State) : KeepsBut (some n) s (s.setSlot n k) where
  pending := rfl
  phase := rfl
  owner _ _ h := h
  recovery m hm h hs := by
    have hne : m ≠ n := fun e => hm (e ▸ rfl)
    have hslot : (s.setSlot n k).power.slot.get m = s.power.slot.get m := Per4.get_set_other _ hne _
    rw [hslot] at hs
    exact h hs
  attempts _ h := h
  timer _ h := h
  units h := h
  settings h := h

theorem slot_setSlot (n : Node) (k : Option RecoveryKind) (s : State) : (s.setSlot n k).power.slot.get n = k :=
  Per4.get_set_same _ _ _

/-- A unit's record may change where the law of units goes on to hold. -/
theorem keeps_units {s t : State} (h : UnitLaw s → UnitLaw t) (ht : t = { s with units := t.units }) : Keeps s t := by
  rw [ht] at h ⊢
  exact { KeepsBut.refl (x := none) s with units := h }

theorem units_modUnit (u v : UnitId) (f : MediaUnit → MediaUnit) (s : State) :
    (s.modUnit u f).units.get v = if v = u then f (s.units.get u) else s.units.get v :=
  Per4.get_modify _ _ _ _

/-- R93, R96: what one unit's record must meet by itself. -/
structure UnitFits (x : MediaUnit) : Prop where
  exclusive : x.mode = .exclusive → ∀ n m : Node, x.nodes.get n → x.nodes.get m → n = m
  writer : ∀ n : Node, x.writer = some n → x.mode = .firstWriter ∧ x.nodes.get n
  idle : x.state = .detached ∨ x.state = .draining → x.nodes = Per4.all false

theorem UnitLaw.fits (h : UnitLaw s) (u : UnitId) : UnitFits (s.units.get u) :=
  ⟨h.2.1 u, h.2.2.1 u, h.2.2.2 u⟩

/-- R93, R96: one unit's record changes to one that fits and has no node of another unit. -/
theorem unitLaw_modUnit {u : UnitId} {f : MediaUnit → MediaUnit} (h : UnitLaw s) (hf : UnitFits (f (s.units.get u)))
    (hd : ∀ (n : Node) (v : UnitId), v ≠ u → (f (s.units.get u)).nodes.get n → ¬ (s.units.get v).nodes.get n) :
    UnitLaw (s.modUnit u f) := by
  refine ⟨fun n v w hv hw => ?_, fun v => ?_, fun v => ?_, fun v => ?_⟩
  · rw [units_modUnit] at hv hw
    split_ifs at hv hw with e1 e2 e2
    · exact e1.trans e2.symm
    · exact absurd hw (hd n w e2 hv)
    · exact absurd hv (hd n v e1 hw)
    · exact h.1 n v w hv hw
  all_goals
    rw [units_modUnit]
    split_ifs with e
  · exact hf.exclusive
  · exact (h.fits v).exclusive
  · exact hf.writer
  · exact (h.fits v).writer
  · exact hf.idle
  · exact (h.fits v).idle

/-- R93, R96: a change that gives a unit no node keeps the law where the new record fits. -/
theorem keeps_modUnit {u : UnitId} {f : MediaUnit → MediaUnit} {s : State}
    (hf : UnitFits (s.units.get u) → UnitFits (f (s.units.get u)))
    (hn : ∀ n, (f (s.units.get u)).nodes.get n → (s.units.get u).nodes.get n) : Keeps s (s.modUnit u f) :=
  keeps_units (fun h => unitLaw_modUnit h (hf (h.fits u)) fun n v hv hfn hvn => hv (h.1 n v u hvn (hn n hfn))) rfl

/-- A unit's counters, parameters and deferred reply may change. -/
theorem keeps_modUnit_same {u : UnitId} {f : MediaUnit → MediaUnit} {s : State}
    (hn : (f (s.units.get u)).nodes = (s.units.get u).nodes) (hm : (f (s.units.get u)).mode = (s.units.get u).mode)
    (hw : (f (s.units.get u)).writer = (s.units.get u).writer)
    (hs : (f (s.units.get u)).state = (s.units.get u).state ∨ (f (s.units.get u)).state = .storeFault) :
    Keeps s (s.modUnit u f) := by
  refine keeps_modUnit (fun h => ⟨?_, ?_, ?_⟩) (fun n h => by rwa [hn] at h)
  · rw [hm, hn]
    exact h.exclusive
  · rw [hm, hn, hw]
    exact h.writer
  · rw [hn]
    rcases hs with e | e <;> rw [e]
    · exact h.idle
    · exact fun h' => absurd h' (by simp)

/-- A unit without nodes and writer fits. -/
theorem UnitFits.of_empty {y : MediaUnit} (hn : y.nodes = Per4.all false) (hw : y.writer = none) : UnitFits y where
  exclusive _ n m h := by
    rw [hn, Per4.get_all] at h
    exact absurd h (by simp)
  writer n h := by
    rw [hw] at h
    exact absurd h (by simp)
  idle _ := hn

theorem keeps_modUnit_empty {u : UnitId} {f : MediaUnit → MediaUnit} {s : State}
    (hn : (f (s.units.get u)).nodes = Per4.all false) (hw : (f (s.units.get u)).writer = none) :
    Keeps s (s.modUnit u f) :=
  keeps_modUnit (fun _ => .of_empty hn hw) fun n h => by
    rw [hn, Per4.get_all] at h
    exact absurd h (by simp)

/-! ## The queues of the link, and marks -/

theorem addReply_settings (r : Reply) (k : Link) : (k.addReply r).baud = k.baud ∧ (k.addReply r).ratio = k.ratio := by
  unfold Link.addReply
  split_ifs <;> exact ⟨rfl, rfl⟩

theorem addNotice_settings (new : Notice) (k : Link) :
    (k.addNotice new).baud = k.baud ∧ (k.addNotice new).ratio = k.ratio := by
  rcases Link.addNotice_cases new k with ⟨es, -, e⟩ | ⟨-, -, e⟩ | ⟨-, -, e⟩ <;> rw [e] <;> exact ⟨rfl, rfl⟩

theorem keeps_addReply (r : Reply) (s : State) : Keeps s (s.modLink (Link.addReply r)) :=
  keeps_modLink (addReply_settings r s.link).1 (addReply_settings r s.link).2

theorem keeps_reply (tag : Tag) (kind : Byte) (r : Result) (d : List Byte) (s : State) :
    Keeps s (s.reply tag kind r d) :=
  keeps_addReply _ s

theorem keeps_notify (new : Notice) (s : State) : Keeps s (s.notify new) :=
  keeps_modLink (addNotice_settings new s.link).1 (addNotice_settings new s.link).2

theorem keeps_mark (n : Node) (k : MarkKind) (s : State) : Keeps s (s.mark n k) :=
  keeps_modConsole rfl

theorem keeps_clearPartials (n : Node) (s : State) : Keeps s (s.clearPartials n) :=
  keeps_partials (fun p => p.set n (Vector.replicate 16 0)) s

end Sys2Proof.Machine
end

