-- ==== Sys2Proof/Proofs/SupervisionKeeps.lean ====
section
/-!
SUPPORT. What the Boot Supervisor and the Power Sequencer do keeps the standing laws (`Keeps`).
-/

namespace Sys2Proof.Machine

/-! ## The supervisor -/

theorem keeps_bootProgress (n : Node) (s : State) : Keeps s (bootProgress n s) := keeps_notify _ s

theorem keeps_recoveryNotice (n : Node) (e : RecoveryEvent) (k : Option RecoveryKind) (s : State) :
    Keeps s (recoveryNotice n e k s) := keeps_notify _ s

theorem keeps_supTo (n : Node) (st : SupState) (s : State) : Keeps s (supTo n st s) :=
  keeps_modSupervisor fun h => h

theorem keeps_enterWatching (n : Node) (k : Nat) (s : State) : Keeps s (enterWatching n k s) :=
  keeps_modSupervisor fun h => h

/-- R10: a line without an owner fits. -/
theorem OwnerFits.of_none {n : Node} {l : Line} (h : l.owner = .none) : OwnerFits n l :=
  ⟨fun m e => by rw [h] at e; exact absurd e (by simp), fun e => by rw [h] at e; exact absurd e (by simp)⟩

theorem keeps_releaseLine (n : Node) (l : LineId) (s : State) : Keeps s (releaseLine n l s) :=
  keeps_modLine rfl fun _ => .of_none rfl

theorem keeps_driveLine (n : Node) (l : LineId) (active : Bool) (s : State) : Keeps s (driveLine n l active s) :=
  keeps_modLine rfl fun h => h

/-- R10: a take that is granted gives the line an owner that fits. -/
theorem ownerFits_of_granted {n : Node} {o : Owner} {l : Line} (h : takeGranted n o l = true) :
    OwnerFits n { l with owner := o } := by
  cases o with
  | none => exact .of_none rfl
  | action m =>
    refine ⟨fun k hk => ?_, fun hk => by simp at hk⟩
    obtain rfl : m = k := by simpa using hk
    have hg : (l.owner = .none) ∧ m = n ∧ ((l.role = .powerButton ∨ l.role = .reset) ∨ l.role = .diag) := by
      simpa [takeGranted] using h
    exact ⟨hg.2.1, or_assoc.mp hg.2.2⟩
  | supervisor =>
    have hg : (l.owner = .none) ∧ l.role = .bootSelect := by simpa [takeGranted] using h
    exact ⟨fun k hk => by simp at hk, fun _ => hg.2⟩

theorem keeps_takeLine {n : Node} {l : LineId} {o : Owner} {s t : State} (h : takeLine n l o s = some t) : Keeps s t := by
  obtain ⟨hg, rfl⟩ := takeLine_eq_some.mp h
  exact keeps_modLine rfl fun _ => ownerFits_of_granted hg

theorem keeps_releaseBootSelect (n : Node) (s : State) : Keeps s (releaseBootSelect n s) := by
  rcases releaseBootSelect_cases n s with ⟨l, -, e⟩ | ⟨-, e⟩ <;> rw [e]
  · exact (keeps_releaseLine n l s).trans (keeps_modSupervisor fun h => h)
  · exact keeps_modSupervisor fun h => h

theorem keeps_arm (n : Node) (s : State) : Keeps s (arm n s) :=
  ((keeps_clearPartials n s).trans (keeps_enterWatching n 0 _)).trans (keeps_bootProgress n _)

theorem keeps_supNodeOff (n : Node) (s : State) : Keeps s (supNodeOff n s) :=
  (keeps_supTo n .idle s).trans (keeps_bootProgress n _)

theorem keeps_armingCause (n : Node) (entry : Bool) (s : State) : Keeps s (armingCause n entry s) := by
  unfold armingCause
  split
  · rfl
  · split_ifs
    · rfl
    · exact keeps_arm n s
  all_goals
    split_ifs
    · exact keeps_supNodeOff n s
    · exact keeps_arm n s

theorem keeps_supStarted (n : Node) (k : RecoveryKind) (s : State) : Keeps s (supStarted n k s) := by
  have hstate : Keeps s (s.modSupervisor n fun v => { v with state := .recovering true }) :=
    keeps_modSupervisor fun h => h
  exact hstate.trans (keeps_recoveryNotice n _ _ _)

/-- The supervisor goes to a state, and says so in a RECOVERY notice. -/
theorem keeps_supTo_notice (n : Node) (st : SupState) (e : RecoveryEvent) (k : Option RecoveryKind) (s : State) :
    Keeps s (recoveryNotice n e k (supTo n st s)) :=
  (keeps_supTo n st s).trans (keeps_recoveryNotice n e k _)

theorem keeps_supNoLine (n : Node) (k : RecoveryKind) (s : State) : Keeps s (supNoLine n k s) :=
  keeps_supTo_notice n _ _ _ s

theorem keeps_supResult (n : Node) (kind : ActionKind) (r : ActionResult) (s : State) :
    Keeps s (supResult n kind r s) := by
  unfold supResult
  split
  · rfl
  · rfl
  · split_ifs
    · exact keeps_supTo_notice n _ _ _ s
    · rfl
  · split_ifs
    · exact keeps_supTo_notice n _ _ _ s
    · rfl
  · exact keeps_supTo_notice n _ _ _ s

/-! ## Actions start -/

theorem keeps_emptySlot (n : Node) (s : State) : Keeps s (s.setSlot n none) :=
  (keepsBut_setSlot n none s).close (.of_empty (slot_setSlot n none s))

theorem keeps_cancelPending (n : Node) (by_ : ActionKind) (s : State) : Keeps s (cancelPending n by_ s) := by
  unfold cancelPending
  split
  · rfl
  · dsimp only
    split_ifs
    · exact (keeps_emptySlot n s).trans (keeps_supTo_notice n _ _ _ _)
    · exact keeps_emptySlot n s

/-- R22: what entering a phase does: the record is set, with the phase's line taken and driven where the node has it and
the take is granted. -/
theorem enterPhase_cases (n : Node) (a : Action) (st : ActionState) (s : State) :
    enterPhase n a st s
        = s.setAction n (some { a with state := st, timer := phaseTimer a.timings st, held := none })
      ∨ ∃ l t, takeLine n l (.action n) s = some t
        ∧ enterPhase n a st s = (driveLine n l true t).setAction n
          (some { a with state := st, timer := phaseTimer a.timings st, held := some l }) := by
  unfold enterPhase
  dsimp only
  split
  · exact .inl rfl
  · split
    · exact .inl rfl
    · split
      · exact .inl rfl
      · exact .inr ⟨_, _, by assumption, rfl⟩

theorem keeps_enterPhase (n : Node) (a : Action) (st : ActionState) (s : State) : Keeps s (enterPhase n a st s) := by
  rcases enterPhase_cases n a st s with e | ⟨l, t, ht, e⟩ <;> rw [e]
  · exact keeps_setAction n _ s
  · exact (keeps_takeLine ht).trans ((keeps_driveLine n l true t).trans (keeps_setAction n _ _))

/-- R22: in a phase an action runs. -/
theorem action_enterPhase (n : Node) (a : Action) (st : ActionState) (s : State) :
    ((enterPhase n a st s).action n).isSome := by
  rcases enterPhase_cases n a st s with e | ⟨l, t, -, e⟩ <;> rw [e, action_setAction] <;> rfl

theorem keeps_releaseHeld (n : Node) (a : Action) (s : State) : Keeps s (releaseHeld n a s) := by
  rcases releaseHeld_cases n a s with ⟨l, -, e⟩ | ⟨-, e⟩ <;> rw [e]
  exact (keeps_releaseLine n l s).trans (keeps_setAction n _ _)

theorem keeps_startAction (n : Node) (kind : ActionKind) (o : Originator) (escalate : Bool) (s : State) :
    Keeps s (startAction n kind o escalate s) := by
  unfold startAction
  dsimp only
  split_ifs
  · exact (keeps_enterPhase n _ _ s).trans (keeps_mark n _ _)
  · exact keeps_enterPhase n _ _ s

theorem action_startAction (n : Node) (kind : ActionKind) (o : Originator) (escalate : Bool) (s : State) :
    ((startAction n kind o escalate s).action n).isSome := by
  unfold startAction
  dsimp only
  split_ifs
  · exact action_enterPhase n _ _ s
  · exact action_enterPhase n _ _ s

theorem keeps_startRecovery (n : Node) (k : RecoveryKind) (s : State) : Keeps s (startRecovery n k s) :=
  ((keeps_mark n _ s).trans (keeps_startAction n _ _ _ _)).trans (keeps_supStarted n k _)

theorem keeps_requestRecovery (n : Node) (k : RecoveryKind) (s : State) : Keeps s (requestRecovery n k s) := by
  unfold requestRecovery
  split
  · exact keeps_supNoLine n k s
  · exact keeps_supNodeOff n s
  · split
    · rename_i a ha
      refine (keepsBut_setSlot n (some k) s).close (.of_action ?_)
      have hsame : (s.setSlot n (some k)).action n = s.action n := rfl
      rw [hsame, ha]
      rfl
    · exact keeps_startRecovery n k s

/-! ## Step 5 of a completion, and the completion (R30) -/

/-- R34: step 5 with the slot emptied. -/
theorem startPending_cases (n : Node) (s : State) :
    (s.power.slot.get n = none ∧ startPending n s = s) ∨ ∃ k, s.power.slot.get n = some k
      ∧ (startPending n s = supNoLine n k (s.setSlot n none) ∨ startPending n s = supNodeOff n (s.setSlot n none)
        ∨ startPending n s = startRecovery n k (s.setSlot n none)) := by
  unfold startPending
  cases h : s.power.slot.get n with
  | none => exact .inl ⟨rfl, rfl⟩
  | some k =>
    refine .inr ⟨k, rfl, ?_⟩
    dsimp only
    cases recoveryCheck n k (s.setSlot n none) with
    | none => exact .inr (.inr rfl)
    | some r =>
      cases r
      · exact .inl rfl
      · exact .inr (.inl rfl)

/-- R34: step 5 starts from the emptied slot, or leaves an empty slot alone. -/
theorem startPending_keeps_emptied (n : Node) (s : State) :
    (s.power.slot.get n = none ∧ startPending n s = s) ∨ Keeps (s.setSlot n none) (startPending n s) := by
  rcases startPending_cases n s with h | ⟨k, -, e | e | e⟩
  · exact .inl h
  all_goals
    right
    rw [e]
  · exact keeps_supNoLine n k _
  · exact keeps_supNodeOff n _
  · exact keeps_startRecovery n k _

/-- R34: after step 5 the law of pending recoveries holds at the node, whatever held before. -/
theorem recoveryFits_startPending (n : Node) (s : State) : RecoveryFits (startPending n s) n := by
  rcases startPending_keeps_emptied n s with ⟨hslot, e⟩ | hk
  · rw [e]
    exact .of_empty hslot
  · exact hk.recovery n (by simp) (.of_empty (slot_setSlot n none s))

theorem keeps_startPending {n : Node} {s t : State} (h : KeepsBut (some n) s t) : Keeps s (startPending n t) := by
  refine KeepsBut.close (h.trans ?_) (recoveryFits_startPending n t)
  rcases startPending_keeps_emptied n t with ⟨-, e⟩ | hk
  · rw [e]
  · exact (keepsBut_setSlot n none t).trans (.of_keeps hk)

/-- R30, steps 1 to 3: the recovery of the node is left open. -/
theorem keepsBut_endAction (n : Node) (a : Action) (r : ActionResult) (s : State) :
    KeepsBut (some n) s (endAction n a r s) := by
  have hidle : KeepsBut (some n) s ((releaseHeld n a s).setAction n none) :=
    (KeepsBut.of_keeps (keeps_releaseHeld n a s)).trans (keepsBut_setAction n none _)
  unfold endAction
  dsimp only
  split
  · exact hidle.trans (.of_keeps (keeps_reply _ _ _ _ _))
  · exact hidle.trans (.of_keeps (keeps_supResult n _ _ _))

/-- R30: a completion keeps every law: a recovery that stays in its slot waits behind the POWER ACTION taken first. -/
theorem keeps_complete (n : Node) (r : ActionResult) (s : State) : Keeps s (complete n r s) := by
  rcases complete_cases n r s with ⟨-, e⟩ | ⟨a, t, -, ht, hc⟩
  · rw [e]
  · have hopen : KeepsBut (some n) s t := by
      rw [ht]
      split_ifs
      · exact (keepsBut_endAction n a r s).trans (.of_keeps (keeps_armingCause n false _))
      · exact keepsBut_endAction n a r s
    rcases hc with ⟨hahead, e⟩ | ⟨-, e⟩ <;> rw [e]
    · exact hopen.close fun _ => .inr hahead
    · exact keeps_startPending hopen

/-! ## The ends of phases (R23 to R29) -/

theorem keeps_retake (n : Node) (a : Action) (st : ActionState) (s : State) : Keeps s (retake n a st s) := by
  unfold retake
  split
  · exact (keeps_setAction n a s).trans (keeps_complete n _ _)
  · exact keeps_enterPhase n a st s

theorem keeps_pressEnds (n : Node) (a : Action) (s : State) : Keeps s (pressEnds n a s) := by
  have hrel := keeps_releaseHeld n a s
  unfold pressEnds
  dsimp only
  split_ifs
  · exact hrel.trans (keeps_complete n _ _)
  · exact hrel.trans (keeps_complete n _ _)
  · exact hrel.trans (keeps_enterPhase n _ _ _)
  · exact hrel.trans (keeps_complete n _ _)
  · exact hrel.trans (keeps_enterPhase n _ _ _)

theorem keeps_softEnds (n : Node) (a : Action) (s : State) : Keeps s (softEnds n a s) := by
  unfold softEnds
  dsimp only
  split
  · split
    · exact (keeps_setAction n _ s).trans (keeps_complete n _ _)
    · split
      · exact (keeps_enterPhase n _ _ s).trans (keeps_complete n _ _)
      · exact keeps_enterPhase n _ _ s
  · exact keeps_complete n _ s

theorem keeps_holdEnds (n : Node) (a : Action) (s : State) : Keeps s (holdEnds n a s) := by
  have hrel := keeps_releaseHeld n a s
  unfold holdEnds
  dsimp only
  split_ifs
  · exact hrel.trans (keeps_complete n _ _)
  · exact hrel.trans (keeps_enterPhase n _ _ _)
  · exact hrel.trans (keeps_complete n _ _)

theorem keeps_restEnds (n : Node) (a : Action) (s : State) : Keeps s (restEnds n a s) := by
  unfold restEnds
  split_ifs
  · exact keeps_complete n _ s
  · exact keeps_retake n a _ s

theorem keeps_sequencerHears (n : Node) (p : PowerState) (s : State) : Keeps s (sequencerHears n p s) := by
  unfold sequencerHears
  split
  · rfl
  · rename_i a _
    split
    · rfl
    · split
      · exact keeps_complete n _ s
      · exact keeps_complete n _ s
      · have hrel := keeps_releaseHeld n a s
        dsimp only
        split_ifs
        · exact hrel.trans (keeps_enterPhase n _ _ _)
        · exact hrel.trans (keeps_complete n _ _)
      · have hset := keeps_setAction n { a with confirmed := false, lostConfirmation := true } s
        dsimp only
        split_ifs
        · exact hset.trans (keeps_complete n _ _)
        · exact hset
      · rfl

/-! ## The power watch -/

theorem keeps_endWatch (r : Result) (s : State) : Keeps s (endWatch r s) := by
  unfold endWatch
  split
  · rfl
  · exact (keeps_watch none s).trans (keeps_reply _ _ _ _ _)

theorem keeps_watchHears (s : State) : Keeps s (watchHears s) := by
  unfold watchHears
  split
  · rfl
  · split_ifs
    · rfl
    · exact keeps_endWatch _ s

/-! ## Failures, stages and the matchers -/

/-- R164: what fallback does: nothing, or the supervisor takes and drives a line and says so in its record. -/
theorem fallback_cases (n : Node) (hasUnit : Bool) (s : State) :
    fallback n hasUnit s = s ∨ ∃ l t, takeLine n l .supervisor s = some t
      ∧ fallback n hasUnit s = (driveLine n l true t).modSupervisor n fun x => { x with fallback := true } := by
  unfold fallback
  dsimp only
  split_ifs
  · split
    · exact .inl rfl
    · split
      · exact .inr ⟨_, _, by assumption, rfl⟩
      · exact .inl rfl
  · exact .inl rfl

theorem keeps_fallback (n : Node) (hasUnit : Bool) (s : State) : Keeps s (fallback n hasUnit s) := by
  rcases fallback_cases n hasUnit s with e | ⟨l, t, ht, e⟩ <;> rw [e]
  exact (keeps_takeLine ht).trans ((keeps_driveLine n l true t).trans (keeps_modSupervisor fun h => h))

theorem keeps_failure (n : Node) (cause : Cause) (s : State) : Keeps s (failure n cause s) := by
  have hrecord : Keeps s (s.modSupervisor n fun v => { v with deadline := none, lastFailure := some cause }) :=
    keeps_modSupervisor fun h => h
  have hmark := hrecord.trans (keeps_mark n (.fail (causeMark cause)) _)
  unfold failure
  dsimp only
  split
  · exact hmark.trans (keeps_supTo_notice n _ _ _ _)
  · split_ifs with hlimit
    · refine ((hmark.trans (keeps_modSupervisor fun _ => ?_)).trans (keeps_fallback n _ _)).trans
        (keeps_requestRecovery n _ _)
      exact hlimit
    · exact hmark.trans (keeps_supTo_notice n _ _ _ _)

theorem keeps_bootComplete (n : Node) (s : State) : Keeps s (bootComplete n s) :=
  (((keeps_supTo n _ s).trans (keeps_modSupervisor fun _ => Nat.zero_le _)).trans
    (keeps_releaseBootSelect n _)).trans (keeps_bootProgress n _)

theorem keeps_stageReported (n : Node) (k j : Nat) (s : State) : Keeps s (stageReported n k j s) := by
  unfold stageReported
  dsimp only
  split_ifs
  · rfl
  · exact ((keeps_mark n _ s).trans (keeps_enterWatching n j _)).trans (keeps_bootProgress n _)
  · exact (keeps_mark n _ s).trans (keeps_bootComplete n _)

theorem keeps_decideCompletions (n : Node) (done : List (Fin 16)) (s : State) : Keeps s (decideCompletions n done s) := by
  unfold decideCompletions
  split
  · split
    · exact keeps_failure n _ s
    · split
      · rfl
      · exact keeps_stageReported n _ _ s
  all_goals rfl

theorem keeps_matchByte (n : Node) (b : Byte) (s : State) : Keeps s (matchByte n b s) := by
  have hpart : Keeps s (advancePartials n b s) :=
    keeps_partials (fun p => p.set n (Vector.ofFn fun i => (advanceEntry s n b i).1)) s
  exact hpart.trans (keeps_decideCompletions n _ _)

theorem keeps_supervisorHears (n : Node) (p : PowerState) (s : State) : Keeps s (supervisorHears n p s) := by
  unfold supervisorHears
  split
  · exact keeps_armingCause n true s
  · rfl
  · split
    · split_ifs
      · rfl
      · exact keeps_supNodeOff n s
    · split_ifs
      · rfl
      · exact keeps_supNodeOff n s
    all_goals rfl

end Sys2Proof.Machine
end

