-- ==== Sys2Proof/Proofs/BlocksKeep.lean ====
section
/-!
SUPPORT. What the Page Pool Manager, the Cache and Fetch Engine, the Node Media Ports and the Media Unit Table do keeps
the standing laws (`Keeps`).
-/

namespace Sys2Proof.Machine

/-! ## The pool (R80 to R87) -/

theorem keeps_oldestPageLeaves (n : Node) (s : State) : Keeps s (oldestPageLeaves n s) := by
  unfold oldestPageLeaves
  dsimp only
  split
  · exact keeps_modConsole rfl
  · split_ifs
    · exact keeps_modConsole rfl
    · exact KeepsBut.trans (keeps_modConsole rfl) (keeps_notify _ _)
    · exact keeps_modConsole rfl

theorem keeps_leaveContent (h : Holder) (p : PageId) (s : State) : Keeps s (leaveContent h p s) := by
  cases h with
  | ch n => exact keeps_oldestPageLeaves n s
  | mh u => exact keeps_modCache (fun c => { c with directory := c.directory.filter fun r => r.page != p }) s

theorem keeps_reclaim (h g : Holder) (p : PageId) (s : State) : Keeps s (reclaim h g p s) :=
  (keeps_leaveContent g p s).trans ((keeps_setOwner p (some h) _).trans
    ((keeps_modHolder (h := g) (by intro _; rfl) _).trans (keeps_modHolder (h := h) (by intro _; rfl) _)))

theorem keeps_selfRecycle (h : Holder) (p : PageId) (s : State) : Keeps s (selfRecycle h p s) :=
  (keeps_leaveContent h p s).trans (keeps_modHolder (by intro _; rfl) _)

theorem keeps_allocationFails (h : Holder) (s : State) : Keeps s (allocationFails h s) :=
  keeps_modHolder (by intro _; rfl) s

theorem keeps_allocate (h : Holder) (why : Purpose) (s : State) : Keeps s (allocate h why s).2 := by
  rcases allocate_cases h why s with ⟨p, -, -, e⟩ | ⟨g, p, -, -, e⟩ | ⟨p, -, -, -, e⟩ | e <;> rw [e]
  · exact keeps_setOwner p _ s
  · exact keeps_reclaim h g p s
  · exact keeps_selfRecycle h p s
  · exact keeps_allocationFails h s

/-- The state that an allocation leaves, by its two outcomes. -/
theorem keeps_of_allocate {h : Holder} {why : Purpose} {s t : State} {p : Option PageId}
    (e : allocate h why s = (p, t)) : Keeps s t := by
  have := keeps_allocate h why s
  rwa [e] at this

theorem keeps_freePage (p : PageId) (s : State) : Keeps s (freePage p s) :=
  (keeps_modCache _ s).trans (keeps_setOwner p none _)

/-! ## Ports and fetches (R112, R124, R132 to R136) -/

theorem keeps_endCommand (n : Node) (st : Status) (s : State) : Keeps s (endCommand n st s) := by
  unfold endCommand
  split
  · rfl
  · exact (keeps_modCache _ s).trans (keeps_modPort rfl rfl)

theorem keeps_setAttention (n : Node) (s : State) : Keeps s (setAttention n s) := keeps_modPort rfl rfl

/-- The calls and the receiver of the link are none of its settings. -/
theorem keeps_modCalls (f : List Call → List Call) (s : State) :
    Keeps s (s.modLink fun k => { k with calls := f k.calls }) :=
  keeps_modLink rfl rfl

theorem keeps_allocFetch (u : UnitId) (first count : Nat) (s : State) : Keeps s (allocFetch u first count s) := by
  unfold allocFetch
  split
  · rfl
  · exact (keeps_modCache _ s).trans (keeps_modCalls (fun l => l ++ _) _)

theorem keeps_freeFetchEntry (i : Fin 16) (s : State) : Keeps s (freeFetchEntry i s) :=
  (keeps_modCache _ s).trans (keeps_modCalls (fun l => l.filter _) _)

theorem keeps_modRecord (p : PageId) (f : DirRecord → DirRecord) (s : State) : Keeps s (modRecord p f s) :=
  keeps_modCache _ s

theorem keeps_copyToSlot (n : Node) (r : DirRecord) (s : State) : Keeps s (copyToSlot n r s) :=
  KeepsBut.trans (keeps_modPort rfl rfl) (keeps_modRecord _ _ _)

theorem keeps_collectPages (u : UnitId) (last : Nat) : ∀ (k x : Nat) (s : State), Keeps s (collectPages u last k x s).2
  | 0, _, s => KeepsBut.refl s
  | k + 1, x, s => by
    unfold collectPages
    split
    · rfl
    · split
      · rename_i e
        exact keeps_of_allocate e
      · rename_i e
        exact (keeps_of_allocate e).trans ((keeps_modCache _ _).trans (keeps_collectPages u last k (x + 1) _))

/-- A port's wait may change. -/
theorem keeps_wait (n : Node) (w : Wait) (s : State) : Keeps s (s.modPort n fun p => { p with wait := w }) :=
  keeps_modPort rfl rfl

theorem keeps_demandFetch (n : Node) (u : UnitId) (x last : Nat) (s : State) : Keeps s (demandFetch n u x last s) := by
  have hpages := keeps_collectPages u last 8 x s
  unfold demandFetch
  dsimp only
  split
  · exact hpages.trans (keeps_endCommand n _ _)
  · exact hpages.trans ((keeps_allocFetch u _ _ _).trans (keeps_wait n _ _))

theorem keeps_stage (n : Node) : ∀ (k : Nat) (s : State), Keeps s (stage n k s)
  | 0, s => KeepsBut.refl s
  | k + 1, s => by
    unfold stage
    dsimp only
    split
    · rfl
    · split
      · split
        · rfl
        · split
          · split
            · exact keeps_wait n _ s
            · exact (keeps_copyToSlot n _ s).trans (keeps_stage n k _)
          · split
            · exact keeps_demandFetch n _ _ _ s
            · exact (keeps_modCache _ s).trans (keeps_wait n _ _)
      · rfl

theorem keeps_serveEntryWait : ∀ (k : Nat) (s : State), Keeps s (serveEntryWait k s)
  | 0, s => KeepsBut.refl s
  | k + 1, s => by
    unfold serveEntryWait
    split
    · rfl
    · split
      · exact ((keeps_modCache _ s).trans (keeps_wait _ _ _)).trans
          ((keeps_stage _ stageFuel _).trans (keeps_serveEntryWait k _))
      · rfl

theorem keeps_servePorts (u : UnitId) (lba : Nat) (s : State) : Keeps s (servePorts u lba s) := by
  unfold servePorts
  split
  · rfl
  · rename_i r _
    exact (keeps_foldl (fun t n => keeps_copyToSlot n r t) _ s).trans
      (keeps_inFreeOrder (fun n t => keeps_stage n stageFuel t) _ _)

/-! ## Read-ahead (R141, R142) -/

theorem keeps_flushRun (u : UnitId) (x run : Nat) (s : State) : Keeps s (flushRun u x run s) := by
  unfold flushRun
  split
  · rfl
  · exact keeps_allocFetch u _ _ s

theorem keeps_readAheadFrom (u : UnitId) (stop : Nat) : ∀ (k x run : Nat) (s : State),
    Keeps s (readAheadFrom u stop k x run s)
  | 0, x, run, s => keeps_flushRun u x run s
  | k + 1, x, run, s => by
    unfold readAheadFrom
    split
    · exact keeps_flushRun u x run s
    · split
      · exact (keeps_flushRun u x run s).trans (keeps_readAheadFrom u stop k _ _ _)
      · split
        · rfl
        · split
          · rename_i e
            exact (keeps_of_allocate e).trans (keeps_flushRun u x run _)
          · rename_i p t e
            have hpage : Keeps s (addRecord (fillingRecord u x p) t) := (keeps_of_allocate e).trans (keeps_modCache _ t)
            dsimp only
            split
            · exact (hpage.trans (keeps_flushRun u _ _ _)).trans (keeps_readAheadFrom u stop k _ _ _)
            · exact hpage.trans (keeps_readAheadFrom u stop k _ _ _)

theorem keeps_readAhead (n : Node) (a : ActiveCommand) (s : State) : Keeps s (readAhead n a s) := by
  unfold readAhead
  split
  · rfl
  · dsimp only
    split
    · exact keeps_readAheadFrom _ _ _ _ _ s
    · rfl

/-! ## Stores and writes (R120, R143 to R147) -/

theorem keeps_issueStore (i : Fin 8) (u : UnitId) (d : DirtyPage) (s : State) : Keeps s (issueStore i u d s) :=
  ((keeps_modCache _ s).trans (keeps_modRecord _ _ _)).trans (keeps_modCalls (fun l => l ++ _) _)

theorem keeps_issueStores : ∀ (k : Nat) (s : State), Keeps s (issueStores k s)
  | 0, s => KeepsBut.refl s
  | k + 1, s => by
    unfold issueStores
    split
    · exact (keeps_issueStore _ _ _ s).trans (keeps_issueStores k _)
    · rfl

theorem keeps_freeStoreEntry (i : Fin 8) (s : State) : Keeps s (freeStoreEntry i s) :=
  (keeps_modCache _ s).trans (keeps_modCalls (fun l => l.filter _) _)

theorem keeps_joinDirty (u : UnitId) (p : PageId) (s : State) : Keeps s (joinDirty u p s) := keeps_modCache _ s

theorem keeps_writePage (p : PageId) (data : List Byte) (s : State) : Keeps s (writePage p data s) := keeps_modRam _ s

theorem keeps_makeDirty (u : UnitId) (p : PageId) (data : List Byte) (s : State) : Keeps s (makeDirty u p data s) :=
  ((keeps_writePage p data s).trans (keeps_modRecord _ _ _)).trans (keeps_joinDirty u p _)

theorem keeps_overtake (u : UnitId) (lba : Nat) (p : PageId) (data : List Byte) (s : State) :
    Keeps s (overtake u lba p data s) :=
  ((keeps_makeDirty u p data s).trans (keeps_modCache _ _)).trans (keeps_servePorts u lba _)

theorem keeps_offer (n : Node) (s : State) : Keeps s (offer n s).2 := by
  unfold offer
  split
  · dsimp only
    split
    · split
      · exact keeps_writePage _ _ s
      · exact (keeps_writePage _ _ s).trans (keeps_modRecord _ _ _)
      · split
        · rfl
        · exact keeps_makeDirty _ _ _ s
      · split
        · rfl
        · exact keeps_overtake _ _ _ _ s
    · split
      · rfl
      · split
        · rename_i e
          exact keeps_of_allocate e
        · rename_i e
          exact ((keeps_of_allocate e).trans (keeps_modCache _ _)).trans (keeps_makeDirty _ _ _ _)
  · rfl

theorem keeps_of_offer {n : Node} {s t : State} {b : Bool} (e : offer n s = (b, t)) : Keeps s t := by
  have := keeps_offer n s
  rwa [e] at this

theorem keeps_acceptBlock (n : Node) (s : State) : Keeps s (acceptBlock n s) := by
  unfold acceptBlock
  split
  · rfl
  · dsimp only
    split
    · exact KeepsBut.trans (keeps_modPort rfl rfl) (keeps_endCommand n _ _)
    · exact keeps_modPort rfl rfl

theorem keeps_offerBlocks (n : Node) : ∀ (k : Nat) (s : State), Keeps s (offerBlocks n k s)
  | 0, s => KeepsBut.refl s
  | k + 1, s => by
    unfold offerBlocks
    split
    · exact keeps_wait n _ s
    · split
      · rename_i e
        exact ((keeps_of_offer e).trans (keeps_acceptBlock n _)).trans
          ((keeps_issueStores storeFuel _).trans (keeps_offerBlocks n k _))
      · rename_i e
        exact (keeps_of_offer e).trans (keeps_wait n _ _)

theorem keeps_retryHeld (s : State) : Keeps s (retryHeld s) :=
  keeps_inFreeOrder (fun n t => keeps_offerBlocks n offerFuel t) _ s

theorem keeps_poolChanged (s : State) : Keeps s (poolChanged s) :=
  (keeps_retryHeld s).trans (keeps_issueStores storeFuel _)

/-! ## Units (R93, R101 to R106) -/

theorem keeps_unitNotice (u : UnitId) (cause : UnitCause) (s : State) : Keeps s (unitNotice u cause s) :=
  keeps_notify _ s

theorem keeps_faultPorts (u : UnitId) (s : State) : Keeps s (faultPorts u s) := by
  refine keeps_foldl (fun t n => ?_) _ s
  split
  · exact keeps_endCommand n _ t
  · exact keeps_endCommand n _ t
  all_goals rfl

theorem keeps_enterStoreFault (u : UnitId) (s : State) : Keeps s (enterStoreFault u s) := by
  have hfault : Keeps s (s.modUnit u fun y => { y with state := .storeFault, detachTag := none }) :=
    keeps_modUnit_same rfl rfl rfl (.inr rfl)
  unfold enterStoreFault
  dsimp only
  split
  · exact (hfault.trans (keeps_reply _ _ _ _ _)).trans ((keeps_unitNotice u _ _).trans (keeps_faultPorts u _))
  · exact hfault.trans ((keeps_unitNotice u _ _).trans (keeps_faultPorts u _))

theorem keeps_storeFailure (u : UnitId) (s : State) : Keeps s (storeFailure u s) := by
  have hcount : Keeps s (s.modUnit u fun x =>
      { x with storeFailures := x.storeFailures + 1, consecutive := min 3 (x.consecutive + 1) }) :=
    keeps_modUnit_same rfl rfl rfl (.inl rfl)
  unfold storeFailure
  dsimp only
  split
  · exact hcount.trans (keeps_enterStoreFault u _)
  · exact hcount

theorem keeps_retired (u : UnitId) (s : State) : Keeps s (s.modUnit u MediaUnit.retired) :=
  keeps_modUnit_empty rfl rfl

theorem keeps_freeUnitPages (u : UnitId) (s : State) : Keeps s (freeUnitPages u s) :=
  (keeps_modCache _ s).trans (keeps_modPool rfl rfl rfl)

theorem keeps_drainEnds (u : UnitId) (s : State) : Keeps s (drainEnds u s) := by
  have hout := (keeps_freeUnitPages u s).trans (keeps_retired u _)
  unfold drainEnds
  dsimp only
  split
  · exact (hout.trans (keeps_reply _ _ _ _ _)).trans (keeps_unitNotice u _ _)
  · exact hout.trans (keeps_unitNotice u _ _)

/-! ## Answers (R137 to R140, R148, R149) -/

theorem keeps_strayAnswer (s : State) : Keeps s (strayAnswer s) :=
  KeepsBut.trans (keeps_modLink rfl rfl) (keeps_notify _ _)

theorem keeps_receiveBlock (i : Fin 16) (j : Nat) (s : State) : Keeps s (receiveBlock i j s) := keeps_modCache _ s

theorem keeps_fetchProgress (i : Fin 16) (s : State) : Keeps s (fetchProgress i s) := by
  unfold fetchProgress
  split
  · split
    · exact (keeps_freeFetchEntry i s).trans (keeps_serveEntryWait _ _)
    · rfl
  · rfl

theorem keeps_fillPage (u : UnitId) (lba : Nat) (data : List Byte) (s : State) : Keeps s (fillPage u lba data s) := by
  unfold fillPage
  split
  · exact (keeps_writePage _ _ s).trans (keeps_modRecord _ _ _)
  · rfl

theorem keeps_fillAnswer (tag : Tag) (lba : Nat) (data : List Byte) (s : State) :
    Keeps s (fillAnswer tag lba data s) := by
  unfold fillAnswer
  split
  · exact keeps_strayAnswer s
  · split
    · exact keeps_strayAnswer s
    · split
      · exact keeps_strayAnswer s
      · exact keeps_strayAnswer s
      · exact ((keeps_fillPage _ _ _ s).trans ((keeps_receiveBlock _ _ _).trans (keeps_servePorts _ _ _))).trans
          ((keeps_fetchProgress _ _).trans (keeps_poolChanged _))
      · exact (keeps_receiveBlock _ _ s).trans (keeps_fetchProgress _ _)

theorem keeps_freeBlock (u : UnitId) (lba : Nat) (s : State) : Keeps s (freeBlock u lba s) := by
  unfold freeBlock
  split
  · exact keeps_freePage _ s
  · rfl

theorem keeps_dropFetch (i : Fin 16) (f : Fetch) (s : State) : Keeps s (dropFetch i f s) :=
  (keeps_foldl (fun t lba => keeps_freeBlock f.unit lba t) _ s).trans (keeps_freeFetchEntry i _)

theorem keeps_failFetch (i : Fin 16) (f : Fetch) (timedOut : Bool) (s : State) : Keeps s (failFetch i f timedOut s) := by
  have hends : ∀ hit : List Node,
      Keeps s (hit.foldl (fun t n => endCommand n .mediumError t) (dropFetch i f s)) := fun hit =>
    (keeps_dropFetch i f s).trans (keeps_foldl (fun t n => keeps_endCommand n _ t) hit _)
  have hserve : ∀ t, Keeps s t → Keeps s (if (waitingBlocks f).isEmpty then serveEntryWait entryWaitFuel t
      else poolChanged (serveEntryWait entryWaitFuel t)) := fun t ht => by
    split
    · exact ht.trans (keeps_serveEntryWait _ _)
    · exact (ht.trans (keeps_serveEntryWait _ _)).trans (keeps_poolChanged _)
  unfold failFetch
  refine hserve _ ?_
  split
  · exact ((hends _).trans (keeps_modUnit_same rfl rfl rfl (.inl rfl))).trans (keeps_unitNotice _ _ _)
  · exact (hends _).trans (keeps_modUnit_same rfl rfl rfl (.inl rfl))

theorem keeps_fetchFailedAnswer (tag : Tag) (s : State) : Keeps s (fetchFailedAnswer tag s) := by
  unfold fetchFailedAnswer
  split
  · exact keeps_strayAnswer s
  · exact keeps_failFetch _ _ _ s

theorem keeps_endFlushes (u : UnitId) (s : State) : Keeps s (endFlushes u s) := by
  unfold endFlushes
  split
  · refine keeps_foldl (fun t n => ?_) _ s
    split
    · exact keeps_endCommand n _ t
    · rfl
  · rfl

theorem keeps_storeSucceeds (i : Fin 8) (x : Store) (s : State) : Keeps s (storeSucceeds i x s) := by
  have hfree : Keeps s ((freeStoreEntry i s).modUnit x.unit fun y => { y with consecutive := 0 }) :=
    (keeps_freeStoreEntry i s).trans (keeps_modUnit_same rfl rfl rfl (.inl rfl))
  have hclean := hfree.trans (keeps_modRecord x.page (fun r => { r with state := .clean, age := 0 }) _)
  have hend : ∀ t, Keeps s t → Keeps s (poolChanged (endFlushes x.unit
      (if (t.units.get x.unit).state = .draining ∧ dirtyCount t x.unit = 0 then drainEnds x.unit t else t))) := by
    intro t ht
    split
    · exact (ht.trans (keeps_drainEnds _ _)).trans ((keeps_endFlushes _ _).trans (keeps_poolChanged _))
    · exact ht.trans ((keeps_endFlushes _ _).trans (keeps_poolChanged _))
  have hif : ∀ (c : Bool) (a b : State), Keeps s a → Keeps s b → Keeps s (if c then a else b) := by
    intro c a b ha hb
    cases c
    · exact hb
    · exact ha
  unfold storeSucceeds
  refine hif _ _ _ ?_ (hend _ ?_)
  · exact ((hfree.trans (keeps_modRecord _ _ _)).trans (keeps_joinDirty _ _ _)).trans (keeps_issueStores _ _)
  · split
    · exact hclean.trans (keeps_modUnit_same rfl rfl rfl (.inl rfl))
    · exact hclean

theorem keeps_storedAnswer (tag : Tag) (s : State) : Keeps s (storedAnswer tag s) := by
  unfold storedAnswer
  split
  · exact keeps_strayAnswer s
  · exact keeps_storeSucceeds _ _ s

theorem keeps_storeFails (i : Fin 8) (x : Store) (s : State) : Keeps s (storeFails i x s) :=
  (((keeps_freeStoreEntry i s).trans (keeps_modRecord _ _ _)).trans (keeps_joinDirty _ _ _)).trans
    ((keeps_storeFailure _ _).trans (keeps_issueStores _ _))

theorem keeps_storeFailedAnswer (tag : Tag) (s : State) : Keeps s (storeFailedAnswer tag s) := by
  unfold storeFailedAnswer
  split
  · exact keeps_strayAnswer s
  · exact keeps_storeFails _ _ s

/-! ## Leaving service (R99, R100, R105, R108) -/

theorem keeps_abortPorts (u : UnitId) (s : State) : Keeps s (abortPorts u s) :=
  keeps_foldl (fun t n => keeps_endCommand n _ t) _ s

theorem keeps_dropFetches (u : UnitId) (s : State) : Keeps s (dropFetches u s) := by
  refine keeps_foldl (fun t i => ?_) _ s
  split
  · split
    · exact keeps_dropFetch i _ t
    · rfl
  · rfl

theorem keeps_dropStores (u : UnitId) (s : State) : Keeps s (dropStores u s) := by
  refine keeps_foldl (fun t i => ?_) _ s
  split
  · split
    · exact keeps_freeStoreEntry i t
    · rfl
  · rfl

theorem keeps_clearNodes (u : UnitId) (s : State) : Keeps s (clearNodes u s) :=
  KeepsBut.trans (keeps_modUnit_empty rfl rfl)
    (keeps_foldl (fun t n => (keeps_setAttention n t).trans (keeps_releaseBootSelect n _)) _ _)

theorem keeps_takeOut (u : UnitId) (s : State) : Keeps s (takeOut u s) :=
  ((keeps_abortPorts u s).trans ((keeps_dropFetches u _).trans (keeps_dropStores u _))).trans
    ((keeps_freeUnitPages u _).trans ((keeps_clearNodes u _).trans (keeps_retired u _)))

/-- R169: the nodes that a unit leaves are told without the unit table. -/
theorem units_clearNodes (u : UnitId) (s : State) :
    (clearNodes u s).units = (s.modUnit u fun x => { x with nodes := Per4.all false, writer := none }).units := by
  have hstep : ∀ (t : State) (n : Node), (releaseBootSelect n (setAttention n t)).units = t.units := fun t n => by
    rcases releaseBootSelect_cases n (setAttention n t) with ⟨l, -, e⟩ | ⟨-, e⟩ <;> rw [e] <;> rfl
  have hfold : ∀ (l : List Node) (t : State),
      (l.foldl (fun t n => releaseBootSelect n (setAttention n t)) t).units = t.units := fun l => by
    induction l with
    | nil => exact fun _ => rfl
    | cons n l ih => exact fun t => (ih _).trans (hstep t n)
  exact hfold _ _

theorem keeps_startDrain (u : UnitId) (tag : Tag) (s : State) : Keeps s (startDrain u tag s) := by
  have htag : Keeps s (s.modUnit u fun x => { x with detachTag := some tag }) :=
    keeps_modUnit_same rfl rfl rfl (.inl rfl)
  refine (htag.trans ((keeps_abortPorts u _).trans ((keeps_dropFetches u _).trans (keeps_clearNodes u _)))).trans
    (keeps_modUnit_empty ?_ ?_) <;> rw [units_clearNodes, units_modUnit, if_pos rfl]

theorem keeps_afterLeaving (before s : State) : Keeps s (afterLeaving before s) := by
  rcases afterLeaving_cases before s with ⟨-, e⟩ | ⟨-, e⟩ <;> rw [e]
  · exact (keeps_serveEntryWait _ s).trans (keeps_poolChanged _)
  · exact (keeps_serveEntryWait _ s).trans (keeps_issueStores _ _)

/-- R97: the write lock goes to a node of the unit's set. -/
theorem keeps_takeWriteLock {n : Node} {u : UnitId} {s : State} (h : (s.units.get u).nodes.get n) :
    Keeps s (takeWriteLock n u s) := by
  unfold takeWriteLock
  dsimp only
  split
  · rename_i hfree
    have hlock : Keeps s (s.modUnit u fun y => { y with writer := some n }) := by
      refine keeps_modUnit (fun hf => ⟨hf.exclusive, fun m hm => ?_, hf.idle⟩) fun _ hm => hm
      obtain rfl : n = m := Option.some.inj hm
      exact ⟨hfree.1, h⟩
    exact hlock.trans (keeps_foldl (fun t m => keeps_setAttention m t) _ _)
  · rfl

/-- R96: the unit that serves a node has it in its node set. -/
theorem nodes_of_unitOf {s : State} {n : Node} {u : UnitId} (h : unitOf s n = some u) : (s.units.get u).nodes.get n :=
  List.find?_some (p := fun u => (s.units.get u).nodes.get n) h

/-! ## The blocks hear of power states (R12) -/

theorem keeps_portHears (n : Node) (p : PowerState) (s : State) : Keeps s (portHears n p s) := by
  cases p
  · rfl
  · exact (keeps_endCommand n _ s).trans (keeps_setAttention n _)
  · rfl

theorem keeps_consoleHears (n : Node) (p : PowerState) (s : State) : Keeps s (consoleHears n p s) := by
  cases p
  · rfl
  · exact keeps_modConsole rfl
  · rfl

theorem keeps_powerMark (n : Node) (p : PowerState) (s : State) : Keeps s (powerMark n p s) := by
  cases p
  · exact keeps_mark n _ s
  · exact keeps_mark n _ s
  · rfl

theorem keeps_publish (n : Node) (p : PowerState) (s : State) : Keeps s (publish n p s) :=
  ((keeps_notify _ s).trans (keeps_powerMark n p _)).trans
    (((keeps_sequencerHears n p _).trans (keeps_watchHears _)).trans
      (((keeps_consoleHears n p _).trans (keeps_portHears n p _)).trans (keeps_supervisorHears n p _)))

theorem keeps_rederivePower (n : Node) (s : State) : Keeps s (rederivePower n s) := by
  have hset : Keeps s (s.modLines fun x => { x with power := x.power.set n (powerOf (s.lines.line.get n)) }) :=
    .of_same rfl rfl rfl rfl rfl rfl rfl rfl rfl rfl
  unfold rederivePower
  dsimp only
  split
  · rfl
  · exact hset.trans (keeps_publish n _ _)

theorem keeps_notifyLines (n : Node) (lines : Per6 Bool) (s : State) : Keeps s (notifyLines n lines s) := by
  unfold notifyLines
  split
  · exact keeps_notify _ s
  · rfl

end Sys2Proof.Machine
end

