-- ==== Sys2Proof/Proofs/RequestsKeep.lean ====
section
/-!
SUPPORT. What serving a request does keeps the standing laws (`Keeps`): the requests that set something keep every
setting in its range, UNIT ATTACH the law of units, CLEAR all of them.
-/

namespace Sys2Proof.Machine

/-! ## Settings in their ranges -/

theorem inRange_clamp {lo hi : Nat} (h : lo ≤ hi) (x : Nat) : InRange lo hi (clamp lo hi x) := by
  unfold clamp
  split_ifs <;> constructor <;> omega

theorem inRange_clampOrKeep {lo hi present : Nat} (h : InRange lo hi present) (x : Nat) :
    InRange lo hi (clampOrKeep lo hi present x) := by
  unfold clampOrKeep
  split_ifs
  · exact h
  · exact inRange_clamp (le_trans h.1 h.2) x

/-- R19: timings from a body stay in their ranges where the present ones lie in them. -/
theorem timingsLegal_of_timings? {present y : Timings} {bytes : List Byte} (hp : TimingsLegal present)
    (h : timings? present bytes = some y) : TimingsLegal y := by
  obtain ⟨h1, h2, h3, h4, h5, h6, h7⟩ := hp
  unfold timings? at h
  split at h
  · obtain rfl := Option.some.inj h
    exact ⟨inRange_clampOrKeep h1 _, inRange_clampOrKeep h2 _, inRange_clampOrKeep h3 _, inRange_clampOrKeep h4 _,
      inRange_clampOrKeep h5 _, inRange_clampOrKeep h6 _, inRange_clampOrKeep h7 _⟩
  · simp at h

theorem dataBits?_range {b : Byte} {d : Nat} (h : dataBits? b = some d) : d = 7 ∨ d = 8 := by
  unfold dataBits? at h
  split_ifs at h <;> simp_all

theorem stopBits?_range {b : Byte} {d : Nat} (h : stopBits? b = some d) : d = 1 ∨ d = 2 := by
  unfold stopBits? at h
  split_ifs at h <;> simp_all

/-- R39, R41, R60, R61: console settings from a body lie in their ranges. -/
theorem consoleLegal_of_consoleSettings? {present y : ConsoleSettings} {bytes : List Byte} (hp : ConsoleLegal present)
    (h : consoleSettings? present bytes = some y) : ConsoleLegal y := by
  obtain ⟨hbaud, -, -, hwindow, hrise, -⟩ := hp
  unfold consoleSettings? at h
  split at h
  · split at h
    · rename_i hdb _ hsb _
      obtain rfl := Option.some.inj h
      have hrise' := inRange_clampOrKeep hrise (lo := 1) (hi := 100)
      refine ⟨inRange_clampOrKeep hbaud _, dataBits?_range hdb, stopBits?_range hsb, inRange_clampOrKeep hwindow _,
        hrise' _, ?_⟩
      dsimp only
      split_ifs
      · exact Nat.sub_lt (hrise' _).1 Nat.one_pos
      · omega
    · simp at h
  · simp at h

/-- R128: an SPI mode from a byte is one of the two, where the present one is. -/
theorem spiMode?_range {present k : Nat} {b : Byte} (hp : present = 0 ∨ present = 3) (h : spiMode? present b = some k) :
    k = 0 ∨ k = 3 := by
  unfold spiMode? at h
  split_ifs at h <;> simp_all

/-- R77: the range of a holder's settings. -/
def HolderFits (h : Holder) (x : HolderSettings) : Prop :=
  match h with
  | .ch _ => HolderLegal 2 x
  | .mh _ => HolderLegal 0 x

theorem holderFits_clamped (h : Holder) (r x : Nat) :
    HolderFits h { reservation := clampReservation h r, share := clampShare x } := by
  cases h with
  | ch n => exact ⟨inRange_clamp (by decide) r, (inRange_clamp (Nat.zero_le 16) x).2⟩
  | mh u => exact ⟨inRange_clamp (by decide) r, (inRange_clamp (Nat.zero_le 16) x).2⟩

/-- R154: a pattern from its fields lies in its ranges. -/
theorem patternLegal_of_pattern? {a b c d e : Byte} {literal : List Byte} {p : Pattern}
    (h : pattern? a b c d e literal = some p) : PatternLegal p := by
  unfold pattern? at h
  split at h
  · split_ifs at h with hlen
    obtain rfl := Option.some.inj h
    obtain ⟨h1, h2, h3⟩ := hlen
    exact ⟨⟨by rw [h3]; exact h1, by rw [h3]; exact h2⟩, inRange_clamp (by decide) _⟩
  · simp at h

/-- R158: a policy from its fields lies in its ranges. -/
theorem policyLegal_of_policy? {bytes : List Byte} {p : Policy} (h : policy? bytes = some p) : PolicyLegal p := by
  unfold policy? at h
  split at h
  · split at h
    · obtain rfl := Option.some.inj h
      refine ⟨fun k => ?_, inRange_clamp (by decide) _, (inRange_clamp (Nat.zero_le 15) _).2,
        (inRange_clamp (Nat.zero_le 15) _).2⟩
      fin_cases k <;> exact (inRange_clamp (Nat.zero_le 3600) _).2
    · simp at h
  · simp at h

/-! ## One setting changes -/

/-- What holds of every value of a family goes on to hold where one value that meets it is put in. -/
theorem Per4.forall_set {α : Type} {P : α → Prop} {x : Per4 α} {i : Node} {a : α} (h : ∀ n, P (x.get n)) (ha : P a)
    (n : Node) : P ((x.set i a).get n) := by
  rw [Per4.get_set]
  split_ifs
  · exact ha
  · exact h n

theorem Per4.map_modify_set {α β : Type} (x : Per4 α) (i : Node) (f : α → α) (g : α → β) :
    (x.modify i f).map g = (x.map g).set i (g (f (x.get i))) := by
  refine Per4.ext_get fun j => ?_
  rw [Per4.get_map, Per4.get_modify, Per4.get_set, Per4.get_map]
  split_ifs <;> rfl

theorem Per4.map_set {α β : Type} (x : Per4 α) (i : Node) (a : α) (g : α → β) :
    (x.set i a).map g = (x.map g).set i (g a) := by
  refine Per4.ext_get fun j => ?_
  rw [Per4.get_map, Per4.get_set, Per4.get_set, Per4.get_map]
  split_ifs <;> rfl

variable {x : Settings} {n : Node}

theorem SettingsLegal.withLink (h : SettingsLegal x) {baud ratio : Nat} (hb : InRange 115200 12000000 baud)
    (hr : InRange 1 15 ratio) : SettingsLegal { x with baud := baud, ratio := ratio } := by
  obtain ⟨-, -, hp, ht, hn, hpat, hres⟩ := h
  exact ⟨hb, hr, hp, ht, hn, hpat, hres⟩

theorem SettingsLegal.withLines (h : SettingsLegal x) {period : Nat} {ls : Per6 LineSettings}
    (hp : InRange 1 255 period) (hl : LinesLegal ls) :
    SettingsLegal { x with samplePeriod := period, lines := x.lines.set n ls } := by
  obtain ⟨hb, hr, -, ht, hn, hpat, hres⟩ := h
  have hlines : ∀ m, LinesLegal ((x.lines.set n ls).get m) :=
    Per4.forall_set (fun m => (hn m).1) hl
  exact ⟨hb, hr, hp, ht, fun m => ⟨hlines m, (hn m).2⟩, hpat, hres⟩

theorem SettingsLegal.withTimings (h : SettingsLegal x) {y : Timings} (hy : TimingsLegal y) :
    SettingsLegal { x with timings := x.timings.set n y } := by
  obtain ⟨hb, hr, hp, ht, hn, hpat, hres⟩ := h
  have htimings : ∀ m, TimingsLegal ((x.timings.set n y).get m) := Per4.forall_set (fun m => (hn m).2.1) hy
  refine ⟨hb, hr, hp, ht, fun m => ?_, hpat, hres⟩
  obtain ⟨hlines, -, hrest⟩ := hn m
  exact ⟨hlines, htimings m, hrest⟩

theorem SettingsLegal.withConsole (h : SettingsLegal x) {y : ConsoleSettings} (hy : ConsoleLegal y) :
    SettingsLegal { x with consoles := x.consoles.set n y } := by
  obtain ⟨hb, hr, hp, ht, hn, hpat, hres⟩ := h
  have hconsoles : ∀ m, ConsoleLegal ((x.consoles.set n y).get m) := Per4.forall_set (fun m => (hn m).2.2.1) hy
  refine ⟨hb, hr, hp, ht, fun m => ?_, hpat, hres⟩
  obtain ⟨hlines, htimings, -, hrest⟩ := hn m
  exact ⟨hlines, htimings, hconsoles m, hrest⟩

theorem SettingsLegal.withPort (h : SettingsLegal x) {y : PortSettings} (hy : PortLegal y) :
    SettingsLegal { x with ports := x.ports.set n y } := by
  obtain ⟨hb, hr, hp, ht, hn, hpat, hres⟩ := h
  have hports : ∀ m, PortLegal ((x.ports.set n y).get m) := Per4.forall_set (fun m => (hn m).2.2.2.1) hy
  refine ⟨hb, hr, hp, ht, fun m => ?_, hpat, hres⟩
  obtain ⟨hlines, htimings, hconsoles, -, hrest⟩ := hn m
  exact ⟨hlines, htimings, hconsoles, hports m, hrest⟩

theorem SettingsLegal.withPolicy (h : SettingsLegal x) {y : Policy} (hy : PolicyLegal y) :
    SettingsLegal { x with policies := x.policies.set n y } := by
  obtain ⟨hb, hr, hp, ht, hn, hpat, hres⟩ := h
  have hpolicies : ∀ m, PolicyLegal ((x.policies.set n y).get m) :=
    Per4.forall_set (fun m => (hn m).2.2.2.2.2.2) hy
  refine ⟨hb, hr, hp, ht, fun m => ?_, hpat, hres⟩
  obtain ⟨hlines, htimings, hconsoles, hports, hch, hmh, -⟩ := hn m
  exact ⟨hlines, htimings, hconsoles, hports, hch, hmh, hpolicies m⟩

theorem SettingsLegal.withPattern (h : SettingsLegal x) (i : Fin 16) {y : Pattern} (hy : PatternLegal y) :
    SettingsLegal { x with patterns := x.patterns.set i.val y i.isLt } := by
  obtain ⟨hb, hr, hp, ht, hn, hpat, hres⟩ := h
  refine ⟨hb, hr, hp, ht, hn, fun j => ?_, hres⟩
  by_cases hj : i.val = j.val
  · simpa [Vector.getElem_set, hj] using hy
  · simpa [Vector.getElem_set, hj] using hpat j

theorem SettingsLegal.withPool (h : SettingsLegal x) {ch mh : Per4 HolderSettings} {tick : Nat}
    (hch : ∀ n, HolderLegal 2 (ch.get n)) (hmh : ∀ n, HolderLegal 0 (mh.get n)) (htick : InRange 1 60 tick)
    (hsum : ((ch.toList ++ mh.toList).map fun h => h.reservation).sum ≤ reservationLimit) :
    SettingsLegal { x with channels := ch, caches := mh, agingTick := tick } := by
  obtain ⟨hb, hr, hp, -, hn, hpat, -⟩ := h
  refine ⟨hb, hr, hp, htick, fun m => ?_, hpat, hsum⟩
  obtain ⟨hlines, htimings, hconsoles, hports, -, -, hpol⟩ := hn m
  exact ⟨hlines, htimings, hconsoles, hports, hch m, hmh m, hpol⟩

/-- An operation that leaves everything the laws speak of but the settings keeps the laws where it keeps theirs. -/
theorem KeepsBut.of_settings {y : Option Node} {s t : State} (hq : t.pending = s.pending) (hp : t.phase = s.phase)
    (hl : ∀ (n : Node) (l : LineId), OwnerFits n (s.line n l) → OwnerFits n (t.line n l))
    (hs : t.power.slot = s.power.slot) (ha : t.power.action = s.power.action)
    (hv : ∀ n : Node, AttemptFits s n → AttemptFits t n) (ho : ∀ n : Node, TimerFits (port s n) → TimerFits (port t n))
    (hu : t.units = s.units) (hx : SettingsLaw s → SettingsLaw t) : KeepsBut y s t where
  pending := hq
  phase := hp
  owner := hl
  recovery n _ h := by rwa [RecoveryFits, State.action, hs, ha, requestAhead_congr hq]
  attempts := hv
  timer := ho
  units h := by rwa [UnitLaw, hu]
  settings := hx

/-! ## LINES CONFIG, LINES SET, LINE EVENTS CLEAR (R13, R14, R16) -/

/-- Only the lines of one node and T_s change: each line's owner goes on to fit, and the settings in force are legal. -/
theorem keeps_setLines {n : Node} {ls : Per6 Line} {period : Nat} {s : State}
    (ho : ∀ l, OwnerFits n (s.line n l) → OwnerFits n (ls.get l))
    (hx : SettingsLaw s → InRange 1 255 period ∧ LinesLegal (ls.map Line.settings)) :
    Keeps s (s.modLines fun k => { k with line := k.line.set n ls, samplePeriod := period }) := by
  refine .of_settings rfl rfl (fun m l h => ?_) rfl rfl (fun _ h => h) (fun _ h => h) rfl fun h => ?_
  · by_cases hm : m = n
    · subst hm
      simp only [State.line, State.modLines_lines, Per4.get_set_same]
      exact ho l h
    · simp only [State.line, State.modLines_lines, Per4.get_set_other _ hm]
      exact h
  · obtain ⟨hp, hl⟩ := hx h
    have hlegal := SettingsLegal.withLines (n := n) h hp hl
    have heq : (s.modLines fun k => { k with line := k.line.set n ls, samplePeriod := period }).settings
        = { s.settings with samplePeriod := period, lines := s.settings.lines.set n (ls.map Line.settings) } := by
      simp only [State.settings, State.modLines, Per4.map_set]
    rwa [SettingsLaw, heq]

/-- Lines that keep their settings keep the law of settings. -/
theorem keeps_sameSettings {n : Node} {ls : Per6 Line} {s : State}
    (ho : ∀ l, OwnerFits n (s.line n l) → OwnerFits n (ls.get l))
    (hs : ∀ l, (ls.get l).settings = (s.line n l).settings) :
    Keeps s (s.modLines fun k => { k with line := k.line.set n ls }) := by
  have hmap : ls.map Line.settings = (s.lines.line.get n).map Line.settings :=
    Per6.ext_get fun l => by rw [Per6.get_map, Per6.get_map, hs l]; rfl
  refine keeps_setLines (period := s.lines.samplePeriod) ho fun h => ⟨?_, ?_⟩
  · obtain ⟨-, -, hp, -⟩ := h
    exact hp
  · obtain ⟨-, -, -, -, hn, -⟩ := h
    have := (hn n).1
    simp only [State.settings, Per4.get_map] at this
    rwa [hmap]

theorem keeps_lineSets {n : Node} {f : Per6 Line → Per6 Line} {s : State}
    (ho : ∀ l, OwnerFits n (s.line n l) → OwnerFits n ((f (s.lines.line.get n)).get l))
    (hs : ∀ l, ((f (s.lines.line.get n)).get l).settings = (s.line n l).settings) :
    Keeps s (s.modLines fun k => { k with line := k.line.modify n f }) :=
  keeps_sameSettings ho hs

theorem keeps_setLinesDriven (n : Node) (m values : Per6 Bool) (s : State) : Keeps s (setLines n m values s) := by
  refine keeps_lineSets (fun l h => ?_) fun l => ?_ <;> rw [Per6.get_build] <;> split
  · exact h
  · exact h
  · rfl
  · rfl

theorem keeps_clearFlags (n : Node) (m : Per6 Bool) (s : State) : Keeps s (clearFlags n m s) := by
  refine keeps_lineSets (fun l h => ?_) fun l => ?_ <;> rw [Per6.get_build] <;> split
  · exact h
  · exact h
  · rfl
  · rfl

/-- R13: the settings that a node's lines have after a request names some of them. -/
theorem linesLegal_of_accepted {s : State} {n : Node} {xs : List (LineId × LineSettings)} {ls : Per6 LineSettings}
    (hls : ∀ l, ls.get l = match settingsFor xs l with | some x => x | none => (s.line n l).settings)
    (hs : LinesLegal ((s.lines.line.get n).map Line.settings)) (hr : linesConfigRefusal s n xs = none) :
    LinesLegal ls := by
  unfold linesConfigRefusal at hr
  dsimp only at hr
  split_ifs at hr with hopen hdup
  refine ⟨?_, fun l => ?_⟩
  · have hroles : ls.toList.map (fun x => x.role) = allLines.map fun l =>
        match settingsFor xs l with
        | some x => x.role
        | none => (s.line n l).role := by
      have hrole : ∀ l, (ls.get l).role = match settingsFor xs l with
          | some x => x.role
          | none => (s.line n l).role := fun l => by
        rw [hls l]
        cases settingsFor xs l <;> rfl
      have hlist : ls.toList.map (fun x => x.role) = allLines.map fun l => (ls.get l).role := rfl
      rw [hlist]
      exact List.map_congr_left fun l _ => hrole l
    rw [hroles]
    exact eq_false_of_ne_true hdup
  · rw [hls l]
    cases hx : settingsFor xs l with
    | some x => simpa using (fun e => hopen (List.any_eq_true.mpr ⟨(l, x), mem_of_lookup hx, e⟩))
    | none =>
      have hopen := hs.2 l
      rwa [Per6.get_map] at hopen

theorem keeps_applyLinesConfig {n : Node} {period : Nat} {xs : List (LineId × LineSettings)} {s : State}
    (hr : linesConfigRefusal s n xs = none) : Keeps s (applyLinesConfig n period xs s) := by
  unfold applyLinesConfig
  dsimp only
  have hfree : ∀ x ∈ xs, (s.line n x.1).heldAgainst x.2 = false := by
    unfold linesConfigRefusal at hr
    dsimp only at hr
    split_ifs at hr with _ _ hheld
    simpa using hheld
  refine KeepsBut.trans (keeps_setLines (fun l h => ?_) fun h => ⟨?_, ?_⟩)
    ((keeps_notifyLines n _ _).trans (keeps_rederivePower n _))
  · rw [Per6.get_build]
    cases hx : settingsFor xs l with
    | none => exact h
    | some x =>
      have hheld := hfree (l, x) (mem_of_lookup hx)
      by_cases ho : (s.line n l).owner = .none
      · exact .of_none ho
      · have hrole : (s.line n l).role = x.role := by
          by_contra hne
          exact absurd ((Line.heldAgainst_iff _ _).mpr ⟨ho, .inl hne⟩) (by simp [hheld])
        unfold OwnerFits at h
        rw [hrole] at h
        exact h
  · obtain ⟨-, -, hp, -⟩ := h
    exact inRange_clampOrKeep hp period
  · obtain ⟨-, -, -, -, hn, -⟩ := h
    have hold := (hn n).1
    simp only [State.settings, Per4.get_map] at hold
    refine linesLegal_of_accepted (fun l => ?_) hold hr
    rw [Per6.get_map, Per6.get_build]
    cases settingsFor xs l <;> rfl

theorem keeps_badRequest (tag : Tag) (kind : Byte) (s : State) : Keeps s (badRequest tag kind s) :=
  keeps_reply _ _ _ _ s

theorem keeps_serveLinesConfig (tag : Tag) (body : List Byte) (s : State) : Keeps s (serveLinesConfig tag body s) := by
  unfold serveLinesConfig
  split
  · split
    · split
      · split
        · exact keeps_reply _ _ _ _ s
        · exact (keeps_applyLinesConfig (by assumption)).trans (keeps_reply _ _ _ _ _)
      · exact keeps_badRequest _ _ s
    · exact keeps_badRequest _ _ s
  · exact keeps_badRequest _ _ s

theorem keeps_serveLinesSet (tag : Tag) (body : List Byte) (s : State) : Keeps s (serveLinesSet tag body s) := by
  unfold serveLinesSet
  split
  · split
    · split
      · exact keeps_reply _ _ _ _ s
      · exact (keeps_setLinesDriven _ _ _ s).trans (keeps_reply _ _ _ _ _)
    · exact keeps_badRequest _ _ s
  · exact keeps_badRequest _ _ s

theorem keeps_serveLinesRead (tag : Tag) (body : List Byte) (s : State) : Keeps s (serveLinesRead tag body s) := by
  unfold serveLinesRead
  split
  · split
    · exact keeps_reply _ _ _ _ s
    · exact keeps_badRequest _ _ s
  · exact keeps_badRequest _ _ s

theorem keeps_serveLineEventsClear (tag : Tag) (body : List Byte) (s : State) :
    Keeps s (serveLineEventsClear tag body s) := by
  unfold serveLineEventsClear
  split
  · split
    · exact (keeps_clearFlags _ _ s).trans (keeps_reply _ _ _ _ _)
    · exact keeps_badRequest _ _ s
  · exact keeps_badRequest _ _ s

/-! ## POWER ACTION, POWER TIMINGS, POWER WATCH (R19, R21, R31 to R33, R35) -/

/-- R21: after an accepted POWER ACTION an action runs on the node. -/
theorem action_releaseBootSelect (n : Node) (s : State) (m : Node) :
    (releaseBootSelect n s).action m = s.action m := by
  rcases releaseBootSelect_cases n s with ⟨l, -, e⟩ | ⟨-, e⟩ <;> rw [e] <;> rfl

theorem keepsBut_acceptAction {n : Node} {kind : ActionKind} {tag : Tag} {escalate : Bool} {s t : State}
    (h : KeepsBut (some n) s t) : Keeps s (acceptAction n kind tag escalate t) := by
  have hstart : ∀ (o : Originator) (e : Bool) (u : State), KeepsBut (some n) s u →
      Keeps s (startAction n kind o e u) := fun o e u hu =>
    (hu.trans (.of_keeps (keeps_startAction n kind o e u))).close (.of_action (action_startAction n kind o e u))
  have hfirst : ∀ (o : Originator) (e : Bool),
      Keeps s (startAction n kind o e (if kind = .diag then t else cancelPending n kind t)) := fun o e => by
    split
    · exact hstart o e t h
    · exact hstart o e _ (h.trans (.of_keeps (keeps_cancelPending n kind t)))
  unfold acceptAction
  dsimp only
  split
  · exact (hfirst _ _).trans (keeps_releaseBootSelect n _)
  · exact hfirst _ _

theorem keepsBut_preemptRunning (n : Node) (s : State) : KeepsBut (some n) s (preemptRunning n s) := by
  unfold preemptRunning
  split
  · exact keepsBut_endAction n _ _ s
  · rfl

theorem keeps_servePowerAction (tag : Tag) (body : List Byte) (s : State) : Keeps s (servePowerAction tag body s) := by
  unfold servePowerAction
  split
  · split
    · split
      · exact keeps_reply _ _ _ _ s
      · exact keepsBut_acceptAction (KeepsBut.refl s)
      · exact keepsBut_acceptAction (keepsBut_preemptRunning _ s)
    · exact keeps_badRequest _ _ s
  · exact keeps_badRequest _ _ s

theorem keeps_setTimings {n : Node} {bytes : List Byte} {y : Timings} {s : State}
    (h : timings? (s.power.timings.get n) bytes = some y) :
    Keeps s (s.modPower fun p => { p with timings := p.timings.set n y }) :=
  .of_settings rfl rfl (fun _ _ h => h) rfl rfl (fun _ h => h) (fun _ h => h) rfl fun hs => by
    obtain ⟨-, -, -, -, hn, -⟩ := id hs
    exact SettingsLegal.withTimings (n := n) hs (timingsLegal_of_timings? (hn n).2.1 h)

theorem keeps_servePowerTimings (tag : Tag) (body : List Byte) (s : State) :
    Keeps s (servePowerTimings tag body s) := by
  unfold servePowerTimings
  split
  · split
    · split
      · exact (keeps_setTimings (by assumption)).trans (keeps_reply _ _ _ _ _)
      · exact keeps_badRequest _ _ s
    · exact keeps_badRequest _ _ s
  · exact keeps_badRequest _ _ s

theorem keeps_startWatch (tag : Tag) (e : Per4 Expected) (timeout : Nat) (s : State) :
    Keeps s (startWatch tag e timeout s) := by
  unfold startWatch
  dsimp only
  split
  · exact (keeps_endWatch _ s).trans (keeps_watch _ _)
  · exact (keeps_endWatch _ s).trans (keeps_reply _ _ _ _ _)

theorem keeps_servePowerWatch (tag : Tag) (body : List Byte) (s : State) : Keeps s (servePowerWatch tag body s) := by
  unfold servePowerWatch
  split
  · split
    · exact keeps_startWatch _ _ _ s
    · exact keeps_badRequest _ _ s
  · exact keeps_badRequest _ _ s

/-! ## The console's requests (R41, R52, R54, R55, R57, R73) -/

theorem keeps_applyConsoleConfig {n : Node} {bytes : List Byte} {y : ConsoleSettings} {s : State}
    (h : consoleSettings? (s.consoles.get n).settings bytes = some y) : Keeps s (applyConsoleConfig n y s) := by
  have hset : Keeps s (s.modConsole n (Console.configure y)) :=
    .of_settings rfl rfl (fun _ _ h => h) rfl rfl (fun _ h => h) (fun _ h => h) rfl fun hs => by
      obtain ⟨-, -, -, -, hn, -⟩ := id hs
      have hold := (hn n).2.2.1
      simp only [State.settings, Per4.get_map] at hold
      have hlegal := SettingsLegal.withConsole (n := n) hs (consoleLegal_of_consoleSettings? hold h)
      have heq : (s.modConsole n (Console.configure y)).settings
          = { s.settings with consoles := s.settings.consoles.set n y } := by
        simp only [State.settings, State.modConsole, Per4.map_modify_set]
        rfl
      rwa [SettingsLaw, heq]
  exact (hset.trans (keeps_mark n _ _)).trans (keeps_clearPartials n _)

theorem keeps_serveConsoleConfig (tag : Tag) (body : List Byte) (s : State) :
    Keeps s (serveConsoleConfig tag body s) := by
  unfold serveConsoleConfig
  split
  · split
    · split
      · exact (keeps_applyConsoleConfig (by assumption)).trans (keeps_reply _ _ _ _ _)
      · exact keeps_badRequest _ _ s
    · exact keeps_badRequest _ _ s
  · exact keeps_badRequest _ _ s

theorem keeps_serveConsoleSend (tag : Tag) (body : List Byte) (s : State) : Keeps s (serveConsoleSend tag body s) := by
  unfold serveConsoleSend
  split
  · split
    · split
      · exact KeepsBut.trans (keeps_modConsole rfl) (keeps_reply _ _ _ _ _)
      · exact keeps_badRequest _ _ s
    · exact keeps_badRequest _ _ s
  · exact keeps_badRequest _ _ s

theorem keeps_serveConsoleBreak (tag : Tag) (body : List Byte) (s : State) : Keeps s (serveConsoleBreak tag body s) := by
  unfold serveConsoleBreak
  split
  · split
    · split
      · exact keeps_reply _ _ _ _ s
      · exact keeps_modConsole rfl
    · exact keeps_badRequest _ _ s
  · exact keeps_badRequest _ _ s

theorem keeps_serveConsoleRead (tag : Tag) (body : List Byte) (s : State) : Keeps s (serveConsoleRead tag body s) := by
  unfold serveConsoleRead
  split
  · split
    · exact keeps_reply _ _ _ _ s
    · exact keeps_badRequest _ _ s
  · exact keeps_badRequest _ _ s

theorem keeps_serveConsoleForward (tag : Tag) (body : List Byte) (s : State) :
    Keeps s (serveConsoleForward tag body s) := by
  unfold serveConsoleForward
  split
  · split
    · exact KeepsBut.trans (keeps_modConsole rfl) (keeps_reply _ _ _ _ _)
    · exact keeps_badRequest _ _ s
  · exact keeps_badRequest _ _ s

theorem keeps_serveConsoleStatus (tag : Tag) (body : List Byte) (pins : Per4 Level) (s : State) :
    Keeps s (serveConsoleStatus tag body pins s) := by
  unfold serveConsoleStatus
  split
  · split
    · exact keeps_reply _ _ _ _ s
    · exact keeps_badRequest _ _ s
  · exact keeps_badRequest _ _ s

/-! ## The pool's requests (R88 to R90) -/

theorem holder_modHolder (g h : Holder) (f : HolderRecord → HolderRecord) (p : Pool) :
    (p.modHolder g f).holder h = if h = g then f (p.holder g) else p.holder h := by
  cases g with
  | ch n =>
    cases h with
    | ch m => simp [Pool.modHolder, Pool.holder, Per4.get_modify]
    | mh v => simp [Pool.modHolder, Pool.holder]
  | mh u =>
    cases h with
    | ch m => simp [Pool.modHolder, Pool.holder]
    | mh v => simp [Pool.modHolder, Pool.holder, Per4.get_modify]

theorem agingTick_modHolder (g : Holder) (f : HolderRecord → HolderRecord) (p : Pool) :
    (p.modHolder g f).agingTick = p.agingTick := by
  cases g <;> rfl

/-- R77, R199: the shares that a body gives lie in their ranges. -/
theorem maskedShares_fit : ∀ {hs : List Holder} {bytes : List Byte} {xs : List (Holder × Nat × Nat)},
    maskedShares hs bytes = some xs → ∀ x ∈ xs, HolderFits x.1 { reservation := x.2.1, share := x.2.2 }
  | [], [], xs, h => by
    obtain rfl := Option.some.inj h
    simp
  | [], _ :: _, xs, h => by simp [maskedShares] at h
  | _ :: _, [], xs, h => by simp [maskedShares] at h
  | _ :: _, [_], xs, h => by simp [maskedShares] at h
  | g :: hs, r :: y :: rest, xs, h => by
    obtain ⟨l, hl, rfl⟩ := Option.map_eq_some_iff.mp h
    intro x hx
    rcases List.mem_cons.mp hx with rfl | hx
    · exact holderFits_clamped g _ _
    · exact maskedShares_fit hl x hx

/-- R77, R89: shares in their ranges leave every holder in its range. -/
theorem applyShares_fit : ∀ {xs : List (Holder × Nat × Nat)} {p : Pool},
    (∀ x ∈ xs, HolderFits x.1 { reservation := x.2.1, share := x.2.2 }) → (∀ h, HolderFits h (p.holder h).settings) →
    ∀ h, HolderFits h ((p.applyShares xs).holder h).settings
  | [], _, _, hp => hp
  | x :: xs, p, hx, hp => by
    refine applyShares_fit (xs := xs)
      (p := p.modHolder x.1 fun r => { r with reservation := x.2.1, share := x.2.2 })
      (fun y hy => hx y (List.mem_cons_of_mem _ hy)) fun h => ?_
    rw [holder_modHolder]
    split_ifs with e
    · subst e
      exact hx x List.mem_cons_self
    · exact hp h

theorem agingTick_applyShares : ∀ (xs : List (Holder × Nat × Nat)) (p : Pool),
    (p.applyShares xs).agingTick = p.agingTick
  | [], _ => rfl
  | x :: xs, p => (agingTick_applyShares xs _).trans (agingTick_modHolder x.1 _ p)

/-- R76, R77: a pool whose holders and tick lie in their ranges, and whose reservations fit, may replace the pool. -/
theorem keeps_pool {s : State} {p : Pool}
    (hfit : (∀ h, HolderFits h (s.pool.holder h).settings) → ∀ h, HolderFits h (p.holder h).settings)
    (htick : InRange 1 60 s.pool.agingTick → InRange 1 60 p.agingTick) (hsum : p.reserved ≤ reservationLimit) :
    Keeps s { s with pool := p } :=
  .of_settings rfl rfl (fun _ _ h => h) rfl rfl (fun _ h => h) (fun _ h => h) rfl fun hs => by
    obtain ⟨-, -, -, ht, hn, -⟩ := id hs
    have hall : ∀ h, HolderFits h (s.pool.holder h).settings := fun h => by
      cases h with
      | ch n =>
        obtain ⟨-, -, -, -, hch, -⟩ := hn n
        simp only [State.settings, Per4.get_map] at hch
        exact hch
      | mh u =>
        obtain ⟨-, -, -, -, -, hmh, -⟩ := hn u
        simp only [State.settings, Per4.get_map] at hmh
        exact hmh
    have hnew := hfit hall
    exact SettingsLegal.withPool (ch := p.consoles.map HolderRecord.settings) (mh := p.caches.map HolderRecord.settings)
      (tick := p.agingTick) hs (fun n => by rw [Per4.get_map]; exact hnew (.ch n))
      (fun u => by rw [Per4.get_map]; exact hnew (.mh u)) (htick ht) hsum

theorem keeps_applyTick (tick : Nat) (s : State) : Keeps s (applyTick tick s) := by
  have htick : Keeps s (s.modPool fun p => { p with agingTick := clamp 1 60 tick }) :=
    .of_settings rfl rfl (fun _ _ h => h) rfl rfl (fun _ h => h) (fun _ h => h) rfl fun hs => by
      obtain ⟨hb, hr, hp, -, hn, hpat, hres⟩ := hs
      exact ⟨hb, hr, hp, inRange_clamp (by decide) tick, hn, hpat, hres⟩
  unfold applyTick
  split
  · rfl
  · exact htick.trans (keeps_modCache _ _)

theorem keeps_servePoolConfig (tag : Tag) (body : List Byte) (s : State) : Keeps s (servePoolConfig tag body s) := by
  unfold servePoolConfig
  split
  · split
    · exact keeps_badRequest _ _ s
    · rename_i xs hxs
      dsimp only
      split
      · exact keeps_reply _ _ _ _ s
      · rename_i hsum
        split
        · exact keeps_reply _ _ _ _ s
        · have hpool : Keeps s { s with pool := s.pool.applyShares xs } :=
            keeps_pool (applyShares_fit (maskedShares_fit hxs)) (fun h => by rwa [agingTick_applyShares])
              (Nat.le_of_not_lt hsum)
          exact ((hpool.trans (keeps_applyTick _ _)).trans (keeps_poolChanged _)).trans (keeps_reply _ _ _ _ _)
  · exact keeps_badRequest _ _ s

theorem keeps_servePoolStatus (tag : Tag) (body : List Byte) (s : State) : Keeps s (servePoolStatus tag body s) := by
  unfold servePoolStatus
  split
  · split
    · exact keeps_reply _ _ _ _ s
    · exact keeps_badRequest _ _ s
  · exact keeps_badRequest _ _ s

/-! ## The unit table's requests (R94, R98, R107) -/

/-- R94, check 3: no node of an accepted mask is in another unit's node set. -/
theorem nodeConflict_none {s : State} {u v : UnitId} {m : Per4 Bool} {n : Node} (h : nodeConflict s u m = none)
    (hv : v ≠ u) (hm : m.get n) : ¬ (s.units.get v).nodes.get n := by
  intro hvn
  have hn : n ∈ maskNodes m := List.mem_filter.mpr ⟨mem_allNodes n, hm⟩
  have hfind := List.findSome?_eq_none_iff.mp h n hn
  rw [Option.map_eq_none_iff] at hfind
  have := List.find?_eq_none.mp hfind v (mem_allNodes v)
  exact this (by simp [hv, hvn])

/-- R94, check 1: an accepted mask of an EXCLUSIVE unit names one node. -/
theorem badMask_exclusive {mode : Mode} {m : Per4 Bool} (h : badMask mode m = false) (hmode : mode = .exclusive)
    (n k : Node) (hn : m.get n) (hk : m.get k) : n = k := by
  have hlen : (maskNodes m).length ≤ 1 := by
    subst hmode
    have := (Bool.or_eq_false_iff.mp h).2
    simpa using this
  have hmem : ∀ {j : Node}, m.get j → j ∈ maskNodes m := fun hj => List.mem_filter.mpr ⟨mem_allNodes _, hj⟩
  have h1 := hmem hn
  have h2 := hmem hk
  cases hl : maskNodes m with
  | nil => simp [hl] at h1
  | cons a l =>
    obtain rfl : l = [] := by
      rw [hl, List.length_cons] at hlen
      exact List.length_eq_zero_iff.mp (by omega)
    rw [hl] at h1 h2
    exact (List.mem_singleton.mp h1).trans (List.mem_singleton.mp h2).symm

theorem keeps_attachUnit {u : UnitId} {mode : Mode} {m : Per4 Bool} {capacity timeout window limit : Nat} {s : State}
    (hmask : badMask mode m = false) (hc : nodeConflict s u m = none) :
    Keeps s (attachUnit u (attachedUnit mode m capacity timeout window limit) s) := by
  have hrecord : Keeps s (s.modUnit u fun _ => attachedUnit mode m capacity timeout window limit) :=
    keeps_units (fun h => unitLaw_modUnit h
      ⟨fun e => badMask_exclusive hmask e, fun n e => absurd e (by simp [attachedUnit]),
        fun e => absurd e (by simp [attachedUnit])⟩ fun n v hv hm => nodeConflict_none hc hv hm) rfl
  exact hrecord.trans (keeps_foldl (fun t n => keeps_setAttention n t) _ _)

theorem keeps_serveUnitAttach (tag : Tag) (body : List Byte) (s : State) : Keeps s (serveUnitAttach tag body s) := by
  unfold serveUnitAttach
  split
  · split
    · split
      · exact keeps_badRequest _ _ s
      · split
        · exact keeps_reply _ _ _ _ s
        · split
          · exact keeps_reply _ _ _ _ s
          · exact (keeps_attachUnit (eq_false_of_ne_true (by assumption)) (by assumption)).trans (keeps_reply _ _ _ _ _)
    · exact keeps_badRequest _ _ s
  · exact keeps_badRequest _ _ s

theorem keeps_forceOut (u : UnitId) (s : State) : Keeps s (forceOut u s) :=
  (keeps_takeOut u s).trans (keeps_modUnit_same rfl rfl rfl (.inl rfl))

theorem keeps_endDrainReply (before : State) (u : UnitId) (r : Result) (s : State) :
    Keeps s (endDrainReply before u r s) := by
  unfold endDrainReply
  split
  · exact keeps_reply _ _ _ _ s
  · rfl

theorem keeps_detachUnit (u : UnitId) (tag : Tag) (force : Bool) (s : State) : Keeps s (detachUnit u tag force s) := by
  have hforced : Keeps s (detachForced u tag s) :=
    (((keeps_forceOut u s).trans (keeps_afterLeaving s _)).trans (keeps_endDrainReply s u _ _)).trans
      (keeps_reply _ _ _ _ _)
  unfold detachUnit
  split
  · exact keeps_reply _ _ _ _ s
  · exact hforced
  · exact hforced
  · exact hforced
  · split
    · exact ((keeps_takeOut u s).trans (keeps_afterLeaving s _)).trans (keeps_reply _ _ _ _ _)
    · exact (keeps_startDrain u tag s).trans (keeps_afterLeaving s _)
  · exact keeps_reply _ _ _ _ s
  · exact keeps_reply _ _ _ _ s

theorem keeps_serveUnitDetach (tag : Tag) (body : List Byte) (s : State) : Keeps s (serveUnitDetach tag body s) := by
  unfold serveUnitDetach
  split
  · split
    · exact keeps_detachUnit _ _ _ s
    · exact keeps_badRequest _ _ s
  · exact keeps_badRequest _ _ s

theorem keeps_serveUnitStatus (tag : Tag) (body : List Byte) (s : State) : Keeps s (serveUnitStatus tag body s) := by
  unfold serveUnitStatus
  split
  · split
    · exact keeps_reply _ _ _ _ s
    · exact keeps_badRequest _ _ s
  · exact keeps_badRequest _ _ s

/-! ## MEDIA PORT CONFIG (R128) -/

theorem keeps_configurePort {n : Node} {mode : Byte} {k : Nat} {timeout : Nat} {midBlock : Bool} {s : State}
    (h : spiMode? (port s n).spiMode mode = some k) :
    Keeps s (s.modPort n fun p => p.configure k (idleTimeoutFrom p.idleTimeout timeout) midBlock) := by
  refine .of_settings rfl rfl (fun _ _ h => h) rfl rfl (fun _ h => h) (fun m hm => ?_) rfl fun hs => ?_
  · simp only [port, State.modPort_ports, Per4.get_modify]
    split_ifs
    · exact timerFits_settleTimer _
    · exact hm
  · obtain ⟨-, -, -, -, hn, -⟩ := id hs
    have hold := (hn n).2.2.2.1
    simp only [State.settings, Per4.get_map] at hold
    have hlegal := SettingsLegal.withPort (n := n) (y := ⟨k, idleTimeoutFrom (port s n).idleTimeout timeout⟩) hs
      ⟨spiMode?_range hold.1 h, inRange_clampOrKeep hold.2 timeout⟩
    have heq : (s.modPort n fun p => p.configure k (idleTimeoutFrom p.idleTimeout timeout) midBlock).settings
        = { s.settings with
            ports := s.settings.ports.set n ⟨k, idleTimeoutFrom (port s n).idleTimeout timeout⟩ } := by
      simp only [State.settings, State.modPort, Per4.map_modify_set]
      rfl
    rwa [SettingsLaw, heq]

theorem keeps_serveMediaPortConfig (tag : Tag) (body : List Byte) (midBlock : Per4 Bool) (s : State) :
    Keeps s (serveMediaPortConfig tag body midBlock s) := by
  unfold serveMediaPortConfig
  split
  · split
    · split
      · exact (keeps_configurePort (by assumption)).trans (keeps_reply _ _ _ _ _)
      · exact keeps_badRequest _ _ s
    · exact keeps_badRequest _ _ s
  · exact keeps_badRequest _ _ s

/-! ## The Boot Supervisor's requests (R154, R158, R170, R171) -/

theorem keeps_setPattern {i : Fin 16} {p : Pattern} (hp : PatternLegal p) (s : State) : Keeps s (setPattern i p s) :=
  .of_settings rfl rfl (fun _ _ h => h) rfl rfl (fun _ h => h) (fun _ h => h) rfl fun hs =>
    SettingsLegal.withPattern hs i hp

theorem keeps_servePatternSet (tag : Tag) (body : List Byte) (s : State) : Keeps s (servePatternSet tag body s) := by
  unfold servePatternSet
  split
  · split
    · exact (keeps_setPattern (patternLegal_of_pattern? (by assumption)) s).trans (keeps_reply _ _ _ _ _)
    · exact keeps_badRequest _ _ s
  · exact keeps_badRequest _ _ s

/-- R158: a policy comes with attempts cut to its limit. -/
theorem keeps_setPolicy {n : Node} {p : Policy} (hp : PolicyLegal p) (s : State) :
    Keeps s ((s.modBoot fun b => { b with policy := b.policy.set n p }).modSupervisor n fun v =>
      { v with attempts := min v.attempts p.limit }) := by
  refine .of_settings rfl rfl (fun _ _ h => h) rfl rfl (fun m hm => ?_) (fun _ h => h) rfl fun hs =>
    SettingsLegal.withPolicy (n := n) hs hp
  simp only [AttemptFits, State.supervisor, State.modSupervisor, State.modBoot, Per4.get_modify, Per4.get_set] at hm ⊢
  split_ifs
  · exact Nat.min_le_right _ _
  · exact hm

theorem keeps_applyPolicy {n : Node} {p : Policy} (hp : PolicyLegal p) (s : State) : Keeps s (applyPolicy n p s) := by
  have hset := keeps_setPolicy (n := n) hp s
  unfold applyPolicy
  dsimp only
  split
  · split
    · exact hset.trans (keeps_bootComplete n _)
    · exact hset
  all_goals exact hset

theorem keeps_serveBootPolicy (tag : Tag) (body : List Byte) (s : State) : Keeps s (serveBootPolicy tag body s) := by
  unfold serveBootPolicy
  split
  · split
    · exact (keeps_applyPolicy (policyLegal_of_policy? (by assumption)) s).trans (keeps_reply _ _ _ _ _)
    · exact keeps_badRequest _ _ s
  · exact keeps_badRequest _ _ s

theorem keeps_rearm (n : Node) (s : State) : Keeps s (rearm n s) := by
  have hzero : Keeps s (s.modSupervisor n fun v => { v with attempts := 0, lastFailure := none }) :=
    keeps_modSupervisor fun _ => Nat.zero_le _
  have hrelease := hzero.trans (keeps_releaseBootSelect n _)
  unfold rearm
  dsimp only
  split
  · exact hrelease.trans (keeps_supNodeOff n _)
  · exact hrelease.trans (keeps_arm n _)

theorem keeps_serveBootRearm (tag : Tag) (body : List Byte) (s : State) : Keeps s (serveBootRearm tag body s) := by
  unfold serveBootRearm
  split
  · split
    · split
      · exact keeps_reply _ _ _ _ s
      all_goals exact (keeps_rearm _ s).trans (keeps_reply _ _ _ _ _)
    · exact keeps_badRequest _ _ s
  · exact keeps_badRequest _ _ s

theorem keeps_serveBootStatus (tag : Tag) (body : List Byte) (s : State) : Keeps s (serveBootStatus tag body s) := by
  unfold serveBootStatus
  split
  · split
    · exact keeps_reply _ _ _ _ s
    · exact keeps_badRequest _ _ s
  · exact keeps_badRequest _ _ s

/-! ## The link's and the loader's requests (R185, R186, R189, R195) -/

theorem keeps_serveIdentify (tag : Tag) (body : List Byte) (s : State) : Keeps s (serveIdentify tag body s) := by
  unfold serveIdentify
  split
  · exact keeps_reply _ _ _ _ s
  · exact keeps_badRequest _ _ s

theorem keeps_configureLink (baud ratio : Nat) (s : State) : Keeps s (s.modLink (Link.configure baud ratio)) :=
  .of_settings rfl rfl (fun _ _ h => h) rfl rfl (fun _ h => h) (fun _ h => h) rfl fun hs => by
    obtain ⟨hb, hr, -⟩ := id hs
    exact SettingsLegal.withLink hs (inRange_clampOrKeep hb baud) (inRange_clampOrKeep hr ratio)

theorem keeps_serveLinkConfig (tag : Tag) (body : List Byte) (s : State) : Keeps s (serveLinkConfig tag body s) := by
  unfold serveLinkConfig
  split
  · exact (keeps_configureLink _ _ s).trans (keeps_addReply _ _)
  · exact keeps_badRequest _ _ s

theorem keeps_serveSaveSettings (tag : Tag) (body : List Byte) (s : State) : Keeps s (serveSaveSettings tag body s) := by
  unfold serveSaveSettings
  split
  · split
    · exact keeps_modLoader _ s
    · exact keeps_reply _ _ _ _ s
  · exact keeps_badRequest _ _ s

theorem keeps_answerCleared (r : ClearedReply) (s : State) : Keeps s (answerCleared r s) := by
  unfold answerCleared
  split
  · split
    · split
      · exact keeps_reply _ _ _ _ s
      · rfl
    · rfl
  · exact keeps_endWatch _ s
  · split
    · exact keeps_reply _ _ _ _ s
    · rfl
  · exact keeps_endDrainReply _ _ _ s

theorem keeps_clearUnits (s : State) : Keeps s (clearUnits s) := by
  refine keeps_foldl (fun t u => ?_) _ s
  split
  · rfl
  · exact keeps_forceOut u t

/-- A view that each value keeps is kept by the whole family. -/
theorem Per4.map_map_same {α β : Type} {f : α → α} {g : α → β} (h : ∀ a, g (f a) = g a) (x : Per4 α) :
    (x.map f).map g = x.map g :=
  Per4.ext_get fun n => by rw [Per4.get_map, Per4.get_map, Per4.get_map, h]

/-- R17, R38, R59, R92, R129, R173: the state after the parts of CLEAR that follow the link's and the unit table's. -/
def clearedRest (t : State) : State :=
  { t with
    lines := { t.lines with line := t.lines.line.map fun ls => ls.map Line.cleared }
    power := t.power.cleared
    consoles := t.consoles.map Console.cleared
    pool := t.pool.cleared
    ports := t.ports.map Port.cleared
    cache := { t.cache with entryWait := [] }
    boot := t.boot.cleared }

theorem clearBlocks_eq (s : State) : clearBlocks s = clearedRest (clearUnits (s.modLink Link.cleared)) := rfl

theorem settings_clearedRest (t : State) : (clearedRest t).settings = t.settings := by
  have hlines : (t.lines.line.map fun ls => ls.map Line.cleared).map (fun ls => ls.map Line.settings)
      = t.lines.line.map fun ls => ls.map Line.settings :=
    Per4.map_map_same (fun ls => Per6.ext_get fun l => by rw [Per6.get_map, Per6.get_map, Per6.get_map]; rfl) _
  have hconsoles : (t.consoles.map Console.cleared).map (fun c => c.settings) = t.consoles.map fun c => c.settings :=
    Per4.map_map_same (by intro _; rfl) _
  have hports : (t.ports.map Port.cleared).map (fun p => PortSettings.mk p.spiMode p.idleTimeout)
      = t.ports.map fun p => PortSettings.mk p.spiMode p.idleTimeout :=
    Per4.map_map_same (by intro _; rfl) _
  have hholders : ∀ r : Per4 HolderRecord,
      (r.map HolderRecord.cleared).map HolderRecord.settings = r.map HolderRecord.settings := fun r =>
    Per4.map_map_same (by intro _; rfl) r
  simp only [State.settings, clearedRest, Sequencer.cleared, Boot.cleared, Pool.cleared, hlines, hconsoles, hports,
    hholders]

theorem keeps_clearedRest (t : State) : Keeps t (clearedRest t) where
  pending := rfl
  phase := rfl
  owner n l _ := by
    simp only [clearedRest, State.line, Per4.get_map, Per6.get_map]
    exact .of_none rfl
  recovery n _ _ := .of_empty (Per4.get_all none n)
  attempts n _ := by
    simp [AttemptFits, clearedRest, State.supervisor, Boot.cleared, resetSupervisor]
  timer n h := by
    simp only [clearedRest, port, Per4.get_map]
    exact h
  units h := h
  settings h := by rwa [SettingsLaw, settings_clearedRest]

theorem keeps_serveClear (tag : Tag) (body : List Byte) (s : State) : Keeps s (serveClear tag body s) := by
  have hlink : ∀ t : State, Keeps t (t.modLink Link.cleared) := fun t => keeps_modLink rfl rfl
  unfold serveClear
  split
  · rw [clearBlocks_eq]
    exact (((keeps_inFreeOrder (fun r t => keeps_answerCleared r t) _ s).trans (hlink _)).trans
      ((keeps_clearUnits _).trans (keeps_clearedRest _))).trans (keeps_reply _ _ _ _ _)
  · exact keeps_badRequest _ _ s

/-! ## Any request (R177) -/

theorem keeps_serveRequest (kind : Byte) (tag : Tag) (body : List Byte) (pins : NodePins) (s : State) :
    Keeps s (serveRequest kind tag body pins s) := by
  unfold serveRequest
  split
  · exact keeps_serveIdentify tag body s
  · exact keeps_serveLinkConfig tag body s
  · exact keeps_serveClear tag body s
  · exact keeps_serveSaveSettings tag body s
  · exact keeps_serveLinesConfig tag body s
  · exact keeps_serveLinesSet tag body s
  · exact keeps_serveLinesRead tag body s
  · exact keeps_serveLineEventsClear tag body s
  · exact keeps_servePowerAction tag body s
  · exact keeps_servePowerTimings tag body s
  · exact keeps_servePowerWatch tag body s
  · exact keeps_serveConsoleConfig tag body s
  · exact keeps_serveConsoleSend tag body s
  · exact keeps_serveConsoleBreak tag body s
  · exact keeps_serveConsoleRead tag body s
  · exact keeps_serveConsoleForward tag body s
  · exact keeps_serveConsoleStatus tag body pins.cts s
  · exact keeps_servePoolConfig tag body s
  · exact keeps_servePoolStatus tag body s
  · exact keeps_serveUnitAttach tag body s
  · exact keeps_serveUnitDetach tag body s
  · exact keeps_serveUnitStatus tag body s
  · exact keeps_serveMediaPortConfig tag body pins.midBlock s
  · exact keeps_servePatternSet tag body s
  · exact keeps_serveBootPolicy tag body s
  · exact keeps_serveBootRearm tag body s
  · exact keeps_serveBootStatus tag body s
  · exact keeps_reply _ _ _ _ s

theorem keeps_drainRequests (pins : NodePins) : ∀ (k : Nat) (s : State), Keeps s (drainRequests pins k s)
  | 0, s => KeepsBut.refl s
  | k + 1, s => by
    unfold drainRequests
    split
    · rfl
    · split
      · rename_i f rest _ _
        have htake : Keeps s (s.modLink fun l => { l with inbox := rest }) := keeps_modLink rfl rfl
        exact (htake.trans (keeps_serveRequest _ _ _ _ _)).trans (keeps_drainRequests pins k _)
      · rfl

end Sys2Proof.Machine
end

