-- ==== Sys2Proof/Proofs/CommandsKeep.lean ====
section
/-!
SUPPORT. What every command of the running part does keeps the standing laws (`Keeps`), and what a step can be: a
millisecond, part reset, its release, the end of loading, or a command guarded by the phase.
-/

namespace Sys2Proof.Machine

/-! ## The link's receiver and transmitter -/

theorem keeps_receiver (b : Option (Fin 4)) (s : State) : Keeps s (s.modLink fun k => { k with receiver := b }) :=
  keeps_modLink rfl rfl

theorem keeps_linkError (f : LinkCounters → LinkCounters) (s : State) : Keeps s (linkError f s) := by
  have hcount : Keeps s (s.modLink fun k => { k with counters := f k.counters }) := keeps_modLink rfl rfl
  exact hcount.trans (keeps_notify _ _)

theorem keeps_hunt (s : State) : Keeps s (hunt s) := keeps_receiver none s

theorem keeps_huntStart (s : State) : Keeps s (huntStart s) := by
  unfold huntStart
  split
  · exact keeps_receiver _ s
  · exact keeps_linkError _ s

theorem keeps_abandonFrame (f : LinkCounters → LinkCounters) (s : State) : Keeps s (abandonFrame f s) := by
  unfold abandonFrame
  split
  · exact (keeps_hunt s).trans (keeps_linkError f _)
  · rfl

theorem keeps_truncateFrame (s : State) : Keeps s (truncateFrame s) := by
  unfold truncateFrame
  split
  · exact ((keeps_hunt s).trans (keeps_linkError _ _)).trans (keeps_huntStart _)
  · rfl

theorem keeps_startByte (s : State) : Keeps s (startByte s) := by
  unfold startByte
  split
  · exact keeps_truncateFrame s
  · exact keeps_huntStart s

theorem keeps_overrunByte (s : State) : Keeps s (overrunByte s) := by
  unfold overrunByte
  split
  · exact keeps_linkError _ s
  · rfl

theorem keeps_receiveRequest (kind : Byte) (tag : Tag) (body : List Byte) (pins : NodePins) (s : State) :
    Keeps s (receiveRequest kind tag body pins s) := by
  unfold receiveRequest
  split
  · rename_i b _
    have hjoin : Keeps s (s.modLink fun k =>
        { k with
          receiver := none
          inbox := k.inbox ++ [{ buffer := b, kind := kind, tag := tag, body := body }] }) := keeps_modLink rfl rfl
    exact hjoin.trans (keeps_drainRequests pins _ _)
  · exact keeps_linkError _ s

theorem keeps_receiveAnswer {f : State → State} (hf : ∀ t, Keeps t (f t)) (s : State) : Keeps s (receiveAnswer f s) := by
  unfold receiveAnswer
  split
  · exact (keeps_hunt s).trans (hf _)
  · exact keeps_linkError _ s

theorem refill_settings (k : Link) : k.refill.baud = k.baud ∧ k.refill.ratio = k.ratio := by
  unfold Link.refill
  split
  · exact ⟨rfl, rfl⟩
  · split <;> exact ⟨rfl, rfl⟩

theorem keeps_sendReply (pins : NodePins) (r : Reply) (rest : List Reply) (s : State) :
    Keeps s (sendReply pins r rest s) := by
  have hsend : Keeps s (s.modLink fun k =>
      (({ k with replies := rest } : Link).startControl (frameWire 0x80#8 r.tag r.body) (replyEffect r)).refill) :=
    keeps_modLink (refill_settings _).1 (refill_settings _).2
  exact hsend.trans (keeps_drainRequests pins _ _)

theorem keeps_sendNotice (e : NoticeEntry) (rest : List NoticeEntry) (s : State) : Keeps s (sendNotice e rest s) :=
  keeps_modLink rfl rfl

theorem keeps_sendCall (c : Call) (rest : List Call) (s : State) : Keeps s (sendCall c rest s) :=
  keeps_modLink rfl rfl

theorem keeps_sendData (n : Node) (s : State) : Keeps s (sendData n s) := by
  unfold sendData
  dsimp only
  split
  · rfl
  · exact KeepsBut.trans (keeps_modConsole rfl) (keeps_modLink rfl rfl)

theorem keeps_sendBulk (s : State) : Keeps s (sendBulk s) := by
  unfold sendBulk
  split
  · exact keeps_sendCall _ _ s
  · exact keeps_sendData _ s
  · rfl

theorem keeps_sendControl (pins : NodePins) (s : State) : Keeps s (sendControl pins s) := by
  unfold sendControl
  split
  · exact keeps_sendReply pins _ _ s
  · exact keeps_sendNotice _ _ s
  · rfl

theorem keeps_chooseClass (pins : NodePins) (s : State) : Keeps s (chooseClass pins s) := by
  unfold chooseClass
  split
  · exact keeps_sendControl pins s
  · exact keeps_sendBulk s

theorem keeps_arbitrate (pins : NodePins) (s : State) : Keeps s (arbitrate pins s) := by
  unfold arbitrate
  split
  · split
    · exact keeps_sendNotice _ _ s
    · exact keeps_chooseClass pins s
  · exact keeps_chooseClass pins s

theorem keeps_arbiterLooks (pins : ArbiterPins) (s : State) : Keeps s (arbiterLooks pins s) := by
  have hlook : Keeps s (s.modLink fun k => { k with cts := pins.cts }) := keeps_modLink rfl rfl
  unfold arbiterLooks
  dsimp only
  split
  · exact hlook.trans (keeps_arbitrate pins.nodes _)
  · exact hlook

theorem afterSent_settings (e : SentEffect) (k : Link) :
    (k.afterSent e).baud = k.baud ∧ (k.afterSent e).ratio = k.ratio := by
  cases e <;> exact ⟨rfl, rfl⟩

theorem keeps_frameEnds (s : State) : Keeps s (frameEnds s) := by
  unfold frameEnds
  split
  · exact keeps_modLink (afterSent_settings _ _).1 (afterSent_settings _ _).2
  · rfl

/-! ## Lines and power (R5, R23 to R29) -/

/-- R5: a sampled line keeps its settings and its owner. -/
theorem afterSample_kept (l : Line) (v : Level) :
    (l.afterSample v).settings = l.settings ∧ (l.afterSample v).owner = l.owner ∧ (l.afterSample v).role = l.role
      ∧ (l.afterSample v).driven = l.driven := by
  unfold Line.afterSample
  split <;> exact ⟨rfl, rfl, rfl, rfl⟩

/-- R5: the lines after a sample of all pins. -/
theorem keeps_sampledLines (pins : BitVec 24) (s : State) :
    Keeps s (s.modLines fun k => { k with line := Per4.build (sampledLines s pins), sinceSample := 0 }) := by
  have hline : ∀ n l, (s.modLines fun k =>
      { k with line := Per4.build (sampledLines s pins), sinceSample := 0 }).line n l
        = (s.line n l).afterSample (pinLevel pins n l) := fun n l => by
    simp only [State.line, State.modLines, sampledLines, Per4.get_build, Per6.get_build]
  refine .of_settings rfl rfl (fun n l h => ?_) rfl rfl (fun _ h => h) (fun _ h => h) rfl fun h => ?_
  · obtain ⟨-, howner, hrole, -⟩ := afterSample_kept (s.line n l) (pinLevel pins n l)
    rw [hline]
    unfold OwnerFits
    rw [howner, hrole]
    exact h
  · have hlines : (Per4.build (sampledLines s pins)).map (fun ls => ls.map Line.settings)
        = s.lines.line.map fun ls => ls.map Line.settings := by
      refine Per4.ext_get fun n => Per6.ext_get fun l => ?_
      obtain ⟨hset, -⟩ := afterSample_kept (s.line n l) (pinLevel pins n l)
      simp only [sampledLines, Per4.get_map, Per4.get_build, Per6.get_map, Per6.get_build, hset]
      rfl
    have heq : (s.modLines fun k =>
        { k with line := Per4.build (sampledLines s pins), sinceSample := 0 }).settings = s.settings := by
      simp only [State.settings, State.modLines, hlines]
    rwa [SettingsLaw, heq]

theorem keeps_sampleAll (pins : BitVec 24) (s : State) : Keeps s (sampleAll pins s) :=
  ((keeps_sampledLines pins s).trans (keeps_inFreeOrder (fun n t => keeps_notifyLines n _ t) _ _)).trans
    (keeps_inFreeOrder (fun n t => keeps_rederivePower n t) _ _)

theorem keeps_timerEnds {n : Node} {st : ActionState} {f : Action → State → State} (hf : ∀ a t, Keeps t (f a t))
    (s : State) : Keeps s (timerEnds n st f s) := by
  unfold timerEnds
  split
  · split
    · exact hf _ s
    · rfl
  · rfl

/-! ## Consoles (R43 to R47, R53, R55, R63 to R66) -/

theorem keeps_storeByte (n : Node) (b : Byte) (s : State) : Keeps s (storeByte n b s) := by
  have hlive : ∀ t : State, Keeps t (t.modConsole n fun x => { x with live := x.live + 1 }) := fun t =>
    keeps_modConsole rfl
  unfold storeByte
  dsimp only
  split
  · exact (keeps_modRam _ s).trans (hlive _)
  · exact hlive s

theorem keeps_extendHistory (n : Node) (s : State) : Keeps s (extendHistory n s) := by
  unfold extendHistory
  split
  · split
    · rename_i e
      exact (keeps_of_allocate e).trans (keeps_modConsole rfl)
    · rename_i e
      exact keeps_of_allocate e
  · rfl

theorem keeps_enterFlood (n : Node) (s : State) : Keeps s (enterFlood n s) := by
  have hflood : Keeps s (s.modConsole n fun c => { c with flood := true, skip := 0 }) := keeps_modConsole rfl
  exact (hflood.trans (keeps_notify _ _)).trans (keeps_poolChanged _)

theorem keeps_countCharacter (n : Node) (s : State) : Keeps s (countCharacter n s) := by
  have hcount : Keeps s (s.modConsole n fun c => { c with count := c.count + 1 }) := keeps_modConsole rfl
  unfold countCharacter
  dsimp only
  split
  · exact hcount.trans (keeps_enterFlood n _)
  · exact hcount

theorem keeps_captureByte (n : Node) (b : Byte) (s : State) : Keeps s (captureByte n b s) :=
  ((keeps_storeByte n b s).trans (keeps_extendHistory n _)).trans
    ((keeps_matchByte n b _).trans (keeps_countCharacter n _))

theorem keeps_receiveCharacter (n : Node) (data : Byte) (parityBit stopBit : Bool) (s : State) :
    Keeps s (receiveCharacter n data parityBit stopBit s) := by
  have htaken : Keeps s (if allLow (s.consoles.get n).settings data parityBit stopBit then
      s.modConsole n fun x => { x.countErrors data parityBit true with receiver := .held }
    else
      captureByte n (storedByte (s.consoles.get n).settings data)
        (s.modConsole n fun x => { x.countErrors data parityBit stopBit with receiver := .idle })) := by
    split
    · exact keeps_modConsole rfl
    · exact KeepsBut.trans (keeps_modConsole rfl) (keeps_captureByte n _ _)
  unfold receiveCharacter
  dsimp only
  split
  · exact htaken
  · exact htaken
  · exact htaken
  all_goals rfl

theorem keeps_storeHeld (n : Node) (s : State) : Keeps s (storeHeld n s) := by
  unfold storeHeld
  split
  · exact KeepsBut.trans (keeps_modConsole rfl) (keeps_captureByte n _ _)
  · rfl

theorem keeps_recognizeBreak (n : Node) (s : State) : Keeps s (recognizeBreak n s) := by
  unfold recognizeBreak
  split
  · exact KeepsBut.trans (keeps_modConsole rfl) ((keeps_mark n _ _).trans (keeps_clearPartials n _))
  · rfl

theorem keeps_endBreak (n : Node) (s : State) : Keeps s (endBreak n s) := by
  unfold endBreak
  split
  · exact keeps_modConsole rfl
  · rfl

theorem keeps_confirmStart (n : Node) (mid : Level) (s : State) : Keeps s (confirmStart n mid s) := by
  unfold confirmStart
  split
  · exact keeps_modConsole rfl
  · exact keeps_modConsole rfl
  · exact keeps_modConsole rfl
  all_goals rfl

theorem startCharacter_settings (c : Console) : c.startCharacter.settings = c.settings := by
  unfold Console.startCharacter
  split
  · split <;> rfl
  · rfl

theorem keeps_transmitStart (n : Node) (cts : Level) (s : State) :
    Keeps s (s.modConsole n fun c => ({ c with cts := cts } : Console).startCharacter) :=
  keeps_modConsole (startCharacter_settings _)

theorem keeps_transmitEnd (n : Node) (s : State) : Keeps s (s.modConsole n Console.endCharacter) := by
  refine keeps_modConsole ?_
  unfold Console.endCharacter
  split <;> rfl

theorem keeps_finishBreak (n : Node) (s : State) : Keeps s (finishBreak n s) := by
  unfold finishBreak
  split
  · split
    · exact KeepsBut.trans (keeps_modConsole rfl) ((keeps_mark n _ _).trans (keeps_reply _ _ _ _ _))
    · rfl
  · rfl

theorem keeps_recoverBreak (n : Node) (s : State) : Keeps s (recoverBreak n s) := by
  unfold recoverBreak
  split
  · split
    · exact keeps_modConsole rfl
    · rfl
  · rfl

theorem keeps_leaveFlood (n : Node) (s : State) : Keeps s (leaveFlood n s) :=
  KeepsBut.trans (keeps_modConsole rfl) (keeps_notify _ _)

theorem keeps_endWindow (n : Node) (s : State) : Keeps s (endWindow n s) := by
  have hrestart : Keeps s (s.modConsole n Console.restartWindow) := keeps_modConsole rfl
  unfold endWindow
  dsimp only
  split
  · exact (hrestart.trans (keeps_leaveFlood n _)).trans (keeps_poolChanged _)
  · exact hrestart

/-! ## The engine's timers and a supervisor's deadline (R139, R149, R151, R162) -/

theorem keeps_fetchTimesOut (i : Fin 16) (s : State) : Keeps s (fetchTimesOut i s) := by
  unfold fetchTimesOut
  split
  · exact keeps_failFetch i _ true s
  · rfl

theorem keeps_storeTimesOut (i : Fin 8) (s : State) : Keeps s (storeTimesOut i s) := by
  unfold storeTimesOut
  split
  · exact keeps_storeFails i _ s
  · rfl

theorem keeps_agePages (s : State) : Keeps s (agePages s) := keeps_modCache _ s

theorem keeps_deadlineEnds (n : Node) (s : State) : Keeps s (deadlineEnds n s) := by
  unfold deadlineEnds
  split
  · exact keeps_failure n _ s
  · rfl

/-! ## The phases of a save (R196) -/

theorem keeps_endSave (r : Result) (d : List Byte) (s : State) : Keeps s (endSave r d s) := by
  unfold endSave
  split
  · exact (keeps_modLoader _ s).trans (keeps_reply _ _ _ _ _)
  · exact keeps_modLoader _ s

theorem keeps_verify (fault : Option ReadFault) (s : State) : Keeps s (verify fault s) := by
  unfold verify
  split
  · dsimp only
    split
    · exact (keeps_modLoader _ s).trans (keeps_endSave _ _ _)
    · exact (keeps_modLoader _ s).trans (keeps_endSave _ _ _)
  · rfl

theorem keeps_saveFails (address taken : Nat) (s : State) : Keeps s (saveFails address taken s) := by
  unfold saveFails
  split
  · rfl
  · exact (keeps_modLoader _ s).trans (keeps_endSave _ _ _)

/-! ## Port commands (R110 to R126) -/

theorem keeps_beginTransaction (n : Node) (s : State) : Keeps s (beginTransaction n s) := keeps_modPort rfl rfl

theorem keeps_endTaking (n : Node) (s : State) : Keeps s (endTaking n s) := keeps_modPort rfl rfl

theorem keeps_respond (n : Node) (taken : Nat) (txn : Byte) (r : Status) (after : List Byte) (s : State) :
    Keeps s (respond n taken txn r after s) := keeps_modPort rfl rfl

theorem keeps_answerWith {n : Node} {txn : Byte} {f : State → Status × State} (hf : ∀ t, Keeps t (f t).2) (s : State) :
    Keeps s (answerWith n txn f s) :=
  ((keeps_beginTransaction n s).trans (hf _)).trans (keeps_respond _ _ _ _ _ _)

theorem keeps_badCommandAt (n : Node) (s : State) : Keeps s (badCommandAt n s).2 := keeps_modPort rfl rfl

theorem keeps_restartIdle (n : Node) (s : State) : Keeps s (restartIdle n s) := keeps_modPort rfl rfl

theorem keeps_openCommand (n : Node) (a : ActiveCommand) (s : State) : Keeps s (openCommand n a s) :=
  keeps_modPort rfl rfl

theorem keeps_openAndEnd (n : Node) (a : ActiveCommand) (st : Status) (s : State) : Keeps s (openAndEnd n a st s).2 :=
  (keeps_openCommand n a s).trans (keeps_endCommand n st _)

theorem keeps_takeRead (n : Node) (lba count : Nat) (s : State) : Keeps s (takeRead n lba count s).2 := by
  unfold takeRead
  split
  · rfl
  · split
    · rfl
    · split
      · rfl
      · dsimp only
        split
        · exact keeps_openAndEnd n _ _ s
        · exact (keeps_openCommand n _ s).trans (keeps_stage n _ _)

theorem keeps_openWrite {n : Node} {u : UnitId} {s : State} (h : (s.units.get u).nodes.get n) (lba count : Nat) :
    Keeps s (openWrite n u lba count s).2 := by
  unfold openWrite
  dsimp only
  split
  · exact (keeps_takeWriteLock h).trans (keeps_openAndEnd n _ _ _)
  · exact (keeps_takeWriteLock h).trans (keeps_openCommand n _ _)

theorem keeps_takeWrite (n : Node) (lba count : Nat) (together : Bool) (s : State) :
    Keeps s (takeWrite n lba count together s).2 := by
  unfold takeWrite
  split
  · rfl
  · split
    · rfl
    · split
      · rename_i h
        exact keeps_openWrite (nodes_of_unitOf h) lba count
      · rfl

theorem keeps_takeFlush (n : Node) (s : State) : Keeps s (takeFlush n s).2 := by
  unfold takeFlush
  split
  · rfl
  · split
    · split
      · exact keeps_openAndEnd n _ _ s
      · exact keeps_openCommand n _ s
    · rfl

theorem keeps_takeBlock (n : Node) (txn : Byte) (s : State) : Keeps s (takeBlock n txn s) := by
  have hbegin := (keeps_beginTransaction n s).trans (keeps_restartIdle n _)
  unfold takeBlock
  dsimp only
  split
  · exact hbegin.trans (KeepsBut.trans (keeps_modPort rfl rfl) (keeps_respond _ _ _ _ _ _))
  all_goals exact hbegin.trans (keeps_respond _ _ _ _ _ _)

theorem keeps_deliver (n : Node) (a : ActiveCommand) (s : State) : Keeps s (deliver n a s) := by
  have hdone : Keeps s (s.modPort n fun p =>
      { p with slots := p.slots.drop 1, active := some { a with done := a.done + 1 } }) := keeps_modPort rfl rfl
  have hend : ∀ t, Keeps s t → Keeps s (if a.done + 1 = a.effective then
      endCommand n (finalStatus { a with done := a.done + 1 }) t else stage n stageFuel t) := fun t ht => by
    split
    · exact ht.trans (keeps_endCommand n _ _)
    · exact ht.trans (keeps_stage n _ _)
  unfold deliver
  refine hend _ ?_
  split
  · exact hdone.trans (keeps_readAhead n a _)
  · exact hdone

theorem keeps_blockEnds (n : Node) (s : State) : Keeps s (blockEnds n s) := by
  unfold blockEnds
  split
  · dsimp only
    split
    · exact (keeps_endTaking n s).trans (keeps_deliver n _ _)
    · exact keeps_endTaking n s
  · exact keeps_endTaking n s
  · rfl

theorem keeps_giveBlockTaken (n : Node) (s : State) : Keeps s (giveBlockTaken n s) :=
  ((keeps_beginTransaction n s).trans (keeps_restartIdle n _)).trans (keeps_modPort rfl rfl)

theorem keeps_stageGiven (n : Node) (a : ActiveCommand) (data : List Byte) (s : State) :
    Keeps s (stageGiven n a data s) := keeps_modPort rfl rfl

theorem keeps_decideGive (n : Node) (data : List Byte) (crc : BitVec 16) (s : State) :
    Keeps s (decideGive n data crc s).2 := by
  unfold decideGive
  dsimp only
  split
  · rfl
  · split
    · rfl
    · split
      · exact keeps_endCommand n _ s
      · split
        · rfl
        · split
          · exact KeepsBut.trans (keeps_modPort rfl rfl) (keeps_endCommand n _ _)
          · split
            · exact keeps_endCommand n _ s
            · split
              · exact keeps_stageGiven n _ data s
              · exact (keeps_stageGiven n _ data s).trans (keeps_offerBlocks n _ _)

theorem keeps_completeGive (n : Node) (txn : Byte) (data : List Byte) (crc : BitVec 16) (s : State) :
    Keeps s (completeGive n txn data crc s) := by
  have hbuffer : Keeps s (receiveGive n data s) := keeps_modPort rfl rfl
  exact ((hbuffer.trans (keeps_endTaking n _)).trans (keeps_decideGive n data crc _)).trans (keeps_respond _ _ _ _ _ _)

theorem keeps_takeSense (n : Node) (txn : Byte) (s : State) : Keeps s (takeSense n txn s) :=
  (keeps_beginTransaction n s).trans (keeps_respond _ _ _ _ _ _)

theorem keeps_takeAbort (n : Node) (s : State) : Keeps s (takeAbort n s).2 := by
  unfold takeAbort
  split
  · exact keeps_endCommand n _ s
  · rfl

theorem keeps_badBlock (n : Node) (block : List Byte) (s : State) : Keeps s (badBlock n block s) := by
  unfold badBlock
  split
  · exact keeps_answerWith (keeps_badCommandAt n) s
  · rfl

theorem keeps_shortTransaction (n : Node) (s : State) : Keeps s (shortTransaction n s) :=
  (keeps_beginTransaction n s).trans (keeps_modPort rfl rfl)

theorem keeps_idleEnds (n : Node) (s : State) : Keeps s (idleEnds n s) := by
  unfold idleEnds
  split
  · exact keeps_endCommand n _ s
  · rfl

/-! ## Every command -/

/-- A command that answers a next state answers the guarded effect of an operation that keeps the laws. -/
def RunsKeeping (o : Outcome) (s : State) : Prop :=
  ∀ t, o = .next t → ∃ f : State → State, (∀ u, Keeps u (f u)) ∧ t = s.whenRunning f

theorem runsKeeping_next {s : State} {f : State → State} (hf : ∀ u, Keeps u (f u)) :
    RunsKeeping (.next (s.whenRunning f)) s := fun t h => ⟨f, hf, by cases h; rfl⟩

theorem runsKeeping_fault (s : State) : RunsKeeping (.fault .illFormedCommand) s := fun _ h => by cases h

theorem runsKeeping_ite {c : Prop} [Decidable c] {s : State} {f : State → State} (hf : ∀ u, Keeps u (f u)) :
    RunsKeeping (if c then .next (s.whenRunning f) else .fault .illFormedCommand) s := by
  split
  · exact runsKeeping_next hf
  · exact runsKeeping_fault s

theorem runsKeeping_request (pins : NodePins) (kind : Byte) (tag : Tag) (body : List Byte) (s : State) :
    RunsKeeping (requestMeeting pins kind tag body s) s :=
  runsKeeping_ite (keeps_receiveRequest kind tag body pins)

/-- R30: what a recovery left behind does starts it, or leaves it behind an action that has started. -/
theorem keeps_startBehind (ahead : Bool) (body : List Byte) (s : State) : Keeps s (startBehind ahead body s) := by
  unfold startBehind
  split
  · split
    · exact keeps_startPending (KeepsBut.refl s)
    · rfl
  all_goals rfl

theorem runsKeeping_powerAction (tag : Tag) (asked : ActionBody) (s : State) :
    RunsKeeping (execPowerAction tag asked s) s :=
  runsKeeping_ite (f := fun s => startBehind asked.ahead asked.bytes
      (receiveRequest 0x20#8 tag asked.bytes unseenPins s))
    fun u => (keeps_receiveRequest _ _ _ _ u).trans (keeps_startBehind _ _ _)

theorem runsKeeping_verifyingEnd (d : Option ReadFault) (s : State) : RunsKeeping (execVerifyingEnd d s) s := by
  cases d with
  | none => exact runsKeeping_next (keeps_verify none)
  | some d => exact runsKeeping_ite (keeps_verify (some d))

theorem runsKeeping_unknownKind (kind : Byte) (tag : Tag) (body : List Byte) (s : State) :
    RunsKeeping (execUnknownKind kind tag body s) s := by
  unfold execUnknownKind
  split
  · exact runsKeeping_fault s
  · exact runsKeeping_request _ _ _ _ s

theorem runsKeeping_escapeError (next : Byte) (s : State) : RunsKeeping (execEscapeError next s) s := by
  unfold execEscapeError
  split
  · exact runsKeeping_fault s
  · exact runsKeeping_next (keeps_abandonFrame _)

/-- Every command but part reset, its release and the end of loading is an operation of the running part, guarded by the
phase, that keeps the laws. -/
theorem exec_runsKeeping {c : Instr} (s : State) (hreset : ∀ b, c ≠ .partReset b) (hrelease : c ≠ .resetRelease)
    (hload : ∀ pins found, c ≠ .loadEnd pins found) : RunsKeeping (exec c s) s := by
  cases c with
  | identify tag body | linkConfig tag body | clear tag body | saveSettings tag body | linesConfig tag body
  | linesSet tag body | linesRead tag body | lineEventsClear tag body | powerTimings tag body | powerWatch tag body
  | consoleConfig tag body | consoleSend tag body | consoleBreak tag body | consoleRead tag body
  | consoleForward tag body | consoleStatus tag asked | poolConfig tag body | poolStatus tag body
  | unitAttach tag body | unitDetach tag body | unitStatus tag body | mediaPortConfig tag asked | patternSet tag body
  | bootPolicy tag body | bootRearm tag body | bootStatus tag body => exact runsKeeping_request _ _ _ _ s
  | powerAction tag asked => exact runsKeeping_powerAction tag asked s
  | unknownKind kind tag body => exact runsKeeping_unknownKind kind tag body s
  | fill tag lba data => exact runsKeeping_ite (keeps_receiveAnswer (keeps_fillAnswer tag lba.toNat data))
  | fetchFailed tag => exact runsKeeping_next (keeps_receiveAnswer (keeps_fetchFailedAnswer tag))
  | stored tag => exact runsKeeping_next (keeps_receiveAnswer (keeps_storedAnswer tag))
  | storeFailed tag => exact runsKeeping_next (keeps_receiveAnswer (keeps_storeFailedAnswer tag))
  | malformedAnswer kind tag body => exact runsKeeping_ite (keeps_receiveAnswer (keeps_linkError _))
  | crcError => exact runsKeeping_next (keeps_abandonFrame _)
  | truncatedFrame => exact runsKeeping_next keeps_truncateFrame
  | escapeError next => exact runsKeeping_escapeError next s
  | lengthError length => exact runsKeeping_ite (keeps_abandonFrame _)
  | byteFramingError => exact runsKeeping_next (keeps_abandonFrame _)
  | overrun => exact runsKeeping_next keeps_overrunByte
  | arbiterChoice pins => exact runsKeeping_next (keeps_arbiterLooks pins)
  | frameSent => exact runsKeeping_next keeps_frameEnds
  | sampleInstant pins => exact runsKeeping_next (keeps_sampleAll pins)
  | tPressEnd n => exact runsKeeping_next (keeps_timerEnds (keeps_pressEnds n))
  | tOnEnd n => exact runsKeeping_next (keeps_timerEnds fun _ => keeps_complete n _)
  | tSoftEnd n => exact runsKeeping_next (keeps_timerEnds (keeps_softEnds n))
  | tHoldEnd n => exact runsKeeping_next (keeps_timerEnds (keeps_holdEnds n))
  | tRestEnd n => exact runsKeeping_next (keeps_timerEnds (keeps_restEnds n))
  | tResetEnd n => exact runsKeeping_next (keeps_timerEnds fun _ => keeps_complete n _)
  | tDiagEnd n => exact runsKeeping_next (keeps_timerEnds fun _ => keeps_complete n _)
  | powerWatchTimeout => exact runsKeeping_next (keeps_endWatch _)
  | characterReceived n data parityBit stopBit =>
    exact runsKeeping_next (keeps_receiveCharacter n data parityBit stopBit)
  | breakRecognized n => exact runsKeeping_next (keeps_recognizeBreak n)
  | heldCharacterStored n => exact runsKeeping_next (keeps_storeHeld n)
  | breakEnd n => exact runsKeeping_next (keeps_endBreak n)
  | transmitCharacterStart n cts => exact runsKeeping_next (keeps_transmitStart n cts)
  | breakSent n => exact runsKeeping_next (keeps_finishBreak n)
  | breakRecoveryEnd n => exact runsKeeping_next (keeps_recoverBreak n)
  | windowEnd n => exact runsKeeping_next (keeps_endWindow n)
  | read n lba count txn =>
    refine runsKeeping_next (keeps_answerWith fun t => ?_)
    split
    · exact keeps_takeRead n _ _ t
    · exact keeps_badCommandAt n t
  | write n lba count txn =>
    refine runsKeeping_next (keeps_answerWith fun t => ?_)
    split
    · exact keeps_takeWrite n _ _ _ t
    · exact keeps_badCommandAt n t
  | take n txn => exact runsKeeping_next (keeps_takeBlock n txn)
  | give n txn data crc => exact runsKeeping_ite (keeps_completeGive n txn data crc)
  | status n txn => exact runsKeeping_next (keeps_answerWith fun t => KeepsBut.refl t)
  | sense n txn => exact runsKeeping_next (keeps_takeSense n txn)
  | flush n txn => exact runsKeeping_next (keeps_answerWith (keeps_takeFlush n))
  | ackChange n txn => exact runsKeeping_next (keeps_answerWith fun t => keeps_modPort rfl rfl)
  | abort n txn => exact runsKeeping_next (keeps_answerWith (keeps_takeAbort n))
  | badCommand n block => exact runsKeeping_ite (keeps_badBlock n block)
  | shortTransaction n => exact runsKeeping_next (keeps_shortTransaction n)
  | blockDelivered n => exact runsKeeping_next (keeps_blockEnds n)
  | idleTimeout n => exact runsKeeping_next (keeps_idleEnds n)
  | fetchTimeout i => exact runsKeeping_next (keeps_fetchTimesOut i)
  | storeTimeout i => exact runsKeeping_next (keeps_storeTimesOut i)
  | agingTick => exact runsKeeping_next keeps_agePages
  | deadline n => exact runsKeeping_next (keeps_deadlineEnds n)
  | partReset taken => exact absurd rfl (hreset taken)
  | resetRelease => exact absurd rfl hrelease
  | loadEnd pins found => exact absurd rfl (hload pins found)
  | invalidatingEnd => exact runsKeeping_next fun u => keeps_modLoader _ u
  | writingEnd => exact runsKeeping_next fun u => keeps_modLoader _ u
  | sealingEnd => exact runsKeeping_next fun u => keeps_modLoader _ u
  | verifyingEnd d => exact runsKeeping_verifyingEnd d s
  | saveNoAck address taken => exact runsKeeping_ite (keeps_saveFails address taken)
  | frameStart => exact runsKeeping_next keeps_startByte
  | startBit n mid => exact runsKeeping_next (keeps_confirmStart n mid)
  | transmitCharacterEnd n => exact runsKeeping_next (keeps_transmitEnd n)
  | giveCommandBlock n => exact runsKeeping_next (keeps_giveBlockTaken n)

/-- What a step can be. -/
theorem step_cases {s t : State} (h : step s = .next t) :
    (s.pending = [] ∧ t = s.tick) ∨ ∃ c rest, s.pending = c :: rest
      ∧ ((∃ taken, t = partReset taken { s with pending := rest })
        ∨ t = releaseReset { s with pending := rest }
        ∨ (∃ pins found, t = endLoad pins found { s with pending := rest })
        ∨ (∃ f : State → State, (∀ u, Keeps u (f u)) ∧ t = State.whenRunning { s with pending := rest } f)) := by
  cases hp : s.pending with
  | nil =>
    rw [step_idle hp] at h
    cases h
    exact .inl ⟨rfl, rfl⟩
  | cons c rest =>
    rw [step_front hp] at h
    refine .inr ⟨c, rest, rfl, ?_⟩
    by_cases hreset : ∀ b, c ≠ .partReset b
    · by_cases hrelease : c = .resetRelease
      · subst hrelease
        cases h
        exact .inr (.inl rfl)
      · by_cases hload : ∀ pins found, c ≠ .loadEnd pins found
        · exact .inr (.inr (.inr (exec_runsKeeping _ hreset hrelease hload t h)))
        · push Not at hload
          obtain ⟨pins, found, rfl⟩ := hload
          have hend : execLoadEnd pins found { s with pending := rest } = .next t := h
          unfold execLoadEnd at hend
          split at hend
          · cases hend
            exact .inr (.inr (.inl ⟨pins, found, rfl⟩))
          · cases hend
    · push Not at hreset
      obtain ⟨taken, rfl⟩ := hreset
      cases h
      exact .inl ⟨taken, rfl⟩

end Sys2Proof.Machine
end

