-- ==== Sys2Proof/Proofs/LoadingKeeps.lean ====
section
/-!
SUPPORT. Part reset, the settings that a load gives, and how they come into force: every setting that a load takes from
an image lies in its range, and the settings in force after a load are those the load came to.
-/

namespace Sys2Proof.Machine

/-! ## The settings a load gives (R192, R193) -/

theorem per4?_eq_some {α : Type} {f : Node → Option α} {x : Per4 α} (h : per4? f = some x) (n : Node) :
    f n = some (x.get n) := by
  unfold per4? at h
  split at h
  · rename_i h0 h1 h2 h3
    obtain rfl := Option.some.inj h
    fin_cases n
    · exact h0
    · exact h1
    · exact h2
    · exact h3
  · simp at h

theorem linesLegal_of_loadLines {bytes : List Byte} {ls : Per6 LineSettings} (h : loadLines bytes = some ls) :
    LinesLegal ls := by
  unfold loadLines at h
  split at h
  · rename_i a b c d e f _ _ _ _ _ _
    dsimp only at h
    split_ifs at h with hbad
    obtain rfl := Option.some.inj h
    obtain ⟨hopen, hdup⟩ := Bool.or_eq_false_iff.mp (eq_false_of_ne_true hbad)
    refine ⟨hdup, fun l => ?_⟩
    have hall : ∀ x ∈ (⟨a, b, c, d, e, f⟩ : Per6 LineSettings).toList, x.openDrainHigh = false := by
      simpa using hopen
    exact hall _ (by fin_cases l <;> simp [Per6.get, Per6.toList])
  · simp at h

theorem portLegal_of_loadPort {bytes : List Byte} {p : PortSettings} (h : loadPort bytes = some p) : PortLegal p := by
  unfold loadPort at h
  split at h
  · obtain ⟨k, hk, rfl⟩ := Option.map_eq_some_iff.mp h
    exact ⟨spiMode?_range (.inl rfl) hk, inRange_clampOrKeep (by decide) _⟩
  · simp at h

theorem holderFits_of_loadHolder {g : Holder} {bytes : List Byte} {x : HolderSettings}
    (h : loadHolder g bytes = some x) : HolderFits g x := by
  unfold loadHolder at h
  split at h
  · obtain rfl := Option.some.inj h
    exact holderFits_clamped g _ _
  · simp at h

theorem patternLegal_of_loadPattern {bytes : List Byte} {p : Pattern} (h : loadPattern bytes = some p) :
    PatternLegal p := by
  unfold loadPattern at h
  split at h
  · exact patternLegal_of_pattern? h
  · simp at h

theorem patternsLegal_of_loadPatterns {bytes : List Byte} {ps : Vector Pattern 16} (h : loadPatterns bytes = some ps)
    (i : Fin 16) : PatternLegal ps[i] := by
  unfold loadPatterns at h
  dsimp only at h
  split_ifs at h with hlen
  obtain rfl := Option.some.inj h
  have hmem : ∀ p ∈ (List.range 16).filterMap fun i => loadPattern (slice bytes (29 * i) 29), PatternLegal p := by
    intro p hp
    obtain ⟨j, -, hj⟩ := List.mem_filterMap.mp hp
    exact patternLegal_of_loadPattern hj
  exact hmem _ (List.getElem_mem _)

theorem loadBaud_range (bytes : List Byte) : InRange 115200 12000000 (loadBaud bytes) := by
  unfold loadBaud
  split
  · exact inRange_clampOrKeep (by decide) _
  · decide

/-- R91: reservations that were defaulted fit. -/
theorem reserved_defaulted (ch mh : Per4 HolderSettings) :
    ((((ch.map fun h => h.withReservation 4).toList ++ (mh.map fun h => h.withReservation 8).toList).map
      fun h => h.reservation).sum) ≤ reservationLimit := by
  have hsum : ((((ch.map fun h => h.withReservation 4).toList ++ (mh.map fun h => h.withReservation 8).toList).map
      fun h => h.reservation).sum) = 48 := rfl
  rw [hsum]
  decide

/-- R192, R193: the settings that a body gives are legal. -/
theorem settingsLegal_of_loadBody {b : List Byte} {x : Settings} {tooMuch : Bool} (h : loadBody b = some (x, tooMuch)) :
    SettingsLegal x := by
  unfold loadBody at h
  split at h
  · rename_i lines timings consoles ports channels caches patterns policies hl ht hc hp hch hmh hpat hpol
    dsimp only at h
    have hchannels : ∀ n, HolderLegal 2 (channels.get n) := fun n => holderFits_of_loadHolder (per4?_eq_some hch n)
    have hcaches : ∀ u, HolderLegal 0 (caches.get u) := fun u => holderFits_of_loadHolder (per4?_eq_some hmh u)
    obtain ⟨hx, -⟩ := Prod.mk.inj (Option.some.inj h)
    rw [← hx]
    refine ⟨loadBaud_range _, inRange_clampOrKeep (by decide) _, inRange_clampOrKeep (by decide) _,
      inRange_clampOrKeep (by decide) _, fun n => ⟨linesLegal_of_loadLines (per4?_eq_some hl n),
        timingsLegal_of_timings? (by decide) (per4?_eq_some ht n),
        consoleLegal_of_consoleSettings? (by decide) (per4?_eq_some hc n), portLegal_of_loadPort (per4?_eq_some hp n),
        ?_, ?_, policyLegal_of_policy? (per4?_eq_some hpol n)⟩, patternsLegal_of_loadPatterns hpat, ?_⟩
    · dsimp only
      split
      · rw [Per4.get_map]
        exact ⟨(by decide : InRange 2 64 4), (hchannels n).2⟩
      · exact hchannels n
    · dsimp only
      split
      · rw [Per4.get_map]
        exact ⟨(by decide : InRange 0 64 8), (hcaches n).2⟩
      · exact hcaches n
    · unfold Settings.reserved
      dsimp only
      cases hover : overcommitted channels caches with
      | true => exact reserved_defaulted channels caches
      | false => exact Nat.le_of_not_lt (of_decide_eq_false hover)
  · simp at h

theorem settingsLegal_default : SettingsLegal defaultSettings := by decide

/-- R192: whatever a load comes to, its settings are legal. -/
theorem settingsLegal_judgeImage (image : List Byte) : SettingsLegal (judgeImage image).settings := by
  unfold judgeImage
  split_ifs
  · exact settingsLegal_default
  · exact settingsLegal_default
  · exact settingsLegal_default
  · exact settingsLegal_default
  · split
    · exact settingsLegal_default
    · exact settingsLegal_of_loadBody (by assumption)

theorem settingsLegal_judgeRead (b : SettingsBus) (image : List Byte) : SettingsLegal (judgeRead b image).settings := by
  unfold judgeRead
  split_ifs
  · exact settingsLegal_judgeImage image
  · exact settingsLegal_default

/-! ## Settings come into force (R194) -/

/-- A family whose values show the given view, each at its place. -/
theorem Per4.map_build {α β : Type} {f : Node → α} {g : α → β} {y : Per4 β} (h : ∀ n, g (f n) = y.get n) :
    (Per4.build f).map g = y :=
  Per4.ext_get fun n => by rw [Per4.get_map, Per4.get_build, h]

/-- R194: the settings that come into force are those in force. -/
theorem settings_inForce (x : Settings) (pins : BitVec 24) (s : State) : (inForce x pins s).settings = x := by
  have hlines : (acquire x pins s.lines).line.map (fun ls => ls.map Line.settings) = x.lines :=
    Per4.map_build fun n => Per6.ext_get fun l => by rw [Per6.get_map, Per6.get_build]; rfl
  have hconsoles : (Per4.build fun n => (s.consoles.get n).begin (x.consoles.get n)).map (fun c => c.settings)
      = x.consoles := Per4.map_build fun _ => rfl
  have hports : (Per4.build fun n => { s.ports.get n with
      spiMode := (x.ports.get n).spiMode, idleTimeout := (x.ports.get n).idleTimeout }).map
        (fun p : Port => PortSettings.mk p.spiMode p.idleTimeout) = x.ports := Per4.map_build fun _ => rfl
  have hchannels : (Per4.build fun n => (s.pool.consoles.get n).load (x.channels.get n)).map HolderRecord.settings
      = x.channels := Per4.map_build fun _ => rfl
  have hcaches : (Per4.build fun u => (s.pool.caches.get u).load (x.caches.get u)).map HolderRecord.settings
      = x.caches := Per4.map_build fun _ => rfl
  simp only [State.settings, inForce, hlines, hconsoles, hports, hchannels, hcaches]
  rfl

/-- R194: the state with the settings in force, before START is queued. -/
def loadedState (pins : BitVec 24) (o : LoadOutcome) (x : Loader) (s : State) : State :=
  { inForce o.settings pins s with phase := .running, loader := x.loaded o }

theorem endLoad_loading {s : State} (h : s.phase = .loading) (pins : BitVec 24) (found : LoadRead) :
    endLoad pins found s
      = (loadedState pins (judgeLoad found (findMemory found s.loader)) (findMemory found s.loader) s).notify
          (startNotice (judgeLoad found (findMemory found s.loader))) :=
  if_pos h

theorem endLoad_other {s : State} (h : s.phase ≠ .loading) (pins : BitVec 24) (found : LoadRead) :
    endLoad pins found s = s := if_neg h

theorem line_loadedState (pins : BitVec 24) (o : LoadOutcome) (x : Loader) (s : State) (n : Node) (l : LineId) :
    (loadedState pins o x s).line n l = acquiredLine ((o.settings.lines.get n).get l) (pinLevel pins n l) := by
  simp only [State.line, loadedState, inForce, acquire, Per4.get_build, Per6.get_build]

end Sys2Proof.Machine
end

