-- ==== Sys2Proof/Proofs/StepLaws.lean ====
section
/-!
The standing laws along a step: owners, pending recoveries and attempts (O6), idle timers, units and settings (O7).
-/

namespace Sys2Proof.Machine

variable {s t : State}

/-- A guarded operation that keeps the laws keeps them whether it runs or not. -/
theorem keeps_whenRunning {f : State → State} (hf : ∀ u, Keeps u (f u)) (s : State) : Keeps s (s.whenRunning f) := by
  unfold State.whenRunning
  split
  · exact hf s
  · rfl

/-- A law that no pending command bears on holds after a step where it holds after each of the four things a step can be. -/
theorem step_law {P : State → Prop} (h : step s = .next t) (hs : P s) (hpend : ∀ rest, P s → P { s with pending := rest })
    (htick : P s → P s.tick) (hreset : ∀ u taken, P (partReset taken u)) (hrelease : ∀ u, P u → P (releaseReset u))
    (hload : ∀ u pins found, P u → P (endLoad pins found u)) (hkeeps : ∀ u v, Keeps u v → P u → P v) : P t := by
  rcases step_cases h with ⟨-, rfl⟩ | ⟨c, rest, -, ⟨taken, rfl⟩ | rfl | ⟨pins, found, rfl⟩ | ⟨f, hf, rfl⟩⟩
  · exact htick hs
  · exact hreset _ taken
  · exact hrelease _ (hpend rest hs)
  · exact hload _ pins found (hpend rest hs)
  · exact hkeeps _ _ (keeps_whenRunning hf _) (hpend rest hs)

/-! ## Owners (R10) -/

theorem ownerLaw_partReset (taken : Nat) (s : State) : OwnerLaw (partReset taken s) := by
  have hreset : OwnerLaw State.reset := by decide
  exact hreset

theorem releaseReset_cases (s : State) : releaseReset s = s
    ∨ s.phase = .inReset ∧ releaseReset s = { s with phase := .loading } := by
  unfold releaseReset
  by_cases h : s.phase = .inReset
  · exact .inr ⟨h, if_pos h⟩
  · exact .inl (if_neg h)

theorem ownerLaw_releaseReset (h : OwnerLaw s) : OwnerLaw (releaseReset s) := by
  rcases releaseReset_cases s with e | ⟨-, e⟩ <;> rw [e] <;> exact h

theorem ownerLaw_endLoad (pins : BitVec 24) (found : LoadRead) (h : OwnerLaw s) : OwnerLaw (endLoad pins found s) := by
  by_cases hp : s.phase = .loading
  · rw [endLoad_loading hp]
    intro n l
    exact (keeps_notify _ _).owner n l (.of_none (by rw [line_loadedState]; rfl))
  · rwa [endLoad_other hp]

theorem step_ownerLaw (h : step s = .next t) (hs : OwnerLaw s) : OwnerLaw t :=
  step_law h hs (fun _ h => h) (fun h => h) (fun u taken => ownerLaw_partReset taken u)
    (fun _ => ownerLaw_releaseReset) (fun _ pins found => ownerLaw_endLoad pins found)
    fun _ _ hk hu n l => hk.owner n l (hu n l)

/-! ## Attempts (R159) -/

theorem attemptLaw_partReset (taken : Nat) (s : State) : AttemptLaw (partReset taken s) := by
  have hreset : AttemptLaw State.reset := by decide
  exact hreset

theorem attemptLaw_releaseReset (h : AttemptLaw s) : AttemptLaw (releaseReset s) := by
  rcases releaseReset_cases s with e | ⟨hp, e⟩ <;> rw [e]
  · exact h
  · exact fun n => ⟨(h n).1, fun _ => (h n).2 (by rw [hp]; decide)⟩

/-- R173: before the part runs no attempt has been made, so that any limit holds. -/
theorem attemptLaw_endLoad (pins : BitVec 24) (found : LoadRead) (h : AttemptLaw s) :
    AttemptLaw (endLoad pins found s) := by
  by_cases hp : s.phase = .loading
  · rw [endLoad_loading hp]
    intro n
    have hzero : (s.supervisor n).attempts = 0 := (h n).2 (by rw [hp]; decide)
    refine ⟨(keeps_notify _ _).attempts n ?_, fun hr => absurd rfl hr⟩
    show (s.supervisor n).attempts ≤ _
    rw [hzero]
    exact Nat.zero_le _
  · rwa [endLoad_other hp]

theorem attemptLaw_of_keeps {u v : State} (hk : Keeps u v) (hrun : u.phase ≠ .running → v = u) (h : AttemptLaw u) :
    AttemptLaw v := by
  by_cases hp : u.phase = .running
  · exact fun n => ⟨hk.attempts n (h n).1, fun hv => absurd (hk.phase.trans hp) hv⟩
  · rwa [hrun hp]

theorem attemptLaw_tick (h : AttemptLaw s) : AttemptLaw s.tick := by
  intro n
  have hv : (s.tick.supervisor n).attempts = (s.supervisor n).attempts := by
    simp only [State.supervisor, State.tick, Per4.get_map]
  rw [hv]
  exact h n

theorem step_attemptLaw (h : step s = .next t) (hs : AttemptLaw s) : AttemptLaw t := by
  rcases step_cases h with ⟨-, rfl⟩ | ⟨c, rest, -, ⟨taken, rfl⟩ | rfl | ⟨pins, found, rfl⟩ | ⟨f, hf, rfl⟩⟩
  · exact attemptLaw_tick hs
  · exact attemptLaw_partReset taken _
  · exact attemptLaw_releaseReset (s := { s with pending := rest }) hs
  · exact attemptLaw_endLoad (s := { s with pending := rest }) pins found hs
  · exact attemptLaw_of_keeps (u := { s with pending := rest }) (keeps_whenRunning hf _)
      (fun hp => whenRunning_held hp f) hs

/-! ## Pending recoveries (R18, R30) -/

/-- While the part does not run, a recovery waits only behind an action. -/
theorem recoveryLaw_iff_held (hp : s.phase ≠ .running) :
    RecoveryLaw s ↔ ∀ n, (s.power.slot.get n).isSome → (s.action n).isSome :=
  ⟨fun h n hs => (h n hs).resolve_right fun hr => hp hr.1, fun h n hs => .inl (h n hs)⟩

/-- While the part runs, the law is its form at each node. -/
theorem recoveryLaw_iff_running (hp : s.phase = .running) : RecoveryLaw s ↔ ∀ n, RecoveryFits s n :=
  ⟨fun h n hs => (h n hs).imp_right And.right, fun h n hs => (h n hs).imp_right fun hr => ⟨hp, hr⟩⟩

/-- R30, log 40: only a POWER ACTION for the node that says so is taken ahead of its recovery. -/
theorem requestAhead_iff {c : Instr} {rest : List Instr} {n : Node} (h : s.pending = c :: rest) :
    requestAhead s n = true ↔ ∃ tag body, c = .powerAction tag ⟨body, true⟩ ∧ actionNode? body = some n := by
  unfold requestAhead
  rw [h, List.head?_cons]
  constructor
  · intro hr
    split at hr
    · rename_i tag body e
      obtain rfl := Option.some.inj e
      exact ⟨tag, body, rfl, by simpa using hr⟩
    · simp at hr
  · rintro ⟨tag, body, rfl, hn⟩
    simp [hn]

/-- R30: once the POWER ACTION taken first has been dealt with, no recovery waits at its node without an action. -/
theorem recoveryFits_startBehind {body : List Byte} {n : Node} (h : actionNode? body = some n) (s : State) :
    RecoveryFits (startBehind true body s) n := by
  unfold startBehind
  rw [h]
  dsimp only
  split
  · exact recoveryFits_startPending n s
  · rename_i ha
    exact .of_action (by simpa [Option.isSome_iff_ne_none] using ha)

theorem recoveryLaw_tick (hp : s.pending = []) (h : RecoveryLaw s) : RecoveryLaw s.tick := by
  intro n hn
  have hact : (s.action n).isSome := by
    refine (h n hn).resolve_right fun hr => ?_
    have hahead := hr.2
    unfold requestAhead at hahead
    rw [hp] at hahead
    simp at hahead
  left
  simpa only [State.action, State.tick, Per4.get_map, Option.isSome_map] using hact

theorem recoveryLaw_partReset (taken : Nat) (s : State) : RecoveryLaw (partReset taken s) := by
  intro n hn
  have hslot : (partReset taken s).power.slot.get n = none := Per4.get_all none n
  rw [hslot] at hn
  simp at hn

theorem recoveryLaw_releaseReset (hp : s.phase ≠ .running) (h : RecoveryLaw s) : RecoveryLaw (releaseReset s) := by
  rcases releaseReset_cases s with e | ⟨-, e⟩ <;> rw [e]
  · exact h
  · exact (recoveryLaw_iff_held (by simp)).mpr ((recoveryLaw_iff_held hp).mp h)

theorem recoveryLaw_endLoad (pins : BitVec 24) (found : LoadRead) (h : RecoveryLaw s) :
    RecoveryLaw (endLoad pins found s) := by
  by_cases hp : s.phase = .loading
  · have hheld := (recoveryLaw_iff_held (by rw [hp]; decide)).mp h
    rw [endLoad_loading hp]
    exact fun n hn => .inl (hheld n hn)
  · rwa [endLoad_other hp]

/-- The law of pending recoveries where the command in front is taken off the queue: it holds at every node but the one
whose recovery that command is taken ahead of. -/
theorem recoveryFits_pop {rest : List Instr} {n : Node} (h : RecoveryLaw s)
    (hn : requestAhead s n = false) : RecoveryFits { s with pending := rest } n := fun hs =>
  (h n hs).imp_right fun hr => absurd hr.2 (by simp [hn])

/-- A command in front that is taken ahead of no recovery leaves the law as it is when it comes off the queue. -/
theorem recoveryLaw_pop {rest : List Instr} (h : RecoveryLaw s)
    (hc : s.phase = .running → ∀ n, requestAhead s n = false) : RecoveryLaw { s with pending := rest } := by
  intro n hs
  exact (h n hs).imp_right fun ⟨hr, ha⟩ => absurd ha (by simp [hc hr n])

theorem recoveryLaw_of_keeps {u v : State} (hk : Keeps u v) (hrun : u.phase ≠ .running → v = u) (h : RecoveryLaw u) :
    RecoveryLaw v := by
  by_cases hp : u.phase = .running
  · exact (recoveryLaw_iff_running (hk.phase.trans hp)).mpr fun n =>
      hk.recovery n (by simp) ((recoveryLaw_iff_running hp).mp h n)
  · rwa [hrun hp]

/-- A POWER ACTION taken ahead of a recovery leaves the law in force. -/
theorem recoveryLaw_powerAction {tag : Tag} {body : List Byte} {rest : List Instr}
    (hp : s.pending = .powerAction tag ⟨body, true⟩ :: rest) (hrun : s.phase = .running) (h : RecoveryLaw s)
    (ht : execPowerAction tag ⟨body, true⟩ { s with pending := rest } = .next t) : RecoveryLaw t := by
  have hpop : State.phase { s with pending := rest } = .running := hrun
  have hkeeps : Keeps { s with pending := rest } t := by
    obtain ⟨f, hf, rfl⟩ := runsKeeping_powerAction tag ⟨body, true⟩ _ t ht
    exact keeps_whenRunning hf _
  unfold execPowerAction at ht
  split at ht
  · rw [whenRunning_running hpop] at ht
    refine (recoveryLaw_iff_running (hkeeps.phase.trans hpop)).mpr fun n => ?_
    by_cases hn : actionNode? body = some n
    · cases ht
      exact recoveryFits_startBehind hn _
    · refine hkeeps.recovery n (by simp) (recoveryFits_pop h ?_)
      refine eq_false_of_ne_true fun ha => ?_
      obtain ⟨tag', body', e, hbody⟩ := (requestAhead_iff hp).mp ha
      cases e
      exact hn hbody
  · cases ht

theorem step_recoveryLaw (h : step s = .next t) (hs : RecoveryLaw s) : RecoveryLaw t := by
  cases hpend : s.pending with
  | nil =>
    rw [step_idle hpend] at h
    cases h
    exact recoveryLaw_tick hpend hs
  | cons c rest =>
    by_cases hahead : s.phase = .running ∧ ∃ n, requestAhead s n = true
    · obtain ⟨hrun, n, hn⟩ := hahead
      obtain ⟨tag, body, rfl, -⟩ := (requestAhead_iff hpend).mp hn
      rw [step_front hpend] at h
      exact recoveryLaw_powerAction hpend hrun hs h
    · have hpop : RecoveryLaw { s with pending := rest } := recoveryLaw_pop hs fun hrun n =>
        eq_false_of_ne_true fun hn => hahead ⟨hrun, n, hn⟩
      rcases step_cases h with ⟨he, -⟩ | ⟨c', rest', he, hcase⟩
      · rw [hpend] at he
        cases he
      · rw [hpend] at he
        cases he
        rcases hcase with ⟨taken, rfl⟩ | rfl | ⟨pins, found, rfl⟩ | ⟨f, hf, rfl⟩
        · exact recoveryLaw_partReset taken _
        · rcases releaseReset_cases { s with pending := rest } with e | ⟨hp, -⟩
          · rwa [e]
          · exact recoveryLaw_releaseReset (by rw [hp]; decide) hpop
        · exact recoveryLaw_endLoad pins found hpop
        · exact recoveryLaw_of_keeps (keeps_whenRunning hf _) (fun hp => whenRunning_held hp f) hpop

/-! ## Idle timers (R126) -/


theorem timerLaw_tick (h : TimerLaw s) : TimerLaw s.tick := by
  intro n
  have hport : s.tick.ports.get n = { s.ports.get n with idleTimer := (s.ports.get n).idleTimer.map (· - 1) } :=
    Per4.get_map _ _ n
  rw [hport]
  show ((s.ports.get n).idleTimer.map (· - 1)).isSome = (s.ports.get n).counting
  rw [Option.isSome_map]
  exact h n

theorem timerLaw_partReset (taken : Nat) (s : State) : TimerLaw (partReset taken s) := by
  have hreset : TimerLaw State.reset := by decide
  exact hreset

theorem timerLaw_releaseReset (h : TimerLaw s) : TimerLaw (releaseReset s) := by
  rcases releaseReset_cases s with e | ⟨-, e⟩ <;> rw [e] <;> exact h

theorem timerLaw_endLoad (pins : BitVec 24) (found : LoadRead) (h : TimerLaw s) : TimerLaw (endLoad pins found s) := by
  by_cases hp : s.phase = .loading
  · rw [endLoad_loading hp]
    intro n
    refine (keeps_notify _ _).timer n ?_
    unfold port loadedState inForce
    dsimp only
    rw [Per4.get_build]
    exact h n
  · rwa [endLoad_other hp]

theorem step_timerLaw (h : step s = .next t) (hs : TimerLaw s) : TimerLaw t :=
  step_law h hs (fun _ h => h) timerLaw_tick (fun u taken => timerLaw_partReset taken u)
    (fun _ => timerLaw_releaseReset) (fun _ pins found => timerLaw_endLoad pins found)
    fun _ _ hk hu n => hk.timer n (hu n)

/-! ## Units (R93, R96) -/

theorem unitLaw_partReset (taken : Nat) (s : State) : UnitLaw (partReset taken s) := by
  have hreset : UnitLaw State.reset := by decide
  exact hreset

theorem unitLaw_releaseReset (h : UnitLaw s) : UnitLaw (releaseReset s) := by
  rcases releaseReset_cases s with e | ⟨-, e⟩ <;> rw [e] <;> exact h

theorem unitLaw_endLoad (pins : BitVec 24) (found : LoadRead) (h : UnitLaw s) : UnitLaw (endLoad pins found s) := by
  by_cases hp : s.phase = .loading
  · rw [endLoad_loading hp]
    exact (keeps_notify _ _).units h
  · rwa [endLoad_other hp]

theorem step_unitLaw (h : step s = .next t) (hs : UnitLaw s) : UnitLaw t :=
  step_law h hs (fun _ h => h) (fun h => h) (fun u taken => unitLaw_partReset taken u)
    (fun _ => unitLaw_releaseReset) (fun _ pins found => unitLaw_endLoad pins found)
    fun _ _ hk => hk.units

/-! ## Settings -/

theorem settings_tick (s : State) : s.tick.settings = s.settings := by
  have hconsoles : (s.consoles.map Console.tick).map (fun c => c.settings) = s.consoles.map fun c => c.settings :=
    Per4.map_map_same (by intro _; rfl) _
  have hports : (s.ports.map fun p => { p with idleTimer := p.idleTimer.map (· - 1) }).map
        (fun p => PortSettings.mk p.spiMode p.idleTimeout)
      = s.ports.map fun p => PortSettings.mk p.spiMode p.idleTimeout :=
    Per4.map_map_same (by intro _; rfl) _
  simp only [State.settings, State.tick, hconsoles, hports]

theorem settingsLaw_partReset (taken : Nat) (s : State) : SettingsLaw (partReset taken s) := by
  have hreset : SettingsLaw State.reset := by decide
  exact hreset

theorem settingsLaw_releaseReset (h : SettingsLaw s) : SettingsLaw (releaseReset s) := by
  rcases releaseReset_cases s with e | ⟨-, e⟩ <;> rw [e] <;> exact h

theorem settings_loadedState (pins : BitVec 24) (o : LoadOutcome) (x : Loader) (s : State) :
    (loadedState pins o x s).settings = o.settings := settings_inForce o.settings pins s

theorem settingsLaw_endLoad (pins : BitVec 24) (found : LoadRead) (h : SettingsLaw s) :
    SettingsLaw (endLoad pins found s) := by
  by_cases hp : s.phase = .loading
  · rw [endLoad_loading hp]
    refine (keeps_notify _ _).settings ?_
    rw [SettingsLaw, settings_loadedState]
    exact settingsLegal_judgeRead _ _
  · rwa [endLoad_other hp]

theorem step_settingsLaw (h : step s = .next t) (hs : SettingsLaw s) : SettingsLaw t :=
  step_law h hs (fun _ h => h) (fun h => by rwa [SettingsLaw, settings_tick])
    (fun u taken => settingsLaw_partReset taken u) (fun _ => settingsLaw_releaseReset)
    (fun _ pins found => settingsLaw_endLoad pins found) fun _ _ hk => hk.settings

end Sys2Proof.Machine

open Sys2Proof Sys2Proof.Machine

/-- Settles O6: each law is kept by all that a step can be. -/
theorem ownersRecoveriesAndAttemptsStayLawful : Obligations.OwnersRecoveriesAndAttemptsStayLawful :=
  fun _ _ h => ⟨step_ownerLaw h, step_recoveryLaw h, step_attemptLaw h⟩

/-- Settles O7: likewise for idle timers, units and settings. -/
theorem portTimersUnitsAndSettingsStayLawful : Obligations.PortTimersUnitsAndSettingsStayLawful :=
  ⟨fun _ _ h => ⟨step_timerLaw h, step_unitLaw h⟩, fun _ _ hs h => step_settingsLaw h hs⟩
end

