-- ==== Sys2Proof/Proofs/ResetAndLoad.lean ====
section
/-!
Part reset, its release and a load (O59): what a save that a reset cuts short leaves in the settings memory, what a load
reads and comes to, and the state in which the settings come into force.
-/

namespace Sys2Proof.Machine

/-! ## A save that a reset cuts short (R196) -/

theorem cutShort_of_idle {x : Loader} (h : x.save = .idle ∨ x.save = .verifying) (taken : Nat) :
    x.cutShort taken = x := by
  rcases h with h | h <;> simp [Loader.cutShort, h]

theorem cutShort_invalidating {x : Loader} (h : x.save = .invalidating) (taken : Nat) :
    x.cutShort taken = x.unsign := by
  simp [Loader.cutShort, h]

theorem cutShort_writing {x : Loader} {image : List Byte} (h : x.save = .writing) (hi : x.snapshot = some image)
    (taken : Nat) : x.cutShort taken = writeEeprom 2 ((image.drop 2).take taken) x.unsign := by
  simp [Loader.cutShort, h, Loader.writePart, Loader.unsign, writeEeprom, hi]

theorem cutShort_sealing {x : Loader} (h : x.save = .sealing) (taken : Nat) :
    x.cutShort taken = writeEeprom 0 (signature.take taken) x.unsign := by
  simp [Loader.cutShort, h]

theorem execPartReset_eq (taken : Nat) (s : State) : exec (.partReset taken) s = .next { State.reset with
    pending := s.pending
    choices := s.choices
    loader := (s.loader.cutShort taken).ended } := rfl

/-! ## What a load reads (R192) -/

/-- The bytes that the settings memory holds, in address order. -/
theorem imageIn_eq (m : List Host.Cell) :
    imageIn m = (List.range imageSize).map (Memory.read eepromDefault m) := by
  simp only [imageIn, Memory.readBlock, Nat.zero_add]

/-- An image written into the settings memory is the image it then holds. -/
theorem imageIn_write {image : List Byte} (h : image.length = imageSize) (m : List Host.Cell) :
    imageIn (Memory.write eepromDefault m 0 image) = image := by
  unfold imageIn Memory.readBlock
  refine List.ext_getElem (by simp [h]) fun i hi hj => ?_
  rw [List.getElem_map, List.getElem_range, Memory.read_write, if_pos (by omega)]
  simp [List.getD, List.getElem?_eq_getElem hj]

theorem length_imageIn (m : List Host.Cell) : (imageIn m).length = imageSize := by
  simp [imageIn, Memory.readBlock]

/-- The header of an image, byte for byte: the length of the body, then the revision. -/
theorem header_iff {image : List Byte} (h : image.length = imageSize) :
    (image.drop 2).take 3 = [0x03#8, 0x13#8, 1#8] ↔ byteAt image 4 = 1 ∧ slice image 2 2 = be16 bodyLength := by
  have hsize : imageSize = 794 := rfl
  have hrevision : ∀ e : Byte, e = 1#8 ↔ e.toNat = 1 := fun e => BitVec.toNat_inj.symm
  match image with
  | a :: b :: c :: d :: e :: rest =>
    show [c, d, e] = _ ↔ e.toNat = 1 ∧ [c, d] = [0x03#8, 0x13#8]
    rw [← hrevision e]
    simp only [List.cons.injEq, and_true]
    tauto
  | [] | [_] | [_, _] | [_, _, _] | [_, _, _, _] => simp [hsize] at h

theorem bytesRead_eq {image : List Byte} (h : image.length = imageSize) :
    bytesRead image = if image.take 2 ≠ [0x43#8, 0x44#8] then 2
      else if (image.drop 2).take 3 ≠ [0x03#8, 0x13#8, 1#8] then 5 else 794 := by
  have hheader : (byteAt image 4 ≠ 1 ∨ slice image 2 2 ≠ be16 bodyLength)
      ↔ (image.drop 2).take 3 ≠ [0x03#8, 0x13#8, 1#8] := by
    rw [ne_eq ((image.drop 2).take 3), header_iff h, not_and_or]
  unfold bytesRead
  simp only [hheader]
  rfl

theorem all_le_iff_not_any_lt (o : Option Nat) (k : Nat) :
    o.all (fun j => decide (k ≤ j)) = true ↔ ¬ o.any (fun j => decide (j < k)) = true := by
  cases o <;> simp

theorem judgeRead_eq {image : List Byte} {checked : Nat} (hc : checked = bytesRead image) (b : SettingsBus) :
    judgeRead b image
      = if b.sdaFreeAfter.any (fun k => k ≤ 9) ∧ b.acknowledgedAfter.any (fun t => t ≤ 10000)
          ∧ b.lostAfter.all (fun k => 3 + checked ≤ k) then judgeImage image
        else failedLoad .noDevice .none := by
  subst hc
  simp only [all_le_iff_not_any_lt]
  rfl

/-- What a load finds in the memory: what it held, or an image put there by other means. -/
theorem imageIn_findMemory {found : LoadRead} {image : List Byte} {x : Loader}
    (h : (found.image = none ∧ image = imageIn x.eeprom) ∨ (found.image = some image ∧ image.length = imageSize)) :
    imageIn (findMemory found x).eeprom = image := by
  rcases h with ⟨hf, hi⟩ | ⟨hf, hl⟩
  · rw [findMemory, hf, hi]
  · have hx : (findMemory found x).eeprom = Memory.write eepromDefault x.eeprom 0 image := by
      rw [findMemory, hf]
      rfl
    rw [hx, imageIn_write hl]

theorem execLoadEnd_next {found : LoadRead} (h : ∀ image, found.image = some image → image.length = imageSize)
    (pins : BitVec 24) (s : State) : execLoadEnd pins found s = .next (endLoad pins found s) := by
  refine if_pos ?_
  cases hf : found.image with
  | none => rfl
  | some image => simpa using h image hf

/-! ## The state a load leaves (R194) -/

/-- A notice changes no setting. -/
theorem settings_notify (new : Notice) (s : State) : (s.notify new).settings = s.settings := by
  simp only [State.settings, State.notify_lines, State.notify_power, State.notify_consoles,
    State.notify_pool, State.notify_ports, State.notify_boot, State.notify_link, (addNotice_settings new s.link).1,
    (addNotice_settings new s.link).2]

theorem powerState_loadedState (pins : BitVec 24) (o : LoadOutcome) (x : Loader) (s : State) (n : Node) :
    (loadedState pins o x s).powerState n = powerOf ((loadedState pins o x s).lines.line.get n) :=
  Per4.get_map _ _ n

theorem console_loadedState (pins : BitVec 24) (o : LoadOutcome) (x : Loader) (s : State) (n : Node) :
    (loadedState pins o x s).consoles.get n = (s.consoles.get n).begin (o.settings.consoles.get n) :=
  Per4.get_build _ n

end Sys2Proof.Machine

open Sys2Proof Sys2Proof.Machine

/-- Settles O59: part reset cuts a save short at what the memory had taken; a load's result is what the checks of the
image it found come to, and the settings of that result are in force in the state it leaves. -/
theorem resetThenLoadPutsSettingsInForce : Obligations.ResetThenLoadPutsSettingsInForce := by
  refine ⟨fun taken s h => ?_, fun taken image unsigned left s hu h => ?_, fun s => rfl,
    fun pins found image checked o s hphase himage hchecked ho => ?_, fun pins s h => ?_⟩
  · refine (execPartReset_eq taken s).trans ?_
    rw [cutShort_of_idle h]
    rfl
  · refine (execPartReset_eq taken s).trans ?_
    subst hu
    rcases h with ⟨h, rfl⟩ | ⟨h, hi, rfl⟩ | ⟨h, rfl⟩
    · rw [cutShort_invalidating h]
      rfl
    · rw [cutShort_writing h hi]
      rfl
    · rw [cutShort_sealing h]
      rfl
  · have hfound : (found.image = none ∧ image = imageIn s.loader.eeprom)
        ∨ (found.image = some image ∧ image.length = imageSize) :=
      himage.imp (fun ⟨hf, hi⟩ => ⟨hf, hi.trans (imageIn_eq _).symm⟩)
        fun ⟨hf, hl, _⟩ => ⟨hf, hl⟩
    have hlength : image.length = imageSize := by
      rcases hfound with ⟨-, hi⟩ | ⟨-, hl⟩
      · rw [hi, length_imageIn]
      · exact hl
    have hlegal : ∀ i, found.image = some i → i.length = imageSize := fun i hi => by
      rcases hfound with ⟨hf, -⟩ | ⟨hf, hl⟩
      · simp [hf] at hi
      · rw [hf] at hi
        exact Option.some.inj hi ▸ hl
    have hjudge : judgeLoad found (findMemory found s.loader) = o := by
      rw [judgeLoad, imageIn_findMemory hfound, judgeRead_eq (hchecked.trans (bytesRead_eq hlength).symm), ho]
    obtain ⟨x, hx⟩ : ∃ x, x = findMemory found s.loader := ⟨_, rfl⟩
    refine ⟨(loadedState pins o x s).notify (startNotice o), ?_, rfl,
      (settings_notify _ _).trans (settings_loadedState pins o x s), rfl, rfl, rfl, rfl, fun n l => ?_,
      powerState_loadedState pins o x s, fun n => ?_, rfl, rfl, rfl⟩
    · rw [hx, ← hjudge, ← endLoad_loading hphase]
      exact execLoadEnd_next hlegal pins s
    · have hline := line_loadedState pins o x s n l
      rw [show ((loadedState pins o x s).notify (startNotice o)).line n l = _ from hline]
      exact ⟨rfl, rfl, rfl, rfl, rfl⟩
    · simp only [State.notify_consoles, console_loadedState]
      exact ⟨rfl, rfl⟩
  · exact (execLoadEnd_next (by simp [LoadRead.asStored]) pins s).trans (by rw [endLoad_other h])
end

