-- ==== Sys2Proof/Proofs/Clearing.lean ====
section
/-!
CLEAR (O57). A unit's leaving service frees the page that the directory names for each block its fetches wait for (R100,
R105), whoever owns that page. The statement asks that CLEAR free cache pages alone, and no premise of it says that the
pages in the directory are cache pages (`PoolLaw` says so): in `historyPageFilling` the directory names a page of a
console's history.
-/

namespace Sys2Proof.Machine

/-- The running part, as after a reset, but for unit 0 in service, one fetch that waits for its block 0, and that block's
record, which names page 0, a page of the history of node 0. -/
def historyPageFilling : State :=
  { State.reset with
    phase := .running
    units := State.reset.units.set 0 { resetUnit with state := .attached }
    cache := { State.reset.cache with
      directory := [fillingRecord 0 0 0]
      fetches := State.reset.cache.fetches.set 0
        { generation := 0, busy := some { unit := 0, first := 0, blocks := [.waiting], created := 0 } } } }

/-- Who owns page 0 after a step that gives a next state. -/
def ownerOfPage0 : Outcome → Option (Option Holder)
  | .next t => some t.pool.owners[(0 : PageId)]
  | _ => none

theorem historyPageFilling_ready : RequestReady historyPageFilling := by decide

theorem historyPageFilling_unitLaw : UnitLaw historyPageFilling := by decide

theorem historyPageFilling_ownerLaw : OwnerLaw historyPageFilling := by decide

theorem historyPageFilling_owner : historyPageFilling.pool.owners[(0 : PageId)] = some (.ch 0) := by decide

/-- The law that the premises leave out, and the counterexample breaks. -/
theorem not_directoryLaw_historyPageFilling : ¬ DirectoryLaw historyPageFilling := by decide

/-- CLEAR frees the page of the history. -/
theorem clear_historyPageFilling : ownerOfPage0 (exec (.clear 0#16 []) historyPageFilling) = some none := by
  decide +kernel

end Sys2Proof.Machine

open Sys2Proof Sys2Proof.Machine

/-- Refutes O57: no premise keeps the directory from naming a page of a console's history, and CLEAR then frees that
page too, where the statement has it keep its owner. -/
theorem not_clearEmptiesEveryBlockAndKeepsSettings : ¬ Obligations.ClearEmptiesEveryBlockAndKeepsSettings := by
  intro h
  obtain ⟨t, ht, hclear⟩ := h 0#16 historyPageFilling historyPageFilling_ready historyPageFilling_unitLaw
    historyPageFilling_ownerLaw (by decide) (by decide) (by decide)
  obtain ⟨-, -, -, -, -, -, -, -, -, -, -, -, -, -, -, -, -, -, -, howners, -⟩ := hclear
  have hkept : t.pool.owners[(0 : PageId)] = some (.ch 0) := by
    rw [howners 0, historyPageFilling_owner]
  have hfreed : some t.pool.owners[(0 : PageId)] = some none :=
    (congrArg ownerOfPage0 ht).symm.trans clear_historyPageFilling
  rw [hkept] at hfreed
  simp at hfreed
end

