-- ==== Sys2Proof/Proofs/PublishingFrame.lean ====
section
/-!
SUPPORT. What the publishing of a power state leaves alone (R12): of the lines their owners and what they drive may
change, and nothing else; the power states, the memories, the pool, the units and the loader stay.
-/

namespace Sys2Proof.Machine

/-- A line but for its owner and what it drives. -/
def Line.unheld (l : Line) : Line := { l with owner := .none, driven := false }

/-- The part of a state that no block changes as it hears of a power state. -/
def unheard (s : State) : Lines × List Host.Cell × Pool × Per4 MediaUnit × Loader × Phase :=
  ({ s.lines with line := s.lines.line.map fun ls => ls.map Line.unheld }, s.ram, s.pool, s.units, s.loader, s.phase)

/-! ## The state's operations -/

@[simp] theorem unheard_modPower (f : Sequencer → Sequencer) (s : State) : unheard (s.modPower f) = unheard s := rfl
@[simp] theorem unheard_modConsole (n : Node) (f : Console → Console) (s : State) :
    unheard (s.modConsole n f) = unheard s := rfl
@[simp] theorem unheard_modPort (n : Node) (f : Port → Port) (s : State) : unheard (s.modPort n f) = unheard s := rfl
@[simp] theorem unheard_modCache (f : Cache → Cache) (s : State) : unheard (s.modCache f) = unheard s := rfl
@[simp] theorem unheard_setAction (n : Node) (a : Option Action) (s : State) :
    unheard (s.setAction n a) = unheard s := rfl
@[simp] theorem unheard_setSlot (n : Node) (k : Option RecoveryKind) (s : State) :
    unheard (s.setSlot n k) = unheard s := rfl
@[simp] theorem unheard_modSupervisor (n : Node) (f : Supervisor → Supervisor) (s : State) :
    unheard (s.modSupervisor n f) = unheard s := rfl
@[simp] theorem unheard_clearPartials (n : Node) (s : State) : unheard (s.clearPartials n) = unheard s := rfl
@[simp] theorem unheard_mark (n : Node) (k : MarkKind) (s : State) : unheard (s.mark n k) = unheard s := rfl
@[simp] theorem unheard_notify (x : Notice) (s : State) : unheard (s.notify x) = unheard s := rfl
@[simp] theorem unheard_reply (tag : Tag) (kind : Byte) (r : Result) (d : List Byte) (s : State) :
    unheard (s.reply tag kind r d) = unheard s := rfl
@[simp] theorem unheard_drew (k : Nat) (s : State) : unheard (s.drew k) = unheard s := rfl

/-- A change of a line's owner, or of what it drives. -/
theorem unheard_modLine {n : Node} {l : LineId} {f : Line → Line} (hf : ∀ x, (f x).unheld = x.unheld) (s : State) :
    unheard (s.modLine n l f) = unheard s := by
  have hnode : ∀ ls : Per6 Line, (ls.modify l f).map Line.unheld = ls.map Line.unheld := fun ls =>
    Per6.map_modify ls l (hf _)
  have hlines := Per4.map_modify s.lines.line n (f := fun ls => ls.modify l f) (g := fun ls => ls.map Line.unheld)
    (hnode _)
  simp only [unheard, State.modLine, State.modLines, hlines]

@[simp] theorem unheard_releaseLine (n : Node) (l : LineId) (s : State) : unheard (releaseLine n l s) = unheard s :=
  unheard_modLine (by intro _; rfl) s

@[simp] theorem unheard_driveLine (n : Node) (l : LineId) (b : Bool) (s : State) :
    unheard (driveLine n l b s) = unheard s :=
  unheard_modLine (by intro _; rfl) s

theorem unheard_takeLine {n : Node} {l : LineId} {o : Owner} {s t : State} (h : takeLine n l o s = some t) :
    unheard t = unheard s := by
  obtain ⟨-, rfl⟩ := takeLine_eq_some.mp h
  exact unheard_modLine (by intro _; rfl) s

/-! ## The supervisor -/

@[simp] theorem unheard_bootProgress (n : Node) (s : State) : unheard (bootProgress n s) = unheard s := rfl

@[simp] theorem unheard_recoveryNotice (n : Node) (e : RecoveryEvent) (k : Option RecoveryKind) (s : State) :
    unheard (recoveryNotice n e k s) = unheard s := rfl

@[simp] theorem unheard_supTo (n : Node) (st : SupState) (s : State) : unheard (supTo n st s) = unheard s := rfl

@[simp] theorem unheard_arm (n : Node) (s : State) : unheard (arm n s) = unheard s := rfl

@[simp] theorem unheard_armingCause (n : Node) (entry : Bool) (s : State) :
    unheard (armingCause n entry s) = unheard s := by
  unfold armingCause
  split
  · rfl
  all_goals split_ifs <;> simp

@[simp] theorem unheard_supResult (n : Node) (kind : ActionKind) (r : ActionResult) (s : State) :
    unheard (supResult n kind r s) = unheard s := by
  cases r with
  | done | doneUnconfirmed | preempted => rfl
  | timeout | noLine =>
    unfold supResult
    dsimp only
    split_ifs <;> rfl

@[simp] theorem unheard_supervisorHears (n : Node) (p : PowerState) (s : State) :
    unheard (supervisorHears n p s) = unheard s := by
  cases p with
  | on => exact unheard_armingCause n true s
  | unknown => rfl
  | off =>
    unfold supervisorHears
    dsimp only
    split
    · split_ifs <;> rfl
    · split_ifs <;> rfl
    all_goals rfl

/-! ## The Power Sequencer -/

@[simp] theorem unheard_enterPhase (n : Node) (a : Action) (st : ActionState) (s : State) :
    unheard (enterPhase n a st s) = unheard s := by
  rcases enterPhase_cases n a st s with e | ⟨l, t, ht, e⟩ <;> rw [e]
  · rfl
  · rw [unheard_setAction, unheard_driveLine, unheard_takeLine ht]

@[simp] theorem unheard_releaseHeld (n : Node) (a : Action) (s : State) : unheard (releaseHeld n a s) = unheard s := by
  rcases releaseHeld_cases n a s with ⟨l, -, e⟩ | ⟨-, e⟩ <;> rw [e]
  rw [unheard_setAction, unheard_releaseLine]

@[simp] theorem unheard_startRecovery (n : Node) (k : RecoveryKind) (s : State) :
    unheard (startRecovery n k s) = unheard s := by
  unfold startRecovery supStarted startAction
  dsimp only
  split_ifs <;> simp

@[simp] theorem unheard_startPending (n : Node) (s : State) : unheard (startPending n s) = unheard s := by
  rcases startPending_cases n s with ⟨-, e⟩ | ⟨k, -, e | e | e⟩ <;> rw [e]
  · rfl
  · rfl
  · rw [unheard_startRecovery, unheard_setSlot]

@[simp] theorem unheard_endAction (n : Node) (a : Action) (r : ActionResult) (s : State) :
    unheard (endAction n a r s) = unheard s := by
  unfold endAction
  dsimp only
  split <;> simp

@[simp] theorem unheard_complete (n : Node) (r : ActionResult) (s : State) : unheard (complete n r s) = unheard s := by
  rcases complete_cases n r s with ⟨-, e⟩ | ⟨a, t, -, ht, hc⟩
  · rw [e]
  · have harmed : unheard t = unheard s := by
      rw [ht]
      split_ifs <;> simp
    rcases hc with ⟨-, e⟩ | ⟨-, e⟩ <;> simp [e, harmed]

@[simp] theorem unheard_sequencerHears (n : Node) (p : PowerState) (s : State) :
    unheard (sequencerHears n p s) = unheard s := by
  unfold sequencerHears
  split
  · rfl
  · split
    · rfl
    · split
      · simp
      · simp
      · dsimp only
        split_ifs <;> simp
      · dsimp only
        split_ifs <;> simp
      · rfl

@[simp] theorem unheard_watchHears (s : State) : unheard (watchHears s) = unheard s := by
  unfold watchHears endWatch
  split
  · rfl
  · split_ifs
    · rfl
    · split <;> rfl

/-! ## Ports, consoles and the whole publication -/

@[simp] theorem unheard_portHears (n : Node) (p : PowerState) (s : State) : unheard (portHears n p s) = unheard s := by
  cases p with
  | on | unknown => rfl
  | off =>
    show unheard (setAttention n (endCommand n .aborted s)) = _
    unfold setAttention endCommand
    split <;> rfl

@[simp] theorem unheard_consoleHears (n : Node) (p : PowerState) (s : State) :
    unheard (consoleHears n p s) = unheard s := by
  cases p <;> rfl

@[simp] theorem unheard_powerMark (n : Node) (p : PowerState) (s : State) : unheard (powerMark n p s) = unheard s := by
  cases p <;> rfl

/-- R12: what the blocks leave alone as they hear of a power state. -/
theorem unheard_publish (n : Node) (p : PowerState) (s : State) : unheard (publish n p s) = unheard s := by
  simp [publish]

@[simp] theorem unheard_notifyLines (n : Node) (lines : Per6 Bool) (s : State) :
    unheard (notifyLines n lines s) = unheard s := by
  unfold notifyLines
  split_ifs <;> rfl

/-! ## What that says of the state -/

theorem line_of_unheard {s t : State} (h : unheard t = unheard s) (n : Node) (l : LineId) :
    (t.line n l).unheld = (s.line n l).unheld := by
  have hline := congrArg (fun x => ((x.1.line).get n).get l) h
  simp only [unheard, Per4.get_map, Per6.get_map] at hline
  exact hline

theorem power_of_unheard {s t : State} (h : unheard t = unheard s) : t.lines.power = s.lines.power :=
  congrArg (fun x => x.1.power) h

/-- R11: a node's power state is a matter of the roles, active levels and levels of its lines. -/
theorem powerOf_unheld (ls : Per6 Line) : powerOf (ls.map Line.unheld) = powerOf ls := by
  have hfind : (ls.map Line.unheld).toList.find? (fun l => l.role == .powerGood)
      = (ls.toList.find? fun l => l.role == .powerGood).map Line.unheld := by
    show (ls.toList.map Line.unheld).find? _ = _
    rw [List.find?_map]
    rfl
  unfold powerOf
  rw [hfind]
  cases ls.toList.find? (fun l => l.role == .powerGood) <;> rfl

theorem powerOf_of_unheard {s t : State} (h : unheard t = unheard s) (n : Node) :
    powerOf (t.lines.line.get n) = powerOf (s.lines.line.get n) := by
  have hnode := congrArg (fun x => x.1.line.get n) h
  simp only [unheard, Per4.get_map] at hnode
  rw [← powerOf_unheld, hnode, powerOf_unheld]

end Sys2Proof.Machine
end

