-- ==== Sys2Proof/Proofs/SampleInstant.lean ====
section
/-!
The sample instant (O15): the debounce of every line, the LINE EVENT of one node, and a node's entry into OFF or ON with
its effects.
-/

namespace Sys2Proof.Machine

/-! ## The sampled lines, and what deriving the power states leaves of them (R5, R11) -/

/-- R5: the state with every line sampled, before anything is notified or published. -/
def sampledState (pins : BitVec 24) (s : State) : State :=
  s.modLines fun k => { k with line := Per4.build (sampledLines s pins), sinceSample := 0 }

theorem line_sampledState (pins : BitVec 24) (s : State) (n : Node) (l : LineId) :
    (sampledState pins s).line n l = (s.line n l).afterSample (pinLevel pins n l) := by
  show ((Per4.build (sampledLines s pins)).get n).get l = _
  rw [Per4.get_build, sampledLines, Per6.get_build]

/-- What a state keeps where only power states are derived again and published. -/
structure Republished (s t : State) : Prop where
  line : ∀ n l, (t.line n l).unheld = (s.line n l).unheld
  given : ∀ n, powerOf (t.lines.line.get n) = powerOf (s.lines.line.get n)
  period : t.lines.samplePeriod = s.lines.samplePeriod
  rest : (unheard t).2 = (unheard s).2

namespace Republished

theorem of_unheard {s t : State} (h : unheard t = unheard s) : Republished s t :=
  ⟨line_of_unheard h, powerOf_of_unheard h, congrArg (fun x => x.1.samplePeriod) h, congrArg Prod.snd h⟩

theorem trans {s t u : State} (h : Republished s t) (k : Republished t u) : Republished s u :=
  ⟨fun n l => (k.line n l).trans (h.line n l), fun n => (k.given n).trans (h.given n), k.period.trans h.period,
    k.rest.trans h.rest⟩

end Republished

/-- What holds of every operation of a run holds of the run. -/
theorem republished_foldl {α : Type} {f : α → State → State} (hf : ∀ x s, Republished s (f x s)) (xs : List α)
    (s : State) : Republished s (xs.foldl (fun t x => f x t) s) := by
  induction xs generalizing s with
  | nil => exact .of_unheard rfl
  | cons x xs ih => exact (hf x s).trans (ih _)

theorem republished_inFreeOrder {α : Type} {f : α → State → State} (hf : ∀ x s, Republished s (f x s)) (xs : List α)
    (s : State) : Republished s (s.inFreeOrder xs f) :=
  (Republished.of_unheard (unheard_drew _ s)).trans (republished_foldl hf _ _)

/-- R11: the state with the power state of a node derived, before it is published. -/
def withPower (n : Node) (p : PowerState) (s : State) : State :=
  s.modLines fun x => { x with power := x.power.set n p }

theorem rederivePower_changed {n : Node} {s : State} (h : powerOf (s.lines.line.get n) ≠ s.powerState n) :
    rederivePower n s = publish n (powerOf (s.lines.line.get n)) (withPower n (powerOf (s.lines.line.get n)) s) :=
  if_neg h

theorem republished_rederivePower (n : Node) (s : State) : Republished s (rederivePower n s) := by
  by_cases h : powerOf (s.lines.line.get n) = s.powerState n
  · rw [rederivePower_same h]
    exact .of_unheard rfl
  · rw [rederivePower_changed h]
    have hset : Republished s (withPower n (powerOf (s.lines.line.get n)) s) :=
      ⟨fun _ _ => rfl, fun _ => rfl, rfl, rfl⟩
    exact hset.trans (.of_unheard (unheard_publish n _ _))

/-- R11: the power state that the lines give is in force at the node derived, and stays at every other. -/
theorem powerState_rederivePower (n m : Node) (s : State) :
    (rederivePower n s).powerState m = if m = n then powerOf (s.lines.line.get n) else s.powerState m := by
  by_cases h : powerOf (s.lines.line.get n) = s.powerState n
  · rw [rederivePower_same h]
    split_ifs with hm
    · rw [hm, h]
    · rfl
  · rw [rederivePower_changed h, State.powerState, power_of_unheard (unheard_publish n _ _)]
    exact Per4.get_set _ n m _

/-- R11: after the nodes of a list are derived, every node has the power state its lines give, if every node outside the
list had it before. -/
theorem powerState_rederived (ns : List Node) (s : State)
    (h : ∀ m, m ∉ ns → s.powerState m = powerOf (s.lines.line.get m)) (m : Node) :
    (ns.foldl (fun t n => rederivePower n t) s).powerState m
      = powerOf ((ns.foldl (fun t n => rederivePower n t) s).lines.line.get m) := by
  induction ns generalizing s with
  | nil => exact h m (by simp)
  | cons n ns ih =>
    refine ih (rederivePower n s) fun k hk => ?_
    rw [powerState_rederivePower, (republished_rederivePower n s).given]
    split_ifs with hkn
    · rw [hkn]
    · exact h k (by simp [hkn, hk])

/-- R11: deriving the nodes whose power state differs gives every node the power state its lines give. -/
theorem powerState_rederiveAll (s : State) (m : Node) :
    (s.inFreeOrder (allNodes.filter fun n => powerOf (s.lines.line.get n) != s.powerState n) rederivePower).powerState m
      = powerOf ((s.inFreeOrder (allNodes.filter fun n => powerOf (s.lines.line.get n) != s.powerState n)
          rederivePower).lines.line.get m) := by
  refine powerState_rederived _ _ (fun k hk => ?_) m
  have hk' : k ∉ allNodes.filter fun n => powerOf (s.lines.line.get n) != s.powerState n := fun hin =>
    hk ((freeOrder_perm _ _).mem_iff.mpr hin)
  have hsame : powerOf (s.lines.line.get k) = s.powerState k := by
    simpa [mem_allNodes] using hk'
  exact hsame.symm

/-- R5, R11: what a sample instant keeps beside the samples. -/
theorem republished_sampleAll (pins : BitVec 24) (s : State) :
    Republished (sampledState pins s) (sampleAll pins s) := by
  unfold sampleAll
  dsimp only
  exact (republished_inFreeOrder (fun n x => .of_unheard (unheard_notifyLines n _ x)) _ _).trans
    (republished_inFreeOrder republished_rederivePower _ _)

theorem powerState_sampleAll (pins : BitVec 24) (s : State) (n : Node) :
    (sampleAll pins s).powerState n = powerOf ((sampleAll pins s).lines.line.get n) :=
  powerState_rederiveAll _ n

/-! ## One sample of one line (R5, R7, R8) -/

theorem afterSample_last (x : Line) (sample : Level) : (x.afterSample sample).last = sample := by
  unfold Line.afterSample
  split_ifs <;> rfl

theorem edgeAt_iff (x : Line) (sample : Level) : x.edgeAt sample = true ↔ sample = x.last ∧ sample ≠ x.level := by
  simp [Line.edgeAt]

theorem afterSample_level (x : Line) (sample : Level) :
    (x.afterSample sample).level = if sample = x.last ∧ sample ≠ x.level then sample else x.level := by
  unfold Line.afterSample
  simp only [edgeAt_iff]
  split_ifs <;> rfl

/-- R7, R8: a flag is set by a selected edge and never cleared. -/
theorem afterSample_flag (x : Line) (sample : Level) :
    (x.afterSample sample).flag = true ↔ x.flag = true
      ∨ (x.afterSample sample).level ≠ x.level ∧ x.sense.selects (x.afterSample sample).level = true := by
  unfold Line.afterSample
  split_ifs with h
  · have hne : sample ≠ x.level := ((edgeAt_iff x sample).mp h).2
    simp [hne]
  · simp

/-- The fields of a line that its owner and what it drives do not touch. -/
theorem fields_of_unheld {x y : Line} (h : x.unheld = y.unheld) :
    x.last = y.last ∧ x.level = y.level ∧ x.flag = y.flag ∧ x.settings = y.settings := by
  simp only [Line.unheld, Line.mk.injEq] at h
  simp [Line.settings, h]

/-- R5: the lines of a sample instant, given one by one. -/
theorem sampledState_eq {pins : BitVec 24} {lines : Per4 (Per6 Line)} {s : State}
    (h : ∀ (m : Node) (l : LineId), (lines.get m).get l = (s.line m l).afterSample (pinLevel pins m l)) :
    sampledState pins s = { s with lines := { s.lines with line := lines, sinceSample := 0 } } := by
  have hlines : Per4.build (sampledLines s pins) = lines := Per4.ext_get fun m => Per6.ext_get fun l => by
    rw [Per4.get_build, sampledLines, Per6.get_build, h]
  simp only [sampledState, State.modLines, hlines]

/-! ## Which nodes notify, and which are published -/

theorem inFreeOrder_nil {α : Type} (f : α → State → State) (s : State) : s.inFreeOrder [] f = s := rfl

theorem inFreeOrder_single {α : Type} (x : α) (f : α → State → State) (s : State) : s.inFreeOrder [x] f = f x s := rfl

theorem filter_allNodes_eq_nil {p : Node → Bool} (h : ∀ m, p m = false) : allNodes.filter p = [] := by
  simp [List.filter_eq_nil_iff, h]

theorem filter_allNodes_eq_single {p : Node → Bool} {n : Node} (h : ∀ m, p m = true ↔ m = n) :
    allNodes.filter p = [n] := by
  have hp : p = fun m => decide (m = n) := funext fun m => Bool.eq_iff_iff.mpr (by simp [h])
  rw [hp]
  fin_cases n <;> rfl

/-- R9: some line of a node notifies. -/
theorem newlyFlagged_any {before after : Per6 Line} :
    (newlyFlagged before after).toList.any id = true ↔ ∃ l, notifies (before.get l) (after.get l) = true := by
  have hget : ∀ l, (newlyFlagged before after).get l = notifies (before.get l) (after.get l) := Per6.get_build _
  rw [List.any_eq_true]
  constructor
  · rintro ⟨b, hb, ht⟩
    obtain ⟨l, hl⟩ : ∃ l, (newlyFlagged before after).get l = b := by
      simp only [Per6.toList, List.mem_cons, List.not_mem_nil, or_false] at hb
      rcases hb with h | h | h | h | h | h
      exacts [⟨0, h.symm⟩, ⟨1, h.symm⟩, ⟨2, h.symm⟩, ⟨3, h.symm⟩, ⟨4, h.symm⟩, ⟨5, h.symm⟩]
    exact ⟨l, by rw [← hget, hl]; exact ht⟩
  · rintro ⟨l, hl⟩
    refine ⟨true, ?_, rfl⟩
    rw [← hl, ← hget]
    fin_cases l <;> simp [Per6.toList, Per6.get]

/-- R9: the lines of a node that notify in a sample instant. -/
def newlyIn (pins : BitVec 24) (s : State) (n : Node) : Per6 Bool :=
  newlyFlagged (s.lines.line.get n) ((sampledState pins s).lines.line.get n)

theorem newlyIn_get (pins : BitVec 24) (s : State) (n : Node) (l : LineId) :
    (newlyIn pins s n).get l = notifies (s.line n l) ((sampledState pins s).line n l) :=
  Per6.get_build _ l

/-- R5, R9, R11: a sample instant is the samples, the LINE EVENTs of the nodes that notify, and the publishing of the
power states that differ. -/
theorem sampleAll_eq {pins : BitVec 24} {s u : State}
    (hu : u = (sampledState pins s).inFreeOrder (allNodes.filter fun n => (newlyIn pins s n).toList.any id)
      fun n x => notifyLines n (newlyIn pins s n) x) :
    sampleAll pins s
      = u.inFreeOrder (allNodes.filter fun n => powerOf (u.lines.line.get n) != u.powerState n) rederivePower := by
  rw [hu]
  rfl

/-- R5: no line notifies, and no power state changes but one node's. -/
theorem sampleAll_oneChange {pins : BitVec 24} {n : Node} {s : State}
    (hquiet : ∀ m l, notifies (s.line m l) ((sampledState pins s).line m l) = false)
    (hpower : ∀ m, powerOf ((sampledState pins s).lines.line.get m) ≠ s.powerState m ↔ m = n) :
    sampleAll pins s = rederivePower n (sampledState pins s) := by
  have hflagged : (allNodes.filter fun n => (newlyIn pins s n).toList.any id) = [] :=
    filter_allNodes_eq_nil fun m => eq_false_of_ne_true fun h => by
      obtain ⟨l, hl⟩ := newlyFlagged_any.mp h
      exact absurd ((hquiet m l).symm.trans hl) Bool.false_ne_true
  have hchanged : (allNodes.filter fun m => powerOf ((sampledState pins s).lines.line.get m)
      != (sampledState pins s).powerState m) = [n] :=
    filter_allNodes_eq_single fun m => bne_iff_ne.trans (hpower m)
  rw [sampleAll_eq (u := sampledState pins s) (by rw [hflagged, inFreeOrder_nil]), hchanged, inFreeOrder_single]

/-- R9: one node notifies, and no power state changes. -/
theorem sampleAll_oneEvent {pins : BitVec 24} {n : Node} {s : State}
    (hone : ∀ m, (∃ l, notifies (s.line m l) ((sampledState pins s).line m l) = true) ↔ m = n)
    (hpower : ∀ m, powerOf ((sampledState pins s).lines.line.get m) = s.powerState m) :
    sampleAll pins s = (sampledState pins s).notify (.lineEvent n (newlyIn pins s n)) := by
  have hflagged : (allNodes.filter fun n => (newlyIn pins s n).toList.any id) = [n] :=
    filter_allNodes_eq_single fun m => newlyFlagged_any.trans (hone m)
  have hnotified : notifyLines n (newlyIn pins s n) (sampledState pins s)
      = (sampledState pins s).notify (.lineEvent n (newlyIn pins s n)) :=
    if_pos (newlyFlagged_any.mpr ((hone n).mpr rfl))
  have hsame : (allNodes.filter fun m => powerOf ((sampledState pins s).lines.line.get m)
      != (sampledState pins s).powerState m) = [] :=
    filter_allNodes_eq_nil fun m => bne_eq_false_iff_eq.mpr (hpower m)
  rw [sampleAll_eq (u := (sampledState pins s).notify (.lineEvent n (newlyIn pins s n)))
    (by rw [hflagged, inFreeOrder_single, hnotified])]
  exact (congrArg (fun ns => State.inFreeOrder ns rederivePower _) hsame).trans (inFreeOrder_nil _ _)

end Sys2Proof.Machine
end

