-- ==== Sys2Proof/Proofs/PublishedEffects.lean ====
section
/-!
What each block makes of a node's entry into OFF or ON (O15, third part), block by block in R12's order.
-/

namespace Sys2Proof.Machine

/-- Of two values set at one place the second stays. -/
theorem Per4.set_set {α : Type} (x : Per4 α) (i : Node) (a b : α) : (x.set i a).set i b = x.set i b :=
  Per4.ext_get fun j => by
    rw [Per4.get_set, Per4.get_set, Per4.get_set]
    split_ifs <;> rfl

/-! ## The Power Sequencer (R23, R26, R30) -/

/-- R30: an action of a host that the new power state ends: a confirmed HARD OFF in HOLDING that holds its line, or a
confirmed POWER ON in WAITING_ON; no recovery is pending. -/
def EndsAt (n : Node) (p : PowerState) (a : Action) (s : State) : Prop :=
  ∃ (tag : Tag) (l : LineId), a.originator = .host tag ∧ a.confirmed = true ∧ a.lostConfirmation = false
    ∧ s.power.slot.get n = none
    ∧ (p = .off ∧ a.kind = .hardOff ∧ a.state = .holding ∧ a.held = some l
      ∨ p = .on ∧ a.kind = .powerOn ∧ a.state = .waitingOn ∧ a.held = none)

/-- R30, R199: the reply to a POWER ACTION that is done. -/
def doneReply (n : Node) (p : PowerState) (a : Action) : Reply :=
  replyTo (match a.originator with | .host tag => tag | .supervisor => 0#16) 0x20#8 .done
    (be8 n.val ++ be8 (if a.escalated then 1 else actionKindCode a.kind) ++ [flagByte a.escalated]
      ++ be8 (powerCode p))

theorem actionKindCode_requested (a : Action) :
    actionKindCode a.requested = if a.escalated then 1 else actionKindCode a.kind := by
  unfold Action.requested
  split_ifs <;> rfl

/-- R30: a host's action that completes with DONE, where no recovery is pending and its kind arms nothing. -/
theorem complete_hostDone {n : Node} {a : Action} {tag : Tag} {s : State} (ha : s.action n = some a)
    (htag : a.originator = .host tag) (hlost : a.lostConfirmation = false) (hslot : s.power.slot.get n = none)
    (harms : completionArms a.kind .done = false) (hheld : a.held = none) :
    complete n .done s
      = (s.setAction n none).modLink (Link.addReply (doneReply n (s.powerState n) a)) := by
  have hend : endAction n a .done s = (s.setAction n none).modLink (Link.addReply (doneReply n (s.powerState n) a)) := by
    simp only [endAction, releaseHeld, hheld, htag, reportedResult, hlost, Bool.false_eq_true, false_and, if_false,
      doneReply, ← actionKindCode_requested]
    rfl
  have hpending : startPending n (endAction n a .done s) = endAction n a .done s := by
    rw [hend]
    unfold startPending
    rw [show ((s.setAction n none).modLink (Link.addReply (doneReply n (s.powerState n) a))).power.slot.get n = none
      from hslot]
  unfold complete
  rw [ha]
  simp only [harms, Bool.false_eq_true, if_false, hpending, ite_self]
  exact hend

theorem sequencerHears_none {n : Node} {p : PowerState} {s : State} (ha : s.action n = none) :
    sequencerHears n p s = s := by
  unfold sequencerHears
  rw [ha]

/-- R26: OFF ends the HOLDING of a confirmed action that is no CYCLE. -/
theorem sequencerHears_holding {n : Node} {a : Action} {s : State} (ha : s.action n = some a) (hconf : a.confirmed = true)
    (hstate : a.state = .holding) (hkind : a.kind ≠ .cycle) :
    sequencerHears n .off s = complete n .done (releaseHeld n a s) := by
  unfold sequencerHears
  simp only [ha, hconf, hstate, hkind, Bool.not_true, Bool.false_eq_true, if_false]

/-- R23: ON ends the WAITING_ON of a confirmed action. -/
theorem sequencerHears_waitingOn {n : Node} {a : Action} {s : State} (ha : s.action n = some a)
    (hconf : a.confirmed = true) (hstate : a.state = .waitingOn) : sequencerHears n .on s = complete n .done s := by
  unfold sequencerHears
  simp only [ha, hconf, hstate, Bool.not_true, Bool.false_eq_true, if_false]

/-- R23, R26: what the Power Sequencer makes of the state that ends its action, or that finds none. -/
theorem sequencerHears_ends {n : Node} {p : PowerState} {s : State} (h : ∀ a, s.action n = some a → EndsAt n p a s)
    (hp : s.powerState n = p) :
    sequencerHears n p s = { s with
      lines := { s.lines with
        line := match (s.action n).bind fun a => a.held with
          | some l => s.lines.line.modify n fun ls => ls.modify l fun x => { x with owner := .none, driven := false }
          | none => s.lines.line }
      power := { s.power with action := s.power.action.set n none }
      link := match s.action n with
        | some a => s.link.addReply (doneReply n p a)
        | none => s.link } := by
  cases ha : s.action n with
  | none =>
    have hnone : s.power.action.set n none = s.power.action := by
      rw [← show s.power.action.get n = none from ha, Per4.set_get]
    rw [sequencerHears_none ha]
    simp only [hnone]
    rfl
  | some a =>
    obtain ⟨tag, l, htag, hconf, hlost, hslot, ⟨rfl, hkind, hstate, hheld⟩ | ⟨rfl, hkind, hstate, hheld⟩⟩ := h a ha
    · have hrel : releaseHeld n a s = (releaseLine n l s).setAction n (some { a with held := none }) := by
        unfold releaseHeld
        rw [hheld]
      have hact : (releaseHeld n a s).action n = some { a with held := none } := by
        rw [hrel]
        exact Per4.get_set_same _ _ _
      rw [sequencerHears_holding ha hconf hstate (by simp [hkind]),
        complete_hostDone hact htag hlost (by rw [hrel]; exact hslot) (by simp [hkind, completionArms]) rfl, hrel]
      simp only [State.setAction, State.modPower, Per4.set_set, Option.bind_some, hheld, ← hp]
      rfl
    · rw [sequencerHears_waitingOn ha hconf hstate,
        complete_hostDone ha htag hlost hslot (by simp [hkind, completionArms]) hheld]
      simp only [Option.bind_some, hheld, hp]
      rfl

/-! ## The power watch (R36) -/

/-- R36: the watch that a publication leaves: the running one while the power states agree with it. -/
def watchLeft (power : Per4 PowerState) : Option Watch → Option Watch
  | some w => if ∀ m : Node, (w.expected.get m).accepts (power.get m) = true then some w else none
  | none => none

/-- R36: the link after it: a watch that no longer agrees is answered CHANGED. -/
def watchAnswered (power : Per4 PowerState) (k : Link) : Option Watch → Link
  | some w => if ∀ m : Node, (w.expected.get m).accepts (power.get m) = true then k
      else k.addReply (replyTo w.tag 0x22#8 .changed
        ((power.toList.map fun x => BitVec.ofNat 8 (powerCode x)) ++ be16 w.timeout))
  | none => k

theorem watchAgrees_iff (s : State) (e : Per4 Expected) :
    watchAgrees s e = true ↔ ∀ m : Node, (e.get m).accepts (s.lines.power.get m) = true := by
  unfold watchAgrees
  rw [List.all_eq_true]
  exact ⟨fun h m => h m (mem_allNodes m), fun h m _ => h m⟩

theorem watchHears_eq (s : State) : watchHears s = { s with
    power := { s.power with watch := watchLeft s.lines.power s.power.watch }
    link := watchAnswered s.lines.power s.link s.power.watch } := by
  have hkept : ∀ w, s.power.watch = w → ({ s.power with watch := w } : Sequencer) = s.power := by
    rintro _ rfl
    rfl
  unfold watchHears
  cases hw : s.power.watch with
  | none =>
    simp only [watchLeft, watchAnswered]
    rw [hkept none hw]
  | some w =>
    by_cases hagrees : ∀ m : Node, (w.expected.get m).accepts (s.lines.power.get m) = true
    · have hleft : watchLeft s.lines.power (some w) = some w := if_pos hagrees
      have hlink : watchAnswered s.lines.power s.link (some w) = s.link := if_pos hagrees
      rw [hleft, hlink, hkept (some w) hw]
      exact if_pos ((watchAgrees_iff s w.expected).mpr hagrees)
    · have hleft : watchLeft s.lines.power (some w) = none := if_neg hagrees
      have hlink : watchAnswered s.lines.power s.link (some w) = s.link.addReply (replyTo w.tag 0x22#8 .changed
          ((s.lines.power.toList.map fun x => BitVec.ofNat 8 (powerCode x)) ++ be16 w.timeout)) := if_neg hagrees
      have hend : endWatch .changed s = (s.modPower fun p => { p with watch := none }).reply w.tag 0x22#8 .changed
          (watchDetails s w.timeout) := by
        unfold endWatch
        rw [hw]
      rw [hleft, hlink]
      exact (if_neg (mt (watchAgrees_iff s w.expected).mp hagrees)).trans hend

/-! ## The port (R127) and the supervisor (R160, R168) -/

/-- R127: a port whose node has gone OFF. -/
def portOff (q : Port) : Port :=
  match q.active with
  | some a => { endedPort q a .aborted with attention := true, sequential := none }
  | none => { q with attention := true, sequential := none, idleTimer := none }

theorem portHears_off (n : Node) (s : State) : portHears n .off s = { s with
    ports := s.ports.set n (portOff (port s n))
    cache := { s.cache with
      entryWait := if (port s n).active = none then s.cache.entryWait
        else s.cache.entryWait.filter fun m => m != n } } := by
  show setAttention n (endCommand n .aborted s) = _
  rw [endCommand_eq]
  cases ha : (port s n).active with
  | none =>
    have hport : ({ port s n with attention := true, sequential := none } : Port).settleTimer = portOff (port s n) := by
      simp only [portOff, ha, Port.settleTimer, Port.counting, Port.state, Bool.false_eq_true, if_false]
    rw [← hport]
    rfl
  | some a =>
    have hport : ({ endedPort (port s n) a .aborted with attention := true, sequential := none } : Port).settleTimer
        = portOff (port s n) := by
      simp only [portOff, ha]
      rfl
    have hset : (commandEnded n a .aborted s).ports = s.ports.set n (endedPort (port s n) a .aborted) := rfl
    simp only [setAttention, State.modPort, Per4.modify, hset, Per4.set_set, Per4.get_set_same, hport, reduceCtorEq,
      if_false]
    rfl

/-- R168: where no action runs, the supervisor of a node that has gone OFF goes from WATCHING or COMPLETE to IDLE. -/
theorem supervisorHears_off {n : Node} {s : State} (ha : s.action n = none)
    (hv : ∀ running : Bool, (s.supervisor n).state ≠ .recovering running) :
    supervisorHears n .off s = { s with
      boot := { s.boot with
        supervisor := if (s.supervisor n).state = .idle ∨ (s.supervisor n).state = .halted then s.boot.supervisor
          else s.boot.supervisor.set n { s.supervisor n with state := .idle, deadline := none } }
      link := if (s.supervisor n).state = .idle ∨ (s.supervisor n).state = .halted then s.link
        else s.link.addNotice (.bootProgress n .idle (s.supervisor n).attempts (s.supervisor n).fallback) } := by
  have hcycle : supervisorCycleRuns s n = false := by
    unfold supervisorCycleRuns
    rw [ha]
  have hidle : bootProgress n (supTo n .idle s) = { s with
      boot := { s.boot with
        supervisor := s.boot.supervisor.set n { s.supervisor n with state := .idle, deadline := none } }
      link := s.link.addNotice (.bootProgress n .idle (s.supervisor n).attempts (s.supervisor n).fallback) } := by
    have hnew : (supTo n .idle s).supervisor n = { s.supervisor n with state := .idle, deadline := none } :=
      Per4.get_modify_same _ _ _
    simp only [bootProgress, hnew]
    rfl
  unfold supervisorHears
  dsimp only
  cases hstate : (s.supervisor n).state with
  | recovering running => exact absurd hstate (hv running)
  | watching k => simp [hcycle, hidle]
  | complete => simp [hcycle, hidle]
  | idle => simp
  | halted => simp

/-- R160: entering ON arms the supervisor, but for one whose recovery is still to start. -/
theorem supervisorHears_on {n : Node} {s : State} (hv : (s.supervisor n).state ≠ .recovering false) :
    supervisorHears n .on s = { s with
      boot := { s.boot with
        supervisor := s.boot.supervisor.set n { s.supervisor n with
          state := .watching 0
          deadline := if (s.boot.policy.get n).deadlines.l0 = 0 then none
            else some ((s.boot.policy.get n).deadlines.l0 * 1000) }
        partials := s.boot.partials.set n (Vector.replicate 16 0) }
      link := s.link.addNotice (.bootProgress n (.watching 0) (s.supervisor n).attempts (s.supervisor n).fallback) } := by
  have harm : supervisorHears n .on s = arm n s := by
    show armingCause n true s = _
    unfold armingCause
    cases hstate : (s.supervisor n).state with
    | recovering running =>
      cases running with
      | false => exact absurd hstate hv
      | true => rfl
    | idle | watching _ | complete | halted => rfl
  have hnew : (enterWatching n 0 (s.clearPartials n)).supervisor n = { s.supervisor n with
      state := .watching 0
      deadline := if (s.boot.policy.get n).deadlines.l0 = 0 then none
        else some ((s.boot.policy.get n).deadlines.l0 * 1000) } := Per4.get_modify_same _ _ _
  rw [harm]
  simp only [arm, bootProgress, hnew]
  rfl

end Sys2Proof.Machine
end

