-- ==== Sys2Proof/Proofs/SampleObligation.lean ====
section
/-!
The sample instant (O15): the publication of one node's entry into OFF or ON as one change of the state, and the
obligation.
-/

namespace Sys2Proof.Machine

/-- R12: what the blocks after the Power Sequencer make of an entry into OFF. -/
theorem heard_off {n : Node} {s : State} (ha : s.action n = none)
    (hv : ∀ running : Bool, (s.supervisor n).state ≠ .recovering running) :
    supervisorHears n .off (portHears n .off (consoleHears n .off (watchHears s))) = { s with
      power := { s.power with watch := watchLeft s.lines.power s.power.watch }
      consoles := s.consoles.set n { s.consoles.get n with
        dropped := (s.consoles.get n).dropped + BitVec.ofNat 32 (s.consoles.get n).fifo.length, fifo := [] }
      ports := s.ports.set n (portOff (port s n))
      cache := { s.cache with
        entryWait := if (port s n).active = none then s.cache.entryWait
          else s.cache.entryWait.filter fun m => m != n }
      boot := { s.boot with
        supervisor := if (s.supervisor n).state = .idle ∨ (s.supervisor n).state = .halted then s.boot.supervisor
          else s.boot.supervisor.set n { s.supervisor n with state := .idle, deadline := none } }
      link := if (s.supervisor n).state = .idle ∨ (s.supervisor n).state = .halted
        then watchAnswered s.lines.power s.link s.power.watch
        else (watchAnswered s.lines.power s.link s.power.watch).addNotice
          (.bootProgress n .idle (s.supervisor n).attempts (s.supervisor n).fallback) } := by
  rw [watchHears_eq, portHears_off, supervisorHears_off]
  · rfl
  · exact ha
  · exact hv

/-- R12: what the blocks after the Power Sequencer make of an entry into ON. -/
theorem heard_on {n : Node} {s : State} (hv : (s.supervisor n).state ≠ .recovering false) :
    supervisorHears n .on (portHears n .on (consoleHears n .on (watchHears s))) = { s with
      power := { s.power with watch := watchLeft s.lines.power s.power.watch }
      boot := { s.boot with
        supervisor := s.boot.supervisor.set n { s.supervisor n with
          state := .watching 0
          deadline := if (s.boot.policy.get n).deadlines.l0 = 0 then none
            else some ((s.boot.policy.get n).deadlines.l0 * 1000) }
        partials := s.boot.partials.set n (Vector.replicate 16 0) }
      link := (watchAnswered s.lines.power s.link s.power.watch).addNotice
        (.bootProgress n (.watching 0) (s.supervisor n).attempts (s.supervisor n).fallback) } := by
  rw [watchHears_eq]
  exact supervisorHears_on hv

/-- R12: what a node's entry into OFF does, where its action ends with it or none runs. -/
def enteredOff (n : Node) (s : State) (k : Link) : State :=
  { s with
    lines := { s.lines with
      line := match (s.action n).bind fun a => a.held with
        | some l => s.lines.line.modify n fun ls => ls.modify l fun x => { x with owner := .none, driven := false }
        | none => s.lines.line }
    power := { s.power with
      action := s.power.action.set n none
      watch := watchLeft s.lines.power s.power.watch }
    consoles := s.consoles.set n { (s.consoles.get n).addMark .powerOff with
      dropped := (s.consoles.get n).dropped + BitVec.ofNat 32 (s.consoles.get n).fifo.length, fifo := [] }
    ports := s.ports.set n (portOff (port s n))
    cache := { s.cache with
      entryWait := if (port s n).active = none then s.cache.entryWait
        else s.cache.entryWait.filter fun m => m != n }
    boot := { s.boot with
      supervisor := if (s.supervisor n).state = .idle ∨ (s.supervisor n).state = .halted then s.boot.supervisor
        else s.boot.supervisor.set n { s.supervisor n with state := .idle, deadline := none } }
    link := if (s.supervisor n).state = .idle ∨ (s.supervisor n).state = .halted
      then watchAnswered s.lines.power k s.power.watch
      else (watchAnswered s.lines.power k s.power.watch).addNotice
        (.bootProgress n .idle (s.supervisor n).attempts (s.supervisor n).fallback) }

/-- R12: what a node's entry into ON does, where its action ends with it or none runs. -/
def enteredOn (n : Node) (s : State) (k : Link) : State :=
  { s with
    power := { s.power with
      action := s.power.action.set n none
      watch := watchLeft s.lines.power s.power.watch }
    consoles := s.consoles.set n ((s.consoles.get n).addMark .powerOn)
    boot := { s.boot with
      supervisor := s.boot.supervisor.set n { s.supervisor n with
        state := .watching 0
        deadline := if (s.boot.policy.get n).deadlines.l0 = 0 then none
          else some ((s.boot.policy.get n).deadlines.l0 * 1000) }
      partials := s.boot.partials.set n (Vector.replicate 16 0) }
    link := (watchAnswered s.lines.power k s.power.watch).addNotice
      (.bootProgress n (.watching 0) (s.supervisor n).attempts (s.supervisor n).fallback) }

/-- R12, R30: the link once the node's new power state is noticed and its action, if one runs, has answered. -/
def noticedLink (n : Node) (p : PowerState) (s : State) : Link :=
  match s.action n with
  | some a => (s.link.addNotice (.powerState n p)).addReply (doneReply n p a)
  | none => s.link.addNotice (.powerState n p)

theorem publish_off {n : Node} {s : State} (h : ∀ a, s.action n = some a → EndsAt n .off a s)
    (hp : s.powerState n = .off) (hv : ∀ running : Bool, (s.supervisor n).state ≠ .recovering running) :
    publish n .off s = enteredOff n s (noticedLink n .off s) := by
  have hset : ∀ x, (powerMark n .off (s.notify (.powerState n .off))).consoles.set n x = s.consoles.set n x := fun x =>
    Per4.set_set _ _ _ _
  have hget : (powerMark n .off (s.notify (.powerState n .off))).consoles.get n = (s.consoles.get n).addMark .powerOff :=
    Per4.get_modify_same _ _ _
  unfold publish
  rw [sequencerHears_ends (s := powerMark n .off (s.notify (.powerState n .off))) h hp, heard_off]
  · simp only [hset, hget]
    rfl
  · exact Per4.get_set_same _ _ _
  · exact hv

theorem publish_on {n : Node} {s : State} (h : ∀ a, s.action n = some a → EndsAt n .on a s)
    (hp : s.powerState n = .on) (hv : (s.supervisor n).state ≠ .recovering false) :
    publish n .on s = enteredOn n s (noticedLink n .on s) := by
  have hheld : ∀ a, s.action n = some a → a.held = none := fun a ha => by
    obtain ⟨_, _, _, _, _, _, ⟨hoff, -⟩ | ⟨-, -, -, hheld⟩⟩ := h a ha
    · exact absurd hoff (by decide)
    · exact hheld
  have hnone : ((s.action n).bind fun a => a.held) = none := by
    cases ha : s.action n with
    | none => rfl
    | some a => exact hheld a ha
  unfold publish
  rw [sequencerHears_ends (s := powerMark n .on (s.notify (.powerState n .on))) h hp, heard_on]
  · rw [show ((powerMark n .on (s.notify (.powerState n .on))).action n).bind (fun a => a.held) = none from hnone]
    rfl
  · exact hv

/-- R5, R11: where no line notifies and one node's power state changes, a sample instant samples the lines and publishes
that power state. -/
theorem sampleAll_publishes {pins : BitVec 24} {n : Node} {lines : Per4 (Per6 Line)} {power : Per4 PowerState} {s : State}
    (hlines : ∀ (m : Node) (l : LineId), (lines.get m).get l = (s.line m l).afterSample (pinLevel pins m l))
    (hquiet : ∀ (m : Node) (l : LineId), ((lines.get m).get l).notify = true → ((lines.get m).get l).flag = true →
      (s.line m l).flag = true)
    (hpower : ∀ m, powerOf (lines.get m) = power.get m) (hothers : ∀ m, m ≠ n → power.get m = s.powerState m)
    (hchange : s.powerState n ≠ power.get n) :
    sampleAll pins s = publish n (power.get n)
      { s with lines := { s.lines with line := lines, power := power, sinceSample := 0 } } := by
  have hsampled := sampledState_eq hlines
  have hderived : power = s.lines.power.set n (power.get n) := Per4.ext_get fun m => by
    rw [Per4.get_set]
    split_ifs with hm
    · rw [hm]
    · exact hothers m hm
  rw [sampleAll_oneChange (n := n), hsampled, rederivePower_changed]
  · simp only [hpower, withPower, State.modLines]
    rw [← hderived]
  · rw [hpower]
    exact fun h => hchange h.symm
  · intro m l
    rw [line_sampledState, ← hlines]
    unfold notifies
    by_cases hn : ((lines.get m).get l).notify = true <;> by_cases hf : ((lines.get m).get l).flag = true <;>
      simp [hn, hf]
    exact hquiet m l hn hf
  · intro m
    rw [hsampled]
    show powerOf (lines.get m) ≠ _ ↔ _
    rw [hpower]
    constructor
    · exact fun h => by_contra fun hm => h (hothers m hm)
    · rintro rfl
      exact fun h => hchange h.symm

end Sys2Proof.Machine

open Sys2Proof Sys2Proof.Machine

/-- Settles O15: each line is debounced and nothing that hears of a power state touches a level or a flag; one node's
flags give its LINE EVENT; one node's new power state is published once, and each block answers it in R12's order. -/
theorem sampleInstantDebouncesAndReports : Obligations.SampleInstantDebouncesAndReports := by
  have hexec : ∀ (pins : BitVec 24) (s : State), s.phase = .running →
      exec (.sampleInstant pins) s = .next (sampleAll pins s) := fun pins s hrun =>
    congrArg _ (whenRunning_running hrun (sampleAll pins))
  refine ⟨fun pins s hrun => ?_, fun pins n lines set_ s hrun hlines hpower hothers hset hsome => ?_,
    fun pins n p lines power acted watched c q v s hrun hlines hquiet hpower hothers hp hchange haction hacted hwatched
      hc hq hv => ?_⟩
  · have hkept := republished_sampleAll pins s
    refine ⟨sampleAll pins s, hexec pins s hrun, fun n l => ?_, powerState_sampleAll pins s, hkept.period,
      congrArg (fun x => x.1) hkept.rest, congrArg (fun x => x.2.1) hkept.rest, congrArg (fun x => x.2.2.1) hkept.rest,
      congrArg (fun x => x.2.2.2.1) hkept.rest, congrArg (fun x => x.2.2.2.2) hkept.rest⟩
    obtain ⟨hlast, hlevel, hflag, hsettings⟩ := fields_of_unheld (hkept.line n l)
    rw [hlast, hlevel, hflag, hsettings, line_sampledState]
    exact ⟨afterSample_last _ _, afterSample_level _ _, afterSample_flag _ _, (afterSample_kept _ _).1⟩
  · have hsampled := sampledState_eq hlines
    have hline : ∀ m l, (sampledState pins s).line m l = (lines.get m).get l := fun m l => by
      rw [line_sampledState, hlines]
    have hset' : set_ = newlyIn pins s n := Per6.ext_get fun l => by
      rw [hset l, ← hline]
      exact (newlyIn_get pins s n l).symm
    rw [hexec pins s hrun, sampleAll_oneEvent (n := n), ← hset', hsampled]
    · rfl
    · intro m
      simp only [hline, notifies]
      constructor
      · rintro ⟨l, hl⟩
        simp only [Bool.and_eq_true, Bool.not_eq_true'] at hl
        obtain ⟨⟨hn, hf⟩, hclear⟩ := hl
        by_contra hm
        rw [hothers m l hm hn hf] at hclear
        exact absurd hclear (by decide)
      · rintro rfl
        obtain ⟨l, hl⟩ := hsome
        exact ⟨l, (hset l).symm.trans hl⟩
    · intro m
      rw [hsampled]
      exact hpower m
  · subst hp hc hq hv
    have hpublish := sampleAll_publishes hlines hquiet hpower hothers hchange
    rw [hexec pins s hrun, hpublish]
    refine ⟨fun hoff hv => ?_, fun hon hv => ?_⟩
    · rw [hoff] at haction hacted ⊢
      subst hwatched hacted
      exact congrArg Host.Outcome.next (publish_off haction hoff hv)
    · rw [hon] at haction hacted ⊢
      subst hwatched hacted
      exact congrArg Host.Outcome.next (publish_on haction hon hv)
end

