-- ==== Sys2Proof/Proofs/PowerRules.lean ====
section
/-!
SUPPORT. What the Power Sequencer's own operations do, each said once: the line a phase takes (R21, R22), the ends of
phases (R23 to R29), and the completion of a host's action (R30).
-/

namespace Sys2Proof.Machine

variable {n : Node} {s : State}

/-! ## Commands taken while the part runs -/

/-- Before loading ends, only part reset, its release and the end of loading change anything. -/
theorem exec_held {c : Instr} {t : State} (hp : s.phase ≠ .running) (hreset : ∀ b, c ≠ .partReset b)
    (hrelease : c ≠ .resetRelease) (hload : ∀ pins found, c ≠ .loadEnd pins found) (h : exec c s = .next t) :
    t = s := by
  obtain ⟨f, -, rfl⟩ := exec_runsKeeping s hreset hrelease hload t h
  exact whenRunning_held hp f

/-- log 4: the end of the timer of the state the action is in is taken, whatever time remains. -/
theorem whenRunning_timerEnds {a : Action} {st : ActionState} (hrun : s.phase = .running) (ha : s.action n = some a)
    (hst : a.state = st) (f : Action → State → State) : s.whenRunning (timerEnds n st f) = f a s := by
  rw [whenRunning_running hrun, timerEnds, ha]
  exact if_pos hst

/-! ## The lines of a node by their roles (R2, R21) -/

theorem role_of_lineOf {r : Role} {l : LineId} (h : lineOf s n r = some l) : (s.line n l).role = r := by
  simpa using List.find?_some h

/-- A line of a role is found exactly where the node has one. -/
theorem lineOf_isNone {r : Role} : (lineOf s n r).isNone = true ↔ ∀ l : LineId, (s.line n l).role ≠ r := by
  simp [lineOf, mem_allLines]

/-- Which line has a role is decided by the roles alone. -/
theorem lineOf_congr {t : State} {r : Role} (h : ∀ l, (t.line n l).role = (s.line n l).role) :
    lineOf t n r = lineOf s n r := by
  unfold lineOf
  simp only [h]

/-! ## A line taken and driven (R10, R22) -/

theorem Per4.modify_modify {α : Type} (x : Per4 α) (i : Node) (f g : α → α) :
    (x.modify i f).modify i g = x.modify i fun y => g (f y) :=
  Per4.ext_get fun j => by
    simp only [Per4.get_modify, if_true]
    split_ifs <;> rfl

theorem Per6.modify_modify {α : Type} (x : Per6 α) (i : LineId) (f g : α → α) :
    (x.modify i f).modify i g = x.modify i fun y => g (f y) :=
  Per6.ext_get fun j => by
    simp only [Per6.get_modify, if_true]
    split_ifs <;> rfl

/-- Two changes of one line are one change. -/
theorem modLine_modLine (l : LineId) (f g : Line → Line) (s : State) :
    (s.modLine n l f).modLine n l g = s.modLine n l fun x => g (f x) := by
  simp only [State.modLine, State.modLines, Per4.modify_modify, Per6.modify_modify]

/-- R22: a line owned by its node's action and driven ACTIVE. -/
def pressLine (n : Node) (l : LineId) (s : State) : State :=
  s.modLine n l fun x => { x with owner := .action n, driven := true }

theorem line_pressLine (m : Node) (l k : LineId) (s : State) :
    (pressLine n l s).line m k
      = if m = n ∧ k = l then { s.line n l with owner := .action n, driven := true } else s.line m k :=
  line_modLine n m l k _ s

/-- R10, R22: a phase that drives a line takes it where the node has it unowned. -/
theorem enterPhase_drives {a : Action} {st : ActionState} {r : Role} {l : LineId} (hr : drivenRole st = some r)
    (hl : lineOf s n r = some l) (ho : (s.line n l).owner = .none) :
    enterPhase n a st s = (pressLine n l s).setAction n
      (some { a with state := st, timer := phaseTimer a.timings st, held := some l }) := by
  have hrole : r = .powerButton ∨ r = .reset ∨ r = .diag := by
    cases st <;> cases hr <;> simp
  have hgranted : takeGranted n (.action n) (s.line n l) = true := by
    simpa [takeGranted, ho, role_of_lineOf hl, or_assoc] using hrole
  have htake : takeLine n l (.action n) s = some (s.modLine n l fun x => { x with owner := .action n }) :=
    takeLine_eq_some.mpr ⟨hgranted, rfl⟩
  unfold enterPhase
  simp only [hr, hl, htake, driveLine, modLine_modLine]
  rfl

/-- R22: a phase that drives no line sets the record alone. -/
theorem enterPhase_waits {a : Action} {st : ActionState} (hr : drivenRole st = none) :
    enterPhase n a st s
      = s.setAction n (some { a with state := st, timer := phaseTimer a.timings st, held := none }) := by
  unfold enterPhase
  simp only [hr]

theorem setAction_setAction (a b : Option Action) (s : State) :
    (s.setAction n a).setAction n b = s.setAction n b := by
  simp only [State.setAction, State.modPower, Per4.set_set]

/-- R22: the release of the line an action holds. -/
theorem releaseHeld_some {a : Action} {l : LineId} (h : a.held = some l) :
    releaseHeld n a s = (releaseLine n l s).setAction n (some { a with held := none }) := by
  unfold releaseHeld
  rw [h]

/-! ## The completion of a host's action (R30) -/

/-- The release of the line that an action holds, if it holds one. -/
def freeHeld (n : Node) (held : Option LineId) (s : State) : State :=
  { s with lines := match held with
    | some l => (releaseLine n l s).lines
    | none => s.lines }

theorem line_freeHeld (held : Option LineId) (m : Node) (l : LineId) (s : State) :
    (freeHeld n held s).line m l
      = if m = n ∧ held = some l then { s.line n l with owner := .none, driven := false } else s.line m l := by
  cases held with
  | some k => exact (line_releaseLine n m k l s).trans (by by_cases hk : l = k <;> simp [hk, eq_comm])
  | none => simp [freeHeld, State.line]

theorem role_freeHeld (held : Option LineId) (m : Node) (l : LineId) (s : State) :
    ((freeHeld n held s).line m l).role = (s.line m l).role := by
  rw [line_freeHeld]
  split_ifs with h
  · rw [h.1]
  · rfl

theorem powerState_freeHeld (held : Option LineId) (m : Node) (s : State) :
    (freeHeld n held s).powerState m = s.powerState m := by
  cases held <;> rfl

/-- R30, steps 1 and 2: the line is released and the record returns to IDLE. -/
theorem setAction_releaseHeld (a : Action) (b : Option Action) (s : State) :
    (releaseHeld n a s).setAction n b = { freeHeld n a.held s with
      power := { s.power with action := s.power.action.set n b } } := by
  unfold releaseHeld
  cases a.held with
  | some l => exact setAction_setAction _ _ _
  | none => rfl

/-- R30, steps 1 to 3: the state in which an action of a host has ended with a result. -/
def hostEnded (n : Node) (a : Action) (tag : Tag) (r : Result) (s : State) : State :=
  { freeHeld n a.held s with
    power := { s.power with action := s.power.action.set n none }
    link := s.link.addReply (replyTo tag 0x20#8 r (powerActionDetails s n a.requested a.escalated)) }

theorem powerActionDetails_congr {t : State} (h : t.powerState n = s.powerState n) (k : ActionKind) (e : Bool) :
    powerActionDetails t n k e = powerActionDetails s n k e := by
  unfold powerActionDetails
  rw [h]

/-- R20, R30: the originating host learns the result as it is reported. -/
theorem endAction_host {a : Action} {tag : Tag} (ho : a.originator = .host tag) (r : ActionResult) :
    endAction n a r s = hostEnded n a tag (actionResultCode (reportedResult a r)) s := by
  have hdetails : powerActionDetails ((releaseHeld n a s).setAction n none) n a.requested a.escalated
      = powerActionDetails s n a.requested a.escalated := by
    refine powerActionDetails_congr ?_ _ _
    rw [setAction_releaseHeld]
    exact powerState_freeHeld a.held n s
  unfold endAction
  simp only [ho, hdetails]
  rw [setAction_releaseHeld]
  rfl

/-- R34: with an empty slot step 5 of a completion does nothing. -/
theorem startPending_empty (h : s.power.slot.get n = none) : startPending n s = s := by
  unfold startPending
  rw [h]

/-- R30: a completion without arming and without a pending recovery. -/
theorem complete_quiet {a : Action} {r : ActionResult} (ha : s.action n = some a)
    (harms : completionArms a.kind r = false) (hslot : (endAction n a r s).power.slot.get n = none) :
    complete n r s = endAction n a r s := by
  unfold complete
  simp only [ha, harms, Bool.false_eq_true, if_false, startPending_empty hslot, ite_self]

/-- R30: a completion that arms the supervisor, without a pending recovery. -/
theorem complete_arming {a : Action} {r : ActionResult} (ha : s.action n = some a)
    (harms : completionArms a.kind r = true)
    (hslot : (armingCause n false (endAction n a r s)).power.slot.get n = none) :
    complete n r s = armingCause n false (endAction n a r s) := by
  unfold complete
  simp only [ha, harms, if_true, startPending_empty hslot, ite_self]

/-- R30: a completion that arms nothing, with what step 5 makes of it. -/
theorem complete_pending {a : Action} {r : ActionResult} (ha : s.action n = some a)
    (harms : completionArms a.kind r = false) :
    complete n r s = if requestAhead s n then endAction n a r s else startPending n (endAction n a r s) := by
  have hq : requestAhead (endAction n a r s) n = requestAhead s n :=
    requestAhead_congr (keepsBut_endAction n a r s).pending n
  unfold complete
  simp only [ha, harms, Bool.false_eq_true, if_false, hq]

/-- R22, R30: a completion that finds its line released already is the completion. -/
theorem complete_releaseHeld {a : Action} (ha : s.action n = some a) (r : ActionResult) :
    complete n r (releaseHeld n a s) = complete n r s := by
  rcases releaseHeld_cases n a s with ⟨l, hl, e⟩ | ⟨-, e⟩ <;> rw [e]
  have hact : ((releaseLine n l s).setAction n (some { a with held := none })).action n
      = some { a with held := none } := action_setAction _ _ _
  have hend : endAction n { a with held := none } r ((releaseLine n l s).setAction n (some { a with held := none }))
      = endAction n a r s := by
    simp only [endAction, releaseHeld, hl, setAction_setAction]
    rfl
  unfold complete
  simp only [hact, ha, hend]

/-! ## The ends of phases (R23 to R29) -/

theorem pressEnds_unconfirmed {a : Action} (ha : s.action n = some a) (hc : a.confirmed = false) :
    pressEnds n a s = complete n .doneUnconfirmed s := by
  unfold pressEnds
  simp only [hc, Bool.not_false, if_true, complete_releaseHeld ha]

/-- R24: a SOFT OFF whose press ends while the node is OFF is done. -/
theorem pressEnds_softOff_done {a : Action} (ha : s.action n = some a) (hc : a.confirmed = true)
    (hk : a.kind = .softOff) (hp : s.powerState n = .off) : pressEnds n a s = complete n .done s := by
  unfold pressEnds
  simp only [hc, hk, hp, Bool.not_true, Bool.false_eq_true, if_false, if_true, complete_releaseHeld ha]

/-- R23, R27: a POWER ON or CYCLE whose press ends while the node is ON is done. -/
theorem pressEnds_powerOn_done {a : Action} (ha : s.action n = some a) (hc : a.confirmed = true)
    (hk : a.kind ≠ .softOff) (hp : s.powerState n = .on) : pressEnds n a s = complete n .done s := by
  unfold pressEnds
  simp only [hc, hk, hp, Bool.not_true, Bool.false_eq_true, if_false, if_true, complete_releaseHeld ha]

/-- R22: a phase that drives no line follows one whose line is released. -/
theorem enterPhase_released {a : Action} {st : ActionState} {l : LineId} (hr : drivenRole st = none)
    (hh : a.held = some l) :
    enterPhase n { a with held := none } st (releaseHeld n a s) = (releaseLine n l s).setAction n
      (some { a with state := st, timer := phaseTimer a.timings st, held := none }) := by
  rw [enterPhase_waits hr, releaseHeld_some hh, setAction_setAction]

/-- R24: a SOFT OFF whose press ends waits for OFF. -/
theorem pressEnds_softOff_waits {a : Action} {l : LineId} (hc : a.confirmed = true) (hk : a.kind = .softOff)
    (hp : s.powerState n ≠ .off) (hh : a.held = some l) :
    pressEnds n a s = (releaseLine n l s).setAction n
      (some { a with state := .waitingOff, timer := a.timings.soft * 1000, held := none }) := by
  calc pressEnds n a s
      = enterPhase n { a with held := none } .waitingOff (releaseHeld n a s) := by
        unfold pressEnds
        simp only [hc, hk, hp, Bool.not_true, Bool.false_eq_true, if_false, if_true]
    _ = _ := enterPhase_released rfl hh

/-- R23, R27: a POWER ON or CYCLE whose press ends waits for ON. -/
theorem pressEnds_powerOn_waits {a : Action} {l : LineId} (hc : a.confirmed = true) (hk : a.kind ≠ .softOff)
    (hp : s.powerState n ≠ .on) (hh : a.held = some l) :
    pressEnds n a s = (releaseLine n l s).setAction n
      (some { a with state := .waitingOn, timer := a.timings.on * 1000, held := none }) := by
  calc pressEnds n a s
      = enterPhase n { a with held := none } .waitingOn (releaseHeld n a s) := by
        unfold pressEnds
        simp only [hc, hk, hp, Bool.not_true, Bool.false_eq_true, if_false]
    _ = _ := enterPhase_released rfl hh

theorem softEnds_timeout {a : Action} (he : a.escalate = false) : softEnds n a s = complete n .timeout s := by
  unfold softEnds
  simp only [he, Bool.false_eq_true, if_false]

/-- R25: a SOFT OFF that escalates holds POWER_BUTTON as a HARD OFF. -/
theorem softEnds_escalates {a : Action} {l : LineId} (he : a.escalate = true) (hl : lineOf s n .powerButton = some l)
    (ho : (s.line n l).owner = .none) (hp : s.powerState n ≠ .off) :
    softEnds n a s = (pressLine n l s).setAction n (some { a with
      kind := .hardOff, escalated := true, state := .holding, timer := a.timings.hold * 1000, held := some l }) := by
  unfold softEnds
  simp only [he, if_true, hl, hp, if_false]
  exact enterPhase_drives rfl hl ho

theorem holdEnds_timeout {a : Action} (ha : s.action n = some a) (hc : a.confirmed = true) :
    holdEnds n a s = complete n .timeout s := by
  unfold holdEnds
  simp only [hc, if_true, complete_releaseHeld ha]

theorem holdEnds_unconfirmed {a : Action} (ha : s.action n = some a) (hc : a.confirmed = false)
    (hk : a.kind ≠ .cycle) : holdEnds n a s = complete n .doneUnconfirmed s := by
  unfold holdEnds
  simp only [hc, hk, Bool.false_eq_true, if_false, complete_releaseHeld ha]

/-- R27: an unconfirmed CYCLE rests after its hold. -/
theorem holdEnds_rests {a : Action} {l : LineId} (hc : a.confirmed = false) (hk : a.kind = .cycle)
    (hh : a.held = some l) :
    holdEnds n a s = (releaseLine n l s).setAction n
      (some { a with state := .resting, timer := a.timings.rest * 1000, held := none }) := by
  calc holdEnds n a s
      = enterPhase n { a with held := none } .resting (releaseHeld n a s) := by
        unfold holdEnds
        simp only [hc, hk, Bool.false_eq_true, if_false, if_true]
    _ = _ := enterPhase_released rfl hh

theorem restEnds_done {a : Action} (hc : a.confirmed = true) (hp : s.powerState n = .on) :
    restEnds n a s = complete n .done s := by
  unfold restEnds
  exact if_pos ⟨hc, hp⟩

/-- R27: a CYCLE presses POWER_BUTTON after its rest. -/
theorem restEnds_presses {a : Action} {l : LineId} (hc : a.confirmed = false ∨ s.powerState n ≠ .on)
    (hl : lineOf s n .powerButton = some l) (ho : (s.line n l).owner = .none) :
    restEnds n a s = (pressLine n l s).setAction n
      (some { a with state := .pressing, timer := a.timings.press, held := some l }) := by
  have hgo : ¬ (a.confirmed = true ∧ s.powerState n = .on) := by
    rintro ⟨h, h'⟩
    simp [h, h'] at hc
  unfold restEnds retake
  simp only [hgo, if_false, hl]
  exact enterPhase_drives rfl hl ho

end Sys2Proof.Machine
end

