-- ==== Sys2Proof/Proofs/PowerRequests.lean ====
section
/-!
The requests of the Power Sequencer as they are taken in a ready state: POWER TIMINGS (O16), POWER ACTION with its
checks, its starts and its preemptions (O17, O18, O19), and POWER WATCH (O22).
-/

namespace Sys2Proof.Machine

variable {n : Node} {s : State}

/-! ## POWER TIMINGS (R19) -/

/-- A value is taken at the nearest end of its range. -/
theorem clamp_eq {lo hi : Nat} (h : lo ≤ hi) (x : Nat) : clamp lo hi x = max lo (min hi x) := by
  unfold clamp
  split_ifs <;> omega

/-- R19: a timing of 0 is kept, any other is clamped. -/
theorem clampOrKeep_eq {lo hi : Nat} (h : lo ≤ hi) (present x : Nat) :
    clampOrKeep lo hi present x = if x = 0 then present else max lo (min hi x) := by
  unfold clampOrKeep
  rw [clamp_eq h]

/-! ## The checks of POWER ACTION (R21, R31) -/

theorem actionKind?_of_toNat {b : Byte} {k : ActionKind} (h : b.toNat = actionKindCode k) : actionKind? b = some k := by
  unfold actionKind?
  rw [h]
  cases k <;> rfl

section Checks

variable {k : ActionKind}

theorem decideAction_noLine (h : ∀ l : LineId, (s.line n l).role ≠ firstRole k) :
    decideAction s n k = .answer .noLine := by
  unfold decideAction
  rw [if_pos (lineOf_isNone.mpr h)]

/-- The first check is passed where the node has the line. -/
theorem lineOf_isNone_of_role (h : ∃ l : LineId, (s.line n l).role = firstRole k) :
    ¬ (lineOf s n (firstRole k)).isNone = true := fun hnone =>
  h.elim fun l hl => lineOf_isNone.mp hnone l hl

theorem needsPower_iff : needsPower k = true ↔ k = .reset ∨ k = .diag := by
  cases k <;> simp [needsPower]

theorem preempts_iff : preempts k = true ↔ k = .hardOff ∨ k = .cycle := by
  cases k <;> simp [preempts]

theorem preemptable_iff : preemptable k = true ↔ k = .powerOn ∨ k = .softOff ∨ k = .reset ∨ k = .diag := by
  cases k <;> simp [preemptable]

theorem alreadySo_iff (p : PowerState) :
    alreadySo k p = true ↔ k = .powerOn ∧ p = .on ∨ (k = .softOff ∨ k = .hardOff) ∧ p = .off := by
  cases k <;> cases p <;> simp [alreadySo]

theorem decideAction_nodeOff (hl : ∃ l : LineId, (s.line n l).role = firstRole k) (hk : k = .reset ∨ k = .diag)
    (hp : s.powerState n = .off) : decideAction s n k = .answer .nodeOff := by
  unfold decideAction
  rw [if_neg (lineOf_isNone_of_role hl), if_pos ⟨needsPower_iff.mpr hk, hp⟩]

theorem decideAction_already (hl : ∃ l : LineId, (s.line n l).role = firstRole k)
    (h : k = .powerOn ∧ s.powerState n = .on ∨ (k = .softOff ∨ k = .hardOff) ∧ s.powerState n = .off) :
    decideAction s n k = .answer .already := by
  have hneeds : ¬ (needsPower k = true ∧ s.powerState n = .off) := by
    rw [needsPower_iff]
    rcases h with ⟨rfl, -⟩ | ⟨rfl | rfl, -⟩ <;> simp
  unfold decideAction
  rw [if_neg (lineOf_isNone_of_role hl), if_neg hneeds, if_pos ((alreadySo_iff _).mpr h)]

/-- R21: the checks that come before the look at the action record. -/
structure ChecksPassed (s : State) (n : Node) (k : ActionKind) : Prop where
  line : ∃ l : LineId, (s.line n l).role = firstRole k
  powered : (k = .reset ∨ k = .diag) → s.powerState n ≠ .off
  notOn : k = .powerOn → s.powerState n ≠ .on
  notOff : (k = .softOff ∨ k = .hardOff) → s.powerState n ≠ .off

theorem ChecksPassed.not_nodeOff (h : ChecksPassed s n k) : ¬ (needsPower k = true ∧ s.powerState n = .off) :=
  fun e => h.powered (needsPower_iff.mp e.1) e.2

theorem ChecksPassed.not_already (h : ChecksPassed s n k) : ¬ alreadySo k (s.powerState n) = true := fun e => by
  rcases (alreadySo_iff _).mp e with ⟨hk, hp⟩ | ⟨hk, hp⟩
  · exact h.notOn hk hp
  · exact h.notOff hk hp

theorem decideAction_start (h : ChecksPassed s n k) (ha : s.action n = none) : decideAction s n k = .start := by
  unfold decideAction
  rw [if_neg (lineOf_isNone_of_role h.line), if_neg h.not_nodeOff, if_neg h.not_already, ha]

/-- R31: past the checks of R21 the kind of the running action decides. -/
theorem decideAction_running {a : Action} (h : ChecksPassed s n k) (ha : s.action n = some a) :
    decideAction s n k = if preemptable a.kind ∧ preempts k then .preempt else .answer .busy := by
  unfold decideAction
  rw [if_neg (lineOf_isNone_of_role h.line), if_neg h.not_nodeOff, if_neg h.not_already, ha]

theorem decideAction_busy {a : Action} (h : ChecksPassed s n k) (ha : s.action n = some a)
    (hb : a.kind = .hardOff ∨ a.kind = .cycle ∨ (k ≠ .hardOff ∧ k ≠ .cycle)) :
    decideAction s n k = .answer .busy := by
  rw [decideAction_running h ha]
  refine if_neg ?_
  rw [preemptable_iff, preempts_iff]
  rintro ⟨hk, hk'⟩
  rcases hb with hb | hb | hb
  · simp [hb] at hk
  · simp [hb] at hk
  · exact hk'.elim hb.1 hb.2

theorem decideAction_preempt {a : Action} (h : ChecksPassed s n k) (ha : s.action n = some a)
    (hr : a.kind = .powerOn ∨ a.kind = .softOff ∨ a.kind = .reset ∨ a.kind = .diag)
    (hk : k = .hardOff ∨ k = .cycle) : decideAction s n k = .preempt := by
  rw [decideAction_running h ha]
  exact if_pos ⟨preemptable_iff.mpr hr, preempts_iff.mpr hk⟩

end Checks

/-! ## A POWER ACTION in a ready state (R21, R30, R177) -/

/-- R21, R32: what a POWER ACTION does by its decision. -/
def decidedAction (n : Node) (k : ActionKind) (tag : Tag) (escalate : Bool) (s : State) : ActionDecision → State
  | .answer r => s.reply tag 0x20#8 r (powerActionDetails s n k false)
  | .start => acceptAction n k tag escalate s
  | .preempt => acceptAction n k tag escalate (preemptRunning n s)

section Ready

variable {k : ActionKind} {tag : Tag} {b kb options : Byte}

/-- A POWER ACTION in a ready state is served by its decision; behind it step 5 is made up for. -/
theorem exec_powerAction (hs : RequestReady s) (hb : b.toNat = n.val) (hk : kb.toNat = actionKindCode k)
    (ahead : Bool) :
    exec (.powerAction tag ⟨[b, kb, options], ahead⟩) s = .next (startBehind ahead [b, kb, options]
      (decidedAction n k tag (options.getLsbD 0) (hunt s) (decideAction s n k))) := by
  have hserve : servePowerAction tag [b, kb, options] (hunt s)
      = decidedAction n k tag (options.getLsbD 0) (hunt s) (decideAction s n k) := by
    have hsame : decideAction (hunt s) n k = decideAction s n k := rfl
    simp only [servePowerAction, node?_of_toNat hb, actionKind?_of_toNat hk, hsame]
    cases decideAction s n k <;> rfl
  rw [← hserve]
  exact execPowerAction_ready hs tag ahead (body := [b, kb, options]) (by rfl)

theorem actionNode?_of_toNat (hb : b.toNat = n.val) : actionNode? [b, kb, options] = some n := node?_of_toNat hb

/-- R30: behind a POWER ACTION after which an action runs on its node nothing follows. -/
theorem startBehind_running (hb : b.toNat = n.val) (ahead : Bool) (h : (s.action n).isSome) :
    startBehind ahead [b, kb, options] s = s :=
  startBehind_nothing fun _ m hm ha => by
    obtain rfl : n = m := Option.some.inj ((actionNode?_of_toNat hb).symm.trans hm)
    rw [ha] at h
    exact absurd h (by simp)

/-- R30, log 40: behind a POWER ACTION taken before step 5, after which none runs, step 5 follows. -/
theorem startBehind_idle (hb : b.toNat = n.val) (h : s.action n = none) :
    startBehind true [b, kb, options] s = startPending n s := by
  unfold startBehind
  simp only [actionNode?_of_toNat hb, h, Option.isNone_none, if_true]

/-- R21: a POWER ACTION answered at once, with no recovery to start behind it. -/
theorem exec_powerAction_answered {r : Result} (hs : RequestReady s) (hb : b.toNat = n.val)
    (hk : kb.toNat = actionKindCode k) {ahead : Bool}
    (hahead : ahead = true → s.action n = none → s.power.slot.get n = none) (hd : decideAction s n k = .answer r) :
    exec (.powerAction tag ⟨[b, kb, options], ahead⟩) s
      = .next (answered s (replyTo tag 0x20#8 r (powerActionDetails s n k false))) := by
  rw [exec_powerAction hs hb hk, hd]
  refine congrArg _ ((congrArg _ (reply_hunt hs tag 0x20#8 r _)).trans (startBehind_nothing fun h m hm ha => ?_))
  obtain rfl : n = m := Option.some.inj ((actionNode?_of_toNat hb).symm.trans hm)
  exact hahead h ha

theorem action_acceptAction (n : Node) (k : ActionKind) (tag : Tag) (escalate : Bool) (s : State) :
    ((acceptAction n k tag escalate s).action n).isSome := by
  have hstarted := action_startAction n k (.host tag) (escalate && k == .softOff)
    (if k = .diag then s else cancelPending n k s)
  unfold acceptAction
  dsimp only
  by_cases h : k = .softOff ∨ k = .hardOff
  · rw [if_pos h]
    rcases releaseBootSelect_cases n _ with ⟨l, -, e⟩ | ⟨-, e⟩ <;> rw [e] <;> exact hstarted
  · rwa [if_neg h]

/-- R21: a POWER ACTION that starts. -/
theorem exec_powerAction_starts (hs : RequestReady s) (hb : b.toNat = n.val) (hk : kb.toNat = actionKindCode k)
    (ahead : Bool) (hd : decideAction s n k = .start) :
    exec (.powerAction tag ⟨[b, kb, options], ahead⟩) s
      = .next (acceptAction n k tag (options.getLsbD 0) (hunt s)) := by
  rw [exec_powerAction hs hb hk, hd]
  exact congrArg _ (startBehind_running hb ahead (action_acceptAction _ _ _ _ _))

/-- R32: a POWER ACTION that preempts. -/
theorem exec_powerAction_preempts (hs : RequestReady s) (hb : b.toNat = n.val) (hk : kb.toNat = actionKindCode k)
    (ahead : Bool) (hd : decideAction s n k = .preempt) :
    exec (.powerAction tag ⟨[b, kb, options], ahead⟩) s
      = .next (acceptAction n k tag (options.getLsbD 0) (preemptRunning n (hunt s))) := by
  rw [exec_powerAction hs hb hk, hd]
  exact congrArg _ (startBehind_running hb ahead (action_acceptAction _ _ _ _ _))

end Ready

/-! ## An action starts (R21, R26 to R29, R33) -/

/-- R18, R21: the record of an action in its first phase. -/
def begunAction (s : State) (n : Node) (k : ActionKind) (o : Originator) (escalate : Bool) (held : Option LineId) :
    Action :=
  { newAction s n k o escalate with
    state := firstPhase s n k, timer := phaseTimer (s.power.timings.get n) (firstPhase s n k), held := held }

/-- R18: a first phase drives the line its kind needs, unless it is the rest of a CYCLE. -/
theorem drivenRole_firstPhase {k : ActionKind} (h : firstPhase s n k ≠ .resting) :
    drivenRole (firstPhase s n k) = some (firstRole k) := by
  cases k
  case cycle =>
    unfold firstPhase at h ⊢
    split_ifs at h ⊢ with hp
    · exact absurd rfl h
    · rfl
  all_goals rfl

/-- R21, R28: an action starts on its unowned line. -/
theorem startAction_drives {k : ActionKind} {l : LineId} (o : Originator) (escalate : Bool)
    (hst : firstPhase s n k ≠ .resting) (hl : lineOf s n (firstRole k) = some l) (ho : (s.line n l).owner = .none) :
    startAction n k o escalate s = if k = .reset then
        ((pressLine n l s).setAction n (some (begunAction s n k o escalate (some l)))).mark n .resetPulse
      else (pressLine n l s).setAction n (some (begunAction s n k o escalate (some l))) := by
  have henter := enterPhase_drives (a := newAction s n k o escalate) (drivenRole_firstPhase hst) hl ho
  unfold startAction
  rw [henter]
  rfl

/-- R27: a CYCLE of a node that is OFF starts with its rest. -/
theorem startAction_rests {k : ActionKind} (o : Originator) (escalate : Bool) (hst : firstPhase s n k = .resting) :
    startAction n k o escalate s = s.setAction n (some (begunAction s n k o escalate none)) := by
  have hk : k ≠ .reset := by
    rintro rfl
    cases hst
  have henter := enterPhase_waits (n := n) (s := s) (a := newAction s n k o escalate)
    (show drivenRole (firstPhase s n k) = none by rw [hst]; rfl)
  unfold startAction
  rw [henter]
  exact if_neg hk

/-- R20, R26, R27: the record of a hard kind that starts on a node that is ON: it holds POWER_BUTTON. -/
def holdingAction (s : State) (n : Node) (k : ActionKind) (o : Originator) (l : LineId) : Action :=
  { kind := k, originator := o, state := .holding, confirmed := true, lostConfirmation := false, escalate := false,
    escalated := false, timer := (s.power.timings.get n).hold * 1000, timings := s.power.timings.get n, held := some l }

/-- R26, R27: a hard kind starts on a node that is ON. -/
theorem startAction_holds {k : ActionKind} {l : LineId} (o : Originator) (hk : k = .hardOff ∨ k = .cycle)
    (hp : s.powerState n = .on) (hl : lineOf s n .powerButton = some l) (ho : (s.line n l).owner = .none) :
    startAction n k o false s = (pressLine n l s).setAction n (some (holdingAction s n k o l)) := by
  have hrole : firstRole k = .powerButton := by rcases hk with rfl | rfl <;> rfl
  have hholding : firstPhase s n k = .holding := by rcases hk with rfl | rfl <;> simp [firstPhase, hp]
  have hreset : k ≠ .reset := by rcases hk with rfl | rfl <;> simp
  have hbegun : begunAction s n k o false (some l) = holdingAction s n k o l := by
    simp only [begunAction, newAction, confirmedNow, hp, hholding, phaseTimer]
    rfl
  rw [startAction_drives o false (by simp [hholding]) (by rwa [hrole]) ho, if_neg hreset, hbegun]

theorem cancelPending_empty {k : ActionKind} (h : s.power.slot.get n = none) : cancelPending n k s = s := by
  unfold cancelPending
  rw [h]

/-- R167: without a pending recovery an accepted action starts; a SOFT OFF or HARD OFF releases BOOT_SELECT. -/
theorem acceptAction_empty {k : ActionKind} {tag : Tag} {escalate : Bool} (h : s.power.slot.get n = none) :
    acceptAction n k tag escalate s = if k = .softOff ∨ k = .hardOff then
        releaseBootSelect n (startAction n k (.host tag) (escalate && k == .softOff) s)
      else startAction n k (.host tag) (escalate && k == .softOff) s := by
  unfold acceptAction
  simp only [cancelPending_empty h, ite_self]

/-- R167: the state in which a pending recovery has been cancelled by an accepted host action. -/
def recoveryCancelled (n : Node) (k : ActionKind) (rk : RecoveryKind) (s : State) : State :=
  { s with
    power := { s.power with slot := s.power.slot.set n none }
    boot := { s.boot with
      supervisor := s.boot.supervisor.set n { s.supervisor n with state := .idle, deadline := none } }
    link := s.link.addNotice (.recovery n (.cancelled k) (some rk) (s.supervisor n).attempts
      (s.supervisor n).lastFailure (s.supervisor n).fallback) }

theorem cancelPending_some {k : ActionKind} {rk : RecoveryKind} (hslot : s.power.slot.get n = some rk)
    (hv : (s.supervisor n).state = .recovering false) : cancelPending n k s = recoveryCancelled n k rk s := by
  have hv' : ((s.setSlot n none).supervisor n).state = .recovering false := hv
  have hnew : (supTo n .idle (s.setSlot n none)).supervisor n
      = { s.supervisor n with state := .idle, deadline := none } := Per4.get_modify_same _ _ _
  unfold cancelPending
  simp only [hslot, hv', if_true, recoveryNotice, hnew]
  rfl

/-! ## What a preempting action leaves as it is (R32, R169) -/

/-- R169: the release of BOOT_SELECT leaves the lines that the supervisor does not own, and all but lines and
supervisors. -/
structure BootSelectLeft (n : Node) (s t : State) : Prop where
  line : ∀ (m : Node) (l : LineId), (m = n → (s.line m l).owner ≠ .supervisor) → t.line m l = s.line m l
  rest : ∃ lines boot, t = { s with lines := lines, boot := boot }

theorem bootSelectLeft_releaseBootSelect (n : Node) (s : State) : BootSelectLeft n s (releaseBootSelect n s) := by
  rcases releaseBootSelect_cases n s with ⟨k, hk, e⟩ | ⟨-, e⟩ <;> rw [e]
  · refine ⟨fun m l h => ?_, _, _, rfl⟩
    refine (line_releaseLine n m k l s).trans (if_neg ?_)
    rintro ⟨rfl, rfl⟩
    exact h rfl hk
  · exact ⟨fun _ _ _ => rfl, _, _, rfl⟩

theorem preemptRunning_host {a : Action} {old : Tag} (ha : s.action n = some a) (ho : a.originator = .host old) :
    preemptRunning n s = hostEnded n a old .preempted s := by
  unfold preemptRunning
  rw [ha]
  refine (endAction_host ho .preempted).trans ?_
  simp [reportedResult, actionResultCode]

/-- R31, R32: the state in which a hard kind has taken the place of a host's action, BOOT_SELECT aside. -/
def preempted (n : Node) (k : ActionKind) (l : LineId) (tag old : Tag) (a : Action) (s : State) : State :=
  (pressLine n l (hostEnded n a old .preempted s)).setAction n (some (holdingAction s n k (.host tag) l))

/-- R32: the lines of that state. -/
theorem line_preempted {k : ActionKind} {l : LineId} {tag old : Tag} {a : Action} (m : Node) (j : LineId) :
    (preempted n k l tag old a s).line m j = if m = n ∧ j = l then
        { (freeHeld n a.held s).line n l with owner := .action n, driven := true }
      else if m = n ∧ a.held = some j then { s.line n j with owner := .none, driven := false } else s.line m j := by
  rw [← line_freeHeld]
  exact line_pressLine (s := hostEnded n a old .preempted s) m l j

/-- R31, R32: a hard kind preempts a host's action on a node that is ON. -/
theorem acceptAction_preempting {k : ActionKind} {l : LineId} {tag old : Tag} {escalate : Bool} {a : Action}
    (hkind : k = .hardOff ∨ k = .cycle) (hl : lineOf s n .powerButton = some l) (hp : s.powerState n = .on)
    (ha : s.action n = some a) (ho : a.originator = .host old) (hslot : s.power.slot.get n = none)
    (hfree : (s.line n l).owner = .none ∨ a.held = some l) :
    ∃ t, acceptAction n k tag escalate (preemptRunning n s) = t
      ∧ BootSelectLeft n (preempted n k l tag old a s) t := by
  have hlineOf : lineOf (hostEnded n a old .preempted s) n .powerButton = some l := by
    rw [← hl]
    exact lineOf_congr fun j => role_freeHeld a.held n j s
  have howner : ((hostEnded n a old .preempted s).line n l).owner = .none := by
    show ((freeHeld n a.held s).line n l).owner = .none
    rw [line_freeHeld]
    split_ifs with h
    · rfl
    · exact hfree.resolve_right fun e => h ⟨rfl, e⟩
  have hon : (hostEnded n a old .preempted s).powerState n = .on := (powerState_freeHeld a.held n s).trans hp
  have hsoft : (escalate && k == .softOff) = false := by rcases hkind with rfl | rfl <;> simp
  have hstart : startAction n k (.host tag) (escalate && k == .softOff) (hostEnded n a old .preempted s)
      = preempted n k l tag old a s := by
    rw [hsoft, startAction_holds (.host tag) hkind hon hlineOf howner]
    rfl
  rw [preemptRunning_host ha ho, acceptAction_empty (s := hostEnded n a old .preempted s) hslot, hstart]
  refine ⟨_, rfl, ?_⟩
  split_ifs
  · exact bootSelectLeft_releaseBootSelect _ _
  · exact ⟨fun _ _ _ => rfl, _, _, rfl⟩

/-! ## POWER WATCH (R35 to R37) -/

theorem endWatch_none (h : s.power.watch = none) (r : Result) : endWatch r s = s := by
  unfold endWatch
  rw [h]

/-- R36, log 23: a watch ends with a reply of the four states and the timeout. -/
theorem endWatch_some {w : Watch} (h : s.power.watch = some w) (r : Result) : endWatch r s = { s with
    power := { s.power with watch := none }
    link := s.link.addReply (replyTo w.tag 0x22#8 r
      ((s.lines.power.toList.map fun p => BitVec.ofNat 8 (powerCode p)) ++ be16 w.timeout)) } := by
  unfold endWatch
  rw [h]
  rfl

/-- After the end of a watch there is none; the link alone may have changed besides. -/
theorem endWatch_frame (r : Result) (s : State) :
    endWatch r s = { s with power := { s.power with watch := none }, link := (endWatch r s).link } := by
  cases h : s.power.watch with
  | none =>
    rw [endWatch_none h, ← h]
  | some w => rw [endWatch_some h]

/-- R35: an expected state accepts ANY and itself. -/
theorem Expected.accepts_iff (e : Expected) (p : PowerState) : e.accepts p = true
    ↔ e = .any ∨ (e = .on ∧ p = .on) ∨ (e = .off ∧ p = .off) ∨ (e = .unknown ∧ p = .unknown) := by
  cases e <;> cases p <;> simp [Expected.accepts]

/-- R35: a watch whose expected states all stand is recorded and runs. -/
theorem startWatch_runs {tag : Tag} {e : Per4 Expected} {timeout : Nat} (h : watchAgrees s e = true) :
    startWatch tag e timeout s = { s with
      power := { s.power with
        watch := some { tag := tag, expected := e, timeout := timeout, remaining := timeout * 1000 } }
      link := (endWatch .superseded s).link } := by
  have hagrees : watchAgrees (endWatch .superseded s) e = true := by
    rw [endWatch_frame]
    exact h
  unfold startWatch
  simp only [hagrees, if_true]
  rw [endWatch_frame]
  rfl

/-- R35: one that finds another state is answered CHANGED at once. -/
theorem startWatch_changed {tag : Tag} {e : Per4 Expected} {timeout : Nat} (h : ¬ watchAgrees s e = true) :
    startWatch tag e timeout s = { s with
      power := { s.power with watch := none }
      link := (endWatch .superseded s).link.addReply (replyTo tag 0x22#8 .changed
        ((s.lines.power.toList.map fun p => BitVec.ofNat 8 (powerCode p)) ++ be16 timeout)) } := by
  have hdiffers : ¬ watchAgrees (endWatch .superseded s) e = true := by
    rw [endWatch_frame]
    exact h
  unfold startWatch
  dsimp only
  rw [if_neg hdiffers, endWatch_frame]
  rfl

end Sys2Proof.Machine

open Sys2Proof Sys2Proof.Machine

/-- Settles O16: the request replaces the timings of its node, and its reply reads them back. -/
theorem powerTimingsClampedAndKept : Obligations.PowerTimingsClampedAndKept := by
  intro n tag b a0 a1 b0 b1 c0 c1 d0 d1 e0 e1 f0 f1 g0 g1 x s hs hb hx
  have htimings : timings? (s.power.timings.get n) [a0, a1, b0, b1, c0, c1, d0, d1, e0, e1, f0, f1, g0, g1]
      = some x := by
    rw [hx]
    simp [timings?, timingsFrom, clampOrKeep_eq]
  have hready : RequestReady { s with power := { s.power with timings := s.power.timings.set n x } } := hs
  have hserve : servePowerTimings tag [b, a0, a1, b0, b1, c0, c1, d0, d1, e0, e1, f0, f1, g0, g1] (hunt s)
      = State.reply tag 0x21#8 .done (timingsBytes x ++ optional 4 ((s.action n).map actionReport)
        ++ optional 1 ((s.power.slot.get n).map fun k => be8 (recoveryCode k)))
          (hunt { s with power := { s.power with timings := s.power.timings.set n x } }) := by
    have htimings' : timings? ((hunt s).power.timings.get n) [a0, a1, b0, b1, c0, c1, d0, d1, e0, e1, f0, f1, g0, g1]
      = some x := htimings
    simp only [servePowerTimings, node?_of_toNat hb, htimings', powerTimingsDetails, State.modPower, Per4.get_set_same]
    rfl
  have hexec := requestFrame_ready (body := [b, a0, a1, b0, b1, c0, c1, d0, d1, e0, e1, f0, f1, g0, g1]) hs 0x21#8 tag
    (by rfl)
  exact hexec.trans (congrArg _ (hserve.trans (reply_hunt hready tag 0x21#8 .done _)))

/-- Settles O17: each check answers before the next is looked at. -/
theorem powerActionChecksInOrder : Obligations.PowerActionChecksInOrder := by
  intro n k tag b kb options ahead s hs hb hk hahead
  refine ⟨fun hl => ?_, fun hl hneeds hp => ?_, fun hl halready => ?_, fun a hl hpowered hon hoff ha hbusy => ?_⟩
  · exact exec_powerAction_answered hs hb hk hahead (decideAction_noLine hl)
  · exact exec_powerAction_answered hs hb hk hahead (decideAction_nodeOff hl hneeds hp)
  · exact exec_powerAction_answered hs hb hk hahead (decideAction_already hl halready)
  · exact exec_powerAction_answered hs hb hk hahead (decideAction_busy ⟨hl, hpowered, hon, hoff⟩ ha hbusy)

/-- Settles O18: a start is `acceptAction` of a ready state, with its line taken, resting, or ahead of a recovery. -/
theorem powerActionStartsItsFirstPhase : Obligations.PowerActionStartsItsFirstPhase := by
  refine ⟨?_, ?_⟩
  · intro n k l st tag b kb options ahead a started marked s hs hb hk hl ho ha hslot hpowered hon hoff hst hrec
      hstarted hmarked
    have hfirst : st = firstPhase s n k := by
      rw [hst]
      cases k <;> rfl
    have hpassed : ChecksPassed s n k := ⟨⟨l, role_of_lineOf hl⟩, hpowered, hon, hoff⟩
    rw [exec_powerAction_starts hs hb hk ahead (decideAction_start hpassed ha), acceptAction_empty (s := hunt s) hslot]
    have hstart : startAction n k (.host tag) (options.getLsbD 0 && k == .softOff) (hunt s) = marked := by
      by_cases hrest : firstPhase s n k = .resting
      · have hreset : k ≠ .reset := by
          rintro rfl
          cases hrest
        rw [hmarked, if_neg hreset, hstarted, hrec, hfirst, if_pos hrest, if_pos hrest,
          startAction_rests (s := hunt s) _ _ hrest]
        rfl
      · rw [hmarked, hstarted, hrec, hfirst, if_neg hrest, if_neg hrest,
          startAction_drives (s := hunt s) _ _ hrest hl ho]
        rfl
    rw [hstart]
  · intro n k st l rk tag b kb options v started s hs hb hk hl ho ha hslot hp hv hrec hstarted
    subst hv
    refine ⟨fun hkind hst => ?_, fun hkind hst => ?_⟩
    · subst hkind hst
      have hpassed : ChecksPassed s n .diag := ⟨⟨l, role_of_lineOf hl⟩, fun _ => hp, by simp, by simp⟩
      rw [exec_powerAction_starts hs hb hk true (decideAction_start hpassed ha), hstarted]
      have haccept : acceptAction n .diag tag (options.getLsbD 0) (hunt s)
          = startAction n .diag (.host tag) (options.getLsbD 0 && false) (hunt s) := rfl
      rw [haccept, Bool.and_false, startAction_drives (s := hunt s) _ _ (by simp [firstPhase]) hl ho]
      rfl
    · subst hkind hst
      have hpassed : ChecksPassed s n .reset := ⟨⟨l, role_of_lineOf hl⟩, fun _ => hp, by simp, by simp⟩
      have hcancel := cancelPending_some (s := hunt s) (k := .reset) hslot hrec
      have haccept : acceptAction n .reset tag (options.getLsbD 0) (hunt s)
          = startAction n .reset (.host tag) (options.getLsbD 0 && false) (cancelPending n .reset (hunt s)) := rfl
      rw [exec_powerAction_starts hs hb hk true (decideAction_start hpassed ha), hstarted, haccept, hcancel,
        Bool.and_false,
        startAction_drives (s := recoveryCancelled n .reset rk (hunt s)) _ _ (by simp [firstPhase]) hl ho]
      rfl

/-- Settles O19: the running action ends as a host's action does, and the new one starts on the line it left. -/
theorem hardKindsPreemptHostActions : Obligations.HardKindsPreemptHostActions := by
  intro n k l tag old b kb options ahead a s hs hb hk hkind hl hp ha hrun ho hslot hfree
  have hpassed : ChecksPassed s n k := by
    refine ⟨⟨l, ?_⟩, ?_, ?_, ?_⟩
    · rw [role_of_lineOf hl]
      rcases hkind with rfl | rfl <;> rfl
    all_goals rcases hkind with rfl | rfl <;> simp [hp]
  have hexec := exec_powerAction_preempts (tag := tag) (options := options) hs hb hk ahead
    (decideAction_preempt hpassed ha hrun hkind)
  obtain ⟨t, ht, hleft⟩ := acceptAction_preempting (tag := tag) (old := old) (escalate := options.getLsbD 0)
    (s := hunt s) hkind hl hp ha ho hslot hfree
  have hline : ∀ m j, (preempted n k l tag old a (hunt s)).line m j = _ := line_preempted
  have hpressed : t.line n l = { (freeHeld n a.held (hunt s)).line n l with owner := .action n, driven := true } :=
    (hleft.line n l (by rw [hline, if_pos ⟨rfl, rfl⟩]; simp)).trans ((hline n l).trans (if_pos ⟨rfl, rfl⟩))
  have hreleased : ∀ m, a.held = some m → m ≠ l → t.line n m = { s.line n m with owner := .none, driven := false } :=
    fun m hm hne => by
      have hm' := (hline n m).trans ((if_neg fun e => hne e.2).trans (if_pos ⟨rfl, hm⟩))
      exact (hleft.line n m (by rw [hm']; simp)).trans hm'
  have hother : ∀ m j, m ≠ n → t.line m j = s.line m j := fun m j hne =>
    (hleft.line m j fun e => absurd e hne).trans
      ((hline m j).trans ((if_neg fun e => hne e.1).trans (if_neg fun e => hne e.1)))
  obtain ⟨-, -, hwaiting, hroom⟩ := hs
  obtain ⟨lines, boot, rfl⟩ := hleft.rest
  refine ⟨_, hexec.trans (congrArg _ ht), Link.addReply_free _ _ hroom hwaiting, action_setAction _ _ _,
    by rw [hpressed], by rw [hpressed], fun m hm hne => by rw [hreleased m hm hne]; exact ⟨rfl, rfl⟩,
    fun m hne => ⟨?_, Per6.ext_get fun j => hother m j hne⟩, rfl, rfl, rfl, rfl, rfl, rfl, rfl, rfl, rfl⟩
  exact (Per4.get_set_other _ hne _).trans (Per4.get_set_other _ hne _)

/-- Settles O22: a POWER WATCH is `startWatch`, whose first act ends the running watch; a timeout ends it likewise. -/
theorem powerWatchRunsAnswersOrTimesOut : Obligations.PowerWatchRunsAnswersOrTimesOut := by
  refine ⟨fun e tag e0 e1 e2 e3 t0 t1 timeout link s hs h0 h1 h2 h3 htimeout hlink => ?_, fun w s hrun hw => ?_⟩
  · have hexec : exec (.powerWatch tag [e0, e1, e2, e3, t0, t1]) s = .next (startWatch tag e timeout (hunt s)) := by
      have hserve : servePowerWatch tag [e0, e1, e2, e3, t0, t1] (hunt s) = startWatch tag e timeout (hunt s) := by
        simp only [servePowerWatch, h0, h1, h2, h3, htimeout, clamp_eq (show 1 ≤ 3600 by omega)]
      exact (requestFrame_ready (body := [e0, e1, e2, e3, t0, t1]) hs 0x22#8 tag (by rfl)).trans (congrArg _ hserve)
    have hended : (endWatch .superseded (hunt s)).link = link := by
      rw [hlink]
      cases hw : s.power.watch with
      | none => exact congrArg State.link (endWatch_none (s := hunt s) hw _)
      | some w => exact congrArg State.link (endWatch_some (s := hunt s) hw _)
    have hagrees := watchAgrees_iff (hunt s) e
    simp only [Expected.accepts_iff] at hagrees
    rw [hexec, ← hended]
    refine ⟨fun h => ?_, fun h => ?_⟩
    · rw [startWatch_runs (hagrees.mpr h)]
      rfl
    · rw [startWatch_changed (mt hagrees.mp h)]
      rfl
  · exact congrArg _ ((whenRunning_running hrun _).trans (endWatch_some hw _))
end

