-- ==== Sys2Proof/Proofs/PowerTimers.lean ====
section
/-!
The ends of the Power Sequencer's timers (O20, O21), and what is taken before loading ends (O3).
-/

namespace Sys2Proof.Machine

variable {n : Node} {s : State}

/-! ## A completion that is told to the host (R30) -/

/-- R30: a host's action that arms nothing and has no recovery behind it ends with its reply. -/
theorem complete_host_quiet {a : Action} {tag : Tag} {r : ActionResult} (ha : s.action n = some a)
    (ho : a.originator = .host tag) (hslot : s.power.slot.get n = none) (harms : completionArms a.kind r = false) :
    complete n r s = hostEnded n a tag (actionResultCode (reportedResult a r)) s := by
  have hend := endAction_host (n := n) (s := s) ho r
  rw [← hend]
  refine complete_quiet ha harms ?_
  rw [hend]
  exact hslot

/-- R160: a completion's arming cause that does not find the node OFF arms as the entry into ON does. -/
theorem armingCause_of_not_off {entry : Bool} (hp : s.powerState n ≠ .off) :
    armingCause n entry s = supervisorHears n .on s := by
  show _ = armingCause n true s
  unfold armingCause
  simp [hp]

/-- R30, R160: a host's action whose completion arms the supervisor, with no recovery behind it. -/
theorem complete_host_arming {a : Action} {tag : Tag} {r : ActionResult} (ha : s.action n = some a)
    (ho : a.originator = .host tag) (hslot : s.power.slot.get n = none) (harms : completionArms a.kind r = true)
    (hp : s.powerState n ≠ .off) (hv : (s.supervisor n).state ≠ .recovering false) :
    complete n r s = supervisorHears n .on (hostEnded n a tag (actionResultCode (reportedResult a r)) s) := by
  have hended : ∀ x, (hostEnded n a tag x s).powerState n ≠ .off
      ∧ ((hostEnded n a tag x s).supervisor n).state ≠ .recovering false := fun x => by
    cases hh : a.held <;> simp only [hostEnded, hh] <;> exact ⟨hp, hv⟩
  obtain ⟨hp', hv'⟩ := hended (actionResultCode (reportedResult a r))
  have hcause : armingCause n false (endAction n a r s)
      = supervisorHears n .on (hostEnded n a tag (actionResultCode (reportedResult a r)) s) := by
    rw [endAction_host ho, armingCause_of_not_off hp']
  rw [← hcause]
  refine complete_arming ha harms ?_
  rw [hcause, supervisorHears_on hv']
  exact hslot

/-! ## What the host learns (R20, R30) -/

theorem reported_timeout (a : Action) : actionResultCode (reportedResult a .timeout) = .timeout := by
  simp [reportedResult, actionResultCode]

theorem reported_doneUnconfirmed (a : Action) :
    actionResultCode (reportedResult a .doneUnconfirmed) = .doneUnconfirmed := by
  simp [reportedResult, actionResultCode]

/-- R20, log 10: DONE of an action that lost its confirmation is DONE_UNCONFIRMED. -/
theorem reported_done (a : Action) : actionResultCode (reportedResult a .done)
    = if a.lostConfirmation then .doneUnconfirmed else .done := by
  cases h : a.lostConfirmation <;> simp [reportedResult, actionResultCode, h]

theorem reported_done_kept {a : Action} (h : a.lostConfirmation = false) :
    actionResultCode (reportedResult a .done) = .done := by
  rw [reported_done, h]
  rfl

/-- R30, step 4: no TIMEOUT arms the supervisor. -/
theorem completionArms_timeout (k : ActionKind) : completionArms k .timeout = false := by
  cases k <;> rfl

/-! ## The timers while their action runs (log 4) -/

section Timers

variable {a : Action} (hrun : s.phase = .running) (ha : s.action n = some a)
include hrun ha

theorem exec_tPressEnd (hst : a.state = .pressing) : exec (.tPressEnd n) s = .next (pressEnds n a s) :=
  congrArg _ (whenRunning_timerEnds hrun ha hst _)

theorem exec_tOnEnd (hst : a.state = .waitingOn) : exec (.tOnEnd n) s = .next (complete n .timeout s) :=
  congrArg _ (whenRunning_timerEnds hrun ha hst _)

theorem exec_tSoftEnd (hst : a.state = .waitingOff) : exec (.tSoftEnd n) s = .next (softEnds n a s) :=
  congrArg _ (whenRunning_timerEnds hrun ha hst _)

theorem exec_tHoldEnd (hst : a.state = .holding) : exec (.tHoldEnd n) s = .next (holdEnds n a s) :=
  congrArg _ (whenRunning_timerEnds hrun ha hst _)

theorem exec_tRestEnd (hst : a.state = .resting) : exec (.tRestEnd n) s = .next (restEnds n a s) :=
  congrArg _ (whenRunning_timerEnds hrun ha hst _)

theorem exec_tResetEnd (hst : a.state = .resetPulse) : exec (.tResetEnd n) s = .next (complete n .done s) :=
  congrArg _ (whenRunning_timerEnds hrun ha hst _)

theorem exec_tDiagEnd (hst : a.state = .diagPulse) : exec (.tDiagEnd n) s = .next (complete n .done s) :=
  congrArg _ (whenRunning_timerEnds hrun ha hst _)

end Timers

/-! ## The recovery that follows (R33, R34) -/

/-- R30, log 40: a POWER ACTION for the node, taken ahead of its recovery, comes next. -/
theorem requestAhead_iff_head : requestAhead s n = true ↔ ∃ (tag : Tag) (body : List Byte),
    s.pending.head? = some (.powerAction tag ⟨body, true⟩) ∧ actionNode? body = some n := by
  cases hq : s.pending with
  | nil => simp [requestAhead, hq]
  | cons c rest => simp [requestAhead_iff hq]

/-- R33, R165: the state in which a pending CYCLE has started on a node that is ON, taking a line. -/
def cycleStarted (n : Node) (l : LineId) (s : State) : State :=
  { s with
    lines := { s.lines with
      line := s.lines.line.modify n fun ls => ls.modify l fun y => { y with owner := .action n, driven := true } }
    power := { s.power with
      slot := s.power.slot.set n none
      action := s.power.action.set n (some (holdingAction s n .cycle .supervisor l)) }
    consoles := s.consoles.modify n (Console.addMark (.recovery .cycle))
    boot := { s.boot with supervisor := s.boot.supervisor.set n { s.supervisor n with state := .recovering true } }
    link := s.link.addNotice (.recovery n .started (some .cycle) (s.supervisor n).attempts (s.supervisor n).lastFailure
      (s.supervisor n).fallback) }

/-- R34: step 5 starts a pending CYCLE where the node has its line. -/
theorem startPending_cycle {l : LineId} (hl : lineOf s n .powerButton = some l) (ho : (s.line n l).owner = .none)
    (hslot : s.power.slot.get n = some .cycle) (hp : s.powerState n = .on) : startPending n s = cycleStarted n l s := by
  have hcheck : recoveryCheck n .cycle (s.setSlot n none) = none := by
    have hl' : lineOf (s.setSlot n none) n (firstRole .cycle) = some l := hl
    simp [recoveryCheck, recoveryAction, hl']
  have hstart := startAction_holds (s := (s.setSlot n none).mark n (.recovery .cycle)) .supervisor (.inr rfl) hp hl ho
  unfold startPending
  simp only [hslot, hcheck, startRecovery, recoveryAction, hstart, supStarted, recoveryNotice]
  simp only [State.notify, State.modSupervisor, State.modBoot, State.modLink, State.supervisor, Per4.get_modify_same]
  rfl

/-- R30, R34: likewise behind a host's action that has ended and held another line. -/
theorem startPending_cycle_hostEnded {a : Action} {tag : Tag} {r : Result} {l : LineId}
    (hl : lineOf s n .powerButton = some l) (ho : (s.line n l).owner = .none) (hslot : s.power.slot.get n = some .cycle)
    (hp : s.powerState n = .on) (hne : a.held ≠ some l) :
    startPending n (hostEnded n a tag r s) = cycleStarted n l (hostEnded n a tag r s) := by
  have hlineOf : lineOf (hostEnded n a tag r s) n .powerButton = some l := by
    rw [← hl]
    exact lineOf_congr fun k => role_freeHeld a.held n k s
  have hline : (hostEnded n a tag r s).line n l = s.line n l :=
    (line_freeHeld a.held n l s).trans (if_neg fun e => hne e.2)
  exact startPending_cycle hlineOf (by rw [hline, ho]) hslot ((powerState_freeHeld a.held n s).trans hp)

/-- R29, R30: the end of t_diag completes a host's DIAG; step 5 follows unless a POWER ACTION is taken before it. -/
theorem exec_tDiagEnd_host {a : Action} {tag : Tag} (hrun : s.phase = .running) (ha : s.action n = some a)
    (hk : a.kind = .diag) (hst : a.state = .diagPulse) (ho : a.originator = .host tag)
    (hlost : a.lostConfirmation = false) :
    exec (.tDiagEnd n) s = .next (if requestAhead s n then hostEnded n a tag .done s
      else startPending n (hostEnded n a tag .done s)) := by
  have hend : endAction n a .done s = hostEnded n a tag .done s := by
    rw [endAction_host ho, reported_done_kept hlost]
  rw [exec_tDiagEnd hrun ha hst, complete_pending ha (by rw [hk]; rfl), hend]

end Sys2Proof.Machine

open Sys2Proof Sys2Proof.Machine

/-- Settles O3: every other command is guarded by the phase. -/
theorem nothingTakenBeforeLoadingEnds : Obligations.NothingTakenBeforeLoadingEnds :=
  fun _ _ _ hp hreset hrelease hload h => exec_held hp hreset hrelease hload h

/-- Settles O20: each timer's end is one transition of the sequencer. -/
theorem timersLeadToNextPhase : Obligations.TimersLeadToNextPhase := by
  intro n a l s hrun ha
  refine ⟨fun hst hc hk hh hp => ?_, fun hst hc hk hh hp => ?_, fun hst he hl ho hp => ?_, fun hst hc hk hh => ?_,
    fun hst hc hl ho => ?_⟩
  · exact (exec_tPressEnd hrun ha hst).trans (congrArg _ (pressEnds_softOff_waits hc hk hp hh))
  · exact (exec_tPressEnd hrun ha hst).trans (congrArg _ (pressEnds_powerOn_waits hc hk hp hh))
  · exact (exec_tSoftEnd hrun ha hst).trans (congrArg _ (softEnds_escalates he hl ho hp))
  · exact (exec_tHoldEnd hrun ha hst).trans (congrArg _ (holdEnds_rests hc hk hh))
  · exact (exec_tRestEnd hrun ha hst).trans (congrArg _ (restEnds_presses hc hl ho))

/-- Settles O21: the completions of the first part arm nothing and those of the second arm; the third part is step 5 of
R30, in the step of the completion or behind the request taken ahead of it. -/
theorem timersCompleteHostActionsAndArm : Obligations.TimersCompleteHostActionsAndArm := by
  refine ⟨fun n a tag r c freed s hrun ha ho hslot hcase hfreed => ?_,
    fun n a tag r c v w s hrun ha ho hcase hesc hslot hp hv hrec hw => ?_,
    fun n l tag v recovered s hrun hl hown hslot hp hv hrec hrecovered => ⟨?_, ?_⟩⟩
  · have hquiet : ∃ x, exec c s = .next (complete n x s) ∧ completionArms a.kind x = false
        ∧ actionResultCode (reportedResult a x) = r := by
      rcases hcase with ⟨rfl, hst, rfl⟩ | ⟨rfl, hst, he, rfl⟩ | ⟨rfl, hst, hc, rfl⟩ | ⟨rfl, hst, hc, hk, rfl⟩
        | ⟨rfl, hst, hc, hk, hp, hlost, rfl⟩ | ⟨rfl, hst, hc, hk, hp, hlost, rfl⟩ | ⟨rfl, hst, hc, hk, rfl⟩
        | ⟨rfl, hst, hk, hc, hp, hlost, rfl⟩ | ⟨rfl, hst, hk, rfl⟩
      · exact ⟨.timeout, exec_tOnEnd hrun ha hst, completionArms_timeout _, reported_timeout a⟩
      · refine ⟨.timeout, ?_, completionArms_timeout _, reported_timeout a⟩
        rw [exec_tSoftEnd hrun ha hst, softEnds_timeout he]
      · refine ⟨.timeout, ?_, completionArms_timeout _, reported_timeout a⟩
        rw [exec_tHoldEnd hrun ha hst, holdEnds_timeout ha hc]
      · refine ⟨.doneUnconfirmed, ?_, by rw [hk]; rfl, reported_doneUnconfirmed a⟩
        rw [exec_tHoldEnd hrun ha hst, holdEnds_unconfirmed ha hc (by simp [hk])]
      · refine ⟨.done, ?_, by rw [hk]; rfl, reported_done_kept hlost⟩
        rw [exec_tPressEnd hrun ha hst, pressEnds_softOff_done ha hc hk hp]
      · refine ⟨.done, ?_, by rcases hk with hk | hk <;> rw [hk] <;> rfl, reported_done_kept hlost⟩
        rw [exec_tPressEnd hrun ha hst, pressEnds_powerOn_done ha hc (by rcases hk with hk | hk <;> simp [hk]) hp]
      · refine ⟨.doneUnconfirmed, ?_, by rw [hk]; rfl, reported_doneUnconfirmed a⟩
        rw [exec_tPressEnd hrun ha hst, pressEnds_unconfirmed ha hc]
      · refine ⟨.done, ?_, by rw [hk]; rfl, reported_done_kept hlost⟩
        rw [exec_tRestEnd hrun ha hst, restEnds_done hc hp]
      · exact ⟨.done, exec_tDiagEnd hrun ha hst, by rw [hk]; rfl, reported_done a⟩
    obtain ⟨x, hexec, harms, hr⟩ := hquiet
    rw [hexec, complete_host_quiet ha ho hslot harms, hr, hfreed]
    cases hh : a.held <;> simp only [hostEnded, hh] <;> rfl
  · have harming : ∃ x, exec c s = .next (complete n x s) ∧ completionArms a.kind x = true
        ∧ actionResultCode (reportedResult a x) = r := by
      rcases hcase with ⟨rfl, hk, hst, hlost, rfl⟩ | ⟨rfl, hk, hst, hc, rfl⟩
      · exact ⟨.done, exec_tResetEnd hrun ha hst, by rw [hk]; rfl, reported_done_kept hlost⟩
      · refine ⟨.doneUnconfirmed, ?_, by rcases hk with hk | hk <;> rw [hk] <;> rfl, reported_doneUnconfirmed a⟩
        rw [exec_tPressEnd hrun ha hst, pressEnds_unconfirmed ha hc]
    obtain ⟨x, hexec, harms, hr⟩ := harming
    subst hv hw
    have hkind : a.requested = a.kind := by simp [Action.requested, hesc]
    rw [hexec, complete_host_arming ha ho hslot harms hp hrec, hr, supervisorHears_on (s := hostEnded n a tag r s) hrec]
    cases hh : a.held <;> simp only [hostEnded, hkind, hesc, hh] <;> rfl
  · intro a h ended ha hk hst ho hlost hesc hh hne hended
    subst hv
    have hended' : ended = hostEnded n a tag .done s := by
      simp only [hended, hostEnded, hh, hk, hesc, Action.requested, Bool.false_eq_true, if_false]
      rfl
    have hexec := exec_tDiagEnd_host hrun ha hk hst ho hlost
    refine ⟨fun hahead => ?_, fun next body hnext hbody => ?_⟩
    · have hnot : ¬ requestAhead s n = true := fun h => by
        obtain ⟨next, body, hnext, hbody⟩ := requestAhead_iff_head.mp h
        exact hahead next body hnext hbody
      have hother : a.held ≠ some l := by
        rw [hh]
        exact fun e => hne (Option.some.inj e)
      rw [hexec, if_neg hnot, startPending_cycle_hostEnded hl hown hslot hp hother, hrecovered, hended', cycleStarted]
      simp only [hostEnded, Per4.set_set]
      rfl
    · rw [hexec, if_pos (requestAhead_iff_head.mpr ⟨next, body, hnext, hbody⟩), hended']
  · intro b options hs ha hb
    subst hv
    have hdecide : decideAction s n .powerOn = .answer .already :=
      decideAction_already ⟨l, role_of_lineOf hl⟩ (.inl ⟨rfl, hp⟩)
    have hanswer : decidedAction n .powerOn tag (options.getLsbD 0) (hunt s) (.answer .already)
        = answered s (replyTo tag 0x20#8 .already (powerActionDetails s n .powerOn false)) :=
      reply_hunt hs tag 0x20#8 .already _
    rw [exec_powerAction (k := .powerOn) hs hb rfl true, hdecide, hanswer, startBehind_idle (s := answered s _) hb ha,
      startPending_cycle (s := answered s _) hl hown hslot hp, hrecovered]
    rfl
end

section
/-!
The requests of the Console Engine (R41, R42, R52, R54, R57) as they are answered in a ready state: CONSOLE CONFIG (O23),
CONSOLE SEND (O24), and the readings (O35); and where an offset lies against a history (O26).
-/

namespace Sys2Proof.Machine

variable {s : State} {n : Node} {b : Byte}

/-! ## A request that changes one console -/

theorem hunt_consoles (s : State) : (hunt s).consoles = s.consoles := rfl

/-- What a ready state makes of a request that changes one console and is then answered. -/
theorem reply_modConsole_hunt (hs : RequestReady s) (n : Node) (f : Console → Console) (tag : Tag) (kind : Byte)
    (r : Result) (d : List Byte) :
    State.reply tag kind r d ((hunt s).modConsole n f)
      = answered { s with consoles := s.consoles.modify n f } (replyTo tag kind r d) :=
  reply_hunt (s := { s with consoles := s.consoles.modify n f }) hs tag kind r d

theorem node?_of_above (h : 4 ≤ b.toNat) : node? b = none :=
  dif_neg (by omega)

theorem bodyFits_of_length {body : List Byte} (h : body.length ≤ 600) : bodyFits body = true :=
  decide_eq_true h

/-! ## CONSOLE SEND (R54) -/

/-- R54: the bytes that fit join the FIFO, as many as there is room for. -/
theorem send_eq (bytes : List Byte) (c : Console) :
    c.send bytes = { c with fifo := c.fifo ++ bytes.take (256 - c.fifo.length) } := by
  have htake : bytes.take (fifoAccepts c bytes) = bytes.take (256 - c.fifo.length) := by
    rw [fifoAccepts, ← List.take_take]
    exact List.take_of_length_le (List.length_take_le' _ _)
  rw [Console.send, htake]

theorem room_send {c : Console} (h : c.fifo.length ≤ fifoRoom) (bytes : List Byte) :
    fifoRoom - (c.send bytes).fifo.length = 256 - min 256 (c.fifo.length + bytes.length) := by
  have hroom : fifoRoom = 256 := rfl
  rw [send_eq, List.length_append, List.length_take]
  omega

theorem exec_consoleSend (hs : RequestReady s) (tag : Tag) {bytes : List Byte} (h : bytes.length < 600) :
    exec (.consoleSend tag (b :: bytes)) s = .next (serveConsoleSend tag (b :: bytes) (hunt s)) :=
  requestFrame_ready hs 0x31#8 tag (bodyFits_of_length (by simpa using h))

/-! ## CONSOLE CONFIG (R40 to R42, R61, R62, R74) -/

/-- R40: a division rounded half up lies within half the divisor of the quotient. -/
theorem roundHalfUp_bounds (a : Nat) {d : Nat} (h : 0 < d) :
    d * (2 * roundHalfUp a d) ≤ 2 * a + d ∧ 2 * a + d < d * (2 * roundHalfUp a d) + 2 * d := by
  have hdiv := Nat.div_add_mod (2 * a + d) (2 * d)
  have hmod := Nat.mod_lt (2 * a + d) (show 0 < 2 * d by omega)
  have hcomm : d * (2 * roundHalfUp a d) = 2 * d * ((2 * a + d) / (2 * d)) := by
    rw [roundHalfUp, Nat.mul_left_comm, Nat.mul_assoc]
  omega

theorem divisor_bounds {c : ConsoleSettings} (h : 0 < c.baud) :
    1 ≤ c.divisor ∧ c.divisor ≤ 10000
      ∧ (16 * c.baud * (2 * c.divisor) ≤ 2 * 48000000 + 16 * c.baud ∨ c.divisor = 1)
      ∧ (2 * 48000000 + 16 * c.baud < 16 * c.baud * (2 * c.divisor) + 2 * (16 * c.baud) ∨ c.divisor = 10000) := by
  obtain ⟨hlow, hhigh⟩ := roundHalfUp_bounds 48000000 (d := 16 * c.baud) (by omega)
  unfold ConsoleSettings.divisor baudDivisor clamp
  split_ifs with h1 h2
  · refine ⟨le_rfl, by decide, .inr rfl, .inl ?_⟩
    rw [show roundHalfUp 48000000 (16 * c.baud) = 0 by omega] at hhigh
    omega
  · refine ⟨by decide, le_rfl, .inl (le_trans (Nat.mul_le_mul_left _ ?_) hlow), .inr rfl⟩
    omega
  · exact ⟨by omega, by omega, .inl hlow, .inl hhigh⟩

/-- A floor, by the two inequalities that single it out. -/
theorem div_bounds (a : Nat) {d : Nat} (h : 0 < d) : a / d * d ≤ a ∧ a < (a / d + 1) * d :=
  ⟨Nat.div_mul_le_self a d, by rw [Nat.mul_comm]; exact Nat.lt_mul_div_succ a h⟩

/-- R40: from 9 to 12 bits per character. -/
theorem charBits_range {c : ConsoleSettings} (hd : c.dataBits = 7 ∨ c.dataBits = 8)
    (hs : c.stopBits = 1 ∨ c.stopBits = 2) : 9 ≤ c.charBits ∧ c.charBits ≤ 12 := by
  unfold ConsoleSettings.charBits
  split_ifs <;> omega

theorem fall_le_rise {c : ConsoleSettings} (h : c.fall < c.rise) : c.fallThreshold ≤ c.riseThreshold :=
  le_trans (Nat.div_le_div_right (Nat.mul_le_mul_left _ h.le)) (Nat.le_max_right _ _)

/-- R41, R61: the settings that a body gives, each spelled out. -/
theorem consoleSettings?_eq {present x : ConsoleSettings} {b0 b1 b2 b3 db pb sb cb w0 w1 rise fall : Byte}
    (hdb : db = 7#8 ∨ db = 8#8) (hd : x.dataBits = db.toNat) (hp : parity? pb = some x.parity)
    (hsb : sb = 1#8 ∨ sb = 2#8) (hs : x.stopBits = sb.toNat) (hc : flag? cb = some x.ctsUse)
    (hbaud : x.baud = if u32 b0 b1 b2 b3 = 0 then present.baud else max 300 (min 3000000 (u32 b0 b1 b2 b3)))
    (hw : x.window = if u16 w0 w1 = 0 then present.window else max 10 (min 1000 (u16 w0 w1)))
    (hr : x.rise = if rise = 0#8 then present.rise else min 100 rise.toNat)
    (hf : x.fall = if x.rise ≤ fall.toNat then x.rise - 1 else fall.toNat) :
    consoleSettings? present [b0, b1, b2, b3, db, pb, sb, cb, w0, w1, rise, fall] = some x := by
  have hdata : dataBits? db = some x.dataBits := by
    rw [hd]
    rcases hdb with rfl | rfl <;> rfl
  have hstop : stopBits? sb = some x.stopBits := by
    rw [hs]
    rcases hsb with rfl | rfl <;> rfl
  have hrise : clampOrKeep 1 100 present.rise rise.toNat = x.rise := by
    have hzero : rise.toNat = 0 ↔ rise = 0#8 := BitVec.toNat_inj (y := 0#8)
    rw [hr, clampOrKeep_eq (by decide)]
    by_cases h : rise = 0#8
    · rw [if_pos h, if_pos (hzero.mpr h)]
    · have hpos : rise.toNat ≠ 0 := fun e => h (hzero.mp e)
      rw [if_neg h, if_neg hpos]
      omega
  simp only [consoleSettings?, hdata, hp, hstop, hc, hrise, clampOrKeep_eq (show 300 ≤ 3000000 by decide),
    clampOrKeep_eq (show 10 ≤ 1000 by decide), ← hbaud, ← hw, ← hf]

/-- R42: what becomes of the receiver, spelled out. -/
theorem reconfigured_eq (r : Receiver) :
    r.reconfigured = if r = .inBreak then .inBreak else if r = .idle ∨ r = .waitHigh then .waitHigh else .discarding := by
  cases r <;> rfl

/-- R42, R74: an accepted CONSOLE CONFIG, in one change of the console and one of the matchers. -/
theorem applyConsoleConfig_eq (n : Node) (x : ConsoleSettings) (s : State) : applyConsoleConfig n x s = { s with
    consoles := s.consoles.modify n fun c => Console.addMark .reconfig { c with
      settings := x
      receiver := if c.receiver = .inBreak then .inBreak
        else if c.receiver = .idle ∨ c.receiver = .waitHigh then .waitHigh else .discarding
      count := 0
      windowRemaining := x.window }
    boot := { s.boot with partials := s.boot.partials.set n (Vector.replicate 16 0) } } := by
  simp only [← reconfigured_eq]
  unfold applyConsoleConfig
  rw [State.mark, State.modConsole, State.modConsole, Per4.modify_modify]
  rfl

/-! ## Where an offset lies (R51, R52) -/

theorem place_held {oldest live x : Word} :
    place oldest live x = .held ↔ (x - oldest).toNat < (live - oldest).toNat := by
  unfold place
  dsimp only
  split_ifs <;> simp only [true_iff, false_iff] <;> omega

theorem place_atLive {oldest live x : Word} :
    place oldest live x = .atLive ↔ (x - oldest).toNat = (live - oldest).toNat := by
  unfold place
  dsimp only
  split_ifs <;> simp only [true_iff, false_iff] <;> omega

theorem place_beyondLive {oldest live x : Word} :
    place oldest live x = .beyondLive ↔ (live - oldest).toNat < (x - oldest).toNat ∧ (x - oldest).toNat < 2 ^ 31 := by
  unfold place
  dsimp only
  split_ifs <;> simp only [true_iff, false_iff] <;> omega

theorem place_beforeOldest {oldest live x : Word} (h : (live - oldest).toNat < 2 ^ 31) :
    place oldest live x = .beforeOldest ↔ 2 ^ 31 ≤ (x - oldest).toNat := by
  unfold place
  dsimp only
  split_ifs <;> simp only [true_iff, false_iff] <;> omega

/-- R51, R52: an offset that is neither held nor at live moves to the nearer end of the history. -/
theorem placed_eq (oldest live x : Word) :
    placed oldest live x = if (x - oldest).toNat ≤ (live - oldest).toNat then x
      else if (x - oldest).toNat < 2 ^ 31 then live else oldest := by
  unfold placed place
  dsimp only
  split_ifs <;> first | rfl | omega

/-- R46: a history has at most as many pages as the pool. -/
theorem length_pages_le {c : Console} (h : c.pages.Nodup) : c.pages.length ≤ 256 := by
  simpa using h.length_le_card

/-! ## CONSOLE READ (R52) -/

/-- R52: the details of CONSOLE READ, spelled out. -/
theorem consoleReadDetails_eq {c : Console} {x start : Word} {number maximum skip : Nat} {range : List Mark} {m sk : Nat}
    (hc : c = s.consoles.get n)
    (hstart : start = (if (x - c.oldest).toNat ≤ (c.live - c.oldest).toNat then x
      else if (x - c.oldest).toNat < 2 ^ 31 then c.live else c.oldest))
    (hmax : maximum = max 1 (min 512 m)) (hskip : skip = min 31 sk)
    (hnumber : number = min maximum (c.live - start).toNat)
    (hrange : range = (c.marks.filter fun m => decide ((m.offset - start).toNat < number)
      || (start + BitVec.ofNat 32 number == c.live && m.offset == c.live)).drop skip) :
    consoleReadDetails s n x (clamp 1 512 m) (clamp 0 31 sk)
      = word32 start ++ be16 number ++ word32 c.oldest ++ word32 c.live ++ be32 (range.length - (range.take 8).length)
        ++ ((List.range number).map fun i => historyByte s n (start + BitVec.ofNat 32 i))
        ++ be16 (range.take 8).length ++ (range.take 8).flatMap markBytes := by
  have hs : placed c.oldest c.live x = start := by rw [placed_eq, hstart]
  have hk : clamp 0 31 sk = skip := by rw [clamp_eq (by decide), Nat.zero_max, hskip]
  have hn : readLength c start (clamp 1 512 m) = number := by
    rw [readLength, clamp_eq (by decide), ← hmax, hnumber]
  have hm : (marksInRange c start number).drop skip = range := by rw [marksInRange, hrange]
  unfold consoleReadDetails
  simp only [← hc, hs, hn, hk, hm]
  rfl

/-! ## UNIT STATUS and BOOT STATUS (R107, R171) -/

theorem serveUnitStatus_eq {u : UnitId} (hb : b.toNat = u.val) (tag : Tag) (s : State) :
    serveUnitStatus tag [b] s = s.reply tag 0x52#8 .done (unitStatusDetails s u) := by
  simp only [serveUnitStatus, node?_of_toNat hb]

theorem serveBootStatus_eq (hb : b.toNat = n.val) (tag : Tag) (s : State) :
    serveBootStatus tag [b] s = s.reply tag 0x63#8 .done (bootStatusDetails s n) := by
  simp only [serveBootStatus, node?_of_toNat hb]

end Sys2Proof.Machine

open Sys2Proof Sys2Proof.Machine

/-- Settles O23: the derived values are floors of R40's and R62's quotients; the request is served at once with the settings
its body gives. -/
theorem consoleConfigAppliesDerivedRates : Obligations.ConsoleConfigAppliesDerivedRates := by
  refine ⟨fun c h => ?_, ?_⟩
  · obtain ⟨hbaud, hdata, hstop, -, -, hfall⟩ := h
    have hdivisor := divisor_bounds (c := c) (by have := hbaud.1; omega)
    have hbits := charBits_range hdata hstop
    obtain ⟨hlow, hhigh⟩ := div_bounds 48000000 (d := 16 * c.divisor) (by omega)
    obtain ⟨hblow, hbhigh⟩ := div_bounds (c.actualBaud * c.window) (d := 1000 * c.charBits) (by omega)
    exact ⟨hdivisor, hlow, hhigh, rfl, hbits.1, hbits.2, hblow, hbhigh, rfl, rfl, fall_le_rise hfall⟩
  · intro n tag b b0 b1 b2 b3 db pb sb cb w0 w1 rise fall x s hs hb hdb hd hp hsb hst hc hbaud hw hr hf
    have hx := consoleSettings?_eq hdb hd hp hsb hst hc hbaud hw hr hf
    calc exec (.consoleConfig tag [b, b0, b1, b2, b3, db, pb, sb, cb, w0, w1, rise, fall]) s
        = .next (serveConsoleConfig tag [b, b0, b1, b2, b3, db, pb, sb, cb, w0, w1, rise, fall] (hunt s)) :=
          requestFrame_ready (body := [b, b0, b1, b2, b3, db, pb, sb, cb, w0, w1, rise, fall]) hs 0x30#8 tag rfl
      _ = .next ((applyConsoleConfig n x (hunt s)).reply tag 0x30#8 .done (consoleConfigDetails x)) := by
          simp only [serveConsoleConfig, node?_of_toNat hb, hunt_consoles, hx]
      _ = _ := by
          have hready : RequestReady (applyConsoleConfig n x s) := hs
          have hhunt : applyConsoleConfig n x (hunt s) = hunt (applyConsoleConfig n x s) := rfl
          rw [hhunt, reply_hunt hready, applyConsoleConfig_eq]
          rfl

/-- Settles O24: the request is served at once, on the FIFO's room or as a refusal. -/
theorem consoleSendTakesWhatFits : Obligations.ConsoleSendTakesWhatFits := by
  refine ⟨fun n tag b bytes s hs hlaw hb hmin hmax => ?_, fun tag b bytes s hs hbad hlen => ?_⟩
  · have hfit : 1 ≤ bytes.length ∧ bytes.length ≤ fifoRoom := ⟨hmin, hmax⟩
    rw [exec_consoleSend hs tag (by omega)]
    simp only [serveConsoleSend, node?_of_toNat hb, if_pos hfit]
    rw [reply_modConsole_hunt hs, State.modConsole_consoles, Per4.get_modify_same, hunt_consoles,
      room_send (hlaw n).2, funext (send_eq bytes)]
    rfl
  · have hrefused : serveConsoleSend tag (b :: bytes) (hunt s) = badRequest tag 0x31#8 (hunt s) := by
      unfold serveConsoleSend
      dsimp only
      split
      · rename_i hn
        rw [if_neg]
        rintro ⟨hmin, hmax⟩
        rcases hbad with h | rfl | h
        · rw [node?_of_above h] at hn
          cases hn
        · exact absurd hmin (by decide)
        · exact absurd hmax (Nat.not_le_of_lt h)
      · rfl
    rw [exec_consoleSend hs tag hlen, hrefused]
    exact congrArg _ (reply_hunt hs tag 0x31#8 .badRequest [])

/-- Settles O26: the four classes are the branches of the placing, and a history holds at most the pool. -/
theorem offsetsPlacedByDistance : Obligations.OffsetsPlacedByDistance := by
  refine ⟨fun oldest live x => ⟨place_held, place_atLive, place_beyondLive, place_beforeOldest⟩, fun n s hpool hhist => ?_⟩
  obtain ⟨-, -, hpages, -⟩ := hpool
  have hlen := length_pages_le (hpages n).1
  have hspan : (s.consoles.get n).heldSpan < 512 * (s.consoles.get n).pages.length := (hhist n).1
  have hle : (s.consoles.get n).heldSpan ≤ 131072 := by omega
  exact hle

/-- Settles O35: each reading is a reply to the state as it stands. -/
theorem readingsChangeNothing : Obligations.ReadingsChangeNothing := by
  refine ⟨?_, fun x tag b s hs hb => ?_⟩
  · intro n tag b o0 o1 o2 o3 m0 m1 sk c cts x start number range s hs hb hc hx hstart hnumber hrange
    refine ⟨?_, ?_⟩
    · calc exec (.consoleRead tag [b, o0, o1, o2, o3, m0, m1, sk]) s
          = .next (serveConsoleRead tag [b, o0, o1, o2, o3, m0, m1, sk] (hunt s)) :=
            requestFrame_ready (body := [b, o0, o1, o2, o3, m0, m1, sk]) hs 0x33#8 tag rfl
        _ = .next (answered s (replyTo tag 0x33#8 .done
              (consoleReadDetails s n x (clamp 1 512 (u16 m0 m1)) (clamp 0 31 sk.toNat)))) := by
            simp only [serveConsoleRead, node?_of_toNat hb, ← hx]
            exact congrArg _ (reply_hunt hs tag 0x33#8 .done _)
        _ = _ := by rw [consoleReadDetails_eq hc hstart rfl rfl hnumber hrange]
    · calc exec (.consoleStatus tag ⟨[b], cts⟩) s
          = .next (serveConsoleStatus tag [b] (Per4.all cts) (hunt s)) :=
            requestMeeting_ready (body := [b]) hs { unseenPins with cts := Per4.all cts } 0x35#8 tag rfl
        _ = _ := by
            simp only [serveConsoleStatus, node?_of_toNat hb, Per4.get_all, hunt_consoles, ← hc]
            exact congrArg _ (reply_hunt hs tag 0x35#8 .done _)
  · have served : ∀ {kind : Byte} {d : List Byte},
        Host.Outcome.next (State.reply tag kind .done d (hunt s)) = (.next (answered s (replyTo tag kind .done d)) : Outcome) :=
      fun {kind d} => congrArg _ (reply_hunt hs tag kind .done d)
    refine ⟨?_, ?_, ?_, ?_, ?_⟩
    · exact (requestFrame_ready (body := []) hs 0x01#8 tag rfl).trans served
    · exact (requestFrame_ready (body := [0#8]) hs 0x41#8 tag rfl).trans served
    · exact (requestFrame_ready (body := [1#8]) hs 0x41#8 tag rfl).trans served
    · refine (requestFrame_ready (body := [b]) hs 0x52#8 tag rfl).trans (Eq.trans (congrArg _ ?_) served)
      exact (serveUnitStatus_eq hb tag (hunt s))
    · refine (requestFrame_ready (body := [b]) hs 0x63#8 tag rfl).trans (Eq.trans (congrArg _ ?_) served)
      exact (serveBootStatus_eq hb tag (hunt s))
end

section
/-!
The console events: the transmitter and its breaks (O25), the receiver's moves (O28), a character that is stored and the
page that a full history takes (O27), and what leaves with the oldest page (O29).
-/

namespace Sys2Proof.Machine

variable {s : State} {n : Node}

/-! ## A change of one console -/

/-- A change of one value depends on what it makes of that value alone. -/
theorem Per4.modify_congr {α : Type} {x : Per4 α} {i : Node} {f g : α → α} (h : f (x.get i) = g (x.get i)) :
    x.modify i f = x.modify i g :=
  congrArg (x.set i) h

theorem modConsole_congr {f g : Console → Console} (h : f (s.consoles.get n) = g (s.consoles.get n)) :
    s.modConsole n f = { s with consoles := s.consoles.modify n g } :=
  congrArg (fun x => { s with consoles := x }) (Per4.modify_congr h)

/-! ## Characters sent (R53) -/

/-- R53: the bits of a character, from data bits that are those of its byte. -/
theorem characterBits_eq {k : ConsoleSettings} {x : Byte} {data : List Bool} (hlen : data.length = k.dataBits)
    (hdata : ∀ (i : Nat) (h : i < data.length), data[i] = x.getLsbD i) :
    characterBits k x = false :: (data
      ++ (match k.parity with
          | .none => []
          | .even => [decide (data.count true % 2 = 1)]
          | .odd => [decide (data.count true % 2 = 0)])
      ++ List.replicate k.stopBits true) := by
  have hbits : ((List.range k.dataBits).map fun i => x.getLsbD i) = data :=
    List.ext_getElem (by simp [hlen]) fun i _ h => by simp [hdata i h]
  have hcount : data.countP id = data.count true := by
    rw [List.count]
    exact List.countP_congr fun b _ => by cases b <;> decide
  unfold characterBits uartBits parityBits
  simp only [hbits, hcount]
  cases k.parity <;> rfl

/-- R53: a character starts. -/
theorem startCharacter_starts {c : Console} {x : Byte} {rest : List Byte} (hf : c.fifo = x :: rest)
    (hs : c.sending = none) (hb : c.break_ = none) (hc : c.settings.ctsUse = false ∨ c.cts = .low) :
    c.startCharacter = { c with sending := some (characterBits c.settings x), fifo := rest } := by
  have hmay : c.mayStart = true := by
    rcases hc with hc | hc <;> simp [Console.mayStart, hs, hb, hc]
  simp only [Console.startCharacter, hf, hmay, if_true]

/-- R53: no character starts. -/
theorem startCharacter_waits {c : Console} (h : c.fifo = [] ∨ c.sending ≠ none ∨ c.break_ ≠ none
    ∨ (c.settings.ctsUse = true ∧ c.cts = .high)) : c.startCharacter = c := by
  unfold Console.startCharacter
  split
  · rename_i x rest hf
    have hmay : c.mayStart = false := by
      rcases h with h | h | h | ⟨hu, hc⟩
      · rw [hf] at h
        cases h
      · cases hs : c.sending <;> simp_all [Console.mayStart]
      · cases hb : c.break_ <;> simp_all [Console.mayStart]
      · simp [Console.mayStart, hu, hc]
    rw [hmay]
    rfl
  · rfl

theorem endCharacter_noBreak {c : Console} (h : c.break_ = none) : c.endCharacter = { c with sending := none } := by
  unfold Console.endCharacter
  split
  · rw [h]
    rfl
  · rename_i hs
    have hnone : c.sending = none := by simpa using hs
    rw [← hnone]

/-- R55: the character's end begins a break that waits. -/
theorem endCharacter_waiting {c : Console} {k : Break} (hb : c.break_ = some k) (hk : k.phase = .waiting)
    (hs : c.sending ≠ none) : c.endCharacter = { c with
      sending := none, break_ := some { k with phase := .low, remaining := k.duration } } := by
  have hsome : c.sending.isSome = true := Option.isSome_iff_ne_none.mpr hs
  have hbegin : k.begin = { k with phase := .low, remaining := k.duration } := if_pos hk
  rw [Console.endCharacter, if_pos hsome, hb, Option.map_some, hbegin]

/-! ## Breaks sent (R55) -/

theorem exec_consoleBreak (hs : RequestReady s) (tag : Tag) {b : Byte} (hb : b.toNat = n.val) (d0 d1 : Byte) :
    exec (.consoleBreak tag [b, d0, d1]) s = .next (if (s.consoles.get n).break_.isSome then
        (hunt s).reply tag 0x32#8 .busy []
      else (hunt s).modConsole n (Console.startBreak tag (clamp 1 2000 (u16 d0 d1)))) := by
  refine (requestFrame_ready (body := [b, d0, d1]) hs 0x32#8 tag rfl).trans (congrArg _ ?_)
  show serveConsoleBreak tag [b, d0, d1] (hunt s) = _
  simp only [serveConsoleBreak, node?_of_toNat hb, hunt_consoles]
  rfl

/-- R55: a break's end puts its mark and queues its reply, with the offset of the mark. -/
theorem finishBreak_low {k : Break} (hb : (s.consoles.get n).break_ = some k) (hk : k.phase = .low) :
    finishBreak n s = { s with
      consoles := s.consoles.modify n fun c => Console.addMark (.breakSent k.duration)
        { c with break_ := some { k with phase := .recovery, remaining := 0 } }
      link := s.link.addReply (replyTo k.tag 0x32#8 .done (be16 k.duration ++ word32 (s.consoles.get n).live)) } := by
  unfold finishBreak
  simp only [hb, if_pos hk, State.mark, State.modConsole, Per4.modify_modify]
  rfl

theorem recoverBreak_recovery {k : Break} (hb : (s.consoles.get n).break_ = some k) (hk : k.phase = .recovery) :
    recoverBreak n s = s.modConsole n fun c => { c with break_ := none } := by
  simp only [recoverBreak, hb, if_pos hk]

/-! ## The receiver (R42 to R45) -/

theorem confirmStart_taken (h : (s.consoles.get n).receiver = .idle ∨ (s.consoles.get n).receiver = .waitHigh
    ∨ (s.consoles.get n).receiver = .discarding) (mid : Level) :
    confirmStart n mid s = s.modConsole n fun x => { x with receiver := if mid = .low then .receiving else .idle } := by
  unfold confirmStart
  rcases h with h | h | h <;> rw [h]

/-- R42: a character that was discarded, and one that comes in a held character or a break, has no effect. -/
theorem receiveCharacter_ignored (h : (s.consoles.get n).receiver = .discarding ∨ (s.consoles.get n).receiver = .held
    ∨ (s.consoles.get n).receiver = .inBreak) (data : Byte) (parityBit stopBit : Bool) :
    receiveCharacter n data parityBit stopBit s = s := by
  unfold receiveCharacter
  rcases h with h | h | h <;> simp only [h]

/-- R43: a character that the receiver takes is held back if it is all low, and stored otherwise. -/
theorem receiveCharacter_taken (h : (s.consoles.get n).receiver = .idle ∨ (s.consoles.get n).receiver = .receiving
    ∨ (s.consoles.get n).receiver = .waitHigh) (data : Byte) (parityBit stopBit : Bool) :
    receiveCharacter n data parityBit stopBit s =
      if allLow (s.consoles.get n).settings data parityBit stopBit then
        s.modConsole n fun x => { x.countErrors data parityBit true with receiver := .held }
      else
        captureByte n (storedByte (s.consoles.get n).settings data)
          (s.modConsole n fun x => { x.countErrors data parityBit stopBit with receiver := .idle }) := by
  unfold receiveCharacter
  rcases h with h | h | h <;> simp only [h]

/-- R44: an all-low character has a parity error exactly under ODD parity. -/
theorem parityError_allLow {k : ConsoleSettings} {data : Byte} {parityBit stopBit : Bool}
    (h : allLow k data parityBit stopBit = true) : parityError k data parityBit = decide (k.parity = .odd) := by
  have hlow : storedByte k data = 0#8 ∧ (k.parity = .none ∨ parityBit = false) := by
    simp only [allLow, Bool.and_eq_true, Bool.or_eq_true, beq_iff_eq, Bool.not_eq_true'] at h
    exact h.1
  obtain ⟨hstored, hparity⟩ := hlow
  have hones : onesIn 0#8 = 0 := by decide
  unfold parityError
  simp only [hstored, hones]
  cases hk : k.parity with
  | none => rfl
  | even =>
    rw [hparity.resolve_left (by simp [hk])]
    rfl
  | odd =>
    rw [hparity.resolve_left (by simp [hk])]
    rfl

theorem recognizeBreak_held (h : (s.consoles.get n).receiver = .held) : recognizeBreak n s = { s with
    consoles := s.consoles.modify n fun c => Console.addMark .breakReceived
      { c with receiver := .inBreak, breaks := c.breaks + 1 }
    boot := { s.boot with partials := s.boot.partials.set n (Vector.replicate 16 0) } } := by
  rw [recognizeBreak, if_pos h, State.mark, State.modConsole, State.modConsole, Per4.modify_modify]
  rfl

/-! ## A byte of console data (R43, R46, R47, R63) -/

/-- R47: a byte goes to the one place that its offset has. -/
theorem storeByte_eq {p : PageId} {i : Nat} (h : (s.consoles.get n).locate (s.consoles.get n).live = some (p, i))
    (b : Byte) : storeByte n b s = { s with
      ram := Memory.write ramDefault s.ram (512 * p.val + i) [b]
      consoles := s.consoles.modify n fun x => { x with live := x.live + 1 } } := by
  simp only [storeByte, h]
  rfl

theorem full_iff {c : Console} : c.full = true ↔ (c.live - c.oldest).toNat = 512 * c.pages.length := beq_iff_eq

theorem extendHistory_notFull (h : (s.consoles.get n).full = false) : extendHistory n s = s := by
  rw [extendHistory, h]
  rfl

/-- R43 to R45: a console whose receiver has taken a character whole, with its errors counted. -/
def Console.took (wrong stopBit : Bool) (c : Console) : Console :=
  { c with
    receiver := .idle
    parityErrors := if wrong then c.parityErrors + 1 else c.parityErrors
    framingErrors := if stopBit then c.framingErrors else c.framingErrors + 1 }

/-- R43, R44: a character with data is captured. -/
theorem exec_characterReceived (hrun : s.phase = .running) {data : Byte} {parityBit stopBit : Bool}
    (h : (s.consoles.get n).receiver = .idle ∨ (s.consoles.get n).receiver = .receiving
      ∨ (s.consoles.get n).receiver = .waitHigh)
    (hdata : allLow (s.consoles.get n).settings data parityBit stopBit = false) :
    exec (.characterReceived n data parityBit stopBit) s
      = .next (captureByte n (storedByte (s.consoles.get n).settings data)
          (s.modConsole n (Console.took (parityError (s.consoles.get n).settings data parityBit) stopBit))) := by
  refine congrArg _ ((whenRunning_running hrun _).trans ?_)
  rw [receiveCharacter_taken h, hdata]
  rfl

/-- R45: a held character that was no break is captured as a zero byte. -/
theorem exec_heldCharacterStored (hrun : s.phase = .running) (h : (s.consoles.get n).receiver = .held) :
    exec (.heldCharacterStored n) s = .next (captureByte n 0#8 (s.modConsole n (Console.took false false))) :=
  congrArg _ ((whenRunning_running hrun _).trans (if_pos h))

/-- R76: the free page with none free below it is the one the pool offers. -/
theorem lowestFree_eq {p : Pool} {q : PageId} (hq : p.owners[q] = none) (hlow : ∀ r : PageId, r < q → p.owners[r] ≠ none) :
    p.lowestFree = some q := by
  cases h : p.lowestFree with
  | none => exact absurd hq (lowestFree_none h q)
  | some r =>
    obtain ⟨hr, hmin⟩ := lowestFree_some h
    rcases lt_trichotomy r q with hlt | rfl | hgt
    · exact absurd hr (hlow r hlt)
    · rfl
    · exact absurd hq (hmin q hgt)

/-- R81: a holder below its reservation is granted the page the pool offers. -/
theorem allocate_belowReservation {h : Holder} {q : PageId} (hheld : s.pool.held h < (s.pool.holder h).reservation)
    (hq : s.pool.lowestFree = some q) (why : Purpose) :
    allocate h why s = (some q, s.modPool (Pool.setOwner q (some h))) := by
  simp only [allocate, if_pos hheld, grantFree, hq]

/-- R47, R81: a full history below its reservation gets the free page with the lowest number at its end. -/
theorem extendHistory_grows {q : PageId} (hfull : (s.consoles.get n).full = true)
    (hheld : s.pool.held (.ch n) < (s.pool.consoles.get n).reservation) (hq : s.pool.lowestFree = some q) :
    extendHistory n s = { s with
      pool := s.pool.setOwner q (some (.ch n))
      consoles := s.consoles.modify n fun c => { c with pages := c.pages ++ [q] } } := by
  rw [extendHistory, if_pos hfull, allocate_belowReservation (h := .ch n) hheld hq]
  rfl

/-- R155, R157: a byte that completes no entry only advances the matchers. -/
theorem matchByte_noneDone {b : Byte} (h : completedEntries s n b = []) : matchByte n b s = advancePartials n b s := by
  rw [matchByte, h, decideCompletions]
  split <;> rfl

/-- R63: a character that starts no flood is counted. -/
theorem countCharacter_noFlood (h : (s.consoles.get n).flood = true
    ∨ (s.consoles.get n).count < (s.consoles.get n).settings.riseThreshold) :
    countCharacter n s = s.modConsole n fun c => { c with count := c.count + 1 } := by
  unfold countCharacter
  dsimp only
  rw [if_neg]
  rw [State.modConsole_consoles, Per4.get_modify_same]
  rcases h with h | h
  · simp [h]
  · simp only [Bool.and_eq_true, decide_eq_true_eq]
    exact fun hlt => by have := hlt.2; omega

/-- R43, R47, R63: a byte of console data where neither the last page fills, nor flood starts, nor an entry completes. -/
theorem captureByte_quiet {c : Console} {p : PageId} {i : Nat} {b : Byte} (hc : c = s.consoles.get n)
    (hl : c.locate c.live = some (p, i)) (hfull : (c.live + 1 - c.oldest).toNat ≠ 512 * c.pages.length)
    (hdone : completedEntries s n b = []) (hflood : c.flood = true ∨ c.count < c.settings.riseThreshold) :
    captureByte n b s = { s with
      ram := Memory.write ramDefault s.ram (512 * p.val + i) [b]
      consoles := s.consoles.set n { c with live := c.live + 1, count := c.count + 1 }
      boot := { s.boot with partials := s.boot.partials.set n (Vector.ofFn fun e => (advanceEntry s n b e).1) } } := by
  subst hc
  rw [captureByte, storeByte_eq hl, extendHistory_notFull, matchByte_noneDone, countCharacter_noFlood]
  · simp only [State.modConsole, advancePartials, State.modBoot, Per4.modify_modify]
    rfl
  · simpa only [advancePartials, State.modBoot, Per4.get_modify_same] using hflood
  · exact hdone
  · rw [Per4.get_modify_same]
    exact Bool.eq_false_iff.mpr fun h => hfull (full_iff.mp h)

/-- R47, R80 to R82: the same where the last page fills below the reservation. -/
theorem captureByte_grows {c : Console} {p q : PageId} {i : Nat} {b : Byte} (hc : c = s.consoles.get n)
    (hl : c.locate c.live = some (p, i)) (hfull : (c.live + 1 - c.oldest).toNat = 512 * c.pages.length)
    (hheld : s.pool.held (.ch n) < (s.pool.consoles.get n).reservation) (hq : s.pool.lowestFree = some q)
    (hdone : completedEntries s n b = []) (hflood : c.flood = true ∨ c.count < c.settings.riseThreshold) :
    captureByte n b s = { s with
      ram := Memory.write ramDefault s.ram (512 * p.val + i) [b]
      pool := s.pool.setOwner q (some (.ch n))
      consoles := s.consoles.set n { c with live := c.live + 1, count := c.count + 1, pages := c.pages ++ [q] }
      boot := { s.boot with partials := s.boot.partials.set n (Vector.ofFn fun e => (advanceEntry s n b e).1) } } := by
  subst hc
  rw [captureByte, storeByte_eq hl, extendHistory_grows (q := q), matchByte_noneDone, countCharacter_noFlood]
  · simp only [State.modConsole, advancePartials, State.modBoot, Per4.modify_modify]
    rfl
  · simpa only [advancePartials, State.modBoot, Per4.get_modify_same] using hflood
  · exact hdone
  · rw [Per4.get_modify_same]
    exact full_iff.mpr hfull
  · exact hheld
  · exact hq

/-! ## The oldest page leaves (R48, R65, R69) -/

theorem place_ne_beforeOldest {oldest live x : Word} (h : (live - oldest).toNat < 2 ^ 31) :
    (place oldest live x != .beforeOldest) = decide ((x - oldest).toNat < 2 ^ 31) := by
  rw [Bool.eq_iff_iff, bne_iff_ne, ne_eq, place_beforeOldest h, not_le, decide_eq_true_iff]

/-- R48: once 512 characters have left, the span is shorter by them. -/
theorem span_advanced {live oldest : Word} (h : 512 ≤ (live - oldest).toNat) :
    (live - (oldest + 512)).toNat = (live - oldest).toNat - 512 := by
  rw [← BitVec.sub_sub, BitVec.toNat_sub_of_le]
  · rfl
  · exact h

/-- R48: an offset among the 512 characters that left lies before the new oldest. -/
theorem span_wrapped {x oldest : Word} (h : (x - oldest).toNat < 512) : 2 ^ 31 ≤ (x - (oldest + 512)).toNat := by
  rw [← BitVec.sub_sub]
  generalize x - oldest = d at h
  bv_omega

/-- R48, R65, R69: what the leaving of the oldest page does to the console, in terms of distances, before its cursor. -/
theorem oldestPageLeaves_eq {c d : Console} (hc : c = s.consoles.get n) (hheld : 512 ≤ (c.live - c.oldest).toNat)
    (hspan : (c.live - c.oldest).toNat < 2 ^ 31)
    (hd : d = { c with
      pages := c.pages.drop 1
      oldest := c.oldest + 512
      marks := c.marks.filter fun m => decide ((m.offset - (c.oldest + 512)).toNat < 2 ^ 31) }) :
    oldestPageLeaves n s = match c.cursor with
      | none => s.modConsole n fun _ => d
      | some x =>
        if (x - (c.oldest + 512)).toNat < 2 ^ 31 then s.modConsole n fun _ => d
        else if c.flood then
          s.modConsole n fun _ => { d with cursor := some (c.oldest + 512), skip := c.skip + (c.oldest + 512 - x) }
        else
          (s.modConsole n fun _ => { d with cursor := some (c.oldest + 512) }).notify
            (.consoleGap n (c.oldest + 512 - x) (c.oldest + 512)) := by
  have hnew : (c.live - (c.oldest + 512)).toNat < 2 ^ 31 := by
    rw [span_advanced hheld]
    omega
  subst hd
  unfold oldestPageLeaves
  simp only [← hc, place_ne_beforeOldest hnew]
  cases c.cursor with
  | none => rfl
  | some x =>
    dsimp only
    by_cases hx : (x - (c.oldest + 512)).toNat < 2 ^ 31
    · rw [if_pos hx, if_neg (fun e => absurd ((place_beforeOldest hnew).mp e) (Nat.not_le_of_lt hx))]
    · rw [if_neg hx, if_pos ((place_beforeOldest hnew).mpr (Nat.le_of_not_lt hx))]

end Sys2Proof.Machine

open Sys2Proof Sys2Proof.Machine

/-- Settles O25: each command is one change of its console. -/
theorem transmitterSendsCharactersAndBreaks : Obligations.TransmitterSendsCharactersAndBreaks := by
  refine ⟨fun n cts s hrun => ⟨?_, fun h => ?_, fun h => ?_⟩, fun n tag b d0 d1 k s hrun hb => ⟨?_, ?_, ?_, ?_, ?_⟩⟩
  · intro x rest k data hf hs hbr hk hc hlen hdata
    subst hk
    refine congrArg _ ((whenRunning_running hrun _).trans (modConsole_congr ?_))
    rw [startCharacter_starts (c := { s.consoles.get n with cts := cts }) hf hs hbr hc, characterBits_eq hlen hdata] <;>
      rfl
  · exact congrArg _ ((whenRunning_running hrun _).trans (modConsole_congr
      (startCharacter_waits (c := { s.consoles.get n with cts := cts }) h)))
  · exact congrArg _ ((whenRunning_running hrun _).trans (modConsole_congr (endCharacter_noBreak h)))
  · intro hs hbr
    rw [exec_consoleBreak hs tag hb, hbr, clamp_eq (by decide)]
    rfl
  · intro hs hbr
    rw [exec_consoleBreak hs tag hb, hbr]
    exact congrArg _ (reply_hunt hs tag 0x32#8 .busy [])
  · intro hbr hk hs
    exact congrArg _ ((whenRunning_running hrun _).trans (modConsole_congr (endCharacter_waiting hbr hk hs)))
  · intro hbr hk
    exact congrArg _ ((whenRunning_running hrun _).trans (finishBreak_low hbr hk))
  · intro hbr hk
    exact congrArg _ ((whenRunning_running hrun _).trans (recoverBreak_recovery hbr hk))

/-- Settles O28: each of the receiver's moves that stores nothing. -/
theorem breakReceptionStoresNothing : Obligations.BreakReceptionStoresNothing := by
  intro n data parityBit c s hrun hc
  subst hc
  refine ⟨fun h => ⟨?_, ?_⟩, fun h hlow => ?_, fun h stopBit => ?_, fun h => ?_, fun h => ?_⟩
  · exact congrArg _ ((whenRunning_running hrun _).trans (confirmStart_taken h .low))
  · exact congrArg _ ((whenRunning_running hrun _).trans (confirmStart_taken h .high))
  · refine congrArg _ ((whenRunning_running hrun _).trans ?_)
    rw [receiveCharacter_taken h, if_pos hlow, State.modConsole, Per4.modify, Console.countErrors,
      parityError_allLow hlow]
    simp only [decide_eq_true_eq]
    rfl
  · exact congrArg _ ((whenRunning_running hrun _).trans (receiveCharacter_ignored h data parityBit stopBit))
  · exact congrArg _ ((whenRunning_running hrun _).trans (recognizeBreak_held h))
  · exact congrArg _ ((whenRunning_running hrun _).trans (if_pos h))

/-- Settles O27: either kind of character is one byte captured behind the receiver's own change. -/
theorem characterIsStoredAndHistoryGrows : Obligations.CharacterIsStoredAndHistoryGrows := by
  refine ⟨?_, ?_⟩
  · intro n cmd data stored parityBit stopBit wrong c p i s hrun hc hcmd hl hfull hdone hflood
    subst hc
    have hexec : exec cmd s = .next (captureByte n stored (s.modConsole n (Console.took wrong stopBit))) := by
      rcases hcmd with ⟨rfl, hrec, hdata, rfl, rfl⟩ | ⟨rfl, hrec, rfl, rfl, rfl⟩
      · exact exec_characterReceived hrun hrec hdata
      · exact exec_heldCharacterStored hrun hrec
    rw [hexec, captureByte_quiet (s := s.modConsole n (Console.took wrong stopBit))
      (Per4.get_modify_same s.consoles n _).symm hl hfull hdone hflood, State.modConsole, Per4.modify, Per4.set_set]
    rfl
  · intro n data c p q i s hrun hc hrec hbits hparity hl hfull hheld hq hlow hdone hflood
    subst hc
    have hdata : allLow (s.consoles.get n).settings data true true = false := by simp [allLow]
    have hstored : storedByte (s.consoles.get n).settings data = data := by simp [storedByte, hbits]
    have hright : parityError (s.consoles.get n).settings data true = false := by simp [parityError, hparity]
    rw [exec_characterReceived hrun (.inr (.inl hrec)) hdata, hstored, hright,
      captureByte_grows (s := s.modConsole n (Console.took false true)) (Per4.get_modify_same s.consoles n _).symm hl hfull
        hheld (lowestFree_eq hq hlow) hdone hflood, State.modConsole, Per4.modify, Per4.set_set]
    rfl

/-- Settles O29: the cursor is left behind exactly where it lies among the characters that leave. -/
theorem oldestPageLeavesWithItsMarks : Obligations.OldestPageLeavesWithItsMarks := by
  intro n c d s hc hheld hspan hd
  have heq := oldestPageLeaves_eq hc hheld hspan hd
  refine ⟨fun h => ?_, fun x h hge hle => ?_, fun x h hlt hf => ?_, fun x h hlt hf => ?_⟩
  · rw [heq, h]
    rfl
  · have hx : (x - (c.oldest + 512)).toNat < 2 ^ 31 := by
      rw [span_advanced hge]
      omega
    rw [heq, h]
    exact if_pos hx
  · rw [heq, h]
    dsimp only
    rw [if_neg (Nat.not_lt_of_le (span_wrapped hlt)), if_pos hf]
    rfl
  · rw [heq, h]
    dsimp only
    rw [if_neg (Nat.not_lt_of_le (span_wrapped hlt)), if_neg (by simp [hf])]
    rfl
end

section
/-!
SUPPORT. The form that a step keeps (O5, O9): the canonical memories, the bounds of the link's queues, the sizes of marks
and FIFOs, and the span of each history on its pages. `KeepsForm` says it of a state on the way from the state a step began
in, so that the lemmas chain: what an operation does to a state that keeps the form keeps it.
-/

namespace Sys2Proof.Machine

/-! ## The laws, part by part -/

/-- R176 to R180, R184: what the link must meet. -/
def LinkFits (k : Link) : Prop :=
  k.replies.length ≤ replyRoom ∧ k.notices.length ≤ noticeRoom ∧ k.lost ≤ lostMax ∧ k.runCount ≤ 15
    ∧ (∀ e ∈ k.notices, e.lostBefore ≤ lostMax) ∧ (k.waiting ≠ [] → k.replies.length = replyRoom) ∧ k.occupied.Nodup

/-- R49, R53: what a console's lists must meet. -/
def ConsoleFits (c : Console) : Prop := c.marks.length ≤ markRoom ∧ c.fifo.length ≤ fifoRoom

/-- R46, R60: what a history must meet. -/
def HistoryFits (c : Console) : Prop := c.heldSpan < blockSize * c.pages.length ∧ c.cursorLead ≤ c.heldSpan

/-- The state `t`, on the way of a step from `s`, keeps the form: each law holds in it if it held in `s`, that of the
histories where the pool's law held too. -/
structure KeepsForm (s t : State) : Prop where
  memory : MemoryLaw s → MemoryLaw t
  link : LinkLaw s → LinkFits t.link
  consoles : ConsoleLaw s → ∀ n, ConsoleFits (t.consoles.get n)
  history : PoolLaw s → HistoryLaw s → ∀ n, HistoryFits (t.consoles.get n)

section
variable {s t u : State} {n : Node}

theorem KeepsForm.refl (s : State) : KeepsForm s s := ⟨id, id, id, fun _ => id⟩

/-! ## The updates -/

/-- What the form speaks of. -/
def State.inForm (t : State) : Per4 Console × List Host.Cell × List Host.Cell × Link :=
  (t.consoles, t.ram, t.loader.eeprom, t.link)

/-- What the form does not speak of may change. -/
protected theorem KeepsForm.same (h : KeepsForm s t) (e : u.inForm = t.inForm) : KeepsForm s u := by
  obtain ⟨hc, hr, he, hl⟩ : u.consoles = t.consoles ∧ u.ram = t.ram ∧ u.loader.eeprom = t.loader.eeprom ∧ u.link = t.link := by
    simpa [State.inForm] using e
  refine ⟨fun hs => ?_, fun hs => ?_, fun hs => ?_, fun hp hs => ?_⟩
  · rw [MemoryLaw, hr, he]
    exact h.memory hs
  · rw [hl]
    exact h.link hs
  · rw [hc]
    exact h.consoles hs
  · rw [hc]
    exact h.history hp hs

/-- The consoles may change, each from one that fits to one that fits. -/
theorem KeepsForm.withConsoles (h : KeepsForm s t) {x : Per4 Console}
    (hc : ∀ n, ConsoleFits (t.consoles.get n) → ConsoleFits (x.get n))
    (hh : ∀ n, HistoryFits (t.consoles.get n) → HistoryFits (x.get n)) : KeepsForm s { t with consoles := x } where
  memory := h.memory
  link := h.link
  consoles hs n := hc n (h.consoles hs n)
  history hp hs n := hh n (h.history hp hs n)

/-- One console may change, from one that fits to one that fits. -/
protected theorem KeepsForm.modConsole {f : Console → Console} (h : KeepsForm s t)
    (hc : ConsoleFits (t.consoles.get n) → ConsoleFits (f (t.consoles.get n)))
    (hh : HistoryFits (t.consoles.get n) → HistoryFits (f (t.consoles.get n))) :
    KeepsForm s (t.modConsole n f) := by
  refine h.withConsoles (fun m hm => ?_) fun m hm => ?_ <;> rw [Per4.get_modify] <;> split_ifs with e
  · subst e
    exact hc hm
  · exact hm
  · subst e
    exact hh hm
  · exact hm

protected theorem KeepsForm.modLink {f : Link → Link} (h : KeepsForm s t)
    (hf : LinkFits t.link → LinkFits (f t.link)) : KeepsForm s (t.modLink f) :=
  { h with link := fun hs => hf (h.link hs) }

/-- Bytes may be written into the pool memory. -/
theorem KeepsForm.writeRam (h : KeepsForm s t) (a : Nat) (bytes : List Byte) :
    KeepsForm s (t.modRam fun m => Memory.write ramDefault m a bytes) :=
  { h with memory := fun hs => ⟨Memory.write_wf (h.memory hs).1 a bytes, (h.memory hs).2⟩ }

/-- The loader's record may change where its memory stays canonical. -/
protected theorem KeepsForm.modLoader {f : Loader → Loader} (h : KeepsForm s t)
    (hf : Memory.wf eepromDefault t.loader.eeprom → Memory.wf eepromDefault (f t.loader).eeprom) :
    KeepsForm s (t.modLoader f) :=
  { h with memory := fun hs => ⟨(h.memory hs).1, hf (h.memory hs).2⟩ }

/-- Either of two states that keep the form. -/
protected theorem KeepsForm.ite {c : Prop} [Decidable c] (h : KeepsForm s t) (h' : KeepsForm s u) :
    KeepsForm s (if c then t else u) := by
  split
  · exact h
  · exact h'

/-- An operation served over a list keeps the form where each serving does. -/
protected theorem KeepsForm.foldl {α : Type} {f : State → α → State} {l : List α}
    (hf : ∀ {t a}, KeepsForm s t → KeepsForm s (f t a)) (h : KeepsForm s t) : KeepsForm s (l.foldl f t) := by
  induction l generalizing t with
  | nil => exact h
  | cons a l ih => exact ih (hf h)

/-- An operation served in a free order likewise. -/
protected theorem KeepsForm.inFreeOrder {α : Type} {l : List α} {f : α → State → State}
    (hf : ∀ {a t}, KeepsForm s t → KeepsForm s (f a t)) (h : KeepsForm s t) : KeepsForm s (t.inFreeOrder l f) :=
  KeepsForm.foldl (f := fun t x => f x t) hf (h.same rfl)

protected theorem KeepsForm.whenRunning {f : State → State} (hf : ∀ {t}, KeepsForm s t → KeepsForm s (f t))
    (h : KeepsForm s t) : KeepsForm s (t.whenRunning f) :=
  KeepsForm.ite (hf h) h

/-! ## The queues of the link (R178 to R180) -/

theorem linkFits_addReply (r : Reply) {k : Link} (h : LinkFits k) : LinkFits (k.addReply r) := by
  obtain ⟨hr, hn, hl, hc, he, hw, ho⟩ := h
  by_cases hfree : k.replies.length < replyRoom ∧ k.waiting = []
  · rw [Link.addReply_free r k hfree.1 hfree.2]
    exact ⟨by simpa using hfree.1, hn, hl, hc, he, fun h => absurd hfree.2 h, ho⟩
  · rw [Link.addReply_full r k hfree]
    refine ⟨hr, hn, hl, hc, he, fun _ => ?_, ho⟩
    by_cases hwait : k.waiting = []
    · exact Nat.le_antisymm hr (Nat.le_of_not_lt fun hlt => hfree ⟨hlt, hwait⟩)
    · exact hw hwait

/-- R180: an update of an unsent entry keeps the lost-before counts bounded. -/
theorem updateNotice_lostBefore {new : Notice} {lost : Nat} : ∀ {l es : List NoticeEntry},
    updateNotice new lost l = some es → (∀ e ∈ l, e.lostBefore ≤ lostMax) → ∀ e ∈ es, e.lostBefore ≤ lostMax
  | [], _, h, _ => by simp [updateNotice] at h
  | x :: rest, es, h, hl => by
    obtain ⟨hx, hrest⟩ := List.forall_mem_cons.mp hl
    unfold updateNotice at h
    split at h
    · obtain rfl := Option.some.inj h
      exact List.forall_mem_cons.mpr ⟨Nat.min_le_left _ _, hrest⟩
    · obtain ⟨es', h', rfl⟩ := Option.map_eq_some_iff.mp h
      exact List.forall_mem_cons.mpr ⟨hx, updateNotice_lostBefore h' hrest⟩

theorem linkFits_addNotice (new : Notice) {k : Link} (h : LinkFits k) : LinkFits (k.addNotice new) := by
  obtain ⟨hr, hn, hl, hc, he, hw, ho⟩ := h
  have hbounds := Link.addNotice_bounds new k hn
  rcases Link.addNotice_cases new k with ⟨es, hu, e⟩ | ⟨-, -, e⟩ | ⟨-, -, e⟩ <;> rw [e] at hbounds ⊢
  · exact ⟨hr, hbounds.1, hbounds.2, hc, updateNotice_lostBefore hu he, hw, ho⟩
  · refine ⟨hr, hbounds.1, hbounds.2, hc, fun x hx => ?_, hw, ho⟩
    rcases List.mem_append.mp hx with hx | hx
    · exact he x hx
    · rw [List.mem_singleton.mp hx]
      exact hl
  · exact ⟨hr, hbounds.1, hbounds.2, hc, he, hw, ho⟩

protected theorem KeepsForm.addReply {r : Reply} (h : KeepsForm s t) : KeepsForm s (t.modLink (Link.addReply r)) :=
  h.modLink (linkFits_addReply r)

protected theorem KeepsForm.reply {tag : Tag} {kind : Byte} {r : Result} {d : List Byte} (h : KeepsForm s t) :
    KeepsForm s (t.reply tag kind r d) := h.addReply

protected theorem KeepsForm.notify {x : Notice} (h : KeepsForm s t) : KeepsForm s (t.notify x) :=
  h.modLink (linkFits_addNotice x)

protected theorem KeepsForm.mark {k : MarkKind} (h : KeepsForm s t) : KeepsForm s (t.mark n k) :=
  h.modConsole (fun ⟨hm, hf⟩ => ⟨Console.addMark_length k _ hm, hf⟩) id

end

end Sys2Proof.Machine
end

section
/-!
SUPPORT. What the Boot Supervisor and the Power Sequencer do keeps the form (`KeepsForm`).
-/

namespace Sys2Proof.Machine

section
variable {s t u : State} {n : Node}

/-! ## The supervisor's moves -/

protected theorem KeepsForm.bootProgress (h : KeepsForm s t) : KeepsForm s (bootProgress n t) := h.notify

protected theorem KeepsForm.recoveryNotice {e : RecoveryEvent} {k : Option RecoveryKind} (h : KeepsForm s t) :
    KeepsForm s (recoveryNotice n e k t) := h.notify

/-- A line goes to an owner. -/
protected theorem KeepsForm.takeLine {l : LineId} {o : Owner} (h : KeepsForm s t) (e : takeLine n l o t = some u) :
    KeepsForm s u := by
  obtain ⟨-, rfl⟩ := takeLine_eq_some.mp e
  exact h.same rfl

protected theorem KeepsForm.releaseBootSelect (h : KeepsForm s t) : KeepsForm s (releaseBootSelect n t) := by
  rcases releaseBootSelect_cases n t with ⟨l, -, e⟩ | ⟨-, e⟩ <;> rw [e] <;> exact h.same rfl

protected theorem KeepsForm.arm (h : KeepsForm s t) : KeepsForm s (arm n t) :=
  KeepsForm.bootProgress (t := enterWatching n 0 (t.clearPartials n)) (h.same rfl)

/-- The supervisor goes to a state and says so. -/
protected theorem KeepsForm.supTo_bootProgress {st : SupState} (h : KeepsForm s t) :
    KeepsForm s (bootProgress n (supTo n st t)) :=
  KeepsForm.bootProgress (t := supTo n st t) (h.same rfl)

protected theorem KeepsForm.supTo_recoveryNotice {st : SupState} {e : RecoveryEvent} {k : Option RecoveryKind}
    (h : KeepsForm s t) : KeepsForm s (recoveryNotice n e k (supTo n st t)) :=
  KeepsForm.recoveryNotice (t := supTo n st t) (h.same rfl)

protected theorem KeepsForm.armingCause {entry : Bool} (h : KeepsForm s t) : KeepsForm s (armingCause n entry t) := by
  unfold armingCause
  split
  · exact h
  · exact h.ite h.arm
  all_goals exact h.supTo_bootProgress.ite h.arm

protected theorem KeepsForm.supStarted {k : RecoveryKind} (h : KeepsForm s t) : KeepsForm s (supStarted n k t) :=
  KeepsForm.recoveryNotice (t := t.modSupervisor n fun v => { v with state := .recovering true }) (h.same rfl)

protected theorem KeepsForm.supResult {kind : ActionKind} {r : ActionResult} (h : KeepsForm s t) :
    KeepsForm s (supResult n kind r t) := by
  cases r with
  | done | doneUnconfirmed => exact h
  | timeout | noLine => exact h.supTo_recoveryNotice.ite h
  | preempted => exact h.supTo_recoveryNotice

/-! ## Actions start and complete -/

protected theorem KeepsForm.setSlot {k : Option RecoveryKind} (h : KeepsForm s t) : KeepsForm s (t.setSlot n k) := h.same rfl

protected theorem KeepsForm.setAction {a : Option Action} (h : KeepsForm s t) : KeepsForm s (t.setAction n a) := h.same rfl

protected theorem KeepsForm.cancelPending {k : ActionKind} (h : KeepsForm s t) : KeepsForm s (cancelPending n k t) := by
  unfold cancelPending
  split
  · exact h
  · exact h.setSlot.supTo_recoveryNotice.ite h.setSlot

protected theorem KeepsForm.enterPhase {a : Action} {st : ActionState} (h : KeepsForm s t) :
    KeepsForm s (enterPhase n a st t) := by
  rcases enterPhase_cases n a st t with e | ⟨l, u, hu, e⟩ <;> rw [e]
  · exact h.setAction
  · exact (h.takeLine hu).same rfl

protected theorem KeepsForm.releaseHeld {a : Action} (h : KeepsForm s t) : KeepsForm s (releaseHeld n a t) := by
  rcases releaseHeld_cases n a t with ⟨l, -, e⟩ | ⟨-, e⟩ <;> rw [e]
  · exact h.same rfl
  · exact h

protected theorem KeepsForm.startAction {kind : ActionKind} {o : Originator} {escalate : Bool} (h : KeepsForm s t) :
    KeepsForm s (startAction n kind o escalate t) :=
  h.enterPhase.mark.ite h.enterPhase

protected theorem KeepsForm.startRecovery {k : RecoveryKind} (h : KeepsForm s t) : KeepsForm s (startRecovery n k t) :=
  h.mark.startAction.supStarted

protected theorem KeepsForm.startPending (h : KeepsForm s t) : KeepsForm s (startPending n t) := by
  rcases startPending_cases n t with ⟨-, e⟩ | ⟨k, -, e | e | e⟩ <;> rw [e]
  · exact h
  · exact h.setSlot.supTo_recoveryNotice
  · exact h.setSlot.supTo_bootProgress
  · exact h.setSlot.startRecovery

protected theorem KeepsForm.requestRecovery {k : RecoveryKind} (h : KeepsForm s t) :
    KeepsForm s (requestRecovery n k t) := by
  unfold requestRecovery
  split
  · exact h.supTo_recoveryNotice
  · exact h.supTo_bootProgress
  · split
    · exact h.setSlot
    · exact h.startRecovery

protected theorem KeepsForm.endAction {a : Action} {r : ActionResult} (h : KeepsForm s t) :
    KeepsForm s (endAction n a r t) := by
  unfold endAction
  dsimp only
  split
  · exact h.releaseHeld.setAction.reply
  · exact h.releaseHeld.setAction.supResult

protected theorem KeepsForm.complete {r : ActionResult} (h : KeepsForm s t) : KeepsForm s (complete n r t) := by
  rcases complete_cases n r t with ⟨-, e⟩ | ⟨a, u, -, rfl, ⟨-, e⟩ | ⟨-, e⟩⟩ <;> rw [e]
  · exact h
  · exact h.endAction.armingCause.ite h.endAction
  · exact (h.endAction.armingCause.ite h.endAction).startPending

/-! ## The ends of phases (R23 to R29) -/

protected theorem KeepsForm.retake {a : Action} {st : ActionState} (h : KeepsForm s t) : KeepsForm s (retake n a st t) := by
  unfold retake
  split
  · exact h.setAction.complete
  · exact h.enterPhase

protected theorem KeepsForm.pressEnds {a : Action} (h : KeepsForm s t) : KeepsForm s (pressEnds n a t) :=
  h.releaseHeld.complete.ite
    ((h.releaseHeld.complete.ite h.releaseHeld.enterPhase).ite (h.releaseHeld.complete.ite h.releaseHeld.enterPhase))

protected theorem KeepsForm.softEnds {a : Action} (h : KeepsForm s t) : KeepsForm s (softEnds n a t) := by
  refine KeepsForm.ite ?_ h.complete
  split
  · exact h.setAction.complete
  · exact h.enterPhase.complete.ite h.enterPhase

protected theorem KeepsForm.holdEnds {a : Action} (h : KeepsForm s t) : KeepsForm s (holdEnds n a t) :=
  h.releaseHeld.complete.ite (h.releaseHeld.enterPhase.ite h.releaseHeld.complete)

protected theorem KeepsForm.restEnds {a : Action} (h : KeepsForm s t) : KeepsForm s (restEnds n a t) :=
  h.complete.ite h.retake

protected theorem KeepsForm.sequencerHears {p : PowerState} (h : KeepsForm s t) : KeepsForm s (sequencerHears n p t) := by
  unfold sequencerHears
  split
  · exact h
  · refine h.ite ?_
    split
    · exact h.complete
    · exact h.complete
    · exact h.releaseHeld.enterPhase.ite h.releaseHeld.complete
    · exact h.setAction.complete.ite h.setAction
    · exact h

/-! ## The power watch -/

protected theorem KeepsForm.endWatch {r : Result} (h : KeepsForm s t) : KeepsForm s (endWatch r t) := by
  unfold endWatch
  split
  · exact h
  · exact KeepsForm.reply (t := t.modPower fun p => { p with watch := none }) (h.same rfl)

protected theorem KeepsForm.watchHears (h : KeepsForm s t) : KeepsForm s (watchHears t) := by
  unfold watchHears
  split
  · exact h
  · exact h.ite h.endWatch

/-! ## Failures, stages and the matchers -/

protected theorem KeepsForm.modSupervisor {f : Supervisor → Supervisor} (h : KeepsForm s t) :
    KeepsForm s (t.modSupervisor n f) := h.same rfl

protected theorem KeepsForm.fallback {b : Bool} (h : KeepsForm s t) : KeepsForm s (fallback n b t) := by
  rcases fallback_cases n b t with e | ⟨l, u, hu, e⟩ <;> rw [e]
  · exact h
  · exact (h.takeLine hu).same rfl

protected theorem KeepsForm.failure {cause : Cause} (h : KeepsForm s t) : KeepsForm s (failure n cause t) := by
  unfold failure
  dsimp only
  split
  · exact h.modSupervisor.mark.supTo_recoveryNotice
  · exact h.modSupervisor.mark.modSupervisor.fallback.requestRecovery.ite h.modSupervisor.mark.supTo_recoveryNotice

protected theorem KeepsForm.bootComplete (h : KeepsForm s t) : KeepsForm s (bootComplete n t) :=
  KeepsForm.bootProgress
    (KeepsForm.releaseBootSelect (t := (supTo n .complete t).modSupervisor n fun v => { v with attempts := 0 }) (h.same rfl))

protected theorem KeepsForm.stageReported {k j : Nat} (h : KeepsForm s t) : KeepsForm s (stageReported n k j t) :=
  h.ite (KeepsForm.ite (KeepsForm.bootProgress (t := enterWatching n j (t.mark n (.stage j))) (h.mark.same rfl))
    h.mark.bootComplete)

protected theorem KeepsForm.decideCompletions {done : List (Fin 16)} (h : KeepsForm s t) :
    KeepsForm s (decideCompletions n done t) := by
  unfold decideCompletions
  split
  · split
    · exact h.failure
    · split
      · exact h
      · exact h.stageReported
  all_goals exact h

protected theorem KeepsForm.matchByte {b : Byte} (h : KeepsForm s t) : KeepsForm s (matchByte n b t) :=
  KeepsForm.decideCompletions (t := advancePartials n b t) (h.same rfl)

protected theorem KeepsForm.supervisorHears {p : PowerState} (h : KeepsForm s t) :
    KeepsForm s (supervisorHears n p t) := by
  unfold supervisorHears
  split
  · exact h.armingCause
  · exact h
  · split
    · exact h.ite h.supTo_bootProgress
    · exact h.ite h.supTo_bootProgress
    all_goals exact h

end

end Sys2Proof.Machine
end

section
/-!
SUPPORT. What the Page Pool Manager, the Cache and Fetch Engine, the Node Media Ports and the Media Unit Table do keeps
the form (`KeepsForm`).
-/

namespace Sys2Proof.Machine

section
variable {s t u : State} {n : Node}

/-! ## The oldest page of a history leaves (R48, R84) -/

/-- A console after its oldest page left: the span, the lead and the marks follow. -/
structure PageLeft (c d : Console) : Prop where
  pages : d.pages = c.pages.drop 1
  span : d.heldSpan = c.heldSpan - 512
  lead : c.cursorLead ≤ c.heldSpan → d.cursorLead ≤ d.heldSpan
  marks : d.marks.length ≤ c.marks.length
  fifo : d.fifo = c.fifo

/-- R48, R51: an offset among the characters that leave lies before the new oldest offset, whatever the span. -/
theorem place_left {oldest live x : Word} (h : 512 ≤ (live - oldest).toNat) (hx : (x - oldest).toNat < 512) :
    place (oldest + 512) live x = .beforeOldest := by
  have hspan := span_advanced h
  have hfar : (x - (oldest + 512)).toNat = (x - oldest).toNat + 4294966784 := by
    rw [← BitVec.sub_sub]
    generalize x - oldest = d at hx
    bv_omega
  unfold place
  dsimp only
  rw [hspan, hfar, if_neg (by omega), if_neg (by omega), if_neg (by omega)]

/-- R48: a cursor before the new oldest offset is one that was within the first 512 characters, and moves. -/
theorem consoles_oldestPageLeaves (hspan : 512 ≤ (t.consoles.get n).heldSpan) :
    ∃ d, (oldestPageLeaves n t).consoles = t.consoles.set n d ∧ PageLeft (t.consoles.get n) d := by
  have hleft := span_advanced hspan
  unfold oldestPageLeaves
  dsimp only
  cases hx : (t.consoles.get n).cursor with
  | none =>
    exact ⟨_, rfl, rfl, hleft, fun _ => by simp [Console.cursorLead], List.length_filter_le _ _, rfl⟩
  | some x =>
    dsimp only
    split_ifs with hb hf
    · exact ⟨_, rfl, rfl, hleft, fun _ => by simp [Console.cursorLead], List.length_filter_le _ _, rfl⟩
    · exact ⟨_, rfl, rfl, hleft, fun _ => by simp [Console.cursorLead], List.length_filter_le _ _, rfl⟩
    · refine ⟨_, rfl, rfl, hleft, fun hlead => ?_, List.length_filter_le _ _, rfl⟩
      simp only [Console.cursorLead, hx, Console.heldSpan] at hlead hspan ⊢
      have hafter : 512 ≤ (x - (t.consoles.get n).oldest).toNat := by
        by_contra hlt
        exact hb (place_left hspan (Nat.lt_of_not_le hlt))
      rw [hleft, span_advanced hafter]
      omega

/-- R84: a console with an evictable page holds at least the characters of one. -/
theorem span_of_evictable {p : PageId} (h : evictable t (.ch n) = some p) : 512 ≤ (t.consoles.get n).heldSpan := by
  by_contra hlt
  exact absurd ((if_neg hlt).symm.trans h) (by simp)

/-- R83: the better of the best source so far and a holder. -/
def betterSource (t : State) (h : Holder) (best : Option (Holder × PageId)) (g : Holder) : Option (Holder × PageId) :=
  if g = h ∨ excess t g = 0 then best
  else
    match evictable t g, best with
    | none, b => b
    | some p, none => some (g, p)
    | some p, some (g', p') => if excess t g' < excess t g then some (g, p) else some (g', p')

theorem reclaimSource_eq (t : State) (h : Holder) : reclaimSource t h = allHolders.foldl (betterSource t h) none := rfl

/-- R83: the better source, too, has an evictable page. -/
theorem betterSource_evictable {h a g : Holder} {p : PageId} {best : Option (Holder × PageId)}
    (hb : ∀ g p, best = some (g, p) → evictable t g = some p) (e : betterSource t h best a = some (g, p)) :
    evictable t g = some p := by
  unfold betterSource at e
  split_ifs at e
  · exact hb g p e
  · split at e
    · exact hb g p e
    · cases e
      assumption
    · split_ifs at e
      · cases e
        assumption
      · exact hb g p e

/-- R83: the source of a reclamation has an evictable page. -/
theorem evictable_of_reclaimSource {h g : Holder} {p : PageId} (e : reclaimSource t h = some (g, p)) :
    evictable t g = some p := by
  rw [reclaimSource_eq] at e
  exact List.foldlRecOn (motive := fun best => ∀ g p, best = some (g, p) → evictable t g = some p) allHolders
    (betterSource t h) (by simp) (fun _ hb _ _ _ _ => betterSource_evictable hb) g p e

/-! ## The pool (R80 to R87) -/

/-- R48: a console whose oldest page left fits as it did. -/
theorem PageLeft.consoleFits {c d : Console} (h : PageLeft c d) (hc : ConsoleFits c) : ConsoleFits d := by
  obtain ⟨hm, hf⟩ := hc
  exact ⟨le_trans h.marks hm, by rwa [h.fifo]⟩

theorem PageLeft.historyFits {c d : Console} (h : PageLeft c d) (hspan : 512 ≤ c.heldSpan) (hc : HistoryFits c) :
    HistoryFits d := by
  obtain ⟨hs, hl⟩ := hc
  refine ⟨?_, h.lead hl⟩
  rw [h.span, h.pages, List.length_drop]
  simp only [blockSize] at hs ⊢
  omega

protected theorem KeepsForm.oldestPageLeaves (h : KeepsForm s t) (hspan : 512 ≤ (t.consoles.get n).heldSpan) :
    KeepsForm s (oldestPageLeaves n t) := by
  obtain ⟨d, hd, hleft⟩ := consoles_oldestPageLeaves hspan
  obtain ⟨-, -, -, -, hram, -, -, -, -, -, hloader⟩ := oldestPageLeaves_frame n t
  have hlink : LinkFits t.link → LinkFits (oldestPageLeaves n t).link := by
    unfold oldestPageLeaves
    dsimp only
    split
    · exact id
    · split_ifs
      · exact id
      · exact linkFits_addNotice _
      · exact id
  refine ⟨fun hs => ?_, fun hs => hlink (h.link hs), fun hs => ?_, fun hp hs => ?_⟩
  · rw [MemoryLaw, hram, hloader]
    exact h.memory hs
  · rw [hd]
    exact Per4.forall_set (h.consoles hs) (hleft.consoleFits (h.consoles hs n))
  · rw [hd]
    exact Per4.forall_set (h.history hp hs) (hleft.historyFits hspan (h.history hp hs n))

protected theorem KeepsForm.leaveContent {g : Holder} {p : PageId} (h : KeepsForm s t) (e : evictable t g = some p) :
    KeepsForm s (leaveContent g p t) := by
  cases g with
  | ch n => exact h.oldestPageLeaves (span_of_evictable e)
  | mh u => exact h.same rfl

protected theorem KeepsForm.allocate {g : Holder} {why : Purpose} (h : KeepsForm s t) :
    KeepsForm s (allocate g why t).2 := by
  rcases allocate_cases g why t with ⟨p, -, -, e⟩ | ⟨v, p, hr, -, e⟩ | ⟨p, -, he, -, e⟩ | e <;> rw [e]
  · exact h.same rfl
  · exact (h.leaveContent (evictable_of_reclaimSource hr)).same rfl
  · exact (h.leaveContent he).same rfl
  · exact h.same rfl

/-- The state that an allocation leaves, by its two outcomes. -/
theorem KeepsForm.of_allocate {g : Holder} {why : Purpose} {p : Option PageId} (h : KeepsForm s t)
    (e : allocate g why t = (p, u)) : KeepsForm s u := by
  have := h.allocate (g := g) (why := why)
  rwa [e] at this

protected theorem KeepsForm.freePage {p : PageId} (h : KeepsForm s t) : KeepsForm s (freePage p t) := h.same rfl

/-! ## Ports and fetches (R112, R124, R132 to R136) -/

protected theorem KeepsForm.modPort {f : Port → Port} (h : KeepsForm s t) : KeepsForm s (t.modPort n f) := h.same rfl

protected theorem KeepsForm.modCache {f : Cache → Cache} (h : KeepsForm s t) : KeepsForm s (t.modCache f) := h.same rfl

protected theorem KeepsForm.modUnit {v : UnitId} {f : MediaUnit → MediaUnit} (h : KeepsForm s t) :
    KeepsForm s (t.modUnit v f) := h.same rfl

protected theorem KeepsForm.modRecord {p : PageId} {f : DirRecord → DirRecord} (h : KeepsForm s t) :
    KeepsForm s (modRecord p f t) := h.same rfl

protected theorem KeepsForm.addRecord {r : DirRecord} (h : KeepsForm s t) : KeepsForm s (addRecord r t) := h.same rfl

protected theorem KeepsForm.endCommand {st : Status} (h : KeepsForm s t) : KeepsForm s (endCommand n st t) := by
  unfold endCommand
  split
  · exact h
  · exact h.same rfl

protected theorem KeepsForm.setAttention (h : KeepsForm s t) : KeepsForm s (setAttention n t) := h.same rfl

/-- The law of the link does not speak of its calls. -/
protected theorem KeepsForm.modCalls {f : List Call → List Call} (h : KeepsForm s t) :
    KeepsForm s (t.modLink fun k => { k with calls := f k.calls }) := h.modLink id

protected theorem KeepsForm.allocFetch {v : UnitId} {first count : Nat} (h : KeepsForm s t) :
    KeepsForm s (allocFetch v first count t) := by
  unfold allocFetch
  split
  · exact h
  · exact h.modCache.modCalls (f := fun l => l ++ _)

protected theorem KeepsForm.freeFetchEntry {i : Fin 16} (h : KeepsForm s t) : KeepsForm s (freeFetchEntry i t) :=
  h.modCache.modCalls (f := fun l => l.filter _)

protected theorem KeepsForm.copyToSlot {r : DirRecord} (h : KeepsForm s t) : KeepsForm s (copyToSlot n r t) := h.same rfl

protected theorem KeepsForm.collectPages {v : UnitId} {last k x : Nat} (h : KeepsForm s t) :
    KeepsForm s (collectPages v last k x t).2 := by
  induction k generalizing x t with
  | zero => exact h
  | succ k ih =>
    unfold collectPages
    split
    · exact h
    · split
      · rename_i e
        exact h.of_allocate e
      · rename_i e
        exact ih (h.of_allocate e).addRecord

protected theorem KeepsForm.demandFetch {v : UnitId} {x last : Nat} (h : KeepsForm s t) :
    KeepsForm s (demandFetch n v x last t) :=
  h.collectPages.endCommand.ite h.collectPages.allocFetch.modPort

protected theorem KeepsForm.stage {k : Nat} (h : KeepsForm s t) : KeepsForm s (stage n k t) := by
  induction k generalizing t with
  | zero => exact h
  | succ k ih =>
    unfold stage
    dsimp only
    split
    · exact h
    · refine KeepsForm.ite ?_ h
      split
      · exact h
      · split
        · exact h.modPort.ite (ih h.copyToSlot)
        · exact h.demandFetch.ite h.modCache.modPort

protected theorem KeepsForm.serveEntryWait {k : Nat} (h : KeepsForm s t) : KeepsForm s (serveEntryWait k t) := by
  induction k generalizing t with
  | zero => exact h
  | succ k ih =>
    unfold serveEntryWait
    split
    · exact h
    · exact KeepsForm.ite (ih h.modCache.modPort.stage) h

protected theorem KeepsForm.servePorts {v : UnitId} {lba : Nat} (h : KeepsForm s t) : KeepsForm s (servePorts v lba t) := by
  unfold servePorts
  split
  · exact h
  · exact KeepsForm.inFreeOrder KeepsForm.stage (KeepsForm.foldl KeepsForm.copyToSlot h)

/-! ## Read-ahead (R141, R142) -/

protected theorem KeepsForm.flushRun {v : UnitId} {x run : Nat} (h : KeepsForm s t) : KeepsForm s (flushRun v x run t) :=
  h.ite h.allocFetch

protected theorem KeepsForm.readAheadFrom {v : UnitId} {stop k x run : Nat} (h : KeepsForm s t) :
    KeepsForm s (readAheadFrom v stop k x run t) := by
  induction k generalizing x run t with
  | zero => exact h.flushRun
  | succ k ih =>
    refine h.flushRun.ite (KeepsForm.ite (ih h.flushRun) (h.ite ?_))
    split
    · rename_i e
      exact (h.of_allocate e).flushRun
    · rename_i p u e
      have hpage : KeepsForm s (addRecord (fillingRecord v x p) u) := (h.of_allocate e).addRecord
      exact KeepsForm.ite (ih hpage.flushRun) (ih hpage)

protected theorem KeepsForm.readAhead {a : ActiveCommand} (h : KeepsForm s t) : KeepsForm s (readAhead n a t) := by
  unfold readAhead
  split
  · exact h
  · exact h.readAheadFrom.ite h

/-! ## Stores and writes (R120, R143 to R147) -/

protected theorem KeepsForm.issueStore {i : Fin 8} {v : UnitId} {d : DirtyPage} (h : KeepsForm s t) :
    KeepsForm s (issueStore i v d t) := h.modCache.modRecord.modCalls (f := fun l => l ++ _)

protected theorem KeepsForm.issueStores {k : Nat} (h : KeepsForm s t) : KeepsForm s (issueStores k t) := by
  induction k generalizing t with
  | zero => exact h
  | succ k ih =>
    unfold issueStores
    split
    · exact ih h.issueStore
    · exact h

protected theorem KeepsForm.freeStoreEntry {i : Fin 8} (h : KeepsForm s t) : KeepsForm s (freeStoreEntry i t) :=
  h.modCache.modCalls (f := fun l => l.filter _)

protected theorem KeepsForm.joinDirty {v : UnitId} {p : PageId} (h : KeepsForm s t) : KeepsForm s (joinDirty v p t) := h.same rfl

protected theorem KeepsForm.writePage {p : PageId} {data : List Byte} (h : KeepsForm s t) :
    KeepsForm s (writePage p data t) := h.writeRam _ _

protected theorem KeepsForm.makeDirty {v : UnitId} {p : PageId} {data : List Byte} (h : KeepsForm s t) :
    KeepsForm s (makeDirty v p data t) := h.writePage.modRecord.joinDirty

protected theorem KeepsForm.overtake {v : UnitId} {lba : Nat} {p : PageId} {data : List Byte} (h : KeepsForm s t) :
    KeepsForm s (overtake v lba p data t) := h.makeDirty.modCache.servePorts

protected theorem KeepsForm.offer (h : KeepsForm s t) : KeepsForm s (offer n t).2 := by
  unfold offer
  split
  · dsimp only
    split
    · split
      · exact h.writePage
      · exact h.writePage.modRecord
      · split
        · exact h
        · exact h.makeDirty
      · split
        · exact h
        · exact h.overtake
    · split
      · exact h
      · split
        · rename_i e
          exact h.of_allocate e
        · rename_i e
          exact (h.of_allocate e).addRecord.makeDirty
  · exact h

theorem KeepsForm.of_offer {b : Bool} (h : KeepsForm s t) (e : offer n t = (b, u)) : KeepsForm s u := by
  have := h.offer (n := n)
  rwa [e] at this

protected theorem KeepsForm.acceptBlock (h : KeepsForm s t) : KeepsForm s (acceptBlock n t) := by
  unfold acceptBlock
  split
  · exact h
  · exact h.modPort.endCommand.ite h.modPort

protected theorem KeepsForm.offerBlocks {k : Nat} (h : KeepsForm s t) : KeepsForm s (offerBlocks n k t) := by
  induction k generalizing t with
  | zero => exact h
  | succ k ih =>
    unfold offerBlocks
    split
    · exact h.modPort
    · split
      · rename_i e
        exact ih (h.of_offer e).acceptBlock.issueStores
      · rename_i e
        exact (h.of_offer e).modPort

protected theorem KeepsForm.retryHeld (h : KeepsForm s t) : KeepsForm s (retryHeld t) :=
  KeepsForm.inFreeOrder KeepsForm.offerBlocks h

protected theorem KeepsForm.poolChanged (h : KeepsForm s t) : KeepsForm s (poolChanged t) := h.retryHeld.issueStores

/-! ## Units (R93, R101 to R106) -/

protected theorem KeepsForm.unitNotice {v : UnitId} {cause : UnitCause} (h : KeepsForm s t) :
    KeepsForm s (unitNotice v cause t) := h.notify

protected theorem KeepsForm.faultPorts {v : UnitId} (h : KeepsForm s t) : KeepsForm s (faultPorts v t) := by
  refine KeepsForm.foldl (fun h => ?_) h
  split
  · exact h.endCommand
  · exact h.endCommand
  all_goals exact h

protected theorem KeepsForm.enterStoreFault {v : UnitId} (h : KeepsForm s t) : KeepsForm s (enterStoreFault v t) := by
  unfold enterStoreFault
  dsimp only
  split
  · exact h.modUnit.reply.unitNotice.faultPorts
  · exact h.modUnit.unitNotice.faultPorts

protected theorem KeepsForm.storeFailure {v : UnitId} (h : KeepsForm s t) : KeepsForm s (storeFailure v t) :=
  h.modUnit.enterStoreFault.ite h.modUnit

protected theorem KeepsForm.freeUnitPages {v : UnitId} (h : KeepsForm s t) : KeepsForm s (freeUnitPages v t) := h.same rfl

protected theorem KeepsForm.drainEnds {v : UnitId} (h : KeepsForm s t) : KeepsForm s (drainEnds v t) := by
  unfold drainEnds
  dsimp only
  split
  · exact h.freeUnitPages.modUnit.reply.unitNotice
  · exact h.freeUnitPages.modUnit.unitNotice

/-! ## Answers (R137 to R140, R148, R149) -/

protected theorem KeepsForm.strayAnswer (h : KeepsForm s t) : KeepsForm s (strayAnswer t) :=
  KeepsForm.notify (h.modLink (f := fun k => { k with counters := { k.counters with stray := k.counters.stray + 1 } }) id)

protected theorem KeepsForm.receiveBlock {i : Fin 16} {j : Nat} (h : KeepsForm s t) : KeepsForm s (receiveBlock i j t) := h.same rfl

protected theorem KeepsForm.fetchProgress {i : Fin 16} (h : KeepsForm s t) : KeepsForm s (fetchProgress i t) := by
  unfold fetchProgress
  split
  · exact h.freeFetchEntry.serveEntryWait.ite h
  · exact h

protected theorem KeepsForm.fillPage {v : UnitId} {lba : Nat} {data : List Byte} (h : KeepsForm s t) :
    KeepsForm s (fillPage v lba data t) := by
  unfold fillPage
  split
  · exact h.writePage.modRecord
  · exact h

protected theorem KeepsForm.fillAnswer {tag : Tag} {lba : Nat} {data : List Byte} (h : KeepsForm s t) :
    KeepsForm s (fillAnswer tag lba data t) := by
  unfold fillAnswer
  split
  · exact h.strayAnswer
  · refine h.strayAnswer.ite ?_
    split
    · exact h.strayAnswer
    · exact h.strayAnswer
    · exact h.fillPage.receiveBlock.servePorts.fetchProgress.poolChanged
    · exact h.receiveBlock.fetchProgress

protected theorem KeepsForm.freeBlock {v : UnitId} {lba : Nat} (h : KeepsForm s t) : KeepsForm s (freeBlock v lba t) := by
  unfold freeBlock
  split
  · exact h.freePage
  · exact h

protected theorem KeepsForm.dropFetch {i : Fin 16} {f : Fetch} (h : KeepsForm s t) : KeepsForm s (dropFetch i f t) :=
  (KeepsForm.foldl KeepsForm.freeBlock h).freeFetchEntry

protected theorem KeepsForm.failFetch {i : Fin 16} {f : Fetch} {timedOut : Bool} (h : KeepsForm s t) :
    KeepsForm s (failFetch i f timedOut t) := by
  have hends : ∀ hit : List Node, KeepsForm s (hit.foldl (fun t n => endCommand n .mediumError t) (dropFetch i f t)) :=
    fun _ => KeepsForm.foldl KeepsForm.endCommand h.dropFetch
  have hserved : ∀ {c : Bool} {t : State}, KeepsForm s t → KeepsForm s (if c then t else poolChanged t) :=
    fun h => h.ite h.poolChanged
  exact hserved ((hends _).modUnit.unitNotice.ite (hends _).modUnit).serveEntryWait

protected theorem KeepsForm.fetchFailedAnswer {tag : Tag} (h : KeepsForm s t) : KeepsForm s (fetchFailedAnswer tag t) := by
  unfold fetchFailedAnswer
  split
  · exact h.strayAnswer
  · exact h.failFetch

protected theorem KeepsForm.endFlushes {v : UnitId} (h : KeepsForm s t) : KeepsForm s (endFlushes v t) :=
  (KeepsForm.foldl (fun h => h.endCommand.ite h) h).ite h

protected theorem KeepsForm.storeSucceeds {i : Fin 8} {x : Store} (h : KeepsForm s t) :
    KeepsForm s (storeSucceeds i x t) := by
  have hfree := h.freeStoreEntry (i := i).modUnit (v := x.unit) (f := fun y => { y with consecutive := 0 })
  have hclean := hfree.modRecord (p := x.page) (f := fun r => { r with state := .clean, age := 0 })
  have hdrained : ∀ {t : State}, KeepsForm s t →
      KeepsForm s (if (t.units.get x.unit).state = .draining ∧ dirtyCount t x.unit = 0 then drainEnds x.unit t else t) :=
    fun h => h.drainEnds.ite h
  exact KeepsForm.ite hfree.modRecord.joinDirty.issueStores (hdrained (hclean.modUnit.ite hclean)).endFlushes.poolChanged

protected theorem KeepsForm.storedAnswer {tag : Tag} (h : KeepsForm s t) : KeepsForm s (storedAnswer tag t) := by
  unfold storedAnswer
  split
  · exact h.strayAnswer
  · exact h.storeSucceeds

protected theorem KeepsForm.storeFails {i : Fin 8} {x : Store} (h : KeepsForm s t) : KeepsForm s (storeFails i x t) :=
  h.freeStoreEntry.modRecord.joinDirty.storeFailure.issueStores

protected theorem KeepsForm.storeFailedAnswer {tag : Tag} (h : KeepsForm s t) : KeepsForm s (storeFailedAnswer tag t) := by
  unfold storeFailedAnswer
  split
  · exact h.strayAnswer
  · exact h.storeFails

/-! ## Leaving service (R99, R100, R105, R108) -/

protected theorem KeepsForm.abortPorts {v : UnitId} (h : KeepsForm s t) : KeepsForm s (abortPorts v t) :=
  KeepsForm.foldl KeepsForm.endCommand h

protected theorem KeepsForm.dropFetches {v : UnitId} (h : KeepsForm s t) : KeepsForm s (dropFetches v t) := by
  refine KeepsForm.foldl (fun h => ?_) h
  split
  · exact h.dropFetch.ite h
  · exact h

protected theorem KeepsForm.dropStores {v : UnitId} (h : KeepsForm s t) : KeepsForm s (dropStores v t) := by
  refine KeepsForm.foldl (fun h => ?_) h
  split
  · exact h.freeStoreEntry.ite h
  · exact h

protected theorem KeepsForm.clearNodes {v : UnitId} (h : KeepsForm s t) : KeepsForm s (clearNodes v t) :=
  KeepsForm.foldl (fun h => h.setAttention.releaseBootSelect) h.modUnit

protected theorem KeepsForm.takeOut {v : UnitId} (h : KeepsForm s t) : KeepsForm s (takeOut v t) :=
  h.abortPorts.dropFetches.dropStores.freeUnitPages.clearNodes.modUnit

protected theorem KeepsForm.startDrain {v : UnitId} {tag : Tag} (h : KeepsForm s t) : KeepsForm s (startDrain v tag t) :=
  h.modUnit.abortPorts.dropFetches.clearNodes.modUnit

protected theorem KeepsForm.afterLeaving {before : State} (h : KeepsForm s t) : KeepsForm s (afterLeaving before t) :=
  h.serveEntryWait.poolChanged.ite h.serveEntryWait.issueStores

protected theorem KeepsForm.takeWriteLock {v : UnitId} (h : KeepsForm s t) : KeepsForm s (takeWriteLock n v t) :=
  (KeepsForm.foldl KeepsForm.setAttention h.modUnit).ite h

/-! ## A published power state (R12, R56, R127) -/

protected theorem KeepsForm.portHears {p : PowerState} (h : KeepsForm s t) : KeepsForm s (portHears n p t) := by
  cases p with
  | off => exact h.endCommand.setAttention
  | on | unknown => exact h

protected theorem KeepsForm.consoleHears {p : PowerState} (h : KeepsForm s t) : KeepsForm s (consoleHears n p t) := by
  cases p with
  | off => exact h.modConsole (fun ⟨hm, _⟩ => ⟨hm, Nat.zero_le _⟩) id
  | on | unknown => exact h

protected theorem KeepsForm.powerMark {p : PowerState} (h : KeepsForm s t) : KeepsForm s (powerMark n p t) := by
  cases p with
  | on | off => exact h.mark
  | unknown => exact h

protected theorem KeepsForm.publish {p : PowerState} (h : KeepsForm s t) : KeepsForm s (publish n p t) :=
  h.notify.powerMark.sequencerHears.watchHears.consoleHears.portHears.supervisorHears

protected theorem KeepsForm.modLines {f : Lines → Lines} (h : KeepsForm s t) : KeepsForm s (t.modLines f) := h.same rfl

protected theorem KeepsForm.rederivePower (h : KeepsForm s t) : KeepsForm s (rederivePower n t) :=
  h.ite h.modLines.publish

protected theorem KeepsForm.notifyLines {lines : Per6 Bool} (h : KeepsForm s t) : KeepsForm s (notifyLines n lines t) :=
  h.notify.ite h

end

end Sys2Proof.Machine
end

section
/-!
SUPPORT. What serving a request does keeps the form (`KeepsForm`): CONSOLE CONFIG, CONSOLE SEND and CONSOLE FORWARD at
their console, CLEAR at every block.
-/

namespace Sys2Proof.Machine

section
variable {s t u : State} {n : Node} {tag : Tag} {kind : Byte} {body : List Byte}

protected theorem KeepsForm.badRequest (h : KeepsForm s t) : KeepsForm s (badRequest tag kind t) := h.reply

/-! ## Lines and power (R13 to R16, R19, R21, R35) -/

protected theorem KeepsForm.applyLinesConfig {period : Nat} {xs : List (LineId × LineSettings)} (h : KeepsForm s t) :
    KeepsForm s (applyLinesConfig n period xs t) := h.modLines.notifyLines.rederivePower

protected theorem KeepsForm.serveLinesConfig (h : KeepsForm s t) : KeepsForm s (serveLinesConfig tag body t) := by
  unfold serveLinesConfig
  split
  · split
    · split
      · split
        · exact h.reply
        · exact h.applyLinesConfig.reply
      · exact h.badRequest
    · exact h.badRequest
  · exact h.badRequest

protected theorem KeepsForm.setLines {m values : Per6 Bool} (h : KeepsForm s t) : KeepsForm s (setLines n m values t) := h.same rfl

protected theorem KeepsForm.serveLinesSet (h : KeepsForm s t) : KeepsForm s (serveLinesSet tag body t) := by
  unfold serveLinesSet
  split
  · split
    · split
      · exact h.reply
      · exact h.setLines.reply
    · exact h.badRequest
  · exact h.badRequest

protected theorem KeepsForm.serveLinesRead (h : KeepsForm s t) : KeepsForm s (serveLinesRead tag body t) := by
  unfold serveLinesRead
  split
  · split
    · exact h.reply
    · exact h.badRequest
  · exact h.badRequest

protected theorem KeepsForm.clearFlags {m : Per6 Bool} (h : KeepsForm s t) : KeepsForm s (clearFlags n m t) := h.same rfl

protected theorem KeepsForm.serveLineEventsClear (h : KeepsForm s t) : KeepsForm s (serveLineEventsClear tag body t) := by
  unfold serveLineEventsClear
  split
  · split
    · exact h.clearFlags.reply
    · exact h.badRequest
  · exact h.badRequest

protected theorem KeepsForm.acceptAction {k : ActionKind} {escalate : Bool} (h : KeepsForm s t) :
    KeepsForm s (acceptAction n k tag escalate t) :=
  KeepsForm.ite (h.ite h.cancelPending).startAction.releaseBootSelect (h.ite h.cancelPending).startAction

protected theorem KeepsForm.preemptRunning (h : KeepsForm s t) : KeepsForm s (preemptRunning n t) := by
  unfold preemptRunning
  split
  · exact h.endAction
  · exact h

protected theorem KeepsForm.servePowerAction (h : KeepsForm s t) : KeepsForm s (servePowerAction tag body t) := by
  unfold servePowerAction
  split
  · split
    · split
      · exact h.reply
      · exact h.acceptAction
      · exact h.preemptRunning.acceptAction
    · exact h.badRequest
  · exact h.badRequest

protected theorem KeepsForm.modPower {f : Sequencer → Sequencer} (h : KeepsForm s t) : KeepsForm s (t.modPower f) := h.same rfl

protected theorem KeepsForm.servePowerTimings (h : KeepsForm s t) : KeepsForm s (servePowerTimings tag body t) := by
  unfold servePowerTimings
  split
  · split
    · split
      · exact h.modPower.reply
      · exact h.badRequest
    · exact h.badRequest
  · exact h.badRequest

protected theorem KeepsForm.startWatch {e : Per4 Expected} {timeout : Nat} (h : KeepsForm s t) :
    KeepsForm s (startWatch tag e timeout t) :=
  h.endWatch.modPower.ite h.endWatch.reply

protected theorem KeepsForm.servePowerWatch (h : KeepsForm s t) : KeepsForm s (servePowerWatch tag body t) := by
  unfold servePowerWatch
  split
  · split
    · exact h.startWatch
    · exact h.badRequest
  · exact h.badRequest

/-! ## The console's requests (R41, R52, R54, R55, R57, R73) -/

protected theorem KeepsForm.clearPartials (h : KeepsForm s t) : KeepsForm s (t.clearPartials n) := h.same rfl

protected theorem KeepsForm.applyConsoleConfig {x : ConsoleSettings} (h : KeepsForm s t) :
    KeepsForm s (applyConsoleConfig n x t) :=
  (h.modConsole (f := Console.configure x) id id).mark.clearPartials

protected theorem KeepsForm.serveConsoleConfig (h : KeepsForm s t) : KeepsForm s (serveConsoleConfig tag body t) := by
  unfold serveConsoleConfig
  split
  · split
    · split
      · exact h.applyConsoleConfig.reply
      · exact h.badRequest
    · exact h.badRequest
  · exact h.badRequest

/-- R54: the FIFO takes no more than it has room for. -/
theorem consoleFits_send (bytes : List Byte) {c : Console} (h : ConsoleFits c) : ConsoleFits (c.send bytes) := by
  obtain ⟨hm, hf⟩ := h
  refine ⟨hm, ?_⟩
  rw [send_eq, List.length_append, List.length_take]
  simp only [fifoRoom] at hf ⊢
  omega

protected theorem KeepsForm.serveConsoleSend (h : KeepsForm s t) : KeepsForm s (serveConsoleSend tag body t) := by
  unfold serveConsoleSend
  split
  · split
    · exact KeepsForm.ite (KeepsForm.reply (h.modConsole (consoleFits_send _) id)) h.badRequest
    · exact h.badRequest
  · exact h.badRequest

protected theorem KeepsForm.serveConsoleBreak (h : KeepsForm s t) : KeepsForm s (serveConsoleBreak tag body t) := by
  unfold serveConsoleBreak
  split
  · split
    · exact h.reply.ite (h.modConsole id id)
    · exact h.badRequest
  · exact h.badRequest

protected theorem KeepsForm.serveConsoleRead (h : KeepsForm s t) : KeepsForm s (serveConsoleRead tag body t) := by
  unfold serveConsoleRead
  split
  · split
    · exact h.reply
    · exact h.badRequest
  · exact h.badRequest

/-- R51, R73: an offset is placed between the oldest and the live offset. -/
theorem placed_lead (oldest live x : Word) : (placed oldest live x - oldest).toNat ≤ (live - oldest).toNat := by
  rw [placed_eq]
  split_ifs with hheld
  · exact hheld
  · exact le_refl _
  · simp

theorem historyFits_forward (on atOffset : Bool) (x : Word) {c : Console} (h : HistoryFits c) :
    HistoryFits { c with cursor := forwardCursor c on atOffset x, skip := 0 } := by
  obtain ⟨hspan, -⟩ := h
  refine ⟨hspan, ?_⟩
  cases on with
  | false => exact Nat.zero_le _
  | true =>
    cases atOffset with
    | false => exact le_refl (c.live - c.oldest).toNat
    | true => exact placed_lead c.oldest c.live x

protected theorem KeepsForm.serveConsoleForward (h : KeepsForm s t) : KeepsForm s (serveConsoleForward tag body t) := by
  unfold serveConsoleForward
  split
  · split
    · exact KeepsForm.reply (h.modConsole id (historyFits_forward _ _ _))
    · exact h.badRequest
  · exact h.badRequest

protected theorem KeepsForm.serveConsoleStatus {pins : Per4 Level} (h : KeepsForm s t) :
    KeepsForm s (serveConsoleStatus tag body pins t) := by
  unfold serveConsoleStatus
  split
  · split
    · exact h.reply
    · exact h.badRequest
  · exact h.badRequest

/-! ## The pool's and the unit table's requests (R88 to R90, R94, R98, R107) -/

protected theorem KeepsForm.applyTick {tick : Nat} (h : KeepsForm s t) : KeepsForm s (applyTick tick t) :=
  h.ite (h.same rfl)

protected theorem KeepsForm.servePoolConfig (h : KeepsForm s t) : KeepsForm s (servePoolConfig tag body t) := by
  have hpool : ∀ p : Pool, KeepsForm s { t with pool := p } := fun _ => h.same rfl
  unfold servePoolConfig
  split
  · split
    · exact h.badRequest
    · exact h.reply.ite (h.reply.ite (hpool _).applyTick.poolChanged.reply)
  · exact h.badRequest

protected theorem KeepsForm.servePoolStatus (h : KeepsForm s t) : KeepsForm s (servePoolStatus tag body t) := by
  unfold servePoolStatus
  split
  · split
    · exact h.reply
    · exact h.badRequest
  · exact h.badRequest

protected theorem KeepsForm.attachUnit {v : UnitId} {x : MediaUnit} (h : KeepsForm s t) :
    KeepsForm s (attachUnit v x t) := KeepsForm.foldl KeepsForm.setAttention h.modUnit

protected theorem KeepsForm.serveUnitAttach (h : KeepsForm s t) : KeepsForm s (serveUnitAttach tag body t) := by
  unfold serveUnitAttach
  split
  · split
    · refine h.badRequest.ite (h.reply.ite ?_)
      split
      · exact h.reply
      · exact h.attachUnit.reply
    · exact h.badRequest
  · exact h.badRequest

protected theorem KeepsForm.forceOut {v : UnitId} (h : KeepsForm s t) : KeepsForm s (forceOut v t) := h.takeOut.modUnit

protected theorem KeepsForm.endDrainReply {before : State} {v : UnitId} {r : Result} (h : KeepsForm s t) :
    KeepsForm s (endDrainReply before v r t) := by
  unfold endDrainReply
  split
  · exact h.reply
  · exact h

protected theorem KeepsForm.detachForced {v : UnitId} (h : KeepsForm s t) : KeepsForm s (detachForced v tag t) :=
  h.forceOut.afterLeaving.endDrainReply.reply

protected theorem KeepsForm.detachUnit {v : UnitId} {force : Bool} (h : KeepsForm s t) :
    KeepsForm s (detachUnit v tag force t) := by
  unfold detachUnit
  split
  · exact h.reply
  · exact h.detachForced
  · exact h.detachForced
  · exact h.detachForced
  · exact h.takeOut.afterLeaving.reply.ite h.startDrain.afterLeaving
  · exact h.reply
  · exact h.reply

protected theorem KeepsForm.serveUnitDetach (h : KeepsForm s t) : KeepsForm s (serveUnitDetach tag body t) := by
  unfold serveUnitDetach
  split
  · split
    · exact h.detachUnit
    · exact h.badRequest
  · exact h.badRequest

protected theorem KeepsForm.serveUnitStatus (h : KeepsForm s t) : KeepsForm s (serveUnitStatus tag body t) := by
  unfold serveUnitStatus
  split
  · split
    · exact h.reply
    · exact h.badRequest
  · exact h.badRequest

protected theorem KeepsForm.serveMediaPortConfig {midBlock : Per4 Bool} (h : KeepsForm s t) :
    KeepsForm s (serveMediaPortConfig tag body midBlock t) := by
  unfold serveMediaPortConfig
  split
  · split
    · split
      · exact h.modPort.reply
      · exact h.badRequest
    · exact h.badRequest
  · exact h.badRequest

/-! ## The Boot Supervisor's requests (R154, R158, R170, R171) -/

protected theorem KeepsForm.setPattern {i : Fin 16} {p : Pattern} (h : KeepsForm s t) : KeepsForm s (setPattern i p t) := h.same rfl

protected theorem KeepsForm.servePatternSet (h : KeepsForm s t) : KeepsForm s (servePatternSet tag body t) := by
  unfold servePatternSet
  split
  · split
    · exact h.setPattern.reply
    · exact h.badRequest
  · exact h.badRequest

protected theorem KeepsForm.modBoot {f : Boot → Boot} (h : KeepsForm s t) : KeepsForm s (t.modBoot f) := h.same rfl

protected theorem KeepsForm.applyPolicy {p : Policy} (h : KeepsForm s t) : KeepsForm s (applyPolicy n p t) := by
  unfold applyPolicy
  dsimp only
  split
  · exact h.modBoot.modSupervisor.bootComplete.ite h.modBoot.modSupervisor
  all_goals exact h.modBoot.modSupervisor

protected theorem KeepsForm.serveBootPolicy (h : KeepsForm s t) : KeepsForm s (serveBootPolicy tag body t) := by
  unfold serveBootPolicy
  split
  · split
    · exact h.applyPolicy.reply
    · exact h.badRequest
  · exact h.badRequest

protected theorem KeepsForm.rearm (h : KeepsForm s t) : KeepsForm s (rearm n t) :=
  h.modSupervisor.releaseBootSelect.supTo_bootProgress.ite h.modSupervisor.releaseBootSelect.arm

protected theorem KeepsForm.serveBootRearm (h : KeepsForm s t) : KeepsForm s (serveBootRearm tag body t) := by
  unfold serveBootRearm
  split
  · split
    · split
      · exact h.reply
      all_goals exact h.rearm.reply
    · exact h.badRequest
  · exact h.badRequest

protected theorem KeepsForm.serveBootStatus (h : KeepsForm s t) : KeepsForm s (serveBootStatus tag body t) := by
  unfold serveBootStatus
  split
  · split
    · exact h.reply
    · exact h.badRequest
  · exact h.badRequest

/-! ## The link's and the loader's requests (R185, R186, R189, R195) -/

protected theorem KeepsForm.serveIdentify (h : KeepsForm s t) : KeepsForm s (serveIdentify tag body t) := by
  unfold serveIdentify
  split
  · exact h.reply
  · exact h.badRequest

protected theorem KeepsForm.serveLinkConfig (h : KeepsForm s t) : KeepsForm s (serveLinkConfig tag body t) := by
  unfold serveLinkConfig
  split
  · exact KeepsForm.addReply (h.modLink (f := Link.configure _ _) id)
  · exact h.badRequest

protected theorem KeepsForm.serveSaveSettings (h : KeepsForm s t) : KeepsForm s (serveSaveSettings tag body t) := by
  unfold serveSaveSettings
  split
  · exact KeepsForm.ite (h.modLoader id) h.reply
  · exact h.badRequest

protected theorem KeepsForm.answerCleared {r : ClearedReply} (h : KeepsForm s t) : KeepsForm s (answerCleared r t) := by
  unfold answerCleared
  split
  · split
    · split
      · exact h.reply
      · exact h
    · exact h
  · exact h.endWatch
  · split
    · exact h.reply
    · exact h
  · exact h.endDrainReply

/-- R189: a cleared link keeps its replies and nothing else of what the law speaks of. -/
theorem linkFits_cleared {k : Link} (h : LinkFits k) : LinkFits k.cleared := by
  obtain ⟨hr, -, -, -, -, hw, -⟩ := h
  exact ⟨hr, Nat.zero_le _, Nat.zero_le _, Nat.zero_le _, by simp [Link.cleared], hw, by simp [Link.cleared, Link.occupied]⟩

theorem consoleFits_cleared {c : Console} (h : ConsoleFits c) : ConsoleFits c.cleared :=
  ⟨Console.addMark_length .clear _ h.1, Nat.zero_le _⟩

theorem historyFits_cleared {c : Console} (h : HistoryFits c) : HistoryFits c.cleared := ⟨h.1, Nat.zero_le _⟩

protected theorem KeepsForm.clearUnits (h : KeepsForm s t) : KeepsForm s (clearUnits t) :=
  KeepsForm.foldl (fun h => h.ite h.forceOut) h

protected theorem KeepsForm.clearedRest (h : KeepsForm s t) : KeepsForm s (clearedRest t) := by
  have hconsoles : KeepsForm s { t with consoles := t.consoles.map Console.cleared } :=
    h.withConsoles (fun m hm => by rw [Per4.get_map]; exact consoleFits_cleared hm) fun m hm => by
      rw [Per4.get_map]
      exact historyFits_cleared hm
  exact hconsoles.same rfl

protected theorem KeepsForm.serveClear (h : KeepsForm s t) : KeepsForm s (serveClear tag body t) := by
  unfold serveClear
  split
  · rw [clearBlocks_eq]
    exact ((KeepsForm.inFreeOrder KeepsForm.answerCleared h).modLink linkFits_cleared).clearUnits.clearedRest.reply
  · exact h.badRequest

/-! ## Any request (R177) -/

protected theorem KeepsForm.serveRequest {pins : NodePins} (h : KeepsForm s t) :
    KeepsForm s (serveRequest kind tag body pins t) := by
  unfold serveRequest
  split
  · exact h.serveIdentify
  · exact h.serveLinkConfig
  · exact h.serveClear
  · exact h.serveSaveSettings
  · exact h.serveLinesConfig
  · exact h.serveLinesSet
  · exact h.serveLinesRead
  · exact h.serveLineEventsClear
  · exact h.servePowerAction
  · exact h.servePowerTimings
  · exact h.servePowerWatch
  · exact h.serveConsoleConfig
  · exact h.serveConsoleSend
  · exact h.serveConsoleBreak
  · exact h.serveConsoleRead
  · exact h.serveConsoleForward
  · exact h.serveConsoleStatus
  · exact h.servePoolConfig
  · exact h.servePoolStatus
  · exact h.serveUnitAttach
  · exact h.serveUnitDetach
  · exact h.serveUnitStatus
  · exact h.serveMediaPortConfig
  · exact h.servePatternSet
  · exact h.serveBootPolicy
  · exact h.serveBootRearm
  · exact h.serveBootStatus
  · exact h.reply

/-- R177: a request leaves its buffer before it is served. -/
theorem linkFits_take {k : Link} {f : InFrame} {rest : List InFrame} (hin : k.inbox = f :: rest) (h : LinkFits k) :
    LinkFits { k with inbox := rest } := by
  obtain ⟨hr, hn, hl, hc, he, hw, ho⟩ := h
  refine ⟨hr, hn, hl, hc, he, hw, ho.sublist ?_⟩
  simp only [Link.occupied, hin, List.map_cons]
  exact (List.Sublist.refl _).append (List.sublist_cons_self _ _)

protected theorem KeepsForm.drainRequests {pins : NodePins} {k : Nat} (h : KeepsForm s t) :
    KeepsForm s (drainRequests pins k t) := by
  induction k generalizing t with
  | zero => exact h
  | succ k ih =>
    unfold drainRequests
    split
    · exact h
    · rename_i hin
      exact KeepsForm.ite (ih (h.modLink (linkFits_take hin)).serveRequest) h

protected theorem KeepsForm.takeRequests {pins : NodePins} (h : KeepsForm s t) : KeepsForm s (takeRequests pins t) :=
  h.drainRequests

end

end Sys2Proof.Machine
end

section
/-!
SUPPORT. What the link's receiver and transmitter, the lines, the consoles' transmitters, the engine's timers, a save and
the ports' commands do keeps the form (`KeepsForm`).
-/

namespace Sys2Proof.Machine

section
variable {s t u : State} {n : Node}

/-! ## The receiver's buffers (R175, R176) -/

/-- R176: the receiver hunts again. -/
theorem linkFits_hunt {k : Link} (h : LinkFits k) : LinkFits { k with receiver := none } := by
  obtain ⟨hr, hn, hl, hc, he, hw, ho⟩ := h
  exact ⟨hr, hn, hl, hc, he, hw, ho.sublist (List.sublist_append_right _ _)⟩

theorem freeBuffer_notMem {k : Link} {b : Fin 4} (h : k.freeBuffer = some b) : b ∉ k.inbox.map (·.buffer) := by
  have hfree : b ∉ k.occupied := by simpa using List.find?_some h
  exact fun hb => hfree (List.mem_append_right _ hb)

/-- R176: the receiver takes a free buffer. -/
theorem linkFits_start {k : Link} {b : Fin 4} (hb : k.freeBuffer = some b) (h : LinkFits k) :
    LinkFits { k with receiver := some b } := by
  obtain ⟨hr, hn, hl, hc, he, hw, ho⟩ := h
  have hnew := freeBuffer_notMem hb
  exact ⟨hr, hn, hl, hc, he, hw, List.nodup_cons.mpr ⟨hnew, (List.nodup_append.mp ho).2.1⟩⟩

/-- R176, log 5: no request waits in the buffer of the frame that completes. -/
theorem frameBuffer_notMem {k : Link} {b : Fin 4} (hb : frameBuffer k = some b) (h : k.occupied.Nodup) :
    b ∉ k.inbox.map (·.buffer) := by
  unfold frameBuffer at hb
  split at hb
  · rename_i hk
    cases hb
    rw [Link.occupied, hk] at h
    exact (List.nodup_cons.mp h).1
  · exact freeBuffer_notMem hb

/-- R177: a complete request joins those that wait, in its buffer. -/
theorem linkFits_join {k : Link} {f : InFrame} (hb : frameBuffer k = some f.buffer) (h : LinkFits k) :
    LinkFits { k with receiver := none, inbox := k.inbox ++ [f] } := by
  obtain ⟨hr, hn, hl, hc, he, hw, ho⟩ := h
  refine ⟨hr, hn, hl, hc, he, hw, ?_⟩
  simp only [Link.occupied, Option.toList_none, List.nil_append, List.map_append, List.map_cons, List.map_nil]
  exact (List.nodup_append.mp ho).2.1.append (List.nodup_singleton _)
    (List.disjoint_singleton.mpr (frameBuffer_notMem hb ho))

protected theorem KeepsForm.linkError {f : LinkCounters → LinkCounters} (h : KeepsForm s t) : KeepsForm s (linkError f t) :=
  KeepsForm.notify (h.modLink (f := fun k => { k with counters := f k.counters }) id)

protected theorem KeepsForm.hunt (h : KeepsForm s t) : KeepsForm s (hunt t) := h.modLink linkFits_hunt

protected theorem KeepsForm.huntStart (h : KeepsForm s t) : KeepsForm s (huntStart t) := by
  unfold huntStart
  split
  · rename_i hb
    exact h.modLink (linkFits_start hb)
  · exact h.linkError

protected theorem KeepsForm.abandonFrame {f : LinkCounters → LinkCounters} (h : KeepsForm s t) :
    KeepsForm s (abandonFrame f t) := by
  unfold abandonFrame
  split
  · exact h.hunt.linkError
  · exact h

protected theorem KeepsForm.truncateFrame (h : KeepsForm s t) : KeepsForm s (truncateFrame t) := by
  unfold truncateFrame
  split
  · exact h.hunt.linkError.huntStart
  · exact h

protected theorem KeepsForm.startByte (h : KeepsForm s t) : KeepsForm s (startByte t) := h.truncateFrame.ite h.huntStart

protected theorem KeepsForm.overrunByte (h : KeepsForm s t) : KeepsForm s (overrunByte t) := h.linkError.ite h

protected theorem KeepsForm.receiveRequest {kind : Byte} {tag : Tag} {body : List Byte} {pins : NodePins}
    (h : KeepsForm s t) : KeepsForm s (receiveRequest kind tag body pins t) := by
  unfold receiveRequest
  split
  · rename_i b hb
    exact (h.modLink (linkFits_join (f := { buffer := b, kind := kind, tag := tag, body := body }) hb)).takeRequests
  · exact h.linkError

/-- R177: an answer that keeps the form may be taken. -/
protected theorem KeepsForm.receiveAnswer {f : State → State} (h : KeepsForm s t)
    (hf : ∀ {t}, KeepsForm s t → KeepsForm s (f t)) : KeepsForm s (receiveAnswer f t) := by
  unfold receiveAnswer
  split
  · exact hf h.hunt
  · exact h.linkError

protected theorem KeepsForm.startBehind {ahead : Bool} {body : List Byte} (h : KeepsForm s t) :
    KeepsForm s (startBehind ahead body t) := by
  unfold startBehind
  split
  · exact h.startPending.ite h
  all_goals exact h

/-! ## The transmitter (R67, R178, R184) -/

/-- R178: where a full queue has freed one entry, the first reply that waits takes it. -/
theorem linkFits_refill {k : Link} (h : LinkFits { k with waiting := [] }) (hfree : k.replies.length < replyRoom)
    (hw : k.waiting ≠ [] → k.replies.length + 1 = replyRoom) : LinkFits k.refill := by
  obtain ⟨hr, hn, hl, hc, he, -, ho⟩ := h
  unfold Link.refill
  split
  · rename_i hnone
    exact ⟨hr, hn, hl, hc, he, fun h => absurd hnone h, ho⟩
  · rename_i r rest hsome
    have hfull : (k.replies ++ [r]).length = replyRoom := by
      rw [List.length_append]
      exact hw (by simp [hsome])
    rw [if_pos hfree]
    exact ⟨hfull.le, hn, hl, hc, he, fun _ => hfull, ho⟩

/-- R178: the first reply goes out, and the first that waited takes the freed entry. -/
theorem linkFits_sendReply {k : Link} {r : Reply} {rest : List Reply} (hk : k.replies = r :: rest) (wire : List Byte)
    (e : SentEffect) (h : LinkFits k) : LinkFits (({ k with replies := rest } : Link).startControl wire e).refill := by
  obtain ⟨hr, hn, hl, -, he, hw, ho⟩ := h
  rw [hk, List.length_cons] at hr hw
  exact linkFits_refill ⟨(Nat.le_succ _).trans hr, hn, hl, Nat.min_le_left _ _, he, fun h => absurd rfl h, ho⟩ hr hw

protected theorem KeepsForm.sendReply {pins : NodePins} {r : Reply} {rest : List Reply} (h : KeepsForm s t)
    (hr : t.link.replies = r :: rest) : KeepsForm s (sendReply pins r rest t) :=
  (h.modLink (linkFits_sendReply hr _ _)).takeRequests

/-- R179: the first notice goes out. -/
theorem linkFits_sendNotice {k : Link} {e : NoticeEntry} {rest : List NoticeEntry} (hk : k.notices = e :: rest)
    (wire : List Byte) (x : SentEffect) (h : LinkFits k) : LinkFits (({ k with notices := rest } : Link).startControl wire x) := by
  obtain ⟨hr, hn, hl, -, he, hw, ho⟩ := h
  rw [hk] at hn he
  exact ⟨hr, (Nat.le_succ _).trans hn, hl, Nat.min_le_left _ _, (List.forall_mem_cons.mp he).2, hw, ho⟩

protected theorem KeepsForm.sendNotice {e : NoticeEntry} {rest : List NoticeEntry} (h : KeepsForm s t)
    (hn : t.link.notices = e :: rest) : KeepsForm s (sendNotice e rest t) :=
  h.modLink (linkFits_sendNotice hn _ _)

theorem linkFits_startBulk (wire : List Byte) {k : Link} (h : LinkFits k) : LinkFits (k.startBulk wire) := by
  obtain ⟨hr, hn, hl, -, he, hw, ho⟩ := h
  exact ⟨hr, hn, hl, Nat.zero_le _, he, hw, ho⟩

protected theorem KeepsForm.sendCall {c : Call} {rest : List Call} (h : KeepsForm s t) : KeepsForm s (sendCall c rest t) :=
  h.modLink (fun hk => linkFits_startBulk (k := { t.link with calls := rest }) _ hk)

/-- R67: a cursor that advances by no more than its distance from live stays on the span. -/
theorem advanced_lead {oldest live x : Word} {k : Nat} (h : (x - oldest).toNat ≤ (live - oldest).toNat)
    (hk : k ≤ (live - x).toNat) : (x + BitVec.ofNat 32 k - oldest).toNat ≤ (live - oldest).toNat := by
  bv_omega

/-- R67: the cursor advances to the live offset at most. -/
theorem historyFits_sendData {c : Console} {x : Word} (hx : c.cursor = some x) (h : HistoryFits c) :
    HistoryFits { c with cursor := some (x + BitVec.ofNat 32 (dataCount c x)) } := by
  obtain ⟨hspan, hlead⟩ := h
  refine ⟨hspan, ?_⟩
  simp only [Console.cursorLead, hx] at hlead
  exact advanced_lead hlead (Nat.min_le_right _ _)

protected theorem KeepsForm.sendData (h : KeepsForm s t) : KeepsForm s (sendData n t) := by
  unfold sendData
  dsimp only
  split
  · exact h
  · rename_i x hx
    exact (h.modConsole (f := fun c => { c with cursor := some (x + _) }) id (historyFits_sendData hx)).modLink
      (fun hk => linkFits_startBulk (k := { t.link with lastServed := n }) _ hk)

protected theorem KeepsForm.sendBulk (h : KeepsForm s t) : KeepsForm s (sendBulk t) := by
  unfold sendBulk
  split
  · exact h.sendCall
  · exact h.sendData
  · exact h

protected theorem KeepsForm.sendControl {pins : NodePins} (h : KeepsForm s t) : KeepsForm s (sendControl pins t) := by
  unfold sendControl
  split
  · rename_i hr
    exact h.sendReply hr
  · rename_i hn
    exact h.sendNotice hn
  · exact h

protected theorem KeepsForm.chooseClass {pins : NodePins} (h : KeepsForm s t) : KeepsForm s (chooseClass pins t) :=
  h.sendControl.ite h.sendBulk

protected theorem KeepsForm.arbitrate {pins : NodePins} (h : KeepsForm s t) : KeepsForm s (arbitrate pins t) := by
  unfold arbitrate
  split
  · rename_i hn
    exact (h.sendNotice hn).ite h.chooseClass
  · exact h.chooseClass

protected theorem KeepsForm.arbiterLooks {pins : ArbiterPins} (h : KeepsForm s t) : KeepsForm s (arbiterLooks pins t) := by
  have hcts : KeepsForm s (t.modLink fun k => { k with cts := pins.cts }) := h.modLink id
  exact hcts.arbitrate.ite hcts

theorem linkFits_afterSent (e : SentEffect) {k : Link} (h : LinkFits k) :
    LinkFits (({ k with sending := none } : Link).afterSent e) := by
  cases e <;> exact h

protected theorem KeepsForm.frameEnds (h : KeepsForm s t) : KeepsForm s (frameEnds t) := by
  unfold frameEnds
  split
  · exact h.modLink (linkFits_afterSent _)
  · exact h

/-! ## Lines and timers (R5, R23 to R29, R139, R149, R151, R162) -/

protected theorem KeepsForm.sampleAll {pins : BitVec 24} (h : KeepsForm s t) : KeepsForm s (sampleAll pins t) :=
  KeepsForm.inFreeOrder KeepsForm.rederivePower (KeepsForm.inFreeOrder KeepsForm.notifyLines h.modLines)

protected theorem KeepsForm.timerEnds {st : ActionState} {f : Action → State → State} (h : KeepsForm s t)
    (hf : ∀ {a}, KeepsForm s (f a t)) : KeepsForm s (timerEnds n st f t) := by
  unfold timerEnds
  split
  · exact hf.ite h
  · exact h

protected theorem KeepsForm.fetchTimesOut {i : Fin 16} (h : KeepsForm s t) : KeepsForm s (fetchTimesOut i t) := by
  unfold fetchTimesOut
  split
  · exact h.failFetch
  · exact h

protected theorem KeepsForm.storeTimesOut {i : Fin 8} (h : KeepsForm s t) : KeepsForm s (storeTimesOut i t) := by
  unfold storeTimesOut
  split
  · exact h.storeFails
  · exact h

protected theorem KeepsForm.agePages (h : KeepsForm s t) : KeepsForm s (agePages t) := h.same rfl

protected theorem KeepsForm.deadlineEnds (h : KeepsForm s t) : KeepsForm s (deadlineEnds n t) := by
  unfold deadlineEnds
  split
  · exact h.failure
  · exact h

/-! ## Breaks, transmission and the flood window (R43, R45, R53, R55, R63 to R66) -/

protected theorem KeepsForm.recognizeBreak (h : KeepsForm s t) : KeepsForm s (recognizeBreak n t) :=
  have hbreak : KeepsForm s (t.modConsole n fun x => { x with receiver := .inBreak, breaks := x.breaks + 1 }) :=
    h.modConsole id id
  hbreak.mark.clearPartials.ite h

protected theorem KeepsForm.endBreak (h : KeepsForm s t) : KeepsForm s (endBreak n t) := KeepsForm.ite (h.modConsole id id) h

protected theorem KeepsForm.confirmStart {mid : Level} (h : KeepsForm s t) : KeepsForm s (confirmStart n mid t) := by
  unfold confirmStart
  split
  · exact h.modConsole id id
  · exact h.modConsole id id
  · exact h.modConsole id id
  all_goals exact h

/-- R53: a character that starts leaves the FIFO; the history is not concerned. -/
theorem fits_startCharacter (c : Console) :
    (ConsoleFits c → ConsoleFits c.startCharacter) ∧ (HistoryFits c → HistoryFits c.startCharacter) := by
  unfold Console.startCharacter
  split
  · rename_i hf
    split_ifs
    · refine ⟨fun ⟨hm, hfifo⟩ => ⟨hm, ?_⟩, id⟩
      rw [hf] at hfifo
      exact (Nat.le_succ _).trans hfifo
    · exact ⟨id, id⟩
  · exact ⟨id, id⟩

protected theorem KeepsForm.transmitStart {cts : Level} (h : KeepsForm s t) :
    KeepsForm s (t.modConsole n fun c => ({ c with cts := cts } : Console).startCharacter) :=
  have hfits := fits_startCharacter { t.consoles.get n with cts := cts }
  h.modConsole hfits.1 hfits.2

protected theorem KeepsForm.transmitEnd (h : KeepsForm s t) : KeepsForm s (t.modConsole n Console.endCharacter) := by
  refine h.modConsole ?_ ?_ <;> unfold Console.endCharacter <;> split_ifs <;> exact id

protected theorem KeepsForm.finishBreak (h : KeepsForm s t) : KeepsForm s (finishBreak n t) := by
  unfold finishBreak
  split
  · exact KeepsForm.ite (KeepsForm.reply (KeepsForm.mark (h.modConsole id id))) h
  · exact h

protected theorem KeepsForm.recoverBreak (h : KeepsForm s t) : KeepsForm s (recoverBreak n t) := by
  unfold recoverBreak
  split
  · exact KeepsForm.ite (h.modConsole id id) h
  · exact h

/-- R66: a console that leaves flood has its cursor at the live offset. -/
theorem historyFits_leaveFlood {c : Console} (h : HistoryFits c) :
    HistoryFits { c with cursor := c.cursor.map fun _ => c.live, flood := false, skip := 0 } := by
  refine ⟨h.1, ?_⟩
  cases hx : c.cursor with
  | none => simp [Console.cursorLead]
  | some x => simp [Console.cursorLead, Console.heldSpan]

protected theorem KeepsForm.leaveFlood (h : KeepsForm s t) : KeepsForm s (leaveFlood n t) :=
  KeepsForm.notify (h.modConsole id historyFits_leaveFlood)

protected theorem KeepsForm.endWindow (h : KeepsForm s t) : KeepsForm s (endWindow n t) := by
  have hrestart : KeepsForm s (t.modConsole n Console.restartWindow) := h.modConsole id id
  exact hrestart.leaveFlood.poolChanged.ite hrestart

/-! ## The phases of a save (R196) -/

/-- R196: what a phase writes leaves the settings memory canonical. -/
theorem wf_writeEeprom (start : Nat) (bytes : List Byte) {x : Loader} (h : Memory.wf eepromDefault x.eeprom) :
    Memory.wf eepromDefault (writeEeprom start bytes x).eeprom := Memory.write_wf h start bytes

theorem wf_unsign {x : Loader} (h : Memory.wf eepromDefault x.eeprom) : Memory.wf eepromDefault x.unsign.eeprom :=
  wf_writeEeprom _ _ h

theorem wf_writePart (k : Nat) {x : Loader} (h : Memory.wf eepromDefault x.eeprom) :
    Memory.wf eepromDefault (x.writePart k).eeprom := by
  unfold Loader.writePart
  split
  · exact wf_writeEeprom _ _ h
  · exact h

theorem wf_writeBody {x : Loader} (h : Memory.wf eepromDefault x.eeprom) : Memory.wf eepromDefault x.writeBody.eeprom := by
  unfold Loader.writeBody
  split
  · exact wf_writeEeprom _ _ h
  · exact h

theorem wf_cutShort (k : Nat) {x : Loader} (h : Memory.wf eepromDefault x.eeprom) :
    Memory.wf eepromDefault (x.cutShort k).eeprom := by
  unfold Loader.cutShort
  split
  · exact wf_unsign h
  · exact wf_writePart _ (wf_unsign h)
  · exact wf_writeEeprom _ _ (wf_unsign h)
  all_goals exact h

theorem wf_damaged (d : ReadFault) {x : Loader} (h : Memory.wf eepromDefault x.eeprom) :
    Memory.wf eepromDefault (x.damaged d).eeprom := by
  unfold Loader.damaged
  split_ifs
  · exact wf_writeEeprom _ _ h
  · exact h

protected theorem KeepsForm.savePhaseEnds {now next : SaveState} {f : Loader → Loader} (h : KeepsForm s t)
    (hf : ∀ {x : Loader}, Memory.wf eepromDefault x.eeprom → Memory.wf eepromDefault (f x).eeprom) :
    KeepsForm s (savePhaseEnds now next f t) := by
  refine h.modLoader fun hx => ?_
  split_ifs
  · exact hf hx
  · exact hx

protected theorem KeepsForm.endSave {r : Result} {d : List Byte} (h : KeepsForm s t) : KeepsForm s (endSave r d t) := by
  unfold endSave
  split
  · exact KeepsForm.reply (h.modLoader (f := Loader.ended) id)
  · exact h.modLoader id

protected theorem KeepsForm.verify {fault : Option ReadFault} (h : KeepsForm s t) : KeepsForm s (verify fault t) := by
  have hread : KeepsForm s (t.modLoader fun _ => match fault with
      | some d => t.loader.damaged d
      | none => t.loader) := h.modLoader fun hx => by
    cases fault with
    | none => exact hx
    | some d => exact wf_damaged d hx
  unfold verify
  refine KeepsForm.ite ?_ h
  dsimp only
  split
  · exact hread.endSave
  · exact hread.endSave

protected theorem KeepsForm.saveFails {address taken : Nat} (h : KeepsForm s t) : KeepsForm s (saveFails address taken t) :=
  h.ite (h.modLoader (wf_cutShort _)).endSave

/-! ## Port commands (R110 to R126) -/

protected theorem KeepsForm.beginTransaction (h : KeepsForm s t) : KeepsForm s (beginTransaction n t) := h.same rfl

protected theorem KeepsForm.endTaking (h : KeepsForm s t) : KeepsForm s (endTaking n t) := h.same rfl

protected theorem KeepsForm.restartIdle (h : KeepsForm s t) : KeepsForm s (restartIdle n t) := h.same rfl

protected theorem KeepsForm.openCommand {a : ActiveCommand} (h : KeepsForm s t) : KeepsForm s (openCommand n a t) := h.same rfl

protected theorem KeepsForm.respond {taken : Nat} {txn : Byte} {r : Status} {after : List Byte} (h : KeepsForm s t) :
    KeepsForm s (respond n taken txn r after t) := h.same rfl

protected theorem KeepsForm.badCommandAt (h : KeepsForm s t) : KeepsForm s (badCommandAt n t).2 := h.same rfl

/-- R110: a command that keeps the form is answered. -/
protected theorem KeepsForm.answerWith {txn : Byte} {f : State → Status × State} (h : KeepsForm s t)
    (hf : ∀ {t}, KeepsForm s t → KeepsForm s (f t).2) : KeepsForm s (answerWith n txn f t) :=
  (hf h.beginTransaction).respond

protected theorem KeepsForm.openAndEnd {a : ActiveCommand} {st : Status} (h : KeepsForm s t) :
    KeepsForm s (openAndEnd n a st t).2 := h.openCommand.endCommand

protected theorem KeepsForm.takeRead {lba count : Nat} (h : KeepsForm s t) : KeepsForm s (takeRead n lba count t).2 := by
  unfold takeRead
  split
  · exact h
  · split
    · exact h
    · split
      · exact h
      · dsimp only
        split
        · exact h.openAndEnd
        · exact h.openCommand.stage

protected theorem KeepsForm.openWrite {v : UnitId} {lba count : Nat} (h : KeepsForm s t) :
    KeepsForm s (openWrite n v lba count t).2 := by
  unfold openWrite
  dsimp only
  split
  · exact h.takeWriteLock.openAndEnd
  · exact h.takeWriteLock.openCommand

protected theorem KeepsForm.takeWrite {lba count : Nat} {together : Bool} (h : KeepsForm s t) :
    KeepsForm s (takeWrite n lba count together t).2 := by
  unfold takeWrite
  split
  · exact h
  · split
    · exact h
    · split
      · exact h.openWrite
      · exact h

protected theorem KeepsForm.takeFlush (h : KeepsForm s t) : KeepsForm s (takeFlush n t).2 := by
  unfold takeFlush
  split
  · exact h
  · split
    · split
      · exact h.openAndEnd
      · exact h.openCommand
    · exact h

protected theorem KeepsForm.takeBlock {txn : Byte} (h : KeepsForm s t) : KeepsForm s (takeBlock n txn t) := by
  have hbegin := h.beginTransaction (n := n).restartIdle (n := n)
  unfold takeBlock
  dsimp only
  split
  · exact hbegin.modPort.respond
  all_goals exact hbegin.respond

protected theorem KeepsForm.deliver {a : ActiveCommand} (h : KeepsForm s t) : KeepsForm s (deliver n a t) := by
  have hend : ∀ {t : State}, KeepsForm s t → KeepsForm s (if a.done + 1 = a.effective then
      endCommand n (finalStatus { a with done := a.done + 1 }) t else stage n stageFuel t) :=
    fun h => h.endCommand.ite h.stage
  exact hend (h.modPort.readAhead.ite h.modPort)

protected theorem KeepsForm.blockEnds (h : KeepsForm s t) : KeepsForm s (blockEnds n t) := by
  unfold blockEnds
  split
  · exact h.endTaking.deliver.ite h.endTaking
  · exact h.endTaking
  · exact h

protected theorem KeepsForm.giveBlockTaken (h : KeepsForm s t) : KeepsForm s (giveBlockTaken n t) :=
  h.beginTransaction.restartIdle.modPort

protected theorem KeepsForm.stageGiven {a : ActiveCommand} {data : List Byte} (h : KeepsForm s t) :
    KeepsForm s (stageGiven n a data t) := h.same rfl

protected theorem KeepsForm.decideGive {data : List Byte} {crc : BitVec 16} (h : KeepsForm s t) :
    KeepsForm s (decideGive n data crc t).2 := by
  unfold decideGive
  dsimp only
  split
  · exact h
  · split
    · exact h
    · split
      · exact h.endCommand
      · split
        · exact h
        · split
          · exact h.modPort.endCommand
          · split
            · exact h.endCommand
            · split
              · exact h.stageGiven
              · exact h.stageGiven.offerBlocks

protected theorem KeepsForm.receiveGive {data : List Byte} (h : KeepsForm s t) : KeepsForm s (receiveGive n data t) := h.same rfl

protected theorem KeepsForm.completeGive {txn : Byte} {data : List Byte} {crc : BitVec 16} (h : KeepsForm s t) :
    KeepsForm s (completeGive n txn data crc t) := h.receiveGive.endTaking.decideGive.respond

protected theorem KeepsForm.takeSense {txn : Byte} (h : KeepsForm s t) : KeepsForm s (takeSense n txn t) :=
  h.beginTransaction.respond

protected theorem KeepsForm.takeAbort (h : KeepsForm s t) : KeepsForm s (takeAbort n t).2 := by
  unfold takeAbort
  split
  · exact h.endCommand
  · exact h

protected theorem KeepsForm.badBlock {block : List Byte} (h : KeepsForm s t) : KeepsForm s (badBlock n block t) := by
  unfold badBlock
  split
  · exact h.answerWith KeepsForm.badCommandAt
  · exact h

protected theorem KeepsForm.shortTransaction (h : KeepsForm s t) : KeepsForm s (shortTransaction n t) :=
  h.beginTransaction.modPort

protected theorem KeepsForm.idleEnds (h : KeepsForm s t) : KeepsForm s (idleEnds n t) := h.endCommand.ite h

end

end Sys2Proof.Machine
end

section
/-!
SUPPORT. A captured byte keeps the form: the history has room for it, and where it fills the last page the pool gives the
console another (R47, R80 to R85): it never fails a console, for one below its reservation finds a free page and one that
fills its pages has a page of its own to recycle.
-/

namespace Sys2Proof.Machine

/-! ## A free page for a holder below its reservation (R76, R78, R81) -/

theorem count_holders (l : List (Option Holder)) :
    l.count none + (allHolders.map fun g => l.count (some g)).sum = l.length := by
  induction l with
  | nil => simp [allHolders]
  | cons x l ih =>
    simp only [allHolders, List.map_cons, List.map_nil, List.sum_cons, List.sum_nil, List.count_cons, List.length_cons]
      at ih ⊢
    rcases x with _ | ⟨⟨n⟩ | ⟨u⟩⟩
    · simp
      omega
    · fin_cases n <;> simp <;> omega
    · fin_cases u <;> simp <;> omega

theorem mem_allHolders (h : Holder) : h ∈ allHolders := by
  rcases h with n | u
  · fin_cases n <;> simp [allHolders]
  · fin_cases u <;> simp [allHolders]

/-- R78: what the holders hold and what they are short of is what they are reserved and what they borrow. -/
theorem held_add_shortfall (p : Pool) :
    (allHolders.map p.held).sum + (allHolders.map p.shortfall).sum = p.reserved + p.borrowed := by
  rw [Pool.reserved, Pool.borrowed, ← List.sum_map_add, ← List.sum_map_add]
  refine congrArg List.sum (List.map_congr_left fun h _ => ?_)
  rw [Pool.shortfall, Pool.borrow]
  omega

/-- R79, R81: a holder below its reservation finds a page free. -/
theorem lowestFree_of_shortfall {p : Pool} {h : Holder} (hreserved : p.reserved ≤ reservationLimit)
    (hborrowed : p.borrowed ≤ p.common) (hshort : p.held h < (p.holder h).reservation) : p.lowestFree.isSome := by
  by_contra hnone
  have hfree : p.free = 0 := by
    refine List.count_eq_zero.mpr fun hm => ?_
    obtain ⟨i, hi, he⟩ := List.getElem_of_mem hm
    exact lowestFree_none (by simpa using hnone) ⟨i, by simpa using hi⟩ (by simpa using he)
  have hlen : p.free + (allHolders.map p.held).sum = 256 := (count_holders p.owners.toList).trans (by simp)
  have hsum := held_add_shortfall p
  have hone : p.shortfall h ≤ (allHolders.map p.shortfall).sum :=
    List.le_sum_of_mem (List.mem_map_of_mem (mem_allHolders h))
  simp only [Pool.shortfall, Pool.common, reservationLimit] at hone hborrowed hreserved
  omega

/-- R79: in a state that keeps the pool's law likewise. -/
theorem PoolLaw.lowestFree {s : State} {h : Holder} (hp : PoolLaw s) (hshort : s.pool.held h < (s.pool.holder h).reservation) :
    s.pool.lowestFree.isSome := by
  obtain ⟨-, ⟨-, -, -, -, -, -, hreserved⟩, -, -, hborrowed, -⟩ := hp
  exact lowestFree_of_shortfall hreserved hborrowed hshort

variable {s t u : State} {n : Node}

/-- R80, R85: a request for capture is met where a page is free for a shortfall and one of the holder's own can go. -/
theorem allocate_capture_isSome {h : Holder} (hfree : t.pool.held h < (t.pool.holder h).reservation → t.pool.lowestFree.isSome)
    (hown : (evictable t h).isSome) : (allocate h .capture t).1.isSome := by
  obtain ⟨p, hp⟩ := Option.isSome_iff_exists.mp hown
  have hrecycle : (allocateOwn h .capture t).1.isSome := by simp [allocateOwn, Purpose.recycles, hp]
  unfold allocate
  split_ifs with hshort hborrow hpage
  · obtain ⟨q, hq⟩ := Option.isSome_iff_exists.mp (hfree hshort)
    simp [grantFree, hq]
  · obtain ⟨q, hq⟩ := Option.isSome_iff_exists.mp hpage.2
    simp [grantFree, hq]
  · split
    · rfl
    · exact hrecycle
  · exact hrecycle

/-! ## The page that a full history gets (R47) -/

/-- R47: a history that a byte has just joined may fill its pages. -/
def JustFits (c : Console) : Prop := c.heldSpan ≤ blockSize * c.pages.length ∧ c.cursorLead ≤ c.heldSpan

/-- The histories while console `n` captures a byte. -/
def Capturing (n : Node) (x : Per4 Console) : Prop := JustFits (x.get n) ∧ ∀ m, m ≠ n → HistoryFits (x.get m)

theorem PageLeft.justFits {c d : Console} (h : PageLeft c d) (hspan : 512 ≤ c.heldSpan) (hc : JustFits c) : JustFits d := by
  obtain ⟨hs, hl⟩ := hc
  refine ⟨?_, h.lead hl⟩
  rw [h.span, h.pages, List.length_drop]
  simp only [blockSize] at hs ⊢
  omega

/-- R84: a page that leaves its holder's content leaves the histories as they fit. -/
theorem capturing_leaveContent {h : Holder} {p : PageId} (he : evictable t h = some p) (hc : Capturing n t.consoles) :
    Capturing n (leaveContent h p t).consoles := by
  cases h with
  | mh v => exact hc
  | ch k =>
    have hspan := span_of_evictable he
    obtain ⟨d, hd, hleft⟩ := consoles_oldestPageLeaves hspan
    obtain ⟨hn, hothers⟩ := hc
    rw [leaveContent, hd]
    by_cases hk : n = k
    · subst hk
      refine ⟨?_, fun m hm => ?_⟩
      · rw [Per4.get_set_same]
        exact hleft.justFits hspan hn
      · rw [Per4.get_set_other _ hm]
        exact hothers m hm
    · refine ⟨?_, fun m hm => ?_⟩
      · rwa [Per4.get_set_other _ hk]
      · rw [Per4.get_set]
        split_ifs with e
        · subst e
          exact hleft.historyFits hspan (hothers m hm)
        · exact hothers m hm

theorem capturing_allocate {h : Holder} {why : Purpose} (hc : Capturing n t.consoles) :
    Capturing n (allocate h why t).2.consoles := by
  rcases allocate_cases h why t with ⟨p, -, -, e⟩ | ⟨v, p, hr, -, e⟩ | ⟨p, -, he, -, e⟩ | e <;> rw [e]
  · exact hc
  · exact capturing_leaveContent (evictable_of_reclaimSource hr) hc
  · exact capturing_leaveContent he hc
  · exact hc

protected theorem KeepsForm.extendHistory (h : KeepsForm s t) : KeepsForm s (extendHistory n t) := by
  unfold extendHistory
  split
  · split
    · rename_i e
      refine (h.of_allocate e).modConsole id fun ⟨hspan, hlead⟩ => ⟨hspan.trans_le ?_, hlead⟩
      rw [List.length_append]
      exact Nat.mul_le_mul_left _ (Nat.le_add_right _ _)
    · rename_i e
      exact h.of_allocate e
  · exact h

/-- R47: where the pool does not fail the console, every history fits again. -/
theorem historyFits_extendHistory (hc : Capturing n t.consoles)
    (hpage : (t.consoles.get n).full = true → (allocate (.ch n) .capture t).1.isSome) (m : Node) :
    HistoryFits ((extendHistory n t).consoles.get m) := by
  unfold extendHistory
  split
  · rename_i hfull
    have hsome := hpage hfull
    obtain ⟨⟨hspan, hlead⟩, hothers⟩ := capturing_allocate (h := .ch n) (why := .capture) hc
    split
    · rename_i p v e
      rw [e] at hspan hlead hothers
      rw [State.modConsole_consoles, Per4.get_modify]
      split_ifs with hm
      · refine ⟨?_, hlead⟩
        have hlen : ((v.consoles.get n).pages ++ [p]).length = (v.consoles.get n).pages.length + 1 := by simp
        refine lt_of_le_of_lt hspan ?_
        rw [hlen]
        exact Nat.mul_lt_mul_of_pos_left (Nat.lt_succ_self _) (by decide)
      · exact hothers m hm
    · rename_i e
      rw [e] at hsome
      simp at hsome
  · rename_i hfull
    obtain ⟨⟨hspan, hlead⟩, hothers⟩ := hc
    by_cases hm : m = n
    · subst hm
      exact ⟨lt_of_le_of_ne hspan fun e => hfull (full_iff.mpr e), hlead⟩
    · exact hothers m hm

/-! ## A captured byte (R43, R47, R63) -/

theorem storeByte_consoles (n : Node) (b : Byte) (t : State) :
    (storeByte n b t).consoles = t.consoles.modify n fun x => { x with live := x.live + 1 } := by
  unfold storeByte
  dsimp only
  split <;> rfl

theorem storeByte_pool (n : Node) (b : Byte) (t : State) : (storeByte n b t).pool = t.pool := by
  unfold storeByte
  dsimp only
  split <;> rfl

theorem storeByte_link (n : Node) (b : Byte) (t : State) : (storeByte n b t).link = t.link := by
  unfold storeByte
  dsimp only
  split <;> rfl

theorem memoryLaw_storeByte {b : Byte} (h : MemoryLaw t) : MemoryLaw (storeByte n b t) := by
  unfold storeByte
  dsimp only
  split
  · exact ⟨Memory.write_wf h.1 _ _, h.2⟩
  · exact h

theorem consoleLaw_storeByte {b : Byte} (h : ConsoleLaw t) : ConsoleLaw (storeByte n b t) := fun m => by
  rw [storeByte_consoles, Per4.get_modify]
  split_ifs with e
  · subst e
    exact h m
  · exact h m

/-- R47: one more character on a history of the pool's pages makes no wrap. -/
theorem justFits_store {c : Console} (hlen : c.pages.length ≤ 256) (h : HistoryFits c) :
    JustFits { c with live := c.live + 1 } := by
  obtain ⟨hspan, hlead⟩ := h
  have hnext : (c.live + 1 - c.oldest).toNat = c.heldSpan + 1 := by
    simp only [Console.heldSpan, blockSize] at hspan ⊢
    bv_omega
  refine ⟨?_, ?_⟩
  · exact hnext.le.trans hspan
  · exact hlead.trans ((Nat.le_succ _).trans hnext.ge)

/-- R47: the histories after the byte is stored. -/
theorem capturing_storeByte (hp : HistoryPagesLaw t n) (hh : HistoryLaw t) (b : Byte) :
    Capturing n (storeByte n b t).consoles := by
  rw [storeByte_consoles]
  refine ⟨?_, fun m hm => ?_⟩
  · rw [Per4.get_modify_same]
    exact justFits_store (length_pages_le hp.1) (hh n)
  · rw [Per4.get_modify, if_neg hm]
    exact hh m

/-- R84, R85: a history that fills its two or more pages has one to recycle. -/
theorem evictable_of_full (hfull : (t.consoles.get n).full = true) (hp : 2 ≤ (t.consoles.get n).pages.length) :
    (evictable t (.ch n)).isSome := by
  have hspan : blockSize ≤ ((t.consoles.get n).live - (t.consoles.get n).oldest).toNat := by
    rw [full_iff.mp hfull]
    simp only [blockSize]
    omega
  rw [evictable, evictableConsolePage, if_pos hspan]
  cases hpages : (t.consoles.get n).pages with
  | nil => simp [hpages] at hp
  | cons p ps => rfl

/-- R47: a byte is stored and the history has room again. -/
protected theorem KeepsForm.storeByte_extendHistory {b : Byte} (h : KeepsForm s t) (hpool : t.pool = s.pool)
    (hpages : (t.consoles.get n).pages = (s.consoles.get n).pages) : KeepsForm s (extendHistory n (storeByte n b t)) := by
  have hext := (KeepsForm.refl (storeByte n b t)).extendHistory (n := n)
  refine ⟨fun hs => hext.memory (memoryLaw_storeByte (h.memory hs)), fun hs => hext.link ?_,
    fun hs => hext.consoles (consoleLaw_storeByte (h.consoles hs)), fun hp hs m => ?_⟩
  · rw [LinkLaw, storeByte_link]
    exact h.link hs
  · obtain ⟨-, -, hconsoles, -⟩ := id hp
    have hlaw : HistoryPagesLaw t n := by
      rw [HistoryPagesLaw, hpages, hpool]
      exact hconsoles n
    refine historyFits_extendHistory (capturing_storeByte hlaw (h.history hp hs) b) (fun hfull => ?_) m
    refine allocate_capture_isSome (fun hshort => ?_) (evictable_of_full hfull ?_)
    · rw [storeByte_pool, hpool] at hshort ⊢
      exact hp.lowestFree hshort
    · rw [storeByte_consoles, Per4.get_modify_same]
      exact hlaw.2.1

protected theorem KeepsForm.enterFlood (h : KeepsForm s t) : KeepsForm s (enterFlood n t) :=
  (KeepsForm.notify (h.modConsole (f := fun c => { c with flood := true, skip := 0 }) id id)).poolChanged

protected theorem KeepsForm.countCharacter (h : KeepsForm s t) : KeepsForm s (countCharacter n t) := by
  have hcount : KeepsForm s (t.modConsole n fun c => { c with count := c.count + 1 }) := h.modConsole id id
  exact hcount.enterFlood.ite hcount

/-- R43: a captured byte, where the receiver's own change left the pages alone. -/
protected theorem KeepsForm.captureByte {b : Byte} (h : KeepsForm s t) (hpool : t.pool = s.pool)
    (hpages : (t.consoles.get n).pages = (s.consoles.get n).pages) : KeepsForm s (captureByte n b t) :=
  (h.storeByte_extendHistory hpool hpages).matchByte.countCharacter

/-- R43 to R45: the receiver changes, and the byte is captured. -/
theorem keepsForm_captured {f : Console → Console} {b : Byte} (h : KeepsForm s (s.modConsole n f))
    (hf : ∀ c, (f c).pages = c.pages) : KeepsForm s (captureByte n b (s.modConsole n f)) :=
  h.captureByte rfl (by rw [State.modConsole_consoles, Per4.get_modify_same, hf])

theorem keepsForm_receiveCharacter (n : Node) (data : Byte) (parityBit stopBit : Bool) (s : State) :
    KeepsForm s (receiveCharacter n data parityBit stopBit s) := by
  unfold receiveCharacter
  dsimp only
  split
  iterate 3 exact KeepsForm.ite (.modConsole (.refl s) id id) (keepsForm_captured (.modConsole (.refl s) id id) fun _ => rfl)
  all_goals exact .refl s

theorem keepsForm_storeHeld (n : Node) (s : State) : KeepsForm s (storeHeld n s) :=
  KeepsForm.ite (keepsForm_captured (.modConsole (.refl s) id id) fun _ => rfl) (.refl s)

end Sys2Proof.Machine
end

section
/-!
Every step keeps the form (`KeepsForm`), by the command at the front of the queue: the memories, queues, marks and FIFOs
(O5), and the histories (O9).
-/

namespace Sys2Proof.Machine

variable {s t : State}

/-! ## Reset and load (R191, R192, R194) -/

theorem keepsForm_partReset (taken : Nat) (s : State) : KeepsForm s (partReset taken s) := by
  obtain ⟨hlink, hmemory, hconsoles, -, -, -, -, -, hhistory, -, -⟩ := resetMeetsEveryLaw
  exact ⟨fun hs => ⟨hmemory.1, wf_cutShort taken hs.2⟩, fun _ => hlink, fun _ => hconsoles, fun _ _ => hhistory⟩

theorem keepsForm_releaseReset (s : State) : KeepsForm s (releaseReset s) :=
  KeepsForm.ite ((KeepsForm.refl s).same rfl) (.refl s)

theorem wf_findMemory (found : LoadRead) {x : Loader} (h : Memory.wf eepromDefault x.eeprom) :
    Memory.wf eepromDefault (findMemory found x).eeprom := by
  unfold findMemory
  split
  · exact wf_writeEeprom _ _ h
  · exact h

theorem keepsForm_loadedState (pins : BitVec 24) (o : LoadOutcome) {x : Loader} (s : State)
    (hx : Memory.wf eepromDefault s.loader.eeprom → Memory.wf eepromDefault x.eeprom) :
    KeepsForm s (loadedState pins o x s) where
  memory hs := ⟨hs.1, hx hs.2⟩
  link := id
  consoles hs n := by
    rw [loadedState, inForce, Per4.get_build]
    exact hs n
  history _ hs n := by
    rw [loadedState, inForce, Per4.get_build]
    exact hs n

theorem keepsForm_endLoad (pins : BitVec 24) (found : LoadRead) (s : State) : KeepsForm s (endLoad pins found s) := by
  by_cases hp : s.phase = .loading
  · rw [endLoad_loading hp]
    exact (keepsForm_loadedState pins _ s (wf_findMemory found)).notify
  · rw [endLoad_other hp]
    exact .refl s

/-! ## Every command -/

/-- A command that answers a next state answers one that keeps the form. -/
def RunsInForm (o : Outcome) (s : State) : Prop := ∀ t, o = .next t → KeepsForm s t

theorem runsInForm_next {f : State → State} (hf : KeepsForm s (f s)) : RunsInForm (.next (s.whenRunning f)) s := fun t h => by
  cases h
  exact hf.ite (.refl s)

theorem runsInForm_fault (s : State) : RunsInForm (.fault .illFormedCommand) s := fun _ h => by cases h

theorem runsInForm_ite {c : Prop} [Decidable c] {f : State → State} (hf : KeepsForm s (f s)) :
    RunsInForm (if c then .next (s.whenRunning f) else .fault .illFormedCommand) s := by
  split
  · exact runsInForm_next hf
  · exact runsInForm_fault s

theorem runsInForm_request (pins : NodePins) (kind : Byte) (tag : Tag) (body : List Byte) (s : State) :
    RunsInForm (requestMeeting pins kind tag body s) s :=
  runsInForm_ite (KeepsForm.refl s).receiveRequest

theorem runsInForm_unknownKind (kind : Byte) (tag : Tag) (body : List Byte) (s : State) :
    RunsInForm (execUnknownKind kind tag body s) s := by
  unfold execUnknownKind
  split
  · exact runsInForm_fault s
  · exact runsInForm_request _ _ _ _ s

theorem runsInForm_escapeError (next : Byte) (s : State) : RunsInForm (execEscapeError next s) s := by
  unfold execEscapeError
  split
  · exact runsInForm_fault s
  · exact runsInForm_next (KeepsForm.refl s).abandonFrame

theorem runsInForm_verifyingEnd (d : Option ReadFault) (s : State) : RunsInForm (execVerifyingEnd d s) s := by
  cases d with
  | none => exact runsInForm_next (KeepsForm.refl s).verify
  | some d => exact runsInForm_ite (KeepsForm.refl s).verify

theorem runsInForm_loadEnd (pins : BitVec 24) (found : LoadRead) (s : State) : RunsInForm (execLoadEnd pins found s) s := by
  unfold execLoadEnd
  split
  · rintro t ⟨⟩
    exact keepsForm_endLoad pins found s
  · exact runsInForm_fault s

theorem exec_runsInForm (c : Instr) (s : State) : RunsInForm (exec c s) s := by
  have h := KeepsForm.refl s
  cases c with
  | identify tag body | linkConfig tag body | clear tag body | saveSettings tag body | linesConfig tag body
  | linesSet tag body | linesRead tag body | lineEventsClear tag body | powerTimings tag body | powerWatch tag body
  | consoleConfig tag body | consoleSend tag body | consoleBreak tag body | consoleRead tag body
  | consoleForward tag body | consoleStatus tag asked | poolConfig tag body | poolStatus tag body
  | unitAttach tag body | unitDetach tag body | unitStatus tag body | mediaPortConfig tag asked | patternSet tag body
  | bootPolicy tag body | bootRearm tag body | bootStatus tag body => exact runsInForm_request _ _ _ _ s
  | powerAction tag asked => exact runsInForm_ite h.receiveRequest.startBehind
  | unknownKind kind tag body => exact runsInForm_unknownKind kind tag body s
  | fill tag lba data => exact runsInForm_ite (h.receiveAnswer KeepsForm.fillAnswer)
  | fetchFailed tag => exact runsInForm_next (h.receiveAnswer KeepsForm.fetchFailedAnswer)
  | stored tag => exact runsInForm_next (h.receiveAnswer KeepsForm.storedAnswer)
  | storeFailed tag => exact runsInForm_next (h.receiveAnswer KeepsForm.storeFailedAnswer)
  | malformedAnswer kind tag body => exact runsInForm_ite (h.receiveAnswer KeepsForm.linkError)
  | crcError => exact runsInForm_next h.abandonFrame
  | truncatedFrame => exact runsInForm_next h.truncateFrame
  | escapeError next => exact runsInForm_escapeError next s
  | lengthError length => exact runsInForm_ite h.abandonFrame
  | byteFramingError => exact runsInForm_next h.abandonFrame
  | overrun => exact runsInForm_next h.overrunByte
  | arbiterChoice pins => exact runsInForm_next h.arbiterLooks
  | frameSent => exact runsInForm_next h.frameEnds
  | sampleInstant pins => exact runsInForm_next h.sampleAll
  | tPressEnd n => exact runsInForm_next (h.timerEnds h.pressEnds)
  | tOnEnd n => exact runsInForm_next (h.timerEnds h.complete)
  | tSoftEnd n => exact runsInForm_next (h.timerEnds h.softEnds)
  | tHoldEnd n => exact runsInForm_next (h.timerEnds h.holdEnds)
  | tRestEnd n => exact runsInForm_next (h.timerEnds h.restEnds)
  | tResetEnd n => exact runsInForm_next (h.timerEnds h.complete)
  | tDiagEnd n => exact runsInForm_next (h.timerEnds h.complete)
  | powerWatchTimeout => exact runsInForm_next h.endWatch
  | characterReceived n data parityBit stopBit =>
    exact runsInForm_next (keepsForm_receiveCharacter n data parityBit stopBit s)
  | breakRecognized n => exact runsInForm_next h.recognizeBreak
  | heldCharacterStored n => exact runsInForm_next (keepsForm_storeHeld n s)
  | breakEnd n => exact runsInForm_next h.endBreak
  | transmitCharacterStart n cts => exact runsInForm_next h.transmitStart
  | breakSent n => exact runsInForm_next h.finishBreak
  | breakRecoveryEnd n => exact runsInForm_next h.recoverBreak
  | windowEnd n => exact runsInForm_next h.endWindow
  | read n lba count txn =>
    refine runsInForm_next (h.answerWith fun h => ?_)
    split
    · exact h.takeRead
    · exact h.badCommandAt
  | write n lba count txn =>
    refine runsInForm_next (h.answerWith fun h => ?_)
    split
    · exact h.takeWrite
    · exact h.badCommandAt
  | take n txn => exact runsInForm_next h.takeBlock
  | give n txn data crc => exact runsInForm_ite h.completeGive
  | status n txn => exact runsInForm_next (h.answerWith fun h => h)
  | sense n txn => exact runsInForm_next h.takeSense
  | flush n txn => exact runsInForm_next (h.answerWith KeepsForm.takeFlush)
  | ackChange n txn => exact runsInForm_next (h.answerWith fun h => h.modPort)
  | abort n txn => exact runsInForm_next (h.answerWith KeepsForm.takeAbort)
  | badCommand n block => exact runsInForm_ite h.badBlock
  | shortTransaction n => exact runsInForm_next h.shortTransaction
  | blockDelivered n => exact runsInForm_next h.blockEnds
  | idleTimeout n => exact runsInForm_next h.idleEnds
  | fetchTimeout i => exact runsInForm_next h.fetchTimesOut
  | storeTimeout i => exact runsInForm_next h.storeTimesOut
  | agingTick => exact runsInForm_next h.agePages
  | deadline n => exact runsInForm_next h.deadlineEnds
  | partReset taken =>
    rintro t ⟨⟩
    exact keepsForm_partReset taken s
  | resetRelease =>
    rintro t ⟨⟩
    exact keepsForm_releaseReset s
  | loadEnd pins found => exact runsInForm_loadEnd pins found s
  | invalidatingEnd => exact runsInForm_next (h.savePhaseEnds wf_unsign)
  | writingEnd => exact runsInForm_next (h.savePhaseEnds wf_writeBody)
  | sealingEnd => exact runsInForm_next (h.savePhaseEnds (wf_writeEeprom _ _))
  | verifyingEnd d => exact runsInForm_verifyingEnd d s
  | saveNoAck address taken => exact runsInForm_ite h.saveFails
  | frameStart => exact runsInForm_next h.startByte
  | startBit n mid => exact runsInForm_next h.confirmStart
  | transmitCharacterEnd n => exact runsInForm_next h.transmitEnd
  | giveCommandBlock n => exact runsInForm_next h.giveBlockTaken

/-! ## Every step -/

theorem keepsForm_tick (s : State) : KeepsForm s s.tick := by
  have hconsoles : KeepsForm s { s with consoles := s.consoles.map Console.tick } :=
    (KeepsForm.refl s).withConsoles (fun n hn => by rw [Per4.get_map]; exact hn) fun n hn => by
      rw [Per4.get_map]
      exact hn
  exact hconsoles.same rfl

theorem step_keepsForm (h : step s = .next t) : KeepsForm s t := by
  cases hp : s.pending with
  | nil =>
    rw [step_idle hp] at h
    cases h
    exact keepsForm_tick s
  | cons c rest =>
    rw [step_front hp] at h
    have hform := exec_runsInForm c { s with pending := rest } t h
    exact ⟨hform.memory, hform.link, hform.consoles, hform.history⟩

end Sys2Proof.Machine

open Sys2Proof Sys2Proof.Machine

/-- Settles O5: three parts of the form, each by its own law alone. -/
theorem memoriesAndQueuesKeepTheirForm : Obligations.MemoriesAndQueuesKeepTheirForm := by
  intro s t h
  have hform := step_keepsForm h
  exact ⟨hform.memory, hform.link, hform.consoles⟩

/-- Settles O9: the part of the form that speaks of histories. -/
theorem historyFitsItsPages : Obligations.HistoryFitsItsPages := by
  intro s t hpool hhistory h
  exact (step_keepsForm h).history hpool hhistory
end

section
/-!
Flood control and console forwarding (O30, O31): a character that starts flood, the end of a flood window, and CONSOLE
FORWARD as it is answered in a ready state.
-/

namespace Sys2Proof.Machine

variable {s : State} {n : Node}

/-! ## A changed pool that nothing waits for (R87, R145, R147) -/

/-- R145: where no write is held, no port offers its block again. -/
theorem retryHeld_noneHeld (h : ∀ n : Node, (s.ports.get n).wait ≠ .cache) : retryHeld s = s := by
  have hnone : (allNodes.filter fun n => (port s n).state == .writeHeld) = [] := by
    refine List.filter_eq_nil_iff.mpr fun n _ hheld => ?_
    have hstate : (port s n).state = .writeHeld := eq_of_beq hheld
    have hwait : (port s n).wait ≠ .cache := h n
    unfold Port.state at hstate
    split at hstate
    · cases hstate
    · split at hstate
      · cases hstate
      · rw [if_neg hwait] at hstate
        cases hstate
      · cases hstate
  rw [retryHeld, hnone]
  rfl

/-- R147: where no page is dirty, no store is due. -/
theorem nextToStore_noneDirty (h : ∀ u : UnitId, s.cache.dirty.get u = []) : nextToStore s = none := by
  simp only [nextToStore, h, ite_self, allNodes, List.foldl]

theorem poolChanged_nothingHeld (h : NothingHeld s) : poolChanged s = s := by
  obtain ⟨hheld, hdirty⟩ := h
  rw [poolChanged, retryHeld_noneHeld hheld, storeFuel, issueStores, nextToStore_noneDirty hdirty]
  cases freeStore s <;> rfl

/-! ## Flood begins (R63, R64) -/

/-- R64: the character that makes the count exceed the rise threshold. -/
theorem countCharacter_rises {c : Console} (hc : c = s.consoles.get n) (hflood : c.flood = false)
    (hcount : c.count = c.settings.riseThreshold) (hheld : NothingHeld s) :
    countCharacter n s = { s with
      consoles := s.consoles.set n { c with count := c.count + 1, flood := true, skip := 0 }
      link := s.link.addNotice (.flood n true 0) } := by
  subst hc
  have hrises : (!(s.consoles.get n).flood && decide ((s.consoles.get n).settings.riseThreshold
      < (s.consoles.get n).count + 1)) = true := by
    simp [hflood, hcount]
  unfold countCharacter
  simp only [State.modConsole_consoles, Per4.get_modify_same]
  rw [if_pos hrises, enterFlood, poolChanged_nothingHeld]
  · simp only [State.modConsole, Per4.modify_modify]
    rfl
  · exact hheld

/-- R43, R47, R64: a byte of console data that starts flood, where neither the last page fills nor an entry completes. -/
theorem captureByte_rises {c : Console} {p : PageId} {i : Nat} {b : Byte} (hc : c = s.consoles.get n)
    (hl : c.locate c.live = some (p, i)) (hfull : (c.live + 1 - c.oldest).toNat ≠ 512 * c.pages.length)
    (hdone : completedEntries s n b = []) (hflood : c.flood = false) (hcount : c.count = c.settings.riseThreshold)
    (hheld : NothingHeld s) :
    captureByte n b s = { s with
      ram := Memory.write ramDefault s.ram (512 * p.val + i) [b]
      consoles := s.consoles.set n { c with live := c.live + 1, count := c.count + 1, flood := true, skip := 0 }
      boot := { s.boot with partials := s.boot.partials.set n (Vector.ofFn fun e => (advanceEntry s n b e).1) }
      link := s.link.addNotice (.flood n true 0) } := by
  subst hc
  rw [captureByte, storeByte_eq hl, extendHistory_notFull, matchByte_noneDone,
    countCharacter_rises (c := { s.consoles.get n with live := (s.consoles.get n).live + 1 })]
  · simp only [advancePartials, State.modBoot, Per4.modify, Per4.set_set]
    rfl
  · exact (Per4.get_modify_same s.consoles n fun x => { x with live := x.live + 1 }).symm
  · exact hflood
  · exact hcount
  · exact hheld
  · exact hdone
  · rw [Per4.get_modify_same]
    exact Bool.eq_false_iff.mpr fun h => hfull (full_iff.mp h)

/-! ## A window ends (R63, R66) -/

theorem endWindow_restarts (h : (s.consoles.get n).flood = false
    ∨ (s.consoles.get n).settings.fallThreshold < (s.consoles.get n).count) :
    endWindow n s = s.modConsole n Console.restartWindow := by
  refine if_neg fun hfalls => ?_
  simp only [Bool.and_eq_true, decide_eq_true_eq] at hfalls
  obtain ⟨hflood, hcount⟩ := hfalls
  rcases h with h | h
  · rw [h] at hflood
    cases hflood
  · omega

/-- R66: a console leaves flood; its skipped count is that of the window's end. -/
theorem endWindow_falls (hflood : (s.consoles.get n).flood = true)
    (hcount : (s.consoles.get n).count ≤ (s.consoles.get n).settings.fallThreshold) (hheld : NothingHeld s) :
    endWindow n s = { s with
      consoles := s.consoles.modify n fun c => { c.restartWindow with
        cursor := c.cursor.map fun _ => c.live, flood := false, skip := 0 }
      link := s.link.addNotice (.flood n false (s.consoles.get n).skipped) } := by
  have hfalls : ((s.consoles.get n).flood
      && decide ((s.consoles.get n).count ≤ (s.consoles.get n).settings.fallThreshold)) = true := by
    simp [hflood, hcount]
  have hskipped : ((s.modConsole n Console.restartWindow).consoles.get n).skipped = (s.consoles.get n).skipped := by
    rw [State.modConsole_consoles, Per4.get_modify_same]
    rfl
  refine (if_pos hfalls).trans ?_
  rw [poolChanged_nothingHeld, leaveFlood]
  · simp only [hskipped]
    rw [State.modConsole, State.modConsole, Per4.modify_modify]
    rfl
  · exact hheld

/-! ## CONSOLE FORWARD (R73) -/

theorem flag?_of_above {b : Byte} (h : 2 ≤ b.toNat) : flag? b = none := by
  have h0 : b ≠ 0#8 := fun e => absurd h (by rw [e]; decide)
  have h1 : b ≠ 1#8 := fun e => absurd h (by rw [e]; decide)
  rw [flag?, if_neg h0, if_neg h1]

theorem exec_consoleForward (hs : RequestReady s) (tag : Tag) (node state selection o0 o1 o2 o3 : Byte) :
    exec (.consoleForward tag [node, state, selection, o0, o1, o2, o3]) s
      = .next (serveConsoleForward tag [node, state, selection, o0, o1, o2, o3] (hunt s)) :=
  requestFrame_ready (body := [node, state, selection, o0, o1, o2, o3]) hs 0x34#8 tag rfl

/-- R73: an accepted CONSOLE FORWARD, by the cursor it gives and whether its offset was moved. -/
theorem exec_consoleForward_accepted (hs : RequestReady s) (tag : Tag) {b state selection o0 o1 o2 o3 : Byte}
    {on atOffset moved : Bool} {c : Console} {x : Word} {cursor : Option Word} (hb : b.toNat = n.val)
    (hc : c = s.consoles.get n) (hx : x = BitVec.ofNat 32 (u32 o0 o1 o2 o3)) (hstate : flag? state = some on)
    (hselection : flag? selection = some atOffset) (hcursor : forwardCursor c on atOffset x = cursor)
    (hmoved : forwardMoved c on atOffset x = moved) :
    exec (.consoleForward tag [b, state, selection, o0, o1, o2, o3]) s
      = .next (answered { s with consoles := s.consoles.set n { c with cursor := cursor, skip := 0 } }
          (replyTo tag 0x34#8 .done (consoleForwardDetails n { c with cursor := cursor, skip := 0 } moved))) := by
  subst hc
  rw [exec_consoleForward hs]
  simp only [serveConsoleForward, node?_of_toNat hb, hstate, hselection, hunt_consoles, State.modConsole_consoles,
    Per4.get_modify_same, ← hx, hcursor, hmoved]
  rw [reply_modConsole_hunt hs, Per4.modify, hcursor]

/-- R73: the details of the reply while forwarding is off. -/
theorem consoleForwardDetails_off {c : Console} (h : c.cursor = none) (n : Node) (moved : Bool) :
    consoleForwardDetails n c moved = be8 n.val ++ [0#8] ++ [0#8, 0#8, 0#8, 0#8, 0#8] ++ [flagByte moved]
      ++ word32 c.oldest ++ word32 c.live ++ [flagByte c.flood] := by
  rw [consoleForwardDetails, h]
  rfl

/-- R73: the details of the reply while forwarding is on. -/
theorem consoleForwardDetails_on {c : Console} {x : Word} (h : c.cursor = some x) (n : Node) (moved : Bool) :
    consoleForwardDetails n c moved = be8 n.val ++ [1#8] ++ 1#8 :: word32 x ++ [flagByte moved]
      ++ word32 c.oldest ++ word32 c.live ++ [flagByte c.flood] := by
  rw [consoleForwardDetails, h]
  rfl

theorem serveConsoleForward_refused {node state selection : Byte}
    (h : 4 ≤ node.toNat ∨ 2 ≤ state.toNat ∨ 2 ≤ selection.toNat) (tag : Tag) (o0 o1 o2 o3 : Byte) (s : State) :
    serveConsoleForward tag [node, state, selection, o0, o1, o2, o3] s = badRequest tag 0x34#8 s := by
  have habsent : node? node = none ∨ flag? state = none ∨ flag? selection = none :=
    h.imp node?_of_above (Or.imp flag?_of_above flag?_of_above)
  unfold serveConsoleForward
  dsimp only
  split
  · rename_i hnode hstate hselection
    simp [hnode, hstate, hselection] at habsent
  · rfl

end Sys2Proof.Machine

open Sys2Proof Sys2Proof.Machine

/-- Settles O30: the pool's change that follows flood finds nothing to do, so the console and its notice are all that
changes. -/
theorem floodFollowsThresholds : Obligations.FloodFollowsThresholds := by
  refine ⟨?_, fun n c s hrun hc => ⟨fun h => ?_, fun hflood hcount hheld => ?_⟩⟩
  · intro n data c p i s hrun hc hrec hbits hparity hl hfull hdone hflood hcount hheld
    subst hc
    have hdata : allLow (s.consoles.get n).settings data true true = false := by simp [allLow]
    have hstored : storedByte (s.consoles.get n).settings data = data := by simp [storedByte, hbits]
    have hright : parityError (s.consoles.get n).settings data true = false := by simp [parityError, hparity]
    rw [exec_characterReceived hrun (.inr (.inl hrec)) hdata, hstored, hright,
      captureByte_rises (s := s.modConsole n (Console.took false true)) (Per4.get_modify_same s.consoles n _).symm hl hfull
        hdone hflood hcount hheld, State.modConsole, Per4.modify, Per4.set_set]
    rfl
  · subst hc
    exact congrArg _ ((whenRunning_running hrun _).trans (endWindow_restarts h))
  · subst hc
    exact congrArg _ ((whenRunning_running hrun _).trans (endWindow_falls hflood hcount hheld))

/-- Settles O31: an accepted request by the cursor that its state and start selection give. -/
theorem consoleForwardSetsCursor : Obligations.ConsoleForwardSetsCursor := by
  intro n tag b o0 o1 o2 o3 c x y s hs hb hc hx hy
  have hplaced : placed c.oldest c.live x = y := by rw [placed_eq, hy]
  refine ⟨?_, ?_, ?_, fun node on sel h => ?_⟩
  · intro sel hsel
    obtain ⟨atOffset, hselection⟩ : ∃ atOffset, flag? sel = some atOffset := by
      rcases hsel with rfl | rfl
      · exact ⟨false, rfl⟩
      · exact ⟨true, rfl⟩
    rw [exec_consoleForward_accepted (on := false) hs tag hb hc hx rfl hselection rfl rfl, consoleForwardDetails_off rfl]
    rfl
  · rw [exec_consoleForward_accepted (on := true) (atOffset := false) hs tag hb hc hx rfl rfl rfl rfl,
      consoleForwardDetails_on rfl]
    rfl
  · rw [exec_consoleForward_accepted (on := true) (atOffset := true) hs tag hb hc hx rfl rfl
        (congrArg some hplaced) (congrArg (· != x) hplaced), consoleForwardDetails_on rfl]
  · rw [exec_consoleForward hs, serveConsoleForward_refused (h.imp_right (Or.imp_right And.right))]
    exact congrArg _ (reply_hunt hs tag 0x34#8 .badRequest [])
end

section
/-!
The link's transmitter (O55): what the arbiter chooses and how the chosen frame begins to go out (R67, R178, R181, R183,
R184), a request that is taken when a reply leaves its place (R57, R177), the end of a frame (R185), and TX bit by bit (R174).
-/

namespace Sys2Proof.Machine

variable {s : State} {n : Node} {k : Link}

/-! ## When the arbiter chooses (R184) -/

theorem exec_arbiterChoice (hrun : s.phase = .running) (pins : ArbiterPins) :
    exec (.arbiterChoice pins) s = .next (arbiterLooks pins s) :=
  congrArg _ (whenRunning_running hrun _)

/-- R184: the state in which the arbiter chooses: it has looked at CTS, whose level is kept (log 19). -/
def State.sawCts (cts : Level) (s : State) : State := s.modLink fun k => { k with cts := cts }

/-- R184: while a frame is on the wire or CTS is deasserted nothing starts. -/
theorem arbiterLooks_held {pins : ArbiterPins} (h : s.link.sending ≠ none ∨ pins.cts = .high) :
    arbiterLooks pins s = s.sawCts pins.cts := by
  refine if_neg ?_
  rintro ⟨hsending, hcts⟩
  rcases h with h | h
  · exact h (Option.isNone_iff_eq_none.mp hsending)
  · rw [h] at hcts
    cases hcts

/-- R184: with the transmitter free, CTS asserted and no START unsent, the arbiter chooses between the classes. -/
theorem arbiterLooks_chooses {pins : ArbiterPins} (hsending : s.link.sending = none) (hcts : pins.cts = .low)
    (hstart : ∀ e ∈ s.link.notices, e.notice.isStart = false) :
    arbiterLooks pins s = chooseClass pins.nodes (s.sawCts pins.cts) := by
  refine (if_pos ⟨Option.isNone_iff_eq_none.mpr hsending, hcts⟩).trans ?_
  unfold arbitrate
  split
  · rename_i e rest hnotices
    have he : e.notice.isStart = false := hstart e (by rw [show s.link.notices = e :: rest from hnotices]; simp)
    rw [he]
    rfl
  · rfl

/-! ## The choice between the classes (R184) -/

theorem chooseClass_control {pins : NodePins} (hcontrol : controlWaits s = true)
    (h : s.link.runCount < s.link.ratio ∨ bulkWaits s = false) : chooseClass pins s = sendControl pins s :=
  if_pos ⟨hcontrol, h.symm.imp_left (by simp)⟩

theorem chooseClass_bulk {pins : NodePins}
    (h : controlWaits s = false ∨ (bulkWaits s = true ∧ s.link.ratio ≤ s.link.runCount)) :
    chooseClass pins s = sendBulk s := by
  refine if_neg ?_
  rintro ⟨hcontrol, hturn⟩
  rcases h with h | ⟨hbulk, hratio⟩
  · rw [h] at hcontrol
    cases hcontrol
  · rcases hturn with hturn | hturn
    · exact hturn hbulk
    · omega

theorem controlWaits_none (hr : s.link.replies = []) (hn : s.link.notices = []) : controlWaits s = false := by
  simp [controlWaits, hr, hn]

/-! ## The round robin (R183) -/

theorem nextConsole_none (h : ∀ n : Node, (s.consoles.get n).hasBulk = false) : nextConsole s = none :=
  List.find?_eq_none.mpr fun n _ => by simp [h n]

theorem bulkWaits_none (hcalls : s.link.calls = []) (h : ∀ n : Node, (s.consoles.get n).hasBulk = false) :
    bulkWaits s = false := by
  simp [bulkWaits, hcalls, nextConsole_none h]

/-- R183: the round robin is the nodes at the distances 1 to 4 after the last one served. -/
theorem roundRobin_eq (last : Node) : roundRobin last = (List.range' 1 4).map fun e => last + Fin.ofNat 4 e := by
  fin_cases last <;> rfl

/-- R183: the first console with bulk data after the last node served, by its distance from it. -/
theorem nextConsole_eq {d : Nat} (hd : 1 ≤ d) (hd' : d ≤ 4) (hn : n = s.link.lastServed + Fin.ofNat 4 d)
    (hbulk : (s.consoles.get n).hasBulk = true)
    (hfirst : ∀ e : Nat, 1 ≤ e → e < d → (s.consoles.get (s.link.lastServed + Fin.ofNat 4 e)).hasBulk = false) :
    nextConsole s = some n := by
  rw [nextConsole, roundRobin_eq, List.find?_eq_some_iff_getElem]
  refine ⟨hbulk, d - 1, by simp; omega, ?_, fun e he => ?_⟩
  · rw [List.getElem_map, List.getElem_range', hn]
    congr 2
    omega
  · rw [List.getElem_map, List.getElem_range', hfirst _ (by omega) (by omega)]
    rfl

/-! ## Control frames (R178, R179) -/

/-- R178: with a free entry the first reply that waits for room, if any, moves into the queue. -/
theorem Link.refill_eq (h : k.replies.length < replyRoom) :
    k.refill = { k with replies := k.replies ++ k.waiting.take 1, waiting := k.waiting.drop 1 } := by
  unfold Link.refill
  cases hw : k.waiting with
  | nil =>
    simp only [List.take_nil, List.drop_nil, List.append_nil]
    rw [← hw]
  | cons r rest => exact if_pos h

theorem takeRequests_none {pins : NodePins} (h : s.link.inbox = []) : takeRequests pins s = s := by
  rw [takeRequests, h]
  rfl

/-- R177: one waiting request is taken where the reply queue has room. -/
theorem takeRequests_one {pins : NodePins} {f : InFrame} (h : s.link.inbox = [f]) (hr : s.link.replies.length < replyRoom)
    (hw : s.link.waiting = []) : takeRequests pins s
      = serveRequest f.kind f.tag f.body pins (s.modLink fun k => { k with inbox := [] }) := by
  have hmay : s.link.mayTake = true := by simp [Link.mayTake, hr, hw]
  rw [takeRequests, h, List.length_singleton, drainRequests, h]
  exact if_pos hmay

/-- R178, R184: the link once its first reply has begun to go out, and a waiting one has taken its place. -/
def Link.sentReply (r : Reply) (rest : List Reply) (k : Link) : Link :=
  { k with
    replies := rest ++ k.waiting.take 1
    waiting := k.waiting.drop 1
    sending := some { wire := frameWire 0x80#8 r.tag r.body, effect := replyEffect r }
    runCount := min 15 (k.runCount + 1) }

theorem sendReply_eq {pins : NodePins} {r : Reply} {rest : List Reply} (hrest : rest.length < replyRoom) :
    sendReply pins r rest s = takeRequests pins (s.modLink (Link.sentReply r rest)) := by
  unfold sendReply
  have hlink : s.modLink (fun k => (({ k with replies := rest } : Link).startControl (frameWire 0x80#8 r.tag r.body)
      (replyEffect r)).refill) = s.modLink (Link.sentReply r rest) :=
    congrArg (fun k => { s with link := k }) (Link.refill_eq hrest)
  rw [hlink]

theorem sendControl_reply {pins : NodePins} {r : Reply} {rest : List Reply} (h : s.link.replies = r :: rest) :
    sendControl pins s = sendReply pins r rest s := by
  unfold sendControl
  rw [h]

theorem sendControl_notice {pins : NodePins} {e : NoticeEntry} {rest : List NoticeEntry} (hr : s.link.replies = [])
    (hn : s.link.notices = e :: rest) : sendControl pins s = sendNotice e rest s := by
  unfold sendControl
  rw [hr, hn]

/-! ## Bulk frames (R67, R181) -/

theorem sendBulk_call {c : Call} {rest : List Call} (h : s.link.calls = c :: rest) : sendBulk s = sendCall c rest s := by
  unfold sendBulk
  rw [h]

theorem sendBulk_data (hcalls : s.link.calls = []) (hnext : nextConsole s = some n) : sendBulk s = sendData n s := by
  unfold sendBulk
  rw [hcalls, hnext]

theorem sendBulk_none (hcalls : s.link.calls = []) (hnext : nextConsole s = none) : sendBulk s = s := by
  unfold sendBulk
  rw [hcalls, hnext]

theorem fetchWire_busy {i : Fin 16} {f : Fetch} (h : (s.cache.fetches[i]).busy = some f) : fetchWire s i
    = frameWire 0xA0#8 (BitVec.ofNat 16 ((s.cache.fetches[i]).generation.toNat * 256 + i.val))
        (be8 f.unit.val ++ be32 f.first ++ be8 f.blocks.length) := by
  unfold fetchWire
  rw [h]
  rfl

theorem storeWire_busy {i : Fin 8} {x : Store} (h : (s.cache.stores[i]).busy = some x) : storeWire s i
    = frameWire 0xA1#8 (BitVec.ofNat 16 ((s.cache.stores[i]).generation.toNat * 256 + (16 + i.val)))
        (be8 x.unit.val ++ be32 x.lba ++ (List.range 512).map fun j =>
          Memory.read ramDefault s.ram (512 * x.page.val + j)) := by
  unfold storeWire
  rw [h]
  rfl

/-- R67, R183: the console data of a node begin to go out. -/
theorem sendData_eq {x : Word} {count : Nat} (hx : (s.consoles.get n).cursor = some x)
    (hcount : count = min 256 ((s.consoles.get n).live - x).toNat) : sendData n s = { s with
      consoles := s.consoles.modify n fun c => { c with cursor := some (x + BitVec.ofNat 32 count) }
      link := { s.link with
        lastServed := n, runCount := 0
        sending := some ⟨frameWire 0xB0#8 0#16 (be8 n.val ++ word32 x
          ++ (List.range count).map fun j => historyByte s n (x + BitVec.ofNat 32 j)), .none⟩ } } := by
  subst hcount
  unfold sendData
  simp only [hx]
  rfl

/-! ## The message chosen (R67, R181, R183, R184) -/

/-- R184: CONTROL goes where the run count leaves it a turn or BULK does not wait. -/
abbrev ControlTurn (s : State) : Prop :=
  s.link.runCount < s.link.ratio ∨ (s.link.calls = [] ∧ ∀ n : Node, (s.consoles.get n).hasBulk = false)

/-- R184: BULK goes where CONTROL does not wait or has used up its turns. -/
abbrev BulkTurn (s : State) : Prop :=
  (s.link.replies = [] ∧ s.link.notices = []) ∨ s.link.ratio ≤ s.link.runCount

theorem chooseClass_none {pins : NodePins} (hr : s.link.replies = []) (hn : s.link.notices = [])
    (hcalls : s.link.calls = []) (hbulk : ∀ n : Node, (s.consoles.get n).hasBulk = false) : chooseClass pins s = s := by
  rw [chooseClass_bulk (.inl (controlWaits_none hr hn)), sendBulk_none hcalls (nextConsole_none hbulk)]

/-- R184: nothing starts while a frame is on the wire, while CTS is deasserted, and where nothing waits. -/
theorem arbiterLooks_nothing {pins : ArbiterPins} (hstart : ∀ e ∈ s.link.notices, e.notice.isStart = false)
    (h : s.link.sending ≠ none ∨ pins.cts = .high ∨ (s.link.replies = [] ∧ s.link.notices = [] ∧ s.link.calls = []
      ∧ ∀ n : Node, (s.consoles.get n).hasBulk = false)) : arbiterLooks pins s = s.sawCts pins.cts := by
  by_cases hsending : s.link.sending = none
  · cases hcts : pins.cts with
    | high => exact hcts ▸ arbiterLooks_held (.inr hcts)
    | low =>
      obtain ⟨hr, hn, hcalls, hbulk⟩ := (h.resolve_left (not_not.mpr hsending)).resolve_left (by simp [hcts])
      rw [arbiterLooks_chooses hsending hcts hstart, hcts]
      exact chooseClass_none hr hn hcalls hbulk
  · exact arbiterLooks_held (.inl hsending)

theorem chooseClass_controlTurn {pins : NodePins} (hturn : ControlTurn s) (hcontrol : controlWaits s = true) :
    chooseClass pins s = sendControl pins s :=
  chooseClass_control hcontrol (hturn.imp_right fun ⟨hcalls, hbulk⟩ => bulkWaits_none hcalls hbulk)

theorem chooseClass_reply {pins : NodePins} {r : Reply} {rest : List Reply} (hturn : ControlTurn s)
    (hr : s.link.replies = r :: rest) (hrest : rest.length < replyRoom) :
    chooseClass pins s = takeRequests pins (s.modLink (Link.sentReply r rest)) := by
  rw [chooseClass_controlTurn hturn (by simp [controlWaits, hr]), sendControl_reply hr, sendReply_eq hrest]

theorem chooseClass_notice {pins : NodePins} {e : NoticeEntry} {rest : List NoticeEntry} (hturn : ControlTurn s)
    (hr : s.link.replies = []) (hn : s.link.notices = e :: rest) (he : e.notice.isStart = false) :
    chooseClass pins s = { s with
      link := { s.link with
        notices := rest
        sending := some { wire := frameWire (noticeKind e.notice) 0#16 (noticeBody e), effect := .none }
        runCount := min 15 (s.link.runCount + 1) } } := by
  rw [chooseClass_controlTurn hturn (by simp [controlWaits, hn]), sendControl_notice hr hn, sendNotice, he]
  rfl

theorem chooseClass_bulkTurn {pins : NodePins} (hturn : BulkTurn s) (hbulk : bulkWaits s = true) :
    chooseClass pins s = sendBulk s :=
  chooseClass_bulk (hturn.imp (fun ⟨hr, hn⟩ => controlWaits_none hr hn) fun hratio => ⟨hbulk, hratio⟩)

theorem chooseClass_call {pins : NodePins} {c : Call} {rest : List Call} {wire : List Byte} (hturn : BulkTurn s)
    (hcalls : s.link.calls = c :: rest) (hwire : callWire s c = wire) : chooseClass pins s = { s with
      link := { s.link with calls := rest, runCount := 0, sending := some ⟨wire, .none⟩ } } := by
  rw [chooseClass_bulkTurn hturn (by simp [bulkWaits, hcalls]), sendBulk_call hcalls, sendCall, hwire]
  rfl

theorem chooseClass_data {pins : NodePins} (hturn : BulkTurn s) (hcalls : s.link.calls = [])
    (hnext : nextConsole s = some n) : chooseClass pins s = sendData n s := by
  rw [chooseClass_bulkTurn hturn (by simp [bulkWaits, hnext]), sendBulk_data hcalls hnext]

/-! ## A CONSOLE STATUS that waited (R57, R177) -/

/-- R57, R177: a CONSOLE STATUS taken where the reply queue has room joins it with the level of its node's CTS pin. -/
theorem takeRequests_consoleStatus {pins : NodePins} {f : InFrame} {b : Byte} (h : s.link.inbox = [f])
    (hkind : f.kind = 0x35#8) (hbody : f.body = [b]) (hb : b.toNat = n.val) (hr : s.link.replies.length < replyRoom)
    (hw : s.link.waiting = []) : takeRequests pins s = { s with
      link := { s.link with
        inbox := []
        replies := s.link.replies
          ++ [replyTo f.tag 0x35#8 .done (consoleStatusDetails (s.consoles.get n) (pins.cts.get n))] } } := by
  rw [takeRequests_one h hr hw, hkind, hbody]
  show serveConsoleStatus f.tag [b] pins.cts (s.modLink fun k => { k with inbox := [] }) = _
  simp only [serveConsoleStatus, node?_of_toNat hb]
  exact congrArg (fun k => { s with link := k }) (Link.addReply_free _ { s.link with inbox := [] } hr hw)

/-- R57, R177, R178: where no reply waits for room, a waiting CONSOLE STATUS takes the place of the reply that goes out. -/
theorem takeRequests_sentReply {pins : NodePins} {f : InFrame} {b : Byte} {r : Reply} {rest : List Reply}
    (h : s.link.inbox = [f]) (hkind : f.kind = 0x35#8) (hbody : f.body = [b]) (hb : b.toNat = n.val)
    (hw : s.link.waiting = []) (hrest : rest.length < replyRoom) :
    takeRequests pins (s.modLink (Link.sentReply r rest)) = { s with
      link := { s.link with
        inbox := []
        replies := rest ++ [replyTo f.tag 0x35#8 .done (consoleStatusDetails (s.consoles.get n) (pins.cts.get n))]
        sending := some { wire := frameWire 0x80#8 r.tag r.body, effect := replyEffect r }
        runCount := min 15 (s.link.runCount + 1) } } := by
  have hfree : rest ++ s.link.waiting.take 1 = rest := by
    rw [hw]
    exact List.append_nil rest
  have hnone : s.link.waiting.drop 1 = s.link.waiting := by
    rw [hw]
    rfl
  rw [takeRequests_consoleStatus (s := s.modLink (Link.sentReply r rest)) h hkind hbody hb]
  · simp only [Link.sentReply, State.modLink, hfree, hnone]
  · exact (congrArg List.length hfree).trans_lt hrest
  · exact hnone.trans hw

/-! ## The end of a frame (R174, R185) -/

theorem exec_frameSent (hrun : s.phase = .running) : exec .frameSent s = .next (frameEnds s) :=
  congrArg _ (whenRunning_running hrun _)

theorem frameEnds_sent {x : Sending} (h : s.link.sending = some x) :
    frameEnds s = s.modLink fun k => ({ k with sending := none } : Link).afterSent x.effect := by
  unfold frameEnds
  rw [h]

theorem frameEnds_idle (h : s.link.sending = none) : frameEnds s = s := by
  unfold frameEnds
  rw [h]

/-! ## TX bit by bit (R174, R184) -/

/-- R174: the ten bit times of a byte: low, its bits from the least significant on, high. -/
theorem linkBits_eq (b : Byte) : linkBits b = false :: ((List.range 8).map fun i => b.getLsbD i) ++ [true] := by
  simp [linkBits, uartBits, parityBits]

/-- R174: bit `j` of a byte comes after its start bit. -/
theorem linkBits_data (b : Byte) {j : Nat} (hj : j < 8) : (linkBits b).getD (1 + j) true = b.getLsbD j := by
  rw [linkBits_eq, Nat.add_comm, List.cons_append, List.getD_cons_succ,
    List.getD_append _ _ _ _ (by rw [List.length_map, List.length_range]; exact hj)]
  simp [hj]

theorem linkTx_sending {x : Sending} (hrun : s.phase = .running) (h : s.link.sending = some x) (i : Nat) :
    s.linkTx i = levelOf ((x.wire.flatMap linkBits).getD i true) := by
  rw [State.linkTx, if_pos hrun, Link.txBits, h]

/-- R174, R184: bit time `j` of byte `i` of the frame on the wire. -/
theorem linkTx_byte {x : Sending} {i j : Nat} {b : Byte} (hrun : s.phase = .running) (h : s.link.sending = some x)
    (hb : x.wire[i]? = some b) (hj : j < 10) : s.linkTx (10 * i + j) = levelOf ((linkBits b).getD j true) := by
  rw [linkTx_sending hrun h, getD_flatMap_block length_linkBits true x.wire i j b hb hj]

theorem linkTx_beyond {x : Sending} {i : Nat} (hrun : s.phase = .running) (h : s.link.sending = some x)
    (hi : 10 * x.wire.length ≤ i) : s.linkTx i = .high := by
  rw [linkTx_sending hrun h, getD_flatMap_beyond length_linkBits true x.wire hi]
  rfl

/-- R184: TX is high between frames and until loading ends. -/
theorem linkTx_quiet (h : s.link.sending = none ∨ s.phase ≠ .running) (i : Nat) : s.linkTx i = .high := by
  unfold State.linkTx
  split
  · rename_i hrun
    rw [Link.txBits, h.resolve_right (fun hnot => hnot hrun)]
    rfl
  · rfl

end Sys2Proof.Machine

open Sys2Proof Sys2Proof.Machine

/-- Settles O55: the arbiter's choice is that of a class and then of a message; each message goes out as one change of the
link, and TX carries the ten bit times of each of its bytes. -/
theorem arbiterChoosesByRatio : Obligations.ArbiterChoosesByRatio := by
  refine ⟨?_, ?_, ?_, ?_, fun i s h => linkTx_quiet h i⟩
  · intro pins k s hrun hk hinbox hstart
    subst hk
    rw [exec_arbiterChoice hrun]
    refine ⟨fun h => congrArg _ (arbiterLooks_nothing hstart h), fun hsending hcts => ?_⟩
    · rw [arbiterLooks_chooses hsending hcts hstart]
      refine ⟨fun hturn => ⟨fun r rest hr hrest => ?_, fun e rest hr hn => ?_⟩, fun hturn => ⟨?_, ?_, ?_⟩⟩
      · rw [chooseClass_reply (s := s.sawCts pins.cts) hturn hr hrest]
        exact congrArg _ (takeRequests_none hinbox)
      · have he : e.notice.isStart = false := hstart e (by simp [hn])
        exact congrArg _ (chooseClass_notice (s := s.sawCts pins.cts) hturn hr hn he)
      · intro i f rest hcalls hf
        exact congrArg _ (chooseClass_call (s := s.sawCts pins.cts) hturn hcalls (fetchWire_busy hf))
      · intro i x rest hcalls hx
        exact congrArg _ (chooseClass_call (s := s.sawCts pins.cts) hturn hcalls (storeWire_busy hx))
      · intro n x d count hcalls hbulk hx hd hd' hn hfirst hcount
        have hnext : nextConsole (s.sawCts pins.cts) = some n := nextConsole_eq hd hd' hn hbulk hfirst
        rw [chooseClass_data (s := s.sawCts pins.cts) hturn hcalls hnext]
        exact congrArg _ (sendData_eq hx hcount)
  · intro w s hrun
    rw [exec_frameSent hrun]
    exact ⟨fun h => congrArg _ (frameEnds_sent h), fun h => congrArg _ (frameEnds_sent h),
      fun x h => congrArg _ (frameEnds_sent h), fun h => congrArg _ (frameEnds_idle h)⟩
  · intro pins f n b r rest s hrun hinbox hkind hbody hb hstart hsending hcts hratio hwaiting hr hrest
    rw [exec_arbiterChoice hrun, arbiterLooks_chooses hsending hcts hstart,
      chooseClass_reply (s := s.sawCts pins.cts) (.inl hratio) hr hrest]
    exact congrArg _ (takeRequests_sentReply hinbox hkind hbody hb hwaiting hrest)
  · intro x s hrun h
    refine ⟨fun i j b hb hj => ⟨?_, ?_, ?_⟩, fun i hi => linkTx_beyond hrun h hi⟩
    · exact linkTx_byte (j := 0) hrun h hb (by decide)
    · rw [Nat.add_assoc, linkTx_byte hrun h hb (by omega), linkBits_data b hj]
      rfl
    · rw [linkTx_byte hrun h hb (by decide), linkBits_eq]
      rfl
end

section
/-!
SUPPORT. The accounts of the page pool (R76, R78): what each holder holds after pages change owner, and the sums that R79
bounds. They speak of the owner table and the reservations alone.
-/

namespace Sys2Proof.Machine

section
variable {p : Pool} {q : PageId} {g h : Holder}

/-! ## Held counts (R76) -/

theorem toList_eq_map_finRange {α : Type} {k : Nat} (v : Vector α k) : v.toList = (List.finRange k).map fun i => v[i] := by
  rw [← List.ofFn_eq_map]
  exact List.ext_getElem (by simp) fun i _ _ => by simp

/-- R76: the held count counts the pages of the table. -/
theorem held_eq_countP (p : Pool) (h : Holder) : p.held h = allPages.countP fun q => p.owners[q] == some h := by
  rw [Pool.held, toList_eq_map_finRange, List.count, List.countP_map]
  rfl

theorem held_congr {p' : Pool} (ho : p'.owners = p.owners) (h : Holder) : p'.held h = p.held h :=
  congrArg (fun o => o.toList.count (some h)) ho

/-- R76: one page changes owner. -/
theorem held_setOwner (p : Pool) (q : PageId) (o : Option Holder) (h : Holder) :
    (p.setOwner q o).held h + (if p.owners[q] = some h then 1 else 0) = p.held h + (if o = some h then 1 else 0) := by
  have hset : (p.setOwner q o).held h
      = (p.held h - if p.owners[q] = some h then 1 else 0) + if o = some h then 1 else 0 := by
    have := Vector.count_set (a := o) (b := some h) (xs := p.owners) q.isLt
    simpa [Pool.held, Pool.setOwner] using this
  have hpos : p.owners[q] = some h → 0 < p.held h := fun e => by
    rw [held_eq_countP]
    exact List.countP_pos_iff.mpr ⟨q, List.mem_finRange q, by simp [e]⟩
  by_cases hq : p.owners[q] = some h
  · have := hpos hq
    rw [if_pos hq] at hset ⊢
    omega
  · rw [if_neg hq] at hset ⊢
    exact hset

/-- R76: a list that names the pages of a holder, each once, is as long as its held count. -/
theorem length_eq_held {l : List PageId} (hl : l.Nodup) (hmem : ∀ q : PageId, q ∈ l ↔ p.owners[q] = some h) :
    l.length = p.held h := by
  rw [held_eq_countP, List.countP_eq_length_filter]
  refine List.Perm.length_eq ((List.perm_ext_iff_of_nodup hl ((List.nodup_finRange 256).filter _)).mpr fun q => ?_)
  rw [hmem, List.mem_filter]
  simp

/-! ## Reservations and borrows (R78) -/

theorem reservation_setOwner (p : Pool) (q : PageId) (o : Option Holder) (h : Holder) :
    ((p.setOwner q o).holder h).reservation = (p.holder h).reservation := by
  cases h <;> rfl

theorem reserved_congr {p' : Pool} (hr : ∀ g, (p'.holder g).reservation = (p.holder g).reservation) :
    p'.reserved = p.reserved :=
  congrArg List.sum (List.map_congr_left fun g _ => hr g)

theorem common_congr {p' : Pool} (hr : ∀ g, (p'.holder g).reservation = (p.holder g).reservation) :
    p'.common = p.common := by
  rw [Pool.common, reserved_congr hr]
  rfl

/-- R78: the borrows follow the owner table and the reservations. -/
theorem borrowed_congr {p' : Pool} (ho : p'.owners = p.owners)
    (hr : ∀ g, (p'.holder g).reservation = (p.holder g).reservation) : p'.borrowed = p.borrowed :=
  congrArg List.sum (List.map_congr_left fun g _ => by rw [Pool.borrow, Pool.borrow, held_congr ho, hr])

/-- R78: one for one holder, 0 for the others, is one in all. -/
theorem sum_holders_one (h : Holder) : (allHolders.map fun g => if g = h then 1 else 0).sum = 1 := by
  rcases h with n | u
  · fin_cases n <;> rfl
  · fin_cases u <;> rfl

theorem borrowed_mono {p' : Pool} (hle : ∀ g, p'.borrow g ≤ p.borrow g) : p'.borrowed ≤ p.borrowed :=
  List.sum_le_sum fun g _ => hle g

/-- R78: one holder borrows at most one page more. -/
theorem borrowed_le_succ {p' : Pool} (h : Holder) (hle : ∀ g, p'.borrow g ≤ p.borrow g + if g = h then 1 else 0) :
    p'.borrowed ≤ p.borrowed + 1 := by
  calc p'.borrowed ≤ (allHolders.map fun g => p.borrow g + if g = h then 1 else 0).sum :=
        List.sum_le_sum fun g _ => hle g
    _ = p.borrowed + 1 := by rw [List.sum_map_add, sum_holders_one]; rfl

/-- R78: one holder borrows at most one page more, and another one page less. -/
theorem borrowed_le_of_moved {p' : Pool} (g h : Holder)
    (hle : ∀ x, p'.borrow x + (if x = g then 1 else 0) ≤ p.borrow x + if x = h then 1 else 0) :
    p'.borrowed ≤ p.borrowed := by
  have hsum : (allHolders.map fun x => p'.borrow x + if x = g then 1 else 0).sum
      ≤ (allHolders.map fun x => p.borrow x + if x = h then 1 else 0).sum := List.sum_le_sum fun x _ => hle x
  rw [List.sum_map_add, List.sum_map_add, sum_holders_one, sum_holders_one] at hsum
  exact Nat.le_of_succ_le_succ hsum

/-! ## The counts that R79 bounds -/

/-- R77, R79: the borrows stay within the common part, and each console has two pages, and two reserved. -/
structure PoolCounts (p : Pool) : Prop where
  borrowed : p.borrowed ≤ p.common
  console : ∀ n : Node, 2 ≤ p.held (.ch n)
  reserved : ∀ n : Node, 2 ≤ (p.holder (.ch n)).reservation

theorem PoolCounts.congr {p' : Pool} (h : PoolCounts p) (ho : p'.owners = p.owners)
    (hr : ∀ g, (p'.holder g).reservation = (p.holder g).reservation) : PoolCounts p' where
  borrowed := by
    rw [borrowed_congr ho hr, common_congr hr]
    exact h.borrowed
  console n := by
    rw [held_congr ho]
    exact h.console n
  reserved n := by
    rw [hr]
    exact h.reserved n

/-- R79: a page changes owner where the borrows stay within the common part and no console falls below two pages. -/
theorem PoolCounts.setOwner {o : Option Holder} (hc : PoolCounts p) (hborrowed : (p.setOwner q o).borrowed ≤ p.common)
    (hconsole : ∀ n : Node, 2 ≤ (p.setOwner q o).held (.ch n)) : PoolCounts (p.setOwner q o) where
  borrowed := hborrowed.trans_eq (common_congr (reservation_setOwner p q o)).symm
  console := hconsole
  reserved n := by
    rw [reservation_setOwner]
    exact hc.reserved n

theorem borrow_setOwner (p : Pool) (q : PageId) (o : Option Holder) (h : Holder) :
    (p.setOwner q o).borrow h = (p.setOwner q o).held h - (p.holder h).reservation := by
  rw [Pool.borrow, reservation_setOwner]

/-- R81, R82: a free page goes to a holder below its reservation, or while the common part is not lent out. -/
theorem PoolCounts.grant (hc : PoolCounts p) (hfree : p.owners[q] = none)
    (hroom : p.held h < (p.holder h).reservation ∨ p.borrowed < p.common) : PoolCounts (p.setOwner q (some h)) := by
  have hheld : ∀ g, (p.setOwner q (some h)).held g = p.held g + if g = h then 1 else 0 := fun g => by
    have := held_setOwner p q (some h) g
    simpa [hfree, eq_comm (a := h)] using this
  refine hc.setOwner ?_ fun n => ?_
  · rcases hroom with hshort | hcommon
    · refine (borrowed_mono fun g => ?_).trans hc.borrowed
      rw [borrow_setOwner, hheld, Pool.borrow]
      split_ifs with e
      · subst e
        omega
      · omega
    · refine (borrowed_le_succ h fun g => ?_).trans hcommon
      rw [borrow_setOwner, hheld, Pool.borrow]
      split_ifs <;> omega
  · rw [hheld]
    exact (hc.console n).trans (Nat.le_add_right _ _)

/-- R83, R84: a page passes from a holder that borrows to another. -/
theorem PoolCounts.pass (hc : PoolCounts p) (howner : p.owners[q] = some g) (hne : g ≠ h) (hborrow : 0 < p.borrow g) :
    PoolCounts (p.setOwner q (some h)) := by
  have hheld : ∀ x, (p.setOwner q (some h)).held x + (if x = g then 1 else 0) = p.held x + if x = h then 1 else 0 :=
    fun x => by
      have := held_setOwner p q (some h) x
      simpa [howner, eq_comm (a := h), eq_comm (a := g)] using this
  rw [Pool.borrow] at hborrow
  refine hc.setOwner ((borrowed_le_of_moved g h fun x => ?_).trans hc.borrowed) fun n => ?_
  · have hx := hheld x
    rw [borrow_setOwner, Pool.borrow]
    by_cases hxg : x = g
    · subst hxg
      rw [if_neg hne] at hx ⊢
      rw [if_pos rfl] at hx ⊢
      omega
    · rw [if_neg hxg] at hx ⊢
      split_ifs at hx ⊢ <;> omega
  · have hx := hheld (.ch n)
    have hn := hc.console n
    by_cases e : Holder.ch n = g
    · subst e
      have hr := hc.reserved n
      rw [if_pos rfl, if_neg hne] at hx
      omega
    · rw [if_neg e] at hx
      exact hn.trans ((Nat.le_add_right _ _).trans_eq hx.symm)

/-- R87: pages of a cache holder become free. -/
theorem PoolCounts.free {p' : Pool} (hc : PoolCounts p) (hr : ∀ g, (p'.holder g).reservation = (p.holder g).reservation)
    (hconsole : ∀ (r : PageId) (n : Node), p'.owners[r] = some (.ch n) ↔ p.owners[r] = some (.ch n))
    (hcache : ∀ (r : PageId) (u : UnitId), p'.owners[r] = some (.mh u) → p.owners[r] = some (.mh u)) : PoolCounts p' := by
  have hheld : ∀ g, p'.held g ≤ p.held g := fun g => by
    rw [held_eq_countP, held_eq_countP]
    refine List.countP_mono_left fun r _ e => ?_
    rw [beq_iff_eq] at e ⊢
    cases g with
    | ch n => exact (hconsole r n).mp e
    | mh u => exact hcache r u e
  refine ⟨?_, fun n => ?_, fun n => ?_⟩
  · rw [common_congr hr]
    refine (borrowed_mono fun g => ?_).trans hc.borrowed
    rw [Pool.borrow, Pool.borrow, hr]
    exact Nat.sub_le_sub_right (hheld g) _
  · refine (hc.console n).trans_eq ?_
    rw [held_eq_countP, held_eq_countP]
    refine List.countP_congr fun r _ => ?_
    rw [beq_iff_eq, beq_iff_eq, hconsole]
  · rw [hr]
    exact hc.reserved n

/-! ## Settings (R77) -/

/-- R77: where the settings are legal every holder's are. -/
theorem holderFits_of_settingsLaw {s : State} (h : SettingsLaw s) (g : Holder) : HolderFits g (s.pool.holder g).settings := by
  obtain ⟨-, -, -, -, hnodes, -⟩ := h
  cases g with
  | ch n =>
    obtain ⟨-, -, -, -, hch, -⟩ := hnodes n
    simp only [State.settings, Per4.get_map] at hch
    exact hch
  | mh u =>
    obtain ⟨-, -, -, -, -, hmh, -⟩ := hnodes u
    simp only [State.settings, Per4.get_map] at hmh
    exact hmh

end

end Sys2Proof.Machine
end

section
/-!
SUPPORT. What each page of the pool holds (R46, R76, R93, R130): the law of the pool in the form that a step keeps
(`HoldsBut`), with one page left open while it passes from hand to hand, and the part of the state that it speaks of
(`poolView`): most of what a step does leaves that part alone.
-/

namespace Sys2Proof.Machine

/-! ## What the law speaks of -/

/-- The part of a state that the law of the pool speaks of. -/
def poolView (s : State) : Vector (Option Holder) 256 × Per4 Nat × Per4 Nat × Per4 (List PageId) × List (PageId × UnitId)
    × Per4 (Bool × Per4 Bool) :=
  (s.pool.owners, s.pool.consoles.map (·.reservation), s.pool.caches.map (·.reservation), s.consoles.map (·.pages),
    s.cache.directory.map fun r => (r.page, r.unit), s.units.map fun x => (decide (x.state = .detached), x.nodes))

/-- R46, R76, R93, R130: the pages of each history and the records of the directory are those of the owner table, but for
the page `x`, if one is given, which no list names. -/
structure HoldsBut (x : Option PageId) (s : State) : Prop where
  history : ∀ n : Node, (s.consoles.get n).pages.Nodup
    ∧ ∀ p : PageId, p ∈ (s.consoles.get n).pages ↔ s.pool.owners[p] = some (.ch n) ∧ x ≠ some p
  nodup : (s.cache.directory.map fun r => r.page).Nodup
  record : ∀ r ∈ s.cache.directory,
    s.pool.owners[r.page] = some (.mh r.unit) ∧ x ≠ some r.page ∧ (s.units.get r.unit).state ≠ .detached
  recorded : ∀ (p : PageId) (u : UnitId), s.pool.owners[p] = some (.mh u) → x ≠ some p →
    p ∈ s.cache.directory.map fun r => r.page
  served : ∀ (u : UnitId) (n : Node), (s.units.get u).nodes.get n → (s.units.get u).state ≠ .detached
  counts : PoolCounts s.pool

/-- Every page in its place. -/
abbrev PoolHolds (s : State) : Prop := HoldsBut none s

section
variable {x : Option PageId} {s t u : State} {n : Node} {v : UnitId} {p q : PageId} {g h : Holder}

/-- What the law does not speak of may change. -/
protected theorem HoldsBut.same (hs : HoldsBut x s) (e : poolView t = poolView s) : HoldsBut x t := by
  simp only [poolView, Prod.mk.injEq] at e
  obtain ⟨howners, hch, hmh, hpages, hdir, hunits⟩ := e
  have hp : ∀ n, (t.consoles.get n).pages = (s.consoles.get n).pages := fun n => by
    simpa using congrArg (·.get n) hpages
  have hu : ∀ v, ((t.units.get v).state = .detached ↔ (s.units.get v).state = .detached)
      ∧ (t.units.get v).nodes = (s.units.get v).nodes := fun v => by
    simpa using congrArg (·.get v) hunits
  have hr : ∀ g, (t.pool.holder g).reservation = (s.pool.holder g).reservation := fun g => by
    cases g with
    | ch n => simpa [Pool.holder] using congrArg (·.get n) hch
    | mh v => simpa [Pool.holder] using congrArg (·.get v) hmh
  have hmap : (t.cache.directory.map fun r => r.page) = s.cache.directory.map fun r => r.page := by
    simpa [Function.comp_def] using congrArg (List.map Prod.fst) hdir
  refine ⟨fun n => ?_, ?_, fun r hr => ?_, fun q v => ?_, fun v n => ?_, hs.counts.congr howners hr⟩
  · rw [hp, howners]
    exact hs.history n
  · rw [hmap]
    exact hs.nodup
  · have hpair : (r.page, r.unit) ∈ s.cache.directory.map fun r => (r.page, r.unit) :=
      hdir ▸ List.mem_map_of_mem (f := fun r : DirRecord => (r.page, r.unit)) hr
    obtain ⟨r', hr', e⟩ := List.mem_map.mp hpair
    obtain ⟨epage, eunit⟩ := Prod.mk.inj e
    have hrecord := hs.record r' hr'
    simp only [epage, eunit] at hrecord
    rwa [howners, ne_eq, ne_eq, (hu _).1]
  · rw [howners, hmap]
    exact hs.recorded q v
  · rw [ne_eq, (hu v).1, (hu v).2]
    exact hs.served v n

/-- R93, R96: the unit that serves a node is not DETACHED. -/
theorem HoldsBut.unitOf (hs : HoldsBut x s) (e : unitOf s n = some v) : (s.units.get v).state ≠ .detached :=
  hs.served v n (by simpa using List.find?_some e)

/-! ## A page in passing -/

/-- Pages with different owners are different pages. -/
theorem page_ne_of_owner {pool : Pool} {o o' : Option Holder} (hp : pool.owners[p] = o) (hq : pool.owners[q] = o')
    (hne : o ≠ o') : some p ≠ some q := by
  rintro ⟨⟩
  exact hne (hp.symm.trans hq)

/-- R76: a page whose owner's lists are not meant to name it may be left open, and closed again. -/
theorem HoldsBut.reopen {y : Option PageId} (hs : HoldsBut x s) (hfree : ∀ p g, s.pool.owners[p] = some g →
    (x ≠ some p ↔ y ≠ some p)) : HoldsBut y s where
  history n := ⟨(hs.history n).1, fun q => ((hs.history n).2 q).trans (and_congr_right fun e => hfree q _ e)⟩
  nodup := hs.nodup
  record r hr := by
    obtain ⟨howner, hx, hstate⟩ := hs.record r hr
    exact ⟨howner, (hfree _ _ howner).mp hx, hstate⟩
  recorded q v e hy := hs.recorded q v e ((hfree q _ e).mpr hy)
  served := hs.served
  counts := hs.counts

/-- R76: a free page stands in no list. -/
theorem HoldsBut.loosen (hs : PoolHolds s) (hfree : s.pool.owners[p] = none) : HoldsBut (some p) s :=
  hs.reopen fun _ _ e => iff_of_true (by simp) (page_ne_of_owner hfree e (by simp))

/-- R76: a page that stands in no list is in its place where it is free. -/
theorem HoldsBut.settle (hs : HoldsBut (some p) s) (hfree : s.pool.owners[p] = none) : PoolHolds s :=
  hs.reopen fun _ _ e => iff_of_true (page_ne_of_owner hfree e (by simp)) (by simp)

/-- R76: a page that stands in no list may change owner. -/
theorem HoldsBut.setOwner {o : Option Holder} (hs : HoldsBut (some p) s) (hc : PoolCounts (s.pool.setOwner p o)) :
    HoldsBut (some p) (s.modPool (Pool.setOwner p o)) := by
  have hother : ∀ q : PageId, some p ≠ some q → (s.pool.setOwner p o).owners[q] = s.pool.owners[q] := fun q hq => by
    rw [owners_setOwner, if_neg fun e => hq (by rw [e])]
  refine ⟨fun n => ⟨(hs.history n).1, fun q => ?_⟩, hs.nodup, fun r hr => ?_, fun q v e hq => ?_, hs.served, hc⟩
  · refine ((hs.history n).2 q).trans (and_congr_left fun hq => ?_)
    rw [State.modPool_pool, hother q hq]
  · obtain ⟨howner, hq, hstate⟩ := hs.record r hr
    refine ⟨?_, hq, hstate⟩
    rwa [State.modPool_pool, hother _ hq]
  · rw [State.modPool_pool, hother q hq] at e
    exact hs.recorded q v e hq

/-- R47: a console's page joins its history. -/
theorem HoldsBut.join (hs : HoldsBut (some p) s) (howner : s.pool.owners[p] = some (.ch n)) :
    PoolHolds (s.modConsole n fun c => { c with pages := c.pages ++ [p] }) where
  history m := by
    obtain ⟨hnodup, hmem⟩ := hs.history m
    rw [State.modConsole_consoles, Per4.get_modify, State.modConsole_pool]
    split_ifs with e
    · subst e
      refine ⟨hnodup.append (List.nodup_singleton p) (List.disjoint_singleton.mpr fun hp => ((hmem p).mp hp).2 rfl),
        fun q => ?_⟩
      rw [List.mem_append, hmem, List.mem_singleton]
      by_cases hq : q = p
      · simp [hq, howner]
      · simp [hq, Ne.symm hq]
    · refine ⟨hnodup, fun q => (hmem q).trans (and_congr_right fun eq => iff_of_true ?_ (by simp))⟩
      exact page_ne_of_owner howner eq (by simpa using Ne.symm e)
  nodup := hs.nodup
  record r hr := by
    obtain ⟨hr, -, hstate⟩ := hs.record r hr
    exact ⟨hr, by simp, hstate⟩
  recorded q v e _ := hs.recorded q v e (page_ne_of_owner howner e (by simp))
  served := hs.served
  counts := hs.counts

theorem insertRecord_perm (r : DirRecord) (l : List DirRecord) : (insertRecord r l).Perm (r :: l) := by
  induction l with
  | nil => exact .refl _
  | cons y l ih =>
    unfold insertRecord
    split
    · exact .refl _
    · exact (ih.cons y).trans (.swap r y l)

/-- R130: a cache page gets its record. -/
theorem HoldsBut.addRecord {r : DirRecord} (hs : HoldsBut (some r.page) s)
    (howner : s.pool.owners[r.page] = some (.mh r.unit)) (hunit : (s.units.get r.unit).state ≠ .detached) :
    PoolHolds (addRecord r s) where
  history m := by
    obtain ⟨hnodup, hmem⟩ := hs.history m
    exact ⟨hnodup, fun q => (hmem q).trans (and_congr_right fun e =>
      iff_of_true (page_ne_of_owner howner e (by simp)) (by simp))⟩
  nodup := by
    refine (((insertRecord_perm r s.cache.directory).map _).nodup_iff).mpr (List.nodup_cons.mpr ⟨fun hr => ?_, hs.nodup⟩)
    obtain ⟨y, hy, e⟩ := List.mem_map.mp hr
    exact (hs.record y hy).2.1 (congrArg some e.symm)
  record y hy := by
    rcases List.mem_cons.mp ((insertRecord_perm r s.cache.directory).mem_iff.mp hy) with rfl | hy
    · exact ⟨howner, by simp, hunit⟩
    · obtain ⟨hr, -, hstate⟩ := hs.record y hy
      exact ⟨hr, by simp, hstate⟩
  recorded q v e _ := by
    refine ((insertRecord_perm r s.cache.directory).map _).mem_iff.mpr (List.mem_cons.mpr ?_)
    by_cases hq : q = r.page
    · exact .inl hq
    · exact .inr (hs.recorded q v e fun eq => hq (Option.some.inj eq).symm)
  served := hs.served
  counts := hs.counts

/-! ## A page leaves its holder's content (R84, R130) -/

theorem foldl_leavesFirst_mem (l : List DirRecord) (a : DirRecord) : l.foldl leavesFirst a ∈ a :: l := by
  induction l generalizing a with
  | nil => exact List.mem_singleton.mpr rfl
  | cons b l ih =>
    have hfirst : leavesFirst a b = a ∨ leavesFirst a b = b := by
      unfold leavesFirst
      split_ifs <;> simp
    rw [List.foldl_cons]
    rcases hfirst with h | h <;> rw [h]
    · exact List.mem_cons.mpr ((List.mem_cons.mp (ih a)).imp_right (List.mem_cons_of_mem b))
    · exact List.mem_cons_of_mem a (ih b)

/-- R84: the evictable page of a cache holder is that of one of its CLEAN records. -/
theorem record_of_evictable (e : evictable s (.mh v) = some p) :
    ∃ r ∈ s.cache.directory, r.page = p ∧ r.unit = v ∧ r.state = .clean := by
  simp only [evictable, evictableCachePage] at e
  split at e
  · cases e
  · rename_i r rs hfilter
    have hmem := List.mem_filter.mp (hfilter ▸ foldl_leavesFirst_mem rs r)
    simp only [Bool.and_eq_true, beq_iff_eq] at hmem
    exact ⟨_, hmem.1, Option.some.inj e, hmem.2⟩

theorem head_of_evictable (e : evictable s (.ch n) = some p) : (s.consoles.get n).pages.head? = some p := by
  simp only [evictable, evictableConsolePage] at e
  split_ifs at e
  exact e

/-- R84: the holder of an evictable page is its owner. -/
theorem HoldsBut.owner_of_evictable (hs : PoolHolds s) (e : evictable s g = some p) : s.pool.owners[p] = some g := by
  cases g with
  | ch n => exact (((hs.history n).2 p).mp (List.mem_of_head? (head_of_evictable e))).1
  | mh v =>
    obtain ⟨r, hr, rfl, rfl, -⟩ := record_of_evictable e
    exact (hs.record r hr).1

/-- R130: the record of a cache page goes. -/
theorem HoldsBut.dropRecord (hs : PoolHolds s) (howner : s.pool.owners[p] = some (.mh v)) :
    HoldsBut (some p) (dropRecord p s) where
  history n := ⟨(hs.history n).1, fun q => ((hs.history n).2 q).trans (and_congr_right fun e =>
    iff_of_true (by simp) (page_ne_of_owner howner e (by simp)))⟩
  nodup := hs.nodup.sublist (List.filter_sublist.map _)
  record r hr := by
    obtain ⟨hmem, hne⟩ := List.mem_filter.mp hr
    obtain ⟨hr, -, hstate⟩ := hs.record r hmem
    exact ⟨hr, fun e => by simp [Option.some.inj e] at hne, hstate⟩
  recorded q w e hq := by
    obtain ⟨r, hr, rfl⟩ := List.mem_map.mp (hs.recorded q w e (by simp))
    exact List.mem_map_of_mem (List.mem_filter.mpr ⟨hr, by simpa using fun e => hq (congrArg some e.symm)⟩)
  served := hs.served
  counts := hs.counts

/-- R48: the first page of a history leaves. -/
theorem HoldsBut.leavesFront (hs : PoolHolds s) (hhead : (s.consoles.get n).pages.head? = some p) {d : Console}
    (hd : d.pages = (s.consoles.get n).pages.drop 1) : HoldsBut (some p) { s with consoles := s.consoles.set n d } := by
  obtain ⟨hnodup, hmem⟩ := hs.history n
  obtain ⟨l, hl⟩ : ∃ l, (s.consoles.get n).pages = p :: l := ⟨_, List.eq_cons_of_mem_head? hhead⟩
  rw [hl] at hnodup hmem hd
  obtain ⟨hp, hnodup⟩ := List.nodup_cons.mp hnodup
  have howner : s.pool.owners[p] = some (.ch n) := ((hmem p).mp List.mem_cons_self).1
  refine ⟨fun m => ?_, hs.nodup, fun r hr => ?_, fun q v e _ => hs.recorded q v e (by simp), hs.served, hs.counts⟩
  · rw [Per4.get_set]
    split_ifs with e
    · subst e
      rw [hd]
      refine ⟨hnodup, fun q => ?_⟩
      have hq := hmem q
      by_cases e : q = p
      · simp [e, hp]
      · simpa [e, Ne.symm e] using hq
    · exact ⟨(hs.history m).1, fun q => ((hs.history m).2 q).trans (and_congr_right fun eq =>
        iff_of_true (by simp) (page_ne_of_owner howner eq (by simpa using Ne.symm e)))⟩
  · obtain ⟨hr, -, hstate⟩ := hs.record r hr
    exact ⟨hr, page_ne_of_owner howner hr (by simp), hstate⟩

end

end Sys2Proof.Machine
end

section
/-!
SUPPORT. The updates that leave what the law of the pool speaks of alone (`poolView`), how the law goes through the model's
loops, and the allocation (R80 to R86): the page that it gives is the new holder's and stands in no list yet.
-/

namespace Sys2Proof.Machine

section
variable {x : Option PageId} {s t u : State} {n : Node} {v : UnitId} {p q : PageId} {g h : Holder}

/-! ## The updates -/

@[simp] theorem poolView_modLines (f : Lines → Lines) (s : State) : poolView (s.modLines f) = poolView s := rfl
@[simp] theorem poolView_modPower (f : Sequencer → Sequencer) (s : State) : poolView (s.modPower f) = poolView s := rfl
@[simp] theorem poolView_modRam (f : List Host.Cell → List Host.Cell) (s : State) :
    poolView (s.modRam f) = poolView s := rfl
@[simp] theorem poolView_modBoot (f : Boot → Boot) (s : State) : poolView (s.modBoot f) = poolView s := rfl
@[simp] theorem poolView_modLink (f : Link → Link) (s : State) : poolView (s.modLink f) = poolView s := rfl
@[simp] theorem poolView_modLoader (f : Loader → Loader) (s : State) : poolView (s.modLoader f) = poolView s := rfl
@[simp] theorem poolView_modPort (n : Node) (f : Port → Port) (s : State) : poolView (s.modPort n f) = poolView s := rfl
@[simp] theorem poolView_modLine (n : Node) (l : LineId) (f : Line → Line) (s : State) :
    poolView (s.modLine n l f) = poolView s := rfl
@[simp] theorem poolView_setAction (n : Node) (a : Option Action) (s : State) :
    poolView (s.setAction n a) = poolView s := rfl
@[simp] theorem poolView_setSlot (n : Node) (k : Option RecoveryKind) (s : State) :
    poolView (s.setSlot n k) = poolView s := rfl
@[simp] theorem poolView_modSupervisor (n : Node) (f : Supervisor → Supervisor) (s : State) :
    poolView (s.modSupervisor n f) = poolView s := rfl
@[simp] theorem poolView_clearPartials (n : Node) (s : State) : poolView (s.clearPartials n) = poolView s := rfl
@[simp] theorem poolView_notify (k : Notice) (s : State) : poolView (s.notify k) = poolView s := rfl
@[simp] theorem poolView_reply (tag : Tag) (kind : Byte) (r : Result) (d : List Byte) (s : State) :
    poolView (s.reply tag kind r d) = poolView s := rfl
@[simp] theorem poolView_drew (k : Nat) (s : State) : poolView (s.drew k) = poolView s := rfl

/-- A console may change but for its pages. -/
@[simp] theorem poolView_modConsole {f : Console → Console} (hf : (f (s.consoles.get n)).pages = (s.consoles.get n).pages) :
    poolView (s.modConsole n f) = poolView s := by
  have hpages := Per4.map_modify s.consoles n (g := fun c : Console => c.pages) hf
  simp only [poolView, State.modConsole, hpages]

@[simp] theorem poolView_mark (n : Node) (k : MarkKind) (s : State) : poolView (s.mark n k) = poolView s :=
  poolView_modConsole rfl

/-- The engine may change but for the pages and units of its records. -/
theorem poolView_directory {f : Cache → Cache}
    (hf : (f s.cache).directory.map (fun r => (r.page, r.unit)) = s.cache.directory.map fun r => (r.page, r.unit)) :
    poolView (s.modCache f) = poolView s := by
  simp only [poolView, State.modCache, hf]

@[simp] theorem poolView_modCache {f : Cache → Cache} (hf : (f s.cache).directory = s.cache.directory) :
    poolView (s.modCache f) = poolView s :=
  poolView_directory (by rw [hf])

@[simp] theorem directory_setFetch (c : Cache) (i : Fin 16) (e : FetchEntry) : (c.setFetch i e).directory = c.directory := rfl

@[simp] theorem directory_setStore (c : Cache) (i : Fin 8) (e : StoreEntry) : (c.setStore i e).directory = c.directory := rfl

@[simp] theorem poolView_modRecord {f : DirRecord → DirRecord} (hp : ∀ r, (f r).page = r.page)
    (hu : ∀ r, (f r).unit = r.unit) : poolView (modRecord p f s) = poolView s := by
  refine poolView_directory ?_
  rw [List.map_map]
  refine List.map_congr_left fun r _ => ?_
  simp only [Function.comp_apply]
  split
  · rw [hp, hu]
  · rfl

/-- A unit may change but for its nodes, and for whether it is DETACHED. -/
theorem poolView_unit {f : MediaUnit → MediaUnit}
    (hs : (f (s.units.get v)).state = .detached ↔ (s.units.get v).state = .detached)
    (hn : (f (s.units.get v)).nodes = (s.units.get v).nodes) : poolView (s.modUnit v f) = poolView s := by
  have hunits := Per4.map_modify s.units v (f := f)
    (g := fun x : MediaUnit => (decide (x.state = .detached), x.nodes)) (by simp only [hs, hn])
  simp only [poolView, State.modUnit, hunits]

@[simp] theorem poolView_modUnit {f : MediaUnit → MediaUnit} (hs : (f (s.units.get v)).state = (s.units.get v).state)
    (hn : (f (s.units.get v)).nodes = (s.units.get v).nodes) : poolView (s.modUnit v f) = poolView s :=
  poolView_unit (by rw [hs]) hn

theorem owners_modHolder (h : Holder) (f : HolderRecord → HolderRecord) (p : Pool) :
    (p.modHolder h f).owners = p.owners := by
  cases h <;> rfl

/-- A holder's record may change but for its reservation. -/
@[simp] theorem poolView_modHolder {f : HolderRecord → HolderRecord} (hf : ∀ r, (f r).reservation = r.reservation) :
    poolView (s.modPool (Pool.modHolder h f)) = poolView s := by
  cases h with
  | ch n =>
    have hch := Per4.map_modify s.pool.consoles n (f := f) (g := fun r : HolderRecord => r.reservation) (hf _)
    simp only [poolView, State.modPool, Pool.modHolder, hch]
  | mh v =>
    have hmh := Per4.map_modify s.pool.caches v (f := f) (g := fun r : HolderRecord => r.reservation) (hf _)
    simp only [poolView, State.modPool, Pool.modHolder, hmh]

/-! ## Loops and choices -/

theorem poolView_foldl {α : Type} {f : State → α → State} (hf : ∀ t a, poolView (f t a) = poolView t) (l : List α)
    (s : State) : poolView (l.foldl f s) = poolView s := by
  induction l generalizing s with
  | nil => rfl
  | cons a l ih => exact (ih (f s a)).trans (hf s a)

theorem poolView_inFreeOrder {α : Type} {f : α → State → State} (hf : ∀ a t, poolView (f a t) = poolView t) (l : List α)
    (s : State) : poolView (s.inFreeOrder l f) = poolView s :=
  poolView_foldl (f := fun t a => f a t) (fun t a => hf a t) _ _

protected theorem HoldsBut.ite {c : Prop} [Decidable c] (h : HoldsBut x s) (h' : HoldsBut x t) :
    HoldsBut x (if c then s else t) := by
  split
  · exact h
  · exact h'

protected theorem HoldsBut.foldl {α : Type} {f : State → α → State} {l : List α}
    (hf : ∀ {t a}, HoldsBut x t → HoldsBut x (f t a)) (h : HoldsBut x s) : HoldsBut x (l.foldl f s) := by
  induction l generalizing s with
  | nil => exact h
  | cons a l ih => exact ih (hf h)

protected theorem HoldsBut.inFreeOrder {α : Type} {f : α → State → State} {l : List α}
    (hf : ∀ {a t}, HoldsBut x t → HoldsBut x (f a t)) (h : HoldsBut x s) : HoldsBut x (s.inFreeOrder l f) :=
  HoldsBut.foldl (f := fun t a => f a t) hf (h.same (poolView_drew _ _))

/-! ## A page leaves, and is given (R80 to R86) -/

theorem pool_leaveContent (g : Holder) (p : PageId) (s : State) : (leaveContent g p s).pool = s.pool := by
  cases g with
  | ch n =>
    obtain ⟨-, -, -, -, -, hpool, -⟩ := oldestPageLeaves_frame n s
    exact hpool
  | mh v => rfl

theorem units_leaveContent (g : Holder) (p : PageId) (s : State) : (leaveContent g p s).units = s.units := by
  cases g with
  | ch n =>
    obtain ⟨-, -, -, -, -, -, hunits, -⟩ := oldestPageLeaves_frame n s
    exact hunits
  | mh v => rfl

/-- R84: an evictable page leaves its holder's content. -/
theorem HoldsBut.leaveContent (hs : PoolHolds s) (e : evictable s g = some p) : HoldsBut (some p) (leaveContent g p s) := by
  cases g with
  | mh v => exact hs.dropRecord (hs.owner_of_evictable e)
  | ch n =>
    obtain ⟨d, hd, hleft⟩ := consoles_oldestPageLeaves (span_of_evictable e)
    obtain ⟨-, -, -, -, -, hpool, hunits, -, hcache, -⟩ := oldestPageLeaves_frame n s
    refine (hs.leavesFront (head_of_evictable e) hleft.pages).same ?_
    simp only [poolView, Machine.leaveContent, hd, hpool, hunits, hcache]

theorem betterSource_excess {a : Holder} {best : Option (Holder × PageId)}
    (hb : ∀ g p, best = some (g, p) → g ≠ h ∧ excess s g ≠ 0) (e : betterSource s h best a = some (g, p)) :
    g ≠ h ∧ excess s g ≠ 0 := by
  unfold betterSource at e
  split_ifs at e with ha
  · exact hb g p e
  · have hthis := not_or.mp ha
    split at e
    · exact hb g p e
    · cases e
      exact hthis
    · split_ifs at e
      · cases e
        exact hthis
      · exact hb g p e

/-- R83: the source of a reclamation is another holder, one with an excess. -/
theorem excess_of_reclaimSource (e : reclaimSource s h = some (g, p)) : g ≠ h ∧ excess s g ≠ 0 := by
  rw [reclaimSource_eq] at e
  exact List.foldlRecOn (motive := fun best => ∀ g p, best = some (g, p) → g ≠ h ∧ excess s g ≠ 0) allHolders
    (betterSource s h) (by simp) (fun _ hb _ _ _ _ => betterSource_excess hb) g p e

/-- R83, R84: a page passes from a source. -/
theorem HoldsBut.reclaim (hs : PoolHolds s) (e : reclaimSource s h = some (g, p)) :
    HoldsBut (some p) (reclaim h g p s) := by
  have he := evictable_of_reclaimSource e
  obtain ⟨hne, hexcess⟩ := excess_of_reclaimSource e
  have howner := hs.owner_of_evictable he
  have hpass : PoolCounts ((Machine.leaveContent g p s).pool.setOwner p (some h)) := by
    rw [pool_leaveContent]
    exact hs.counts.pass howner hne (by rw [excess] at hexcess; omega)
  have hmoved := (hs.leaveContent he).setOwner hpass
  have hfrom := hmoved.same (poolView_modHolder (h := g) (f := fun r => { r with reclaimedFrom := r.reclaimedFrom + 1 })
    fun _ => rfl)
  have hby := hfrom.same (poolView_modHolder (h := h) (f := fun r => { r with reclaimedBy := r.reclaimedBy + 1 })
    fun _ => rfl)
  exact hby

theorem owners_reclaim (h g : Holder) (p : PageId) (s : State) :
    (Machine.reclaim h g p s).pool.owners[p] = some h := by
  simp only [Machine.reclaim, State.modPool_pool, owners_modHolder, owners_setOwner, if_true]

/-- R85: a holder's own page. -/
theorem HoldsBut.selfRecycle (hs : PoolHolds s) (e : evictable s h = some p) : HoldsBut (some p) (selfRecycle h p s) :=
  (hs.leaveContent e).same (poolView_modHolder fun _ => rfl)

theorem owners_selfRecycle (h : Holder) (p : PageId) (s : State) :
    (Machine.selfRecycle h p s).pool.owners = s.pool.owners := by
  simp only [Machine.selfRecycle, State.modPool_pool, owners_modHolder, pool_leaveContent]

/-- R80: the page that an allocation gives stands in no list yet. -/
theorem HoldsBut.allocate (hs : PoolHolds s) (h : Holder) (why : Purpose) :
    HoldsBut (allocate h why s).1 (allocate h why s).2 := by
  rcases allocate_cases h why s with ⟨p, hfree, hroom, e⟩ | ⟨g, p, hr, -, e⟩ | ⟨p, -, he, -, e⟩ | e <;> rw [e]
  · have hpage := (lowestFree_some hfree).1
    exact (hs.loosen hpage).setOwner (hs.counts.grant hpage (hroom.imp_right And.right))
  · exact hs.reclaim hr
  · exact hs.selfRecycle he
  · exact hs.same (poolView_modHolder fun _ => rfl)

/-- R80: the page that an allocation gives belongs to its new holder. -/
theorem owner_of_allocate (hs : PoolHolds s) {why : Purpose} (e : Machine.allocate h why s = (some p, t)) :
    t.pool.owners[p] = some h := by
  rcases allocate_cases h why s with ⟨q, -, -, e'⟩ | ⟨g, q, -, -, e'⟩ | ⟨q, -, he, -, e'⟩ | e' <;> rw [e'] at e <;> cases e
  · simp only [State.modPool_pool, owners_setOwner, if_true]
  · exact owners_reclaim h g p s
  · rw [owners_selfRecycle]
    exact hs.owner_of_evictable he

theorem units_allocate (h : Holder) (why : Purpose) (s : State) : (Machine.allocate h why s).2.units = s.units := by
  rcases allocate_cases h why s with ⟨p, -, -, e⟩ | ⟨g, p, -, -, e⟩ | ⟨p, -, -, -, e⟩ | e <;> rw [e]
  · rfl
  · exact units_leaveContent g p s
  · exact units_leaveContent h p s
  · rfl

/-- R80: the state that a granted request leaves. -/
theorem HoldsBut.of_allocate {why : Purpose} {y : Option PageId} (hs : PoolHolds s)
    (e : Machine.allocate h why s = (y, t)) : HoldsBut y t := by
  have := hs.allocate h why
  rwa [e] at this

/-- R80, R130: a page obtained for a unit gets its record. -/
theorem HoldsBut.filled {why : Purpose} {lba : Nat} (hs : PoolHolds s) (hv : (s.units.get v).state ≠ .detached)
    (e : Machine.allocate (.mh v) why s = (some p, t)) : PoolHolds (Machine.addRecord (fillingRecord v lba p) t) := by
  have hunits := units_allocate (.mh v) why s
  rw [e] at hunits
  exact (hs.of_allocate e).addRecord (r := fillingRecord v lba p) (owner_of_allocate hs e) (by
    rw [hunits]
    exact hv)

/-- R87: a cache page is freed. -/
theorem HoldsBut.freePage (hs : PoolHolds s) (howner : s.pool.owners[p] = some (.mh v)) : PoolHolds (freePage p s) := by
  have hcounts : PoolCounts (s.pool.setOwner p none) := by
    refine hs.counts.free (reservation_setOwner s.pool p none) (fun r n => ?_) fun r w => ?_
    all_goals
      rw [owners_setOwner]
      split_ifs with e
    · subst e
      simp [howner]
    · rfl
    · simp
    · exact id
  refine ((hs.dropRecord howner).setOwner hcounts).settle ?_
  rw [State.modPool_pool, owners_setOwner, if_pos rfl]

end

end Sys2Proof.Machine
end

section
/-!
SUPPORT. What the Boot Supervisor, the Power Sequencer, the link and the loader do, and what a published power state
brings about, leaves what the law of the pool speaks of alone (`poolView`).
-/

namespace Sys2Proof.Machine

section
variable {s t : State} {n : Node}

/-! ## The supervisor -/

@[simp] theorem poolView_bootProgress (n : Node) (s : State) : poolView (bootProgress n s) = poolView s := rfl

@[simp] theorem poolView_recoveryNotice (n : Node) (e : RecoveryEvent) (k : Option RecoveryKind) (s : State) :
    poolView (recoveryNotice n e k s) = poolView s := rfl

@[simp] theorem poolView_supTo (n : Node) (st : SupState) (s : State) : poolView (supTo n st s) = poolView s := rfl

@[simp] theorem poolView_enterWatching (n : Node) (k : Nat) (s : State) :
    poolView (enterWatching n k s) = poolView s := rfl

@[simp] theorem poolView_supNoLine (n : Node) (k : RecoveryKind) (s : State) : poolView (supNoLine n k s) = poolView s := rfl

@[simp] theorem poolView_supNodeOff (n : Node) (s : State) : poolView (supNodeOff n s) = poolView s := rfl

@[simp] theorem poolView_supStarted (n : Node) (k : RecoveryKind) (s : State) :
    poolView (supStarted n k s) = poolView s := rfl

@[simp] theorem poolView_arm (n : Node) (s : State) : poolView (arm n s) = poolView s := rfl

@[simp] theorem poolView_driveLine (n : Node) (l : LineId) (b : Bool) (s : State) :
    poolView (driveLine n l b s) = poolView s := rfl

@[simp] theorem poolView_releaseLine (n : Node) (l : LineId) (s : State) :
    poolView (releaseLine n l s) = poolView s := rfl

theorem poolView_takeLine {l : LineId} {o : Owner} (h : takeLine n l o s = some t) : poolView t = poolView s := by
  obtain ⟨-, rfl⟩ := takeLine_eq_some.mp h
  rfl

@[simp] theorem poolView_releaseBootSelect (n : Node) (s : State) : poolView (releaseBootSelect n s) = poolView s := by
  rcases releaseBootSelect_cases n s with ⟨l, -, e⟩ | ⟨-, e⟩ <;> rw [e] <;> rfl

@[simp] theorem poolView_armingCause (n : Node) (entry : Bool) (s : State) :
    poolView (armingCause n entry s) = poolView s := by
  unfold armingCause
  split
  · rfl
  all_goals split_ifs <;> rfl

@[simp] theorem poolView_supResult (n : Node) (kind : ActionKind) (r : ActionResult) (s : State) :
    poolView (supResult n kind r s) = poolView s := by
  unfold supResult
  split
  case h_3 | h_4 => split_ifs <;> rfl
  all_goals rfl

@[simp] theorem poolView_cancelPending (n : Node) (k : ActionKind) (s : State) :
    poolView (cancelPending n k s) = poolView s := by
  unfold cancelPending
  split
  · rfl
  · dsimp only
    split_ifs <;> rfl

/-! ## The Power Sequencer -/

@[simp] theorem poolView_enterPhase (n : Node) (a : Action) (st : ActionState) (s : State) :
    poolView (enterPhase n a st s) = poolView s := by
  rcases enterPhase_cases n a st s with e | ⟨l, t, ht, e⟩ <;> rw [e]
  · rfl
  · rw [poolView_setAction, poolView_driveLine, poolView_takeLine ht]

@[simp] theorem poolView_releaseHeld (n : Node) (a : Action) (s : State) : poolView (releaseHeld n a s) = poolView s := by
  rcases releaseHeld_cases n a s with ⟨l, -, e⟩ | ⟨-, e⟩ <;> rw [e]
  rfl

@[simp] theorem poolView_startAction (n : Node) (kind : ActionKind) (o : Originator) (b : Bool) (s : State) :
    poolView (startAction n kind o b s) = poolView s := by
  unfold startAction
  dsimp only
  split_ifs <;> simp

@[simp] theorem poolView_startRecovery (n : Node) (k : RecoveryKind) (s : State) :
    poolView (startRecovery n k s) = poolView s := by
  simp [startRecovery]

@[simp] theorem poolView_startPending (n : Node) (s : State) : poolView (startPending n s) = poolView s := by
  rcases startPending_cases n s with ⟨-, e⟩ | ⟨k, -, e | e | e⟩ <;> simp [e]

@[simp] theorem poolView_requestRecovery (n : Node) (k : RecoveryKind) (s : State) :
    poolView (requestRecovery n k s) = poolView s := by
  unfold requestRecovery
  split
  · rfl
  · rfl
  · split <;> simp

@[simp] theorem poolView_endAction (n : Node) (a : Action) (r : ActionResult) (s : State) :
    poolView (endAction n a r s) = poolView s := by
  unfold endAction
  dsimp only
  split <;> simp

@[simp] theorem poolView_complete (n : Node) (r : ActionResult) (s : State) : poolView (complete n r s) = poolView s := by
  rcases complete_cases n r s with ⟨-, e⟩ | ⟨a, t, -, ht, ⟨-, e⟩ | ⟨-, e⟩⟩ <;> rw [e]
  all_goals
    subst ht
    split_ifs <;> simp

@[simp] theorem poolView_retake (n : Node) (a : Action) (st : ActionState) (s : State) :
    poolView (retake n a st s) = poolView s := by
  unfold retake
  split <;> simp

@[simp] theorem poolView_pressEnds (n : Node) (a : Action) (s : State) : poolView (pressEnds n a s) = poolView s := by
  unfold pressEnds
  dsimp only
  split_ifs <;> simp

@[simp] theorem poolView_softEnds (n : Node) (a : Action) (s : State) : poolView (softEnds n a s) = poolView s := by
  unfold softEnds
  split
  · dsimp only
    split
    · simp
    · split_ifs <;> simp
  · simp

@[simp] theorem poolView_holdEnds (n : Node) (a : Action) (s : State) : poolView (holdEnds n a s) = poolView s := by
  unfold holdEnds
  dsimp only
  split_ifs <;> simp

@[simp] theorem poolView_restEnds (n : Node) (a : Action) (s : State) : poolView (restEnds n a s) = poolView s := by
  unfold restEnds
  split_ifs <;> simp

@[simp] theorem poolView_timerEnds {st : ActionState} {f : Action → State → State} (hf : ∀ a, poolView (f a s) = poolView s) :
    poolView (timerEnds n st f s) = poolView s := by
  unfold timerEnds
  split
  · split_ifs
    · exact hf _
    · rfl
  · rfl

@[simp] theorem poolView_sequencerHears (n : Node) (p : PowerState) (s : State) :
    poolView (sequencerHears n p s) = poolView s := by
  unfold sequencerHears
  split
  · rfl
  · split
    · rfl
    · split
      · simp
      · simp
      · dsimp only
        split_ifs <;> simp
      · dsimp only
        split_ifs <;> simp
      · rfl

@[simp] theorem poolView_endWatch (r : Result) (s : State) : poolView (endWatch r s) = poolView s := by
  unfold endWatch
  split <;> rfl

@[simp] theorem poolView_watchHears (s : State) : poolView (watchHears s) = poolView s := by
  unfold watchHears
  split
  · rfl
  · split_ifs <;> simp

/-! ## Failures, stages and the matchers -/

@[simp] theorem poolView_fallback (n : Node) (b : Bool) (s : State) : poolView (fallback n b s) = poolView s := by
  rcases fallback_cases n b s with e | ⟨l, t, ht, e⟩ <;> rw [e]
  rw [poolView_modSupervisor, poolView_driveLine, poolView_takeLine ht]

@[simp] theorem poolView_failure (n : Node) (cause : Cause) (s : State) : poolView (failure n cause s) = poolView s := by
  unfold failure
  dsimp only
  split
  · simp
  · split_ifs <;> simp

@[simp] theorem poolView_bootComplete (n : Node) (s : State) : poolView (bootComplete n s) = poolView s := by
  simp [bootComplete]

@[simp] theorem poolView_stageReported (n : Node) (k j : Nat) (s : State) :
    poolView (stageReported n k j s) = poolView s := by
  unfold stageReported
  dsimp only
  split_ifs <;> simp

@[simp] theorem poolView_matchByte (n : Node) (b : Byte) (s : State) : poolView (matchByte n b s) = poolView s := by
  have hadvance : poolView (advancePartials n b s) = poolView s := rfl
  unfold matchByte decideCompletions
  split
  · split
    · simp [hadvance]
    · split <;> simp [hadvance]
  all_goals exact hadvance

@[simp] theorem poolView_supervisorHears (n : Node) (p : PowerState) (s : State) :
    poolView (supervisorHears n p s) = poolView s := by
  unfold supervisorHears
  split
  · simp
  · rfl
  · split
    · split_ifs <;> rfl
    · split_ifs <;> rfl
    all_goals rfl

/-! ## A published power state (R12) -/

@[simp] theorem poolView_endCommand (n : Node) (st : Status) (s : State) : poolView (endCommand n st s) = poolView s := by
  unfold endCommand
  split <;> simp

@[simp] theorem poolView_setAttention (n : Node) (s : State) : poolView (setAttention n s) = poolView s := rfl

@[simp] theorem poolView_publish (n : Node) (p : PowerState) (s : State) : poolView (publish n p s) = poolView s := by
  cases p <;> simp [publish, portHears, consoleHears, powerMark]

@[simp] theorem poolView_rederivePower (n : Node) (s : State) : poolView (rederivePower n s) = poolView s := by
  unfold rederivePower
  dsimp only
  split_ifs <;> simp

@[simp] theorem poolView_notifyLines (n : Node) (lines : Per6 Bool) (s : State) :
    poolView (notifyLines n lines s) = poolView s := by
  unfold notifyLines
  split_ifs <;> rfl

@[simp] theorem poolView_sampleAll (pins : BitVec 24) (s : State) : poolView (sampleAll pins s) = poolView s :=
  (poolView_inFreeOrder poolView_rederivePower _ _).trans
    (poolView_inFreeOrder (fun n t => poolView_notifyLines n _ t) _ _)

@[simp] theorem poolView_deadlineEnds (n : Node) (s : State) : poolView (deadlineEnds n s) = poolView s := by
  unfold deadlineEnds
  split <;> simp

/-! ## The link's receiver and transmitter (R175, R176, R184) -/

@[simp] theorem poolView_linkError (f : LinkCounters → LinkCounters) (s : State) : poolView (linkError f s) = poolView s := rfl

@[simp] theorem poolView_hunt (s : State) : poolView (hunt s) = poolView s := rfl

@[simp] theorem poolView_huntStart (s : State) : poolView (huntStart s) = poolView s := by
  unfold huntStart
  split <;> rfl

@[simp] theorem poolView_abandonFrame (f : LinkCounters → LinkCounters) (s : State) :
    poolView (abandonFrame f s) = poolView s := by
  unfold abandonFrame
  split <;> rfl

@[simp] theorem poolView_truncateFrame (s : State) : poolView (truncateFrame s) = poolView s := by
  unfold truncateFrame
  split <;> simp

@[simp] theorem poolView_startByte (s : State) : poolView (startByte s) = poolView s := by
  unfold startByte
  split_ifs <;> simp

@[simp] theorem poolView_overrunByte (s : State) : poolView (overrunByte s) = poolView s := by
  unfold overrunByte
  split_ifs <;> simp

@[simp] theorem poolView_sendNotice (e : NoticeEntry) (rest : List NoticeEntry) (s : State) :
    poolView (sendNotice e rest s) = poolView s := rfl

@[simp] theorem poolView_sendBulk (s : State) : poolView (sendBulk s) = poolView s := by
  unfold sendBulk
  split
  · rfl
  · unfold sendData
    dsimp only
    split <;> simp
  · rfl

@[simp] theorem poolView_frameEnds (s : State) : poolView (frameEnds s) = poolView s := by
  unfold frameEnds
  split <;> rfl

@[simp] theorem poolView_startBehind (ahead : Bool) (body : List Byte) (s : State) :
    poolView (startBehind ahead body s) = poolView s := by
  unfold startBehind
  split
  · split_ifs <;> simp
  all_goals rfl

/-! ## The loader (R196) -/

@[simp] theorem poolView_savePhaseEnds (now next : SaveState) (f : Loader → Loader) (s : State) :
    poolView (savePhaseEnds now next f s) = poolView s := rfl

@[simp] theorem poolView_endSave (r : Result) (d : List Byte) (s : State) : poolView (endSave r d s) = poolView s := by
  unfold endSave
  split <;> rfl

@[simp] theorem poolView_verify (fault : Option ReadFault) (s : State) : poolView (verify fault s) = poolView s := by
  unfold verify
  split
  · dsimp only
    split <;> simp
  · rfl

@[simp] theorem poolView_saveFails (address taken : Nat) (s : State) : poolView (saveFails address taken s) = poolView s := by
  unfold saveFails
  split_ifs <;> simp

/-! ## Consoles (R42 to R45, R53, R55, R66) -/

@[simp] theorem pages_addMark (k : MarkKind) (c : Console) : (c.addMark k).pages = c.pages := rfl

@[simp] theorem pages_restartWindow (c : Console) : c.restartWindow.pages = c.pages := rfl

@[simp] theorem pages_startCharacter (c : Console) : c.startCharacter.pages = c.pages := by
  unfold Console.startCharacter
  split
  · split_ifs <;> rfl
  · rfl

@[simp] theorem pages_endCharacter (c : Console) : c.endCharacter.pages = c.pages := by
  unfold Console.endCharacter
  split_ifs <;> rfl

@[simp] theorem poolView_recognizeBreak (n : Node) (s : State) : poolView (recognizeBreak n s) = poolView s := by
  unfold recognizeBreak
  split_ifs <;> simp

@[simp] theorem poolView_endBreak (n : Node) (s : State) : poolView (endBreak n s) = poolView s := by
  unfold endBreak
  split_ifs <;> simp

@[simp] theorem poolView_confirmStart (n : Node) (mid : Level) (s : State) :
    poolView (confirmStart n mid s) = poolView s := by
  unfold confirmStart
  split <;> simp

@[simp] theorem poolView_finishBreak (n : Node) (s : State) : poolView (finishBreak n s) = poolView s := by
  unfold finishBreak
  split
  · dsimp only
    split_ifs <;> simp
  · rfl

@[simp] theorem poolView_recoverBreak (n : Node) (s : State) : poolView (recoverBreak n s) = poolView s := by
  unfold recoverBreak
  split
  · split_ifs <;> simp
  · rfl

@[simp] theorem poolView_leaveFlood (n : Node) (s : State) : poolView (leaveFlood n s) = poolView s := by
  simp [leaveFlood]

@[simp] theorem poolView_storeByte (n : Node) (b : Byte) (s : State) : poolView (storeByte n b s) = poolView s := by
  unfold storeByte
  refine (poolView_modConsole rfl).trans ?_
  split <;> rfl

/-! ## A millisecond -/

theorem poolView_tick (s : State) : poolView s.tick = poolView s := by
  have hpages : (s.consoles.map Console.tick).map (fun c => c.pages) = s.consoles.map fun c => c.pages :=
    Per4.map_map_same (by intro _; rfl) _
  simp only [poolView, State.tick, hpages]

end

end Sys2Proof.Machine
end

section
/-!
SUPPORT. What the Cache and Fetch Engine, the Node Media Ports and the Media Unit Table do keeps every page in its place
(`PoolHolds`): pages come from the allocation and get their record, and the pages that are freed are those of records.
-/

namespace Sys2Proof.Machine

section
variable {s t : State} {n : Node} {v : UnitId}

/-! ## Ports and fetches (R112, R124, R132 to R136) -/

@[simp] theorem poolView_allocFetch (v : UnitId) (first count : Nat) (s : State) :
    poolView (allocFetch v first count s) = poolView s := by
  unfold allocFetch
  split <;> rfl

@[simp] theorem poolView_freeFetchEntry (i : Fin 16) (s : State) : poolView (freeFetchEntry i s) = poolView s := rfl

@[simp] theorem poolView_copyToSlot (n : Node) (r : DirRecord) (s : State) : poolView (copyToSlot n r s) = poolView s := by
  simp [copyToSlot]

protected theorem HoldsBut.collectPages {last k y : Nat} (h : PoolHolds s) (hv : (s.units.get v).state ≠ .detached) :
    PoolHolds (collectPages v last k y s).2 := by
  induction k generalizing y s with
  | zero => exact h
  | succ k ih =>
    unfold Machine.collectPages
    split
    · exact h
    · split
      · rename_i e
        exact h.of_allocate e
      · rename_i p t e
        have hunits := units_allocate (.mh v) .demand s
        rw [e] at hunits
        exact ih (h.filled hv e) (by rwa [Machine.addRecord, State.modCache_units, hunits])

protected theorem HoldsBut.demandFetch {y last : Nat} (h : PoolHolds s) (hv : (s.units.get v).state ≠ .detached) :
    PoolHolds (demandFetch n v y last s) :=
  have hpages := h.collectPages (last := last) (k := 8) (y := y) hv
  HoldsBut.ite (hpages.same (by simp)) (hpages.same (by simp))

protected theorem HoldsBut.stage {k : Nat} (h : PoolHolds s) : PoolHolds (stage n k s) := by
  induction k generalizing s with
  | zero => exact h
  | succ k ih =>
    unfold Machine.stage
    dsimp only
    split
    · exact h
    · refine HoldsBut.ite ?_ h
      split
      · exact h
      · rename_i hu
        split
        · exact HoldsBut.ite (h.same (by simp)) (ih (h.same (by simp)))
        · exact HoldsBut.ite (h.demandFetch (h.unitOf hu)) (h.same (by simp))

protected theorem HoldsBut.serveEntryWait {k : Nat} (h : PoolHolds s) : PoolHolds (serveEntryWait k s) := by
  induction k generalizing s with
  | zero => exact h
  | succ k ih =>
    unfold Machine.serveEntryWait
    split
    · exact h
    · exact HoldsBut.ite (ih (HoldsBut.stage (h.same (by simp)))) h

protected theorem HoldsBut.servePorts {lba : Nat} (h : PoolHolds s) : PoolHolds (servePorts v lba s) := by
  unfold Machine.servePorts
  split
  · exact h
  · exact HoldsBut.inFreeOrder HoldsBut.stage (h.same (poolView_foldl (fun t n => poolView_copyToSlot n _ t) _ _))

/-! ## Read-ahead (R141, R142) -/

@[simp] theorem poolView_flushRun (v : UnitId) (y run : Nat) (s : State) : poolView (flushRun v y run s) = poolView s := by
  unfold flushRun
  split_ifs <;> simp

theorem units_flushRun (v : UnitId) (y run : Nat) (s : State) : (flushRun v y run s).units = s.units := by
  unfold flushRun allocFetch
  split
  · rfl
  · split <;> rfl

protected theorem HoldsBut.readAheadFrom {stop k y run : Nat} (h : PoolHolds s) (hv : (s.units.get v).state ≠ .detached) :
    PoolHolds (readAheadFrom v stop k y run s) := by
  have hflush : ∀ {t : State} {y run : Nat}, PoolHolds t → PoolHolds (flushRun v y run t) := fun h => h.same (by simp)
  induction k generalizing y run s with
  | zero => exact hflush h
  | succ k ih =>
    refine HoldsBut.ite (hflush h) (HoldsBut.ite (ih (hflush h) (by rwa [units_flushRun])) (HoldsBut.ite h ?_))
    split
    · rename_i e
      exact hflush (h.of_allocate e)
    · rename_i p t e
      have hunits := units_allocate (.mh v) .readAhead s
      rw [e] at hunits
      have hpage := h.filled (lba := y) hv e
      have hstate : ((Machine.addRecord (fillingRecord v y p) t).units.get v).state ≠ .detached := by
        rwa [Machine.addRecord, State.modCache_units, hunits]
      exact HoldsBut.ite (ih (hflush hpage) (by rwa [units_flushRun])) (ih hpage hstate)

protected theorem HoldsBut.readAhead {a : ActiveCommand} (h : PoolHolds s) : PoolHolds (readAhead n a s) := by
  unfold Machine.readAhead
  split
  · exact h
  · rename_i hu
    exact HoldsBut.ite (h.readAheadFrom (h.unitOf hu)) h

/-! ## Stores and writes (R120, R143 to R147) -/

@[simp] theorem poolView_issueStore (i : Fin 8) (v : UnitId) (d : DirtyPage) (s : State) :
    poolView (issueStore i v d s) = poolView s := by
  rw [issueStore, poolView_modLink]
  exact (poolView_modRecord (by intro _; rfl) (by intro _; rfl)).trans rfl

@[simp] theorem poolView_issueStores (k : Nat) (s : State) : poolView (issueStores k s) = poolView s := by
  induction k generalizing s with
  | zero => rfl
  | succ k ih =>
    unfold issueStores
    split
    · rw [ih, poolView_issueStore]
    · rfl

@[simp] theorem poolView_freeStoreEntry (i : Fin 8) (s : State) : poolView (freeStoreEntry i s) = poolView s := rfl

@[simp] theorem poolView_joinDirty (v : UnitId) (p : PageId) (s : State) : poolView (joinDirty v p s) = poolView s := rfl

@[simp] theorem poolView_writePage (p : PageId) (data : List Byte) (s : State) :
    poolView (writePage p data s) = poolView s := rfl

@[simp] theorem poolView_makeDirty (v : UnitId) (p : PageId) (data : List Byte) (s : State) :
    poolView (makeDirty v p data s) = poolView s := by
  simp [makeDirty]

protected theorem HoldsBut.overtake {lba : Nat} {p : PageId} {data : List Byte} (h : PoolHolds s) :
    PoolHolds (overtake v lba p data s) :=
  HoldsBut.servePorts (h.same (by simp))

protected theorem HoldsBut.offer (h : PoolHolds s) : PoolHolds (offer n s).2 := by
  unfold Machine.offer
  split
  · rename_i slot _ u _ hu
    dsimp only
    split
    · split
      · exact h.same (by simp)
      · exact h.same (by simp)
      · split
        · exact h
        · exact h.same (by simp)
      · split
        · exact h
        · exact h.overtake
    · split
      · exact h
      · split
        · rename_i e
          exact h.of_allocate e
        · rename_i e
          exact (h.filled (lba := slot.lba) (h.unitOf hu) e).same (by simp)
  · exact h

theorem HoldsBut.of_offer {b : Bool} (h : PoolHolds s) (e : Machine.offer n s = (b, t)) : PoolHolds t := by
  have := h.offer (n := n)
  rwa [e] at this

@[simp] theorem poolView_acceptBlock (n : Node) (s : State) : poolView (acceptBlock n s) = poolView s := by
  unfold acceptBlock
  split
  · rfl
  · dsimp only
    split_ifs <;> simp

protected theorem HoldsBut.offerBlocks {k : Nat} (h : PoolHolds s) : PoolHolds (offerBlocks n k s) := by
  induction k generalizing s with
  | zero => exact h
  | succ k ih =>
    unfold Machine.offerBlocks
    split
    · exact h.same (by simp)
    · split
      · rename_i e
        exact ih ((h.of_offer e).same (by simp))
      · rename_i e
        exact (h.of_offer e).same (by simp)

protected theorem HoldsBut.retryHeld (h : PoolHolds s) : PoolHolds (retryHeld s) :=
  HoldsBut.inFreeOrder HoldsBut.offerBlocks h

protected theorem HoldsBut.poolChanged (h : PoolHolds s) : PoolHolds (poolChanged s) :=
  h.retryHeld.same (by simp [Machine.poolChanged])

/-! ## Units (R93, R101 to R106) -/

@[simp] theorem poolView_unitNotice (v : UnitId) (cause : UnitCause) (s : State) :
    poolView (unitNotice v cause s) = poolView s := rfl

@[simp] theorem poolView_faultPorts (v : UnitId) (s : State) : poolView (faultPorts v s) = poolView s := by
  refine poolView_foldl (fun t n => ?_) _ _
  split
  · simp
  · simp
  all_goals rfl

/-- R103: a unit that is not DETACHED enters STORE_FAULT. -/
theorem poolView_enterStoreFault (hv : (s.units.get v).state ≠ .detached) :
    poolView (enterStoreFault v s) = poolView s := by
  have hstate : poolView (s.modUnit v fun y => { y with state := .storeFault, detachTag := none }) = poolView s :=
    poolView_unit (iff_of_false (by simp) hv) rfl
  unfold enterStoreFault
  dsimp only
  split <;> simp [hstate]

@[simp] theorem poolView_storeFailure (v : UnitId) (s : State) : poolView (storeFailure v s) = poolView s := by
  unfold storeFailure
  dsimp only
  split_ifs with hfault
  · rw [poolView_enterStoreFault]
    · simp
    · rcases hfault.2 with e | e <;> rw [e] <;> decide
  · simp

/-- R99, R101: a unit's pages become free, with their records. -/
protected theorem HoldsBut.freeUnitPages (h : PoolHolds s) : PoolHolds (freeUnitPages v s) := by
  have howners : ∀ (p : PageId) (o : Option Holder), o ≠ none → o ≠ some (.mh v) →
      ((Machine.freeUnitPages v s).pool.owners[p] = o ↔ s.pool.owners[p] = o) := fun p o hnone hv => by
    simp only [Machine.freeUnitPages, State.modPool_pool, State.modCache_pool, Fin.getElem_fin, Vector.getElem_map]
    split_ifs with e
    · exact iff_of_false hnone.symm (by rw [e]; exact hv.symm)
    · rfl
  have hgone : ∀ p : PageId, (Machine.freeUnitPages v s).pool.owners[p] ≠ some (.mh v) := fun p => by
    simp only [Machine.freeUnitPages, State.modPool_pool, State.modCache_pool, Fin.getElem_fin, Vector.getElem_map]
    split_ifs with e
    · simp
    · exact e
  refine ⟨fun n => ⟨(h.history n).1, fun p => ?_⟩, h.nodup.sublist (List.filter_sublist.map _), fun r hr => ?_,
    fun p w e _ => ?_, h.served, h.counts.free (fun _ => rfl) (fun p n => howners p _ (by simp) (by simp)) fun p w e => ?_⟩
  · rw [howners p _ (by simp) (by simp)]
    exact (h.history n).2 p
  · obtain ⟨hmem, hne⟩ := List.mem_filter.mp hr
    obtain ⟨hr, hx, hstate⟩ := h.record r hmem
    exact ⟨(howners _ _ (by simp) (by simpa using hne)).mpr hr, hx, hstate⟩
  · have hw : w ≠ v := fun ew => hgone p (ew ▸ e)
    rw [howners p _ (by simp) (by simpa using hw)] at e
    obtain ⟨r, hr, rfl⟩ := List.mem_map.mp (h.recorded p w e (by simp))
    have hunit : r.unit = w := by
      have := (h.record r hr).1.symm.trans e
      simpa using this
    exact List.mem_map_of_mem (List.mem_filter.mpr ⟨hr, by simpa [hunit] using hw⟩)
  · have hw : w ≠ v := fun ew => hgone p (ew ▸ e)
    rwa [howners p _ (by simp) (by simpa using hw)] at e

theorem owners_freeUnitPages (v : UnitId) (p : PageId) (s : State) :
    (freeUnitPages v s).pool.owners[p] ≠ some (.mh v) := by
  simp only [freeUnitPages, State.modPool_pool, State.modCache_pool, Fin.getElem_fin, Vector.getElem_map]
  split_ifs with e
  · simp
  · exact e

/-- R93: a unit may change to one that is DETACHED and has no node, where no record is its. -/
protected theorem HoldsBut.modUnit {f : MediaUnit → MediaUnit} (h : PoolHolds s)
    (hrecord : (f (s.units.get v)).state = .detached → ∀ r ∈ s.cache.directory, r.unit ≠ v)
    (hserved : ∀ n, (f (s.units.get v)).nodes.get n → (f (s.units.get v)).state ≠ .detached) :
    PoolHolds (s.modUnit v f) := by
  refine ⟨h.history, h.nodup, fun r hr => ?_, h.recorded, fun w n => ?_, h.counts⟩
  · obtain ⟨howner, hx, hstate⟩ := h.record r hr
    refine ⟨howner, hx, ?_⟩
    rw [units_modUnit]
    split_ifs with e
    · exact fun hd => hrecord hd r hr e
    · exact hstate
  · rw [units_modUnit]
    split_ifs
    · exact hserved n
    · exact h.served w n

/-- R99, R101, R105: a unit whose pages are free is retired. -/
theorem HoldsBut.retire (h : PoolHolds s) (hpages : ∀ p : PageId, s.pool.owners[p] ≠ some (.mh v)) :
    PoolHolds (s.modUnit v MediaUnit.retired) := by
  refine h.modUnit (fun _ r hr e => hpages r.page ?_) fun n hn => ?_
  · rw [(h.record r hr).1, e]
  · simp [MediaUnit.retired, resetUnit] at hn

protected theorem HoldsBut.drainEnds (h : PoolHolds s) : PoolHolds (drainEnds v s) := by
  have hretired := h.freeUnitPages.retire fun p => owners_freeUnitPages v p s
  unfold Machine.drainEnds
  dsimp only
  split
  · exact hretired.same rfl
  · exact hretired.same rfl

/-! ## Answers (R137 to R140, R148, R149) -/

@[simp] theorem poolView_strayAnswer (s : State) : poolView (strayAnswer s) = poolView s := rfl

@[simp] theorem poolView_receiveBlock (i : Fin 16) (j : Nat) (s : State) : poolView (receiveBlock i j s) = poolView s := rfl

protected theorem HoldsBut.fetchProgress {i : Fin 16} (h : PoolHolds s) : PoolHolds (fetchProgress i s) := by
  unfold Machine.fetchProgress
  split
  · exact HoldsBut.ite (HoldsBut.serveEntryWait (h.same (by simp))) h
  · exact h

@[simp] theorem poolView_fillPage (v : UnitId) (lba : Nat) (data : List Byte) (s : State) :
    poolView (fillPage v lba data s) = poolView s := by
  unfold fillPage
  split <;> simp

protected theorem HoldsBut.fillAnswer {tag : Tag} {lba : Nat} {data : List Byte} (h : PoolHolds s) :
    PoolHolds (fillAnswer tag lba data s) := by
  have hstray : PoolHolds (strayAnswer s) := h.same (by simp)
  unfold Machine.fillAnswer
  split
  · exact hstray
  · refine hstray.ite ?_
    split
    · exact hstray
    · exact hstray
    · exact (HoldsBut.servePorts (h.same (by simp))).fetchProgress.poolChanged
    · exact HoldsBut.fetchProgress (h.same (by simp))

/-- R138: the page of a block is that of its record. -/
protected theorem HoldsBut.freeBlock {lba : Nat} (h : PoolHolds s) : PoolHolds (freeBlock v lba s) := by
  unfold Machine.freeBlock
  split
  · rename_i r e
    exact h.freePage (h.record r (List.mem_of_find?_eq_some e)).1
  · exact h

protected theorem HoldsBut.dropFetch {i : Fin 16} {f : Fetch} (h : PoolHolds s) : PoolHolds (dropFetch i f s) := by
  have hblocks : PoolHolds ((waitingBlocks f).foldl (fun t lba => Machine.freeBlock f.unit lba t) s) :=
    HoldsBut.foldl HoldsBut.freeBlock h
  exact hblocks.same (poolView_freeFetchEntry i _)

theorem poolView_endCommands (l : List Node) (st : Status) (s : State) :
    poolView (l.foldl (fun t n => endCommand n st t) s) = poolView s :=
  poolView_foldl (fun t n => poolView_endCommand n st t) l s

protected theorem HoldsBut.failFetch {i : Fin 16} {f : Fetch} {timedOut : Bool} (h : PoolHolds s) :
    PoolHolds (failFetch i f timedOut s) := by
  have hdropped := h.dropFetch (i := i) (f := f)
  unfold Machine.failFetch
  dsimp only
  have hserved : ∀ {c : Bool} {t : State}, PoolHolds t → PoolHolds (if c then t else Machine.poolChanged t) :=
    fun h => h.ite h.poolChanged
  refine hserved (HoldsBut.serveEntryWait (hdropped.same ?_))
  cases timedOut <;> simp [poolView_endCommands]

protected theorem HoldsBut.fetchFailedAnswer {tag : Tag} (h : PoolHolds s) : PoolHolds (fetchFailedAnswer tag s) := by
  unfold Machine.fetchFailedAnswer
  split
  · exact h.same (by simp)
  · exact h.failFetch

@[simp] theorem poolView_endFlushes (v : UnitId) (s : State) : poolView (endFlushes v s) = poolView s := by
  unfold endFlushes
  split_ifs
  · refine poolView_foldl (fun t n => ?_) _ _
    split_ifs <;> simp
  · rfl

protected theorem HoldsBut.storeSucceeds {i : Fin 8} {y : Store} (h : PoolHolds s) : PoolHolds (storeSucceeds i y s) := by
  have hdrained : ∀ {t : State}, PoolHolds t →
      PoolHolds (if (t.units.get y.unit).state = .draining ∧ dirtyCount t y.unit = 0 then Machine.drainEnds y.unit t else t) :=
    fun h => h.drainEnds.ite h
  unfold Machine.storeSucceeds
  refine HoldsBut.ite (h.same (by simp)) (HoldsBut.poolChanged ((hdrained (HoldsBut.ite ?_ ?_)).same (poolView_endFlushes _ _)))
  · exact h.same (by simp)
  · exact h.same (by simp)

protected theorem HoldsBut.storedAnswer {tag : Tag} (h : PoolHolds s) : PoolHolds (storedAnswer tag s) := by
  unfold Machine.storedAnswer
  split
  · exact h.same (by simp)
  · exact h.storeSucceeds

@[simp] theorem poolView_storeFails (i : Fin 8) (y : Store) (s : State) : poolView (storeFails i y s) = poolView s := by
  simp [storeFails]

@[simp] theorem poolView_storeFailedAnswer (tag : Tag) (s : State) : poolView (storeFailedAnswer tag s) = poolView s := by
  unfold storeFailedAnswer
  split <;> simp

/-! ## Leaving service (R99, R100, R105, R108) -/

@[simp] theorem poolView_abortPorts (v : UnitId) (s : State) : poolView (abortPorts v s) = poolView s :=
  poolView_endCommands _ _ s

protected theorem HoldsBut.dropFetches (h : PoolHolds s) : PoolHolds (dropFetches v s) := by
  refine HoldsBut.foldl (fun h => ?_) h
  split
  · exact h.dropFetch.ite h
  · exact h

@[simp] theorem poolView_dropStores (v : UnitId) (s : State) : poolView (dropStores v s) = poolView s := by
  refine poolView_foldl (fun t i => ?_) _ _
  split
  · split_ifs <;> simp
  · rfl

theorem poolView_clearNodes (v : UnitId) (s : State) :
    poolView (clearNodes v s) = poolView (s.modUnit v fun x => { x with nodes := Per4.all false, writer := none }) :=
  poolView_foldl (fun t n => by simp) _ _

protected theorem HoldsBut.clearNodes (h : PoolHolds s) : PoolHolds (clearNodes v s) := by
  refine HoldsBut.same (h.modUnit (v := v) (f := fun x => { x with nodes := Per4.all false, writer := none }) ?_ ?_)
    (poolView_clearNodes v s)
  · intro hd r hr e
    exact (h.record r hr).2.2 (e ▸ hd)
  · simp

/-- What the law of the pool speaks of holds the owner table. -/
theorem owners_of_poolView (e : poolView t = poolView s) : t.pool.owners = s.pool.owners := congrArg Prod.fst e

theorem owners_clearNodes (v : UnitId) (s : State) : (clearNodes v s).pool.owners = s.pool.owners :=
  (owners_of_poolView (poolView_clearNodes v s)).trans rfl

/-- R99, R105: a unit leaves service at once: its pages are free before its record is. -/
protected theorem HoldsBut.takeOut (h : PoolHolds s) : PoolHolds (takeOut v s) := by
  have haborted : PoolHolds (abortPorts v s) := h.same (by simp)
  have hstores : PoolHolds (dropStores v (Machine.dropFetches v (abortPorts v s))) :=
    (haborted.dropFetches (v := v)).same (by simp)
  have hcleared := (hstores.freeUnitPages (v := v)).clearNodes (v := v)
  refine hcleared.retire fun p => ?_
  rw [owners_clearNodes]
  exact owners_freeUnitPages v p _

protected theorem HoldsBut.startDrain {tag : Tag} (h : PoolHolds s) : PoolHolds (startDrain v tag s) := by
  have htagged : PoolHolds (abortPorts v (s.modUnit v fun x => { x with detachTag := some tag })) := h.same (by simp)
  exact htagged.dropFetches.clearNodes.modUnit (fun hd => by simp at hd) fun _ _ => by simp

protected theorem HoldsBut.afterLeaving {before : State} (h : PoolHolds s) : PoolHolds (afterLeaving before s) :=
  have hserved := h.serveEntryWait (k := entryWaitFuel)
  HoldsBut.ite hserved.poolChanged (hserved.same (by simp))

@[simp] theorem poolView_takeWriteLock (n : Node) (v : UnitId) (s : State) :
    poolView (takeWriteLock n v s) = poolView s := by
  unfold takeWriteLock
  dsimp only
  split_ifs
  · exact (poolView_foldl (fun t m => poolView_setAttention m t) _ _).trans (by simp)
  · rfl

end

end Sys2Proof.Machine
end

section
/-!
SUPPORT. What a captured byte and a request do keeps every page in its place (`PoolHolds`): a full history takes a page of
the allocation, POOL CONFIG keeps the borrows within the common part, and CLEAR frees the pages of units that have left.
-/

namespace Sys2Proof.Machine

section
variable {s t : State} {n : Node} {v : UnitId} {tag : Tag} {body : List Byte}

/-! ## Captured bytes (R43, R47, R64, R66) -/

protected theorem HoldsBut.extendHistory (h : PoolHolds s) : PoolHolds (extendHistory n s) := by
  unfold Machine.extendHistory
  split
  · split
    · rename_i e
      exact (h.of_allocate e).join (owner_of_allocate h e)
    · rename_i e
      exact h.of_allocate e
  · exact h

protected theorem HoldsBut.enterFlood (h : PoolHolds s) : PoolHolds (enterFlood n s) := by
  have hflood : PoolHolds (s.modConsole n fun c => { c with flood := true, skip := 0 }) := h.same (poolView_modConsole rfl)
  exact HoldsBut.poolChanged (hflood.same (poolView_notify _ _))

protected theorem HoldsBut.countCharacter (h : PoolHolds s) : PoolHolds (countCharacter n s) := by
  have hcount : PoolHolds (s.modConsole n fun c => { c with count := c.count + 1 }) := h.same (poolView_modConsole rfl)
  exact hcount.enterFlood.ite hcount

protected theorem HoldsBut.captureByte {b : Byte} (h : PoolHolds s) : PoolHolds (captureByte n b s) := by
  have hstored : PoolHolds (extendHistory n (storeByte n b s)) := HoldsBut.extendHistory (h.same (poolView_storeByte n b s))
  exact HoldsBut.countCharacter (hstored.same (poolView_matchByte n b _))

/-- R43 to R45: the receiver changes, and a byte is captured. -/
theorem HoldsBut.captured {f : Console → Console} {b : Byte} (h : PoolHolds s) (hf : ∀ c, (f c).pages = c.pages) :
    PoolHolds (Machine.captureByte n b (s.modConsole n f)) :=
  HoldsBut.captureByte (h.same (poolView_modConsole (hf _)))

protected theorem HoldsBut.receiveCharacter {data : Byte} {parityBit stopBit : Bool} (h : PoolHolds s) :
    PoolHolds (receiveCharacter n data parityBit stopBit s) := by
  unfold Machine.receiveCharacter
  dsimp only
  split
  iterate 3 exact HoldsBut.ite (h.same (poolView_modConsole rfl)) (h.captured fun _ => rfl)
  all_goals exact h

protected theorem HoldsBut.storeHeld (h : PoolHolds s) : PoolHolds (storeHeld n s) :=
  HoldsBut.ite (h.captured fun _ => rfl) h

protected theorem HoldsBut.endWindow (h : PoolHolds s) : PoolHolds (endWindow n s) := by
  have hrestart : PoolHolds (s.modConsole n Console.restartWindow) := h.same (poolView_modConsole rfl)
  exact HoldsBut.ite (HoldsBut.poolChanged (hrestart.same (poolView_leaveFlood n _))) hrestart

/-! ## Requests that leave the pool alone (R13 to R21, R35, R41 to R73, R90, R107, R128, R154 to R171, R185, R195) -/

@[simp] theorem poolView_badRequest (tag : Tag) (kind : Byte) (s : State) : poolView (badRequest tag kind s) = poolView s := rfl

@[simp] theorem poolView_serveLinesConfig (tag : Tag) (body : List Byte) (s : State) :
    poolView (serveLinesConfig tag body s) = poolView s := by
  unfold serveLinesConfig
  repeat' split
  all_goals simp [applyLinesConfig]

@[simp] theorem poolView_serveLinesSet (tag : Tag) (body : List Byte) (s : State) :
    poolView (serveLinesSet tag body s) = poolView s := by
  unfold serveLinesSet
  repeat' split
  all_goals simp [setLines]

@[simp] theorem poolView_serveLinesRead (tag : Tag) (body : List Byte) (s : State) :
    poolView (serveLinesRead tag body s) = poolView s := by
  unfold serveLinesRead
  repeat' split
  all_goals rfl

@[simp] theorem poolView_serveLineEventsClear (tag : Tag) (body : List Byte) (s : State) :
    poolView (serveLineEventsClear tag body s) = poolView s := by
  unfold serveLineEventsClear
  repeat' split
  all_goals rfl

@[simp] theorem poolView_acceptAction (n : Node) (k : ActionKind) (tag : Tag) (escalate : Bool) (s : State) :
    poolView (acceptAction n k tag escalate s) = poolView s := by
  unfold acceptAction
  dsimp only
  split_ifs <;> simp

@[simp] theorem poolView_preemptRunning (n : Node) (s : State) : poolView (preemptRunning n s) = poolView s := by
  unfold preemptRunning
  split <;> simp

@[simp] theorem poolView_servePowerAction (tag : Tag) (body : List Byte) (s : State) :
    poolView (servePowerAction tag body s) = poolView s := by
  unfold servePowerAction
  repeat' split
  all_goals simp

@[simp] theorem poolView_servePowerTimings (tag : Tag) (body : List Byte) (s : State) :
    poolView (servePowerTimings tag body s) = poolView s := by
  unfold servePowerTimings
  repeat' split
  all_goals rfl

@[simp] theorem poolView_startWatch (tag : Tag) (e : Per4 Expected) (timeout : Nat) (s : State) :
    poolView (startWatch tag e timeout s) = poolView s := by
  unfold startWatch
  dsimp only
  split_ifs <;> simp

@[simp] theorem poolView_servePowerWatch (tag : Tag) (body : List Byte) (s : State) :
    poolView (servePowerWatch tag body s) = poolView s := by
  unfold servePowerWatch
  repeat' split
  all_goals simp

@[simp] theorem poolView_serveConsoleConfig (tag : Tag) (body : List Byte) (s : State) :
    poolView (serveConsoleConfig tag body s) = poolView s := by
  have hpages : ∀ x (c : Console), (c.configure x).pages = c.pages := fun _ _ => rfl
  unfold serveConsoleConfig
  repeat' split
  all_goals simp [applyConsoleConfig, hpages]

@[simp] theorem poolView_serveConsoleSend (tag : Tag) (body : List Byte) (s : State) :
    poolView (serveConsoleSend tag body s) = poolView s := by
  have hpages : ∀ bytes (c : Console), (c.send bytes).pages = c.pages := fun _ _ => rfl
  unfold serveConsoleSend
  repeat' split
  all_goals simp [hpages]

@[simp] theorem poolView_serveConsoleBreak (tag : Tag) (body : List Byte) (s : State) :
    poolView (serveConsoleBreak tag body s) = poolView s := by
  have hpages : ∀ d (c : Console), (c.startBreak tag d).pages = c.pages := fun _ _ => rfl
  unfold serveConsoleBreak
  repeat' split
  all_goals simp [hpages]

@[simp] theorem poolView_serveConsoleRead (tag : Tag) (body : List Byte) (s : State) :
    poolView (serveConsoleRead tag body s) = poolView s := by
  unfold serveConsoleRead
  repeat' split
  all_goals rfl

@[simp] theorem poolView_serveConsoleForward (tag : Tag) (body : List Byte) (s : State) :
    poolView (serveConsoleForward tag body s) = poolView s := by
  unfold serveConsoleForward
  repeat' split
  all_goals simp

@[simp] theorem poolView_serveConsoleStatus (tag : Tag) (body : List Byte) (pins : Per4 Level) (s : State) :
    poolView (serveConsoleStatus tag body pins s) = poolView s := by
  unfold serveConsoleStatus
  repeat' split
  all_goals rfl

@[simp] theorem poolView_servePoolStatus (tag : Tag) (body : List Byte) (s : State) :
    poolView (servePoolStatus tag body s) = poolView s := by
  unfold servePoolStatus
  repeat' split
  all_goals rfl

@[simp] theorem poolView_serveUnitStatus (tag : Tag) (body : List Byte) (s : State) :
    poolView (serveUnitStatus tag body s) = poolView s := by
  unfold serveUnitStatus
  repeat' split
  all_goals rfl

@[simp] theorem poolView_serveMediaPortConfig (tag : Tag) (body : List Byte) (midBlock : Per4 Bool) (s : State) :
    poolView (serveMediaPortConfig tag body midBlock s) = poolView s := by
  unfold serveMediaPortConfig
  repeat' split
  all_goals rfl

@[simp] theorem poolView_servePatternSet (tag : Tag) (body : List Byte) (s : State) :
    poolView (servePatternSet tag body s) = poolView s := by
  unfold servePatternSet
  repeat' split
  all_goals rfl

@[simp] theorem poolView_applyPolicy (n : Node) (p : Policy) (s : State) : poolView (applyPolicy n p s) = poolView s := by
  unfold applyPolicy
  dsimp only
  repeat' split
  all_goals simp

@[simp] theorem poolView_serveBootPolicy (tag : Tag) (body : List Byte) (s : State) :
    poolView (serveBootPolicy tag body s) = poolView s := by
  unfold serveBootPolicy
  repeat' split
  all_goals simp

@[simp] theorem poolView_rearm (n : Node) (s : State) : poolView (rearm n s) = poolView s := by
  unfold rearm
  dsimp only
  split_ifs <;> simp

@[simp] theorem poolView_serveBootRearm (tag : Tag) (body : List Byte) (s : State) :
    poolView (serveBootRearm tag body s) = poolView s := by
  unfold serveBootRearm
  repeat' split
  all_goals simp

@[simp] theorem poolView_serveBootStatus (tag : Tag) (body : List Byte) (s : State) :
    poolView (serveBootStatus tag body s) = poolView s := by
  unfold serveBootStatus
  repeat' split
  all_goals rfl

@[simp] theorem poolView_serveIdentify (tag : Tag) (body : List Byte) (s : State) :
    poolView (serveIdentify tag body s) = poolView s := by
  unfold serveIdentify
  split <;> rfl

@[simp] theorem poolView_serveLinkConfig (tag : Tag) (body : List Byte) (s : State) :
    poolView (serveLinkConfig tag body s) = poolView s := by
  unfold serveLinkConfig
  split <;> rfl

@[simp] theorem poolView_serveSaveSettings (tag : Tag) (body : List Byte) (s : State) :
    poolView (serveSaveSettings tag body s) = poolView s := by
  unfold serveSaveSettings
  repeat' split
  all_goals rfl

/-! ## POOL CONFIG (R77, R88, R89) -/

theorem owners_applyShares (xs : List (Holder × Nat × Nat)) (p : Pool) : (p.applyShares xs).owners = p.owners := by
  induction xs generalizing p with
  | nil => rfl
  | cons x xs ih => exact (ih _).trans (owners_modHolder _ _ p)

/-- R89: shares that give each console two pages or more keep two reserved for it. -/
theorem reserved_applyShares {xs : List (Holder × Nat × Nat)} {p : Pool}
    (hx : ∀ x ∈ xs, HolderFits x.1 { reservation := x.2.1, share := x.2.2 })
    (hp : 2 ≤ (p.holder (.ch n)).reservation) : 2 ≤ ((p.applyShares xs).holder (.ch n)).reservation := by
  induction xs generalizing p with
  | nil => exact hp
  | cons x xs ih =>
    refine ih (fun y hy => hx y (List.mem_cons_of_mem x hy)) ?_
    rw [holder_modHolder]
    split_ifs with e
    · have hfit := hx x List.mem_cons_self
      rw [← e] at hfit
      exact hfit.1.1
    · exact hp

/-- R88: where no given reservation is another than the present one, no reservation changes. -/
theorem reservation_applyShares {xs : List (Holder × Nat × Nat)} {p : Pool} {r : Holder → Nat}
    (hx : ∀ x ∈ xs, x.2.1 = r x.1) (hp : ∀ g, (p.holder g).reservation = r g) (g : Holder) :
    ((p.applyShares xs).holder g).reservation = r g := by
  induction xs generalizing p with
  | nil => exact hp g
  | cons x xs ih =>
    refine ih (fun y hy => hx y (List.mem_cons_of_mem x hy)) fun g => ?_
    rw [holder_modHolder]
    split_ifs with e
    · subst e
      exact hx x List.mem_cons_self
    · exact hp g

theorem reservation_unchanged {xs : List (Holder × Nat × Nat)} {p : Pool} (h : reservationChanges p xs = false) (g : Holder) :
    ((p.applyShares xs).holder g).reservation = (p.holder g).reservation := by
  simp only [reservationChanges, List.any_eq_false, bne_iff_ne, ne_eq, not_not] at h
  exact reservation_applyShares (r := fun g => (p.holder g).reservation) h (fun _ => rfl) g

/-- R88, R89: what an accepted POOL CONFIG leaves of the pool. -/
theorem PoolCounts.applyShares {xs : List (Holder × Nat × Nat)} {p : Pool} (h : PoolCounts p)
    (hx : ∀ x ∈ xs, HolderFits x.1 { reservation := x.2.1, share := x.2.2 })
    (hr : ¬ (reservationChanges p xs ∧ (p.applyShares xs).common < (p.applyShares xs).borrowed)) :
    PoolCounts (p.applyShares xs) := by
  cases hc : reservationChanges p xs with
  | false => exact h.congr (owners_applyShares xs p) (reservation_unchanged hc)
  | true =>
    refine ⟨Nat.le_of_not_lt fun hlt => hr ⟨hc, hlt⟩, fun n => ?_, fun n => reserved_applyShares hx (h.reserved n)⟩
    rw [held_congr (owners_applyShares xs p)]
    exact h.console n

theorem HoldsBut.withPool {p : Pool} (h : PoolHolds s) (ho : p.owners = s.pool.owners) (hc : PoolCounts p) :
    PoolHolds { s with pool := p } := by
  obtain ⟨hhistory, hnodup, hrecord, hrecorded, hserved, -⟩ := h
  rw [← ho] at *
  exact ⟨hhistory, hnodup, hrecord, hrecorded, hserved, hc⟩

@[simp] theorem poolView_applyTick (tick : Nat) (s : State) : poolView (applyTick tick s) = poolView s := by
  unfold applyTick
  split_ifs <;> rfl

protected theorem HoldsBut.servePoolConfig (h : PoolHolds s) : PoolHolds (servePoolConfig tag body s) := by
  unfold Machine.servePoolConfig
  split
  · split
    · exact h.same rfl
    · rename_i xs hxs
      dsimp only
      split_ifs with hlimit hinUse
      · exact h.same rfl
      · exact h.same rfl
      · have hpool := h.withPool (owners_applyShares xs s.pool) (h.counts.applyShares (maskedShares_fit hxs) hinUse)
        exact (HoldsBut.poolChanged (hpool.same (poolView_applyTick _ _))).same (by rw [poolView_reply])
  · exact h.same rfl

/-! ## UNIT ATTACH and UNIT DETACH (R94, R95, R98, R99, R105) -/

protected theorem HoldsBut.attachUnit {x : MediaUnit} (h : PoolHolds s) (hx : x.state ≠ .detached) :
    PoolHolds (attachUnit v x s) :=
  (h.modUnit (v := v) (f := fun _ => x) (fun hd => absurd hd hx) fun _ _ => hx).same
    (poolView_foldl (fun t n => poolView_setAttention n t) _ _)

protected theorem HoldsBut.serveUnitAttach (h : PoolHolds s) : PoolHolds (serveUnitAttach tag body s) := by
  unfold Machine.serveUnitAttach
  split
  · split
    · refine HoldsBut.ite (h.same rfl) (HoldsBut.ite (h.same rfl) ?_)
      split
      · exact h.same rfl
      · exact (h.attachUnit (by simp [attachedUnit])).same (poolView_reply _ _ _ _ _)
    · exact h.same rfl
  · exact h.same rfl

protected theorem HoldsBut.forceOut (h : PoolHolds s) : PoolHolds (forceOut v s) := 
  (h.takeOut (v := v)).same (poolView_modUnit rfl rfl)

@[simp] theorem poolView_endDrainReply (before : State) (v : UnitId) (r : Result) (s : State) :
    poolView (endDrainReply before v r s) = poolView s := by
  unfold endDrainReply
  split <;> rfl

protected theorem HoldsBut.detachForced (h : PoolHolds s) : PoolHolds (detachForced v tag s) := by

  have hleft : PoolHolds (afterLeaving s (forceOut v s)) := h.forceOut.afterLeaving
  exact hleft.same (by simp [Machine.detachForced])

protected theorem HoldsBut.detachUnit {force : Bool} (h : PoolHolds s) : PoolHolds (detachUnit v tag force s) := by
  unfold Machine.detachUnit
  split
  · exact h.same rfl
  · exact h.detachForced
  · exact h.detachForced
  · exact h.detachForced
  · exact HoldsBut.ite (h.takeOut.afterLeaving.same (poolView_reply _ _ _ _ _)) h.startDrain.afterLeaving
  · exact h.same rfl
  · exact h.same rfl

protected theorem HoldsBut.serveUnitDetach (h : PoolHolds s) : PoolHolds (serveUnitDetach tag body s) := by
  unfold Machine.serveUnitDetach
  split
  · split
    · exact h.detachUnit
    · exact h.same rfl
  · exact h.same rfl

/-! ## CLEAR (R59, R75, R92, R108, R189) -/

@[simp] theorem poolView_answerCleared (r : ClearedReply) (s : State) : poolView (answerCleared r s) = poolView s := by
  unfold answerCleared
  repeat' split
  all_goals simp

/-- What the law of the pool speaks of tells which units are DETACHED. -/
theorem detached_of_poolView (e : poolView t = poolView s) (v : UnitId) :
    (t.units.get v).state = .detached ↔ (s.units.get v).state = .detached := by
  simp only [poolView, Prod.mk.injEq] at e
  obtain ⟨-, -, -, -, -, hunits⟩ := e
  have hv := congrArg (·.get v) hunits
  simp only [Per4.get_map, Prod.mk.injEq, decide_eq_decide] at hv
  exact hv.1

theorem units_freeBlock (v : UnitId) (lba : Nat) (s : State) : (freeBlock v lba s).units = s.units := by
  unfold freeBlock
  split <;> rfl

theorem units_dropFetch (i : Fin 16) (f : Fetch) (s : State) : (dropFetch i f s).units = s.units := by
  have hblocks : ∀ (l : List Nat) (t : State), (l.foldl (fun t lba => freeBlock f.unit lba t) t).units = t.units := fun l => by
    induction l with
    | nil => exact fun _ => rfl
    | cons lba l ih =>
      exact fun t => (ih _).trans (units_freeBlock f.unit lba t)
  exact hblocks (waitingBlocks f) s

theorem units_freeUnitPages (v : UnitId) (s : State) : (freeUnitPages v s).units = s.units := rfl

theorem units_dropFetches (v : UnitId) (s : State) : (dropFetches v s).units = s.units := by
  unfold dropFetches
  refine List.foldlRecOn (motive := fun t : State => t.units = s.units) _ _ rfl fun t ht i _ => ?_
  split
  · split
    · exact (units_dropFetch i _ t).trans ht
    · exact ht
  · exact ht

/-- R99: a unit that is taken out is DETACHED. -/
theorem state_takeOut (v : UnitId) (s : State) : ((takeOut v s).units.get v).state = .detached := by
  rw [takeOut, units_modUnit, if_pos rfl]
  rfl

/-- R99: the other units stay as they are. -/
theorem detached_takeOut {w : UnitId} (h : (s.units.get w).state = .detached) : ((takeOut v s).units.get w).state = .detached := by
  by_cases e : w = v
  · rw [e]
    exact state_takeOut v s
  · have hstores : ((dropStores v (dropFetches v (abortPorts v s))).units.get w).state = .detached := by
      rw [detached_of_poolView (poolView_dropStores v _), units_dropFetches,
        detached_of_poolView (poolView_abortPorts v s)]
      exact h
    rw [takeOut, units_modUnit, if_neg e, units_clearNodes, units_modUnit, if_neg e, units_freeUnitPages]
    exact hstores

theorem detached_forceOut {w : UnitId} (h : w = v ∨ (s.units.get w).state = .detached) :
    ((forceOut v s).units.get w).state = .detached := by
  have hout : ((takeOut v s).units.get w).state = .detached := by
    rcases h with rfl | h
    · exact state_takeOut w s
    · exact detached_takeOut h
  refine (detached_of_poolView (s := takeOut v s) ?_ w).mpr hout
  simp [forceOut]

/-- R108: CLEAR leaves every unit DETACHED. -/
theorem detached_clearUnits (s : State) (w : UnitId) : ((clearUnits s).units.get w).state = .detached := by
  have hfold : ∀ (l : List UnitId) (t : State), (w ∈ l ∨ (t.units.get w).state = .detached) →
      ((l.foldl (fun t u => if (t.units.get u).state = .detached then t else forceOut u t) t).units.get w).state
        = .detached := fun l => by
    induction l with
    | nil => exact fun t h => h.resolve_left List.not_mem_nil
    | cons u l ih =>
      refine fun t h => ih _ ?_
      have hstep : w = u ∨ (t.units.get w).state = .detached →
          ((if (t.units.get u).state = .detached then t else forceOut u t).units.get w).state = .detached := fun h => by
        split_ifs with hd
        · rcases h with rfl | h
          · exact hd
          · exact h
        · exact detached_forceOut h
      rw [List.mem_cons, or_assoc, or_left_comm] at h
      exact h.imp_right hstep
  exact hfold allNodes s (.inl (List.mem_finRange w))

protected theorem HoldsBut.clearUnits (h : PoolHolds s) : PoolHolds (clearUnits s) :=
  HoldsBut.foldl (fun h => HoldsBut.ite h h.forceOut) h

/-- R92: where every unit is DETACHED no page belongs to one. -/
theorem HoldsBut.no_cache_page (h : PoolHolds s) (hd : ∀ w, (s.units.get w).state = .detached) (p : PageId) (w : UnitId) :
    s.pool.owners[p] ≠ some (.mh w) := fun e => by
  obtain ⟨r, hr, -⟩ := List.mem_map.mp (h.recorded p w e (by simp))
  exact (h.record r hr).2.2 (hd r.unit)

theorem owners_cleared {p : Pool} (h : ∀ (q : PageId) (w : UnitId), p.owners[q] ≠ some (.mh w)) :
    p.cleared.owners = p.owners := by
  refine Vector.ext fun i hi => ?_
  simp only [Pool.cleared, Vector.getElem_map]
  split
  · rename_i w e
    exact absurd e (h ⟨i, hi⟩ w)
  · rfl

protected theorem HoldsBut.clearedRest (h : PoolHolds s) (hd : ∀ w, (s.units.get w).state = .detached) :
    PoolHolds (clearedRest s) := by
  refine h.same ?_
  have hch : s.pool.cleared.consoles.map (·.reservation) = s.pool.consoles.map (·.reservation) :=
    Per4.map_map_same (f := HolderRecord.cleared) (fun _ => rfl) _
  have hmh : s.pool.cleared.caches.map (·.reservation) = s.pool.caches.map (·.reservation) :=
    Per4.map_map_same (f := HolderRecord.cleared) (fun _ => rfl) _
  have hpages : (s.consoles.map Console.cleared).map (·.pages) = s.consoles.map (·.pages) :=
    Per4.map_map_same (f := Console.cleared) (fun _ => rfl) _
  simp only [poolView, Machine.clearedRest, owners_cleared (h.no_cache_page hd), hch, hmh, hpages]

protected theorem HoldsBut.serveClear (h : PoolHolds s) : PoolHolds (serveClear tag body s) := by
  unfold Machine.serveClear
  split
  · rw [clearBlocks_eq]
    have hanswered : PoolHolds (s.inFreeOrder (clearedReplies s) answerCleared) :=
      HoldsBut.inFreeOrder (fun h => h.same (poolView_answerCleared _ _)) h
    have hunits : PoolHolds (clearUnits ((s.inFreeOrder (clearedReplies s) answerCleared).modLink Link.cleared)) :=
      HoldsBut.clearUnits (hanswered.same (poolView_modLink _ _))
    exact (hunits.clearedRest (detached_clearUnits _)).same (poolView_reply _ _ _ _ _)
  · exact h.same rfl

/-! ## Any request (R177) -/

protected theorem HoldsBut.serveRequest {kind : Byte} {pins : NodePins} (h : PoolHolds s) :
    PoolHolds (serveRequest kind tag body pins s) := by
  unfold Machine.serveRequest
  split
  case h_3 => exact h.serveClear
  case h_18 => exact h.servePoolConfig
  case h_20 => exact h.serveUnitAttach
  case h_21 => exact h.serveUnitDetach
  all_goals exact h.same (by simp [serveUnknown])

end

end Sys2Proof.Machine
end

section
/-!
SUPPORT. Every command keeps every page in its place (`PoolHolds`): requests and answers as they are taken from the link,
the timers, the ports' commands, and so every command that runs only while the part is running.
-/

namespace Sys2Proof.Machine

section
variable {s t : State} {n : Node}

/-! ## Requests and answers as they are taken (R176, R177, R181, R184) -/

protected theorem HoldsBut.drainRequests {pins : NodePins} {k : Nat} (h : PoolHolds s) : PoolHolds (drainRequests pins k s) := by
  induction k generalizing s with
  | zero => exact h
  | succ k ih =>
    unfold Machine.drainRequests
    split
    · exact h
    · exact HoldsBut.ite (ih (HoldsBut.serveRequest (h.same (poolView_modLink _ s)))) h

protected theorem HoldsBut.takeRequests {pins : NodePins} (h : PoolHolds s) : PoolHolds (takeRequests pins s) :=
  h.drainRequests

protected theorem HoldsBut.receiveRequest {kind : Byte} {tag : Tag} {body : List Byte} {pins : NodePins}
    (h : PoolHolds s) : PoolHolds (receiveRequest kind tag body pins s) := by
  unfold Machine.receiveRequest
  split
  · exact HoldsBut.takeRequests (h.same (poolView_modLink _ s))
  · exact h.same (poolView_linkError _ s)

protected theorem HoldsBut.receiveAnswer {f : State → State} (h : PoolHolds s)
    (hf : ∀ {t}, PoolHolds t → PoolHolds (f t)) : PoolHolds (receiveAnswer f s) := by
  unfold Machine.receiveAnswer
  split
  · exact hf (h.same (poolView_hunt s))
  · exact h.same (poolView_linkError _ s)

protected theorem HoldsBut.sendControl {pins : NodePins} (h : PoolHolds s) : PoolHolds (sendControl pins s) := by
  unfold Machine.sendControl
  split
  · exact HoldsBut.takeRequests (h.same (poolView_modLink _ s))
  · exact h.same (poolView_sendNotice _ _ s)
  · exact h

protected theorem HoldsBut.chooseClass {pins : NodePins} (h : PoolHolds s) : PoolHolds (chooseClass pins s) :=
  h.sendControl.ite (h.same (poolView_sendBulk s))

protected theorem HoldsBut.arbitrate {pins : NodePins} (h : PoolHolds s) : PoolHolds (arbitrate pins s) := by
  unfold Machine.arbitrate
  split
  · exact HoldsBut.ite (h.same (poolView_sendNotice _ _ s)) h.chooseClass
  · exact h.chooseClass

protected theorem HoldsBut.arbiterLooks {pins : ArbiterPins} (h : PoolHolds s) : PoolHolds (arbiterLooks pins s) := by
  have hcts : PoolHolds (s.modLink fun k => { k with cts := pins.cts }) := h.same (poolView_modLink _ s)
  exact hcts.arbitrate.ite hcts

/-! ## The engine's timers (R139, R149, R151) -/

protected theorem HoldsBut.fetchTimesOut {i : Fin 16} (h : PoolHolds s) : PoolHolds (fetchTimesOut i s) := by
  unfold Machine.fetchTimesOut
  split
  · exact h.failFetch
  · exact h

@[simp] theorem poolView_storeTimesOut (i : Fin 8) (s : State) : poolView (storeTimesOut i s) = poolView s := by
  unfold storeTimesOut
  split <;> simp

@[simp] theorem poolView_agePages (s : State) : poolView (agePages s) = poolView s := by
  refine poolView_directory ?_
  rw [List.map_map]
  refine List.map_congr_left fun r _ => ?_
  simp only [Function.comp_apply, DirRecord.older]
  split_ifs <;> rfl

/-! ## Port commands (R110 to R126) -/

@[simp] theorem poolView_beginTransaction (n : Node) (s : State) : poolView (beginTransaction n s) = poolView s := rfl

@[simp] theorem poolView_endTaking (n : Node) (s : State) : poolView (endTaking n s) = poolView s := rfl

@[simp] theorem poolView_restartIdle (n : Node) (s : State) : poolView (restartIdle n s) = poolView s := rfl

@[simp] theorem poolView_openCommand (n : Node) (a : ActiveCommand) (s : State) :
    poolView (openCommand n a s) = poolView s := rfl

@[simp] theorem poolView_respond (n : Node) (taken : Nat) (txn : Byte) (r : Status) (after : List Byte) (s : State) :
    poolView (respond n taken txn r after s) = poolView s := rfl

@[simp] theorem poolView_badCommandAt (n : Node) (s : State) : poolView (badCommandAt n s).2 = poolView s := rfl

@[simp] theorem poolView_openAndEnd (n : Node) (a : ActiveCommand) (st : Status) (s : State) :
    poolView (openAndEnd n a st s).2 = poolView s := by
  simp [openAndEnd]

@[simp] theorem poolView_openWrite (n : Node) (u : UnitId) (lba count : Nat) (s : State) :
    poolView (openWrite n u lba count s).2 = poolView s := by
  unfold openWrite
  dsimp only
  split_ifs <;> simp

@[simp] theorem poolView_takeWrite (n : Node) (lba count : Nat) (together : Bool) (s : State) :
    poolView (takeWrite n lba count together s).2 = poolView s := by
  unfold takeWrite
  repeat' split
  all_goals simp

@[simp] theorem poolView_takeFlush (n : Node) (s : State) : poolView (takeFlush n s).2 = poolView s := by
  unfold takeFlush
  repeat' split
  all_goals simp

@[simp] theorem poolView_takeBlock (n : Node) (txn : Byte) (s : State) : poolView (takeBlock n txn s) = poolView s := by
  unfold takeBlock
  dsimp only
  split <;> simp

@[simp] theorem poolView_giveBlockTaken (n : Node) (s : State) : poolView (giveBlockTaken n s) = poolView s := rfl

@[simp] theorem poolView_stageGiven (n : Node) (a : ActiveCommand) (data : List Byte) (s : State) :
    poolView (stageGiven n a data s) = poolView s := rfl

@[simp] theorem poolView_takeSense (n : Node) (txn : Byte) (s : State) : poolView (takeSense n txn s) = poolView s := rfl

@[simp] theorem poolView_takeAbort (n : Node) (s : State) : poolView (takeAbort n s).2 = poolView s := by
  unfold takeAbort
  split_ifs <;> simp

@[simp] theorem poolView_badBlock (n : Node) (block : List Byte) (s : State) :
    poolView (badBlock n block s) = poolView s := by
  unfold badBlock
  split <;> rfl

@[simp] theorem poolView_shortTransaction (n : Node) (s : State) : poolView (shortTransaction n s) = poolView s := rfl

@[simp] theorem poolView_idleEnds (n : Node) (s : State) : poolView (idleEnds n s) = poolView s := by
  unfold idleEnds
  split_ifs <;> simp

/-- R110: a command that keeps the pages in their places is answered. -/
protected theorem HoldsBut.answerWith {txn : Byte} {f : State → Status × State} (h : PoolHolds s)
    (hf : ∀ {t}, PoolHolds t → PoolHolds (f t).2) : PoolHolds (answerWith n txn f s) :=
  (hf (h.same (poolView_beginTransaction n s))).same (poolView_respond _ _ _ _ _ _)

protected theorem HoldsBut.takeRead {lba count : Nat} (h : PoolHolds s) : PoolHolds (takeRead n lba count s).2 := by
  unfold Machine.takeRead
  split
  · exact h
  · split
    · exact h
    · split
      · exact h
      · dsimp only
        split
        · exact h.same (poolView_openAndEnd _ _ _ s)
        · exact HoldsBut.stage (h.same (poolView_openCommand _ _ s))

protected theorem HoldsBut.deliver {a : ActiveCommand} (h : PoolHolds s) : PoolHolds (deliver n a s) := by
  have hend : ∀ {t : State}, PoolHolds t → PoolHolds (if a.done + 1 = a.effective then
      endCommand n (finalStatus { a with done := a.done + 1 }) t else stage n stageFuel t) :=
    fun h => HoldsBut.ite (h.same (poolView_endCommand _ _ _)) h.stage
  have hport : ∀ f : Port → Port, PoolHolds (s.modPort n f) := fun f => h.same (poolView_modPort n f s)
  exact hend (HoldsBut.ite (hport _).readAhead (hport _))

protected theorem HoldsBut.blockEnds (h : PoolHolds s) : PoolHolds (blockEnds n s) := by
  have htaken : PoolHolds (endTaking n s) := h.same (poolView_endTaking n s)
  unfold Machine.blockEnds
  split
  · exact htaken.deliver.ite htaken
  · exact htaken
  · exact h

protected theorem HoldsBut.decideGive {data : List Byte} {crc : BitVec 16} (h : PoolHolds s) :
    PoolHolds (decideGive n data crc s).2 := by
  unfold Machine.decideGive
  dsimp only
  split
  · exact h
  · split_ifs
    · exact h
    · exact h.same (by simp)
    · exact h
    · exact h.same (by simp)
    · exact h.same (by simp)
    · exact h.same (by simp)
    · exact HoldsBut.offerBlocks (h.same (poolView_stageGiven _ _ _ s))

protected theorem HoldsBut.completeGive {txn : Byte} {data : List Byte} {crc : BitVec 16} (h : PoolHolds s) :
    PoolHolds (completeGive n txn data crc s) := by
  have hreceived : PoolHolds (endTaking n (receiveGive n data s)) := h.same rfl
  exact hreceived.decideGive.same (poolView_respond _ _ _ _ _ _)

/-! ## What a command answers -/

/-- A command that answers a next state keeps every page in its place. -/
def RunsHolding (o : Outcome) : Prop := ∀ t, o = .next t → PoolHolds t

theorem runsHolding_next {f : State → State} (h : PoolHolds s) (hf : PoolHolds (f s)) :
    RunsHolding (.next (s.whenRunning f)) := fun t e => by
  cases e
  exact hf.ite h

theorem runsHolding_fault : RunsHolding (.fault .illFormedCommand) := fun _ e => by cases e

theorem runsHolding_ite {c : Prop} [Decidable c] {f : State → State} (h : PoolHolds s) (hf : PoolHolds (f s)) :
    RunsHolding (if c then .next (s.whenRunning f) else .fault .illFormedCommand) := by
  split
  · exact runsHolding_next h hf
  · exact runsHolding_fault

/-- A command that leaves what the law speaks of alone. -/
theorem runsHolding_same {f : State → State} (h : PoolHolds s) (hf : poolView (f s) = poolView s) :
    RunsHolding (.next (s.whenRunning f)) := runsHolding_next h (h.same hf)

theorem runsHolding_request (pins : NodePins) (kind : Byte) (tag : Tag) (body : List Byte) (h : PoolHolds s) :
    RunsHolding (requestMeeting pins kind tag body s) :=
  runsHolding_ite h h.receiveRequest

theorem runsHolding_unknownKind (kind : Byte) (tag : Tag) (body : List Byte) (h : PoolHolds s) :
    RunsHolding (execUnknownKind kind tag body s) := by
  unfold execUnknownKind
  split
  · exact runsHolding_fault
  · exact runsHolding_request _ _ _ _ h

theorem runsHolding_escapeError (next : Byte) (h : PoolHolds s) : RunsHolding (execEscapeError next s) := by
  unfold execEscapeError
  split
  · exact runsHolding_fault
  · exact runsHolding_same h (poolView_abandonFrame _ s)

theorem runsHolding_verifyingEnd (d : Option ReadFault) (h : PoolHolds s) : RunsHolding (execVerifyingEnd d s) := by
  cases d with
  | none => exact runsHolding_same h (poolView_verify _ s)
  | some d => exact runsHolding_ite h (h.same (poolView_verify _ s))

/-! ## Reset and load (R191, R192, R194) -/

/-- R76, R79: the law of the pool gives every page its place. -/
theorem poolHolds_of_poolLaw (h : PoolLaw s) : PoolHolds s := by
  obtain ⟨⟨-, -, -, hidle⟩, hsettings, hpages, ⟨hnodup, hrecord, hrecorded⟩, hborrowed, -⟩ := h
  have hserved : ∀ (u : UnitId) (n : Node), (s.units.get u).nodes.get n → (s.units.get u).state ≠ .detached :=
    fun u n hn hd => by
      rw [hidle u (.inl hd), Per4.get_all] at hn
      cases hn
  have hheld : ∀ n : Node, 2 ≤ s.pool.held (.ch n) := fun n => by
    obtain ⟨hl, hlen, hmem⟩ := hpages n
    rwa [← length_eq_held hl hmem]
  refine ⟨fun n => ?_, hnodup, fun r hr => ?_, fun p u e _ => hrecorded p u e, hserved, hborrowed, hheld, fun n => ?_⟩
  · obtain ⟨hl, -, hmem⟩ := hpages n
    exact ⟨hl, fun p => (hmem p).trans (and_iff_left (by simp)).symm⟩
  · obtain ⟨howner, hstate⟩ := hrecord r hr
    exact ⟨howner, by simp, hstate⟩
  · exact (holderFits_of_settingsLaw hsettings (.ch n)).1.1

theorem poolHolds_partReset (taken : Nat) (s : State) : PoolHolds (partReset taken s) := by
  obtain ⟨-, -, -, -, -, -, -, hpool, -⟩ := resetMeetsEveryLaw
  exact (poolHolds_of_poolLaw hpool).same rfl

protected theorem HoldsBut.releaseReset (h : PoolHolds s) : PoolHolds (releaseReset s) :=
  HoldsBut.ite (h.same rfl) h

/-- R79, R194: at the end of loading each console has its two pages, and whatever the reservations, nobody borrows. -/
theorem PoolCounts.load {p : Pool} (howners : p.owners = resetOwners) (hr : ∀ n : Node, 2 ≤ (p.holder (.ch n)).reservation) :
    PoolCounts p := by
  have hch : ∀ n : Node, p.held (.ch n) = 2 := fun n => by
    rw [Pool.held, howners]
    fin_cases n <;> decide +kernel
  have hmh : ∀ u : UnitId, p.held (.mh u) = 0 := fun u => by
    rw [Pool.held, howners]
    fin_cases u <;> decide +kernel
  have hborrow : ∀ g, p.borrow g = 0 := fun g => by
    cases g with
    | ch n => exact Nat.sub_eq_zero_of_le ((hch n).trans_le (hr n))
    | mh u => exact Nat.sub_eq_zero_of_le ((hmh u).trans_le (Nat.zero_le _))
  refine ⟨?_, fun n => (hch n).ge, hr⟩
  rw [Pool.borrowed, List.map_congr_left fun g _ => hborrow g]
  exact Nat.zero_le _

/-- R79, R191: while the part is not running the pages are those of part reset. -/
def ResetPages (s : State) : Prop := s.phase ≠ .running → s.pool.owners = resetOwners

protected theorem HoldsBut.endLoad {pins : BitVec 24} {found : LoadRead} (h : PoolHolds s)
    (hreset : ResetPages s) : PoolHolds (endLoad pins found s) := by
  by_cases hp : s.phase = .loading
  · rw [endLoad_loading hp]
    generalize hjudged : judgeLoad found (findMemory found s.loader) = o
    have hlegal : SettingsLegal o.settings := hjudged ▸ settingsLegal_judgeRead _ _
    have hcounts : PoolCounts (inForce o.settings pins s).pool := .load (hreset (by simp [hp])) fun n => by
      obtain ⟨-, -, -, -, hnode, -⟩ := hlegal
      obtain ⟨-, -, -, -, hch, -⟩ := hnode n
      simp only [inForce, Pool.holder, Per4.get_build]
      exact hch.1.1
    have hpages : (Per4.build fun n => (s.consoles.get n).begin (o.settings.consoles.get n)).map (·.pages)
        = s.consoles.map (·.pages) := Per4.map_build fun n => by rw [Per4.get_map]; rfl
    refine (h.withPool (p := (inForce o.settings pins s).pool) rfl hcounts).same ?_
    simp only [poolView, State.notify, State.modLink, loadedState, inForce, hpages]
  · rwa [endLoad_other hp]

theorem runsHolding_loadEnd (pins : BitVec 24) (found : LoadRead) (h : PoolHolds s)
    (hreset : ResetPages s) : RunsHolding (execLoadEnd pins found s) := by
  unfold execLoadEnd
  split
  · rintro t ⟨⟩
    exact h.endLoad hreset
  · exact runsHolding_fault

/-! ## Every command -/

theorem exec_runsHolding (c : Instr) (h : PoolHolds s) (hreset : ResetPages s) :
    RunsHolding (exec c s) := by
  cases c with
  | identify tag body | linkConfig tag body | clear tag body | saveSettings tag body | linesConfig tag body
  | linesSet tag body | linesRead tag body | lineEventsClear tag body | powerTimings tag body | powerWatch tag body
  | consoleConfig tag body | consoleSend tag body | consoleBreak tag body | consoleRead tag body
  | consoleForward tag body | consoleStatus tag asked | poolConfig tag body | poolStatus tag body
  | unitAttach tag body | unitDetach tag body | unitStatus tag body | mediaPortConfig tag asked | patternSet tag body
  | bootPolicy tag body | bootRearm tag body | bootStatus tag body => exact runsHolding_request _ _ _ _ h
  | powerAction tag asked => exact runsHolding_ite h (h.receiveRequest.same (poolView_startBehind _ _ _))
  | unknownKind kind tag body => exact runsHolding_unknownKind kind tag body h
  | fill tag lba data => exact runsHolding_ite h (h.receiveAnswer HoldsBut.fillAnswer)
  | fetchFailed tag => exact runsHolding_next h (h.receiveAnswer HoldsBut.fetchFailedAnswer)
  | stored tag => exact runsHolding_next h (h.receiveAnswer HoldsBut.storedAnswer)
  | storeFailed tag => exact runsHolding_next h (h.receiveAnswer fun h => h.same (poolView_storeFailedAnswer tag _))
  | malformedAnswer kind tag body => exact runsHolding_ite h (h.receiveAnswer fun h => h.same (poolView_linkError _ _))
  | crcError => exact runsHolding_same h (poolView_abandonFrame _ s)
  | truncatedFrame => exact runsHolding_same h (poolView_truncateFrame s)
  | escapeError next => exact runsHolding_escapeError next h
  | lengthError length => exact runsHolding_ite h (h.same (poolView_abandonFrame _ s))
  | byteFramingError => exact runsHolding_same h (poolView_abandonFrame _ s)
  | overrun => exact runsHolding_same h (poolView_overrunByte s)
  | arbiterChoice pins => exact runsHolding_next h h.arbiterLooks
  | frameSent => exact runsHolding_same h (poolView_frameEnds s)
  | sampleInstant pins => exact runsHolding_same h (poolView_sampleAll pins s)
  | tPressEnd n => exact runsHolding_same h (poolView_timerEnds fun a => poolView_pressEnds n a s)
  | tOnEnd n => exact runsHolding_same h (poolView_timerEnds fun _ => poolView_complete n _ s)
  | tSoftEnd n => exact runsHolding_same h (poolView_timerEnds fun a => poolView_softEnds n a s)
  | tHoldEnd n => exact runsHolding_same h (poolView_timerEnds fun a => poolView_holdEnds n a s)
  | tRestEnd n => exact runsHolding_same h (poolView_timerEnds fun a => poolView_restEnds n a s)
  | tResetEnd n => exact runsHolding_same h (poolView_timerEnds fun _ => poolView_complete n _ s)
  | tDiagEnd n => exact runsHolding_same h (poolView_timerEnds fun _ => poolView_complete n _ s)
  | powerWatchTimeout => exact runsHolding_same h (poolView_endWatch _ s)
  | characterReceived n data parityBit stopBit => exact runsHolding_next h h.receiveCharacter
  | breakRecognized n => exact runsHolding_same h (poolView_recognizeBreak n s)
  | heldCharacterStored n => exact runsHolding_next h h.storeHeld
  | breakEnd n => exact runsHolding_same h (poolView_endBreak n s)
  | transmitCharacterStart n cts => exact runsHolding_same h (poolView_modConsole (pages_startCharacter _))
  | breakSent n => exact runsHolding_same h (poolView_finishBreak n s)
  | breakRecoveryEnd n => exact runsHolding_same h (poolView_recoverBreak n s)
  | windowEnd n => exact runsHolding_next h h.endWindow
  | read n lba count txn =>
    refine runsHolding_next h (h.answerWith fun h => ?_)
    split
    · exact h.takeRead
    · exact h.same (poolView_badCommandAt n _)
  | write n lba count txn =>
    refine runsHolding_next h (h.answerWith fun h => ?_)
    split
    · exact h.same (poolView_takeWrite n _ _ _ _)
    · exact h.same (poolView_badCommandAt n _)
  | take n txn => exact runsHolding_same h (poolView_takeBlock n txn s)
  | give n txn data crc => exact runsHolding_ite h h.completeGive
  | status n txn => exact runsHolding_next h (h.answerWith fun h => h)
  | sense n txn => exact runsHolding_same h (poolView_takeSense n txn s)
  | flush n txn => exact runsHolding_next h (h.answerWith fun h => h.same (poolView_takeFlush n _))
  | ackChange n txn => exact runsHolding_next h (h.answerWith fun h => h.same (poolView_modPort n _ _))
  | abort n txn => exact runsHolding_next h (h.answerWith fun h => h.same (poolView_takeAbort n _))
  | badCommand n block => exact runsHolding_ite h (h.same (poolView_badBlock n block s))
  | shortTransaction n => exact runsHolding_same h (poolView_shortTransaction n s)
  | blockDelivered n => exact runsHolding_next h h.blockEnds
  | idleTimeout n => exact runsHolding_same h (poolView_idleEnds n s)
  | fetchTimeout i => exact runsHolding_next h h.fetchTimesOut
  | storeTimeout i => exact runsHolding_same h (poolView_storeTimesOut i s)
  | agingTick => exact runsHolding_same h (poolView_agePages s)
  | deadline n => exact runsHolding_same h (poolView_deadlineEnds n s)
  | partReset taken =>
    rintro t ⟨⟩
    exact poolHolds_partReset taken s
  | resetRelease =>
    rintro t ⟨⟩
    exact h.releaseReset
  | loadEnd pins found => exact runsHolding_loadEnd pins found h hreset
  | invalidatingEnd => exact runsHolding_same h (poolView_savePhaseEnds _ _ _ s)
  | writingEnd => exact runsHolding_same h (poolView_savePhaseEnds _ _ _ s)
  | sealingEnd => exact runsHolding_same h (poolView_savePhaseEnds _ _ _ s)
  | verifyingEnd d => exact runsHolding_verifyingEnd d h
  | saveNoAck address taken => exact runsHolding_ite h (h.same (poolView_saveFails address taken s))
  | frameStart => exact runsHolding_same h (poolView_startByte s)
  | startBit n mid => exact runsHolding_same h (poolView_confirmStart n mid s)
  | transmitCharacterEnd n => exact runsHolding_same h (poolView_modConsole (pages_endCharacter _))
  | giveCommandBlock n => exact runsHolding_same h (poolView_giveBlockTaken n s)

end

end Sys2Proof.Machine
end

section
/-!
The law of the page pool along a step (O8): every page in its place (`PoolHolds`), and the pages of part reset until the
part is running.
-/

namespace Sys2Proof.Machine

variable {s t : State}

theorem step_poolHolds (e : step s = .next t) (h : PoolLaw s) : PoolHolds t := by
  have hs := poolHolds_of_poolLaw h
  obtain ⟨-, -, -, -, -, hreset⟩ := h
  cases hp : s.pending with
  | nil =>
    rw [step_idle hp] at e
    cases e
    exact hs.same (poolView_tick s)
  | cons c rest =>
    rw [step_front hp] at e
    exact exec_runsHolding c (s := { s with pending := rest }) (hs.same rfl) hreset t e

theorem ResetPages.releaseReset (h : ResetPages s) : ResetPages (releaseReset s) := by
  rcases releaseReset_cases s with e | ⟨hp, e⟩ <;> rw [e]
  · exact h
  · exact fun _ => h (by simp [hp])

theorem ResetPages.endLoad {pins : BitVec 24} {found : LoadRead} (h : ResetPages s) : ResetPages (endLoad pins found s) := by
  by_cases hp : s.phase = .loading
  · rw [endLoad_loading hp]
    exact fun hrun => absurd rfl hrun
  · rwa [endLoad_other hp]

theorem ResetPages.whenRunning {f : State → State} (hf : ∀ u, Keeps u (f u)) (h : ResetPages s) :
    ResetPages (s.whenRunning f) := by
  by_cases hp : s.phase = .running
  · exact fun hrun => absurd ((keeps_whenRunning hf s).phase.trans hp) hrun
  · rwa [whenRunning_held hp]

/-- R79, R191, R192: the pages of part reset stay until the end of loading. -/
theorem step_resetPages (e : step s = .next t) (h : ResetPages s) : ResetPages t := by
  have hrest : ∀ rest, ResetPages { s with pending := rest } := fun _ => h
  rcases step_cases e with ⟨-, rfl⟩ | ⟨c, rest, -, ⟨taken, rfl⟩ | rfl | ⟨pins, found, rfl⟩ | ⟨f, hf, rfl⟩⟩
  · exact h
  · exact fun _ => rfl
  · exact (hrest rest).releaseReset
  · exact (hrest rest).endLoad
  · exact (hrest rest).whenRunning hf

/-- R76, R79: every page in its place, with the laws that a step keeps besides, is the law of the pool. -/
theorem poolLaw_of_poolHolds (h : PoolHolds s) (hunits : UnitLaw s) (hsettings : SettingsLaw s)
    (hreset : ResetPages s) : PoolLaw s := by
  refine ⟨hunits, hsettings, fun n => ?_, ⟨h.nodup, fun r hr => ?_, fun p u e => h.recorded p u e (by simp)⟩,
    h.counts.borrowed, hreset⟩
  · obtain ⟨hl, hmem⟩ := h.history n
    have hown : ∀ p : PageId, p ∈ (s.consoles.get n).pages ↔ s.pool.owners[p] = some (.ch n) := fun p =>
      (hmem p).trans (and_iff_left (by simp))
    exact ⟨hl, (h.counts.console n).trans_eq (length_eq_held hl hown).symm, hown⟩
  · obtain ⟨howner, -, hstate⟩ := h.record r hr
    exact ⟨howner, hstate⟩

end Sys2Proof.Machine

open Sys2Proof Sys2Proof.Machine

/-- Settles O8: pages in their places, unit table, settings and the pages of part reset are kept each on its own. -/
theorem poolStaysLawful : Obligations.PoolStaysLawful := by
  intro s t h e
  obtain ⟨hunits, hsettings, -, -, -, hreset⟩ := id h
  exact poolLaw_of_poolHolds (step_poolHolds e h) (step_unitLaw e hunits) (step_settingsLaw e hsettings)
    (step_resetPages e hreset)
end

section
/-!
The values that the pool derives (O32): the identity of the free pages, each value by the table of R78, its range where
the settings are legal, and a holder without a share.
-/

namespace Sys2Proof.Machine

section
variable {s : State} {p : Pool} {h : Holder}

/-! ## The identity of the free pages (R76, R78) -/

theorem free_add_held (p : Pool) : p.free + (allHolders.map p.held).sum = 256 :=
  (count_holders p.owners.toList).trans (by simp)

/-- R78: the free pages are the common part that nobody borrows, plus the reservations not filled. -/
theorem free_add_borrowed (hreserved : p.reserved ≤ 256) :
    p.free + p.borrowed = p.common + (allHolders.map p.shortfall).sum := by
  have hfree := free_add_held p
  have hsum := held_add_shortfall p
  rw [Pool.common]
  omega

theorem exists_free (hfree : 0 < p.free) : ∃ q : PageId, p.owners[q] = none := by
  obtain ⟨i, hi, e⟩ := List.getElem_of_mem (List.count_pos_iff.mp hfree)
  exact ⟨⟨i, by simpa using hi⟩, by simpa using e⟩

theorem shortfall_le_sum (p : Pool) (h : Holder) : p.shortfall h ≤ (allHolders.map p.shortfall).sum :=
  List.le_sum_of_mem (List.mem_map_of_mem (mem_allHolders h))

/-- R78, R81: a holder below its reservation finds a page free, while the borrows stay within the common part. -/
theorem exists_free_of_shortfall (hreserved : p.reserved ≤ 256) (hborrowed : p.borrowed ≤ p.common)
    (hshort : p.held h < (p.holder h).reservation) : ∃ q : PageId, p.owners[q] = none := by
  have hfree := free_add_borrowed hreserved
  have hle := shortfall_le_sum p h
  rw [Pool.shortfall] at hle
  exact exists_free (by omega)

/-! ## Ranges (R78) -/

theorem held_le (p : Pool) (h : Holder) : p.held h ≤ 256 := by
  simpa [Pool.held] using List.count_le_length (a := some h) (l := p.owners.toList)

theorem reserved_ge (hs : SettingsLaw s) : 8 ≤ s.pool.reserved := by
  have hch : ∀ n : Node, 2 ≤ (s.pool.holder (.ch n)).reservation := fun n => (holderFits_of_settingsLaw hs (.ch n)).1.1
  have h0 := hch 0
  have h1 := hch 1
  have h2 := hch 2
  have h3 := hch 3
  simp only [Pool.reserved, allHolders, List.map_cons, List.sum_cons]
  omega

theorem reservation_le (hs : SettingsLaw s) (h : Holder) : (s.pool.holder h).reservation ≤ 64 := by
  have hfit := holderFits_of_settingsLaw hs h
  cases h <;> exact hfit.1.2

theorem share_le (hs : SettingsLaw s) (h : Holder) : (s.pool.holder h).share ≤ 16 := by
  have hfit := holderFits_of_settingsLaw hs h
  cases h <;> exact hfit.2

theorem ceiling_le_common (hs : SettingsLaw s) (h : Holder) : ceiling s h ≤ s.pool.common := by
  have hshare : s.pool.common * (s.pool.holder h).share ≤ s.pool.common * 16 := Nat.mul_le_mul_left _ (share_le hs h)
  unfold ceiling
  split_ifs <;> omega

theorem derived_ranges (hs : SettingsLaw s) (h : Holder) : 64 ≤ s.pool.common ∧ s.pool.common ≤ 248
    ∧ s.pool.shortfall h ≤ 64 ∧ ceiling s h ≤ s.pool.common := by
  have hlow := reserved_ge hs
  have hres := reservation_le hs h
  have hhigh : s.pool.reserved ≤ 192 := by
    obtain ⟨-, -, -, -, -, -, hreserved⟩ := hs
    exact hreserved
  refine ⟨?_, ?_, ?_, ceiling_le_common hs h⟩ <;> simp only [Pool.common, Pool.shortfall] <;> omega

/-! ## Flood and shares (R71, R78) -/

theorem floodOf_eq_false (hf : ∀ n : Node, h = .ch n → (s.consoles.get n).flood = false) : floodOf s h = false := by
  cases h with
  | ch n => exact hf n rfl
  | mh u => rfl

theorem ceiling_noFlood (hf : ∀ n : Node, h = .ch n → (s.consoles.get n).flood = false) :
    ceiling s h = s.pool.common * (s.pool.holder h).share / 16 := by
  simp [ceiling, floodOf_eq_false hf]

theorem ceiling_noShare (hshare : (s.pool.holder h).share = 0) : ceiling s h = 0 := by
  simp [ceiling, hshare]

theorem borrow_modHolder {g : Holder} {f : HolderRecord → HolderRecord} (hf : ∀ r, (f r).reservation = r.reservation) :
    (p.modHolder g f).borrow h = p.borrow h := by
  rw [Pool.borrow, Pool.borrow, held_congr (owners_modHolder g f p), holder_modHolder]
  split_ifs with e
  · rw [hf, e]
  · rfl

/-- R81: a page for a holder below its reservation is not borrowed. -/
theorem borrow_grant {q : PageId} (hfree : p.owners[q] = none) (hshort : p.held h < (p.holder h).reservation) :
    (p.setOwner q (some h)).borrow h = 0 := by
  have hheld := held_setOwner p q (some h) h
  simp only [hfree, reduceCtorEq, if_false, if_true] at hheld
  rw [borrow_setOwner]
  omega

/-- R78: no request raises the borrow of a holder without a ceiling. -/
theorem borrow_allocate_le (hceiling : ceiling s h = 0) (why : Purpose) :
    (allocate h why s).2.pool.borrow h ≤ s.pool.borrow h := by
  rcases allocate_cases h why s with ⟨q, hq, hroom, e⟩ | ⟨g, q, -, hlow, -⟩ | ⟨q, -, -, -, e⟩ | e
  · rw [e]
    rcases hroom with hshort | ⟨hlow, -⟩
    · exact (borrow_grant (lowestFree_some hq).1 hshort).trans_le (Nat.zero_le _)
    · omega
  · omega
  · rw [e, selfRecycle, State.modPool_pool, borrow_modHolder (by intro _; rfl), pool_leaveContent]
  · rw [e, allocationFails, State.modPool_pool, borrow_modHolder (by intro _; rfl)]

/-! ## The table (R78) -/

theorem derivedValues_eq (h : Holder) (s : State) :
    s.pool.free + (allHolders.map s.pool.held).sum = 256
    ∧ s.pool.common = 256 - (allHolders.map fun g => (s.pool.holder g).reservation).sum
    ∧ (s.pool.borrow h : Int) = max 0 ((s.pool.held h : Int) - (s.pool.holder h).reservation)
    ∧ (s.pool.shortfall h : Int) = max 0 (((s.pool.holder h).reservation : Int) - s.pool.held h)
    ∧ (excess s h : Int) = max 0 ((s.pool.borrow h : Int) - ceiling s h) := by
  refine ⟨free_add_held _, rfl, ?_, ?_, ?_⟩
  · rw [Pool.borrow]
    omega
  · rw [Pool.shortfall]
    omega
  · rw [excess]
    omega

/-- R78: the ceilings may sum to more than the common part: those of part reset do. -/
theorem ceilings_reset : SettingsLaw State.reset
    ∧ State.reset.pool.common < (allHolders.map (ceiling State.reset)).sum := by
  decide

end

end Sys2Proof.Machine

open Sys2Proof Sys2Proof.Machine

/-- Settles O32: the identity sums the holders' counts; the table's values are the definitions'; part reset is the witness
of ceilings above the common part. -/
theorem freePagesCoverShortfalls : Obligations.FreePagesCoverShortfalls := by
  refine ⟨fun s hreserved => ⟨free_add_borrowed hreserved, fun hb _ => exists_free_of_shortfall hreserved hb⟩, ?_,
    State.reset, ceilings_reset⟩
  rintro h r s rfl
  obtain ⟨hfree, hcommon, hborrow, hshortfall, hexcess⟩ := derivedValues_eq h s
  have hheld := held_le s.pool h
  refine ⟨hfree, hcommon, hborrow, hshortfall, hexcess, ceiling_noFlood, fun n e hf => ?_, ?_, ?_, ?_, ?_,
    fun hs => derived_ranges hs h, fun hshare hf => ?_, fun hshare => ?_⟩
  · simp [ceiling, e, floodOf, hf]
  · omega
  · omega
  · omega
  · omega
  · rw [ceiling_noFlood hf, hshare, Nat.mul_div_cancel _ (by decide)]
  · have hzero := ceiling_noShare hshare
    exact ⟨hzero, borrow_allocate_le hzero⟩
end

section
/-!
The allocation, step by step (O33): a free page for a shortfall or a borrow, a page reclaimed from the cache holder with the
largest excess, a CLEAN page of the holder's own, or failure.
-/

namespace Sys2Proof.Machine

section
variable {s : State} {h g : Holder} {u : UnitId} {q : PageId} {why : Purpose}

/-! ## Which step is taken (R80 to R82, R85, R86) -/

/-- R82: a holder below its ceiling borrows the free page with the lowest number, while the common part is not lent out. -/
theorem allocate_belowCeiling (hheld : (s.pool.holder h).reservation ≤ s.pool.held h) (hlow : s.pool.borrow h < ceiling s h)
    (hcommon : s.pool.borrowed < s.pool.common) (hq : s.pool.lowestFree = some q) (why : Purpose) :
    allocate h why s = (some q, s.modPool (Pool.setOwner q (some h))) := by
  have hpage : s.pool.borrowed < s.pool.common ∧ s.pool.lowestFree.isSome := ⟨hcommon, by simp [hq]⟩
  rw [allocate, if_neg hheld.not_gt, if_pos hlow, if_pos hpage]
  simp only [grantFree, hq]

/-- R80: a holder at its ceiling has only its own pages. -/
theorem allocate_atCeiling (hheld : (s.pool.holder h).reservation ≤ s.pool.held h) (hhigh : ceiling s h ≤ s.pool.borrow h)
    (why : Purpose) : allocate h why s = allocateOwn h why s := by
  simp only [allocate, if_neg hheld.not_gt, if_neg hhigh.not_gt]

/-- R83: with the common part lent out, a holder below its ceiling has the pages of a source. -/
theorem allocate_reclaims (hheld : (s.pool.holder h).reservation ≤ s.pool.held h) (hlow : s.pool.borrow h < ceiling s h)
    (hlent : s.pool.common ≤ s.pool.borrowed) (hsource : reclaimSource s h = some (g, q)) (why : Purpose) :
    allocate h why s = (some q, reclaim h g q s) := by
  have hpage : ¬ (s.pool.borrowed < s.pool.common ∧ s.pool.lowestFree.isSome) := fun hp => hlent.not_gt hp.1
  simp only [allocate, if_neg hheld.not_gt, if_pos hlow, if_neg hpage, hsource]

theorem allocateOwn_recycles (hwhy : why ≠ .readAhead) (he : evictable s h = some q) :
    allocateOwn h why s = (some q, selfRecycle h q s) := by
  rcases allocateOwn_cases h why s with ⟨p, -, hp, e⟩ | ⟨hno, -⟩
  · cases hp.symm.trans he
    exact e
  · rcases hno with hread | hnone
    · exact absurd hread hwhy
    · cases hnone.symm.trans he

theorem allocateOwn_fails (hno : why = .readAhead ∨ evictable s h = none) :
    allocateOwn h why s = (none, allocationFails h s) := by
  rcases allocateOwn_cases h why s with ⟨p, hwhy, hp, -⟩ | ⟨-, e⟩
  · rcases hno with hread | hnone
    · exact absurd hread hwhy
    · cases hp.symm.trans hnone
  · exact e

/-! ## The page that leaves first (R84) -/

/-- R84: a CLEAN page leaves before another, or is it. -/
def LeavesBefore (a b : DirRecord) : Prop := b.age < a.age ∨ b.age = a.age ∧ a.page ≤ b.page

theorem leavesFirst_before (a b : DirRecord) : LeavesBefore (leavesFirst a b) a ∧ LeavesBefore (leavesFirst a b) b := by
  unfold leavesFirst LeavesBefore
  simp only [Fin.le_def]
  split_ifs <;> omega

theorem LeavesBefore.trans {a b c : DirRecord} (hab : LeavesBefore a b) (hbc : LeavesBefore b c) : LeavesBefore a c := by
  simp only [LeavesBefore, Fin.le_def] at *
  omega

theorem foldl_leavesFirst_before (l : List DirRecord) (a : DirRecord) :
    ∀ x ∈ a :: l, LeavesBefore (l.foldl leavesFirst a) x := by
  induction l generalizing a with
  | nil => exact fun x hx => .inr (by simp [List.mem_singleton.mp hx])
  | cons b l ih =>
    obtain ⟨ha, hb⟩ := leavesFirst_before a b
    have hfirst := ih (leavesFirst a b)
    have hbest := hfirst _ List.mem_cons_self
    intro x hx
    rcases List.mem_cons.mp hx with rfl | hx
    · exact hbest.trans ha
    · rcases List.mem_cons.mp hx with rfl | hx
      · exact hbest.trans hb
      · exact hfirst x (List.mem_cons_of_mem _ hx)

/-- R84: two pages that each leave before the other are one page. -/
theorem LeavesBefore.antisymm {a b : DirRecord} (hab : LeavesBefore a b) (hba : LeavesBefore b a) : a.page = b.page := by
  simp only [LeavesBefore, Fin.le_def] at *
  exact Fin.ext (by omega)

/-- R84: the evictable page of a cache holder is the CLEAN page of its that leaves before every other. -/
theorem evictable_oldest {r : DirRecord} (hr : r ∈ s.cache.directory) (hu : r.unit = u) (hclean : r.state = .clean)
    (hfirst : ∀ x ∈ s.cache.directory, x.unit = u → x.state = .clean → LeavesBefore r x) :
    evictable s (.mh u) = some r.page := by
  have hmem : ∀ x, x ∈ s.cache.directory.filter (fun x => x.unit == u && x.state == .clean)
      ↔ x ∈ s.cache.directory ∧ x.unit = u ∧ x.state = .clean := by simp
  simp only [evictable, evictableCachePage]
  split
  · rename_i hnil
    exact absurd ((hmem r).mpr ⟨hr, hu, hclean⟩) (by simp [hnil])
  · rename_i a l hcons
    rw [hcons] at hmem
    obtain ⟨hin, hunit, hstate⟩ := (hmem _).mp (foldl_leavesFirst_mem l a)
    have hbest := foldl_leavesFirst_before l a r ((hmem r).mpr ⟨hr, hu, hclean⟩)
    exact congrArg some (hbest.antisymm (hfirst _ hin hunit hstate))

/-- R84: a cache holder without a CLEAN page has none to evict. -/
theorem evictable_noneClean (h : ∀ r ∈ s.cache.directory, r.unit = u → r.state ≠ .clean) : evictable s (.mh u) = none := by
  cases he : evictable s (.mh u) with
  | none => rfl
  | some p =>
    obtain ⟨r, hr, -, hu, hclean⟩ := record_of_evictable he
    exact absurd hclean (h r hr hu)

/-! ## The source of a reclamation (R83) -/

/-- The holders before a cache holder in holder order: the consoles, and the cache holders of lower units. -/
theorem allHolders_split (u : UnitId) : ∃ pre post, allHolders = pre ++ .mh u :: post
    ∧ ∀ g ∈ pre, (∃ n, g = .ch n) ∨ ∃ v < u, g = .mh v := by
  refine ⟨allNodes.map .ch ++ (allNodes.filter (· < u)).map .mh, (allNodes.filter (u < ·)).map .mh, ?_, fun g hg => ?_⟩
  · fin_cases u <;> rfl
  · rcases List.mem_append.mp hg with hg | hg
    · obtain ⟨n, -, rfl⟩ := List.mem_map.mp hg
      exact .inl ⟨n, rfl⟩
    · obtain ⟨v, hv, rfl⟩ := List.mem_map.mp hg
      exact .inr ⟨v, by simpa using (List.mem_filter.mp hv).2, rfl⟩

/-- R83: a holder of a smaller excess is no better source than one that is to come. -/
theorem betterSource_lt {m : Nat} {best : Option (Holder × PageId)} (hbest : ∀ x p, best = some (x, p) → excess s x < m)
    (hg : g ≠ h → evictable s g ≠ none → excess s g < m) (x : Holder) (p : PageId)
    (e : betterSource s h best g = some (x, p)) : excess s x < m := by
  unfold betterSource at e
  split_ifs at e with hskip
  · exact hbest x p e
  · obtain ⟨hne, -⟩ := not_or.mp hskip
    split at e
    · exact hbest x p e
    · rename_i hp
      cases e
      exact hg hne (by simp [hp])
    · rename_i hp
      split_ifs at e
      · cases e
        exact hg hne (by simp [hp])
      · exact hbest x p e

theorem foldl_betterSource_lt {m : Nat} {l : List Holder} {best : Option (Holder × PageId)}
    (hl : ∀ g ∈ l, g ≠ h → evictable s g ≠ none → excess s g < m) (hbest : ∀ x p, best = some (x, p) → excess s x < m) :
    ∀ x p, l.foldl (betterSource s h) best = some (x, p) → excess s x < m := by
  induction l generalizing best with
  | nil => exact hbest
  | cons g l ih =>
    exact ih (fun x hx => hl x (List.mem_cons_of_mem g hx)) (betterSource_lt hbest (hl g List.mem_cons_self))

/-- R83: a holder with a larger excess than the best source so far takes its place. -/
theorem betterSource_replaces {best : Option (Holder × PageId)} (hne : g ≠ h) (hexcess : 0 < excess s g)
    (he : evictable s g = some q) (hbest : ∀ x p, best = some (x, p) → excess s x < excess s g) :
    betterSource s h best g = some (g, q) := by
  have hsource : ¬ (g = h ∨ excess s g = 0) := not_or.mpr ⟨hne, hexcess.ne'⟩
  rcases best with _ | ⟨x, p⟩
  · simp only [betterSource, if_neg hsource, he]
  · simp only [betterSource, if_neg hsource, he, if_pos (hbest x p rfl)]

/-- R83: the earlier of two equal sources stays. -/
theorem betterSource_stays {x : Holder} (hg : g ≠ h → evictable s g ≠ none → excess s g ≤ excess s x) :
    betterSource s h (some (x, q)) g = some (x, q) := by
  unfold betterSource
  split_ifs with hskip
  · rfl
  · obtain ⟨hne, -⟩ := not_or.mp hskip
    cases he : evictable s g with
    | none => rfl
    | some p => exact if_neg (hg hne (by simp [he])).not_gt

theorem foldl_betterSource_stays {l : List Holder} {x : Holder}
    (hl : ∀ g ∈ l, g ≠ h → evictable s g ≠ none → excess s g ≤ excess s x) :
    l.foldl (betterSource s h) (some (x, q)) = some (x, q) := by
  induction l with
  | nil => rfl
  | cons g l ih =>
    rw [List.foldl_cons, betterSource_stays (hl g List.mem_cons_self)]
    exact ih fun y hy => hl y (List.mem_cons_of_mem g hy)

/-- R83: the cache holder with the largest excess, the earliest among equals, is the source. -/
theorem reclaimSource_largest (hne : h ≠ .mh u) (hexcess : 0 < excess s (.mh u)) (he : evictable s (.mh u) = some q)
    (hmost : ∀ g, g ≠ h → evictable s g ≠ none → excess s g ≤ excess s (.mh u))
    (hconsole : ∀ n : Node, Holder.ch n ≠ h → evictable s (.ch n) ≠ none → excess s (.ch n) < excess s (.mh u))
    (hearlier : ∀ v : UnitId, v < u → Holder.mh v ≠ h → evictable s (.mh v) ≠ none → excess s (.mh v) < excess s (.mh u)) :
    reclaimSource s h = some (.mh u, q) := by
  obtain ⟨pre, post, hsplit, hpre⟩ := allHolders_split u
  have hbefore : ∀ g ∈ pre, g ≠ h → evictable s g ≠ none → excess s g < excess s (.mh u) := fun g hg => by
    rcases hpre g hg with ⟨n, rfl⟩ | ⟨v, hv, rfl⟩
    · exact hconsole n
    · exact hearlier v hv
  rw [reclaimSource_eq, hsplit, List.foldl_append, List.foldl_cons,
    betterSource_replaces hne.symm hexcess he (foldl_betterSource_lt hbefore (by simp))]
  exact foldl_betterSource_stays fun g _ => hmost g

end

end Sys2Proof.Machine

open Sys2Proof Sys2Proof.Machine

/-- Settles O33: the first step that succeeds, by the holder's count, its ceiling and what the common part has left. -/
theorem allocationTakesFirstStepThatSucceeds : Obligations.AllocationTakesFirstStepThatSucceeds := by
  refine ⟨⟨fun h why q s hq hlow hroom => ?_, fun u why s hheld hhigh => ⟨?_, fun hno => ?_⟩⟩, ?_⟩
  · have hfree := lowestFree_eq hq hlow
    by_cases hheld : s.pool.held h < (s.pool.holder h).reservation
    · exact allocate_belowReservation hheld hfree why
    · obtain ⟨hceiling, hcommon⟩ := hroom.resolve_left hheld
      exact allocate_belowCeiling (Nat.le_of_not_lt hheld) hceiling hcommon hfree why
  · intro r hr hwhy hu hclean _ hfirst
    rw [allocate_atCeiling (h := .mh u) hheld hhigh, allocateOwn_recycles hwhy (evictable_oldest hr hu hclean hfirst)]
    rfl
  · rw [allocate_atCeiling (h := .mh u) hheld hhigh, allocateOwn_fails (hno.imp_right evictable_noneClean)]
    rfl
  · intro h u why r s hheld hlow hlent hne _ hr hu hclean hfirst hexcess hmost hconsole hearlier
    exact allocate_reclaims hheld hlow hlent
      (reclaimSource_largest hne hexcess (evictable_oldest hr hu hclean hfirst) hmost hconsole hearlier) why
end

section
/-!
POOL CONFIG as it is answered in a ready state (O34): the shares of the masked holders, the two checks, and the values that
apply together.
-/

namespace Sys2Proof.Machine

section
variable {s : State} {p : Pool} {xs : List (Holder × Nat × Nat)} {mask tick : Byte} {rest : List Byte}

/-! ## The shares of a request (R77, R199) -/

theorem keys_maskedShares : ∀ {hs : List Holder} {bytes : List Byte} {xs : List (Holder × Nat × Nat)},
    maskedShares hs bytes = some xs → xs.map Prod.fst = hs
  | [], [], xs, h => by
    obtain rfl := Option.some.inj h
    rfl
  | [], _ :: _, xs, h => by simp [maskedShares] at h
  | _ :: _, [], xs, h => by simp [maskedShares] at h
  | _ :: _, [_], xs, h => by simp [maskedShares] at h
  | g :: hs, r :: y :: rest, xs, h => by
    obtain ⟨l, hl, rfl⟩ := Option.map_eq_some_iff.mp h
    exact congrArg (g :: ·) (keys_maskedShares hl)

/-- R199: a mask names each holder once. -/
theorem nodup_maskedHolders (mask : Byte) : (maskedHolders mask).Nodup := by
  have hall : allHolders.zipIdx.map Prod.fst = allHolders := rfl
  have hsub : (maskedHolders mask).Sublist allHolders := hall ▸ List.filter_sublist.map Prod.fst
  exact List.Nodup.sublist hsub (by decide)

theorem nodup_keys (hxs : maskedShares (maskedHolders mask) rest = some xs) : (xs.map Prod.fst).Nodup :=
  keys_maskedShares hxs ▸ nodup_maskedHolders mask

theorem lookup_notKey {h : Holder} (hkey : h ∉ xs.map Prod.fst) : xs.lookup h = none :=
  List.lookup_eq_none_iff.mpr fun x hx => by
    rw [bne_iff_ne]
    exact fun e => hkey (e ▸ List.mem_map_of_mem hx)

theorem lookup_key (hkeys : (xs.map Prod.fst).Nodup) {x : Holder × Nat × Nat} (hx : x ∈ xs) : xs.lookup x.1 = some x.2 := by
  induction xs with
  | nil => cases hx
  | cons y ys ih =>
    obtain ⟨hy, hys⟩ := List.nodup_cons.mp hkeys
    rcases List.mem_cons.mp hx with rfl | hx
    · rw [List.lookup_cons, beq_self_eq_true]
    · have hne : x.1 ≠ y.1 := fun e => hy (e ▸ List.mem_map_of_mem hx)
      rw [List.lookup_cons, beq_false_of_ne hne]
      exact ih hys hx

/-! ## The pool with the shares (R89) -/

/-- R89: the record of a holder, with the values that the request gives it, if it does. -/
def HolderRecord.given (o : Option (Nat × Nat)) (r : HolderRecord) : HolderRecord :=
  match o with
  | some (reservation, share) => { r with reservation := reservation, share := share }
  | none => r

/-- R89: each holder named once gets its own values, and the others stay. -/
theorem holder_applyShares (hkeys : (xs.map Prod.fst).Nodup) (p : Pool) (h : Holder) :
    (p.applyShares xs).holder h = HolderRecord.given (xs.lookup h) (p.holder h) := by
  induction xs generalizing p with
  | nil => rfl
  | cons x xs ih =>
    obtain ⟨hx, hxs⟩ := List.nodup_cons.mp hkeys
    refine (ih hxs (p.modHolder x.1 _)).trans ?_
    rw [holder_modHolder, List.lookup_cons]
    split_ifs with e
    · rw [e, lookup_notKey hx, beq_self_eq_true]
      rfl
    · rw [beq_false_of_ne e]

theorem pool_ext {q : Pool} (howners : p.owners = q.owners) (htick : p.agingTick = q.agingTick)
    (hholder : ∀ h, p.holder h = q.holder h) : p = q := by
  obtain ⟨owners, consoles, caches, agingTick⟩ := p
  obtain rfl : consoles = q.consoles := Per4.ext_get fun n => hholder (.ch n)
  obtain rfl : caches = q.caches := Per4.ext_get fun u => hholder (.mh u)
  obtain rfl : owners = q.owners := howners
  obtain rfl : agingTick = q.agingTick := htick
  rfl

/-- R88: a given reservation is another than the present one exactly where a holder's reservation changes. -/
theorem reservationChanges_iff (hkeys : (xs.map Prod.fst).Nodup) : reservationChanges p xs = true
    ↔ ∃ h, ((p.applyShares xs).holder h).reservation ≠ (p.holder h).reservation := by
  constructor
  · intro hc
    obtain ⟨x, hx, hne⟩ := List.any_eq_true.mp hc
    refine ⟨x.1, ?_⟩
    rw [holder_applyShares hkeys, lookup_key hkeys hx]
    exact bne_iff_ne.mp hne
  · rintro ⟨h, hne⟩
    by_contra hc
    exact hne (reservation_unchanged (eq_false_of_ne_true hc) h)

/-! ## The outcomes (R88, R89) -/

theorem servePoolConfig_overcommit (hxs : maskedShares (maskedHolders mask) rest = some xs) (tag : Tag)
    (hsum : reservationLimit < (s.pool.applyShares xs).reserved) : servePoolConfig tag (mask :: tick :: rest) s
      = s.reply tag 0x40#8 .poolOvercommit (be32 (s.pool.applyShares xs).reserved) := by
  simp only [servePoolConfig, hxs, if_pos hsum]

theorem servePoolConfig_inUse (hxs : maskedShares (maskedHolders mask) rest = some xs) (tag : Tag)
    (hsum : (s.pool.applyShares xs).reserved ≤ reservationLimit) (hchanges : reservationChanges s.pool xs)
    (hlent : (s.pool.applyShares xs).common < (s.pool.applyShares xs).borrowed) :
    servePoolConfig tag (mask :: tick :: rest) s = s.reply tag 0x40#8 .poolInUse
      (be32 (s.pool.applyShares xs).borrowed ++ be8 (s.pool.applyShares xs).common) := by
  simp only [servePoolConfig, hxs, if_neg hsum.not_gt, hchanges, hlent, and_self, if_true]

theorem servePoolConfig_applies (hxs : maskedShares (maskedHolders mask) rest = some xs) (tag : Tag)
    (hsum : (s.pool.applyShares xs).reserved ≤ reservationLimit)
    (hfits : ¬ (reservationChanges s.pool xs ∧ (s.pool.applyShares xs).common < (s.pool.applyShares xs).borrowed))
    {t : State} (ht : poolChanged (applyTick tick.toNat { s with pool := s.pool.applyShares xs }) = t) :
    servePoolConfig tag (mask :: tick :: rest) s = t.reply tag 0x40#8 .done (poolConfigDetails t) := by
  subst ht
  simp only [servePoolConfig, hxs, if_neg hsum.not_gt, if_neg hfits]

/-- R89, R151: a state with the values of an accepted request: a pool, the aging tick and the aging timer. -/
def withPoolValues (p : Pool) (k remaining : Nat) (s : State) : State :=
  { s with pool := { p with agingTick := k }, cache := { s.cache with agingRemaining := remaining } }

/-- R88, R151: the aging tick as a request gives it, and the aging timer. -/
theorem applyTick_eq {k remaining : Nat} (hk : k = if tick = 0#8 then s.pool.agingTick else min 60 tick.toNat)
    (hremaining : remaining = if tick = 0#8 then s.cache.agingRemaining else min 60 tick.toNat * 1000) :
    applyTick tick.toNat s = withPoolValues s.pool k remaining s := by
  by_cases htick : tick = 0#8
  · rw [if_pos htick] at hk hremaining
    subst htick hk hremaining
    rfl
  · have hzero : tick.toNat ≠ 0 := fun e => htick (BitVec.eq_of_toNat_eq e)
    have hclamp : clamp 1 60 tick.toNat = min 60 tick.toNat := by
      unfold clamp
      split_ifs <;> omega
    rw [if_neg htick] at hk hremaining
    subst hk hremaining
    rw [applyTick, if_neg hzero, hclamp]
    rfl

theorem exec_poolConfig (h : RequestReady s) (hrest : rest.length ≤ 16) (tag : Tag) (mask tick : Byte) :
    exec (.poolConfig tag (mask :: tick :: rest)) s
      = .next (servePoolConfig tag (mask :: tick :: rest) (hunt s)) :=
  requestFrame_ready h 0x40#8 tag (bodyFits_of_length (by simp only [List.length_cons]; omega))

end

end Sys2Proof.Machine

open Sys2Proof Sys2Proof.Machine

/-- Settles O34: the pool with the shares is the one the request names, and the checks decide between its three outcomes. -/
theorem poolConfigChecksThenApplies : Obligations.PoolConfigChecksThenApplies := by
  intro tag mask tick rest xs p s hs hrest hxs howners htick hholder
  have hkeys := nodup_keys hxs
  have hp : p = s.pool.applyShares xs :=
    pool_ext (howners.trans (owners_applyShares xs s.pool).symm) (htick.trans (agingTick_applyShares xs s.pool).symm)
      fun h => by
        rw [hholder, holder_applyShares hkeys]
        cases xs.lookup h <;> rfl
  clear hholder howners htick
  subst hp
  rw [exec_poolConfig hs hrest]
  refine ⟨fun hsum => ?_, fun hsum hchanges hlent => ?_, fun k remaining hsum hfits hheld hk hremaining => ?_⟩
  · rw [servePoolConfig_overcommit (s := hunt s) hxs tag hsum]
    exact congrArg _ (reply_hunt hs tag 0x40#8 .poolOvercommit _)
  · rw [servePoolConfig_inUse (s := hunt s) hxs tag hsum ((reservationChanges_iff hkeys).mpr hchanges) hlent]
    exact congrArg _ (reply_hunt hs tag 0x40#8 .poolInUse _)
  · have hcheck : ¬ (reservationChanges s.pool xs ∧ (s.pool.applyShares xs).common < (s.pool.applyShares xs).borrowed) := by
      rintro ⟨hchanges, hlent⟩
      obtain ⟨h, hne⟩ := (reservationChanges_iff hkeys).mp hchanges
      exact hfits.elim (fun hsame => hne (hsame h)) hlent.not_ge
    have htick : k = if tick = 0#8 then (s.pool.applyShares xs).agingTick else min 60 tick.toNat := by
      rwa [agingTick_applyShares]
    have hvalues : poolChanged (applyTick tick.toNat { hunt s with pool := s.pool.applyShares xs })
        = hunt (withPoolValues (s.pool.applyShares xs) k remaining s) := by
      rw [applyTick_eq (s := { hunt s with pool := s.pool.applyShares xs }) htick hremaining]
      exact poolChanged_nothingHeld hheld
    rw [servePoolConfig_applies (s := hunt s) hxs tag hsum hcheck hvalues]
    exact congrArg _ (reply_hunt (s := withPoolValues (s.pool.applyShares xs) k remaining s) hs tag 0x40#8 .done _)
end

section
/-!
The commands of a node media port up to their checks (O39, O41): the answer of a transaction, the checks of R113 in their
order, and the write lock (R97).
-/

namespace Sys2Proof.Machine

section
variable {s t : State} {n : Node} {u : UnitId} {txn : Byte} {r : Status}

/-! ## Ports whose idle timer has followed (R126) -/

/-- R126: the timer of a port that keeps the law stays as it is. -/
theorem settleTimer_of_fits {p : Port} (h : TimerFits p) : p.settleTimer = p := by
  obtain ⟨mode, timeout, active, slots, buffer, wait, attention, status, count, sequential, timer⟩ := p
  unfold TimerFits at h
  unfold Port.settleTimer
  split_ifs with hc
  · obtain ⟨k, hk⟩ := Option.isSome_iff_exists.mp (h.trans hc)
    simp only at hk
    simp only [hk, Option.getD_some]
  · have hnone := Option.not_isSome_iff_eq_none.mp fun hsome => hc (h.symm.trans hsome)
    simp only at hnone
    simp only [hnone]

/-- R126: a change of a port that keeps the law changes nothing else. -/
theorem modPort_of_fits {f : Port → Port} (h : TimerFits (f (port s n))) :
    s.modPort n f = { s with ports := s.ports.modify n f } := by
  have hport : (f (s.ports.get n)).settleTimer = f (s.ports.get n) := settleTimer_of_fits h
  simp only [State.modPort, Per4.modify, hport]

theorem TimerLaw.fits (h : TimerLaw s) (n : Node) : TimerFits (port s n) := h n

/-! ## Transactions (R110, R111) -/

/-- R110, R128: a port as a new transaction finds it. -/
def Port.begun (p : Port) : Port :=
  { p with taking := none, clocking := p.opening.getD p.spiMode, opening := none }

theorem beginTransaction_of_fits (h : TimerFits (port s n)) :
    beginTransaction n s = { s with ports := s.ports.modify n Port.begun } :=
  modPort_of_fits (f := Port.begun) h

theorem port_beginTransaction (h : TimerFits (port s n)) : port (beginTransaction n s) n = (port s n).begun := by
  rw [beginTransaction_of_fits h]
  exact Per4.get_modify_same _ _ _

theorem units_beginTransaction (n : Node) (s : State) : (beginTransaction n s).units = s.units := rfl

/-- R111: a command whose effects leave the state `t`, but for the transaction that has begun, is answered there. -/
theorem answerWith_eq {f : State → Status × State} (ht : TimerFits (port t n))
    (h : f (beginTransaction n s) = (r, beginTransaction n t)) : answerWith n txn f s = portAnswered n txn r [] t := by
  have hfits : TimerFits (port (beginTransaction n t) n) := by
    rw [port_beginTransaction ht]
    exact ht
  unfold answerWith
  rw [h]
  refine (modPort_of_fits (f := fun p => { p with response := fillerFor commandBytes ++ statusBlock p txn r ++ [] })
    hfits).trans ?_
  rw [beginTransaction_of_fits ht]
  simp only [Per4.modify_modify]
  rfl

theorem exec_read (hrun : s.phase = .running) {count : Byte} (hone : 1 ≤ count.toNat) (hmost : count.toNat ≤ 64)
    (n : Node) (lba : Word) (txn : Byte) :
    exec (.read n lba count txn) s = .next (answerWith n txn (takeRead n lba.toNat count.toNat) s) := by
  have hfits : countFits count = true := by simp [countFits, hone, hmost]
  show Host.Outcome.next _ = _
  simp only [whenRunning_running hrun, hfits, if_true]

theorem exec_write (hrun : s.phase = .running) {count : Byte} (hone : 1 ≤ count.toNat) (hmost : count.toNat ≤ 64)
    (n : Node) (lba : Word) (txn : Byte) (together : Bool) :
    exec (.write n lba count ⟨txn, together⟩) s
      = .next (answerWith n txn (takeWrite n lba.toNat count.toNat together) s) := by
  have hfits : countFits count = true := by simp [countFits, hone, hmost]
  show Host.Outcome.next _ = _
  simp only [whenRunning_running hrun, hfits, if_true]

theorem exec_flush (hrun : s.phase = .running) (n : Node) (txn : Byte) :
    exec (.flush n txn) s = .next (answerWith n txn (takeFlush n) s) :=
  congrArg Host.Outcome.next (whenRunning_running hrun _)

/-! ## The unit of a node (R96) -/

theorem unitOf_eq_none (h : ∀ u : UnitId, (s.units.get u).nodes.get n = false) : unitOf s n = none :=
  List.find?_eq_none.mpr fun u _ => by simp [h u]

/-- R96: at most one unit has a node in its node set. -/
theorem unitOf_eq_some (hunits : UnitLaw s) (h : (s.units.get u).nodes.get n = true) : unitOf s n = some u := by
  obtain ⟨hone, -⟩ := hunits
  cases hu : unitOf s n with
  | none => exact absurd h (List.find?_eq_none.mp hu u (mem_allNodes u))
  | some v => exact congrArg some (hone n v u (nodes_of_unitOf hu) h)

/-- R93: a unit that serves a node is in service. -/
theorem state_of_nodes (hunits : UnitLaw s) (h : (s.units.get u).nodes.get n = true) :
    (s.units.get u).state = .attached ∨ (s.units.get u).state = .storeFault := by
  have hidle := (hunits.fits u).idle
  cases hstate : (s.units.get u).state with
  | attached => exact .inl rfl
  | storeFault => exact .inr rfl
  | detached | draining =>
    rw [hidle (by simp [hstate]), Per4.get_all] at h
    cases h

/-! ## The answer to a WRITE or FLUSH by the unit's record (R96) -/

/-- R96: the answer to a WRITE of a node that a unit serves. -/
def MediaUnit.writeAnswer (x : MediaUnit) (n : Node) : Status :=
  if x.mode = .readOnly ∨ (x.mode = .firstWriter ∧ ∃ w : Node, w ≠ n ∧ x.writer = some w) then .writeProtected
  else if x.state = .storeFault then .writeFault
  else .good

theorem writePermission_eq (hunits : UnitLaw s) (h : (s.units.get u).nodes.get n = true) :
    writePermission s n = (s.units.get u).writeAnswer n := by
  unfold writePermission MediaUnit.writeAnswer
  rw [unitOf_eq_some hunits h]
  dsimp only
  rcases state_of_nodes hunits h with hstate | hstate <;> rw [hstate] <;>
    cases (s.units.get u).mode <;> cases hw : (s.units.get u).writer <;> simp

theorem writePermission_noUnit (h : ∀ u : UnitId, (s.units.get u).nodes.get n = false) :
    writePermission s n = .notPresent := by
  rw [writePermission, unitOf_eq_none h]

theorem flushPermission_noUnit (h : ∀ u : UnitId, (s.units.get u).nodes.get n = false) :
    flushPermission s n = .notPresent := by
  rw [flushPermission, unitOf_eq_none h]

theorem flushPermission_eq (hunits : UnitLaw s) (h : (s.units.get u).nodes.get n = true) :
    flushPermission s n = if (s.units.get u).state = .storeFault then .writeFault else .good := by
  unfold flushPermission
  rw [unitOf_eq_some hunits h]
  dsimp only
  rcases state_of_nodes hunits h with hstate | hstate <;> rw [hstate] <;> rfl

/-- R97: another node of the unit holds its write lock. -/
theorem writerElsewhere_eq_false
    (h : ∀ (u : UnitId) (w : Node), (s.units.get u).nodes.get n = true → (s.units.get u).writer = some w → w = n) :
    writerElsewhere s n = false := by
  unfold writerElsewhere
  cases hu : unitOf s n with
  | none => rfl
  | some u =>
    cases hw : (s.units.get u).writer with
    | none => simp [hw]
    | some w => simp [hw, h u w (nodes_of_unitOf hu) hw]

theorem writerElsewhere_eq_true {w : Node} (hunits : UnitLaw s) (h : (s.units.get u).nodes.get n = true)
    (hwriter : (s.units.get u).writer = some w) (hw : w ≠ n) : writerElsewhere s n = true := by
  unfold writerElsewhere
  rw [unitOf_eq_some hunits h]
  simp [hwriter, hw]

/-! ## The checks of R113 -/

section
variable {lba count : Nat} {together : Bool} {a : ActiveCommand}

theorem takeRead_busy (h : (port s n).active = some a) : takeRead n lba count s = (.busy, s) := by
  simp [takeRead, h]

theorem takeWrite_busy (h : (port s n).active = some a) : takeWrite n lba count together s = (.busy, s) := by
  simp [takeWrite, h]

theorem takeFlush_busy (h : (port s n).active = some a) : takeFlush n s = (.busy, s) := by
  simp [takeFlush, h]

theorem takeRead_attention (hidle : (port s n).active = none) (h : (port s n).attention = true) :
    takeRead n lba count s = (.unitAttention, s) := by
  simp [takeRead, hidle, h]

theorem takeWrite_attention (hidle : (port s n).active = none) (h : attentionRefuses n together s = true) :
    takeWrite n lba count together s = (.unitAttention, s) := by
  simp [takeWrite, hidle, h]

theorem takeRead_noUnit (hidle : (port s n).active = none) (h : (port s n).attention = false)
    (hnone : unitOf s n = none) : takeRead n lba count s = (.notPresent, s) := by
  simp [takeRead, hidle, h, hnone]

/-- R96, R113: a WRITE without permission is answered by what the permission says. -/
theorem takeWrite_refused (hidle : (port s n).active = none) (h : attentionRefuses n together s = false)
    (hr : writePermission s n = r) (hgood : r ≠ .good) : takeWrite n lba count together s = (r, s) := by
  unfold takeWrite
  rw [hidle, h]
  simp only [Option.isSome_none, Bool.false_eq_true, if_false]
  split
  · rename_i hp _
    exact absurd (hr.symm.trans hp) hgood
  · rw [hr]

theorem takeWrite_permitted (hidle : (port s n).active = none) (h : attentionRefuses n together s = false)
    (hgood : writePermission s n = .good) (hu : unitOf s n = some u) :
    takeWrite n lba count together s = openWrite n u lba count s := by
  simp [takeWrite, hidle, h, hgood, hu]

theorem takeFlush_refused (hidle : (port s n).active = none) (hr : flushPermission s n = r) (hgood : r ≠ .good) :
    takeFlush n s = (r, s) := by
  unfold takeFlush
  rw [hidle]
  simp only [Option.isSome_none, Bool.false_eq_true, if_false]
  split
  · rename_i hp _
    exact absurd (hr.symm.trans hp) hgood
  · rw [hr]

theorem attentionRefuses_eq_false (h : (port s n).attention = false) : attentionRefuses n together s = false := by
  simp [attentionRefuses, h]

/-- R97: without a writer elsewhere attention refuses every WRITE; one that is presented alone it always refuses. -/
theorem attentionRefuses_eq_true (h : (port s n).attention = true)
    (hwriter : together = false ∨ writerElsewhere s n = false) : attentionRefuses n together s = true := by
  rcases hwriter with hw | hw <;> simp [attentionRefuses, h, hw]

end

end

end Sys2Proof.Machine

open Sys2Proof Sys2Proof.Machine

/-- Settles O39: each check reads the port and the unit table alone, which the beginning of the transaction leaves, so the
first check that applies decides there as it does before. -/
theorem portCommandChecksInOrder : Obligations.PortCommandChecksInOrder := by
  intro n lba count txn together s hrun htimer hone hmost
  have hfits := htimer.fits n
  have hactive : (port (beginTransaction n s) n).active = (port s n).active := by rw [port_beginTransaction hfits]; rfl
  have hattention : (port (beginTransaction n s) n).attention = (port s n).attention := by
    rw [port_beginTransaction hfits]
    rfl
  simp only [exec_read hrun hone hmost, exec_write hrun hone hmost, exec_flush hrun]
  rw [← hactive, ← hattention]
  refine ⟨fun a ha => ⟨?_, ?_, ?_⟩, fun ha hatt => ⟨?_, ?_, fun hwriter => ?_⟩,
    fun u w ha hunits hnode hwriter hw => ?_, fun ha hnone => ⟨fun hatt => ⟨?_, ?_⟩, ?_⟩,
    fun u ha hunits hnode => ⟨fun hatt hmode => ?_, fun hatt hstate hmode hwriter => ?_, fun hstate => ?_⟩⟩ <;>
    refine congrArg _ (answerWith_eq hfits ?_)
  · exact takeRead_busy ha
  · exact takeWrite_busy ha
  · exact takeFlush_busy ha
  · exact takeRead_attention ha hatt
  · exact takeWrite_attention ha (attentionRefuses_eq_true hatt (.inl rfl))
  · exact takeWrite_attention ha (attentionRefuses_eq_true hatt (.inr (writerElsewhere_eq_false hwriter)))
  · have helse : writerElsewhere (beginTransaction n s) n = true := writerElsewhere_eq_true hunits hnode hwriter hw
    refine takeWrite_refused ha (by simp [attentionRefuses, helse]) ((writePermission_eq hunits hnode).trans ?_) (by decide)
    exact if_pos (.inr ⟨((hunits.fits u).writer w hwriter).1, w, hw, hwriter⟩)
  · exact takeRead_noUnit ha hatt (unitOf_eq_none hnone)
  · exact takeWrite_refused ha (attentionRefuses_eq_false hatt) (writePermission_noUnit hnone) (by decide)
  · exact takeFlush_refused ha (flushPermission_noUnit hnone) (by decide)
  · exact takeWrite_refused ha (attentionRefuses_eq_false hatt)
      ((writePermission_eq hunits hnode).trans (if_pos hmode)) (by decide)
  · refine takeWrite_refused ha (attentionRefuses_eq_false hatt)
      ((writePermission_eq hunits hnode).trans ((if_neg ?_).trans (if_pos hstate))) (by decide)
    rintro (hreadOnly | ⟨-, w, hw, hother⟩)
    · exact hmode hreadOnly
    · exact hw (hwriter w hother)
  · exact takeFlush_refused ha ((flushPermission_eq hunits hnode).trans (if_pos hstate)) (by decide)
end

section
/-!
The write lock of a WRITE and its opening (O41), and UNIT ATTACH as it is answered in a ready state (O36).
-/

namespace Sys2Proof.Machine

section
variable {s : State} {n : Node} {u : UnitId}

/-! ## Attention on the ports of several nodes (R124) -/

/-- R124: a port whose attention is set. -/
def Port.attended (p : Port) : Port := { p with attention := true, sequential := none }

/-- R124: attention is set on the ports of a list of nodes, and nothing else changes. -/
theorem foldl_setAttention (htimer : TimerLaw s) {l : List Node} {chosen : Node → Prop} [DecidablePred chosen]
    (hl : ∀ m, m ∈ l ↔ chosen m) : l.foldl (fun t m => setAttention m t) s
      = { s with ports := Per4.build fun m => if chosen m then (s.ports.get m).attended else s.ports.get m } := by
  induction l generalizing s chosen with
  | nil =>
    have hsame : (Per4.build fun m => if chosen m then (s.ports.get m).attended else s.ports.get m) = s.ports :=
      Per4.ext_get fun m => by rw [Per4.get_build, if_neg fun h => List.not_mem_nil ((hl m).mpr h)]
    rw [hsame]
    rfl
  | cons k l ih =>
    have hstep : setAttention k s = { s with ports := s.ports.modify k Port.attended } :=
      modPort_of_fits (f := Port.attended) (htimer k)
    have hlaw : TimerLaw { s with ports := s.ports.modify k Port.attended } := fun m => by
      rw [Per4.get_modify]
      split_ifs
      · exact htimer k
      · exact htimer m
    rw [List.foldl_cons, hstep, ih hlaw (chosen := (· ∈ l)) fun _ => Iff.rfl]
    refine congrArg (fun ports => { s with ports := ports }) (Per4.ext_get fun m => ?_)
    have hm : chosen m ↔ m = k ∨ m ∈ l := (hl m).symm.trans List.mem_cons
    simp only [Per4.get_build, Per4.get_modify, hm]
    by_cases hk : m = k
    · subst hk
      by_cases hin : m ∈ l <;> simp [hin, Port.attended]
    · simp [hk]

theorem mem_nodesOf {m : Node} : m ∈ nodesOf s u ↔ (s.units.get u).nodes.get m = true := by
  simp [nodesOf, mem_allNodes]

/-! ## The write lock (R97) -/

/-- R97: the state in which a node has taken the free write lock of a FIRST_WRITER unit. -/
def locked (n : Node) (u : UnitId) (s : State) : State :=
  if (s.units.get u).mode = .firstWriter ∧ (s.units.get u).writer = none then
    { s with
      units := s.units.modify u fun x => { x with writer := some n }
      ports := Per4.build fun m => if m ≠ n ∧ (s.units.get u).nodes.get m = true then (s.ports.get m).attended
        else s.ports.get m }
  else s

theorem takeWriteLock_eq (htimer : TimerLaw s) : takeWriteLock n u s = locked n u s := by
  unfold takeWriteLock locked
  dsimp only
  split_ifs with hfree
  · exact foldl_setAttention (s := s.modUnit u fun x => { x with writer := some n }) htimer fun m => by
      rw [List.mem_filter, mem_nodesOf, bne_iff_ne, and_comm]
  · rfl

/-- R97: the node that takes the lock keeps its port as it is. -/
theorem port_locked_self : port (locked n u s) n = port s n := by
  unfold locked port
  split_ifs
  · rw [Per4.get_build, if_neg fun h => h.1 rfl]
  · rfl

/-- R97, R110: the beginning of the transaction and the lock touch different ports. -/
theorem locked_beginTransaction (htimer : TimerLaw s) :
    locked n u (beginTransaction n s) = beginTransaction n (locked n u s) := by
  have hfits : TimerFits (port (locked n u s) n) := by
    rw [port_locked_self]
    exact htimer n
  rw [beginTransaction_of_fits hfits, beginTransaction_of_fits (htimer.fits n)]
  unfold locked
  dsimp only
  split_ifs
  · refine congrArg (fun ports => { s with
      units := s.units.modify u fun x => { x with writer := some n }, ports := ports }) (Per4.ext_get fun m => ?_)
    simp only [Per4.get_build, Per4.get_modify]
    by_cases hm : m = n <;> simp [hm]
  · rfl

/-! ## A WRITE opens, or ends at once (R118) -/

/-- R114, R118: the state in which a WRITE has opened. -/
def writeOpened (n : Node) (a : ActiveCommand) (s : State) : State :=
  { s with
    ports := s.ports.modify n fun p =>
      { p with active := some a, slots := [], wait := .none, idleTimer := some p.idleTimeout } }

theorem openCommand_write {a : ActiveCommand} (ha : a.kind = .write) : openCommand n a s = writeOpened n a s := by
  have hport : ∀ p : Port, ({ p with active := some a, slots := [], wait := .none, idleTimer := none } : Port).settleTimer
      = { p with active := some a, slots := [], wait := .none, idleTimer := some p.idleTimeout } := fun p => by
    simp [Port.settleTimer, Port.counting, Port.state, ha]
  simp only [openCommand, State.modPort, hport]
  rfl

theorem timerFits_writeOpened {a : ActiveCommand} (ha : a.kind = .write) : TimerFits (port (writeOpened n a s) n) := by
  rw [← openCommand_write ha, port, openCommand, State.modPort_ports, Per4.get_modify_same]
  exact timerFits_settleTimer _

theorem writeOpened_beginTransaction {a : ActiveCommand} (ha : a.kind = .write) (hfits : TimerFits (port s n)) :
    writeOpened n a (beginTransaction n s) = beginTransaction n (writeOpened n a s) := by
  rw [beginTransaction_of_fits hfits, beginTransaction_of_fits (timerFits_writeOpened ha)]
  simp only [writeOpened, Per4.modify_modify]
  rfl

/-- R114, R118: a command that ends as it starts leaves its end alone. -/
theorem openAndEnd_eq {a : ActiveCommand} {st : Status} : openAndEnd n a st s = (st, commandEnded n a st s) := by
  unfold openAndEnd
  have hactive : (port (openCommand n a s) n).active = some a := by
    rw [port, openCommand, State.modPort_ports, Per4.get_modify_same]
    rfl
  rw [endCommand_eq, hactive]
  simp only [commandEnded, openCommand, State.modPort, Per4.modify_modify]
  rfl

theorem timerFits_commandEnded {a : ActiveCommand} {st : Status} : TimerFits (port (commandEnded n a st s) n) := by
  rw [port, commandEnded, Per4.get_modify_same]
  rfl

theorem commandEnded_beginTransaction {a : ActiveCommand} {st : Status} (hfits : TimerFits (port s n)) :
    commandEnded n a st (beginTransaction n s) = beginTransaction n (commandEnded n a st s) := by
  rw [beginTransaction_of_fits hfits, beginTransaction_of_fits timerFits_commandEnded]
  simp only [commandEnded, Per4.modify_modify]
  rfl

/-! ## UNIT ATTACH (R94, R95) -/

section
variable {m : Per4 Bool} {k : Mode} {mask : Byte}

theorem mem_maskNodes : n ∈ maskNodes m ↔ m.get n = true := by
  simp [maskNodes, mem_allNodes]

theorem maskNodes_nodup (m : Per4 Bool) : (maskNodes m).Nodup := List.Nodup.filter _ (by decide)

theorem maskNodes_isEmpty : (maskNodes m).isEmpty = true ↔ m = Per4.all false := by
  rw [List.isEmpty_iff, List.eq_nil_iff_forall_not_mem]
  simp only [mem_maskNodes]
  refine ⟨fun h => Per4.ext_get fun n => ?_, fun h n => by simp [h]⟩
  rw [Per4.get_all]
  exact eq_false_of_ne_true (h n)

/-- R94, check 1. -/
theorem badMask_iff : badMask k m = true
    ↔ m = Per4.all false ∨ (k = .exclusive ∧ ∃ n n' : Node, n ≠ n' ∧ m.get n = true ∧ m.get n' = true) := by
  have hseveral : 1 < (maskNodes m).length ↔ ∃ n n' : Node, n ≠ n' ∧ m.get n = true ∧ m.get n' = true := by
    rw [← List.toFinset_card_of_nodup (maskNodes_nodup m), Finset.one_lt_card]
    simp only [List.mem_toFinset, mem_maskNodes]
    constructor
    · rintro ⟨n, hn, n', hn', hne⟩
      exact ⟨n, n', hne, hn, hn'⟩
    · rintro ⟨n, n', hne, hn, hn'⟩
      exact ⟨n, hn, n', hn', hne⟩
  rw [badMask, Bool.or_eq_true, maskNodes_isEmpty, Bool.and_eq_true, beq_iff_eq, decide_eq_true_eq, hseveral]

/-- R94, check 3: the first node of the mask that another unit serves. -/
theorem nodeConflict_eq_some {v : UnitId} (hunits : UnitLaw s) (hn : m.get n = true) (hv : v ≠ u)
    (hserved : (s.units.get v).nodes.get n = true)
    (hfirst : ∀ n' v' : Fin 4, n' < n → m.get n' = true → v' ≠ u → (s.units.get v').nodes.get n' = false) :
    nodeConflict s u m = some (n, v) := by
  obtain ⟨hone, -⟩ := hunits
  cases hc : nodeConflict s u m with
  | none => exact absurd hserved (nodeConflict_none hc hv hn)
  | some c =>
    obtain ⟨n', v'⟩ := c
    obtain ⟨pre, k, post, hsplit, hk, hpre⟩ := List.findSome?_eq_some_iff.mp hc
    obtain ⟨w, hw, hpair⟩ := Option.map_eq_some_iff.mp hk
    obtain ⟨rfl, rfl⟩ := Prod.mk.inj hpair
    have hserves : w ≠ u ∧ (s.units.get w).nodes.get k = true := by simpa using List.find?_some hw
    have hmask : m.get k = true := mem_maskNodes.mp (hsplit ▸ List.mem_append_right _ List.mem_cons_self)
    have hle : n ≤ k := by
      by_contra hlt
      rw [hfirst k w (not_le.mp hlt) hmask hserves.1] at hserves
      exact Bool.false_ne_true hserves.2
    have hsorted : (maskNodes m).Pairwise (· < ·) := List.Pairwise.filter _ (by decide)
    have hnotBefore : n ∉ pre := fun hin => by
      have hfind := hpre n hin
      rw [Option.map_eq_none_iff] at hfind
      exact List.find?_eq_none.mp hfind v (mem_allNodes v) (by simp [hv, hserved])
    have hin : n ∈ pre ++ k :: post := hsplit ▸ mem_maskNodes.mpr hn
    have hnk : n = k := by
      rw [hsplit] at hsorted
      rcases List.mem_append.mp hin with hin | hin
      · exact absurd hin hnotBefore
      · rcases List.mem_cons.mp hin with rfl | hin
        · rfl
        · exact absurd ((List.pairwise_cons.mp (List.pairwise_append.mp hsorted).2.1).1 n hin) (not_lt.mpr hle)
    subst hnk
    rw [hone n v w hserved hserves.2]

theorem nodeConflict_eq_none (h : ∀ n v : Fin 4, m.get n = true → v ≠ u → (s.units.get v).nodes.get n = false) :
    nodeConflict s u m = none :=
  List.findSome?_eq_none_iff.mpr fun n hn => Option.map_eq_none_iff.mpr <| List.find?_eq_none.mpr fun v _ => by
    by_cases hv : v = u
    · simp [hv]
    · simp [h n v (mem_maskNodes.mp hn) hv]

theorem mode?_modeCode {b : Byte} (h : b.toNat = modeCode k) : mode? b = some k := by
  unfold mode?
  rw [h]
  cases k <;> rfl

theorem nodeMask?_of_bits (hlt : mask.toNat < 16) (hm : ∀ n : Node, m.get n = mask.getLsbD n.val) :
    nodeMask? mask = some m := by
  unfold nodeMask?
  rw [if_pos hlt]
  exact congrArg some (Per4.ext_get fun n => by rw [Per4.get_build, hm])

/-- R199: the byte of a mask is the byte it came from. -/
theorem nodeMaskByte_of_bits (hlt : mask.toNat < 16) (hm : ∀ n : Node, m.get n = mask.getLsbD n.val) :
    nodeMaskByte m = mask := by
  have hall : ∀ b : Fin 16, nodeMaskByte (Per4.build fun n => (BitVec.ofNat 8 b.val).getLsbD n.val)
      = BitVec.ofNat 8 b.val := by decide
  have hbyte : BitVec.ofNat 8 mask.toNat = mask := by simp
  have hbuild : m = Per4.build fun n => mask.getLsbD n.val := Per4.ext_get fun n => by rw [Per4.get_build, hm]
  simpa [hbuild] using hall ⟨mask.toNat, hlt⟩

/-- R94: the values of an accepted UNIT ATTACH, clamped. -/
theorem attachedUnit_clamped (k : Mode) (m : Per4 Bool) (capacity timeout : Nat) (w d : Byte) :
    attachedUnit k m capacity timeout w.toNat d.toNat
      = { state := .attached, capacity := max 1 capacity, mode := k, nodes := m, writer := none,
          timeout := if timeout = 0 then 50 else min 600 timeout,
          window := if w = 0#8 then 0 else max 8 (min 64 w.toNat),
          dirtyLimit := if d = 0#8 then 16 else min 64 d.toNat,
          consecutive := 0, storeFailures := 0, fetchFailures := 0, fetchTimeouts := 0, detachTag := none, stored := 0 } := by
  have htimeout : unitTimeout timeout = if timeout = 0 then 50 else min 600 timeout := by
    unfold unitTimeout clamp
    split_ifs <;> omega
  have hwindow : unitWindow w.toNat = if w = 0#8 then 0 else max 8 (min 64 w.toNat) := by
    unfold unitWindow
    rw [clamp_eq (by decide)]
    simp only [← BitVec.toNat_inj, BitVec.toNat_ofNat, Nat.zero_mod]
  have hlimit : unitDirtyLimit d.toNat = if d = 0#8 then 16 else min 64 d.toNat := by
    unfold unitDirtyLimit clamp
    simp only [← BitVec.toNat_inj, BitVec.toNat_ofNat, Nat.zero_mod]
    split_ifs <;> omega
  rw [attachedUnit, htimeout, hwindow, hlimit, unitCapacity]

/-! ## The outcomes (R94, R95) -/

section
variable {b kb c0 c1 c2 c3 t0 t1 w d : Byte}

theorem exec_unitAttach (hs : RequestReady s) (tag : Tag) (b kb mask c0 c1 c2 c3 t0 t1 w d : Byte) :
    exec (.unitAttach tag [b, kb, mask, c0, c1, c2, c3, t0, t1, w, d]) s
      = .next (serveUnitAttach tag [b, kb, mask, c0, c1, c2, c3, t0, t1, w, d] (hunt s)) :=
  requestFrame_ready hs 0x50#8 tag (body := [b, kb, mask, c0, c1, c2, c3, t0, t1, w, d]) (bodyFits_of_length (by simp))

/-- R94: a unit, a mode and a mask that the bytes of UNIT ATTACH name. -/
structure AttachNames (u : UnitId) (k : Mode) (m : Per4 Bool) (b kb mask : Byte) : Prop where
  unit : b.toNat = u.val
  mode : kb.toNat = modeCode k
  small : mask.toNat < 16
  bits : ∀ n : Node, m.get n = mask.getLsbD n.val

theorem serveUnitAttach_badMask (h : AttachNames u k m b kb mask) (hbad : badMask k m = true) (tag : Tag) :
    serveUnitAttach tag [b, kb, mask, c0, c1, c2, c3, t0, t1, w, d] s = s.reply tag 0x50#8 .badRequest [] := by
  simp only [serveUnitAttach, node?_of_toNat h.unit, mode?_modeCode h.mode, nodeMask?_of_bits h.small h.bits, hbad,
    if_true]
  rfl

theorem serveUnitAttach_busy (h : AttachNames u k m b kb mask) (hmask : badMask k m = false)
    (hbusy : (s.units.get u).state ≠ .detached) (tag : Tag) :
    serveUnitAttach tag [b, kb, mask, c0, c1, c2, c3, t0, t1, w, d] s = s.reply tag 0x50#8 .unitBusy [] := by
  simp only [serveUnitAttach, node?_of_toNat h.unit, mode?_modeCode h.mode, nodeMask?_of_bits h.small h.bits, hmask,
    Bool.false_eq_true, if_false, if_pos hbusy]

theorem serveUnitAttach_conflict (h : AttachNames u k m b kb mask) (hmask : badMask k m = false)
    (hfree : (s.units.get u).state = .detached) {v : UnitId} (hc : nodeConflict s u m = some (n, v)) (tag : Tag) :
    serveUnitAttach tag [b, kb, mask, c0, c1, c2, c3, t0, t1, w, d] s
      = s.reply tag 0x50#8 .nodeHasUnit (be8 n.val ++ be8 v.val) := by
  simp only [serveUnitAttach, node?_of_toNat h.unit, mode?_modeCode h.mode, nodeMask?_of_bits h.small h.bits, hmask,
    Bool.false_eq_true, if_false, hfree, ne_eq, not_true_eq_false, hc]

theorem serveUnitAttach_accepted (h : AttachNames u k m b kb mask) (hmask : badMask k m = false)
    (hfree : (s.units.get u).state = .detached) (hc : nodeConflict s u m = none) {x : MediaUnit}
    (hx : attachedUnit k m (u32 c0 c1 c2 c3) (u16 t0 t1) w.toNat d.toNat = x) (tag : Tag) :
    serveUnitAttach tag [b, kb, mask, c0, c1, c2, c3, t0, t1, w, d] s
      = (attachUnit u x s).reply tag 0x50#8 .done (unitAttachDetails u x) := by
  simp only [serveUnitAttach, node?_of_toNat h.unit, mode?_modeCode h.mode, nodeMask?_of_bits h.small h.bits, hmask,
    Bool.false_eq_true, if_false, hfree, ne_eq, not_true_eq_false, hc, hx]

theorem attachUnit_eq (htimer : TimerLaw s) (x : MediaUnit) : attachUnit u x s
    = { s with
        units := s.units.set u x
        ports := Per4.build fun n => if x.nodes.get n then (s.ports.get n).attended else s.ports.get n } :=
  foldl_setAttention (s := s.modUnit u fun _ => x) htimer fun _ => mem_maskNodes

end

end

end

end Sys2Proof.Machine

open Sys2Proof Sys2Proof.Machine

/-- Settles O41: the lock and the command's opening leave the transaction's beginning alone, so its answer is that of the
state they lead to. -/
theorem writeTakesLockThenOpens : Obligations.WriteTakesLockThenOpens := by
  intro n u lba count txn together a t s hrun htimer hunits hone hmost hidle hattention hnode hstate hmode ha ht
  have hlocked : t = locked n u s := ht
  have hfits := htimer.fits n
  have hbegun := port_beginTransaction hfits
  have hlockedFits : TimerFits (port (locked n u s) n) := by
    rw [port_locked_self]
    exact hfits
  have hgood : writePermission (beginTransaction n s) n = .good := by
    refine (writePermission_eq (s := beginTransaction n s) hunits hnode).trans ((if_neg ?_).trans (if_neg ?_))
    · rintro (h | ⟨h, w, hw, hother⟩)
      · rcases hmode with e | ⟨e, -⟩ <;> cases h.symm.trans e
      · rcases hmode with e | ⟨-, hfree⟩
        · cases h.symm.trans e
        · exact hw (hfree w hother)
    · intro h
      cases hstate.symm.trans h
  have htimerBegun : TimerLaw (beginTransaction n s) := fun m =>
    (keeps_beginTransaction n s).timer m (htimer m)
  have htake : takeWrite n lba.toNat count.toNat together (beginTransaction n s)
      = openWrite n u lba.toNat count.toNat (beginTransaction n s) := by
    refine takeWrite_permitted ?_ (attentionRefuses_eq_false ?_) hgood (unitOf_eq_some (s := beginTransaction n s) hunits hnode)
    · rw [hbegun]
      exact hidle
    · rw [hbegun]
      exact hattention
  have hcommand : rangeCommand .write lba.toNat count.toNat (s.units.get u).capacity = a := ha.symm
  have hkind : a.kind = .write := by rw [ha]
  rw [exec_write hrun hone hmost, hlocked]
  refine ⟨fun hbeyond => congrArg _ (answerWith_eq timerFits_commandEnded ?_),
    fun hwithin => congrArg _ (answerWith_eq (t := writeOpened n a (locked n u s)) (timerFits_writeOpened hkind) ?_)⟩ <;>
    rw [htake, openWrite, takeWriteLock_eq htimerBegun, locked_beginTransaction htimer, units_beginTransaction, hcommand]
  · rw [if_pos hbeyond, openAndEnd_eq, commandEnded_beginTransaction hlockedFits]
  · rw [if_neg hwithin.not_ge, openCommand_write hkind, writeOpened_beginTransaction hkind hlockedFits]

/-- Settles O36: the three checks in their order, and the record with the ports of its nodes. -/
theorem unitAttachChecksThenFills : Obligations.UnitAttachChecksThenFills := by
  intro u k m tag b kb mask c0 c1 c2 c3 t0 t1 w d x s hs hb hk hlt hm hx
  have hnames : AttachNames u k m b kb mask := ⟨hb, hk, hlt, hm⟩
  have hrecord := (attachedUnit_clamped k m (u32 c0 c1 c2 c3) (u16 t0 t1) w d).trans hx.symm
  rw [exec_unitAttach hs]
  refine ⟨fun hbad => ?_, fun hsome hexclusive => ?_⟩
  · rw [serveUnitAttach_badMask hnames (badMask_iff.mpr hbad)]
    exact congrArg _ (reply_hunt hs tag 0x50#8 .badRequest [])
  · have hmask : badMask k m = false := eq_false_of_ne_true fun h => by
      rcases badMask_iff.mp h with h | ⟨hk, n, n', hne, hn, hn'⟩
      · exact hsome h
      · exact hne (hexclusive hk n n' hn hn')
    refine ⟨fun hbusy => ?_, fun n v hfree hn hv hserved hunits hfirst => ?_, fun hfree hnone htimer => ?_⟩
    · rw [serveUnitAttach_busy (s := hunt s) hnames hmask hbusy]
      exact congrArg _ (reply_hunt hs tag 0x50#8 .unitBusy [])
    · rw [serveUnitAttach_conflict (s := hunt s) hnames hmask hfree
        (nodeConflict_eq_some (s := hunt s) hunits hn hv hserved hfirst)]
      exact congrArg _ (reply_hunt hs tag 0x50#8 .nodeHasUnit _)
    · have hnodes : x.nodes = m := by rw [hx]
      have hdetails : unitAttachDetails u x = be8 u.val ++ be8 1 ++ be8 (modeCode k) ++ [mask] ++ be32 x.capacity
          ++ be16 x.timeout ++ be8 x.window ++ be8 x.dirtyLimit := by
        rw [unitAttachDetails, hnodes, nodeMaskByte_of_bits hlt hm, hx]
        rfl
      rw [serveUnitAttach_accepted (s := hunt s) hnames hmask hfree (nodeConflict_eq_none (s := hunt s) hnone) hrecord,
        attachUnit_eq (s := hunt s) htimer, hdetails, hnodes]
      exact congrArg _ (reply_hunt (s := { s with
        units := s.units.set u x
        ports := Per4.build fun n => if m.get n then (s.ports.get n).attended else s.ports.get n }) hs tag 0x50#8 .done _)
end

section
/-!
What a unit's leaving service does (R99, R100, R105), step by step: the commands on its ports end, its fetch and store
entries are freed with their unsent calls and their pages, its nodes are told; and the two detaches made of these steps
(O37, O38).
-/

namespace Sys2Proof.Machine

section
variable {s t : State} {n : Node} {u : UnitId}

/-! ## Things served one after another, each changing its own record -/

section
variable {ι σ β α : Type} {f : σ → ι → σ} {view : σ → ι → β} {l : List ι}

theorem foldl_view_other (hother : ∀ t i j, j ≠ i → view (f t i) j = view t j) {j : ι} (hj : j ∉ l) (s : σ) :
    view (l.foldl f s) j = view s j := by
  induction l generalizing s with
  | nil => rfl
  | cons i l ih =>
    rw [List.mem_cons, not_or] at hj
    exact (ih hj.2 _).trans (hother s i j hj.1)

theorem foldl_view [DecidableEq ι] {g : β → β} (hsame : ∀ t i, view (f t i) i = g (view t i))
    (hother : ∀ t i j, j ≠ i → view (f t i) j = view t j) (hl : l.Nodup) (s : σ) (j : ι) :
    view (l.foldl f s) j = if j ∈ l then g (view s j) else view s j := by
  induction l generalizing s with
  | nil => rfl
  | cons i l ih =>
    obtain ⟨hi, hl⟩ := List.nodup_cons.mp hl
    rw [List.foldl_cons]
    by_cases hj : j = i
    · subst hj
      rw [foldl_view_other hother hi, hsame, if_pos List.mem_cons_self]
    · rw [ih hl, hother s i j hj]
      simp [hj]

/-- A list from which each thing served takes what its own record says. -/
theorem foldl_filter {L : σ → List α} {keep : ι → β → α → Bool}
    (hL : ∀ t i, L (f t i) = (L t).filter (keep i (view t i))) (hother : ∀ t i j, j ≠ i → view (f t i) j = view t j)
    (hl : l.Nodup) (s : σ) : L (l.foldl f s) = (L s).filter fun a => l.all fun i => keep i (view s i) a := by
  induction l generalizing s with
  | nil => simp
  | cons i l ih =>
    obtain ⟨hi, hl⟩ := List.nodup_cons.mp hl
    rw [List.foldl_cons, ih hl, hL, List.filter_filter]
    refine List.filter_congr fun a _ => ?_
    have hrest : (l.all fun j => keep j (view (f s i) j) a) = l.all fun j => keep j (view s j) a := by
      rw [Bool.eq_iff_iff, List.all_eq_true, List.all_eq_true]
      exact forall₂_congr fun j hj => by rw [hother s i j fun e => hi (e ▸ hj)]
    rw [hrest, List.all_cons, Bool.and_comm]

end

/-! ## Commands that end on several ports (R112) -/

/-- R112: a port whose active command, if it has one, has ended. -/
def Port.ended (st : Status) (p : Port) : Port :=
  match p.active with
  | some a => endedPort p a st
  | none => p

theorem port_endCommand (n m : Node) (st : Status) (s : State) :
    port (endCommand n st s) m = if m = n then (port s n).ended st else port s m := by
  rw [endCommand_eq]
  unfold Port.ended
  cases ha : (port s n).active with
  | some a => exact Per4.get_modify _ _ _ _
  | none =>
    by_cases hm : m = n
    · rw [if_pos hm, hm]
    · rw [if_neg hm]

/-- R112: the commands that end on the ports of several nodes change these ports and the entry-wait order alone. -/
theorem foldl_endCommand {f : State → Node → State} {st : Status} {ends : Port → Bool} {l : List Node}
    (hf : ∀ t n, f t n = if ends (port t n) then endCommand n st t else t) (hl : l.Nodup) (s : State) :
    ∃ (ports : Per4 Port) (wait : List Node),
      l.foldl f s = { s with ports := ports, cache := { s.cache with entryWait := wait } }
      ∧ (∀ n, ports.get n = if n ∈ l ∧ ends (port s n) then (port s n).ended st else port s n)
      ∧ (s.cache.entryWait = [] → wait = []) := by
  have hframe : ∃ (ports : Per4 Port) (wait : List Node),
      l.foldl f s = { s with ports := ports, cache := { s.cache with entryWait := wait } }
      ∧ (s.cache.entryWait = [] → wait = []) := by
    refine List.foldlRecOn (motive := fun t => ∃ (ports : Per4 Port) (wait : List Node),
      t = { s with ports := ports, cache := { s.cache with entryWait := wait } } ∧ (s.cache.entryWait = [] → wait = []))
      l f ⟨s.ports, s.cache.entryWait, rfl, id⟩ fun t ht n _ => ?_
    obtain ⟨ports, wait, rfl, hwait⟩ := ht
    rw [hf]
    split_ifs
    · rw [endCommand_eq]
      cases (port { s with ports := ports, cache := { s.cache with entryWait := wait } } n).active with
      | none => exact ⟨ports, wait, rfl, hwait⟩
      | some a => exact ⟨_, _, rfl, fun h => by simp [hwait h]⟩
    · exact ⟨ports, wait, rfl, hwait⟩
  obtain ⟨ports, wait, heq, hwait⟩ := hframe
  refine ⟨ports, wait, heq, fun n => ?_, hwait⟩
  have hview := foldl_view (view := port) (g := fun p => if ends p then p.ended st else p) (f := f)
    (fun t i => by
      rw [hf]
      split_ifs
      · rw [port_endCommand, if_pos rfl]
      · rfl)
    (fun t i j hj => by
      rw [hf]
      split_ifs
      · rw [port_endCommand, if_neg hj]
      · rfl) hl s n
  rw [heq] at hview
  refine hview.trans ?_
  by_cases hn : n ∈ l <;> simp [hn]

theorem nodesOf_nodup (s : State) (u : UnitId) : (nodesOf s u).Nodup := List.Nodup.filter _ (by decide)

/-- R99, R100, R105: the commands on the ports of a unit's nodes end with ABORTED. -/
theorem abortPorts_eq (u : UnitId) (s : State) : ∃ (ports : Per4 Port) (wait : List Node),
    abortPorts u s = { s with ports := ports, cache := { s.cache with entryWait := wait } }
    ∧ (∀ n, ports.get n = if (s.units.get u).nodes.get n then (port s n).ended .aborted else port s n)
    ∧ (s.cache.entryWait = [] → wait = []) := by
  obtain ⟨ports, wait, heq, hports, hwait⟩ := foldl_endCommand (f := fun t n => endCommand n .aborted t)
    (ends := fun _ => true) (fun _ _ => (if_pos rfl).symm) (nodesOf_nodup s u) s
  refine ⟨ports, wait, heq, fun n => ?_, hwait⟩
  simpa [mem_nodesOf] using hports n

/-! ## The nodes that a unit leaves (R124, R169) -/

theorem find?_allLines {p : LineId → Bool} {l : LineId} :
    allLines.find? p = some l ↔ p l = true ∧ ∀ m < l, p m = false := by
  have hall : allLines = List.finRange 6 := by decide
  rw [hall, List.find?_eq_some_iff_getElem]
  simp only [List.getElem_finRange, Bool.not_eq_eq_eq_not, Bool.not_true]
  refine and_congr_right fun _ => ⟨?_, fun h => ⟨l.val, l.isLt, rfl, fun j hj => h ⟨j, hj.trans l.isLt⟩ hj⟩⟩
  rintro ⟨i, hi, rfl, hlow⟩ m hm
  exact hlow m.val hm

/-- R169: a line as a release of BOOT_SELECT leaves it, given the lines of its node. -/
def bootSelectReleased (ls : Per6 Line) : Per6 Line :=
  Per6.build fun l =>
    if (ls.get l).owner = .supervisor ∧ ∀ m : LineId, m < l → (ls.get m).owner ≠ .supervisor then
      { ls.get l with owner := .none, driven := false }
    else ls.get l

theorem bootSelectReleased_found {ls : Per6 Line} {l : LineId}
    (h : allLines.find? (fun l => (ls.get l).owner == .supervisor) = some l) :
    ls.modify l (fun x => { x with owner := .none, driven := false }) = bootSelectReleased ls := by
  obtain ⟨howner, hlow⟩ := find?_allLines.mp h
  refine Per6.ext_get fun k => ?_
  rw [Per6.get_modify, bootSelectReleased, Per6.get_build]
  rcases lt_trichotomy k l with hlt | rfl | hgt
  · rw [if_neg hlt.ne, if_neg fun hk => by simpa [hk.1] using hlow k hlt]
  · rw [if_pos rfl, if_pos ⟨by simpa using howner, fun m hm => by simpa using hlow m hm⟩]
  · rw [if_neg hgt.ne', if_neg fun hk => hk.2 l hgt (by simpa using howner)]

theorem bootSelectReleased_none {ls : Per6 Line}
    (h : allLines.find? (fun l => (ls.get l).owner == .supervisor) = none) : bootSelectReleased ls = ls :=
  Per6.ext_get fun k => by
    rw [bootSelectReleased, Per6.get_build]
    exact if_neg fun hk => by simpa [hk.1] using List.find?_eq_none.mp h k (mem_allLines k)

/-- R169: a release of BOOT_SELECT touches the node's lines and its supervisor. -/
theorem releaseBootSelect_eq (n : Node) (s : State) : releaseBootSelect n s = { s with
    lines := { s.lines with line := s.lines.line.modify n bootSelectReleased }
    boot := { s.boot with supervisor := s.boot.supervisor.modify n fun v => { v with fallback := false } } } := by
  unfold releaseBootSelect
  cases hfind : allLines.find? fun l => (s.line n l).owner == .supervisor with
  | some l =>
    simp only [releaseLine, State.modLine, State.modLines, Per4.modify, bootSelectReleased_found hfind]
    rfl
  | none =>
    simp only [Per4.modify, bootSelectReleased_none hfind, Per4.set_get]
    rfl

/-- R124, R169: a unit's nodes and its writer are cleared; each former node's port has attention set, and its supervisor is
told. -/
theorem clearNodes_eq (u : UnitId) (s : State) :
    ∃ (ports : Per4 Port) (lines : Per4 (Per6 Line)) (supervisor : Per4 Supervisor), clearNodes u s = { s with
      units := s.units.modify u fun x => { x with nodes := Per4.all false, writer := none }
      ports := ports
      lines := { s.lines with line := lines }
      boot := { s.boot with supervisor := supervisor } }
    ∧ ∀ n, ports.get n = (if (s.units.get u).nodes.get n then (port s n).attended.settleTimer else port s n)
      ∧ lines.get n = (if (s.units.get u).nodes.get n then bootSelectReleased (s.lines.line.get n) else s.lines.line.get n)
      ∧ supervisor.get n
        = if (s.units.get u).nodes.get n then { s.supervisor n with fallback := false } else s.supervisor n := by
  have hstep : ∀ (t : State) (n : Node), releaseBootSelect n (setAttention n t) = { t with
      ports := t.ports.modify n fun p => p.attended.settleTimer
      lines := { t.lines with line := t.lines.line.modify n bootSelectReleased }
      boot := { t.boot with supervisor := t.boot.supervisor.modify n fun v => { v with fallback := false } } } :=
    fun t n => releaseBootSelect_eq n (setAttention n t)
  have hframe : ∃ (ports : Per4 Port) (lines : Per4 (Per6 Line)) (supervisor : Per4 Supervisor),
      clearNodes u s = { s with
        units := s.units.modify u fun x => { x with nodes := Per4.all false, writer := none }
        ports := ports
        lines := { s.lines with line := lines }
        boot := { s.boot with supervisor := supervisor } } := by
    unfold clearNodes
    refine List.foldlRecOn (motive := fun t => ∃ (ports : Per4 Port) (lines : Per4 (Per6 Line))
      (supervisor : Per4 Supervisor), t = { s with
        units := s.units.modify u fun x => { x with nodes := Per4.all false, writer := none }
        ports := ports
        lines := { s.lines with line := lines }
        boot := { s.boot with supervisor := supervisor } }) _ _
      ⟨s.ports, s.lines.line, s.boot.supervisor, rfl⟩ fun t ht n _ => ?_
    obtain ⟨ports, lines, supervisor, rfl⟩ := ht
    exact ⟨_, _, _, hstep _ n⟩
  obtain ⟨ports, lines, supervisor, heq⟩ := hframe
  refine ⟨ports, lines, supervisor, heq, fun n => ?_⟩
  have hview := foldl_view (f := fun t n => releaseBootSelect n (setAttention n t))
    (view := fun t n => (port t n, t.lines.line.get n, t.supervisor n))
    (g := fun x => (x.1.attended.settleTimer, bootSelectReleased x.2.1, { x.2.2 with fallback := false }))
    (fun t i => by
      rw [hstep]
      simp only [port, State.supervisor, Per4.get_modify_same])
    (fun t i j hj => by
      rw [hstep]
      simp only [port, State.supervisor, Per4.get_modify_other _ hj]) (nodesOf_nodup s u)
    (s.modUnit u fun x => { x with nodes := Per4.all false, writer := none }) n
  have hfold : (nodesOf s u).foldl (fun t n => releaseBootSelect n (setAttention n t))
      (s.modUnit u fun x => { x with nodes := Per4.all false, writer := none }) = clearNodes u s := rfl
  rw [hfold, heq] at hview
  simp only [mem_nodesOf, port, State.supervisor] at hview
  by_cases hn : (s.units.get u).nodes.get n = true
  · rw [if_pos hn] at hview
    obtain ⟨hp, hl, hv⟩ := Prod.mk.inj hview |>.imp_right Prod.mk.inj
    simp only [hn, if_true]
    exact ⟨hp, hl, hv⟩
  · rw [if_neg hn] at hview
    obtain ⟨hp, hl, hv⟩ := Prod.mk.inj hview |>.imp_right Prod.mk.inj
    simp only [hn]
    exact ⟨hp, hl, hv⟩

/-! ## Pages freed with their records (R87, R100, R138) -/

/-- From `s` to `t` some records of a unit have left the directory, and their pages are free. -/
structure PagesFreed (u : UnitId) (s t : State) : Prop where
  directory : t.cache.directory = s.cache.directory.filter fun r => decide (r ∈ t.cache.directory)
  unit : ∀ r ∈ s.cache.directory, r ∉ t.cache.directory → r.unit = u
  owners : ∀ p : PageId, t.pool.owners[p]
    = if ∃ r ∈ s.cache.directory, r.page = p ∧ r ∉ t.cache.directory then none else s.pool.owners[p]

theorem PagesFreed.subset (h : PagesFreed u s t) {r : DirRecord} (hr : r ∈ t.cache.directory) : r ∈ s.cache.directory :=
  (List.mem_filter.mp (h.directory ▸ hr)).1

theorem PagesFreed.sublist (h : PagesFreed u s t) : t.cache.directory.Sublist s.cache.directory := by
  rw [h.directory]
  exact List.filter_sublist

theorem PagesFreed.of_same (hd : t.cache.directory = s.cache.directory) (ho : t.pool.owners = s.pool.owners) :
    PagesFreed u s t where
  directory := by
    rw [hd]
    exact (List.filter_eq_self.mpr fun r hr => decide_eq_true hr).symm
  unit r hr hout := absurd (hd ▸ hr) hout
  owners p := by
    rw [if_neg fun ⟨r, hr, _, hout⟩ => hout (hd ▸ hr), ho]

protected theorem PagesFreed.trans {v : State} (h : PagesFreed u s t) (h' : PagesFreed u t v) : PagesFreed u s v where
  directory := by
    have hin : ∀ r, (decide (r ∈ v.cache.directory) && decide (r ∈ t.cache.directory)) = decide (r ∈ v.cache.directory) :=
      fun r => by
        by_cases hr : r ∈ v.cache.directory
        · simp [hr, h'.subset hr]
        · simp [hr]
    calc v.cache.directory = t.cache.directory.filter fun r => decide (r ∈ v.cache.directory) := h'.directory
      _ = (s.cache.directory.filter fun r => decide (r ∈ t.cache.directory)).filter
          fun r => decide (r ∈ v.cache.directory) := by rw [← h.directory]
      _ = s.cache.directory.filter fun r => decide (r ∈ v.cache.directory) := by
        rw [List.filter_filter]
        simp only [hin]
  unit r hr hout := by
    by_cases ht : r ∈ t.cache.directory
    · exact h'.unit r ht hout
    · exact h.unit r hr ht
  owners p := by
    rw [h'.owners, h.owners]
    by_cases hlate : ∃ r ∈ t.cache.directory, r.page = p ∧ r ∉ v.cache.directory
    · obtain ⟨r, hr, hp, hout⟩ := hlate
      rw [if_pos ⟨r, hr, hp, hout⟩, if_pos ⟨r, h.subset hr, hp, hout⟩]
    · rw [if_neg hlate]
      refine if_congr (exists_congr fun r => and_congr_right fun hr => and_congr_right fun hp => ?_) rfl rfl
      exact not_congr ⟨fun ht => not_not.mp fun hout => hlate ⟨r, ht, hp, hout⟩, h'.subset⟩

/-- R87: one page is freed with its record, where no other record has this page. -/
protected theorem PagesFreed.freePage {r : DirRecord} (hnodup : (s.cache.directory.map fun r => r.page).Nodup)
    (hr : r ∈ s.cache.directory) (hu : r.unit = u) : PagesFreed u s (Machine.freePage r.page s) := by
  have hmem : ∀ x ∈ s.cache.directory, (x ∉ (Machine.freePage r.page s).cache.directory ↔ x.page = r.page) := fun x hx => by
    rw [freePage_eq, List.mem_filter]
    simp [hx]
  refine ⟨?_, fun x hx hout => ?_, fun p => ?_⟩
  · refine List.filter_congr fun x hx => ?_
    rw [bne, Bool.eq_iff_iff, decide_eq_true_eq, ← not_iff_not, hmem x hx]
    simp
  · rw [List.inj_on_of_nodup_map hnodup hx hr ((hmem x hx).mp hout), hu]
  · rw [freePage_eq, owners_setOwner]
    refine if_congr ⟨fun e => ⟨r, hr, e.symm, (hmem r hr).mpr rfl⟩, ?_⟩ rfl rfl
    rintro ⟨x, hx, rfl, hout⟩
    exact (hmem x hx).mp hout

theorem PagesFreed.nodup (h : PagesFreed u s t) (hnodup : (s.cache.directory.map fun r => r.page).Nodup) :
    (t.cache.directory.map fun r => r.page).Nodup := hnodup.sublist (h.sublist.map _)

theorem findBlock_unit {lba : Nat} {r : DirRecord} (h : findBlock s u lba = some r) :
    r ∈ s.cache.directory ∧ r.unit = u ∧ r.lba = lba := by
  have hkey := List.find?_some h
  simp only [Bool.and_eq_true, beq_iff_eq] at hkey
  exact ⟨List.mem_of_find?_eq_some h, hkey.1, hkey.2⟩

protected theorem PagesFreed.freeBlock (hnodup : (s.cache.directory.map fun r => r.page).Nodup) (lba : Nat) :
    PagesFreed u s (Machine.freeBlock u lba s) := by
  unfold Machine.freeBlock
  cases hf : findBlock s u lba with
  | some r =>
    obtain ⟨hr, hu, -⟩ := findBlock_unit hf
    exact PagesFreed.freePage hnodup hr hu
  | none => exact .of_same rfl rfl

/-- Steps that each free pages of a unit free pages of it. -/
protected theorem PagesFreed.foldl {α : Type} {f : State → α → State} {l : List α}
    (hf : ∀ t a, (t.cache.directory.map fun r => r.page).Nodup → PagesFreed u t (f t a))
    (hnodup : (s.cache.directory.map fun r => r.page).Nodup) : PagesFreed u s (l.foldl f s) :=
  List.foldlRecOn (motive := fun t => PagesFreed u s t) l f (.of_same rfl rfl) fun t ht a _ =>
    ht.trans (hf t a (ht.nodup hnodup))

protected theorem PagesFreed.dropFetch (hnodup : (s.cache.directory.map fun r => r.page).Nodup) {i : Fin 16} {f : Fetch}
    (hf : f.unit = u) : PagesFreed u s (Machine.dropFetch i f s) := by
  subst hf
  have hblocks : PagesFreed f.unit s ((waitingBlocks f).foldl (fun t lba => Machine.freeBlock f.unit lba t) s) :=
    PagesFreed.foldl (fun t lba ht => PagesFreed.freeBlock ht lba) hnodup
  exact hblocks.trans (.of_same rfl rfl)

protected theorem PagesFreed.dropFetches (hnodup : (s.cache.directory.map fun r => r.page).Nodup) :
    PagesFreed u s (Machine.dropFetches u s) := by
  refine PagesFreed.foldl (fun t i ht => ?_) hnodup
  cases (t.cache.fetches[i]).busy with
  | none => exact .of_same rfl rfl
  | some f =>
    by_cases hf : f.unit = u
    · simp only [if_pos hf]
      exact PagesFreed.dropFetch ht hf
    · simp only [if_neg hf]
      exact .of_same rfl rfl

/-! ## The entries of a unit (R135, R147) -/

/-- R135: a fetch entry of a unit is outstanding. -/
def FetchEntry.isFor (u : UnitId) (e : FetchEntry) : Bool := e.busy.any fun f => f.unit == u

/-- R147: a store entry of a unit is outstanding. -/
def StoreEntry.isFor (u : UnitId) (e : StoreEntry) : Bool := e.busy.any fun y => y.unit == u

/-- R100, R105: a fetch entry after those of a unit are freed. -/
def FetchEntry.without (u : UnitId) (e : FetchEntry) : FetchEntry := if e.isFor u then { e with busy := none } else e

/-- R105: a store entry after those of a unit are freed. -/
def StoreEntry.without (u : UnitId) (e : StoreEntry) : StoreEntry := if e.isFor u then { e with busy := none } else e

/-- R100, R138: the end of a fetch entry frees pages, the entry and its unsent call. -/
theorem dropFetch_eq (i : Fin 16) (f : Fetch) (s : State) : ∃ (d : List DirRecord) (o : Vector (Option Holder) 256),
    dropFetch i f s = { s with
      cache := { s.cache with
        directory := d, fetches := s.cache.fetches.set i.val { s.cache.fetches[i] with busy := none } i.isLt }
      pool := { s.pool with owners := o }
      link := { s.link with calls := s.link.calls.filter fun k => k != .fetch i } } := by
  have hblocks : ∃ (d : List DirRecord) (o : Vector (Option Holder) 256),
      (waitingBlocks f).foldl (fun t lba => freeBlock f.unit lba t) s
        = { s with cache := { s.cache with directory := d }, pool := { s.pool with owners := o } } := by
    refine List.foldlRecOn (motive := fun t => ∃ (d : List DirRecord) (o : Vector (Option Holder) 256),
      t = { s with cache := { s.cache with directory := d }, pool := { s.pool with owners := o } }) _ _
      ⟨_, _, rfl⟩ fun t ht lba _ => ?_
    obtain ⟨d, o, rfl⟩ := ht
    unfold freeBlock
    cases findBlock _ f.unit lba with
    | some r => exact ⟨_, _, rfl⟩
    | none => exact ⟨d, o, rfl⟩
  obtain ⟨d, o, heq⟩ := hblocks
  refine ⟨d, o, ?_⟩
  rw [dropFetch, heq]
  rfl

/-- R99, R100, R105: one fetch entry is freed where it is the unit's. -/
def dropFetchFor (u : UnitId) (t : State) (i : Fin 16) : State :=
  match (t.cache.fetches[i]).busy with
  | some f => if f.unit = u then dropFetch i f t else t
  | none => t

theorem dropFetches_foldl (u : UnitId) (s : State) : dropFetches u s = (List.finRange 16).foldl (dropFetchFor u) s := rfl

theorem dropFetchFor_cases (u : UnitId) (t : State) (i : Fin 16) :
    (∃ f, f.unit = u ∧ (t.cache.fetches[i]).isFor u = true ∧ dropFetchFor u t i = dropFetch i f t)
      ∨ ((t.cache.fetches[i]).isFor u = false ∧ dropFetchFor u t i = t) := by
  unfold dropFetchFor FetchEntry.isFor
  cases (t.cache.fetches[i]).busy with
  | none => exact .inr ⟨rfl, rfl⟩
  | some f =>
    by_cases hf : f.unit = u
    · exact .inl ⟨f, hf, by simp [hf], if_pos hf⟩
    · exact .inr ⟨by simp [hf], if_neg hf⟩

theorem fetch_dropFetchFor_same (u : UnitId) (t : State) (i : Fin 16) :
    (dropFetchFor u t i).cache.fetches[i] = (t.cache.fetches[i]).without u := by
  rcases dropFetchFor_cases u t i with ⟨f, -, hfor, e⟩ | ⟨hother, e⟩
  · obtain ⟨d, o, heq⟩ := dropFetch_eq i f t
    rw [e, heq, FetchEntry.without, if_pos hfor]
    exact Vector.getElem_set_self i.isLt
  · rw [e, FetchEntry.without, hother]
    rfl

theorem fetch_dropFetchFor_other (u : UnitId) (t : State) (i j : Fin 16) (h : j ≠ i) :
    (dropFetchFor u t i).cache.fetches[j] = t.cache.fetches[j] := by
  rcases dropFetchFor_cases u t i with ⟨f, -, -, e⟩ | ⟨-, e⟩
  · obtain ⟨d, o, heq⟩ := dropFetch_eq i f t
    rw [e, heq]
    exact Vector.getElem_set_ne i.isLt j.isLt fun hv => h (Fin.ext hv.symm)
  · rw [e]

theorem calls_dropFetchFor (u : UnitId) (t : State) (i : Fin 16) : (dropFetchFor u t i).link.calls
    = t.link.calls.filter fun k => !((t.cache.fetches[i]).isFor u && k == .fetch i) := by
  rcases dropFetchFor_cases u t i with ⟨f, -, hfor, e⟩ | ⟨hother, e⟩
  · obtain ⟨d, o, heq⟩ := dropFetch_eq i f t
    rw [e, heq, hfor]
    rfl
  · rw [e, hother]
    exact (List.filter_eq_self.mpr fun _ _ => rfl).symm

/-- Of the calls of a table, each is kept by the entry it belongs to. -/
theorem all_otherCalls {k : Nat} (mine : Fin k → Bool) {call : Fin k → Call} (hcall : Function.Injective call)
    (i : Fin k) : ((List.finRange k).all fun j => !(mine j && call i == call j)) = !mine i := by
  rw [Bool.eq_iff_iff, List.all_eq_true]
  refine ⟨fun h => by simpa using h i (List.mem_finRange i), fun h j _ => ?_⟩
  by_cases hj : i = j
  · subst hj
    simpa using h
  · simp [hcall.ne hj]

/-- R135: the unsent call of a fetch entry of a unit. -/
def fetchCallFor (u : UnitId) (e : Vector FetchEntry 16) : Call → Bool
  | .fetch i => (e[i]).isFor u
  | .store _ => false

/-- R147: the unsent call of a store entry of a unit. -/
def storeCallFor (u : UnitId) (e : Vector StoreEntry 8) : Call → Bool
  | .fetch _ => false
  | .store i => (e[i]).isFor u

/-- R99, R100, R105: a unit's fetch entries are freed, with their calls and pages of its records. -/
theorem dropFetches_eq (u : UnitId) (s : State) : ∃ (d : List DirRecord) (o : Vector (Option Holder) 256),
    dropFetches u s = { s with
      cache := { s.cache with directory := d, fetches := s.cache.fetches.map (FetchEntry.without u) }
      pool := { s.pool with owners := o }
      link := { s.link with calls := s.link.calls.filter fun k => !fetchCallFor u s.cache.fetches k } } := by
  have hframe : ∃ (d : List DirRecord) (o : Vector (Option Holder) 256) (e : Vector FetchEntry 16) (c : List Call),
      dropFetches u s = { s with
        cache := { s.cache with directory := d, fetches := e }
        pool := { s.pool with owners := o }
        link := { s.link with calls := c } } := by
    rw [dropFetches_foldl]
    refine List.foldlRecOn (motive := fun t => ∃ (d : List DirRecord) (o : Vector (Option Holder) 256)
      (e : Vector FetchEntry 16) (c : List Call), t = { s with
        cache := { s.cache with directory := d, fetches := e }
        pool := { s.pool with owners := o }
        link := { s.link with calls := c } }) _ _ ⟨_, _, _, _, rfl⟩ fun t ht i _ => ?_
    obtain ⟨d, o, e, c, rfl⟩ := ht
    rcases dropFetchFor_cases u _ i with ⟨f, -, -, heq⟩ | ⟨-, heq⟩
    · obtain ⟨d', o', hdrop⟩ := dropFetch_eq i f { s with
        cache := { s.cache with directory := d, fetches := e }
        pool := { s.pool with owners := o }
        link := { s.link with calls := c } }
      exact ⟨_, _, _, _, heq.trans hdrop⟩
    · exact ⟨d, o, e, c, heq⟩
  obtain ⟨d, o, e, c, heq⟩ := hframe
  have hfetches : e = s.cache.fetches.map (FetchEntry.without u) := Vector.ext fun i hi => by
    have hview := foldl_view (view := fun t (i : Fin 16) => t.cache.fetches[i]) (fetch_dropFetchFor_same u)
      (fetch_dropFetchFor_other u) (List.nodup_finRange 16) s ⟨i, hi⟩
    rw [← dropFetches_foldl, heq, if_pos (List.mem_finRange _)] at hview
    simpa using hview
  have hcalls : c = s.link.calls.filter fun k => !fetchCallFor u s.cache.fetches k := by
    have hfilter := foldl_filter (L := fun t => t.link.calls) (view := fun t (i : Fin 16) => t.cache.fetches[i])
      (keep := fun i e k => !(e.isFor u && k == .fetch i)) (calls_dropFetchFor u) (fetch_dropFetchFor_other u)
      (List.nodup_finRange 16) s
    rw [← dropFetches_foldl, heq] at hfilter
    refine hfilter.trans (List.filter_congr fun k _ => ?_)
    cases k with
    | store i => simp [fetchCallFor]
    | fetch i => exact all_otherCalls _ (fun _ _ => Call.fetch.inj) i
  exact ⟨d, o, by rw [heq, hfetches, hcalls]⟩

/-- R105: one store entry is freed where it is the unit's. -/
def dropStoreFor (u : UnitId) (t : State) (i : Fin 8) : State :=
  match (t.cache.stores[i]).busy with
  | some y => if y.unit = u then freeStoreEntry i t else t
  | none => t

theorem dropStores_foldl (u : UnitId) (s : State) : dropStores u s = (List.finRange 8).foldl (dropStoreFor u) s := rfl

theorem dropStoreFor_cases (u : UnitId) (t : State) (i : Fin 8) :
    ((t.cache.stores[i]).isFor u = true ∧ dropStoreFor u t i = freeStoreEntry i t)
      ∨ ((t.cache.stores[i]).isFor u = false ∧ dropStoreFor u t i = t) := by
  unfold dropStoreFor StoreEntry.isFor
  cases (t.cache.stores[i]).busy with
  | none => exact .inr ⟨rfl, rfl⟩
  | some y =>
    by_cases hy : y.unit = u
    · exact .inl ⟨by simp [hy], if_pos hy⟩
    · exact .inr ⟨by simp [hy], if_neg hy⟩

theorem store_dropStoreFor_same (u : UnitId) (t : State) (i : Fin 8) :
    (dropStoreFor u t i).cache.stores[i] = (t.cache.stores[i]).without u := by
  rcases dropStoreFor_cases u t i with ⟨hfor, e⟩ | ⟨hother, e⟩
  · rw [e, StoreEntry.without, if_pos hfor]
    exact Vector.getElem_set_self i.isLt
  · rw [e, StoreEntry.without, hother]
    rfl

theorem store_dropStoreFor_other (u : UnitId) (t : State) (i j : Fin 8) (h : j ≠ i) :
    (dropStoreFor u t i).cache.stores[j] = t.cache.stores[j] := by
  rcases dropStoreFor_cases u t i with ⟨-, e⟩ | ⟨-, e⟩
  · rw [e]
    exact Vector.getElem_set_ne i.isLt j.isLt fun hv => h (Fin.ext hv.symm)
  · rw [e]

theorem calls_dropStoreFor (u : UnitId) (t : State) (i : Fin 8) : (dropStoreFor u t i).link.calls
    = t.link.calls.filter fun k => !((t.cache.stores[i]).isFor u && k == .store i) := by
  rcases dropStoreFor_cases u t i with ⟨hfor, e⟩ | ⟨hother, e⟩
  · rw [e, hfor]
    rfl
  · rw [e, hother]
    exact (List.filter_eq_self.mpr fun _ _ => rfl).symm

/-- R105: a unit's store entries are freed, with their calls. -/
theorem dropStores_eq (u : UnitId) (s : State) : dropStores u s = { s with
    cache := { s.cache with stores := s.cache.stores.map (StoreEntry.without u) }
    link := { s.link with calls := s.link.calls.filter fun k => !storeCallFor u s.cache.stores k } } := by
  have hframe : ∃ (e : Vector StoreEntry 8) (c : List Call),
      dropStores u s = { s with cache := { s.cache with stores := e }, link := { s.link with calls := c } } := by
    rw [dropStores_foldl]
    refine List.foldlRecOn (motive := fun t => ∃ (e : Vector StoreEntry 8) (c : List Call),
      t = { s with cache := { s.cache with stores := e }, link := { s.link with calls := c } }) _ _ ⟨_, _, rfl⟩
      fun t ht i _ => ?_
    obtain ⟨e, c, rfl⟩ := ht
    rcases dropStoreFor_cases u _ i with ⟨-, heq⟩ | ⟨-, heq⟩
    · exact ⟨_, _, heq⟩
    · exact ⟨e, c, heq⟩
  obtain ⟨e, c, heq⟩ := hframe
  have hstores : e = s.cache.stores.map (StoreEntry.without u) := Vector.ext fun i hi => by
    have hview := foldl_view (view := fun t (i : Fin 8) => t.cache.stores[i]) (store_dropStoreFor_same u)
      (store_dropStoreFor_other u) (List.nodup_finRange 8) s ⟨i, hi⟩
    rw [← dropStores_foldl, heq, if_pos (List.mem_finRange _)] at hview
    simpa using hview
  have hcalls : c = s.link.calls.filter fun k => !storeCallFor u s.cache.stores k := by
    have hfilter := foldl_filter (L := fun t => t.link.calls) (view := fun t (i : Fin 8) => t.cache.stores[i])
      (keep := fun i e k => !(e.isFor u && k == .store i)) (calls_dropStoreFor u) (store_dropStoreFor_other u)
      (List.nodup_finRange 8) s
    rw [← dropStores_foldl, heq] at hfilter
    refine hfilter.trans (List.filter_congr fun k _ => ?_)
    cases k with
    | fetch i => simp [storeCallFor]
    | store i => exact all_otherCalls _ (fun _ _ => Call.store.inj) i
  rw [heq, hstores, hcalls]

/-! ## The records and pages that go (R99, R100, R130) -/

/-- R93, R130: the pages whose records leave are the unit's, so freeing them and then all its pages frees its pages. -/
theorem PagesFreed.allPages (h : PagesFreed u s t)
    (howner : ∀ r ∈ s.cache.directory, s.pool.owners[r.page] = some (.mh r.unit)) :
    (t.cache.directory.filter fun r => r.unit != u) = (s.cache.directory.filter fun r => r.unit != u)
    ∧ (t.pool.owners.map fun o => if o = some (.mh u) then none else o)
      = s.pool.owners.map fun o => if o = some (.mh u) then none else o := by
  constructor
  · rw [h.directory, List.filter_filter]
    refine List.filter_congr fun r hr => ?_
    by_cases hin : r ∈ t.cache.directory
    · simp [hin]
    · simp [hin, h.unit r hr hin]
  · refine Vector.ext fun i hi => ?_
    have hpage := h.owners ⟨i, hi⟩
    simp only [Fin.getElem_fin] at hpage
    rw [Vector.getElem_map, Vector.getElem_map]
    by_cases hgone : ∃ r ∈ s.cache.directory, r.page = ⟨i, hi⟩ ∧ r ∉ t.cache.directory
    · obtain ⟨r, hr, hp, hout⟩ := hgone
      have hown : s.pool.owners[i] = some (.mh u) := by
        have := howner r hr
        rw [h.unit r hr hout] at this
        simpa [hp] using this
      rw [hpage.trans (if_pos ⟨r, hr, hp, hout⟩), hown]
      simp
    · rw [hpage.trans (if_neg hgone)]

/-- R99, R100, R105: the first steps of every way out of service: the commands end, and the fetch entries are freed. -/
theorem abortAndDrop_eq (hnodup : (s.cache.directory.map fun r => r.page).Nodup) (hwait : s.cache.entryWait = []) :
    ∃ (ports : Per4 Port) (d : List DirRecord) (o : Vector (Option Holder) 256),
      dropFetches u (abortPorts u s) = { s with
        ports := ports
        cache := { s.cache with directory := d, fetches := s.cache.fetches.map (FetchEntry.without u) }
        pool := { s.pool with owners := o }
        link := { s.link with calls := s.link.calls.filter fun k => !fetchCallFor u s.cache.fetches k } }
      ∧ PagesFreed u s (dropFetches u (abortPorts u s))
      ∧ ∀ n, ports.get n = if (s.units.get u).nodes.get n then (port s n).ended .aborted else port s n := by
  obtain ⟨ports, wait, habort, hports, hempty⟩ := abortPorts_eq u s
  obtain rfl : wait = s.cache.entryWait := (hempty hwait).trans hwait.symm
  obtain ⟨d, o, hdrop⟩ := dropFetches_eq u (abortPorts u s)
  have hfreed : PagesFreed u (abortPorts u s) (dropFetches u (abortPorts u s)) :=
    PagesFreed.dropFetches (by rw [habort]; exact hnodup)
  refine ⟨ports, d, o, ?_, PagesFreed.trans (.of_same ?_ ?_) hfreed, hports⟩
  · rw [hdrop, habort]
  all_goals rw [habort]

/-- R124: a port whose unit has left: its command has ended, and attention is set. -/
def Port.left (p : Port) : Port := (p.ended .aborted).attended.settleTimer

/-- R99, R105: what a unit's leaving service at once does. -/
theorem takeOut_eq (hdir : DirectoryLaw s) (hwait : s.cache.entryWait = []) :
    ∃ (ports : Per4 Port) (lines : Per4 (Per6 Line)) (supervisor : Per4 Supervisor), takeOut u s = { s with
      units := s.units.set u (s.units.get u).retired
      pool := { s.pool with owners := s.pool.owners.map fun o => if o = some (.mh u) then none else o }
      cache := { s.cache with
        directory := s.cache.directory.filter fun r => r.unit != u
        fetches := s.cache.fetches.map (FetchEntry.without u)
        stores := s.cache.stores.map (StoreEntry.without u)
        dirty := s.cache.dirty.set u [] }
      link := { s.link with
        calls := s.link.calls.filter fun k =>
          !storeCallFor u s.cache.stores k && !fetchCallFor u s.cache.fetches k }
      ports := ports
      lines := { s.lines with line := lines }
      boot := { s.boot with supervisor := supervisor } }
    ∧ ∀ n, ports.get n = (if (s.units.get u).nodes.get n then (port s n).left else port s n)
      ∧ lines.get n = (if (s.units.get u).nodes.get n then bootSelectReleased (s.lines.line.get n) else s.lines.line.get n)
      ∧ supervisor.get n
        = if (s.units.get u).nodes.get n then { s.supervisor n with fallback := false } else s.supervisor n := by
  obtain ⟨hnodup, hrecord, -⟩ := hdir
  obtain ⟨ports, d, o, hdrop, hfreed, hports⟩ := abortAndDrop_eq (u := u) hnodup hwait
  obtain ⟨hd, ho⟩ := hfreed.allPages fun r hr => (hrecord r hr).1
  simp only [hdrop] at hd ho
  obtain ⟨left, lines, supervisor, hclear, hleft⟩ :=
    clearNodes_eq u (freeUnitPages u (dropStores u (dropFetches u (abortPorts u s))))
  refine ⟨left, lines, supervisor, ?_, fun n => ?_⟩
  · rw [takeOut, hclear, dropStores_eq, hdrop]
    simp only [freeUnitPages, State.modUnit, State.modCache, State.modPool, hd, ho, Per4.modify_modify,
      List.filter_filter]
    rfl
  · have hn := hleft n
    rw [dropStores_eq, hdrop] at hn
    simp only [freeUnitPages, State.modCache, State.modPool, port, hports n] at hn
    refine ⟨hn.1.trans ?_, hn.2⟩
    split_ifs <;> rfl

/-- R99, R105: a unit's leaving service leaves nothing for the cache to serve where nothing waited on it. -/
theorem afterLeaving_nothing {before : State} (hwait : s.cache.entryWait = []) (hheld : NothingHeld s) :
    afterLeaving before s = s := by
  have hserve : serveEntryWait entryWaitFuel s = s := by
    rw [entryWaitFuel, serveEntryWait, hwait]
  have hissue : issueStores storeFuel s = s := by
    rw [storeFuel, issueStores, nextToStore_noneDirty hheld.2]
    cases freeStore s <;> rfl
  rcases afterLeaving_cases before s with ⟨-, e⟩ | ⟨-, e⟩ <;> rw [e, hserve]
  · exact poolChanged_nothingHeld hheld
  · exact hissue

/-! ## What the statements name -/

theorem left_active (p : Port) : p.left.active = none := by
  unfold Port.left Port.ended
  cases h : p.active with
  | none => exact h
  | some a => rfl

theorem left_slots {p : Port} (h : p.active.isSome) : p.left.slots = [] := by
  obtain ⟨a, ha⟩ := Option.isSome_iff_exists.mp h
  simp only [Port.left, Port.ended, ha]
  rfl

theorem left_lastStatus (p : Port) : p.left.lastStatus = if p.active.isSome then .aborted else p.lastStatus := by
  unfold Port.left Port.ended
  cases p.active <;> rfl

theorem left_wait {p : Port} (h : p.wait ≠ .cache) : p.left.wait ≠ .cache := by
  unfold Port.left Port.ended
  cases p.active with
  | none => exact h
  | some a => exact Wait.noConfusion

theorem left_lastCount (p : Port) : p.left.lastCount = match p.active with | some a => a.done | none => p.lastCount := by
  unfold Port.left Port.ended
  cases p.active <;> rfl

/-- R112, R124: the fields of a port whose unit has left. -/
theorem left_fields {p q : Port} (h : q = p.left) :
    q.active = none ∧ q.attention = true ∧ q.sequential = none ∧ (p.active.isSome → q.slots = [])
      ∧ q.lastStatus = (if p.active.isSome then .aborted else p.lastStatus)
      ∧ q.lastCount = match p.active with | some a => a.done | none => p.lastCount := by
  subst h
  exact ⟨left_active p, rfl, rfl, left_slots, left_lastStatus p, left_lastCount p⟩

/-- R169: the lines and the supervisor of a node that leaves its unit. -/
theorem leavesBootSelect_of (hlines : t.lines.line.get n = bootSelectReleased (s.lines.line.get n))
    (hsupervisor : t.supervisor n = { s.supervisor n with fallback := false }) : LeavesBootSelect s t n :=
  ⟨fun l => by rw [State.line, hlines, bootSelectReleased, Per6.get_build]; rfl, hsupervisor⟩

theorem FetchEntry.without_eq (e : FetchEntry) : e.without u = match e.busy with
    | some f => if f.unit = u then { e with busy := none } else e
    | none => e := by
  unfold FetchEntry.without FetchEntry.isFor
  cases e.busy <;> simp

theorem StoreEntry.without_eq (e : StoreEntry) : e.without u = match e.busy with
    | some y => if y.unit = u then { e with busy := none } else e
    | none => e := by
  unfold StoreEntry.without StoreEntry.isFor
  cases e.busy <;> simp

theorem activePorts_eq (s : State) (u : UnitId) : activePorts s u
    = allNodes.countP fun n => (s.units.get u).nodes.get n && (s.ports.get n).active.isSome := by
  rw [activePorts, nodesOf, List.countP_filter]
  exact List.countP_congr fun n _ => by rw [Bool.and_comm]; rfl

/-! ## The two detaches at once (R99, R105) -/

/-- R178: what the reply queue and the waiting list hold together. -/
def Link.allReplies (k : Link) : List Reply := k.replies ++ k.waiting

/-- R178: a reply joins the end of what is to be sent, and changes nothing else but the lists it joins. -/
theorem addReply_spec (r : Reply) (k : Link) : (k.addReply r).allReplies = k.allReplies ++ [r]
    ∧ (k.addReply r).calls = k.calls ∧ (k.addReply r).notices = k.notices := by
  by_cases h : k.replies.length < replyRoom ∧ k.waiting = []
  · rw [Link.addReply_free r k h.1 h.2]
    exact ⟨by simp [Link.allReplies, h.2], rfl, rfl⟩
  · rw [Link.addReply_full r k h]
    exact ⟨by simp [Link.allReplies], rfl, rfl⟩

/-- R99, R105: the replies of a detach at once, from the state before it. -/
def detachReplies (u : UnitId) (tag : Tag) (force : Bool) (s : State) : List Reply :=
  if force then
    ((s.units.get u).detachTag.toList.map fun old => replyTo old 0x51#8 .forced (be32 (dirtyCount s u)))
      ++ [replyTo tag 0x51#8 .done (forcedDetails s u)]
  else [replyTo tag 0x51#8 .done (be32 (s.pool.held (.mh u)))]

/-- R99, R105: the conditions of a detach that takes the unit out of service at once. -/
def LeavesAtOnce (u : UnitId) (force : Bool) (s : State) : Prop :=
  (force = false ∧ (s.units.get u).state = .attached ∧ dirtyCount s u = 0)
    ∨ (force = true ∧ (s.units.get u).state ≠ .detached)

/-- R99, R105: a detach at once is the unit's leaving service and its replies; a forced one also clears the consecutive
failures. -/
theorem detachUnit_atOnce {force : Bool} (h : LeavesAtOnce u force s) (hwait : (takeOut u s).cache.entryWait = [])
    (hheld : NothingHeld (takeOut u s)) (tag : Tag) : ∃ k : Link,
    detachUnit u tag force s = { takeOut u s with
      units := (takeOut u s).units.modify u fun x => { x with consecutive := if force then 0 else x.consecutive }
      link := k }
    ∧ k.allReplies = (takeOut u s).link.allReplies ++ detachReplies u tag force s
    ∧ k.calls = (takeOut u s).link.calls ∧ k.notices = (takeOut u s).link.notices := by
  rcases h with ⟨rfl, hstate, hclean⟩ | ⟨rfl, hstate⟩
  · have hdetach : detachUnit u tag false s
        = (takeOut u s).reply tag 0x51#8 .done (be32 (s.pool.held (.mh u))) := by
      simp only [detachUnit, hstate, hclean, if_true, detachAtOnce, afterLeaving_nothing hwait hheld]
    have hunits : (takeOut u s).units.modify u (fun x => { x with consecutive := if false then 0 else x.consecutive })
        = (takeOut u s).units := Per4.set_get _ _
    rw [hdetach, hunits]
    exact ⟨_, rfl, addReply_spec _ _⟩
  · have hdetach : detachUnit u tag true s = detachForced u tag s := by
      unfold detachUnit
      cases hs : (s.units.get u).state with
      | detached => exact absurd hs hstate
      | attached | draining | storeFault => rfl
    have hafter : afterLeaving s (forceOut u s) = forceOut u s :=
      afterLeaving_nothing (s := forceOut u s) hwait hheld
    obtain ⟨hall, hcalls, hnotices⟩ := addReply_spec (replyTo tag 0x51#8 .done (forcedDetails s u))
      (endDrainReply s u .forced (forceOut u s)).link
    rw [hdetach, detachForced, hafter]
    cases hold : (s.units.get u).detachTag with
    | none =>
      have hend : endDrainReply s u .forced (forceOut u s) = forceOut u s := by
        rw [endDrainReply, hold]
      rw [hend] at hall hcalls hnotices ⊢
      refine ⟨_, rfl, hall.trans ?_, hcalls, hnotices⟩
      rw [detachReplies, hold]
      rfl
    | some old =>
      have hend : endDrainReply s u .forced (forceOut u s)
          = (forceOut u s).reply old 0x51#8 .forced (be32 (dirtyCount s u)) := by
        rw [endDrainReply, hold]
      obtain ⟨hall', hcalls', hnotices'⟩ := addReply_spec (replyTo old 0x51#8 .forced (be32 (dirtyCount s u)))
        (forceOut u s).link
      rw [hend] at hall hcalls hnotices ⊢
      refine ⟨_, rfl, (hall.trans (congrArg (· ++ _) hall')).trans ?_, hcalls.trans hcalls', hnotices.trans hnotices'⟩
      rw [detachReplies, hold, List.append_assoc]
      rfl

theorem exec_unitDetach (hs : RequestReady s) {b : Byte} (hb : b.toNat = u.val) (tag : Tag) (options : Byte) :
    exec (.unitDetach tag [b, options]) s = .next (detachUnit u tag (options.getLsbD 0) (hunt s)) := by
  refine (requestFrame_ready hs 0x51#8 tag (body := [b, options]) (bodyFits_of_length (by simp))).trans ?_
  show Host.Outcome.next (serveUnitDetach tag [b, options] (hunt s)) = _
  simp only [serveUnitDetach, node?_of_toNat hb]

end

end Sys2Proof.Machine

open Sys2Proof Sys2Proof.Machine

/-- Settles O37: the refusals by the unit's state, and a detach at once as the unit's leaving service with its replies. -/
theorem detachFreesEverythingOfUnit : Obligations.DetachFreesEverythingOfUnit := by
  refine ⟨fun u tag b options s hs hb => ?_, fun u tag b options x s hs hpool hb hx hwait hheld hdirty hleaves => ?_⟩
  · rw [exec_unitDetach hs hb]
    refine ⟨fun hstate => ?_, fun hforce hstate => ?_, fun hforce hstate => ?_⟩
    · have hserve : detachUnit u tag (options.getLsbD 0) (hunt s) = (hunt s).reply tag 0x51#8 .already [] := by
        have hstate' : ((hunt s).units.get u).state = .detached := hstate
        simp only [detachUnit, hstate']
      rw [hserve]
      exact congrArg _ (reply_hunt hs tag 0x51#8 .already [])
    · have hserve : detachUnit u tag (options.getLsbD 0) (hunt s) = (hunt s).reply tag 0x51#8 .busy [] := by
        have hstate' : ((hunt s).units.get u).state = .draining := hstate
        simp only [detachUnit, hstate', hforce]
      rw [hserve]
      exact congrArg _ (reply_hunt hs tag 0x51#8 .busy [])
    · have hserve : detachUnit u tag (options.getLsbD 0) (hunt s) = (hunt s).reply tag 0x51#8 .unitFaulted [] := by
        have hstate' : ((hunt s).units.get u).state = .storeFault := hstate
        simp only [detachUnit, hstate', hforce]
      rw [hserve]
      exact congrArg _ (reply_hunt hs tag 0x51#8 .unitFaulted [])
  · subst hx
    obtain ⟨-, -, -, hdirectory, -, -⟩ := hpool
    obtain ⟨ports, lines, supervisor, hout, hnodes⟩ := takeOut_eq (s := hunt s) (u := u) hdirectory hwait
    have hheld' : NothingHeld (takeOut u (hunt s)) := by
      rw [hout]
      refine ⟨fun n => ?_, fun v => ?_⟩
      · rw [(hnodes n).1]
        split_ifs
        · exact left_wait (hheld n)
        · exact hheld n
      · rw [Per4.get_set]
        split_ifs with hv
        · rfl
        · exact hdirty v hv
    obtain ⟨k, hdetach, hreplies, hcalls, hnotices⟩ :=
      detachUnit_atOnce (s := hunt s) (u := u) hleaves (by rw [hout]; exact hwait) hheld' tag
    rw [hout] at hdetach hreplies hcalls hnotices
    refine ⟨_, (exec_unitDetach hs hb tag options).trans (congrArg _ hdetach), ?_, fun p => ?_, rfl, ?_, fun i => ?_,
      fun i => ?_, ?_, fun n hn => ?_, fun n hn => ?_, fun n hn => ?_, ?_, hnotices, rfl, rfl, rfl, rfl⟩
    · exact (Per4.set_set _ _ _ _).trans (congrArg _ (by rw [Per4.get_set_same]; rfl))
    · exact Vector.getElem_map _ _
    · exact Per4.get_set_same _ _ _
    · exact (Vector.getElem_map _ _).trans (FetchEntry.without_eq _)
    · exact (Vector.getElem_map _ _).trans (StoreEntry.without_eq _)
    · refine hcalls.trans (List.filter_congr fun c _ => ?_)
      cases c with
      | fetch i => rfl
      | store i => exact Bool.and_true _
    · exact left_fields ((hnodes n).1.trans (if_pos hn))
    · exact leavesBootSelect_of ((hnodes n).2.1.trans (if_pos hn)) ((hnodes n).2.2.trans (if_pos hn))
    · have hout : ¬ (s.units.get u).nodes.get n = true := by simp [hn]
      exact ⟨(hnodes n).1.trans (if_neg hout), (hnodes n).2.1.trans (if_neg hout), (hnodes n).2.2.trans (if_neg hout)⟩
    · refine hreplies.trans ?_
      obtain ⟨-, -, hempty, -⟩ := hs
      have hall : (hunt s).link.allReplies = s.link.replies := by
        show s.link.replies ++ s.link.waiting = _
        rw [hempty, List.append_nil]
      refine (congrArg (· ++ detachReplies u tag (options.getLsbD 0) (hunt s)) hall).trans ?_
      rw [List.append_assoc]
      refine congrArg (s.link.replies ++ ·) ?_
      rw [detachReplies, forcedDetails, activePorts_eq]
      have hold : ((hunt s).units.get u).detachTag = (s.units.get u).detachTag := rfl
      rw [hold]
      cases options.getLsbD 0 with
      | false => rfl
      | true => cases (s.units.get u).detachTag <;> rfl
end

section
/-!
A drain's start (O38): which records the end of a unit's fetch entries takes (R100, R130, R135), and the state in which the
unit is DRAINING.
-/

namespace Sys2Proof.Machine

section
variable {s t : State} {n : Node} {u : UnitId}

/-! ## The records that a fetch entry's end takes (R100, R138) -/

/-- R130: a directory with one record for each of its pages, and one for each of its blocks. -/
structure OneRecordEach (s : State) : Prop where
  pages : (s.cache.directory.map fun r => r.page).Nodup
  blocks : (s.cache.directory.map fun r => (r.unit, r.lba)).Nodup

theorem OneRecordEach.of_freed (h : OneRecordEach s) (hf : PagesFreed u s t) : OneRecordEach t :=
  ⟨hf.nodup h.pages, h.blocks.sublist (hf.sublist.map _)⟩

theorem OneRecordEach.eq_of_block (h : OneRecordEach s) {r r' : DirRecord} (hr : r ∈ s.cache.directory)
    (hr' : r' ∈ s.cache.directory) (hunit : r.unit = r'.unit) (hlba : r.lba = r'.lba) : r = r' :=
  List.inj_on_of_nodup_map h.blocks hr hr' (Prod.ext hunit hlba)

theorem OneRecordEach.eq_of_page (h : OneRecordEach s) {r r' : DirRecord} (hr : r ∈ s.cache.directory)
    (hr' : r' ∈ s.cache.directory) (hpage : r.page = r'.page) : r = r' :=
  List.inj_on_of_nodup_map h.pages hr hr' hpage

/-- R138: the record of a block leaves, and no other. -/
theorem mem_freeBlock (h : OneRecordEach s) {lba : Nat} {r : DirRecord} :
    r ∈ (freeBlock u lba s).cache.directory ↔ r ∈ s.cache.directory ∧ ¬ (r.unit = u ∧ r.lba = lba) := by
  unfold freeBlock
  cases hfind : findBlock s u lba with
  | none =>
    refine ⟨fun hr => ⟨hr, fun ⟨hu, hl⟩ => ?_⟩, And.left⟩
    exact List.find?_eq_none.mp hfind r hr (by simp [hu, hl])
  | some x =>
    obtain ⟨hx, hxu, hxl⟩ := findBlock_unit hfind
    dsimp only
    rw [freePage_eq, List.mem_filter, bne_iff_ne]
    refine and_congr_right fun hr => not_congr ⟨fun hpage => ?_, fun ⟨hu, hl⟩ => ?_⟩
    · rw [h.eq_of_page hr hx hpage]
      exact ⟨hxu, hxl⟩
    · rw [h.eq_of_block hr hx (hu.trans hxu.symm) (hl.trans hxl.symm)]

theorem mem_freeBlocks (h : OneRecordEach s) {lbas : List Nat} {r : DirRecord} :
    r ∈ (lbas.foldl (fun t lba => freeBlock u lba t) s).cache.directory
      ↔ r ∈ s.cache.directory ∧ ¬ (r.unit = u ∧ r.lba ∈ lbas) := by
  induction lbas generalizing s with
  | nil => simp
  | cons lba lbas ih =>
    rw [List.foldl_cons, ih (h.of_freed (PagesFreed.freeBlock h.pages lba)), mem_freeBlock h, List.mem_cons]
    tauto

/-- R100, R135: a record is of a WAITING block of one of these entries of a unit. -/
def AwaitedBy (u : UnitId) (e : FetchEntry) (r : DirRecord) : Prop :=
  ∃ f, e.busy = some f ∧ f.unit = u ∧ r.unit = u ∧ r.lba ∈ waitingBlocks f

theorem mem_dropFetchFor (h : OneRecordEach s) {i : Fin 16} {r : DirRecord} :
    r ∈ (dropFetchFor u s i).cache.directory
      ↔ r ∈ s.cache.directory ∧ ¬ AwaitedBy u s.cache.fetches[i] r := by
  unfold dropFetchFor AwaitedBy
  cases (s.cache.fetches[i]).busy with
  | none => simp
  | some f =>
    by_cases hf : f.unit = u
    · subst hf
      simp only [if_true]
      refine (mem_freeBlocks h).trans (and_congr_right fun _ => not_congr ?_)
      simp
    · simp [hf]

theorem PagesFreed.dropFetchFor (hnodup : (s.cache.directory.map fun r => r.page).Nodup) (i : Fin 16) :
    PagesFreed u s (Machine.dropFetchFor u s i) := by
  rcases dropFetchFor_cases u s i with ⟨f, hf, -, e⟩ | ⟨-, e⟩
  · exact e ▸ PagesFreed.dropFetch hnodup hf
  · exact .of_same (by rw [e]) (by rw [e])

theorem mem_foldl_dropFetchFor (h : OneRecordEach s) {l : List (Fin 16)} (hl : l.Nodup) {r : DirRecord} :
    r ∈ (l.foldl (dropFetchFor u) s).cache.directory
      ↔ r ∈ s.cache.directory ∧ ∀ i ∈ l, ¬ AwaitedBy u s.cache.fetches[i] r := by
  induction l generalizing s with
  | nil => simp
  | cons i l ih =>
    obtain ⟨hi, hl⟩ := List.nodup_cons.mp hl
    have hsame : ∀ j ∈ l, (dropFetchFor u s i).cache.fetches[j] = s.cache.fetches[j] := fun j hj =>
      fetch_dropFetchFor_other u s i j fun e => hi (e ▸ hj)
    rw [List.foldl_cons, ih (h.of_freed (PagesFreed.dropFetchFor h.pages i)) hl, mem_dropFetchFor h, List.forall_mem_cons,
      and_assoc]
    refine and_congr_right fun _ => and_congr_right fun _ => forall₂_congr fun j hj => ?_
    rw [hsame j hj]

/-- R135: the blocks that the fetch entries await. -/
theorem mem_awaited {b : UnitId × Nat} :
    b ∈ awaited s ↔ ∃ (i : Fin 16) (f : Fetch),
      (s.cache.fetches[i]).busy = some f ∧ f.unit = b.1 ∧ b.2 ∈ waitingBlocks f := by
  simp only [awaited, busyFetches, toList_eq_map_finRange, List.mem_flatMap, List.mem_filterMap, List.mem_map,
    List.mem_finRange, true_and]
  constructor
  · rintro ⟨f, ⟨e, ⟨i, rfl⟩, hf⟩, lba, hlba, rfl⟩
    exact ⟨i, f, hf, rfl, hlba⟩
  · rintro ⟨i, f, hf, hu, hlba⟩
    exact ⟨f, ⟨_, ⟨i, rfl⟩, hf⟩, b.2, hlba, Prod.ext hu rfl⟩

/-- R100, R130, R135: the records that leave with a unit's fetch entries are those of its FILLING pages. -/
theorem mem_dropFetches (h : OneRecordEach s) (hfetch : ∀ b, b ∈ awaited s ↔ b ∈ blocksIn s .filling) {r : DirRecord} :
    r ∈ (dropFetches u s).cache.directory ↔ r ∈ s.cache.directory ∧ ¬ (r.unit = u ∧ r.state = .filling) := by
  rw [dropFetches_foldl, mem_foldl_dropFetchFor h (List.nodup_finRange 16)]
  refine and_congr_right fun hr => ?_
  have hblock : (r.unit, r.lba) ∈ blocksIn s .filling ↔ r.state = .filling := by
    simp only [blocksIn, List.mem_map, List.mem_filter, beq_iff_eq]
    refine ⟨?_, fun hs => ⟨r, ⟨hr, hs⟩, rfl⟩⟩
    rintro ⟨x, ⟨hx, hstate⟩, hkey⟩
    obtain ⟨hu, hl⟩ := Prod.mk.inj hkey
    rwa [← h.eq_of_block hx hr hu hl]
  have hwaits : r.state = .filling ↔ (r.unit, r.lba) ∈ awaited s :=
    hblock.symm.trans (hfetch _).symm
  rw [hwaits, mem_awaited]
  constructor
  · rintro hnone ⟨rfl, i, f, hf, hu, hlba⟩
    exact hnone i (List.mem_finRange i) ⟨f, hf, hu, rfl, hlba⟩
  · rintro hnone i - ⟨f, hf, hu, rfl, hlba⟩
    exact hnone ⟨rfl, i, f, hf, hu, hlba⟩

/-! ## A drain starts (R100) -/

/-- R138: the records and the pages that are left where a unit's FILLING records have left the directory. -/
theorem PagesFreed.filling (h : PagesFreed u s t)
    (hmem : ∀ r, r ∈ t.cache.directory ↔ r ∈ s.cache.directory ∧ ¬ (r.unit = u ∧ r.state = .filling)) :
    t.cache.directory = s.cache.directory.filter (fun r => !(r.unit == u && r.state == .filling))
    ∧ ∀ p : PageId, t.pool.owners[p]
      = if ∃ r ∈ s.cache.directory, r.page = p ∧ r.unit = u ∧ r.state = .filling then none else s.pool.owners[p] := by
  refine ⟨h.directory.trans (List.filter_congr fun r hr => ?_), fun p => ?_⟩
  · rw [Bool.eq_iff_iff, decide_eq_true_eq, hmem, Bool.not_eq_true', Bool.and_eq_false_iff, beq_eq_false_iff_ne,
      beq_eq_false_iff_ne, not_and_or]
    exact and_iff_right hr
  · rw [h.owners]
    refine if_congr (exists_congr fun r => and_congr_right fun hr => and_congr_right fun _ => ?_) rfl rfl
    rw [hmem, not_and, not_not]
    exact forall_prop_of_true hr

/-- R100: the commands on a unit's ports end, its fetch entries are freed with their FILLING pages, and its nodes leave. -/
theorem clearNodes_afterAbort_eq (hrecords : OneRecordEach s)
    (hfetch : ∀ b, b ∈ awaited s ↔ b ∈ blocksIn s .filling) (hwait : s.cache.entryWait = []) :
    ∃ (ports : Per4 Port) (lines : Per4 (Per6 Line)) (supervisor : Per4 Supervisor) (o : Vector (Option Holder) 256),
      clearNodes u (dropFetches u (abortPorts u s)) = { s with
        units := s.units.modify u fun x => { x with nodes := Per4.all false, writer := none }
        pool := { s.pool with owners := o }
        cache := { s.cache with
          directory := s.cache.directory.filter fun r => !(r.unit == u && r.state == .filling)
          fetches := s.cache.fetches.map (FetchEntry.without u) }
        link := { s.link with calls := s.link.calls.filter fun k => !fetchCallFor u s.cache.fetches k }
        ports := ports
        lines := { s.lines with line := lines }
        boot := { s.boot with supervisor := supervisor } }
      ∧ (∀ p : PageId, o[p] = if ∃ r ∈ s.cache.directory, r.page = p ∧ r.unit = u ∧ r.state = .filling then none
          else s.pool.owners[p])
      ∧ ∀ n, ports.get n = (if (s.units.get u).nodes.get n then (port s n).left else port s n)
        ∧ lines.get n = (if (s.units.get u).nodes.get n then bootSelectReleased (s.lines.line.get n) else s.lines.line.get n)
        ∧ supervisor.get n
          = if (s.units.get u).nodes.get n then { s.supervisor n with fallback := false } else s.supervisor n := by
  obtain ⟨_, _, habort, -, -⟩ := abortPorts_eq u s
  have hmem : ∀ r, r ∈ (dropFetches u (abortPorts u s)).cache.directory
      ↔ r ∈ s.cache.directory ∧ ¬ (r.unit = u ∧ r.state = .filling) := fun r => by
    have hdropped := mem_dropFetches (u := u) (r := r) (s := abortPorts u s)
      (by rw [habort]; exact ⟨hrecords.1, hrecords.2⟩) (by rw [habort]; exact hfetch)
    rw [hdropped, habort]
  obtain ⟨ports, d, o, hdrop, hfreed, hports⟩ := abortAndDrop_eq (u := u) hrecords.pages hwait
  obtain ⟨hd, ho⟩ := hfreed.filling hmem
  obtain ⟨left, lines, supervisor, hclear, hleft⟩ := clearNodes_eq u (dropFetches u (abortPorts u s))
  rw [hdrop] at hd ho
  refine ⟨left, lines, supervisor, o, ?_, ho, fun n => ?_⟩
  · have hd' : d = _ := hd
    rw [hclear, hdrop, hd']
  · have hn := hleft n
    rw [hdrop] at hn
    simp only [port, hports n] at hn
    refine ⟨hn.1.trans ?_, hn.2⟩
    split_ifs <;> rfl

/-- R100: what the start of a drain does. -/
theorem startDrain_eq (hrecords : OneRecordEach s) (hfetch : ∀ b, b ∈ awaited s ↔ b ∈ blocksIn s .filling)
    (hwait : s.cache.entryWait = []) (tag : Tag) :
    ∃ (ports : Per4 Port) (lines : Per4 (Per6 Line)) (supervisor : Per4 Supervisor) (o : Vector (Option Holder) 256),
      startDrain u tag s = { s with
        units := s.units.set u { s.units.get u with
          state := .draining, nodes := Per4.all false, writer := none, detachTag := some tag, stored := 0 }
        pool := { s.pool with owners := o }
        cache := { s.cache with
          directory := s.cache.directory.filter fun r => !(r.unit == u && r.state == .filling)
          fetches := s.cache.fetches.map (FetchEntry.without u) }
        link := { s.link with calls := s.link.calls.filter fun k => !fetchCallFor u s.cache.fetches k }
        ports := ports
        lines := { s.lines with line := lines }
        boot := { s.boot with supervisor := supervisor } }
      ∧ (∀ p : PageId, o[p] = if ∃ r ∈ s.cache.directory, r.page = p ∧ r.unit = u ∧ r.state = .filling then none
          else s.pool.owners[p])
      ∧ ∀ n, ports.get n = (if (s.units.get u).nodes.get n then (port s n).left else port s n)
        ∧ lines.get n = (if (s.units.get u).nodes.get n then bootSelectReleased (s.lines.line.get n) else s.lines.line.get n)
        ∧ supervisor.get n
          = if (s.units.get u).nodes.get n then { s.supervisor n with fallback := false } else s.supervisor n := by
  obtain ⟨ports, lines, supervisor, o, hclear, howners, hnodes⟩ :=
    clearNodes_afterAbort_eq (s := s.modUnit u fun x => { x with detachTag := some tag }) (u := u)
      ⟨hrecords.1, hrecords.2⟩ hfetch hwait
  refine ⟨ports, lines, supervisor, o, ?_, howners, ?_⟩
  · rw [startDrain, hclear]
    simp only [State.modUnit, Per4.modify_modify]
    rfl
  · rwa [State.modUnit, Per4.get_modify_same] at hnodes

end

end Sys2Proof.Machine

open Sys2Proof Sys2Proof.Machine

/-- Settles O38: a detach of a unit with pages to store is the start of a drain, after which the cache has nothing to
serve. -/
theorem detachOfDirtyUnitStartsDrain : Obligations.DetachOfDirtyUnitStartsDrain := by
  intro u tag b options x s hs hpool hcache hb hforce hx hstate hdirty hwait hheld
  subst hx
  obtain ⟨-, -, -, ⟨hpages, -⟩, -, -⟩ := hpool
  obtain ⟨hblocks, -, ⟨-, hfilling, hawaited, -⟩, -, -⟩ := hcache
  obtain ⟨ports, lines, supervisor, o, hdrain, howners, hnodes⟩ :=
    startDrain_eq (s := hunt s) (u := u) ⟨hpages, hblocks⟩ (fun v => ⟨hfilling v, hawaited v⟩) hwait tag
  have hserve : detachUnit u tag (options.getLsbD 0) (hunt s) = startDrain u tag (hunt s) := by
    have hstate' : ((hunt s).units.get u).state = .attached := hstate
    have hdirty' : ¬ dirtyCount (hunt s) u = 0 := hdirty.ne'
    simp only [detachUnit, hstate', hforce, if_neg hdirty']
    refine afterLeaving_nothing ?_ ⟨fun n => ?_, ?_⟩
    · rw [hdrain]
      exact hwait
    · rw [hdrain, (hnodes n).1]
      split_ifs
      · exact left_wait (hheld.1 n)
      · exact hheld.1 n
    · rw [hdrain]
      exact hheld.2
  have hempty : s.link.waiting = [] := by
    obtain ⟨-, -, hempty, -⟩ := hs
    exact hempty
  refine ⟨_, (exec_unitDetach hs hb tag options).trans (congrArg _ (hserve.trans hdrain)), rfl, rfl, rfl, rfl, howners,
    rfl, rfl, rfl, fun i => ?_, ?_, fun n hn => ?_, fun n hn => ?_, fun n hn => ?_, rfl, hempty, rfl, rfl, rfl, rfl, rfl⟩
  · exact (Vector.getElem_map _ _).trans (FetchEntry.without_eq _)
  · refine List.filter_congr fun c _ => ?_
    cases c <;> rfl
  · exact left_fields ((hnodes n).1.trans (if_pos hn))
  · exact leavesBootSelect_of ((hnodes n).2.1.trans (if_pos hn)) ((hnodes n).2.2.trans (if_pos hn))
  · have hout : ¬ (s.units.get u).nodes.get n = true := by simp [hn]
    exact ⟨(hnodes n).1.trans (if_neg hout), (hnodes n).2.1.trans (if_neg hout), (hnodes n).2.2.trans (if_neg hout)⟩
end

section
/-!
The store engine's answers (O48): the page of an outstanding store becomes CLEAN (R148) or DIRTY (R148, R149); a page that is
DIRTY again is stored again, or waits where its unit is in STORE_FAULT (R103); a drain ends (R101, R102).
-/

namespace Sys2Proof.Machine

section
variable {s t : State} {n : Node} {u : UnitId} {i : Fin 8} {y : Store} {r : DirRecord} {c : Cache} {d : DirtyPage}

/-! ## The record of a page (R130) -/

section
variable {l : List DirRecord} {f : DirRecord → DirRecord}

theorem find?_page (hnodup : (l.map fun z => z.page).Nodup) (hr : r ∈ l) : l.find? (fun z => z.page == r.page) = some r := by
  cases hfind : l.find? fun z => z.page == r.page with
  | none => exact absurd (List.find?_eq_none.mp hfind r hr) (by simp)
  | some z =>
    exact congrArg some (List.inj_on_of_nodup_map hnodup (List.mem_of_find?_eq_some hfind) hr (by
      simpa using List.find?_some hfind))

theorem map_page (hf : ∀ z, (f z).page = z.page) : (l.map f).map (fun z => z.page) = l.map fun z => z.page := by
  rw [List.map_map]
  exact List.map_congr_left fun z _ => hf z

/-- A change of one page's record changes a count of records by what it does to that record. -/
theorem countP_modify (hnodup : (l.map fun z => z.page).Nodup) (hr : r ∈ l) (P : DirRecord → Bool) :
    (l.map fun z => if z.page = r.page then f z else z).countP P + (if P r then 1 else 0)
      = l.countP P + if P (f r) then 1 else 0 := by
  induction l with
  | nil => cases hr
  | cons z l ih =>
    obtain ⟨hz, hnodup⟩ := List.nodup_cons.mp hnodup
    rw [List.map_cons, List.countP_cons, List.countP_cons]
    rcases List.mem_cons.mp hr with rfl | hr
    · have hrest : (l.map fun z => if z.page = r.page then f z else z) = l :=
        (List.map_congr_left fun x hx => if_neg fun e => hz (List.mem_map.mpr ⟨x, hx, e⟩)).trans (List.map_id l)
      rw [hrest, if_pos rfl, Nat.add_right_comm]
    · have hne : z.page ≠ r.page := fun e => hz (List.mem_map.mpr ⟨r, hr, e.symm⟩)
      have hrest := ih hnodup hr
      rw [if_neg hne]
      omega

end

/-! ## An outstanding store (R147) -/

/-- A busy store entry, with no free entry below it, and the STORING record of its page. -/
structure StoreOut (i : Fin 8) (y : Store) (r : DirRecord) (c : Cache) : Prop where
  busy : (c.stores[i]).busy = some y
  below : ∀ j : Fin 8, j < i → (c.stores[j]).busy ≠ none
  record : r ∈ c.directory
  page : r.page = y.page
  unit : r.unit = y.unit
  lba : r.lba = y.lba
  storing : r.state = .storing
  pages : (c.directory.map fun z => z.page).Nodup

theorem StoreOut.eq_of_page (h : StoreOut i y r c) {z : DirRecord} (hz : z ∈ c.directory)
    (hpage : z.page = r.page) : z = r :=
  List.inj_on_of_nodup_map h.pages hz h.record hpage

/-- R131: a change of an outstanding store's record changes the number of its unit's pages in a state. -/
theorem pagesIn_modRecord (h : StoreOut i y r s.cache) (f : DirRecord → DirRecord) (st : PageState) :
    pagesIn (modRecord r.page f s) u st + (if r.unit = u ∧ r.state = st then 1 else 0)
      = pagesIn s u st + if (f r).unit = u ∧ (f r).state = st then 1 else 0 := by
  have hcount := countP_modify (f := f) h.pages h.record fun z => z.unit == u && z.state == st
  simp only [Bool.and_eq_true, beq_iff_eq] at hcount
  exact hcount

/-- R131: a page that becomes CLEAN leaves its unit's DIRTY and STORING count. -/
theorem dirtyCount_cleaned (h : StoreOut i y r s.cache) :
    dirtyCount (modRecord r.page (fun z => { z with state := .clean, age := 0 }) s) r.unit + 1 = dirtyCount s r.unit := by
  have hcount := pagesIn_modRecord (u := r.unit) h fun z => { z with state := .clean, age := 0 }
  have hdirty := hcount .dirty
  have hstoring := hcount .storing
  simp only [h.storing, reduceCtorEq, and_false, if_false, and_self, if_true] at hdirty hstoring
  unfold dirtyCount
  omega

/-- R131: a STORING page that becomes DIRTY stays in its unit's DIRTY and STORING count. -/
theorem dirtyCount_dirtied (h : StoreOut i y r s.cache) :
    dirtyCount (modRecord r.page (fun z => { z with state := .dirty, redirtied := false }) s) r.unit
      = dirtyCount s r.unit := by
  have hcount := pagesIn_modRecord (u := r.unit) h fun z => { z with state := .dirty, redirtied := false }
  have hdirty := hcount .dirty
  have hstoring := hcount .storing
  simp only [h.storing, reduceCtorEq, and_false, if_false, and_self, if_true] at hdirty hstoring
  unfold dirtyCount
  omega

/-- R148: the tag of an outstanding store names its entry. -/
theorem storeOf_eq_some {tag : Tag} (hbusy : (s.cache.stores[i]).busy = some y)
    (htag : tag.toNat = (s.cache.stores[i]).generation.toNat * 256 + (16 + i.val)) : storeOf s tag = some (i, y) := by
  have hlow : tag.toNat % 256 = 16 + i.val := by omega
  have hhigh : tag.toNat / 256 = (s.cache.stores[i]).generation.toNat := by omega
  have hi : (⟨tag.toNat % 256 - 16, by omega⟩ : Fin 8) = i := Fin.ext (by simp only [hlow]; omega)
  unfold storeOf
  rw [dif_pos (by omega)]
  simp only [hi, hhigh, hbusy, if_true, Option.map_some]

/-! ## The store engine issues (R147) -/

theorem foldl_only {ι β : Type} {f : β → ι → β} {k : ι} (hother : ∀ b j, j ≠ k → f b j = b) {l : List ι} (hl : l.Nodup)
    (hk : k ∈ l) (b : β) : l.foldl f b = f b k := by
  have hnone : ∀ (l : List ι) (b : β), k ∉ l → l.foldl f b = b := fun l b hk =>
    List.foldlRecOn (motive := fun x => x = b) l f rfl fun x hx j hj => (hother x j fun e => hk (e ▸ hj)).trans hx
  induction l generalizing b with
  | nil => cases hk
  | cons j l ih =>
    obtain ⟨hj, hl⟩ := List.nodup_cons.mp hl
    rw [List.foldl_cons]
    rcases List.mem_cons.mp hk with rfl | hk
    · exact hnone l _ hj
    · rw [hother b j fun e => hj (e ▸ hk)]
      exact ih hl hk b

/-- R147: the one page that waits to be stored is next, unless its unit is in STORE_FAULT. -/
theorem nextToStore_single (hdirty : s.cache.dirty.get u = [d]) (hother : ∀ v, v ≠ u → s.cache.dirty.get v = []) :
    nextToStore s = if (s.units.get u).state = .storeFault then none else some (u, d) := by
  refine (foldl_only (k := u) (fun b v hv => ?_) (by decide) (mem_allNodes u) none).trans ?_
  · simp only [hother v hv, ite_self]
  · simp only [hdirty]

theorem issueStores_idle (h : nextToStore s = none) (k : Nat) : issueStores k s = s := by
  cases k with
  | zero => rfl
  | succ k =>
    rw [issueStores, h]
    cases freeStore s <;> rfl

theorem issueStores_single (hfree : freeStore s = some i) (hnext : nextToStore s = some (u, d))
    (hdone : nextToStore (issueStore i u d s) = none) : issueStores storeFuel s = issueStore i u d s := by
  rw [storeFuel, issueStores, hfree, hnext]
  exact issueStores_idle hdone _

/-- R147: what the issue of a store does, given the record of its page. -/
theorem issueStore_eq (h : s.cache.directory.find? (fun z => z.page == d.page) = some r) : issueStore i u d s = { s with
    cache := { s.cache with
      directory := s.cache.directory.map fun z =>
        if z.page = d.page then { z with state := .storing, redirtied := false } else z
      dirty := s.cache.dirty.modify u fun l => l.drop 1
      stores := s.cache.stores.set i.val
        { generation := (s.cache.stores[i]).generation + 1
          busy := some { unit := u, lba := r.lba, page := d.page, created := s.now } } i.isLt }
    link := { s.link with calls := s.link.calls ++ [.store i] } } := by
  rw [issueStore, h]
  rfl

theorem freeStore_eq_some (hfree : (s.cache.stores[i]).busy = none)
    (hbelow : ∀ j : Fin 8, j < i → (s.cache.stores[j]).busy ≠ none) : freeStore s = some i := by
  rw [freeStore, List.find?_eq_some_iff_getElem]
  refine ⟨by rw [hfree]; rfl, i.val, by simp, by simp, fun j hj => ?_⟩
  simpa [Option.isSome_iff_ne_none] using hbelow ⟨j, hj.trans i.isLt⟩ hj

/-! ## A page that is DIRTY again (R148, R149) -/

/-- R148, R149: the entry of a store is free, and its page is DIRTY and last in its unit's dirty order. -/
def returned (i : Fin 8) (y : Store) (s : State) : State :=
  joinDirty y.unit y.page (modRecord y.page (fun r => { r with state := .dirty, redirtied := false }) (freeStoreEntry i s))

theorem returned_eq (i : Fin 8) (y : Store) (s : State) : returned i y s = { s with
    cache := { s.cache with
      directory := s.cache.directory.map fun z =>
        if z.page = y.page then { z with state := .dirty, redirtied := false } else z
      dirty := s.cache.dirty.modify y.unit fun l => l ++ [{ page := y.page, moment := s.cache.joins }]
      joins := s.cache.joins + 1
      stores := s.cache.stores.set i.val { s.cache.stores[i] with busy := none } i.isLt }
    link := { s.link with calls := s.link.calls.filter fun k => k != .store i } } := rfl

theorem dirty_returned_same (hdirty : ∀ v, s.cache.dirty.get v = []) :
    (returned i y s).cache.dirty.get y.unit = [{ page := y.page, moment := s.cache.joins }] := by
  refine (Per4.get_modify_same _ _ _).trans ?_
  show s.cache.dirty.get y.unit ++ _ = _
  rw [hdirty]
  rfl

theorem dirty_returned_other (hdirty : ∀ v, s.cache.dirty.get v = []) {v : UnitId} (hv : v ≠ y.unit) :
    (returned i y s).cache.dirty.get v = [] :=
  (Per4.get_modify_other _ hv _).trans (hdirty v)

theorem freeStore_returned (h : StoreOut i y r s.cache) : freeStore (returned i y s) = some i := by
  refine freeStore_eq_some ?_ fun j hj => ?_
  · show ((s.cache.stores.set i.val { s.cache.stores[i] with busy := none } i.isLt)[i.val]).busy = none
    rw [Vector.getElem_set_self]
  · show ((s.cache.stores.set i.val { s.cache.stores[i] with busy := none } i.isLt)[j.val]).busy ≠ none
    rw [Vector.getElem_set_ne _ _ (Fin.val_ne_of_ne hj.ne')]
    exact h.below j hj

/-- R147: a store of a record's page, issued now. -/
def DirRecord.store (r : DirRecord) (now : Nat) : Store := { unit := r.unit, lba := r.lba, page := r.page, created := now }

/-- R147: the state in which the page of a store is being stored again, under the entry's next generation. -/
def storedAgain (i : Fin 8) (r : DirRecord) (s : State) : State := { s with
  cache := { s.cache with
    directory := s.cache.directory.map fun z => if z.page = r.page then { z with redirtied := false } else z
    joins := s.cache.joins + 1
    stores := s.cache.stores.set i.val
      { generation := (s.cache.stores[i]).generation + 1, busy := some (r.store s.now) } i.isLt }
  link := { s.link with calls := s.link.calls.filter (fun k => k != .store i) ++ [.store i] } }

/-- R147 to R149: a page that is DIRTY again is stored again at once where no other page waits. -/
theorem issueStores_returned (h : StoreOut i y r s.cache) (hdirty : ∀ v, s.cache.dirty.get v = [])
    (hserved : (s.units.get y.unit).state ≠ .storeFault) : issueStores storeFuel (returned i y s) = storedAgain i r s := by
  have hnext : nextToStore (returned i y s) = some (y.unit, { page := y.page, moment := s.cache.joins }) :=
    (nextToStore_single (dirty_returned_same hdirty) fun v hv => dirty_returned_other hdirty hv).trans (if_neg hserved)
  have hfind : (returned i y s).cache.directory.find? (fun z => z.page == y.page)
      = some { r with state := .dirty, redirtied := false } := by
    rw [← h.page]
    refine find?_page (r := { r with state := .dirty, redirtied := false }) ?_
      (List.mem_map.mpr ⟨r, h.record, if_pos h.page⟩)
    refine (congrArg List.Nodup (map_page fun z => ?_)).mpr h.pages
    split_ifs <;> rfl
  have hdirectory : ((returned i y s).cache.directory.map fun z =>
        if z.page = y.page then { z with state := .storing, redirtied := false } else z)
      = s.cache.directory.map fun z => if z.page = r.page then { z with redirtied := false } else z := by
    refine (List.map_map ..).trans (List.map_congr_left fun z hz => ?_)
    rw [Function.comp_apply, h.page]
    by_cases hpage : z.page = y.page
    · obtain rfl := h.eq_of_page hz (hpage.trans h.page.symm)
      simp only [if_pos hpage, h.storing]
    · simp only [if_neg hpage]
  have hstores : (returned i y s).cache.stores.set i.val
        { generation := ((returned i y s).cache.stores[i]).generation + 1
          busy := some { unit := y.unit, lba := r.lba, page := y.page, created := (returned i y s).now } } i.isLt
      = s.cache.stores.set i.val
        { generation := (s.cache.stores[i]).generation + 1, busy := some (r.store s.now) } i.isLt := by
    have hentry : (returned i y s).cache.stores[i] = { s.cache.stores[i] with busy := none } :=
      Vector.getElem_set_self i.isLt
    rw [hentry, DirRecord.store, h.unit, h.page]
    exact Vector.set_set ..
  have hempty : (returned i y s).cache.dirty.modify y.unit (fun l => l.drop 1) = s.cache.dirty := by
    refine Per4.ext_get fun v => ?_
    rw [Per4.get_modify, hdirty]
    split_ifs with hv
    · rw [dirty_returned_same hdirty]
      rfl
    · exact dirty_returned_other hdirty hv
  have hissue : issueStore i y.unit { page := y.page, moment := s.cache.joins } (returned i y s) = storedAgain i r s := by
    rw [issueStore_eq hfind, hdirectory, hstores, hempty, returned_eq]
    rfl
  rw [← hissue]
  refine issueStores_single (freeStore_returned h) hnext (nextToStore_noneDirty ?_)
  rw [hissue]
  exact hdirty

end

end Sys2Proof.Machine
end

section
/-!
What follows the store engine's answers (O48): the FLUSHes that end (R104, R122), a unit in STORE_FAULT (R102, R103), the end
of a drain (R101).
-/

namespace Sys2Proof.Machine

section
variable {s t : State} {n : Node} {u : UnitId} {i : Fin 8} {y : Store} {r : DirRecord}

/-! ## The FLUSHes of a unit's nodes (R104, R122) -/

/-- R104, R122: the port of a FLUSH that ends where a condition holds. -/
def flushEnded (st : Status) (p : Port) (ends : Prop) [Decidable ends] : Port :=
  match p.active with
  | some a => if a.kind = .flush ∧ ends then endedPort p a st else p
  | none => p

theorem state_eq_flushing_iff {p : Port} : p.state = .flushing ↔ ∃ a, p.active = some a ∧ a.kind = .flush := by
  unfold Port.state
  cases p.active with
  | none => simp
  | some a =>
    cases hkind : a.kind with
    | write =>
      dsimp only
      split_ifs <;> simp [hkind]
    | read | flush => simp [hkind]

theorem state_ne_writeHeld {p : Port} (h : p.wait ≠ .cache) : p.state ≠ .writeHeld := by
  unfold Port.state
  cases p.active with
  | none => simp
  | some a =>
    dsimp only
    cases a.kind with
    | read | flush => simp
    | write => simp [h]

theorem flushEnded_eq {st : Status} {p : Port} {ends : Prop} [Decidable ends] :
    flushEnded st p ends = if p.state = .flushing ∧ ends then p.ended st else p := by
  unfold flushEnded Port.ended
  cases hactive : p.active with
  | none => simp
  | some a =>
    have hiff : p.state = .flushing ↔ a.kind = .flush := by simp [state_eq_flushing_iff, hactive]
    simp only [hiff]

theorem flushEnded_congr {st : Status} {p : Port} {ends ends' : Prop} [Decidable ends] [Decidable ends']
    (h : ends ↔ ends') : flushEnded st p ends = flushEnded st p ends' := by
  simp only [flushEnded, h]

theorem flushEnded_never {st : Status} {p : Port} {ends : Prop} [Decidable ends] (h : ¬ ends) :
    flushEnded st p ends = p := by
  rw [flushEnded_eq, if_neg fun hp => h hp.2]

theorem flushEnded_wait {st : Status} {p : Port} {ends : Prop} [Decidable ends] (h : p.wait ≠ .cache) :
    (flushEnded st p ends).wait ≠ .cache := by
  unfold flushEnded
  cases p.active with
  | none => exact h
  | some a =>
    dsimp only
    split_ifs
    · exact Wait.noConfusion
    · exact h

/-- R122: the FLUSHes of a unit's nodes end where no page of it is DIRTY or STORING. -/
theorem endFlushes_eq (u : UnitId) (s : State) : ∃ (ports : Per4 Port) (wait : List Node),
    endFlushes u s = { s with ports := ports, cache := { s.cache with entryWait := wait } }
    ∧ ∀ n, ports.get n = flushEnded .good (port s n) ((s.units.get u).nodes.get n = true ∧ dirtyCount s u = 0) := by
  unfold endFlushes
  by_cases hcount : dirtyCount s u = 0
  · obtain ⟨ports, wait, heq, hports, -⟩ := foldl_endCommand (st := .good) (ends := fun p => decide (p.state = .flushing))
      (f := fun t n => if (port t n).state = .flushing then endCommand n .good t else t)
      (fun t n => by simp only [decide_eq_true_eq]) (nodesOf_nodup s u) s
    refine ⟨ports, wait, (if_pos hcount).trans heq, fun n => ?_⟩
    rw [hports, flushEnded_eq]
    refine if_congr ?_ rfl rfl
    rw [mem_nodesOf, decide_eq_true_eq, and_iff_left hcount]
    exact and_comm
  · exact ⟨s.ports, s.cache.entryWait, if_neg hcount, fun n => (flushEnded_never fun h => hcount h.2).symm⟩

/-- R104: the FLUSHes of a faulted unit's nodes end, where no write is held. -/
theorem faultPorts_eq (u : UnitId) (hheld : ∀ n, (port s n).wait ≠ .cache) : ∃ (ports : Per4 Port) (wait : List Node),
    faultPorts u s = { s with ports := ports, cache := { s.cache with entryWait := wait } }
    ∧ ∀ n, ports.get n = flushEnded .writeFault (port s n) ((s.units.get u).nodes.get n = true) := by
  obtain ⟨ports, wait, heq, hports, -⟩ := foldl_endCommand (st := .writeFault)
    (ends := fun p => decide (p.state = .writeHeld ∨ p.state = .flushing))
    (f := fun t n => match (port t n).state with
      | .writeHeld | .flushing => endCommand n .writeFault t
      | .idle | .reading | .writing => t)
    (fun t n => by cases (port t n).state <;> rfl) (nodesOf_nodup s u) s
  refine ⟨ports, wait, heq, fun n => ?_⟩
  rw [hports, flushEnded_eq]
  refine if_congr ?_ rfl rfl
  rw [mem_nodesOf, decide_eq_true_eq, or_iff_right (state_ne_writeHeld (hheld n))]
  exact and_comm

theorem endFlushes_noNodes (h : nodesOf s u = []) : endFlushes u s = s := by
  unfold endFlushes
  rw [h]
  exact ite_self s

theorem nodesOf_eq_nil (h : (s.units.get u).nodes = Per4.all false) : nodesOf s u = [] :=
  List.filter_eq_nil_iff.mpr fun n _ => by rw [h, Per4.get_all]; exact Bool.false_ne_true

/-! ## The answers and the timers (R148, R149, R151) -/

section
variable {tag : Tag}

theorem exec_stored (hrun : s.phase = .running) (hbuffer : frameBuffer s.link ≠ none)
    (hbusy : (s.cache.stores[i]).busy = some y)
    (htag : tag.toNat = (s.cache.stores[i]).generation.toNat * 256 + (16 + i.val)) :
    exec (.stored tag) s = .next (storeSucceeds i y (hunt s)) := by
  obtain ⟨b, hb⟩ := Option.ne_none_iff_exists'.mp hbuffer
  have hof : storeOf (hunt s) tag = some (i, y) := storeOf_eq_some (s := hunt s) hbusy htag
  refine congrArg Host.Outcome.next ((whenRunning_running hrun _).trans ((receiveAnswer_some hb _).trans ?_))
  rw [storedAnswer, hof]

theorem exec_storeFailed (hrun : s.phase = .running) (hbuffer : frameBuffer s.link ≠ none)
    (hbusy : (s.cache.stores[i]).busy = some y)
    (htag : tag.toNat = (s.cache.stores[i]).generation.toNat * 256 + (16 + i.val)) :
    exec (.storeFailed tag) s = .next (storeFails i y (hunt s)) := by
  obtain ⟨b, hb⟩ := Option.ne_none_iff_exists'.mp hbuffer
  have hof : storeOf (hunt s) tag = some (i, y) := storeOf_eq_some (s := hunt s) hbusy htag
  refine congrArg Host.Outcome.next ((whenRunning_running hrun _).trans ((receiveAnswer_some hb _).trans ?_))
  rw [storeFailedAnswer, hof]

theorem exec_storeTimeout (hrun : s.phase = .running) (hbusy : (s.cache.stores[i]).busy = some y) :
    exec (.storeTimeout i) s = .next (storeFails i y s) := by
  refine congrArg Host.Outcome.next ((whenRunning_running hrun _).trans ?_)
  rw [storeTimesOut, hbusy]

theorem exec_agingTick (hrun : s.phase = .running) : exec .agingTick s = .next (agePages s) :=
  congrArg Host.Outcome.next (whenRunning_running hrun _)

end

/-! ## A store that ended well (R148) -/

theorem StoreOut.find?_page {c : Cache} (h : StoreOut i y r c) :
    c.directory.find? (fun z => z.page == y.page) = some r :=
  h.page ▸ Machine.find?_page h.pages h.record

/-- R148: a page that was written again is stored again. -/
theorem storeSucceeds_redirtied (h : StoreOut i y r s.cache) (hagain : r.redirtied = true)
    (hdirty : ∀ v, s.cache.dirty.get v = []) (hserved : (s.units.get r.unit).state ≠ .storeFault) :
    storeSucceeds i y s = storedAgain i r (s.modUnit r.unit fun x => { x with consecutive := 0 }) := by
  have hreturn : storeSucceeds i y s
      = issueStores storeFuel (returned i y (s.modUnit y.unit fun x => { x with consecutive := 0 })) := by
    simp only [storeSucceeds, h.find?_page, hagain, if_true]
    rfl
  rw [hreturn, h.unit]
  refine issueStores_returned (s := s.modUnit y.unit fun x => { x with consecutive := 0 }) h hdirty ?_
  rw [State.modUnit, Per4.get_modify_same, ← h.unit]
  exact hserved

/-- R148: a unit's record after a store that ended well. -/
def MediaUnit.storeDone (x : MediaUnit) : MediaUnit := { x with consecutive := 0 }

/-- R101: the same of a DRAINING unit, with the page counted. -/
def MediaUnit.storedOne (x : MediaUnit) : MediaUnit := { x with consecutive := 0, stored := x.stored + 1 }

/-- R148: the entry of a store is free and the page of its record CLEAN with age 0; its unit's record has changed by `f`. -/
def cleaned (i : Fin 8) (r : DirRecord) (f : MediaUnit → MediaUnit) (s : State) : State := { s with
  cache := { s.cache with
    directory := s.cache.directory.map fun z => if z.page = r.page then { z with state := .clean, age := 0 } else z
    stores := s.cache.stores.set i.val { s.cache.stores[i] with busy := none } i.isLt }
  units := s.units.set r.unit (f (s.units.get r.unit))
  link := { s.link with calls := s.link.calls.filter fun k => k != .store i } }

section
variable {f : MediaUnit → MediaUnit}

theorem unit_cleaned (f : MediaUnit → MediaUnit) : (cleaned i r f s).units.get r.unit = f (s.units.get r.unit) :=
  Per4.get_set_same _ _ _

theorem modUnit_cleaned (f g : MediaUnit → MediaUnit) :
    (cleaned i r f s).modUnit r.unit g = cleaned i r (fun x => g (f x)) s := by
  rw [State.modUnit, Per4.modify, unit_cleaned]
  exact congrArg (fun units => { cleaned i r f s with units := units }) (Per4.set_set _ _ _ _)

theorem dirtyCount_congr (h : t.cache.directory = s.cache.directory) : dirtyCount t u = dirtyCount s u := by
  rw [dirtyCount, pagesIn, pagesIn, h]
  rfl

theorem dirtyCount_cleanedStore (h : StoreOut i y r s.cache) (f : MediaUnit → MediaUnit) :
    dirtyCount (cleaned i r f s) r.unit + 1 = dirtyCount s r.unit := by
  rw [← dirtyCount_cleaned h]
  exact congrArg Nat.succ (dirtyCount_congr rfl)

theorem NothingHeld.of_same (h : NothingHeld s) (hports : t.ports = s.ports) (hdirty : t.cache.dirty = s.cache.dirty) :
    NothingHeld t := by
  rw [NothingHeld, hports, hdirty]
  exact h

/-- R148: a page that was not written again is CLEAN; in a drain it counts as stored, and the last one ends the drain. -/
theorem storeSucceeds_clean (h : StoreOut i y r s.cache) (hclean : r.redirtied = false)
    (hf : f = if (s.units.get r.unit).state = .draining then MediaUnit.storedOne else MediaUnit.storeDone) :
    storeSucceeds i y s = poolChanged (endFlushes r.unit
      (if (s.units.get r.unit).state = .draining ∧ dirtyCount s r.unit = 1 then drainEnds r.unit (cleaned i r f s)
        else cleaned i r f s)) := by
  have hdone : modRecord y.page (fun r => { r with state := .clean, age := 0 })
      ((freeStoreEntry i s).modUnit y.unit fun x => { x with consecutive := 0 }) = cleaned i r .storeDone s := by
    rw [← h.page, ← h.unit]
    rfl
  have hcount := dirtyCount_cleanedStore h f
  have hlast : dirtyCount (cleaned i r f s) r.unit = 0 ↔ dirtyCount s r.unit = 1 := by omega
  have hstate : ((cleaned i r f s).units.get r.unit).state = (s.units.get r.unit).state := by
    rw [unit_cleaned, hf]
    split_ifs <;> rfl
  have hcounted : (if (s.units.get r.unit).storeDone.state = .draining then
      cleaned i r (fun x => { x.storeDone with stored := x.storeDone.stored + 1 }) s else cleaned i r .storeDone s)
      = cleaned i r f s := by
    show (if (s.units.get r.unit).state = .draining then cleaned i r .storedOne s else cleaned i r .storeDone s) = _
    rw [hf]
    split_ifs <;> rfl
  simp only [storeSucceeds, h.find?_page, hclean, Bool.false_eq_true, if_false, hdone]
  rw [← h.unit, unit_cleaned, modUnit_cleaned]
  simp only [hcounted, hstate, hlast]

/-- R122, R148: of a unit that is not DRAINING: where it was the last page to store, the FLUSHes of its nodes end. -/
theorem storeSucceeds_served (h : StoreOut i y r s.cache) (hclean : r.redirtied = false)
    (hstate : (s.units.get r.unit).state ≠ .draining) (hheld : NothingHeld s) :
    ∃ (ports : Per4 Port) (wait : List Node),
    storeSucceeds i y s = { cleaned i r .storeDone s with
      ports := ports, cache := { (cleaned i r .storeDone s).cache with entryWait := wait } }
    ∧ ∀ n, ports.get n
      = flushEnded .good (port s n) ((s.units.get r.unit).nodes.get n = true ∧ dirtyCount s r.unit = 1) := by
  obtain ⟨hwait, hdirty⟩ := hheld
  obtain ⟨ports, wait, hflushes, hended⟩ := endFlushes_eq r.unit (cleaned i r .storeDone s)
  have hports : ∀ n, ports.get n
      = flushEnded .good (port s n) ((s.units.get r.unit).nodes.get n = true ∧ dirtyCount s r.unit = 1) := fun n => by
    refine (hended n).trans (flushEnded_congr ?_)
    rw [unit_cleaned, ← dirtyCount_cleanedStore h MediaUnit.storeDone]
    exact and_congr_right fun _ => by omega
  refine ⟨ports, wait, ?_, hports⟩
  rw [storeSucceeds_clean h hclean (if_neg hstate).symm, if_neg fun hdrain => hstate hdrain.1, hflushes]
  refine poolChanged_nothingHeld ⟨fun n => ?_, hdirty⟩
  rw [hports]
  exact flushEnded_wait (hwait n)

/-- R101, R148: of a DRAINING unit with pages left to store. -/
theorem storeSucceeds_draining (h : StoreOut i y r s.cache) (hclean : r.redirtied = false)
    (hstate : (s.units.get r.unit).state = .draining) (hnodes : (s.units.get r.unit).nodes = Per4.all false)
    (hleft : 2 ≤ dirtyCount s r.unit) (hheld : NothingHeld s) : storeSucceeds i y s = cleaned i r .storedOne s := by
  rw [storeSucceeds_clean h hclean (if_pos hstate).symm, if_neg fun hdrain => by omega, endFlushes_noNodes]
  · exact poolChanged_nothingHeld (hheld.of_same rfl rfl)
  · refine nodesOf_eq_nil ?_
    rwa [unit_cleaned]

/-- R101: what the end of a drain does, where a detach waits for its reply. -/
theorem drainEnds_eq {old : Tag} (hold : (s.units.get u).detachTag = some old) : drainEnds u s = { s with
    cache := { s.cache with
      directory := s.cache.directory.filter fun r => r.unit != u
      dirty := s.cache.dirty.set u [] }
    pool := { s.pool with owners := s.pool.owners.map fun o => if o = some (.mh u) then none else o }
    units := s.units.set u (s.units.get u).retired
    link := (s.link.addReply (replyTo old 0x51#8 .done (be8 u.val ++ be32 (s.units.get u).stored))).addNotice
      (.unitState u .detached .drained (s.units.get u).fetchTimeouts (s.units.get u).consecutive) } := by
  have hunit : ((freeUnitPages u s).modUnit u MediaUnit.retired).units.get u = (s.units.get u).retired :=
    Per4.get_modify_same _ _ _
  simp only [drainEnds, hold, unitNotice, State.reply, State.notify, State.modLink, hunit]
  rfl

/-- R101: the page that becomes CLEAN last leaves the directory with the other pages of its unit. -/
theorem filter_cleaned (h : StoreOut i y r s.cache) (f : MediaUnit → MediaUnit) :
    (cleaned i r f s).cache.directory.filter (fun z => z.unit != r.unit)
      = s.cache.directory.filter fun z => z.unit != r.unit := by
  have hsame : ((fun z : DirRecord => z.unit != r.unit)
      ∘ fun z => if z.page = r.page then { z with state := .clean, age := 0 } else z) = fun z => z.unit != r.unit := by
    funext z
    rw [Function.comp_apply]
    split_ifs <;> rfl
  rw [cleaned, List.filter_map, hsame]
  refine (List.map_congr_left fun z hz => if_neg fun hpage => ?_).trans (List.map_id _)
  obtain ⟨hz, hunit⟩ := List.mem_filter.mp hz
  exact bne_iff_ne.mp hunit (congrArg DirRecord.unit (h.eq_of_page hz hpage))

/-- R101, R148: of a DRAINING unit whose last page it was. -/
theorem storeSucceeds_drained {old : Tag} (h : StoreOut i y r s.cache) (hclean : r.redirtied = false)
    (hstate : (s.units.get r.unit).state = .draining) (hold : (s.units.get r.unit).detachTag = some old)
    (hlast : dirtyCount s r.unit = 1) (hheld : NothingHeld s) :
    storeSucceeds i y s = { s with
      cache := { s.cache with
        directory := s.cache.directory.filter fun z => z.unit != r.unit
        stores := s.cache.stores.set i.val { s.cache.stores[i] with busy := none } i.isLt }
      pool := { s.pool with owners := s.pool.owners.map fun o => if o = some (.mh r.unit) then none else o }
      units := s.units.set r.unit (s.units.get r.unit).storedOne.retired
      link := (({ s.link with calls := s.link.calls.filter fun k => k != .store i } : Link).addReply
        (replyTo old 0x51#8 .done (be8 r.unit.val ++ be32 ((s.units.get r.unit).stored + 1)))).addNotice
          (.unitState r.unit .detached .drained (s.units.get r.unit).fetchTimeouts 0) } := by
  have hold' : ((cleaned i r .storedOne s).units.get r.unit).detachTag = some old := by rwa [unit_cleaned]
  have hdirty : (cleaned i r .storedOne s).cache.dirty.set r.unit [] = s.cache.dirty :=
    (congrArg (s.cache.dirty.set r.unit) (hheld.right r.unit).symm).trans (Per4.set_get _ _)
  have hunits : (cleaned i r .storedOne s).units.set r.unit (s.units.get r.unit).storedOne.retired
      = s.units.set r.unit (s.units.get r.unit).storedOne.retired := Per4.set_set _ _ _ _
  rw [storeSucceeds_clean h hclean (if_pos hstate).symm, if_pos ⟨hstate, hlast⟩, drainEnds_eq hold', unit_cleaned,
    filter_cleaned h, hdirty, hunits, endFlushes_noNodes]
  · exact poolChanged_nothingHeld (hheld.of_same rfl rfl)
  · refine nodesOf_eq_nil ?_
    rw [Per4.get_set_same]
    rfl

end

/-! ## A store that failed (R103, R149) -/

/-- R103: a unit's record after one more failure. -/
def MediaUnit.failedOnce (x : MediaUnit) : MediaUnit :=
  { x with storeFailures := x.storeFailures + 1, consecutive := min 3 (x.consecutive + 1) }

theorem storeFailure_few (hfew : (s.units.get u).consecutive < 2) :
    storeFailure u s = s.modUnit u MediaUnit.failedOnce := by
  have hunit : (s.modUnit u MediaUnit.failedOnce).units.get u = (s.units.get u).failedOnce := Per4.get_modify_same _ _ _
  refine if_neg fun hthird => ?_
  have hthree : ((s.modUnit u MediaUnit.failedOnce).units.get u).consecutive = 3 := hthird.1
  rw [hunit, MediaUnit.failedOnce] at hthree
  dsimp only at hthree
  omega

theorem storeFailure_third (htwo : (s.units.get u).consecutive = 2)
    (hserved : (s.units.get u).state = .attached ∨ (s.units.get u).state = .draining) :
    storeFailure u s = enterStoreFault u (s.modUnit u MediaUnit.failedOnce) := by
  have hunit : (s.modUnit u MediaUnit.failedOnce).units.get u = (s.units.get u).failedOnce := Per4.get_modify_same _ _ _
  refine if_pos (show ((s.modUnit u MediaUnit.failedOnce).units.get u).consecutive = 3
    ∧ (((s.modUnit u MediaUnit.failedOnce).units.get u).state = .attached
      ∨ ((s.modUnit u MediaUnit.failedOnce).units.get u).state = .draining) from ?_)
  rw [hunit]
  exact ⟨by rw [MediaUnit.failedOnce, htwo]; rfl, hserved⟩

theorem returned_modUnit (f : MediaUnit → MediaUnit) :
    (returned i y s).modUnit u f = returned i y (s.modUnit u f) := by
  rw [returned_eq, returned_eq]
  rfl

theorem units_returned (i : Fin 8) (y : Store) (s : State) : (returned i y s).units = s.units := by
  rw [returned_eq]

theorem storeFails_eq (h : StoreOut i y r s.cache) :
    storeFails i y s = issueStores storeFuel (storeFailure r.unit (returned i y s)) := by
  rw [h.unit]
  rfl

/-- R149: a page whose store failed is stored again, below the third failure in a row. -/
theorem storeFails_again (h : StoreOut i y r s.cache) (hdirty : ∀ v, s.cache.dirty.get v = [])
    (hserved : (s.units.get r.unit).state ≠ .storeFault) (hfew : (s.units.get r.unit).consecutive < 2) :
    storeFails i y s = storedAgain i r (s.modUnit r.unit MediaUnit.failedOnce) := by
  rw [storeFails_eq h, storeFailure_few (by rwa [units_returned]), returned_modUnit]
  refine issueStores_returned (s := s.modUnit r.unit MediaUnit.failedOnce) h hdirty ?_
  rw [State.modUnit, ← h.unit, Per4.get_modify_same]
  exact hserved

/-- R102: a link with the reply to a drain that a fault ends, where a detach waits for one. -/
def faultReply (u : UnitId) (x : MediaUnit) (left : Nat) (k : Link) : Link :=
  match x.detachTag with
  | some old => k.addReply (replyTo old 0x51#8 .unitFaulted (be8 u.val ++ be32 x.stored ++ be32 left))
  | none => k

/-- R102, R103: a unit's entry into STORE_FAULT but for its ports. -/
def faulted (u : UnitId) (s : State) : State := { s with
  units := s.units.modify u fun x => { x with state := .storeFault, detachTag := none }
  link := (faultReply u (s.units.get u) (dirtyCount s u) s.link).addNotice
    (.unitState u .storeFault .storeFault (s.units.get u).fetchTimeouts (s.units.get u).consecutive) }

theorem enterStoreFault_eq (u : UnitId) (s : State) : enterStoreFault u s = faultPorts u (faulted u s) := by
  have hunit : (s.modUnit u fun x => { x with state := .storeFault, detachTag := none }).units.get u
      = { s.units.get u with state := .storeFault, detachTag := none } := Per4.get_modify_same _ _ _
  cases hold : (s.units.get u).detachTag with
  | none =>
    simp only [enterStoreFault, faulted, faultReply, hold, unitNotice, State.notify, State.modLink, hunit]
    rfl
  | some old =>
    have hunit' : ((s.modUnit u fun x => { x with state := .storeFault, detachTag := none }).reply old 0x51#8 .unitFaulted
        (be8 u.val ++ be32 (s.units.get u).stored ++ be32 (dirtyCount s u))).units.get u
        = { s.units.get u with state := .storeFault, detachTag := none } := hunit
    simp only [enterStoreFault, faulted, faultReply, hold, unitNotice, State.notify, State.modLink, hunit']
    rfl

/-- R103, R149: the state after a failed store, before what its unit's third failure does: the page of its record is DIRTY
and the one page of its unit's dirty order. -/
def failed (i : Fin 8) (r : DirRecord) (s : State) : State := { s with
  cache := { s.cache with
    directory := s.cache.directory.map fun z => if z.page = r.page then { z with state := .dirty, redirtied := false } else z
    dirty := s.cache.dirty.set r.unit [{ page := r.page, moment := s.cache.joins }]
    joins := s.cache.joins + 1
    stores := s.cache.stores.set i.val { s.cache.stores[i] with busy := none } i.isLt }
  units := s.units.set r.unit (s.units.get r.unit).failedOnce
  link := { s.link with calls := s.link.calls.filter fun k => k != .store i } }

theorem modUnit_returned_eq (h : StoreOut i y r s.cache) (hdirty : ∀ v, s.cache.dirty.get v = []) :
    (returned i y s).modUnit r.unit MediaUnit.failedOnce = failed i r s := by
  have hjoin : s.cache.dirty.modify r.unit (fun l => l ++ [{ page := r.page, moment := s.cache.joins }])
      = s.cache.dirty.set r.unit [{ page := r.page, moment := s.cache.joins }] := by
    rw [Per4.modify, hdirty, List.nil_append]
  rw [returned_eq, ← h.page, ← h.unit, hjoin]
  rfl

theorem unit_failed (i : Fin 8) (r : DirRecord) (s : State) :
    (failed i r s).units.get r.unit = (s.units.get r.unit).failedOnce := Per4.get_set_same _ _ _

/-- R103, R149: the third failure in a row of a unit puts it into STORE_FAULT. -/
theorem faulted_failed (h : StoreOut i y r s.cache) (htwo : (s.units.get r.unit).consecutive = 2) :
    faulted r.unit (failed i r s) = { failed i r s with
      units := s.units.set r.unit { s.units.get r.unit with
        state := .storeFault, detachTag := none, storeFailures := (s.units.get r.unit).storeFailures + 1, consecutive := 3 }
      link := (faultReply r.unit (s.units.get r.unit) (dirtyCount s r.unit) (failed i r s).link).addNotice
        (.unitState r.unit .storeFault .storeFault (s.units.get r.unit).fetchTimeouts 3) } := by
  have hcount : dirtyCount (failed i r s) r.unit = dirtyCount s r.unit :=
    (dirtyCount_congr rfl).trans (dirtyCount_dirtied h)
  have hthree : (s.units.get r.unit).failedOnce.consecutive = 3 := by
    rw [MediaUnit.failedOnce, htwo]
    rfl
  rw [faulted, hcount, Per4.modify, unit_failed, hthree]
  exact congrArg₂ (fun units link => { failed i r s with units := units, link := link }) (Per4.set_set _ _ _ _) rfl

/-- R103, R104, R149: the third failure in a row of a unit whose stores run ends the FLUSHes of its nodes, and no store is
issued. -/
theorem storeFails_third (h : StoreOut i y r s.cache) (hheld : NothingHeld s)
    (hserved : (s.units.get r.unit).state = .attached ∨ (s.units.get r.unit).state = .draining)
    (htwo : (s.units.get r.unit).consecutive = 2) : ∃ (ports : Per4 Port) (wait : List Node),
    storeFails i y s = { faulted r.unit (failed i r s) with
      ports := ports, cache := { (failed i r s).cache with entryWait := wait } }
    ∧ ∀ n, ports.get n = flushEnded .writeFault (port s n) ((s.units.get r.unit).nodes.get n = true) := by
  obtain ⟨hwait, hdirty⟩ := hheld
  have hfails : storeFails i y s = issueStores storeFuel (faultPorts r.unit (faulted r.unit (failed i r s))) := by
    rw [storeFails_eq h, storeFailure_third (by rwa [units_returned]) (by rwa [units_returned]),
      modUnit_returned_eq h hdirty, enterStoreFault_eq]
  have hunit : (faulted r.unit (failed i r s)).units.get r.unit
      = { (s.units.get r.unit).failedOnce with state := .storeFault, detachTag := none } := by
    rw [faulted, Per4.get_modify_same, unit_failed]
  obtain ⟨ports, wait, hfault, hended⟩ := faultPorts_eq (s := faulted r.unit (failed i r s)) r.unit hwait
  refine ⟨ports, wait, ?_, fun n => (hended n).trans (flushEnded_congr ?_)⟩
  · rw [hfails, hfault]
    refine issueStores_idle ((nextToStore_single (u := r.unit) (d := { page := r.page, moment := s.cache.joins })
      (Per4.get_set_same _ _ _) fun v hv => (Per4.get_set_other _ hv _).trans (hdirty v)).trans (if_pos ?_)) _
    exact congrArg MediaUnit.state hunit
  · rw [hunit]
    rfl

end

end Sys2Proof.Machine

open Sys2Proof Sys2Proof.Machine

/-- Settles O48: a store that ended well, one that failed, the same of a DRAINING unit, and the aging timer. -/
theorem storesEndAndPagesAge : Obligations.StoresEndAndPagesAge := by
  refine ⟨?_, ?_, fun s hrun => ?_⟩
  · intro i y r x tag again s hrun hbusy hbelow hrecord hpage hunit hlba hstoring hpages hx hstate hfew hheld hunits hagain
    subst hx hagain
    have hout : StoreOut i y r s.cache := ⟨hbusy, hbelow, hrecord, hpage, hunit, hlba, hstoring, hpages⟩
    have hserved : (s.units.get r.unit).state ≠ .storeFault := by simp [hstate]
    have hdirty : ∀ v, s.cache.dirty.get v = [] := hheld.right
    refine ⟨?_, ?_⟩
    · rintro c rfl hbuffer htag
      rw [exec_stored hrun hbuffer hbusy htag]
      refine ⟨fun hclean => ?_, fun hredirtied => ?_⟩
      · obtain ⟨ports, wait, hstored, hports⟩ :=
          storeSucceeds_served (s := hunt s) hout hclean (by simp [hunt, State.modLink, hstate]) hheld
        exact ⟨_, congrArg _ hstored, rfl, rfl, rfl, hports, rfl, rfl, rfl, rfl, rfl⟩
      · exact congrArg _ (storeSucceeds_redirtied (s := hunt s) hout hredirtied hdirty hserved)
    · intro c link hc
      obtain ⟨hexec, hcalls⟩ : exec c s = .next (storeFails i y { s with link := link }) ∧ link.calls = s.link.calls := by
        rcases hc with ⟨rfl, rfl⟩ | ⟨rfl, hbuffer, rfl, htag⟩
        · exact ⟨exec_storeTimeout hrun hbusy, rfl⟩
        · exact ⟨exec_storeFailed hrun hbuffer hbusy htag, rfl⟩
      rw [hexec, ← hcalls]
      refine ⟨fun htwo => ?_, fun htwo hnone => ?_⟩
      · rw [storeFails_again (s := { s with link := link }) hout hdirty hserved htwo]
        have hfailures : (s.units.get r.unit).failedOnce = { s.units.get r.unit with
            storeFailures := (s.units.get r.unit).storeFailures + 1
            consecutive := (s.units.get r.unit).consecutive + 1 } := by
          rw [MediaUnit.failedOnce, Nat.min_eq_right (by omega)]
        rw [State.modUnit, Per4.modify, hfailures]
        rfl
      · obtain ⟨ports, wait, hfails, hports⟩ :=
          storeFails_third (s := { s with link := link }) hout hheld (.inl hstate) htwo
        rw [faulted_failed (s := { s with link := link }) hout htwo, faultReply, hnone] at hfails
        refine ⟨_, congrArg _ hfails, rfl, rfl, rfl, ?_, rfl, hports, rfl, rfl, rfl, rfl⟩
        rw [hnone]
  · intro i y r x tag old freed calls s hrun hbusy hbelow hrecord hpage hunit hlba hstoring hpages hx hstate hold hfew hheld
      hunits hfreed hcalls
    subst hx hfreed hcalls
    have hout : StoreOut i y r s.cache := ⟨hbusy, hbelow, hrecord, hpage, hunit, hlba, hstoring, hpages⟩
    have hserved : (s.units.get r.unit).state ≠ .storeFault := by simp [hstate]
    have hdirty : ∀ v, s.cache.dirty.get v = [] := hheld.right
    have hnodes : (s.units.get r.unit).nodes = Per4.all false := by
      obtain ⟨-, -, -, hidle⟩ := hunits
      exact hidle r.unit (.inr hstate)
    refine ⟨fun hbuffer htag => ?_, fun htwo => ?_⟩
    · rw [exec_stored hrun hbuffer hbusy htag]
      refine ⟨fun hclean hlast => ?_, fun hclean hleft => ?_, fun hredirtied => ?_⟩
      · exact ⟨_, congrArg _ (storeSucceeds_drained (s := hunt s) hout hclean hstate hold hlast hheld), rfl,
          fun p => Vector.getElem_map _ _, rfl, rfl, rfl, rfl, rfl, rfl, rfl, rfl, rfl, rfl⟩
      · exact congrArg _ (storeSucceeds_draining (s := hunt s) hout hclean hstate hnodes hleft hheld)
      · exact congrArg _ (storeSucceeds_redirtied (s := hunt s) hout hredirtied hdirty hserved)
    · obtain ⟨ports, wait, hfails, hports⟩ := storeFails_third hout hheld (.inr hstate) htwo
      rw [faulted_failed hout htwo, faultReply, hold] at hfails
      refine ⟨_, (exec_storeTimeout hrun hbusy).trans (congrArg _ hfails), rfl, rfl, rfl, rfl, rfl, rfl,
        Per4.ext_get fun n => (hports n).trans (flushEnded_never ?_), rfl, rfl, rfl⟩
      rw [hnodes, Per4.get_all]
      exact Bool.false_ne_true
  · rw [exec_agingTick hrun]
    rfl
end

section
/-!
SUPPORT. The tables of the engine as claims on the records of the directory (R130, R135, R146, R147): a WAITING block of
a fetch entry claims a FILLING page, a store entry a STORING one, a place in a dirty order a DIRTY one. The law of the
cache says that every claim names a record in its state, that every record that is not CLEAN is named, and by one claim
alone. Between the moment in which a page is obtained and the one in which its fetch is issued, its block is loose: it
claims its page itself.
-/

namespace Sys2Proof.Machine

/-! ## Claims -/

/-- What makes a page anything but CLEAN. -/
inductive Claim where
  | fetch (i : Fin 16) (u : UnitId) (lba : Nat)
  | loose (u : UnitId) (lba : Nat)
  | store (i : Fin 8) (y : Store)
  | dirty (u : UnitId) (d : DirtyPage)

/-- The state that a claim asks of its page. -/
def Claim.state : Claim → PageState
  | .fetch _ _ _ | .loose _ _ => .filling
  | .store _ _ => .storing
  | .dirty _ _ => .dirty

/-- A claim is of the page of this record. -/
def Claim.names (r : DirRecord) : Claim → Prop
  | .fetch _ u lba | .loose u lba => r.unit = u ∧ r.lba = lba
  | .store _ y => r.page = y.page ∧ r.unit = y.unit ∧ r.lba = y.lba
  | .dirty u d => r.page = d.page ∧ r.unit = u

/-- R135: a fetch entry awaits a block. -/
def FetchEntry.Awaits (e : FetchEntry) (u : UnitId) (lba : Nat) : Prop :=
  ∃ f, e.busy = some f ∧ f.unit = u ∧ lba ∈ waitingBlocks f

/-- The claims of a cache, with the blocks that are loose. -/
def Live (X : UnitId → Nat → Prop) (c : Cache) : Claim → Prop
  | .fetch i u lba => (c.fetches[i]).Awaits u lba
  | .loose u lba => X u lba
  | .store i y => (c.stores[i]).busy = some y
  | .dirty u d => d ∈ c.dirty.get u

/-- R115, R130, R135, R146, R147: the tables agree with the directory, the loose blocks counted among them. -/
structure Tables (X : UnitId → Nat → Prop) (c : Cache) : Prop where
  pages : (c.directory.map fun r => r.page).Nodup
  blocks : (c.directory.map fun r => (r.unit, r.lba)).Nodup
  held : ∀ k, Live X c k → ∃ r ∈ c.directory, k.names r ∧ r.state = k.state
  claimed : ∀ r ∈ c.directory, r.state ≠ .clean → ∃ k, Live X c k ∧ k.names r
  once : ∀ r ∈ c.directory, ∀ k k', Live X c k → Live X c k' → k.names r → k'.names r → k = k'
  order : ∀ u, ((c.dirty.get u).map fun d => d.page).Nodup

/-- No block is loose. -/
abbrev noLoose : UnitId → Nat → Prop := fun _ _ => False

section
variable {X X' : UnitId → Nat → Prop} {c d : Cache} {r x : DirRecord} {k k' : Claim}

theorem Tables.eq_of_page (h : Tables X c) (hr : r ∈ c.directory) (hx : x ∈ c.directory) (e : r.page = x.page) : r = x :=
  List.inj_on_of_nodup_map h.pages hr hx e

theorem Tables.eq_of_block (h : Tables X c) (hr : r ∈ c.directory) (hx : x ∈ c.directory) (hu : r.unit = x.unit)
    (hl : r.lba = x.lba) : r = x :=
  List.inj_on_of_nodup_map h.blocks hr hx (Prod.ext hu hl)

/-- A claim names at most one record. -/
theorem Tables.eq_of_names (h : Tables X c) (hr : r ∈ c.directory) (hx : x ∈ c.directory) (hkr : k.names r)
    (hkx : k.names x) : r = x := by
  cases k with
  | fetch i u lba | loose u lba => exact h.eq_of_block hr hx (hkr.1.trans hkx.1.symm) (hkr.2.trans hkx.2.symm)
  | store i y => exact h.eq_of_page hr hx (hkr.1.trans hkx.1.symm)
  | dirty u d => exact h.eq_of_page hr hx (hkr.1.trans hkx.1.symm)

/-- The record that a claim names is in the claim's state. -/
theorem Tables.state_eq (h : Tables X c) (hr : r ∈ c.directory) (hk : Live X c k) (hkr : k.names r) : r.state = k.state := by
  obtain ⟨x, hx, hkx, hstate⟩ := h.held k hk
  rwa [h.eq_of_names hr hx hkr hkx]

theorem Claim.state_ne_clean (k : Claim) : k.state ≠ .clean := by
  cases k <;> simp [Claim.state]

/-- A CLEAN record is named by no claim. -/
theorem Tables.not_named (h : Tables X c) (hr : r ∈ c.directory) (hclean : r.state = .clean) (hk : Live X c k) :
    ¬ k.names r := fun hkr =>
  k.state_ne_clean ((h.state_eq hr hk hkr).symm.trans hclean)

/-- Records with the same page, unit and LBA are named by the same claims. -/
theorem Claim.names_congr (hp : x.page = r.page) (hu : x.unit = r.unit) (hl : x.lba = r.lba) : k.names x ↔ k.names r := by
  cases k <;> simp only [Claim.names, hp, hu, hl]

/-! ## What keeps the tables in agreement -/

/-- A change of records that keeps the page, unit and LBA of each. -/
structure SamePlace (φ : DirRecord → DirRecord) : Prop where
  page : ∀ r, (φ r).page = r.page
  unit : ∀ r, (φ r).unit = r.unit
  lba : ∀ r, (φ r).lba = r.lba

/-- The change of one page's record, where it keeps page, unit and LBA. -/
theorem samePlace_at {f : DirRecord → DirRecord} (p : PageId) (hf : SamePlace f) :
    SamePlace fun r => if r.page = p then f r else r := by
  refine ⟨fun r => ?_, fun r => ?_, fun r => ?_⟩ <;> split
  · exact hf.page r
  · rfl
  · exact hf.unit r
  · rfl
  · exact hf.lba r
  · rfl

/-- The claim on one record, and its state, change together; every other record and claim stays. -/
theorem Tables.rebook {f : DirRecord → DirRecord} {gone come : Option Claim} (h : Tables X c) (hr : r ∈ c.directory)
    (hdir : d.directory = c.directory.map fun z => if z.page = r.page then f z else z) (hf : SamePlace f)
    (hlive : ∀ k, Live X' d k ↔ Live X c k ∧ k ∉ gone ∨ k ∈ come) (hgone : ∀ k ∈ gone, Live X c k ∧ k.names r)
    (hfree : gone = none → r.state = .clean) (hcome : ∀ k ∈ come, k.names r ∧ (f r).state = k.state)
    (hclean : come = none → (f r).state = .clean) (horder : ∀ u, ((d.dirty.get u).map fun d => d.page).Nodup) :
    Tables X' d := by
  generalize hφdef : (fun z : DirRecord => if z.page = r.page then f z else z) = φ at hdir
  have hφ : SamePlace φ := hφdef ▸ samePlace_at r.page hf
  have hφr : φ r = f r := by
    subst hφdef
    exact if_pos rfl
  have hstate : ∀ x, x.page ≠ r.page → (φ x).state = x.state := fun x hx => by
    subst hφdef
    exact congrArg DirRecord.state (if_neg hx)
  have honly : ∀ k, Live X c k → k.names r → k ∈ gone := fun k hk hkr => by
    cases gone with
    | none => exact absurd hkr (h.not_named hr (hfree rfl) hk)
    | some k₁ =>
      obtain ⟨hk₁, hk₁r⟩ := hgone k₁ rfl
      exact congrArg some (h.once r hr k₁ k hk₁ hk hk₁r hkr)
  have hother : ∀ k, ¬ k.names r → (Live X' d k ↔ Live X c k) := fun k hkr => by
    have hstays : k ∉ gone := fun e => hkr (hgone k e).2
    have hnone : k ∉ come := fun e => hkr (hcome k e).1
    rw [hlive, and_iff_left hstays, or_iff_left hnone]
  have hthis : ∀ k, k.names r → (Live X' d k ↔ k ∈ come) := fun k hkr => by
    rw [hlive]
    exact or_iff_right fun ⟨hk, hnot⟩ => hnot (honly k hk hkr)
  have hnames : ∀ {k : Claim} {y : DirRecord}, k.names (φ y) ↔ k.names y :=
    fun {k y} => Claim.names_congr (hφ.page y) (hφ.unit y) (hφ.lba y)
  have hmem : ∀ {y}, y ∈ d.directory ↔ ∃ z ∈ c.directory, φ z = y := fun {y} => by rw [hdir, List.mem_map]
  refine ⟨?_, ?_, fun k hk => ?_, fun y hy hnot => ?_, fun y hy k k' hk hk' hky hky' => ?_, horder⟩
  · rw [hdir, List.map_map, Function.comp_def]
    simpa only [hφ.page] using h.pages
  · rw [hdir, List.map_map, Function.comp_def]
    simpa only [hφ.unit, hφ.lba] using h.blocks
  · by_cases hkr : k.names r
    · have hkey := hcome k ((hthis k hkr).mp hk)
      exact ⟨φ r, hmem.mpr ⟨r, hr, rfl⟩, hnames.mpr hkr, hφr ▸ hkey.2⟩
    · obtain ⟨z, hz, hkz, hstz⟩ := h.held k ((hother k hkr).mp hk)
      refine ⟨φ z, hmem.mpr ⟨z, hz, rfl⟩, hnames.mpr hkz, ?_⟩
      rw [hstate z fun e => hkr (h.eq_of_page hz hr e ▸ hkz), hstz]
  · obtain ⟨z, hz, rfl⟩ := hmem.mp hy
    by_cases e : z.page = r.page
    · obtain rfl := h.eq_of_page hz hr e
      cases come with
      | none => exact absurd (hφr ▸ hclean rfl) hnot
      | some k =>
        obtain ⟨hk, -⟩ := hcome k rfl
        exact ⟨k, (hthis k hk).mpr rfl, hnames.mpr hk⟩
    · rw [hstate z e] at hnot
      obtain ⟨k, hk, hkz⟩ := h.claimed z hz hnot
      refine ⟨k, (hother k fun hkr => e ?_).mpr hk, hnames.mpr hkz⟩
      rw [h.eq_of_names hz hr hkz hkr]
  · obtain ⟨z, hz, rfl⟩ := hmem.mp hy
    rw [hnames] at hky hky'
    by_cases e : z.page = r.page
    · obtain rfl := h.eq_of_page hz hr e
      exact Option.some.inj (((hthis k hky).mp hk).symm.trans ((hthis k' hky').mp hk'))
    · have hne : ∀ {k : Claim}, k.names z → ¬ k.names r := fun hkz hkr => e (by rw [h.eq_of_names hz hr hkz hkr])
      exact h.once z hz k k' ((hother k (hne hky)).mp hk) ((hother k' (hne hky')).mp hk') hky hky'

/-- What no claim looks at may change in the records. -/
theorem Tables.redress {φ : DirRecord → DirRecord} (h : Tables X c) (hdir : d.directory = c.directory.map φ)
    (hφ : SamePlace φ) (hstate : ∀ r ∈ c.directory, (φ r).state = r.state) (hlive : ∀ k, Live X d k ↔ Live X c k)
    (hdirty : d.dirty = c.dirty) : Tables X d := by
  have hnames : ∀ {k : Claim} {y : DirRecord}, k.names (φ y) ↔ k.names y :=
    fun {k y} => Claim.names_congr (hφ.page y) (hφ.unit y) (hφ.lba y)
  have hmem : ∀ {y}, y ∈ d.directory ↔ ∃ z ∈ c.directory, φ z = y := fun {y} => by rw [hdir, List.mem_map]
  refine ⟨?_, ?_, fun k hk => ?_, fun y hy hnot => ?_, fun y hy k k' hk hk' hky hky' => ?_, hdirty ▸ h.order⟩
  · rw [hdir, List.map_map, Function.comp_def]
    simpa only [hφ.page] using h.pages
  · rw [hdir, List.map_map, Function.comp_def]
    simpa only [hφ.unit, hφ.lba] using h.blocks
  · obtain ⟨z, hz, hkz, hstz⟩ := h.held k ((hlive k).mp hk)
    exact ⟨φ z, hmem.mpr ⟨z, hz, rfl⟩, hnames.mpr hkz, (hstate z hz).trans hstz⟩
  · obtain ⟨z, hz, rfl⟩ := hmem.mp hy
    rw [hstate z hz] at hnot
    obtain ⟨k, hk, hkz⟩ := h.claimed z hz hnot
    exact ⟨k, (hlive k).mpr hk, hnames.mpr hkz⟩
  · obtain ⟨z, hz, rfl⟩ := hmem.mp hy
    exact h.once z hz k k' ((hlive k).mp hk) ((hlive k').mp hk') (hnames.mp hky) (hnames.mp hky')

/-- The records of a directory are as they are, and so is what claims them. -/
theorem Tables.congr (h : Tables X c) (hdir : d.directory = c.directory) (hlive : ∀ k, Live X' d k ↔ Live X c k)
    (hdirty : d.dirty = c.dirty) : Tables X' d where
  pages := hdir ▸ h.pages
  blocks := hdir ▸ h.blocks
  held k hk := hdir ▸ h.held k ((hlive k).mp hk)
  claimed r hr hnot := by
    obtain ⟨k, hk, hkr⟩ := h.claimed r (hdir ▸ hr) hnot
    exact ⟨k, (hlive k).mpr hk, hkr⟩
  once r hr k k' hk hk' := h.once r (hdir ▸ hr) k k' ((hlive k).mp hk) ((hlive k').mp hk')
  order := hdirty ▸ h.order

/-- Records leave, and with them the claims on them. -/
theorem Tables.sublist (h : Tables X c) (hsub : d.directory.Sublist c.directory)
    (hlive : ∀ k, Live X' d k ↔ Live X c k ∧ ∀ r ∈ c.directory, k.names r → r ∈ d.directory)
    (horder : ∀ u, (d.dirty.get u).Sublist (c.dirty.get u)) : Tables X' d where
  pages := h.pages.sublist (hsub.map _)
  blocks := h.blocks.sublist (hsub.map _)
  held k hk := by
    obtain ⟨hk, hstays⟩ := (hlive k).mp hk
    obtain ⟨r, hr, hkr, hstate⟩ := h.held k hk
    exact ⟨r, hstays r hr hkr, hkr, hstate⟩
  claimed r hr hnot := by
    obtain ⟨k, hk, hkr⟩ := h.claimed r (hsub.subset hr) hnot
    exact ⟨k, (hlive k).mpr ⟨hk, fun x hx hkx => h.eq_of_names hx (hsub.subset hr) hkx hkr ▸ hr⟩, hkr⟩
  once r hr k k' hk hk' := h.once r (hsub.subset hr) k k' ((hlive k).mp hk).1 ((hlive k').mp hk').1
  order u := (h.order u).sublist ((horder u).map _)

/-- R133: a page just obtained gets its FILLING record, and its block is loose. -/
theorem Tables.insert (h : Tables X c) (hdir : d.directory = insertRecord r c.directory)
    (hpage : ∀ x ∈ c.directory, x.page ≠ r.page) (hblock : ∀ x ∈ c.directory, ¬ (x.unit = r.unit ∧ x.lba = r.lba))
    (hstate : r.state = .filling) (hlive : ∀ k, Live X' d k ↔ Live X c k ∨ k = .loose r.unit r.lba)
    (hdirty : d.dirty = c.dirty) : Tables X' d := by
  have hperm : d.directory.Perm (r :: c.directory) := hdir ▸ insertRecord_perm r c.directory
  have hmem : ∀ {y}, y ∈ d.directory ↔ y = r ∨ y ∈ c.directory := fun {y} => hperm.mem_iff.trans List.mem_cons
  have hfree : ∀ k, Live X c k → ¬ k.names r := fun k hk hkr => by
    obtain ⟨x, hx, hkx, -⟩ := h.held k hk
    cases k with
    | fetch i u lba | loose u lba => exact hblock x hx ⟨hkx.1.trans hkr.1.symm, hkx.2.trans hkr.2.symm⟩
    | store i y => exact hpage x hx (hkx.1.trans hkr.1.symm)
    | dirty u d => exact hpage x hx (hkx.1.trans hkr.1.symm)
  have hnew : ∀ x ∈ c.directory, ¬ (Claim.loose r.unit r.lba).names x := fun x hx => hblock x hx
  refine ⟨?_, ?_, fun k hk => ?_, fun y hy hnot => ?_, fun y hy k k' hk hk' hky hky' => ?_, hdirty ▸ h.order⟩
  · refine ((hperm.map _).nodup_iff).mpr (List.nodup_cons.mpr ⟨fun hr => ?_, h.pages⟩)
    obtain ⟨x, hx, e⟩ := List.mem_map.mp hr
    exact hpage x hx e
  · refine ((hperm.map _).nodup_iff).mpr (List.nodup_cons.mpr ⟨fun hr => ?_, h.blocks⟩)
    obtain ⟨x, hx, e⟩ := List.mem_map.mp hr
    exact hblock x hx (Prod.mk.inj e)
  · rcases (hlive k).mp hk with hk | rfl
    · obtain ⟨x, hx, hkx, hst⟩ := h.held k hk
      exact ⟨x, hmem.mpr (.inr hx), hkx, hst⟩
    · exact ⟨r, hmem.mpr (.inl rfl), ⟨rfl, rfl⟩, hstate⟩
  · rcases hmem.mp hy with rfl | hy
    · exact ⟨.loose y.unit y.lba, (hlive _).mpr (.inr rfl), rfl, rfl⟩
    · obtain ⟨k, hk, hky⟩ := h.claimed y hy hnot
      exact ⟨k, (hlive k).mpr (.inl hk), hky⟩
  · rcases hmem.mp hy with rfl | hy
    · rcases (hlive k).mp hk with hk | rfl
      · exact absurd hky (hfree k hk)
      · rcases (hlive k').mp hk' with hk' | rfl
        · exact absurd hky' (hfree k' hk')
        · rfl
    · rcases (hlive k).mp hk with hk | rfl
      · rcases (hlive k').mp hk' with hk' | rfl
        · exact h.once y hy k k' hk hk' hky hky'
        · exact absurd hky' (hnew y hy)
      · exact absurd hky (hnew y hy)

/-- R135: claims go over to others that name the same records in the same state. -/
theorem Tables.relabel (f : Claim → Claim) (h : Tables X c) (hdir : d.directory = c.directory)
    (hlive : ∀ k, Live X' d k ↔ ∃ k₀, Live X c k₀ ∧ f k₀ = k) (hnames : ∀ k r, (f k).names r ↔ k.names r)
    (hstate : ∀ k, (f k).state = k.state) (hdirty : d.dirty = c.dirty) : Tables X' d where
  pages := hdir ▸ h.pages
  blocks := hdir ▸ h.blocks
  held k hk := by
    obtain ⟨k₀, hk₀, rfl⟩ := (hlive k).mp hk
    obtain ⟨r, hr, hkr, hst⟩ := h.held k₀ hk₀
    exact ⟨r, hdir ▸ hr, (hnames _ _).mpr hkr, hst.trans (hstate _).symm⟩
  claimed r hr hnot := by
    obtain ⟨k, hk, hkr⟩ := h.claimed r (hdir ▸ hr) hnot
    exact ⟨f k, (hlive _).mpr ⟨k, hk, rfl⟩, (hnames _ _).mpr hkr⟩
  once r hr k k' hk hk' hkr hkr' := by
    obtain ⟨k₀, hk₀, rfl⟩ := (hlive k).mp hk
    obtain ⟨k₁, hk₁, rfl⟩ := (hlive k').mp hk'
    rw [h.once r (hdir ▸ hr) k₀ k₁ hk₀ hk₁ ((hnames _ _).mp hkr) ((hnames _ _).mp hkr')]
  order := hdirty ▸ h.order

end

end Sys2Proof.Machine
end

section
/-!
SUPPORT. The law of the cache and of the waiting ports in the form that a step keeps (`EngineBut`): every page in its
place (`PoolHolds`), the tables in agreement (`Tables`), the fetches for units in service, the dirty counts within their
limits, and every port that waits on a page on one that is FILLING, but for the ports that are about to be served. With
it the part of the state that it speaks of (`engineView`).
-/

namespace Sys2Proof.Machine

/-- R93: a unit that nodes can have. -/
def InService (s : State) (u : UnitId) : Prop :=
  (s.units.get u).state = .attached ∨ (s.units.get u).state = .storeFault

/-- R130: a block has a FILLING page. -/
def FillingBlock (s : State) (u : UnitId) (lba : Nat) : Prop :=
  ∃ r ∈ s.cache.directory, r.unit = u ∧ r.lba = lba ∧ r.state = .filling

/-- R115: the next block of a port has a FILLING page of its node's unit. -/
def Awaiting (s : State) (n : Node) : Prop :=
  ∃ a u, (port s n).active = some a ∧ a.kind = .read ∧ unitOf s n = some u ∧ FillingBlock s u (nextBlock a (port s n))

/-- No port is left out. -/
abbrev noPort : Node → Prop := fun _ => False

/-- The law of the engine with the blocks `X` loose and the ports `Y` about to be served; what it says of waiting ports
holds where `w` does. -/
structure EngineBut (w : Prop) (X : UnitId → Nat → Prop) (Y : Node → Prop) (s : State) : Prop where
  pool : PoolHolds s
  tables : Tables X s.cache
  fetching : ∀ (i : Fin 16) (f : Fetch), (s.cache.fetches[i]).busy = some f → InService s f.unit
  limits : ∀ u, dirtyCount s u ≤ (s.units.get u).dirtyLimit
  served : ∀ (u : UnitId) (n : Node), (s.units.get u).nodes.get n → InService s u
  waits : w → ∀ n, (port s n).wait = .page → Awaiting s n ∨ Y n ∧ (port s n).active.isSome

/-- The law of the engine. -/
abbrev EngineHolds (w : Prop) (s : State) : Prop := EngineBut w noLoose noPort s

/-- The part of a state that the law of the engine speaks of, besides that of the pool. -/
def engineView (s : State) : List DirRecord × Vector FetchEntry 16 × Vector StoreEntry 8 × Per4 (List DirtyPage)
    × Per4 (Option ActiveCommand × List Slot × Wait) × Per4 (UnitState × Per4 Bool × Nat) :=
  (s.cache.directory, s.cache.fetches, s.cache.stores, s.cache.dirty, s.ports.map fun p => (p.active, p.slots, p.wait),
    s.units.map fun x => (x.state, x.nodes, x.dirtyLimit))

section
variable {w : Prop} {X X' : UnitId → Nat → Prop} {Y Y' : Node → Prop} {s t : State} {n m : Node} {u v : UnitId} {lba : Nat}

/-! ## What the law speaks of -/

theorem live_congr {c d : Cache} (hf : d.fetches = c.fetches) (hs : d.stores = c.stores) (hd : d.dirty = c.dirty)
    (hX : ∀ u lba, X' u lba ↔ X u lba) (k : Claim) : Live X' d k ↔ Live X c k := by
  cases k <;> simp only [Live, hf, hs, hd, hX]

theorem unitOf_congr (h : ∀ u, (t.units.get u).nodes = (s.units.get u).nodes) (n : Node) : unitOf t n = unitOf s n := by
  simp only [unitOf, h]

theorem FillingBlock.congr (h : FillingBlock s u lba) (hd : t.cache.directory = s.cache.directory) : FillingBlock t u lba := by
  obtain ⟨r, hr, hr'⟩ := h
  exact ⟨r, hd ▸ hr, hr'⟩

/-- What the law of the engine does not speak of, and what the law of the pool allows, may change. -/
theorem EngineBut.sameEngine (h : EngineBut w X Y s) (hpool : PoolHolds t) (e : engineView t = engineView s) :
    EngineBut w X Y t := by
  simp only [engineView, Prod.mk.injEq] at e
  obtain ⟨hdir, hfetches, hstores, hdirty, hports, hunits⟩ := e
  have hport : ∀ n, (port t n).active = (port s n).active ∧ (port t n).slots = (port s n).slots
      ∧ (port t n).wait = (port s n).wait := fun n => by
    simpa [port] using congrArg (·.get n) hports
  have hunit : ∀ v, (t.units.get v).state = (s.units.get v).state ∧ (t.units.get v).nodes = (s.units.get v).nodes
      ∧ (t.units.get v).dirtyLimit = (s.units.get v).dirtyLimit := fun v => by
    simpa using congrArg (·.get v) hunits
  have hservice : ∀ v, InService t v ↔ InService s v := fun v => by rw [InService, (hunit v).1, InService]
  refine ⟨hpool, h.tables.congr hdir (live_congr hfetches hstores hdirty fun _ _ => Iff.rfl) hdirty,
    fun i f hf => (hservice _).mpr (h.fetching i f (hfetches ▸ hf)), fun v => ?_, fun v n hn => ?_, fun hw n hn => ?_⟩
  · rw [dirtyCount_congr hdir, (hunit v).2.2]
    exact h.limits v
  · rw [(hunit v).2.1] at hn
    exact (hservice v).mpr (h.served v n hn)
  · obtain ⟨hactive, hslots, hwait⟩ := hport n
    rw [hactive]
    refine (h.waits hw n (hwait ▸ hn)).imp_left fun ⟨a, v, ha, hread, hv, hfill⟩ => ?_
    refine ⟨a, v, hactive.trans ha, hread, (unitOf_congr (fun v => (hunit v).2.1) n).trans hv, FillingBlock.congr ?_ hdir⟩
    rwa [nextBlock, hslots]

/-- What the law does not speak of may change. -/
protected theorem EngineBut.same (h : EngineBut w X Y s) (hp : poolView t = poolView s) (e : engineView t = engineView s) :
    EngineBut w X Y t :=
  h.sameEngine (h.pool.same hp) e

/-- The same blocks are loose. -/
theorem EngineBut.loosely (h : EngineBut w X Y s) (hX : ∀ u lba, X' u lba ↔ X u lba) : EngineBut w X' Y s :=
  { h with tables := h.tables.congr rfl (live_congr rfl rfl rfl hX) rfl }

/-- The ports that are left out need not wait. -/
theorem EngineBut.leave (h : EngineBut w X Y s)
    (hY : w → ∀ n, (port s n).wait = .page → Y n ∧ (port s n).active.isSome → Awaiting s n ∨ Y' n) : EngineBut w X Y' s :=
  { h with
    waits := fun hw n hn => (h.waits hw n hn).elim .inl fun hn' =>
      (hY hw n hn hn').imp_right fun hY' => ⟨hY', hn'.2⟩ }

theorem EngineBut.mono (h : EngineBut w X Y s) (hY : ∀ n, Y n → Y' n) : EngineBut w X Y' s :=
  h.leave fun _ n _ hn => .inr (hY n hn.1)

theorem EngineBut.unitOf_inService (h : EngineBut w X Y s) (e : unitOf s n = some u) : InService s u :=
  h.served u n (by simpa using List.find?_some e)

theorem InService.ne_detached (h : InService s u) : (s.units.get u).state ≠ .detached := by
  rcases h with h | h <;> rw [h] <;> decide

theorem InService.congr (h : InService s u) (e : t.units = s.units) : InService t u := by
  rwa [InService, e]

/-! ## Changes of the engine's tables -/

theorem mem_portsWaitingOn : n ∈ portsWaitingOn s u lba
    ↔ (port s n).wait = .page ∧ unitOf s n = some u ∧ ∃ a, (port s n).active = some a ∧ nextBlock a (port s n) = lba :=
        by
  rw [portsWaitingOn, List.mem_filter, and_iff_right (mem_allNodes n)]
  cases (port s n).active <;> simp [and_assoc]

/-- The tables change, the ports and units stay: a block that stays FILLING still has its waiting ports. -/
theorem EngineBut.tabled (h : EngineBut w X Y s) (hpool : PoolHolds t) (hports : t.ports = s.ports)
    (hunits : t.units = s.units) (ht : Tables X' t.cache)
    (hfetch : ∀ (i : Fin 16) (f : Fetch), (t.cache.fetches[i]).busy = some f → InService s f.unit)
    (hlimit : ∀ u, dirtyCount t u ≤ (s.units.get u).dirtyLimit)
    (hfill : ∀ u lba, FillingBlock s u lba → FillingBlock t u lba ∨ (w → ∀ n ∈ portsWaitingOn s u lba, Y' n))
    (hY : ∀ n, Y n → Y' n) : EngineBut w X' Y' t := by
  have hport : ∀ n, port t n = port s n := fun n => by rw [port, hports, port]
  have hunit : ∀ n, unitOf t n = unitOf s n := unitOf_congr fun u => by rw [hunits]
  refine ⟨hpool, ht, fun i f hf => (hfetch i f hf).congr hunits, fun u => ?_, fun u n hn => ?_, fun hw n hn => ?_⟩
  · rw [hunits]
    exact hlimit u
  · rw [hunits] at hn
    exact (h.served u n hn).congr hunits
  · rw [hport] at hn ⊢
    rcases h.waits hw n hn with ⟨a, u, ha, hread, hu, hblock⟩ | ⟨hn', hactive⟩
    · rcases hfill u _ hblock with hblock | hserve
      · rw [← hport] at ha hblock
        exact .inl ⟨a, u, ha, hread, (hunit n).trans hu, hblock⟩
      · exact .inr ⟨hserve hw n (mem_portsWaitingOn.mpr ⟨hn, hu, a, ha, rfl⟩), by simp [ha]⟩
    · exact .inr ⟨hY n hn', hactive⟩

/-- A port changes: it waits on a FILLING page still, or is left out. -/
theorem EngineBut.ported {f : Port → Port} (h : EngineBut w X Y s)
    (hthis : w → (f (port s n)).wait = .page → Awaiting (s.modPort n f) n ∨ Y' n ∧ (f (port s n)).active.isSome)
    (hother : ∀ m, m ≠ n → Y m → Y' m) : EngineBut w X Y' (s.modPort n f) := by
  refine ⟨h.pool.same (poolView_modPort n f s), h.tables, h.fetching, h.limits, h.served, fun hw m hm => ?_⟩
  by_cases e : m = n
  · subst e
    have hport : port (s.modPort m f) m = (f (port s m)).settleTimer := Per4.get_modify_same _ _ _
    rw [hport] at hm ⊢
    exact hthis hw hm
  · have hport : port (s.modPort n f) m = port s m := Per4.get_modify_other _ e _
    rw [hport] at hm ⊢
    refine (h.waits hw m hm).imp (fun ⟨a, u, ha, hread, hu, hblock⟩ => ?_) (And.imp_left (hother m e))
    rw [← hport] at ha hblock
    exact ⟨a, u, ha, hread, hu, hblock⟩

/-- A port that waits on no page any more is not left out. -/
theorem EngineBut.served_port {f : Port → Port} (h : EngineBut w X Y s) (hwait : (f (port s n)).wait ≠ .page)
    (hY : ∀ m, m ≠ n → Y m → Y' m) : EngineBut w X Y' (s.modPort n f) :=
  h.ported (fun _ e => absurd e hwait) hY

/-- The records may change what no law speaks of. -/
theorem EngineBut.redressed {f : DirRecord → DirRecord} (h : EngineBut w X Y s) (p : PageId) (hf : SamePlace f)
    (hstate : ∀ r, (f r).state = r.state) : EngineBut w X Y (modRecord p f s) := by
  have hplace := samePlace_at p hf
  have hst : ∀ r : DirRecord, (if r.page = p then f r else r).state = r.state := fun r => by
    split
    · exact hstate r
    · rfl
  have hcount : ∀ u st, pagesIn (modRecord p f s) u st = pagesIn s u st := fun u st => by
    show (s.cache.directory.map _).countP _ = _
    rw [List.countP_map]
    refine List.countP_congr fun r _ => ?_
    rw [Function.comp_apply, hst, hplace.unit]
  refine h.tabled (h.pool.same (poolView_modRecord hf.page hf.unit)) rfl rfl
    (h.tables.redress rfl hplace (fun r _ => hst r) (fun _ => Iff.rfl) rfl) h.fetching (fun u => ?_) (fun u lba hb =>
        ?_)
    fun _ => id
  · rw [dirtyCount, hcount, hcount]
    exact h.limits u
  · obtain ⟨r, hr, hu, hlba, hfill⟩ := hb
    exact .inl ⟨_, List.mem_map_of_mem hr, (hplace.unit r).trans hu, (hplace.lba r).trans hlba, (hst r).trans hfill⟩

end

end Sys2Proof.Machine
end

section
/-!
SUPPORT. What the Boot Supervisor, the Power Sequencer, the link, the loader and the consoles do leaves what the law of
the engine speaks of alone (`engineView`), and so does every request but POOL CONFIG, UNIT ATTACH, UNIT DETACH and
CLEAR.
-/

namespace Sys2Proof.Machine

section
variable {s t : State} {n : Node} {v : UnitId}

/-! ## The updates -/

@[simp] theorem engineView_modLines (f : Lines → Lines) (s : State) : engineView (s.modLines f) = engineView s := rfl
@[simp] theorem engineView_modPower (f : Sequencer → Sequencer) (s : State) :
    engineView (s.modPower f) = engineView s := rfl
@[simp] theorem engineView_modRam (f : List Host.Cell → List Host.Cell) (s : State) :
    engineView (s.modRam f) = engineView s := rfl
@[simp] theorem engineView_modPool (f : Pool → Pool) (s : State) : engineView (s.modPool f) = engineView s := rfl
@[simp] theorem engineView_modBoot (f : Boot → Boot) (s : State) : engineView (s.modBoot f) = engineView s := rfl
@[simp] theorem engineView_modLink (f : Link → Link) (s : State) : engineView (s.modLink f) = engineView s := rfl
@[simp] theorem engineView_modLoader (f : Loader → Loader) (s : State) : engineView (s.modLoader f) = engineView s :=
    rfl
@[simp] theorem engineView_modConsole (n : Node) (f : Console → Console) (s : State) :
    engineView (s.modConsole n f) = engineView s := rfl
@[simp] theorem engineView_modLine (n : Node) (l : LineId) (f : Line → Line) (s : State) :
    engineView (s.modLine n l f) = engineView s := rfl
@[simp] theorem engineView_setAction (n : Node) (a : Option Action) (s : State) :
    engineView (s.setAction n a) = engineView s := rfl
@[simp] theorem engineView_setSlot (n : Node) (k : Option RecoveryKind) (s : State) :
    engineView (s.setSlot n k) = engineView s := rfl
@[simp] theorem engineView_modSupervisor (n : Node) (f : Supervisor → Supervisor) (s : State) :
    engineView (s.modSupervisor n f) = engineView s := rfl
@[simp] theorem engineView_clearPartials (n : Node) (s : State) : engineView (s.clearPartials n) = engineView s := rfl
@[simp] theorem engineView_notify (k : Notice) (s : State) : engineView (s.notify k) = engineView s := rfl
@[simp] theorem engineView_reply (tag : Tag) (kind : Byte) (r : Result) (d : List Byte) (s : State) :
    engineView (s.reply tag kind r d) = engineView s := rfl
@[simp] theorem engineView_drew (k : Nat) (s : State) : engineView (s.drew k) = engineView s := rfl
@[simp] theorem engineView_mark (n : Node) (k : MarkKind) (s : State) : engineView (s.mark n k) = engineView s := rfl

/-- The engine may change but for its tables. -/
@[simp] theorem engineView_modCache {f : Cache → Cache} (hd : (f s.cache).directory = s.cache.directory)
    (hf : (f s.cache).fetches = s.cache.fetches) (hs : (f s.cache).stores = s.cache.stores)
    (hy : (f s.cache).dirty = s.cache.dirty) : engineView (s.modCache f) = engineView s := by
  simp only [engineView, State.modCache, hd, hf, hs, hy]

/-- A port may change but for its command, slots and wait. -/
@[simp] theorem engineView_modPort {f : Port → Port} (ha : (f (s.ports.get n)).active = (s.ports.get n).active)
    (hs : (f (s.ports.get n)).slots = (s.ports.get n).slots) (hw : (f (s.ports.get n)).wait = (s.ports.get n).wait) :
    engineView (s.modPort n f) = engineView s := by
  have hports := Per4.map_modify s.ports n (f := fun p => (f p).settleTimer)
    (g := fun p : Port => (p.active, p.slots, p.wait)) (congrArg₂ Prod.mk ha (congrArg₂ Prod.mk hs hw))
  simp only [engineView, State.modPort, hports]

/-- A unit may change but for its state, its nodes and its dirty limit. -/
@[simp] theorem engineView_modUnit {f : MediaUnit → MediaUnit} (hs : (f (s.units.get v)).state = (s.units.get v).state) (hn :
    (f (s.units.get v)).nodes = (s.units.get v).nodes)
    (hl : (f (s.units.get v)).dirtyLimit = (s.units.get v).dirtyLimit) : engineView (s.modUnit v f) = engineView s := by
  have hunits := Per4.map_modify s.units v (f := f)
    (g := fun x : MediaUnit => (x.state, x.nodes, x.dirtyLimit)) (congrArg₂ Prod.mk hs (congrArg₂ Prod.mk hn hl))
  simp only [engineView, State.modUnit, hunits]

theorem engineView_foldl {α : Type} {f : State → α → State} (hf : ∀ t a, engineView (f t a) = engineView t) (l : List α)
    (s : State) : engineView (l.foldl f s) = engineView s := by
  induction l generalizing s with
  | nil => rfl
  | cons a l ih => exact (ih (f s a)).trans (hf s a)

theorem engineView_inFreeOrder {α : Type} {f : α → State → State} (hf : ∀ a t, engineView (f a t) = engineView t)
    (l : List α) (s : State) : engineView (s.inFreeOrder l f) = engineView s :=
  engineView_foldl (f := fun t a => f a t) (fun t a => hf a t) _ _

/-! ## The supervisor -/

@[simp] theorem engineView_bootProgress (n : Node) (s : State) : engineView (bootProgress n s) = engineView s := rfl

@[simp] theorem engineView_recoveryNotice (n : Node) (e : RecoveryEvent) (k : Option RecoveryKind) (s : State) : engineView
    (recoveryNotice n e k s) = engineView s := rfl

@[simp] theorem engineView_supTo (n : Node) (st : SupState) (s : State) : engineView (supTo n st s) = engineView s :=
    rfl

@[simp] theorem engineView_enterWatching (n : Node) (k : Nat) (s : State) :
    engineView (enterWatching n k s) = engineView s := rfl

@[simp] theorem engineView_supNoLine (n : Node) (k : RecoveryKind) (s : State) : engineView (supNoLine n k s) = engineView s :=
    rfl

@[simp] theorem engineView_supNodeOff (n : Node) (s : State) : engineView (supNodeOff n s) = engineView s := rfl

@[simp] theorem engineView_supStarted (n : Node) (k : RecoveryKind) (s : State) :
    engineView (supStarted n k s) = engineView s := rfl

@[simp] theorem engineView_arm (n : Node) (s : State) : engineView (arm n s) = engineView s := rfl

@[simp] theorem engineView_driveLine (n : Node) (l : LineId) (b : Bool) (s : State) :
    engineView (driveLine n l b s) = engineView s := rfl

@[simp] theorem engineView_releaseLine (n : Node) (l : LineId) (s : State) :
    engineView (releaseLine n l s) = engineView s := rfl

theorem engineView_takeLine {l : LineId} {o : Owner} (h : takeLine n l o s = some t) : engineView t = engineView s := by
  obtain ⟨-, rfl⟩ := takeLine_eq_some.mp h
  rfl

@[simp] theorem engineView_releaseBootSelect (n : Node) (s : State) : engineView (releaseBootSelect n s) = engineView s := by
  rcases releaseBootSelect_cases n s with ⟨l, -, e⟩ | ⟨-, e⟩ <;> rw [e] <;> rfl

@[simp] theorem engineView_armingCause (n : Node) (entry : Bool) (s : State) :
    engineView (armingCause n entry s) = engineView s := by
  unfold armingCause
  split
  · rfl
  all_goals split_ifs <;> rfl

@[simp] theorem engineView_supResult (n : Node) (kind : ActionKind) (r : ActionResult) (s : State) :
    engineView (supResult n kind r s) = engineView s := by
  unfold supResult
  split
  case h_3 | h_4 => split_ifs <;> rfl
  all_goals rfl

@[simp] theorem engineView_cancelPending (n : Node) (k : ActionKind) (s : State) :
    engineView (cancelPending n k s) = engineView s := by
  unfold cancelPending
  split
  · rfl
  · dsimp only
    split_ifs <;> rfl

/-! ## The Power Sequencer -/

@[simp] theorem engineView_enterPhase (n : Node) (a : Action) (st : ActionState) (s : State) :
    engineView (enterPhase n a st s) = engineView s := by
  rcases enterPhase_cases n a st s with e | ⟨l, t, ht, e⟩ <;> rw [e]
  · rfl
  · rw [engineView_setAction, engineView_driveLine, engineView_takeLine ht]

@[simp] theorem engineView_releaseHeld (n : Node) (a : Action) (s : State) : engineView (releaseHeld n a s) = engineView s := by
  rcases releaseHeld_cases n a s with ⟨l, -, e⟩ | ⟨-, e⟩ <;> rw [e]
  rfl

@[simp] theorem engineView_startAction (n : Node) (kind : ActionKind) (o : Originator) (b : Bool) (s : State) : engineView
    (startAction n kind o b s) = engineView s := by
  unfold startAction
  dsimp only
  split_ifs <;> simp

@[simp] theorem engineView_startRecovery (n : Node) (k : RecoveryKind) (s : State) :
    engineView (startRecovery n k s) = engineView s := by
  simp [startRecovery]

@[simp] theorem engineView_startPending (n : Node) (s : State) : engineView (startPending n s) = engineView s := by
  rcases startPending_cases n s with ⟨-, e⟩ | ⟨k, -, e | e | e⟩ <;> simp [e]

@[simp] theorem engineView_requestRecovery (n : Node) (k : RecoveryKind) (s : State) :
    engineView (requestRecovery n k s) = engineView s := by
  unfold requestRecovery
  split
  · rfl
  · rfl
  · split <;> simp

@[simp] theorem engineView_endAction (n : Node) (a : Action) (r : ActionResult) (s : State) :
    engineView (endAction n a r s) = engineView s := by
  unfold endAction
  dsimp only
  split <;> simp

@[simp] theorem engineView_complete (n : Node) (r : ActionResult) (s : State) : engineView (complete n r s) = engineView s := by
  rcases complete_cases n r s with ⟨-, e⟩ | ⟨a, t, -, ht, ⟨-, e⟩ | ⟨-, e⟩⟩ <;> rw [e]
  all_goals
    subst ht
    split_ifs <;> simp

@[simp] theorem engineView_retake (n : Node) (a : Action) (st : ActionState) (s : State) :
    engineView (retake n a st s) = engineView s := by
  unfold retake
  split <;> simp

@[simp] theorem engineView_pressEnds (n : Node) (a : Action) (s : State) : engineView (pressEnds n a s) = engineView
    s := by
  unfold pressEnds
  dsimp only
  split_ifs <;> simp

@[simp] theorem engineView_softEnds (n : Node) (a : Action) (s : State) : engineView (softEnds n a s) = engineView s :=
    by
  unfold softEnds
  split
  · dsimp only
    split
    · simp
    · split_ifs <;> simp
  · simp

@[simp] theorem engineView_holdEnds (n : Node) (a : Action) (s : State) : engineView (holdEnds n a s) = engineView s :=
    by
  unfold holdEnds
  dsimp only
  split_ifs <;> simp

@[simp] theorem engineView_restEnds (n : Node) (a : Action) (s : State) : engineView (restEnds n a s) = engineView s :=
    by
  unfold restEnds
  split_ifs <;> simp

@[simp] theorem engineView_timerEnds {st : ActionState} {f : Action → State → State} (hf : ∀ a, engineView (f a s) = engineView s)
    :
    engineView (timerEnds n st f s) = engineView s := by
  unfold timerEnds
  split
  · split_ifs
    · exact hf _
    · rfl
  · rfl

@[simp] theorem engineView_sequencerHears (n : Node) (p : PowerState) (s : State) :
    engineView (sequencerHears n p s) = engineView s := by
  unfold sequencerHears
  split
  · rfl
  · split
    · rfl
    · split
      · simp
      · simp
      · dsimp only
        split_ifs <;> simp
      · dsimp only
        split_ifs <;> simp
      · rfl

@[simp] theorem engineView_endWatch (r : Result) (s : State) : engineView (endWatch r s) = engineView s := by
  unfold endWatch
  split <;> rfl

@[simp] theorem engineView_watchHears (s : State) : engineView (watchHears s) = engineView s := by
  unfold watchHears
  split
  · rfl
  · split_ifs <;> simp

/-! ## Failures, stages and the matchers -/

@[simp] theorem engineView_fallback (n : Node) (b : Bool) (s : State) : engineView (fallback n b s) = engineView s := by
  rcases fallback_cases n b s with e | ⟨l, t, ht, e⟩ <;> rw [e]
  rw [engineView_modSupervisor, engineView_driveLine, engineView_takeLine ht]

@[simp] theorem engineView_failure (n : Node) (cause : Cause) (s : State) : engineView (failure n cause s) = engineView s := by
  unfold failure
  dsimp only
  split
  · simp
  · split_ifs <;> simp

@[simp] theorem engineView_bootComplete (n : Node) (s : State) : engineView (bootComplete n s) = engineView s := by
  simp [bootComplete]

@[simp] theorem engineView_stageReported (n : Node) (k j : Nat) (s : State) :
    engineView (stageReported n k j s) = engineView s := by
  unfold stageReported
  dsimp only
  split_ifs <;> simp

@[simp] theorem engineView_matchByte (n : Node) (b : Byte) (s : State) : engineView (matchByte n b s) = engineView s :=
    by
  have hadvance : engineView (advancePartials n b s) = engineView s := rfl
  unfold matchByte decideCompletions
  split
  · split
    · simp [hadvance]
    · split <;> simp [hadvance]
  all_goals exact hadvance

@[simp] theorem engineView_supervisorHears (n : Node) (p : PowerState) (s : State) :
    engineView (supervisorHears n p s) = engineView s := by
  unfold supervisorHears
  split
  · simp
  · rfl
  · split
    · split_ifs <;> rfl
    · split_ifs <;> rfl
    all_goals rfl

/-! ## A published power state (R12) -/

@[simp] theorem engineView_notifyLines (n : Node) (lines : Per6 Bool) (s : State) :
    engineView (notifyLines n lines s) = engineView s := by
  unfold notifyLines
  split_ifs <;> rfl

@[simp] theorem engineView_deadlineEnds (n : Node) (s : State) : engineView (deadlineEnds n s) = engineView s := by
  unfold deadlineEnds
  split <;> simp

/-! ## The link's receiver and transmitter (R175, R176, R184) -/

@[simp] theorem engineView_linkError (f : LinkCounters → LinkCounters) (s : State) : engineView (linkError f s) = engineView s :=
    rfl

@[simp] theorem engineView_hunt (s : State) : engineView (hunt s) = engineView s := rfl

@[simp] theorem engineView_huntStart (s : State) : engineView (huntStart s) = engineView s := by
  unfold huntStart
  split <;> rfl

@[simp] theorem engineView_abandonFrame (f : LinkCounters → LinkCounters) (s : State) :
    engineView (abandonFrame f s) = engineView s := by
  unfold abandonFrame
  split <;> rfl

@[simp] theorem engineView_truncateFrame (s : State) : engineView (truncateFrame s) = engineView s := by
  unfold truncateFrame
  split <;> simp

@[simp] theorem engineView_startByte (s : State) : engineView (startByte s) = engineView s := by
  unfold startByte
  split_ifs <;> simp

@[simp] theorem engineView_overrunByte (s : State) : engineView (overrunByte s) = engineView s := by
  unfold overrunByte
  split_ifs <;> simp

@[simp] theorem engineView_sendNotice (e : NoticeEntry) (rest : List NoticeEntry) (s : State) :
    engineView (sendNotice e rest s) = engineView s := rfl

@[simp] theorem engineView_sendBulk (s : State) : engineView (sendBulk s) = engineView s := by
  unfold sendBulk
  split
  · rfl
  · unfold sendData
    dsimp only
    split <;> simp
  · rfl

@[simp] theorem engineView_frameEnds (s : State) : engineView (frameEnds s) = engineView s := by
  unfold frameEnds
  split <;> rfl

@[simp] theorem engineView_startBehind (ahead : Bool) (body : List Byte) (s : State) :
    engineView (startBehind ahead body s) = engineView s := by
  unfold startBehind
  split
  · split_ifs <;> simp
  all_goals rfl

/-! ## The loader (R196) -/

@[simp] theorem engineView_savePhaseEnds (now next : SaveState) (f : Loader → Loader) (s : State) :
    engineView (savePhaseEnds now next f s) = engineView s := rfl

@[simp] theorem engineView_endSave (r : Result) (d : List Byte) (s : State) : engineView (endSave r d s) = engineView s := by
  unfold endSave
  split <;> rfl

@[simp] theorem engineView_verify (fault : Option ReadFault) (s : State) : engineView (verify fault s) = engineView
    s := by
  unfold verify
  split
  · dsimp only
    split <;> simp
  · rfl

@[simp] theorem engineView_saveFails (address taken : Nat) (s : State) : engineView (saveFails address taken s) = engineView s :=
    by
  unfold saveFails
  split_ifs <;> simp

/-! ## Consoles (R42 to R45, R53, R55, R66) -/

@[simp] theorem engineView_recognizeBreak (n : Node) (s : State) : engineView (recognizeBreak n s) = engineView s := by
  unfold recognizeBreak
  split_ifs <;> simp

@[simp] theorem engineView_endBreak (n : Node) (s : State) : engineView (endBreak n s) = engineView s := by
  unfold endBreak
  split_ifs <;> simp

@[simp] theorem engineView_confirmStart (n : Node) (mid : Level) (s : State) :
    engineView (confirmStart n mid s) = engineView s := by
  unfold confirmStart
  split <;> simp

@[simp] theorem engineView_finishBreak (n : Node) (s : State) : engineView (finishBreak n s) = engineView s := by
  unfold finishBreak
  split
  · dsimp only
    split_ifs <;> simp
  · rfl

@[simp] theorem engineView_recoverBreak (n : Node) (s : State) : engineView (recoverBreak n s) = engineView s := by
  unfold recoverBreak
  split
  · split_ifs <;> simp
  · rfl

@[simp] theorem engineView_leaveFlood (n : Node) (s : State) : engineView (leaveFlood n s) = engineView s := by
  simp [leaveFlood]

@[simp] theorem engineView_storeByte (n : Node) (b : Byte) (s : State) : engineView (storeByte n b s) = engineView s :=
    by
  unfold storeByte
  refine (engineView_modConsole _ _ _).trans ?_
  split <;> rfl

/-! ## Requests (R14 to R21, R35, R41 to R73, R90, R107, R128, R154 to R171, R185, R195) -/

@[simp] theorem engineView_badRequest (tag : Tag) (kind : Byte) (s : State) : engineView (badRequest tag kind s) = engineView s :=
    rfl

@[simp] theorem engineView_serveLinesSet (tag : Tag) (body : List Byte) (s : State) :
    engineView (serveLinesSet tag body s) = engineView s := by
  unfold serveLinesSet
  repeat' split
  all_goals simp [setLines]

@[simp] theorem engineView_serveLinesRead (tag : Tag) (body : List Byte) (s : State) :
    engineView (serveLinesRead tag body s) = engineView s := by
  unfold serveLinesRead
  repeat' split
  all_goals rfl

@[simp] theorem engineView_serveLineEventsClear (tag : Tag) (body : List Byte) (s : State) :
    engineView (serveLineEventsClear tag body s) = engineView s := by
  unfold serveLineEventsClear
  repeat' split
  all_goals rfl

@[simp] theorem engineView_acceptAction (n : Node) (k : ActionKind) (tag : Tag) (escalate : Bool) (s : State) : engineView
    (acceptAction n k tag escalate s) = engineView s := by
  unfold acceptAction
  dsimp only
  split_ifs <;> simp

@[simp] theorem engineView_preemptRunning (n : Node) (s : State) : engineView (preemptRunning n s) = engineView s := by
  unfold preemptRunning
  split <;> simp

@[simp] theorem engineView_servePowerAction (tag : Tag) (body : List Byte) (s : State) :
    engineView (servePowerAction tag body s) = engineView s := by
  unfold servePowerAction
  repeat' split
  all_goals simp

@[simp] theorem engineView_servePowerTimings (tag : Tag) (body : List Byte) (s : State) :
    engineView (servePowerTimings tag body s) = engineView s := by
  unfold servePowerTimings
  repeat' split
  all_goals rfl

@[simp] theorem engineView_startWatch (tag : Tag) (e : Per4 Expected) (timeout : Nat) (s : State) :
    engineView (startWatch tag e timeout s) = engineView s := by
  unfold startWatch
  dsimp only
  split_ifs <;> simp

@[simp] theorem engineView_servePowerWatch (tag : Tag) (body : List Byte) (s : State) :
    engineView (servePowerWatch tag body s) = engineView s := by
  unfold servePowerWatch
  repeat' split
  all_goals simp

@[simp] theorem engineView_serveConsoleConfig (tag : Tag) (body : List Byte) (s : State) :
    engineView (serveConsoleConfig tag body s) = engineView s := by
  unfold serveConsoleConfig
  repeat' split
  all_goals simp [applyConsoleConfig]

@[simp] theorem engineView_serveConsoleSend (tag : Tag) (body : List Byte) (s : State) :
    engineView (serveConsoleSend tag body s) = engineView s := by
  unfold serveConsoleSend
  repeat' split
  all_goals simp

@[simp] theorem engineView_serveConsoleBreak (tag : Tag) (body : List Byte) (s : State) :
    engineView (serveConsoleBreak tag body s) = engineView s := by
  unfold serveConsoleBreak
  repeat' split
  all_goals simp

@[simp] theorem engineView_serveConsoleRead (tag : Tag) (body : List Byte) (s : State) :
    engineView (serveConsoleRead tag body s) = engineView s := by
  unfold serveConsoleRead
  repeat' split
  all_goals rfl

@[simp] theorem engineView_serveConsoleForward (tag : Tag) (body : List Byte) (s : State) :
    engineView (serveConsoleForward tag body s) = engineView s := by
  unfold serveConsoleForward
  repeat' split
  all_goals simp

@[simp] theorem engineView_serveConsoleStatus (tag : Tag) (body : List Byte) (pins : Per4 Level) (s : State) : engineView
    (serveConsoleStatus tag body pins s) = engineView s := by
  unfold serveConsoleStatus
  repeat' split
  all_goals rfl

@[simp] theorem engineView_servePoolStatus (tag : Tag) (body : List Byte) (s : State) :
    engineView (servePoolStatus tag body s) = engineView s := by
  unfold servePoolStatus
  repeat' split
  all_goals rfl

@[simp] theorem engineView_serveUnitStatus (tag : Tag) (body : List Byte) (s : State) :
    engineView (serveUnitStatus tag body s) = engineView s := by
  unfold serveUnitStatus
  repeat' split
  all_goals rfl

@[simp] theorem engineView_serveMediaPortConfig (tag : Tag) (body : List Byte) (midBlock : Per4 Bool) (s : State) : engineView
    (serveMediaPortConfig tag body midBlock s) = engineView s := by
  unfold serveMediaPortConfig
  repeat' split
  case h_1 => simp [Port.configure]
  all_goals rfl

@[simp] theorem engineView_servePatternSet (tag : Tag) (body : List Byte) (s : State) :
    engineView (servePatternSet tag body s) = engineView s := by
  unfold servePatternSet
  repeat' split
  all_goals rfl

@[simp] theorem engineView_applyPolicy (n : Node) (p : Policy) (s : State) : engineView (applyPolicy n p s) = engineView s := by
  unfold applyPolicy
  dsimp only
  repeat' split
  all_goals simp

@[simp] theorem engineView_serveBootPolicy (tag : Tag) (body : List Byte) (s : State) :
    engineView (serveBootPolicy tag body s) = engineView s := by
  unfold serveBootPolicy
  repeat' split
  all_goals simp

@[simp] theorem engineView_rearm (n : Node) (s : State) : engineView (rearm n s) = engineView s := by
  unfold rearm
  dsimp only
  split_ifs <;> simp

@[simp] theorem engineView_serveBootRearm (tag : Tag) (body : List Byte) (s : State) :
    engineView (serveBootRearm tag body s) = engineView s := by
  unfold serveBootRearm
  repeat' split
  all_goals simp

@[simp] theorem engineView_serveBootStatus (tag : Tag) (body : List Byte) (s : State) :
    engineView (serveBootStatus tag body s) = engineView s := by
  unfold serveBootStatus
  repeat' split
  all_goals rfl

@[simp] theorem engineView_serveIdentify (tag : Tag) (body : List Byte) (s : State) :
    engineView (serveIdentify tag body s) = engineView s := by
  unfold serveIdentify
  split <;> rfl

@[simp] theorem engineView_serveLinkConfig (tag : Tag) (body : List Byte) (s : State) :
    engineView (serveLinkConfig tag body s) = engineView s := by
  unfold serveLinkConfig
  split <;> rfl

@[simp] theorem engineView_serveSaveSettings (tag : Tag) (body : List Byte) (s : State) :
    engineView (serveSaveSettings tag body s) = engineView s := by
  unfold serveSaveSettings
  repeat' split
  all_goals rfl

/-! ## POOL CONFIG (R77, R88, R89) -/

end

end Sys2Proof.Machine
end

section
/-!
SUPPORT. Ports and pages under the law of the engine (`EngineBut`): what ends a command or tells a port of its node,
what the allocation takes from the tables (a CLEAN record at most), and the FILLING record of a page that it gives.
-/

namespace Sys2Proof.Machine

section
variable {w : Prop} {X X' : UnitId → Nat → Prop} {Y Y' : Node → Prop} {s t : State} {n m : Node} {u v : UnitId} {lba : Nat}

/-! ## Loops and choices -/

protected theorem EngineBut.ite {c : Prop} [Decidable c] (h : EngineBut w X Y s) (h' : EngineBut w X Y t) :
    EngineBut w X Y (if c then s else t) := by
  split
  · exact h
  · exact h'

protected theorem EngineBut.foldl {α : Type} {f : State → α → State} {l : List α}
    (hf : ∀ {t a}, EngineBut w X Y t → EngineBut w X Y (f t a)) (h : EngineBut w X Y s) :
    EngineBut w X Y (l.foldl f s) := by
  induction l generalizing s with
  | nil => exact h
  | cons a l ih => exact ih (hf h)

protected theorem EngineBut.inFreeOrder {α : Type} {f : α → State → State} {l : List α}
    (hf : ∀ {a t}, EngineBut w X Y t → EngineBut w X Y (f a t)) (h : EngineBut w X Y s) :
    EngineBut w X Y (s.inFreeOrder l f) :=
  EngineBut.foldl (f := fun t a => f a t) hf (h.same (poolView_drew _ _) (engineView_drew _ _))

/-! ## The end of a command (R112), attention (R124), a node's power state (R12) -/

/-- R112: a port whose command ends waits no more. -/
theorem EngineBut.commandEnds (h : EngineBut w X Y s) (st : Status) (hY : ∀ m, m ≠ n → Y m → Y' m) :
    EngineBut w X Y' (endCommand n st s) := by
  unfold endCommand
  split
  · rename_i hnone
    refine h.leave fun _ m _ ⟨hm, hactive⟩ => .inr (hY m ?_ hm)
    rintro rfl
    simp [hnone] at hactive
  · have hcache : EngineBut w X Y (s.modCache fun c => { c with entryWait := c.entryWait.filter fun m => m != n }) :=
      h.same (by simp) (by simp)
    exact hcache.served_port (by simp) hY

protected theorem EngineBut.endCommand (h : EngineBut w X Y s) (st : Status) : EngineBut w X Y (endCommand n st s) :=
  h.commandEnds st fun _ _ => id

@[simp] theorem engineView_setAttention (n : Node) (s : State) : engineView (setAttention n s) = engineView s := by
  simp [setAttention]

protected theorem EngineBut.setAttention (h : EngineBut w X Y s) : EngineBut w X Y (setAttention n s) :=
  h.same (by simp) (by simp)

protected theorem EngineBut.publish {p : PowerState} (h : EngineBut w X Y s) : EngineBut w X Y (publish n p s) := by
  have hmarked : EngineBut w X Y (powerMark n p (s.notify (.powerState n p))) :=
    h.same (by cases p <;> simp [powerMark]) (by cases p <;> simp [powerMark])
  have hheard : EngineBut w X Y (consoleHears n p (watchHears (sequencerHears n p (powerMark n p
      (s.notify (.powerState n p)))))) :=
    hmarked.same (by cases p <;> simp [consoleHears]) (by cases p <;> simp [consoleHears])
  have hport : EngineBut w X Y (portHears n p
      (consoleHears n p (watchHears (sequencerHears n p (powerMark n p (s.notify (.powerState n p))))))) := by
    unfold portHears
    split
    · exact (hheard.endCommand .aborted).setAttention
    · exact hheard
    · exact hheard
  exact hport.same (poolView_supervisorHears n p _) (engineView_supervisorHears n p _)

protected theorem EngineBut.rederivePower (h : EngineBut w X Y s) : EngineBut w X Y (rederivePower n s) :=
  h.ite (h.same (by simp) (by simp) : EngineBut w X Y (s.modLines _)).publish

protected theorem EngineBut.sampleAll {pins : BitVec 24} (h : EngineBut w X Y s) : EngineBut w X Y (sampleAll pins s) :=
  EngineBut.inFreeOrder EngineBut.rederivePower (EngineBut.inFreeOrder (fun h => h.same (by simp) (by simp))
    (h.same (by simp) (by simp)))

/-! ## What the allocation takes (R80 to R86) -/

/-- At most CLEAN records have left the tables, with nothing else of them changed. -/
structure Evicted (s t : State) : Prop where
  ports : t.ports = s.ports
  units : t.units = s.units
  fetches : t.cache.fetches = s.cache.fetches
  stores : t.cache.stores = s.cache.stores
  dirty : t.cache.dirty = s.cache.dirty
  sublist : t.cache.directory.Sublist s.cache.directory
  stays : ∀ r ∈ s.cache.directory, r.state ≠ .clean → r ∈ t.cache.directory

theorem Evicted.of_same (hports : t.ports = s.ports) (hunits : t.units = s.units) (hcache : t.cache = s.cache) : Evicted s t :=
  ⟨hports, hunits, by rw [hcache], by rw [hcache], by rw [hcache], by rw [hcache], fun r hr _ => hcache ▸ hr⟩

theorem Evicted.modPool (h : Evicted s t) (f : Pool → Pool) : Evicted s (t.modPool f) :=
  ⟨h.ports, h.units, h.fetches, h.stores, h.dirty, h.sublist, h.stays⟩

theorem evicted_leaveContent {g : Holder} {p : PageId} (hs : PoolHolds s) (e : evictable s g = some p) :
    Evicted s (leaveContent g p s) := by
  cases g with
  | ch n =>
    obtain ⟨-, -, -, -, -, -, hunits, hports, hcache, -⟩ := oldestPageLeaves_frame n s
    exact .of_same hports hunits hcache
  | mh v =>
    obtain ⟨x, hx, rfl, -, hclean⟩ := record_of_evictable e
    refine ⟨rfl, rfl, rfl, rfl, rfl, List.filter_sublist, fun r hr hnot => List.mem_filter.mpr ⟨hr, ?_⟩⟩
    have hne : r.page ≠ x.page := fun e => hnot (by rwa [List.inj_on_of_nodup_map hs.nodup hr hx e])
    simpa using hne

theorem evicted_allocate (hs : PoolHolds s) (h : Holder) (why : Purpose) : Evicted s (allocate h why s).2 := by
  rcases allocate_cases h why s with ⟨p, -, -, e⟩ | ⟨g, p, hr, -, e⟩ | ⟨p, -, he, -, e⟩ | e <;> rw [e]
  · exact .of_same rfl rfl rfl
  · dsimp only [reclaim]
    exact ((evicted_leaveContent hs (evictable_of_reclaimSource hr)).modPool _).modPool _
  · dsimp only [selfRecycle]
    exact (evicted_leaveContent hs he).modPool _
  · exact .of_same rfl rfl rfl

theorem Evicted.tables (he : Evicted s t) (h : Tables X s.cache) : Tables X t.cache := by
  refine h.sublist he.sublist (fun k => ?_) fun u => by rw [he.dirty]
  rw [live_congr he.fetches he.stores he.dirty fun _ _ => Iff.rfl]
  exact iff_self_and.mpr fun hk r hr hkr => he.stays r hr fun hclean => h.not_named hr hclean hk hkr

theorem Evicted.dirtyCount_le (he : Evicted s t) (u : UnitId) : dirtyCount t u ≤ dirtyCount s u :=
  Nat.add_le_add (he.sublist.countP_le) (he.sublist.countP_le)

theorem Evicted.fillingBlock (he : Evicted s t) (h : FillingBlock s u lba) : FillingBlock t u lba := by
  obtain ⟨r, hr, hu, hl, hfill⟩ := h
  exact ⟨r, he.stays r hr (by simp [hfill]), hu, hl, hfill⟩

/-- R86: an allocation that fails. -/
theorem EngineBut.of_evicted (h : EngineBut w X Y s) (he : Evicted s t) (hpool : PoolHolds t) : EngineBut w X Y t :=
  h.tabled hpool he.ports he.units (he.tables h.tables) (fun i f hf => h.fetching i f (he.fetches ▸ hf))
    (fun u => (he.dirtyCount_le u).trans (h.limits u)) (fun _ _ hb => .inl (he.fillingBlock hb)) fun _ => id

/-- R80: an allocation, made or failed, takes at most CLEAN pages. -/
theorem evicted_of_allocate {g : Holder} {why : Purpose} {y : Option PageId} (hs : PoolHolds s)
    (e : allocate g why s = (y, t)) : Evicted s t := by
  have := evicted_allocate hs g why
  rwa [e] at this

theorem EngineBut.unallocated {why : Purpose} {g : Holder} (h : EngineBut w X Y s) (e : allocate g why s = (none, t)) :
    EngineBut w X Y t :=
  h.of_evicted (evicted_of_allocate h.pool e) (h.pool.of_allocate e)

theorem findBlock_eq_none : findBlock s u lba = none ↔ ∀ r ∈ s.cache.directory, ¬ (r.unit = u ∧ r.lba = lba) := by
  simp [findBlock, List.find?_eq_none]

/-- R80, R133: a page obtained for a block without a record gets its FILLING record, and the block is loose. -/
theorem EngineBut.obtained {why : Purpose} {p : PageId} (h : EngineBut w X Y s) (hv : InService s v)
    (hmiss : findBlock s v lba = none) (e : allocate (.mh v) why s = (some p, t))
    (hX : ∀ u l, X' u l ↔ X u l ∨ u = v ∧ l = lba) : EngineBut w X' Y (addRecord (fillingRecord v lba p) t) := by
  have he := evicted_of_allocate h.pool e
  have hpage := h.pool.of_allocate e
  have hperm : (addRecord (fillingRecord v lba p) t).cache.directory.Perm (fillingRecord v lba p ::
      t.cache.directory) :=
    insertRecord_perm _ _
  have hinserted : Tables X' (addRecord (fillingRecord v lba p) t).cache := by
    refine (he.tables h.tables).insert (r := fillingRecord v lba p) rfl (fun x hx e => ?_) (fun x hx => ?_) rfl (fun
        k => ?_) rfl
    · exact (hpage.record x hx).2.1 (congrArg some e.symm)
    · exact findBlock_eq_none.mp hmiss x (he.sublist.subset hx)
    · cases k with
      | loose u l =>
        show X' u l ↔ X u l ∨ _
        rw [hX]
        simp [fillingRecord]
      | fetch | store | dirty => simp [Live, addRecord]
  refine h.tabled (h.pool.filled hv.ne_detached e) he.ports he.units hinserted
    (fun i f hf => h.fetching i f (by rw [← he.fetches]; exact hf)) (fun u => ?_) (fun u l hb => ?_) fun _ => id
  · have hcount : ∀ st, st ≠ .filling → pagesIn (addRecord (fillingRecord v lba p) t) u st = pagesIn t u st := fun st hst => by
      rw [pagesIn, hperm.countP_eq, List.countP_cons, pagesIn]
      simp [fillingRecord, hst.symm]
    rw [dirtyCount, hcount _ (by decide), hcount _ (by decide)]
    exact (he.dirtyCount_le u).trans (h.limits u)
  · obtain ⟨r, hr, hr'⟩ := he.fillingBlock hb
    exact .inl ⟨r, hperm.mem_iff.mpr (List.mem_cons_of_mem _ hr), hr'⟩

end

end Sys2Proof.Machine
end

section
/-!
SUPPORT. Fetches under the law of the engine (R132 to R136, R141, R142): the pages of a run of blocks are obtained one
by one, each block loose until the run's fetch entry is allocated; then the run's blocks are WAITING blocks of that
entry.
-/

namespace Sys2Proof.Machine

section
variable {w : Prop} {X X' : UnitId → Nat → Prop} {Y Y' : Node → Prop} {s t : State} {n m : Node} {u v : UnitId} {lba : Nat}

/-! ## Fetch entries (R135) -/

/-- R135: a block is WAITING in a fetch. -/
theorem mem_waitingBlocks {f : Fetch} :
    lba ∈ waitingBlocks f ↔ f.first ≤ lba ∧ f.blocks[lba - f.first]? = some .waiting := by
  simp only [waitingBlocks, List.mem_map, List.mem_filter, List.mem_range, beq_iff_eq]
  constructor
  · rintro ⟨j, ⟨-, hj⟩, rfl⟩
    exact ⟨Nat.le_add_right _ _, by rwa [Nat.add_sub_cancel_left]⟩
  · rintro ⟨hle, hj⟩
    exact ⟨lba - f.first, ⟨(List.getElem?_eq_some_iff.mp hj).1, hj⟩, Nat.add_sub_cancel' hle⟩

/-- R135, R136: the fetch that an entry is allocated for. -/
def newFetch (u : UnitId) (first count now : Nat) : Fetch :=
  { unit := u, first := first, blocks := List.replicate count .waiting, created := now }

/-- R135, R136: the blocks of a new entry are all WAITING. -/
theorem mem_waitingBlocks_new {first count now : Nat} :
    lba ∈ waitingBlocks (newFetch u first count now) ↔ first ≤ lba ∧ lba < first + count := by
  rw [mem_waitingBlocks, newFetch]
  simp only [List.getElem?_replicate, ite_eq_left_iff, reduceCtorEq, imp_false, not_not]
  refine and_congr_right fun hle => ?_
  omega

theorem freeFetch_some {i : Fin 16} (e : freeFetch s = some i) : (s.cache.fetches[i]).busy = none := by
  have := List.find?_some e
  simpa using this

theorem getElem_setFetch (c : Cache) (i j : Fin 16) (e : FetchEntry) :
    (c.setFetch i e).fetches[j] = if j = i then e else c.fetches[j] := by
  simp only [Cache.setFetch, Fin.getElem_fin, Vector.getElem_set]
  simp only [eq_comm (a := i.val), Fin.val_inj]

theorem busy_setFetch (c : Cache) (i : Fin 16) (g : Byte) (f : Fetch) (j : Fin 16) (f' : Fetch) :
    ((c.setFetch i { generation := g, busy := some f }).fetches[j]).busy = some f'
      ↔ if j = i then f' = f else (c.fetches[j]).busy = some f' := by
  rw [getElem_setFetch]
  split_ifs
  · simp only [Option.some.injEq, eq_comm]
  · rfl

theorem freeFetch_congr (h : t.cache.fetches = s.cache.fetches) : freeFetch t = freeFetch s := by
  rw [freeFetch, h, freeFetch]

/-- R135: an entry that is counted free is found. -/
theorem freeFetch_isSome (h : freeFetches s ≠ 0) : (freeFetch s).isSome := by
  rw [freeFetches, toList_eq_map_finRange, List.countP_map] at h
  obtain ⟨i, hi, hfree⟩ := List.countP_pos_iff.mp (Nat.pos_of_ne_zero h)
  exact List.find?_isSome.mpr ⟨i, hi, hfree⟩

theorem allocFetch_some {i : Fin 16} {first count : Nat} (hi : freeFetch s = some i) : allocFetch u first count s
    = (s.modCache fun c => c.setFetch i
        { generation := (c.fetches[i]).generation + 1, busy := some (newFetch u first count s.now) }).modLink fun k =>
          { k with calls := k.calls ++ [.fetch i] } := by
  unfold allocFetch
  rw [hi]
  rfl

theorem allocFetch_frame (u : UnitId) (first count : Nat) (s : State) :
    (allocFetch u first count s).units = s.units ∧ (allocFetch u first count s).ports = s.ports
      ∧ (allocFetch u first count s).cache.directory = s.cache.directory := by
  unfold allocFetch
  split <;> exact ⟨rfl, rfl, rfl⟩

/-! ## A run of blocks gets its entry (R133, R135, R142) -/

/-- The blocks of a unit from `a` up to but not including `b`. -/
def Run (u : UnitId) (a b : Nat) : UnitId → Nat → Prop := fun v lba => v = u ∧ a ≤ lba ∧ lba < b

/-- The claim of a loose block goes over to the entry that is allocated for it. -/
def Claim.fetchedBy (i : Fin 16) : Claim → Claim
  | .loose u lba => .fetch i u lba
  | k => k

/-- R135: the loose blocks of a run become the WAITING blocks of its entry. -/
protected theorem EngineBut.allocFetch {a b k : Nat} (h : EngineBut w (Run u a b) Y s) (hu : InService s u)
    (hb : b = a + k) (hfree : (freeFetch s).isSome) : EngineBut w noLoose Y (allocFetch u a k s) := by
  subst hb
  obtain ⟨i, hi⟩ := Option.isSome_iff_exists.mp hfree
  have hidle := freeFetch_some hi
  rw [allocFetch_some hi]
  have hentry := busy_setFetch s.cache i ((s.cache.fetches[i]).generation + 1) (newFetch u a k s.now)
  refine h.tabled (h.pool.same rfl) rfl rfl ?_ (fun j f hf => ?_) h.limits (fun _ _ hb => .inl hb) fun _ => id
  · refine h.tables.relabel (Claim.fetchedBy i) rfl (fun k' => ?_) (fun k' r => ?_) (fun k' => ?_) rfl
    · cases k' with
      | fetch j v lba =>
        constructor
        · rintro ⟨f, hf, hv, hlba⟩
          replace hf := (hentry j f).mp hf
          split_ifs at hf with hj
          · subst hf
            exact ⟨.loose v lba, ⟨hv.symm, mem_waitingBlocks_new.mp hlba⟩, by rw [hj]; rfl⟩
          · exact ⟨.fetch j v lba, ⟨f, hf, hv, hlba⟩, rfl⟩
        · rintro ⟨k₀, hk₀, e⟩
          cases k₀ with
          | loose v' lba' =>
            cases e
            obtain ⟨rfl, hlba⟩ := hk₀
            exact ⟨_, (hentry i _).mpr (by rw [if_pos rfl]), rfl, mem_waitingBlocks_new.mpr hlba⟩
          | fetch j' v' lba' =>
            cases e
            obtain ⟨f, hf, hv, hlba⟩ := hk₀
            have hj : j ≠ i := by
              rintro rfl
              rw [hidle] at hf
              cases hf
            exact ⟨f, (hentry j f).mpr (by rwa [if_neg hj]), hv, hlba⟩
          | store | dirty => cases e
      | loose v lba =>
        refine iff_of_false id ?_
        rintro ⟨k₀, -, e⟩
        cases k₀ <;> cases e
      | store j y =>
        constructor
        · exact fun hk => ⟨.store j y, hk, rfl⟩
        · rintro ⟨k₀, hk₀, e⟩
          cases k₀ <;> cases e
          exact hk₀
      | dirty v d =>
        constructor
        · exact fun hk => ⟨.dirty v d, hk, rfl⟩
        · rintro ⟨k₀, hk₀, e⟩
          cases k₀ <;> cases e
          exact hk₀
    · cases k' <;> exact Iff.rfl
    · cases k' <;> rfl
  · replace hf := (hentry j f).mp hf
    split_ifs at hf
    · subst hf
      exact hu
    · exact h.fetching j f hf

theorem run_succ {a b : Nat} (hab : a ≤ b) (v : UnitId) (l : Nat) : Run u a (b + 1) v l ↔ Run u a b v l ∨ v = u ∧ l = b := by
  simp only [Run]
  constructor
  · rintro ⟨hv, hal, hlb⟩
    rcases Nat.lt_succ_iff_lt_or_eq.mp hlb with h | h
    · exact .inl ⟨hv, hal, h⟩
    · exact .inr ⟨hv, h⟩
  · rintro (⟨hv, hal, hlb⟩ | ⟨hv, rfl⟩)
    · exact ⟨hv, hal, hlb.trans (Nat.lt_succ_self b)⟩
    · exact ⟨hv, hab, Nat.lt_succ_self l⟩

theorem run_empty {a : Nat} (v : UnitId) (l : Nat) : Run u a a v l ↔ noLoose v l :=
  iff_of_false (fun ⟨_, h, h'⟩ => absurd h' (Nat.not_lt.mpr h)) id

/-! ## A demand fetch (R133) -/

theorem collectPages_frame {last k x : Nat} (hs : PoolHolds s) (hu : (s.units.get u).state ≠ .detached) :
    (collectPages u last k x s).2.cache.fetches = s.cache.fetches ∧ (collectPages u last k x s).2.units = s.units
      ∧ (collectPages u last k x s).2.ports = s.ports := by
  induction k generalizing x s with
  | zero => exact ⟨rfl, rfl, rfl⟩
  | succ k ih =>
    unfold collectPages
    split
    · exact ⟨rfl, rfl, rfl⟩
    · split
      · rename_i e
        have he := evicted_of_allocate hs e
        exact ⟨he.fetches, he.units, he.ports⟩
      · rename_i p t e
        have he := evicted_of_allocate hs e
        have hunit : ((addRecord (fillingRecord u x p) t).units.get u).state ≠ .detached := by
          rwa [addRecord, State.modCache_units, he.units]
        obtain ⟨hfetches, hunits, hports⟩ := ih (x := x + 1) (hs.filled (lba := x) hu e) hunit
        exact ⟨hfetches.trans he.fetches, hunits.trans he.units, hports.trans he.ports⟩

/-- R133: the pages obtained are those of a run of loose blocks. -/
protected theorem EngineBut.collectPages {a b last k : Nat} (h : EngineBut w (Run u a b) Y s) (hu : InService s u) (hab : a ≤ b) :
    EngineBut w (Run u a (b + (collectPages u last k b s).1)) Y (collectPages u last k b s).2 := by
  induction k generalizing b s with
  | zero => exact h
  | succ k ih =>
    unfold Machine.collectPages
    split
    · exact h
    · rename_i hnot
      split
      · rename_i e
        exact h.unallocated e
      · rename_i p t e
        have hmiss : findBlock s u b = none := by
          simpa using (not_or.mp hnot).2
        have hpage := h.obtained hu hmiss e (run_succ hab)
        have hunits := (evicted_of_allocate h.pool e).units
        have hrest := ih hpage (hu.congr hunits) (Nat.le_succ_of_le hab)
        rwa [Nat.add_right_comm, Nat.add_assoc] at hrest

/-- R80, R133: the first block of a run that is not empty has a FILLING record. -/
theorem fillingBlock_of_run {a b : Nat} (h : EngineBut w (Run u a b) Y s) (hab : a < b) : FillingBlock s u a := by
  obtain ⟨r, hr, ⟨hu, hl⟩, hfill⟩ := h.tables.held (.loose u a) ⟨rfl, le_rfl, hab⟩
  exact ⟨r, hr, hu, hl, hfill⟩

/-- R115: a port waits on the FILLING page of its next block. -/
theorem EngineBut.waitsOn {a : ActiveCommand} (h : EngineBut w X Y s) (ha : (port s n).active = some a) (hread : a.kind = .read)
    (hu : unitOf s n = some u) (hfill : FillingBlock s u (nextBlock a (port s n))) :
    EngineBut w X Y (s.modPort n fun p => { p with wait := .page }) := by
  have hport : port (s.modPort n fun p => { p with wait := .page }) n = { port s n with wait := .page }.settleTimer :=
    Per4.get_modify_same _ _ _
  refine h.ported (fun _ _ => .inl ⟨a, u, ?_, hread, hu, ?_⟩) fun _ _ => id
  · rw [hport]
    exact ha
  · rw [hport]
    exact hfill

protected theorem EngineBut.demandFetch {a : ActiveCommand} {last : Nat} (h : EngineBut w noLoose Y s)
    (ha : (port s n).active = some a) (hread : a.kind = .read) (hu : unitOf s n = some u) (hfree : (freeFetch s).isSome) :
    EngineBut w noLoose Y (demandFetch n u (nextBlock a (port s n)) last s) := by
  have hservice := h.unitOf_inService hu
  obtain ⟨hfetches, hunits, hports⟩ := collectPages_frame (last := last) (k := 8) (x := nextBlock a (port s n)) h.pool
    hservice.ne_detached
  have hpages := (h.loosely run_empty).collectPages (last := last) (k := 8) (b := nextBlock a (port s n)) hservice le_rfl
  unfold Machine.demandFetch
  dsimp only
  generalize hr : collectPages u last 8 (nextBlock a (port s n)) s = r at *
  split
  · rename_i h0
    rw [h0] at hpages
    exact (hpages.loosely fun v l => (run_empty v l).symm).endCommand .busy
  · rename_i h0
    have hport : ∀ m, port (allocFetch u (nextBlock a (port s n)) r.1 r.2) m = port s m := fun m => by
      rw [port, (allocFetch_frame _ _ _ _).2.1, hports, port]
    have hunit : unitOf (allocFetch u (nextBlock a (port s n)) r.1 r.2) n = unitOf s n := unitOf_congr (fun v => by
      rw [(allocFetch_frame _ _ _ _).1, hunits]) n
    have hfill : FillingBlock r.2 u (nextBlock a (port s n)) :=
      fillingBlock_of_run hpages (Nat.lt_add_of_pos_right (Nat.pos_of_ne_zero h0))
    refine (hpages.allocFetch (hservice.congr hunits) rfl ?_).waitsOn (a := a) ?_ hread (hunit.trans hu) ?_
    · rwa [freeFetch_congr hfetches]
    · rwa [hport]
    · rw [hport]
      exact hfill.congr ((allocFetch_frame _ _ _ _).2.2)

/-! ## Staging (R115, R132 to R134) -/

/-- R132: a page's bytes are copied: the port waits no more. -/
theorem EngineBut.copiedToSlot (h : EngineBut w X Y s) (r : DirRecord) (hY : ∀ m, m ≠ n → Y m → Y' m) :
    EngineBut w X Y' (copyToSlot n r s) :=
  (h.served_port (f := fun p => { p with slots := p.slots ++ [{ lba := r.lba, data := pageBytes s r.page }], wait :=
      .none })
    (by simp) hY).redressed r.page ⟨fun _ => rfl, fun _ => rfl, fun _ => rfl⟩ fun _ => rfl

protected theorem EngineBut.stage {k : Nat} (h : EngineBut w noLoose Y s) : EngineBut w noLoose Y (stage n k s) := by
  induction k generalizing s with
  | zero => exact h
  | succ k ih =>
    unfold Machine.stage
    dsimp only
    split
    · exact h
    · rename_i a ha
      split
      · rename_i hnext
        obtain ⟨hread, -, -, -⟩ := hnext
        split
        · exact h
        · rename_i u hu
          split
          · rename_i r hr
            obtain ⟨hmem, hunit, hlba⟩ := findBlock_unit hr
            split
            · rename_i hfill
              exact h.waitsOn ha hread hu ⟨r, hmem, hunit, hlba, hfill⟩
            · exact ih (h.copiedToSlot r fun _ _ => id)
          · split
            · rename_i hfree
              exact h.demandFetch ha hread hu hfree
            · have hjoined : EngineBut w noLoose Y (s.modCache fun c => { c with entryWait := c.entryWait ++ [n] }) :=
                h.same (by simp) (by simp)
              exact hjoined.served_port (by simp) fun _ _ => id
      · exact h

protected theorem EngineBut.serveEntryWait {k : Nat} (h : EngineBut w noLoose Y s) :
    EngineBut w noLoose Y (serveEntryWait k s) := by
  induction k generalizing s with
  | zero => exact h
  | succ k ih =>
    unfold Machine.serveEntryWait
    split
    · exact h
    · rename_i n rest _
      split
      · have hleft : EngineBut w noLoose Y (s.modCache fun c => { c with entryWait := rest }) := h.same (by simp) (by
            simp)
        have hport : EngineBut w noLoose Y ((s.modCache fun c => { c with entryWait := rest }).modPort n fun p =>
            { p with wait := .none }) := hleft.served_port (by simp) fun _ _ => id
        exact ih hport.stage
      · exact h

/-- R132: ports that are about to be served are served. -/
theorem EngineBut.copiedToSlots {l : List Node} (h : EngineBut w X (· ∈ l) s) (r : DirRecord) :
    EngineBut w X noPort (l.foldl (fun t n => copyToSlot n r t) s) := by
  induction l generalizing s with
  | nil => exact h.mono fun _ => List.not_mem_nil
  | cons n l ih => exact ih (h.copiedToSlot r fun m hm hY => (List.mem_cons.mp hY).resolve_left hm)

/-- R132, R137, R144: the ports that wait on a block are served. -/
protected theorem EngineBut.servePorts (h : EngineBut w noLoose (· ∈ portsWaitingOn s u lba) s)
    (hfound : ∃ r ∈ s.cache.directory, r.unit = u ∧ r.lba = lba) : EngineHolds w (servePorts u lba s) := by
  unfold Machine.servePorts
  split
  · rename_i hnone
    obtain ⟨r, hr, hmiss⟩ := hfound
    exact absurd hmiss (findBlock_eq_none.mp hnone r hr)
  · exact EngineBut.inFreeOrder EngineBut.stage (h.copiedToSlots _)

/-! ## Read-ahead (R141, R142) -/

theorem flushRun_cache (u : UnitId) (x run : Nat) (s : State) :
    (flushRun u x run s).units = s.units ∧ (flushRun u x run s).cache.directory = s.cache.directory := by
  unfold flushRun
  split
  · exact ⟨rfl, rfl⟩
  · exact ⟨(allocFetch_frame _ _ _ s).1, (allocFetch_frame _ _ _ s).2.2⟩

/-- R142: a run of pages gets its entry. -/
protected theorem EngineBut.flushRun {x run : Nat} (h : EngineBut w (Run u (x - run) x) Y s) (hu : InService s u) (hrun : run ≤ x)
    (hfree : run ≠ 0 → (freeFetch s).isSome) : EngineBut w noLoose Y (flushRun u x run s) := by
  unfold Machine.flushRun
  split
  · rename_i h0
    subst h0
    exact h.loosely fun v l => (run_empty v l).symm
  · rename_i h0
    exact h.allocFetch hu (Nat.sub_add_cancel hrun).symm (hfree h0)

protected theorem EngineBut.readAheadFrom {stop k x run : Nat} (h : EngineBut w (Run u (x - run) x) Y s) (hu : InService s u)
    (hrun : run ≤ x) (hfree : run ≠ 0 → (freeFetch s).isSome) : EngineBut w noLoose Y (readAheadFrom u stop k x run
        s) := by
  induction k generalizing x run s with
  | zero => exact h.flushRun hu hrun hfree
  | succ k ih =>
    have hnext : ∀ {t : State} {y : Nat}, EngineBut w noLoose Y t → InService t u →
        EngineBut w noLoose Y (readAheadFrom u stop k y 0 t) := fun ht hut =>
      ih (ht.loosely run_empty) hut (Nat.zero_le _) (absurd rfl)
    unfold Machine.readAheadFrom
    split
    · exact h.flushRun hu hrun hfree
    · split
      · exact hnext (h.flushRun hu hrun hfree) (hu.congr (flushRun_cache u x run s).1)
      · rename_i hmiss
        split
        · rename_i hfew
          obtain ⟨rfl, -⟩ := hfew
          exact h.loosely fun v l => (run_empty v l).symm
        · rename_i hfew
          have hentry : (freeFetch s).isSome := by
            by_cases h0 : run = 0
            · exact freeFetch_isSome fun e => hfew ⟨h0, by omega⟩
            · exact hfree h0
          split
          · rename_i t e
            have he := evicted_of_allocate h.pool e
            exact (h.unallocated e).flushRun (hu.congr he.units) hrun fun _ => by rwa [freeFetch_congr he.fetches]
          · rename_i p t e
            have he := evicted_of_allocate h.pool e
            have hut : InService (addRecord (fillingRecord u x p) t) u := hu.congr he.units
            have hentry' : (freeFetch (addRecord (fillingRecord u x p) t)).isSome := by
              rwa [freeFetch_congr (t := addRecord (fillingRecord u x p) t) he.fetches]
            have hpage : EngineBut w (Run u (x + 1 - (run + 1)) (x + 1)) Y (addRecord (fillingRecord u x p) t) := by
              rw [Nat.add_sub_add_right]
              exact h.obtained hu (by simpa using hmiss) e (run_succ (Nat.sub_le x run))
            dsimp only
            split
            · rename_i h8
              rw [h8] at hpage
              exact hnext (hpage.flushRun hut (by omega) fun _ => hentry') (hut.congr (flushRun_cache u (x + 1) 8 _).1)
            · exact ih hpage hut (Nat.succ_le_succ hrun) fun _ => hentry'

protected theorem EngineBut.readAhead {a : ActiveCommand} (h : EngineBut w noLoose Y s) :
    EngineBut w noLoose Y (readAhead n a s) := by
  unfold Machine.readAhead
  split
  · exact h
  · rename_i hu
    exact ((h.loosely run_empty).readAheadFrom (h.unitOf_inService hu) (Nat.zero_le _) (absurd rfl)).ite h

end

end Sys2Proof.Machine
end

section
/-!
SUPPORT. Changes of one record together with the claim on it, under the law of the engine: a page becomes DIRTY or
CLEAN, or its store is issued (R143 to R149).
-/

namespace Sys2Proof.Machine

section
variable {w : Prop} {X X' : UnitId → Nat → Prop} {Y Y' : Node → Prop} {s t : State} {n m : Node} {u v : UnitId} {lba : Nat}
  {r : DirRecord} {f : DirRecord → DirRecord} {gone come : Option Claim}

/-! ## The dirty count (R131) -/

/-- R131: a state that the dirty limit counts. -/
def PageState.counted : PageState → Bool
  | .dirty | .storing => true
  | .filling | .clean => false

theorem dirtyCount_eq (s : State) (u : UnitId) :
    dirtyCount s u = s.cache.directory.countP fun r => r.unit == u && r.state.counted := by
  unfold dirtyCount pagesIn
  induction s.cache.directory with
  | nil => rfl
  | cons r l ih =>
    simp only [List.countP_cons, ← ih]
    cases r.state <;> simp [PageState.counted] <;> omega

/-- R131: the count follows the one record that changes. -/
theorem dirtyCount_changed (hnodup : (s.cache.directory.map fun z => z.page).Nodup) (hr : r ∈ s.cache.directory)
    (hf : SamePlace f) (hdir : t.cache.directory = s.cache.directory.map fun z => if z.page = r.page then f z else z)
      (u : UnitId) :
    dirtyCount t u + (if r.unit = u ∧ r.state.counted then 1 else 0)
      = dirtyCount s u + if r.unit = u ∧ (f r).state.counted then 1 else 0 := by
  have hcount := countP_modify (f := f) hnodup hr fun z => z.unit == u && z.state.counted
  rw [dirtyCount_eq, dirtyCount_eq, hdir]
  simpa [hf.unit] using hcount

/-! ## One record changes, with the claim on it -/

theorem FillingBlock.changed (h : Tables X s.cache) (hr : r ∈ s.cache.directory)
    (hdir : t.cache.directory = s.cache.directory.map fun z => if z.page = r.page then f z else z)
    (hb : FillingBlock s u lba) : FillingBlock t u lba ∨ r.unit = u ∧ r.lba = lba ∧ r.state = .filling := by
  obtain ⟨z, hz, hu, hl, hfill⟩ := hb
  by_cases e : z.page = r.page
  · obtain rfl := h.eq_of_page hz hr e
    exact .inr ⟨hu, hl, hfill⟩
  · exact .inl ⟨z, hdir ▸ List.mem_map.mpr ⟨z, hz, if_neg e⟩, hu, hl, hfill⟩

/-- A record and the claim on it change, the dirty limit allowing; where the page was FILLING, its waiting ports are
about to be served. -/
theorem EngineBut.rebooked (h : EngineBut w X Y s) (hr : r ∈ s.cache.directory) (hview : poolView t = poolView s)
    (hports : t.ports = s.ports) (hunits : t.units = s.units)
    (hdir : t.cache.directory = s.cache.directory.map fun z => if z.page = r.page then f z else z) (hf : SamePlace f)
    (hlive : ∀ k, Live X' t.cache k ↔ Live X s.cache k ∧ k ∉ gone ∨ k ∈ come)
    (hgone : ∀ k ∈ gone, Live X s.cache k ∧ k.names r) (hfree : gone = none → r.state = .clean)
    (hcome : ∀ k ∈ come, k.names r ∧ (f r).state = k.state) (hclean : come = none → (f r).state = .clean)
    (horder : ∀ u, ((t.cache.dirty.get u).map fun d => d.page).Nodup)
    (hfetch : ∀ (i : Fin 16) (g : Fetch), (t.cache.fetches[i]).busy = some g → InService s g.unit)
    (hlimit : (f r).state.counted → r.state.counted ∨ dirtyCount s r.unit < (s.units.get r.unit).dirtyLimit)
    (hfill : r.state = .filling → w → ∀ n ∈ portsWaitingOn s r.unit r.lba, Y' n) (hY : ∀ n, Y n → Y' n) :
    EngineBut w X' Y' t := by
  refine h.tabled (h.pool.same hview) hports hunits
    (h.tables.rebook hr hdir hf hlive hgone hfree hcome hclean horder) hfetch (fun u => ?_) (fun u lba hb => ?_) hY
  · have hcount := dirtyCount_changed h.tables.pages hr hf hdir u
    have hold := h.limits u
    by_cases hu : r.unit = u
    · subst hu
      by_cases hnow : (f r).state.counted
      · rcases hlimit hnow with hwas | hroom
        · simp only [hwas, hnow, and_self, if_true] at hcount
          omega
        · simp only [hnow, and_self, if_true] at hcount
          omega
      · simp only [hnow, Bool.false_eq_true, and_false, if_false] at hcount
        omega
    · simp only [hu, false_and, if_false] at hcount
      omega
  · refine (hb.changed h.tables hr hdir).imp_right ?_
    rintro ⟨rfl, rfl, hst⟩
    exact hfill hst

/-- R143, R146: a record as its page becomes DIRTY. -/
def DirRecord.dirtied (r : DirRecord) : DirRecord := { r with state := .dirty, redirtied := false }

theorem samePlace_dirtied : SamePlace DirRecord.dirtied := ⟨fun _ => rfl, fun _ => rfl, fun _ => rfl⟩

/-- A record as its page becomes CLEAN. -/
def DirRecord.cleaned (r : DirRecord) : DirRecord := { r with state := .clean, age := 0 }

theorem samePlace_cleaned : SamePlace DirRecord.cleaned := ⟨fun _ => rfl, fun _ => rfl, fun _ => rfl⟩

/-- R143, R144, R148, R149: a page that was not DIRTY joins the end of its unit's dirty order; the claim on it ends. -/
theorem EngineBut.dirtied {moment : Nat} (h : EngineBut w X Y s) (hr : r ∈ s.cache.directory) (hstate : r.state ≠ .dirty)
    (hview : poolView t = poolView s) (hports : t.ports = s.ports) (hunits : t.units = s.units)
    (hdir : t.cache.directory = s.cache.directory.map fun z => if z.page = r.page then z.dirtied else z)
    (hdirty : t.cache.dirty = s.cache.dirty.modify r.unit fun l => l ++ [{ page := r.page, moment := moment }])
    (hstores : ∀ (j : Fin 8) y, (t.cache.stores[j]).busy = some y ↔ (s.cache.stores[j]).busy = some y ∧ .store j y ∉ gone)
    (hfetches : ∀ (j : Fin 16) v l, (t.cache.fetches[j]).Awaits v l
      ↔ (s.cache.fetches[j]).Awaits v l ∧ .fetch j v l ∉ gone)
    (hloose : ∀ v l, X' v l ↔ X v l ∧ .loose v l ∉ gone)
    (hgone : ∀ k ∈ gone, Live X s.cache k ∧ k.names r) (hfree : gone = none → r.state = .clean)
    (hfetch : ∀ (i : Fin 16) (g : Fetch), (t.cache.fetches[i]).busy = some g → InService s g.unit)
    (hlimit : r.state.counted ∨ dirtyCount s r.unit < (s.units.get r.unit).dirtyLimit)
    (hfill : r.state = .filling → w → ∀ n ∈ portsWaitingOn s r.unit r.lba, Y' n) (hY : ∀ n, Y n → Y' n) :
    EngineBut w X' Y' t := by
  have hnew : ∀ d ∈ s.cache.dirty.get r.unit, d.page ≠ r.page := fun d hd e =>
    hstate (h.tables.state_eq hr (k := .dirty r.unit d) hd ⟨e.symm, rfl⟩)
  have hget : ∀ v, t.cache.dirty.get v = if v = r.unit
      then s.cache.dirty.get r.unit ++ [{ page := r.page, moment := moment }] else s.cache.dirty.get v := fun v => by
    rw [hdirty, Per4.get_modify]
  refine h.rebooked (gone := gone) (come := some (.dirty r.unit { page := r.page, moment := moment })) hr hview hports hunits hdir
    samePlace_dirtied (fun k => ?_) hgone hfree ?_ (by simp) (fun v => ?_) hfetch (fun _ => hlimit) hfill hY
  · cases k with
    | fetch j v l => simpa [Live] using hfetches j v l
    | loose v l => simpa [Live] using hloose v l
    | store j y => simpa [Live] using hstores j y
    | dirty v d =>
      have hnot : Claim.dirty v d ∉ gone := fun e => hstate ((h.tables.state_eq hr (hgone _ e).1 (hgone _ e).2))
      simp only [Live, hget, hnot, not_false_eq_true, and_true, Option.mem_some_iff, Claim.dirty.injEq]
      split_ifs with e
      · simp [e, eq_comm]
      · simp [Ne.symm e]
  · rintro k ⟨⟩
    exact ⟨⟨rfl, rfl⟩, rfl⟩
  · rw [hget]
    split_ifs
    · rw [List.map_append]
      refine (h.tables.order r.unit).append (List.nodup_singleton _) fun p hp hq => ?_
      obtain ⟨d, hd, rfl⟩ := List.mem_map.mp hp
      exact hnew d hd (List.mem_singleton.mp hq)
    · exact h.tables.order v

/-- R137, R148: a page becomes CLEAN; the claim on it ends. -/
theorem EngineBut.cleaned {k₀ : Claim} (h : EngineBut w X Y s) (hr : r ∈ s.cache.directory) (hview : poolView t = poolView s)
    (hports : t.ports = s.ports) (hunits : t.units = s.units)
    (hdir : t.cache.directory = s.cache.directory.map fun z => if z.page = r.page then z.cleaned else z)
    (hdirty : t.cache.dirty = s.cache.dirty) (hlive : ∀ k, Live X' t.cache k ↔ Live X s.cache k ∧ k ≠ k₀)
    (hgone : Live X s.cache k₀) (hnames : k₀.names r)
    (hfetch : ∀ (i : Fin 16) (g : Fetch), (t.cache.fetches[i]).busy = some g → InService s g.unit)
    (hfill : r.state = .filling → w → ∀ n ∈ portsWaitingOn s r.unit r.lba, Y' n) (hY : ∀ n, Y n → Y' n) :
    EngineBut w X' Y' t := by
  refine h.rebooked (gone := some k₀) (come := none) hr hview hports hunits hdir samePlace_cleaned (fun k => ?_) ?_ (by
      simp) (by simp)
    (fun _ => rfl) (fun v => by rw [hdirty]; exact h.tables.order v) hfetch (by simp [DirRecord.cleaned, PageState.counted])
    hfill hY
  · rw [hlive]
    simp [eq_comm]
  · rintro k ⟨⟩
    exact ⟨hgone, hnames⟩

/-! ## The store engine (R147) -/

theorem getElem_setStore (c : Cache) (i j : Fin 8) (e : StoreEntry) :
    (c.setStore i e).stores[j] = if j = i then e else c.stores[j] := by
  simp only [Cache.setStore, Fin.getElem_fin, Vector.getElem_set]
  simp only [eq_comm (a := i.val), Fin.val_inj]

theorem busy_setStore (c : Cache) (i : Fin 8) (g : Byte) (y : Store) (j : Fin 8) (y' : Store) :
    ((c.setStore i { generation := g, busy := some y }).stores[j]).busy = some y'
      ↔ if j = i then y' = y else (c.stores[j]).busy = some y' := by
  rw [getElem_setStore]
  split_ifs
  · simp only [Option.some.injEq, eq_comm]
  · rfl

theorem freeStore_some {i : Fin 8} (e : freeStore s = some i) : (s.cache.stores[i]).busy = none := by
  have := List.find?_some e
  simpa using this

/-- R147: the page to be stored is the first of its unit's dirty order. -/
theorem nextToStore_some {d : DirtyPage} (e : nextToStore s = some (u, d)) : ∃ rest, s.cache.dirty.get u = d :: rest :=
    by
  refine List.foldlRecOn (motive := fun best : Option (UnitId × DirtyPage) =>
    ∀ u d, best = some (u, d) → ∃ rest, s.cache.dirty.get u = d :: rest) allNodes _ (by simp) (fun best hb v _ u d e =>
        ?_) u d e
  split_ifs at e
  · exact hb u d e
  · split at e
    · exact hb u d e
    · rename_i d' rest hhead
      cases e
      exact ⟨rest, hhead⟩
    · rename_i d' rest v' e' hhead
      split_ifs at e
      · cases e
        exact ⟨rest, hhead⟩
      · exact hb u d e

/-- R147: a DIRTY page becomes STORING. -/
protected theorem EngineBut.issueStore {i : Fin 8} {d : DirtyPage} {rest : List DirtyPage} (h : EngineBut w X Y s) (hfree :
    (s.cache.stores[i]).busy = none) (hhead : s.cache.dirty.get u = d :: rest) :
    EngineBut w X Y (issueStore i u d s) := by
  have hd : Live X s.cache (.dirty u d) := show d ∈ s.cache.dirty.get u from hhead ▸ List.mem_cons_self
  obtain ⟨r, hr, ⟨hpage, hunit⟩, hstate⟩ := h.tables.held _ hd
  have hfind : s.cache.directory.find? (fun z => z.page == d.page) = some r := hpage ▸ find?_page h.tables.pages hr
  have hrest : d ∉ rest := fun hmem => by
    have horder := h.tables.order u
    rw [hhead, List.map_cons, List.nodup_cons] at horder
    exact horder.1 (List.mem_map_of_mem hmem)
  rw [issueStore_eq hfind, ← hpage]
  have hget : ∀ v, (s.cache.dirty.modify u fun l => l.drop 1).get v = if v = u then rest else s.cache.dirty.get v :=
      fun v => by
    rw [Per4.get_modify, hhead]
    rfl
  refine h.rebooked (f := fun z => { z with state := .storing, redirtied := false }) (gone := some (.dirty u d))
    (come := some (.store i { unit := u, lba := r.lba, page := r.page, created := s.now })) hr ?_ rfl rfl rfl
    ⟨fun _ => rfl, fun _ => rfl, fun _ => rfl⟩ (fun k => ?_) ?_ (by simp) ?_ (by simp) (fun v => ?_) h.fetching (fun
        _ => .inl ?_) ?_
    fun _ => id
  · exact (poolView_modRecord (p := r.page) (f := fun z => { z with state := .storing, redirtied := false })
      (by intro _; rfl) (by intro _; rfl) :)
  · cases k with
    | fetch | loose => simp [Live]
    | store j y =>
      refine (busy_setStore s.cache i _ _ j y).trans ?_
      simp only [Live, Option.mem_some_iff, reduceCtorEq, not_false_eq_true, and_true, Claim.store.injEq]
      split_ifs with e
      · subst e
        rw [hfree]
        simp [eq_comm]
      · simp [Ne.symm e]
    | dirty v d' =>
      simp only [Live, hget, Option.mem_some_iff, Claim.dirty.injEq, reduceCtorEq, or_false]
      split_ifs with e
      · subst e
        rw [hhead, List.mem_cons]
        constructor
        · exact fun hmem => ⟨.inr hmem, fun ⟨_, e⟩ => hrest (e ▸ hmem)⟩
        · rintro ⟨hmem | hmem, hne⟩
          · exact absurd ⟨rfl, hmem.symm⟩ hne
          · exact hmem
      · simp [Ne.symm e]
  · rintro k ⟨⟩
    exact ⟨hd, hpage, hunit⟩
  · rintro k ⟨⟩
    exact ⟨⟨rfl, hunit, rfl⟩, rfl⟩
  · rw [hget]
    split_ifs with e
    · have horder := h.tables.order u
      rw [hhead, List.map_cons] at horder
      exact horder.of_cons
    · exact h.tables.order v
  · rw [hstate]
    rfl
  · rw [hstate]
    exact fun e => by cases e

protected theorem EngineBut.issueStores {k : Nat} (h : EngineBut w X Y s) : EngineBut w X Y (issueStores k s) := by
  induction k generalizing s with
  | zero => exact h
  | succ k ih =>
    unfold Machine.issueStores
    split
    · rename_i i u d hfree hnext
      obtain ⟨rest, hhead⟩ := nextToStore_some hnext
      exact ih (h.issueStore (freeStore_some hfree) hhead)
    · exact h

end

end Sys2Proof.Machine
end

section
/-!
SUPPORT. Which ports the engine touches: staging the port it stages for, a filled page those that wait on it, a write
offer those besides (R115, R132 to R137, R143 to R145).
-/

namespace Sys2Proof.Machine

section
variable {s t : State} {n m : Node} {u : UnitId} {lba : Nat}

theorem port_modPort_other (f : Port → Port) (hm : m ≠ n) : port (s.modPort n f) m = port s m := Per4.get_modify_other _ hm _

theorem port_modPort_same (f : Port → Port) : port (s.modPort n f) n = (f (port s n)).settleTimer :=
    Per4.get_modify_same _ _ _

theorem port_congr (h : t.ports = s.ports) (n : Node) : port t n = port s n := by rw [port, h, port]

theorem ports_leaveContent (g : Holder) (p : PageId) (s : State) : (leaveContent g p s).ports = s.ports := by
  cases g with
  | ch n =>
    obtain ⟨-, -, -, -, -, -, -, hports, -⟩ := oldestPageLeaves_frame n s
    exact hports
  | mh v => rfl

theorem ports_allocate (h : Holder) (why : Purpose) (s : State) : (allocate h why s).2.ports = s.ports := by
  rcases allocate_cases h why s with ⟨p, -, -, e⟩ | ⟨g, p, -, -, e⟩ | ⟨p, -, -, -, e⟩ | e <;> rw [e]
  · rfl
  · exact ports_leaveContent g p s
  · exact ports_leaveContent h p s
  · rfl

theorem ports_collectPages (u : UnitId) (last k x : Nat) (s : State) : (collectPages u last k x s).2.ports = s.ports :=
    by
  induction k generalizing x s with
  | zero => rfl
  | succ k ih =>
    have hallocate := ports_allocate (.mh u) .demand s
    unfold collectPages
    split
    · rfl
    · split
      · rename_i e
        rwa [e] at hallocate
      · rename_i e
        rw [e] at hallocate
        exact (ih _ _).trans hallocate

theorem port_endCommand_other (st : Status) (hm : m ≠ n) : port (endCommand n st s) m = port s m := by
  rw [port_endCommand, if_neg hm]

theorem port_copyToSlot_other (r : DirRecord) (hm : m ≠ n) : port (copyToSlot n r s) m = port s m := port_modPort_other _ hm

theorem port_demandFetch_other {x last : Nat} (hm : m ≠ n) : port (demandFetch n u x last s) m = port s m := by
  have hpages := port_congr (ports_collectPages u last 8 x s) m
  unfold demandFetch
  dsimp only
  split
  · exact (port_endCommand_other .busy hm).trans hpages
  · exact (port_modPort_other _ hm).trans ((port_congr (allocFetch_frame _ _ _ _).2.1 m).trans hpages)

/-- R115: staging for a port leaves the other ports alone. -/
theorem port_stage_other {k : Nat} (hm : m ≠ n) : port (stage n k s) m = port s m := by
  induction k generalizing s with
  | zero => rfl
  | succ k ih =>
    unfold stage
    dsimp only
    split
    · rfl
    · split
      · split
        · rfl
        · split
          · split
            · exact port_modPort_other _ hm
            · exact ih.trans (port_copyToSlot_other _ hm)
          · split
            · exact port_demandFetch_other hm
            · exact port_modPort_other _ hm
      · rfl

theorem port_foldl_other {f : State → Node → State} {l : List Node} (hf : ∀ t n, m ≠ n → port (f t n) m = port t m) (hm : m ∉ l)
    (s : State) : port (l.foldl f s) m = port s m :=
  List.foldlRecOn (motive := fun t => port t m = port s m) l f rfl fun t ht n hn =>
    (hf t n fun e => hm (e ▸ hn)).trans ht

theorem port_inFreeOrder_other {f : Node → State → State} {l : List Node} (hf : ∀ n t, m ≠ n → port (f n t) m = port t m)
    (hm : m ∉ l) (s : State) : port (s.inFreeOrder l f) m = port s m :=
  port_foldl_other (f := fun t n => f n t) (fun t n => hf n t)
    (fun h => hm ((freeOrder_perm s.choices l).mem_iff.mp h)) (s.drew l.length)

/-- R132: a filled page changes the ports that wait on it alone. -/
theorem port_servePorts_other (hm : m ∉ portsWaitingOn s u lba) : port (servePorts u lba s) m = port s m := by
  unfold servePorts
  split
  · rfl
  · exact (port_inFreeOrder_other (fun n t h => port_stage_other h) hm _).trans
      (port_foldl_other (fun t n h => port_copyToSlot_other _ h) hm s)

theorem ports_issueStores (k : Nat) (s : State) : (issueStores k s).ports = s.ports := by
  induction k generalizing s with
  | zero => rfl
  | succ k ih =>
    unfold issueStores
    split
    · exact (ih _).trans rfl
    · rfl

/-- R143, R144: an offer changes no port that waits on no page. -/
theorem port_offer (hm : (port s m).wait ≠ .page) : port (offer n s).2 m = port s m := by
  unfold offer
  split
  · dsimp only
    split
    · split
      · rfl
      · rfl
      · split <;> rfl
      · split
        · rfl
        · exact port_servePorts_other fun h => hm (mem_portsWaitingOn.mp h).1
    · split
      · rfl
      · split
        · rename_i e
          exact port_congr (e ▸ ports_allocate (.mh _) .write s :) m
        · rename_i e
          exact port_congr (e ▸ ports_allocate (.mh _) .write s :) m
  · rfl

/-- R120: an accepted block changes nothing in the ports but its own, which waits as before or no more. -/
theorem wait_acceptBlock (hm : (port s m).wait ≠ .page) : (port (acceptBlock n s) m).wait ≠ .page := by
  unfold acceptBlock
  split
  · exact hm
  · dsimp only
    by_cases e : m = n
    · subst e
      split
      · rw [port_endCommand, if_pos rfl, Port.ended, port_modPort_same]
        simp [Port.settleTimer, endedPort]
      · rw [port_modPort_same]
        exact hm
    · split
      · rwa [port_endCommand_other _ e, port_modPort_other _ e]
      · rwa [port_modPort_other _ e]

/-- R120, R145: the write offers of a port make no port wait on a page. -/
theorem wait_offerBlocks {k : Nat} (hm : (port s m).wait ≠ .page) : (port (offerBlocks n k s) m).wait ≠ .page := by
  have hmod : ∀ {t : State} {x : Wait}, x ≠ .page → (port t m).wait ≠ .page →
      (port (t.modPort n fun p => { p with wait := x }) m).wait ≠ .page := fun {t x} hx ht => by
    by_cases e : m = n
    · subst e
      rwa [port_modPort_same]
    · rwa [port_modPort_other _ e]
  induction k generalizing s with
  | zero => exact hm
  | succ k ih =>
    unfold offerBlocks
    split
    · exact hmod (by decide) hm
    · split
      · rename_i t e
        have hoffer : port t m = port s m := (congrArg (fun x => port x.2 m) e).symm.trans (port_offer hm)
        refine ih ?_
        rw [port_congr (ports_issueStores _ _)]
        exact wait_acceptBlock (by rwa [hoffer])
      · rename_i t e
        have hoffer : port t m = port s m := (congrArg (fun x => port x.2 m) e).symm.trans (port_offer hm)
        exact hmod (by decide) (by rwa [hoffer])

end

end Sys2Proof.Machine
end

section
/-!
SUPPORT. Write offers under the law of the engine (R120, R143 to R145): a page found or obtained takes the node's data
within the dirty limit of its unit, and the held writes follow.
-/

namespace Sys2Proof.Machine

section
variable {w : Prop} {X X' : UnitId → Nat → Prop} {Y Y' : Node → Prop} {s t : State} {n m : Node} {u v : UnitId} {lba : Nat}
  {r : DirRecord}

/-! ## A page takes a node's data (R143, R144) -/

@[simp] theorem engineView_writePage (p : PageId) (data : List Byte) (s : State) :
    engineView (writePage p data s) = engineView s := rfl

@[simp] theorem stores_makeDirty (u : UnitId) (p : PageId) (data : List Byte) (s : State) :
    (makeDirty u p data s).cache.stores = s.cache.stores := rfl

@[simp] theorem fetches_makeDirty (u : UnitId) (p : PageId) (data : List Byte) (s : State) :
    (makeDirty u p data s).cache.fetches = s.cache.fetches := rfl

/-- R143: a CLEAN page becomes DIRTY. -/
theorem EngineBut.cleanDirtied (h : EngineBut w X Y s) (hr : r ∈ s.cache.directory) (hclean : r.state = .clean)
    (hroom : dirtyCount s r.unit < (s.units.get r.unit).dirtyLimit) (data : List Byte) :
    EngineBut w X Y (makeDirty r.unit r.page data s) :=
  h.dirtied (gone := none) (moment := s.cache.joins) hr (by simp [hclean]) (by simp) rfl rfl rfl rfl (by simp)
    (by simp) (by simp) (by simp) (fun _ => hclean) h.fetching (.inr hroom) (by simp [hclean]) fun _ => id

/-- R143: a page just obtained for a block becomes DIRTY. -/
theorem EngineBut.looseDirtied (h : EngineBut w (Run u lba (lba + 1)) Y s) (hr : r ∈ s.cache.directory) (hunit : r.unit = u)
    (hlba : r.lba = lba) (hroom : dirtyCount s u < (s.units.get u).dirtyLimit)
    (hwaits : w → ∀ n, n ∉ portsWaitingOn s u lba) (data : List Byte) :
    EngineBut w noLoose Y (makeDirty u r.page data s) := by
  subst hunit hlba
  have hloose : Live (Run r.unit r.lba (r.lba + 1)) s.cache (.loose r.unit r.lba) := ⟨rfl, le_rfl, Nat.lt_succ_self _⟩
  have hfill : r.state = .filling := h.tables.state_eq hr hloose ⟨rfl, rfl⟩
  refine h.dirtied (gone := some (.loose r.unit r.lba)) (moment := s.cache.joins) hr (by simp [hfill]) (by simp) rfl rfl rfl rfl
    (by simp) (by simp) (fun v l => ?_) ?_ (by simp)
    h.fetching (.inr hroom) (fun _ hw n hn => absurd hn (hwaits hw n)) fun _ => id
  · simp only [Run, Option.mem_some_iff, Claim.loose.injEq]
    refine iff_of_false id ?_
    rintro ⟨⟨rfl, hle, hlt⟩, hne⟩
    exact hne ⟨rfl, by omega⟩
  · rintro k ⟨⟩
    exact ⟨hloose, rfl, rfl⟩

/-- R137, R144: a block that comes in, or is overtaken, is WAITING no more; the others stay. -/
theorem mem_waitingBlocks_set {f : Fetch} {st : BlockState} {l : Nat} (hst : st ≠ .waiting) (hle : f.first ≤ lba) :
    l ∈ waitingBlocks { f with blocks := f.blocks.set (lba - f.first) st } ↔ l ∈ waitingBlocks f ∧ l ≠ lba := by
  rw [mem_waitingBlocks, mem_waitingBlocks, and_assoc]
  refine and_congr_right fun hl => ?_
  dsimp only at hl ⊢
  rw [List.getElem?_set]
  by_cases e : l = lba
  · subst e
    simp [hst]
  · rw [if_neg (by omega)]
    simp [e]

/-- R144: the WAITING blocks of a fetch of which one is overtaken. -/
theorem mem_waitingBlocks_overtaken {f : Fetch} {l : Nat} :
    l ∈ waitingBlocks (overtakeBlock u lba f) ↔ l ∈ waitingBlocks f ∧ ¬ (f.unit = u ∧ l = lba) := by
  unfold overtakeBlock
  split
  · rename_i hthis
    obtain ⟨hu, hle, -⟩ := hthis
    rw [mem_waitingBlocks_set (by decide) hle]
    simp [hu]
  · rename_i hnot
    refine (and_iff_left_of_imp fun hl => ?_).symm
    rintro ⟨hu, rfl⟩
    obtain ⟨hle, hwaiting⟩ := mem_waitingBlocks.mp hl
    exact hnot ⟨hu, hle, hwaiting⟩

theorem unit_overtakeBlock (f : Fetch) : (overtakeBlock u lba f).unit = f.unit := by
  unfold overtakeBlock
  split <;> rfl

/-- R144: a FILLING page becomes DIRTY, its fetch's block OVERTAKEN, and the ports that wait on it are served. -/
theorem EngineBut.overtaken (h : EngineHolds w s) (hr : r ∈ s.cache.directory) (hfill : r.state = .filling)
    (hroom : dirtyCount s r.unit < (s.units.get r.unit).dirtyLimit) (data : List Byte) :
    EngineHolds w (overtake r.unit r.lba r.page data s) := by
  obtain ⟨k, hk, hkr⟩ := h.tables.claimed r hr (by simp [hfill])
  obtain ⟨i, rfl⟩ : ∃ i, k = .fetch i r.unit r.lba := by
    have hstate := (h.tables.state_eq hr hk hkr).symm.trans hfill
    cases k with
    | fetch i u lba =>
      obtain ⟨rfl, rfl⟩ := hkr
      exact ⟨i, rfl⟩
    | loose u lba => exact hk.elim
    | store | dirty => simp [Claim.state] at hstate
  have hbusy : ∀ (j : Fin 16) g,
      ((s.cache.fetches.map fun e : FetchEntry => { e with busy := e.busy.map (overtakeBlock r.unit r.lba) })[j]).busy = some g
        ↔ ∃ f, (s.cache.fetches[j]).busy = some f ∧ overtakeBlock r.unit r.lba f = g := fun j g => by
    simp
  have hdirtied : EngineBut w noLoose (· ∈ portsWaitingOn s r.unit r.lba) ((makeDirty r.unit r.page data s).modCache fun c =>
      { c with fetches := c.fetches.map fun e => { e with busy := e.busy.map (overtakeBlock r.unit r.lba) } }) := by
    refine h.dirtied (gone := some (.fetch i r.unit r.lba)) (moment := s.cache.joins) hr (by simp [hfill])
      (by simp) rfl rfl rfl rfl (by simp) (fun j v l => ?_) (by simp) ?_ (by simp)
      (fun j g hg => ?_) (.inr hroom) (fun _ _ n hn => hn) fun _ => False.elim
    · have honly : ∀ v l, (s.cache.fetches[j]).Awaits v l → v = r.unit → l = r.lba → j = i := fun v l hl hv hll => by
        subst hv hll
        have := h.tables.once r hr (.fetch j r.unit r.lba) (.fetch i r.unit r.lba) hl hk ⟨rfl, rfl⟩ ⟨rfl, rfl⟩
        simpa using this
      constructor
      · rintro ⟨g, hg, rfl, hl⟩
        obtain ⟨f, hf, rfl⟩ := (hbusy j g).mp hg
        rw [unit_overtakeBlock]
        obtain ⟨hl, hne⟩ := mem_waitingBlocks_overtaken.mp hl
        refine ⟨⟨f, hf, rfl, hl⟩, fun e => hne ?_⟩
        obtain ⟨-, hv, hll⟩ : i = j ∧ r.unit = f.unit ∧ r.lba = l := by simpa using e
        exact ⟨hv.symm, hll.symm⟩
      · rintro ⟨⟨f, hf, rfl, hl⟩, hne⟩
        refine ⟨_, (hbusy j _).mpr ⟨f, hf, rfl⟩, unit_overtakeBlock f, mem_waitingBlocks_overtaken.mpr ⟨hl, ?_⟩⟩
        rintro ⟨hv, rfl⟩
        obtain rfl := honly f.unit r.lba ⟨f, hf, rfl, hl⟩ hv rfl
        exact hne (by simp [hv])
    · rintro k ⟨⟩
      exact ⟨hk, hkr⟩
    · obtain ⟨f, hf, rfl⟩ := (hbusy j g).mp hg
      rw [unit_overtakeBlock]
      exact h.fetching j f hf
  refine EngineBut.servePorts hdirtied ⟨r.dirtied, ?_, rfl, rfl⟩
  exact List.mem_map.mpr ⟨r, hr, if_pos rfl⟩

/-! ## An offer (R120, R143) -/

protected theorem EngineBut.offer (h : EngineHolds w s) : EngineHolds w (offer n s).2 := by
  unfold Machine.offer
  split
  · rename_i slot _ u _ hu
    have hservice := h.unitOf_inService hu
    dsimp only
    split
    · rename_i r hfind
      obtain ⟨hr, rfl, hlba⟩ := findBlock_unit hfind
      split
      · exact h.same (by simp) (by simp)
      · exact (h.same (poolView_writePage _ _ _) (engineView_writePage _ _ _)).redressed r.page
          ⟨fun _ => rfl, fun _ => rfl, fun _ => rfl⟩ fun _ => rfl
      · split
        · exact h
        · rename_i hstate hfull
          exact h.cleanDirtied hr hstate (Nat.lt_of_not_le hfull) slot.data
      · split
        · exact h
        · rename_i hstate hfull
          rw [← hlba]
          exact h.overtaken hr hstate (Nat.lt_of_not_le hfull) slot.data
    · rename_i hmiss
      split
      · exact h
      · rename_i hfull
        split
        · rename_i e
          exact h.unallocated e
        · rename_i p t e
          have he := evicted_of_allocate h.pool e
          have hpage := (h.loosely run_empty).obtained hservice hmiss e (run_succ le_rfl)
          have hmem : fillingRecord u slot.lba p ∈ (addRecord (fillingRecord u slot.lba p) t).cache.directory :=
            (insertRecord_perm _ _).mem_iff.mpr List.mem_cons_self
          have hcount : dirtyCount (addRecord (fillingRecord u slot.lba p) t) u = dirtyCount t u := by
            have hperm : (addRecord (fillingRecord u slot.lba p) t).cache.directory.Perm
              (fillingRecord u slot.lba p :: t.cache.directory) := insertRecord_perm _ _
            rw [dirtyCount_eq, dirtyCount_eq, hperm.countP_eq, List.countP_cons]
            simp [fillingRecord, PageState.counted]
          refine hpage.looseDirtied hmem rfl rfl ?_ (fun hw n hn => ?_) slot.data
          · rw [hcount]
            refine ((he.dirtyCount_le u).trans_lt (Nat.lt_of_not_le hfull)).trans_eq ?_
            exact congrArg (fun x => (x.get u).dirtyLimit) he.units.symm
          · obtain ⟨hwait, hunit, a, ha, hnext⟩ := mem_portsWaitingOn.mp hn
            have hport : port (addRecord (fillingRecord u slot.lba p) t) n = port s n := port_congr he.ports n
            have hunits : unitOf (addRecord (fillingRecord u slot.lba p) t) n = unitOf s n := unitOf_congr (fun v => by
              exact congrArg (fun x => (x.get v).nodes) he.units) n
            rw [hport] at hwait ha hnext
            rw [hunits] at hunit
            rcases h.waits hw n hwait with ⟨a', u', ha', -, hu', r, hr, hru, hrl, -⟩ | ⟨hno, -⟩
            · obtain rfl : a' = a := Option.some.inj (ha'.symm.trans ha)
              obtain rfl : u' = u := Option.some.inj (hu'.symm.trans hunit)
              exact findBlock_eq_none.mp hmiss r hr ⟨hru, hrl.trans hnext⟩
            · exact hno
  · exact h

theorem EngineBut.of_offer {b : Bool} (h : EngineHolds w s) (e : Machine.offer n s = (b, t)) : EngineHolds w t := by
  have := h.offer (n := n)
  rwa [e] at this

/-- R120: an accepted block of a port that waits on no page leaves its slot. -/
protected theorem EngineBut.acceptBlock (h : EngineBut w X Y s) (hwait : w → (port s n).wait ≠ .page) :
    EngineBut w X Y (acceptBlock n s) := by
  unfold Machine.acceptBlock
  split
  · exact h
  · rename_i a ha
    have hport : EngineBut w X Y (s.modPort n fun p =>
        { p with slots := p.slots.drop 1, active := some { a with done := a.done + 1 } }) :=
      h.ported (fun hw e => absurd e (hwait hw)) fun _ _ => id
    exact (hport.endCommand _).ite hport

protected theorem EngineBut.offerBlocks {k : Nat} (h : EngineHolds w s) (hwait : w → (port s n).wait ≠ .page) : EngineHolds w
    (offerBlocks n k s) := by
  induction k generalizing s with
  | zero => exact h
  | succ k ih =>
    unfold Machine.offerBlocks
    split
    · exact h.served_port (by simp) fun _ _ => id
    · split
      · rename_i t e
        have hport : w → port t n = port s n := fun hw => (congrArg (fun x => port x.2 n) e).symm.trans (port_offer (hwait hw))
        have hwaits : w → (port t n).wait ≠ .page := fun hw => hport hw ▸ hwait hw
        refine ih ((h.of_offer e).acceptBlock hwaits).issueStores fun hw => ?_
        rw [port_congr (ports_issueStores _ _)]
        exact wait_acceptBlock (hwaits hw)
      · rename_i t e
        exact (h.of_offer e).served_port (by simp) fun _ _ => id

/-- R145: the held writes are offered again. -/
protected theorem EngineBut.retryHeld (h : EngineHolds w s) : EngineHolds w (retryHeld s) := by
  have hfold : ∀ (l : List Node) {t : State}, EngineHolds w t → (∀ m ∈ l, (port t m).wait ≠ .page) →
      EngineHolds w (l.foldl (fun t n => Machine.offerBlocks n offerFuel t) t) := fun l => by
    induction l with
    | nil => exact fun h _ => h
    | cons n l ih =>
      exact fun h hl => ih (h.offerBlocks fun _ => hl n List.mem_cons_self) fun m hm =>
        wait_offerBlocks (hl m (List.mem_cons_of_mem n hm))
  refine hfold _ (h.same (poolView_drew _ _) (engineView_drew _ _)) fun m hm => ?_
  have hheld := (List.mem_filter.mp ((freeOrder_perm s.choices _).mem_iff.mp hm)).2
  intro hpage
  exact state_ne_writeHeld (p := port s m) (by rw [show (port s m).wait = .page from hpage]; decide) (by simpa using hheld)

protected theorem EngineBut.poolChanged (h : EngineHolds w s) : EngineHolds w (poolChanged s) :=
  h.retryHeld.issueStores

end

end Sys2Proof.Machine
end

section
/-!
SUPPORT. The answers to calls under the law of the engine (R137 to R140, R148, R149): a filled page, the end of a fetch
entry with its pages, the end of a store, a store fault, and the end of a drain.
-/

namespace Sys2Proof.Machine

section
variable {w : Prop} {X X' : UnitId → Nat → Prop} {Y Y' : Node → Prop} {s t : State} {n m : Node} {u v : UnitId} {lba : Nat}
  {r : DirRecord} {i : Fin 16} {f : Fetch}

/-! ## The blocks of an entry (R137) -/

theorem fetchOf_some {tag : Tag} (e : fetchOf s tag = some (i, f)) : (s.cache.fetches[i]).busy = some f := by
  unfold fetchOf at e
  dsimp only at e
  split_ifs at e
  obtain ⟨g, hg, heq⟩ := Option.map_eq_some_iff.mp e
  cases heq
  exact hg

theorem storeOf_some {tag : Tag} {j : Fin 8} {y : Store} (e : storeOf s tag = some (j, y)) :
    (s.cache.stores[j]).busy = some y := by
  unfold storeOf at e
  dsimp only at e
  split_ifs at e
  obtain ⟨g, hg, heq⟩ := Option.map_eq_some_iff.mp e
  cases heq
  exact hg

/-- R137: a fetch whose block has come in, or had been overtaken. -/
def Fetch.received (f : Fetch) (lba : Nat) : Fetch := { f with blocks := f.blocks.set (lba - f.first) .received }

theorem mem_waitingBlocks_received (hle : f.first ≤ lba) {l : Nat} :
    l ∈ waitingBlocks (f.received lba) ↔ l ∈ waitingBlocks f ∧ l ≠ lba := mem_waitingBlocks_set (by decide) hle

theorem busy_receiveBlock (hf : (s.cache.fetches[i]).busy = some f) (j : Fin 16) (g : Fetch) :
    ((receiveBlock i (lba - f.first) s).cache.fetches[j]).busy = some g
      ↔ if j = i then g = f.received lba else (s.cache.fetches[j]).busy = some g := by
  show ((s.cache.setFetch i _).fetches[j]).busy = some g ↔ _
  rw [hf]
  exact busy_setFetch s.cache i _ _ j g

/-- R137: the WAITING blocks after one has come in. -/
theorem awaits_receiveBlock (hf : (s.cache.fetches[i]).busy = some f) (hle : f.first ≤ lba) (j : Fin 16) (v : UnitId) (l : Nat) :
    ((receiveBlock i (lba - f.first) s).cache.fetches[j]).Awaits v l
      ↔ (s.cache.fetches[j]).Awaits v l ∧ ¬ (j = i ∧ v = f.unit ∧ l = lba) := by
  simp only [FetchEntry.Awaits, busy_receiveBlock hf]
  split_ifs with e
  · subst e
    rw [hf]
    constructor
    · rintro ⟨g, rfl, rfl, hl⟩
      obtain ⟨hl, hne⟩ := (mem_waitingBlocks_received hle).mp hl
      exact ⟨⟨f, rfl, rfl, hl⟩, fun ⟨_, _, e⟩ => hne e⟩
    · rintro ⟨⟨g, hg, rfl, hl⟩, hne⟩
      cases hg
      exact ⟨_, rfl, rfl, (mem_waitingBlocks_received hle).mpr ⟨hl, fun e => hne ⟨rfl, rfl, e⟩⟩⟩
  · simp [e]

theorem fetching_receiveBlock (h : EngineBut w X Y s) (hf : (s.cache.fetches[i]).busy = some f) (j : Fin 16) (g : Fetch) (hg :
    ((receiveBlock i (lba - f.first) s).cache.fetches[j]).busy = some g) : InService s g.unit := by
  rw [busy_receiveBlock hf] at hg
  split_ifs at hg
  · subst hg
    exact h.fetching i f hf
  · exact h.fetching j g hg

/-! ## A FILL answer (R137) -/

/-- R137: the entry of an OVERTAKEN block that comes in. -/
theorem EngineBut.overtakenReceived (h : EngineBut w X Y s) (hf : (s.cache.fetches[i]).busy = some f) (hle : f.first ≤ lba)
    (hnot : lba ∉ waitingBlocks f) : EngineBut w X Y (receiveBlock i (lba - f.first) s) := by
  refine h.tabled (h.pool.same (poolView_receiveBlock _ _ s)) rfl rfl (h.tables.congr rfl (fun k => ?_) rfl)
    (fetching_receiveBlock h hf) h.limits (fun _ _ hb => .inl hb) fun _ => id
  cases k with
  | fetch j v l =>
    refine (awaits_receiveBlock hf hle j v l).trans (and_iff_left_of_imp fun ⟨g, hg, hv, hl⟩ => ?_)
    rintro ⟨rfl, -, rfl⟩
    rw [hf] at hg
    cases hg
    exact hnot hl
  | loose | store | dirty => exact Iff.rfl

/-- R137: an awaited block gets its content, and the ports that wait on it are served. -/
theorem EngineBut.filledPage (h : EngineHolds w s) (hf : (s.cache.fetches[i]).busy = some f) (hwaiting : lba ∈ waitingBlocks f)
    (data : List Byte) :
    EngineHolds w (servePorts f.unit lba (receiveBlock i (lba - f.first) (fillPage f.unit lba data s))) := by
  have hlive : Live noLoose s.cache (.fetch i f.unit lba) := ⟨f, hf, rfl, hwaiting⟩
  obtain ⟨r, hr, ⟨hunit, hlba⟩, hstate⟩ := h.tables.held _ hlive
  have hfind : findBlock s f.unit lba = some r := by
    cases hfind : findBlock s f.unit lba with
    | none => exact absurd ⟨hunit, hlba⟩ (findBlock_eq_none.mp hfind r hr)
    | some x =>
      obtain ⟨hx, hxu, hxl⟩ := findBlock_unit hfind
      rw [h.tables.eq_of_block hx hr (hxu.trans hunit.symm) (hxl.trans hlba.symm)]
  have hfill : fillPage f.unit lba data s = modRecord r.page DirRecord.cleaned (writePage r.page data s) := by
    rw [fillPage, hfind]
    rfl
  have hf' : ((fillPage f.unit lba data s).cache.fetches[i]).busy = some f := by
    rw [hfill]
    exact hf
  have hle := (mem_waitingBlocks.mp hwaiting).1
  have hcleaned : EngineBut w noLoose (· ∈ portsWaitingOn s r.unit r.lba)
      (receiveBlock i (lba - f.first) (fillPage f.unit lba data s)) := by
    have hawaits := awaits_receiveBlock (s := fillPage f.unit lba data s) hf' hle
    have hbusy := busy_receiveBlock (s := fillPage f.unit lba data s) (lba := lba) hf'
    rw [hfill] at hawaits hbusy ⊢
    refine h.cleaned (k₀ := .fetch i f.unit lba) hr ?_ rfl rfl rfl rfl (fun k => ?_) hlive ⟨hunit, hlba⟩
      (fun j g hg => ?_) (fun _ _ _ hn => hn) fun _ => False.elim
    · rw [poolView_receiveBlock, poolView_modRecord samePlace_cleaned.page samePlace_cleaned.unit, poolView_writePage]
    · cases k with
      | fetch j v l =>
        rw [ne_eq, Claim.fetch.injEq]
        exact hawaits j v l
      | loose | store | dirty => simp [Live, receiveBlock, modRecord, writePage, Cache.setFetch]
    · rw [hbusy] at hg
      split_ifs at hg
      · subst hg
        exact h.fetching i f hf
      · exact h.fetching j g hg
  rw [hunit, hlba] at hcleaned
  have hports : portsWaitingOn (receiveBlock i (lba - f.first) (fillPage f.unit lba data s)) f.unit lba
      = portsWaitingOn s f.unit lba := by
    rw [hfill]
    rfl
  refine EngineBut.servePorts (hports.symm ▸ hcleaned) ⟨r.cleaned, ?_, hunit, hlba⟩
  rw [hfill]
  exact List.mem_map.mpr ⟨r, hr, if_pos rfl⟩

/-! ## The end of a fetch entry (R137, R138) -/

theorem busy_freeFetchEntry (j : Fin 16) (g : Fetch) : ((freeFetchEntry i s).cache.fetches[j]).busy = some g
    ↔ j ≠ i ∧ (s.cache.fetches[j]).busy = some g := by
  show ((s.cache.setFetch i _).fetches[j]).busy = some g ↔ _
  rw [getElem_setFetch]
  split_ifs with e <;> simp [e]

/-- R137: an entry without WAITING blocks is freed. -/
theorem EngineBut.entryFreed (h : EngineBut w X Y s) (hf : (s.cache.fetches[i]).busy = some f) (hnone : ∀ l, l ∉ waitingBlocks f)
    :
    EngineBut w X Y (freeFetchEntry i s) := by
  refine h.tabled (h.pool.same (poolView_freeFetchEntry i s)) rfl rfl (h.tables.congr rfl (fun k => ?_) rfl)
    (fun j g hg => h.fetching j g ((busy_freeFetchEntry j g).mp hg).2) h.limits (fun _ _ hb => .inl hb) fun _ => id
  cases k with
  | fetch j v l =>
    simp only [Live, FetchEntry.Awaits, busy_freeFetchEntry]
    refine exists_congr fun g => ⟨fun ⟨⟨_, hg⟩, hgl⟩ => ⟨hg, hgl⟩, fun ⟨hg, hgl⟩ => ⟨⟨?_, hg⟩, hgl⟩⟩
    rintro rfl
    rw [hf] at hg
    cases hg
    exact hnone l hgl.2
  | loose | store | dirty => exact Iff.rfl

protected theorem EngineBut.fetchProgress (h : EngineHolds w s) : EngineHolds w (fetchProgress i s) := by
  unfold Machine.fetchProgress
  split
  · rename_i f hf
    split
    · rename_i hall
      refine (h.entryFreed hf fun l hl => ?_).serveEntryWait
      obtain ⟨-, hwaiting⟩ := mem_waitingBlocks.mp hl
      have := List.all_eq_true.mp hall .waiting (List.mem_of_getElem? hwaiting)
      cases this
    · exact h
  · exact h

protected theorem EngineBut.strayAnswer (h : EngineBut w X Y s) : EngineBut w X Y (strayAnswer s) :=
  h.same (by simp) rfl

protected theorem EngineBut.fillAnswer {tag : Tag} {data : List Byte} (h : EngineHolds w s) :
    EngineHolds w (fillAnswer tag lba data s) := by
  unfold Machine.fillAnswer
  split
  · exact h.strayAnswer
  · rename_i i f htag
    have hf := fetchOf_some htag
    split
    · exact h.strayAnswer
    · rename_i hle
      have hle := Nat.le_of_not_lt hle
      split
      · exact h.strayAnswer
      · exact h.strayAnswer
      · rename_i hblock
        exact (h.filledPage hf (mem_waitingBlocks.mpr ⟨hle, hblock⟩) data).fetchProgress.poolChanged
      · rename_i hblock
        refine (h.overtakenReceived hf hle fun hl => ?_).fetchProgress
        have := (mem_waitingBlocks.mp hl).2
        rw [hblock] at this
        cases this

/-- R138: an entry is ended, and the FILLING pages of its WAITING blocks are freed: the ports that wait on one are left.
-/
protected theorem EngineBut.dropFetch (h : EngineBut w X Y s) (hf : (s.cache.fetches[i]).busy = some f) (hY : ∀ n, Y n → Y' n)
    (hserve : ∀ lba ∈ waitingBlocks f, w → ∀ n ∈ portsWaitingOn s f.unit lba, Y' n) : EngineBut w X Y' (dropFetch i f s) := by
  have hmem : ∀ r, r ∈ (dropFetch i f s).cache.directory
      ↔ r ∈ s.cache.directory ∧ ¬ (r.unit = f.unit ∧ r.lba ∈ waitingBlocks f) := fun r =>
    mem_freeBlocks ⟨h.tables.pages, h.tables.blocks⟩
  have hsub := (PagesFreed.dropFetch h.tables.pages (i := i) (f := f) rfl).sublist
  have hpool := h.pool.dropFetch (i := i) (f := f)
  have hfetch : ∀ (j : Fin 16) g, ((dropFetch i f s).cache.fetches[j]).busy = some g ↔ j ≠ i ∧
      (s.cache.fetches[j]).busy = some g := by
    obtain ⟨d, o, e⟩ := dropFetch_eq i f s
    rw [e]
    exact fun j g => busy_freeFetchEntry j g
  obtain ⟨hports, hunits, hstores, hdirty⟩ : (dropFetch i f s).ports = s.ports ∧ (dropFetch i f s).units = s.units
      ∧ (dropFetch i f s).cache.stores = s.cache.stores ∧ (dropFetch i f s).cache.dirty = s.cache.dirty := by
    obtain ⟨d, o, e⟩ := dropFetch_eq i f s
    rw [e]
    exact ⟨rfl, rfl, rfl, rfl⟩
  generalize dropFetch i f s = t at *
  have hown : ∀ k, Live X s.cache k → ∀ r ∈ s.cache.directory, k.names r → r.unit = f.unit → r.lba ∈ waitingBlocks f →
      k = .fetch i r.unit r.lba := fun k hk r hr hkr hu hl =>
    h.tables.once r hr k _ hk ⟨f, hf, hu.symm, hl⟩ hkr ⟨rfl, rfl⟩
  refine h.tabled hpool hports hunits (h.tables.sublist hsub (fun k => ?_) fun u => by rw [hdirty])
    (fun j g hg => h.fetching j g ((hfetch j g).mp hg).2) (fun u => ?_) (fun u lba hb => ?_) hY
  · have hstays : (∀ r ∈ s.cache.directory, k.names r → r ∈ t.cache.directory)
        ↔ ∀ r ∈ s.cache.directory, k.names r → ¬ (r.unit = f.unit ∧ r.lba ∈ waitingBlocks f) :=
      forall₃_congr fun r hr _ => (hmem r).trans (and_iff_right hr)
    rw [hstays]
    have hother : (∀ u l, k ≠ .fetch i u l) → Live X s.cache k →
        ∀ r ∈ s.cache.directory, k.names r → ¬ (r.unit = f.unit ∧ r.lba ∈ waitingBlocks f) :=
      fun hne hk r hr hkr ⟨hu, hl⟩ => hne _ _ (hown k hk r hr hkr hu hl)
    cases k with
    | fetch j v l =>
      simp only [Live, FetchEntry.Awaits, hfetch]
      constructor
      · rintro ⟨g, ⟨hj, hg⟩, hv, hl⟩
        exact ⟨⟨g, hg, hv, hl⟩, hother (fun u l e => hj (by cases e; rfl)) ⟨g, hg, hv, hl⟩⟩
      · rintro ⟨⟨g, hg, hv, hl⟩, hstay⟩
        refine ⟨g, ⟨?_, hg⟩, hv, hl⟩
        rintro rfl
        obtain rfl : g = f := Option.some.inj (hg.symm.trans hf)
        obtain ⟨r, hr, hkr, -⟩ := h.tables.held (.fetch j v l) ⟨g, hg, hv, hl⟩
        exact hstay r hr hkr ⟨hkr.1.trans hv.symm, hkr.2 ▸ hl⟩
    | loose v l => exact iff_self_and.mpr (hother (by simp))
    | store j y =>
      simp only [Live, hstores]
      exact iff_self_and.mpr (hother (by simp))
    | dirty v d =>
      simp only [Live, hdirty]
      exact iff_self_and.mpr (hother (by simp))
  · exact (Nat.add_le_add hsub.countP_le hsub.countP_le).trans (h.limits u)
  · obtain ⟨r, hr, rfl, rfl, hfill⟩ := hb
    by_cases hgone : r.unit = f.unit ∧ r.lba ∈ waitingBlocks f
    · obtain ⟨hu, hl⟩ := hgone
      exact .inr (hu ▸ hserve r.lba hl)
    · exact .inl ⟨r, (hmem r).mpr ⟨hr, hgone⟩, rfl, rfl, hfill⟩

/-- R112: the commands of ports that are left end. -/
theorem EngineBut.commandsEnd {l : List Node} (h : EngineBut w X (· ∈ l) s) (st : Status) :
    EngineBut w X noPort (l.foldl (fun t n => endCommand n st t) s) := by
  induction l generalizing s with
  | nil => exact h.mono fun _ => List.not_mem_nil
  | cons n l ih => exact ih (h.commandEnds st fun m hm hY => (List.mem_cons.mp hY).resolve_left hm)

@[simp] theorem engineView_unitNotice (u : UnitId) (cause : UnitCause) (s : State) :
    engineView (unitNotice u cause s) = engineView s := rfl

/-- R138, R139: a fetch fails; the ports that wait on it end. -/
protected theorem EngineBut.failFetch {timedOut : Bool} (h : EngineHolds w s) (hf : (s.cache.fetches[i]).busy = some f) :
    EngineHolds w (failFetch i f timedOut s) := by
  have hdropped := h.dropFetch (Y' := (· ∈ allNodes.filter fun n => (waitingBlocks f).any fun lba =>
    (portsWaitingOn s f.unit lba).contains n)) hf (fun _ => False.elim) fun lba hlba _ n hn => by
      refine List.mem_filter.mpr ⟨mem_allNodes n, ?_⟩
      exact List.any_eq_true.mpr ⟨lba, hlba, by simpa using hn⟩
  have hended := hdropped.commandsEnd .mediumError
  unfold Machine.failFetch
  dsimp only
  have hserved : ∀ {c : Bool} {t : State}, EngineHolds w t → EngineHolds w (if c then t else Machine.poolChanged t) :=
    fun h => h.ite h.poolChanged
  refine hserved (EngineBut.serveEntryWait (hended.same ?_ ?_))
  · cases timedOut <;> simp
  · cases timedOut <;> simp

protected theorem EngineBut.fetchFailedAnswer {tag : Tag} (h : EngineHolds w s) : EngineHolds w (fetchFailedAnswer tag s) := by
  unfold Machine.fetchFailedAnswer
  split
  · exact h.strayAnswer
  · rename_i htag
    exact h.failFetch (fetchOf_some htag)

protected theorem EngineBut.fetchTimesOut (h : EngineHolds w s) : EngineHolds w (fetchTimesOut i s) := by
  unfold Machine.fetchTimesOut
  split
  · rename_i hf
    exact h.failFetch hf
  · exact h

end

end Sys2Proof.Machine
end

section
/-!
SUPPORT. Stores and units under the law of the engine (R93 to R108, R148, R149): the end of a store, a store fault, and
a unit's leaving and entering service.
-/

namespace Sys2Proof.Machine

section
variable {w : Prop} {X X' : UnitId → Nat → Prop} {Y Y' : Node → Prop} {s t : State} {n m : Node} {u v : UnitId} {lba : Nat}
  {i : Fin 8} {y : Store}

/-! ## A unit changes (R93) -/

/-- R96: a node keeps its unit where a unit gains no node before it. -/
theorem unitOf_modUnit {f : MediaUnit → MediaUnit} (hv : unitOf s n = some v) (hkeeps : v = u → (f (s.units.get u)).nodes.get n)
    (hgains : (f (s.units.get u)).nodes.get n → (s.units.get u).nodes.get n) : unitOf (s.modUnit u f) n = some v := by
  obtain ⟨hmine, before, after, hsplit, hnot⟩ := List.find?_eq_some_iff_append.mp hv
  refine List.find?_eq_some_iff_append.mpr ⟨?_, before, after, hsplit, fun x hx => ?_⟩
  · rw [units_modUnit]
    split_ifs with e
    · exact hkeeps e
    · exact hmine
  · have hx := hnot x hx
    rw [units_modUnit]
    split_ifs with e
    · subst e
      simp only [Bool.not_eq_true'] at hx ⊢
      exact Bool.eq_false_iff.mpr fun h => by simp [hgains h] at hx
    · exact hx

/-- One unit's record changes: its fetches stay in service, its dirty count within the limit, and the ports that wait
keep their unit. -/
theorem EngineBut.unitChanged {f : MediaUnit → MediaUnit} (h : EngineBut w X Y s) (hpool : PoolHolds (s.modUnit u f))
    (hfetch : ∀ (i : Fin 16) g, (s.cache.fetches[i]).busy = some g → g.unit = u → InService (s.modUnit u f) u)
    (hlimit : dirtyCount s u ≤ (f (s.units.get u)).dirtyLimit)
    (hserved : ∀ n, (f (s.units.get u)).nodes.get n → InService (s.modUnit u f) u)
    (hnodes : w → ∀ n v, (port s n).wait = .page → unitOf s n = some v → unitOf (s.modUnit u f) n = some v) :
    EngineBut w X Y (s.modUnit u f) := by
  have hother : ∀ v, v ≠ u → InService s v → InService (s.modUnit u f) v := fun v hv hs => by
    rwa [InService, units_modUnit, if_neg hv]
  refine ⟨hpool, h.tables, fun i g hg => ?_, fun v => ?_, fun v n hn => ?_, fun hw n hn => ?_⟩
  · by_cases e : g.unit = u
    · rw [e]
      exact hfetch i g hg e
    · exact hother _ e (h.fetching i g hg)
  · rw [units_modUnit]
    split_ifs with e
    · subst e
      exact hlimit
    · exact h.limits v
  · rw [units_modUnit] at hn
    split_ifs at hn with e
    · subst e
      exact hserved n hn
    · exact hother v e (h.served v n hn)
  · exact (h.waits hw n hn).imp_left fun ⟨a, v, ha, hread, hv, hb⟩ => ⟨a, v, ha, hread, hnodes hw n v hn hv, hb⟩

/-- R93: a unit may change but for its nodes, where it stays in service and keeps its dirty limit. -/
theorem EngineBut.unitRecord {f : MediaUnit → MediaUnit} (h : EngineBut w X Y s) (hpool : PoolHolds (s.modUnit u f))
    (hservice : InService (s.modUnit u f) u) (hlimit : (f (s.units.get u)).dirtyLimit = (s.units.get u).dirtyLimit)
    (hnodes : (f (s.units.get u)).nodes = (s.units.get u).nodes) : EngineBut w X Y (s.modUnit u f) :=
  h.unitChanged hpool (fun _ _ _ _ => hservice) (hlimit ▸ h.limits u) (fun _ _ => hservice) fun _ n v _ hv =>
    unitOf_modUnit hv (fun e => by
      rw [hnodes]
      exact e ▸ (by simpa using List.find?_some hv)) (by rw [hnodes]; exact id)

/-! ## A unit's pages are freed (R99, R101, R105) -/

/-- R99, R101: a unit without fetches loses its records and the claims on them. -/
theorem EngineBut.unitFreed (h : EngineBut w noLoose Y s) (hpool : PoolHolds t) (hports : t.ports = s.ports)
    (hunits : t.units = s.units) (hdir : t.cache.directory = s.cache.directory.filter fun r => r.unit != u)
    (hfetches : t.cache.fetches = s.cache.fetches)
    (hnone : ∀ (j : Fin 16) f, (s.cache.fetches[j]).busy = some f → f.unit ≠ u)
    (hstores : ∀ (j : Fin 8) y, (t.cache.stores[j]).busy = some y ↔ (s.cache.stores[j]).busy = some y ∧ y.unit ≠ u)
    (hdirty : t.cache.dirty = s.cache.dirty.set u []) : EngineBut w noLoose Y t := by
  have hmem : ∀ r, r ∈ t.cache.directory ↔ r ∈ s.cache.directory ∧ r.unit ≠ u := fun r => by
    rw [hdir, List.mem_filter, bne_iff_ne]
  have hsub : t.cache.directory.Sublist s.cache.directory := hdir ▸ List.filter_sublist
  have hstays : ∀ k v, (∀ r, k.names r → r.unit = v) → Live noLoose s.cache k →
      ((∀ r ∈ s.cache.directory, k.names r → r ∈ t.cache.directory) ↔ v ≠ u) := fun k v hkv hk => by
    obtain ⟨r, hr, hkr, -⟩ := h.tables.held k hk
    constructor
    · intro hin
      have := ((hmem r).mp (hin r hr hkr)).2
      rwa [hkv r hkr] at this
    · exact fun hv x hx hkx => (hmem x).mpr ⟨hx, by rwa [hkv x hkx]⟩
  refine h.tabled hpool hports hunits (h.tables.sublist hsub (fun k => ?_) fun v => ?_)
    (fun j f hf => h.fetching j f (hfetches ▸ hf)) (fun v => ?_) (fun v lba hb => ?_) fun _ => id
  · cases k with
    | fetch j v l =>
      simp only [Live, hfetches]
      refine iff_self_and.mpr fun hk => (hstays (.fetch j v l) v (fun _ => And.left) hk).mpr ?_
      obtain ⟨f, hf, rfl, -⟩ := hk
      exact hnone j f hf
    | loose v l => exact iff_of_false id fun hk => hk.1
    | store j y =>
      exact (hstores j y).trans (and_congr_right fun hk => (hstays (.store j y) y.unit (fun _ hkr => hkr.2.1) hk).symm)
    | dirty v d =>
      have hiff : Live noLoose t.cache (.dirty v d) ↔ d ∈ s.cache.dirty.get v ∧ v ≠ u := by
        simp only [Live, hdirty, Per4.get_set]
        split_ifs with e <;> simp [e]
      exact hiff.trans (and_congr_right fun hk => (hstays (.dirty v d) v (fun _ => And.right) hk).symm)
  · rw [hdirty, Per4.get_set]
    split_ifs with e
    · exact List.nil_sublist _
    · exact List.Sublist.refl _
  · exact (Nat.add_le_add hsub.countP_le hsub.countP_le).trans (h.limits v)
  · obtain ⟨r, hr, rfl, rfl, hfill⟩ := hb
    refine .inl ⟨r, (hmem r).mpr ⟨hr, fun e => ?_⟩, rfl, rfl, hfill⟩
    obtain ⟨k, hk, hkr⟩ := h.tables.claimed r hr (by simp [hfill])
    have hstate := (h.tables.state_eq hr hk hkr).symm.trans hfill
    cases k with
    | fetch j v l =>
      obtain ⟨f, hf, hv, -⟩ := hk
      exact hnone j f hf (hv.trans (hkr.1.symm.trans e))
    | loose v l => exact hk
    | store | dirty => simp [Claim.state] at hstate

theorem dirtyCount_zero (h : ∀ r ∈ s.cache.directory, r.unit ≠ u) : dirtyCount s u = 0 := by
  rw [dirtyCount_eq, List.countP_eq_zero]
  exact fun r hr => by simp [h r hr]

/-- R99, R101: a unit without records, fetches and nodes is retired. -/
theorem EngineBut.retired (h : EngineBut w X Y s) (hpool : PoolHolds (s.modUnit u MediaUnit.retired))
    (hempty : ∀ r ∈ s.cache.directory, r.unit ≠ u) (hnone : ∀ (j : Fin 16) f, (s.cache.fetches[j]).busy = some f → f.unit ≠ u)
    (hnodes : ∀ n, ¬ (s.units.get u).nodes.get n) : EngineBut w X Y (s.modUnit u MediaUnit.retired) := by
  refine h.unitChanged hpool (fun j f hf e => absurd e (hnone j f hf))
    ((dirtyCount_zero hempty).trans_le (Nat.zero_le _)) (fun n hn => ?_) fun _ n v _ hv => unitOf_modUnit hv
      (fun e => ?_) fun hn => ?_
  · simp [MediaUnit.retired, resetUnit] at hn
  · subst e
    exact absurd (by simpa using List.find?_some hv) (hnodes n)
  · simp [MediaUnit.retired, resetUnit] at hn

/-- R101: a drain whose unit has no DIRTY and no STORING page ends. -/
protected theorem EngineBut.drainEnds (h : EngineHolds w s) (hstate : (s.units.get u).state = .draining)
    (hcount : dirtyCount s u = 0) : EngineHolds w (drainEnds u s) := by
  have hout : ¬ InService s u := by
    rw [InService, hstate]
    decide
  have hnone : ∀ (j : Fin 16) f, (s.cache.fetches[j]).busy = some f → f.unit ≠ u := fun j f hf e =>
    hout (e ▸ h.fetching j f hf)
  have hnodes : ∀ n, ¬ (s.units.get u).nodes.get n := fun n hn => hout (h.served u n hn)
  have hstores : ∀ (j : Fin 8) y, (s.cache.stores[j]).busy = some y → y.unit ≠ u := fun j y hy e => by
    obtain ⟨r, hr, ⟨-, hru, -⟩, hst⟩ := h.tables.held (.store j y) hy
    rw [dirtyCount_eq, List.countP_eq_zero] at hcount
    exact hcount r hr (by rw [hru, e, hst]; simp [Claim.state, PageState.counted])
  have hfreed : EngineHolds w (freeUnitPages u s) :=
    h.unitFreed h.pool.freeUnitPages rfl rfl rfl rfl hnone (fun j y => (and_iff_left_of_imp (hstores j y)).symm) rfl
  have hretired : EngineHolds w ((freeUnitPages u s).modUnit u MediaUnit.retired) :=
    hfreed.retired (hfreed.pool.retire fun p => owners_freeUnitPages u p s)
      (fun r hr => by simpa using (List.mem_filter.mp hr).2) hnone hnodes
  unfold Machine.drainEnds
  dsimp only
  split
  · exact hretired.same rfl rfl
  · exact hretired.same rfl rfl

/-! ## The end of a store (R148, R149) -/

theorem busy_freeStoreEntry (j : Fin 8) (z : Store) : ((freeStoreEntry i s).cache.stores[j]).busy = some z
    ↔ j ≠ i ∧ (s.cache.stores[j]).busy = some z := by
  show ((s.cache.setStore i _).stores[j]).busy = some z ↔ _
  rw [getElem_setStore]
  split_ifs with e <;> simp [e]

theorem busy_freeStoreEntry_iff (hy : (s.cache.stores[i]).busy = some y) (j : Fin 8) (z : Store) :
    ((freeStoreEntry i s).cache.stores[j]).busy = some z ↔ (s.cache.stores[j]).busy = some z ∧ Claim.store j z ≠ .store i y := by
  rw [busy_freeStoreEntry, and_comm]
  refine and_congr_right fun hz => not_congr ⟨fun e => ?_, fun e => ?_⟩
  · subst e
    rw [hy] at hz
    cases hz
    rfl
  · cases e
    rfl

/-- R148, R149: the page of a store that has ended is DIRTY again. -/
theorem EngineBut.storeReturned (h : EngineBut w X Y s) (hy : (s.cache.stores[i]).busy = some y) : EngineBut w X Y
    (joinDirty y.unit y.page (modRecord y.page (fun r => { r with state := .dirty, redirtied := false })
        (freeStoreEntry i s))) := by
  obtain ⟨r, hr, ⟨hpage, hunit, hlba⟩, hstate⟩ := h.tables.held (.store i y) hy
  have hstoring : r.state = .storing := hstate
  have hpool : ∀ t : State, poolView (joinDirty y.unit y.page (modRecord y.page DirRecord.dirtied t)) = poolView t :=
      fun t => by
    rw [poolView_joinDirty, poolView_modRecord samePlace_dirtied.page samePlace_dirtied.unit]
  rw [← hunit, ← hpage] at hpool ⊢
  refine h.dirtied (gone := some (.store i y)) (moment := s.cache.joins) hr (by simp [hstoring]) (hpool _) rfl rfl rfl rfl
    (fun j z => ?_) (by simp [joinDirty, modRecord, freeStoreEntry, Cache.setStore]) (by simp) ?_ (by simp) h.fetching
    (.inl (by rw [hstoring]; rfl)) (by simp [hstoring]) fun _ => id
  · refine (busy_freeStoreEntry_iff hy j z).trans ?_
    simp [eq_comm]
  · rintro k ⟨⟩
    exact ⟨hy, hpage, hunit, hlba⟩

/-- R148: the page of a store that has ended is CLEAN. -/
theorem EngineBut.storeCleaned (h : EngineBut w X Y s) (hy : (s.cache.stores[i]).busy = some y) :
    EngineBut w X Y (modRecord y.page (fun r => { r with state := .clean, age := 0 }) (freeStoreEntry i s)) := by
  obtain ⟨r, hr, ⟨hpage, hunit, hlba⟩, hstate⟩ := h.tables.held (.store i y) hy
  have hstoring : r.state = .storing := hstate
  have hpool : ∀ t : State, poolView (modRecord y.page DirRecord.cleaned t) = poolView t := fun t =>
    poolView_modRecord samePlace_cleaned.page samePlace_cleaned.unit
  rw [← hpage] at hpool ⊢
  refine h.cleaned (k₀ := .store i y) hr (hpool _) rfl rfl rfl rfl (fun k => ?_) hy ⟨hpage, hunit, hlba⟩ h.fetching
    (by simp [hstoring]) fun _ => id
  cases k with
  | store j z => exact busy_freeStoreEntry_iff hy j z
  | fetch | loose | dirty => simp [Live, modRecord, freeStoreEntry, Cache.setStore]

/-- R122: the flushes of a unit's nodes end. -/
protected theorem EngineBut.endFlushes (h : EngineBut w X Y s) : EngineBut w X Y (endFlushes u s) :=
  EngineBut.ite (EngineBut.foldl (fun h => (h.endCommand .good).ite h) h) h

protected theorem EngineBut.storeSucceeds (h : EngineHolds w s) (hy : (s.cache.stores[i]).busy = some y) :
    EngineHolds w (storeSucceeds i y s) := by
  have hcounted : EngineHolds w (s.modUnit y.unit fun z => { z with consecutive := 0 }) := h.same (by simp) (by simp)
  have hdrained : ∀ {t : State}, EngineHolds w t → EngineHolds w
      (if (t.units.get y.unit).state = .draining ∧ dirtyCount t y.unit = 0 then Machine.drainEnds y.unit t else t) :=
          fun h => by
    split
    · rename_i hlast
      exact h.drainEnds hlast.1 hlast.2
    · exact h
  have hstored : ∀ {t : State}, EngineHolds w t → EngineHolds w
      (if (t.units.get y.unit).state = .draining then t.modUnit y.unit fun z => { z with stored := z.stored + 1 } else t) :=
    fun h => EngineBut.ite (h.same (by simp) (by simp)) h
  unfold Machine.storeSucceeds
  exact EngineBut.ite (hcounted.storeReturned hy).issueStores
      (hdrained (hstored (hcounted.storeCleaned hy))).endFlushes.poolChanged

protected theorem EngineBut.storedAnswer {tag : Tag} (h : EngineHolds w s) : EngineHolds w (storedAnswer tag s) := by
  unfold Machine.storedAnswer
  split
  · exact h.strayAnswer
  · rename_i htag
    exact h.storeSucceeds (storeOf_some htag)

protected theorem EngineBut.faultPorts (h : EngineBut w X Y s) : EngineBut w X Y (faultPorts u s) := by
  refine EngineBut.foldl (fun h => ?_) h
  split
  · exact h.endCommand _
  · exact h.endCommand _
  all_goals exact h

/-- R102, R103: a unit that is not DETACHED enters STORE_FAULT. -/
protected theorem EngineBut.enterStoreFault (h : EngineBut w X Y s) (hu : (s.units.get u).state ≠ .detached) : EngineBut w X Y
    (enterStoreFault u s) := by
  have hfaulted : EngineBut w X Y (s.modUnit u fun z => { z with state := .storeFault, detachTag := none }) :=
    h.unitRecord (h.pool.same (poolView_unit (iff_of_false (by simp) hu) rfl)) (.inr (by rw [units_modUnit, if_pos rfl])) rfl rfl
  unfold Machine.enterStoreFault
  dsimp only
  refine EngineBut.faultPorts (EngineBut.same ?_ (poolView_unitNotice _ _ _) (engineView_unitNotice _ _ _))
  split
  · exact hfaulted.same (by simp) (by simp)
  · exact hfaulted

protected theorem EngineBut.storeFailure (h : EngineBut w X Y s) : EngineBut w X Y (storeFailure u s) := by
  have hcounted : EngineBut w X Y (s.modUnit u fun z =>
      { z with storeFailures := z.storeFailures + 1, consecutive := min 3 (z.consecutive + 1) }) := h.same (by simp) (by simp)
  unfold Machine.storeFailure
  dsimp only
  split
  · rename_i hfault
    refine hcounted.enterStoreFault ?_
    rcases hfault.2 with e | e <;> rw [e] <;> decide
  · exact hcounted

protected theorem EngineBut.storeFails (h : EngineBut w X Y s) (hy : (s.cache.stores[i]).busy = some y) :
    EngineBut w X Y (storeFails i y s) :=
  (h.storeReturned hy).storeFailure.issueStores

protected theorem EngineBut.storeFailedAnswer {tag : Tag} (h : EngineBut w X Y s) :
    EngineBut w X Y (storeFailedAnswer tag s) := by
  unfold Machine.storeFailedAnswer
  split
  · exact h.strayAnswer
  · rename_i htag
    exact h.storeFails (storeOf_some htag)

protected theorem EngineBut.storeTimesOut (h : EngineBut w X Y s) : EngineBut w X Y (storeTimesOut i s) := by
  unfold Machine.storeTimesOut
  split
  · rename_i hy
    exact h.storeFails hy
  · exact h

end

end Sys2Proof.Machine
end

section
/-!
SUPPORT. Units that leave service and units that enter it under the law of the engine (R94, R95, R99, R100, R105, R108),
POOL CONFIG and CLEAR, and so every request.
-/

namespace Sys2Proof.Machine

section
variable {w : Prop} {X X' : UnitId → Nat → Prop} {Y Y' : Node → Prop} {s t : State} {n m : Node} {u v : UnitId} {lba : Nat}
  {tag : Tag} {body : List Byte}

/-! ## Leaving service (R99, R100, R105) -/

/-- The law of the engine where a unit has no fetches, and no port of its nodes waits on a page. -/
structure EngineWithout (w : Prop) (u : UnitId) (s : State) : Prop where
  engine : EngineHolds w s
  idle : ∀ (j : Fin 16) f, (s.cache.fetches[j]).busy = some f → f.unit ≠ u
  unwaited : w → ∀ n, unitOf s n = some u → (port s n).wait ≠ .page

theorem EngineBut.abortPorts (h : EngineBut w X Y s) : EngineBut w X Y (abortPorts u s) :=
  EngineBut.foldl (fun h => h.endCommand .aborted) h

/-- R99, R100: no port of the unit's nodes waits once their commands have ended. -/
theorem EngineBut.unwaited_abortPorts (h : EngineHolds w s) (hw : w) (hn : unitOf (Machine.abortPorts u s) n = some u) :
    (port (Machine.abortPorts u s) n).wait ≠ .page := fun hwait => by
  obtain ⟨ports, wait, e, hports, -⟩ := abortPorts_eq u s
  have hnode : (s.units.get u).nodes.get n := by
    have hn := List.find?_some hn
    rwa [e] at hn
  have hended : (port (Machine.abortPorts u s) n).active = none := by
    rw [port, e]
    dsimp only
    rw [hports, if_pos hnode, Port.ended]
    cases ha : (port s n).active with
    | none => exact ha
    | some a => rfl
  rcases (h.abortPorts (u := u)).waits hw n hwait with ⟨a, -, ha, -⟩ | ⟨hno, -⟩
  · rw [hended] at ha
    cases ha
  · exact hno

theorem dropFetches_frame (u : UnitId) (s : State) : (dropFetches u s).ports = s.ports ∧ (dropFetches u s).units = s.units
    ∧ (dropFetches u s).cache.fetches = s.cache.fetches.map (FetchEntry.without u) := by
  obtain ⟨d, o, e⟩ := dropFetches_eq u s
  rw [e]
  exact ⟨rfl, rfl, rfl⟩

/-- R99, R100, R105: a unit's commands end, and its fetches. -/
theorem EngineBut.fetchesDropped (h : EngineHolds w s) : EngineWithout w u (dropFetches u (Machine.abortPorts u s)) :=
    by
  have habort := h.abortPorts (u := u)
  have hunwaited : w → ∀ n, unitOf (Machine.abortPorts u s) n = some u → (port (Machine.abortPorts u s) n).wait ≠ .page :=
    fun hw n hn => h.unwaited_abortPorts hw hn
  generalize Machine.abortPorts u s = t at *
  have hfold : ∀ (l : List (Fin 16)) {x : State}, EngineBut w noLoose (fun n => unitOf t n = some u) x → x.units = t.units →
      EngineBut w noLoose (fun n => unitOf t n = some u) (l.foldl (dropFetchFor u) x) := fun l => by
    induction l with
    | nil => exact fun h _ => h
    | cons i l ih =>
      intro x hx hunits
      refine ih ?_ ?_
      · unfold dropFetchFor
        split
        · rename_i f hf
          split
          · rename_i hfu
            refine hx.dropFetch hf (fun _ => id) fun lba _ _ n hn => ?_
            have hunit := (mem_portsWaitingOn.mp hn).2.1
            rwa [hfu, unitOf_congr (t := x) (s := t) fun v => by rw [hunits]] at hunit
          · exact hx
        · exact hx
      · rcases dropFetchFor_cases u x i with ⟨f, -, -, e⟩ | ⟨-, e⟩ <;> rw [e]
        · exact (units_dropFetch i f x).trans hunits
        · exact hunits
  have hdropped := hfold (List.finRange 16) (habort.mono fun _ => False.elim) rfl
  rw [← dropFetches_foldl] at hdropped
  obtain ⟨hports, hunits, hfetches⟩ := dropFetches_frame u t
  have hunit : ∀ n, unitOf (dropFetches u t) n = unitOf t n := unitOf_congr fun v => by rw [hunits]
  have hport := port_congr hports
  refine ⟨hdropped.leave fun hw n hn hY => ?_, fun j f hf => ?_, fun hw n hn => ?_⟩
  · rw [hport] at hn
    exact absurd hn (hunwaited hw n hY.1)
  · rw [hfetches, Fin.getElem_fin, Vector.getElem_map, FetchEntry.without_eq] at hf
    split at hf
    · split at hf
      · cases hf
      · rename_i g hg hne
        have : g = f := Option.some.inj (hg.symm.trans hf)
        exact this ▸ hne
    · rename_i hnone
      rw [hnone] at hf
      cases hf
  · rw [hport]
    exact hunwaited hw n (hunit n ▸ hn)

theorem engineView_clearNodes (u : UnitId) (s : State) :
    engineView (clearNodes u s) = engineView (s.modUnit u fun x => { x with nodes := Per4.all false, writer := none
        }) :=
  engineView_foldl (fun t n => by simp) _ _

theorem cache_clearNodes (u : UnitId) (s : State) : (clearNodes u s).cache = s.cache := by
  obtain ⟨ports, lines, supervisor, e, -⟩ := clearNodes_eq u s
  rw [e]

theorem nodes_clearNodes (u : UnitId) (s : State) : ((clearNodes u s).units.get u).nodes = Per4.all false := by
  obtain ⟨ports, lines, supervisor, e, -⟩ := clearNodes_eq u s
  rw [e]
  dsimp only
  rw [Per4.get_modify_same]

/-- R99, R100, R105: a unit loses its nodes. -/
theorem EngineWithout.clearNodes (h : EngineWithout w u s) : EngineHolds w (clearNodes u s) := by
  have hcleared : EngineHolds w (s.modUnit u fun x => { x with nodes := Per4.all false, writer := none }) := by
    refine h.engine.unitChanged (h.engine.pool.clearNodes.same (poolView_clearNodes u s).symm)
      (fun j f hf e => absurd e (h.idle j f hf)) (h.engine.limits u) (fun n hn => by simp at hn) fun hw n v hn hv =>
        unitOf_modUnit hv (fun e => absurd hn (h.unwaited hw n (e ▸ hv))) (fun hn => by simp at hn)
  exact hcleared.same (poolView_clearNodes u s) (engineView_clearNodes u s)

theorem dropStores_frame (u : UnitId) (s : State) : (dropStores u s).ports = s.ports ∧ (dropStores u s).units = s.units ∧
    (dropStores u s).cache.directory = s.cache.directory ∧ (dropStores u s).cache.fetches = s.cache.fetches
    ∧ (dropStores u s).cache.dirty = s.cache.dirty := by
  rw [dropStores_eq]
  exact ⟨rfl, rfl, rfl, rfl, rfl⟩

theorem busy_dropStores (j : Fin 8) (y : Store) : ((dropStores u s).cache.stores[j]).busy = some y
    ↔ (s.cache.stores[j]).busy = some y ∧ y.unit ≠ u := by
  have hentry : (dropStores u s).cache.stores[j] = (s.cache.stores[j]).without u := by
    rw [dropStores_eq, Fin.getElem_fin, Vector.getElem_map, Fin.getElem_fin]
  rw [hentry, StoreEntry.without_eq]
  cases hbusy : (s.cache.stores[j]).busy with
  | none => simp only [hbusy, reduceCtorEq, false_and]
  | some z =>
    dsimp only
    split_ifs with e
    · refine iff_of_false (by simp) ?_
      rintro ⟨hz, hne⟩
      exact hne (Option.some.inj hz ▸ e)
    · rw [hbusy]
      exact (and_iff_left_of_imp fun hz => Option.some.inj hz ▸ e).symm

/-- R99, R105: a unit leaves service at once. -/
protected theorem EngineBut.takeOut (h : EngineHolds w s) : EngineHolds w (takeOut u s) := by
  have hdropped := h.fetchesDropped (u := u)
  have hpool := h.pool.takeOut (v := u)
  unfold Machine.takeOut at hpool ⊢
  generalize dropFetches u (Machine.abortPorts u s) = t at *
  obtain ⟨hports, hunits, hdir, hfetches, hdirty⟩ := dropStores_frame u t
  have hbusy := busy_dropStores (u := u) (s := t)
  have hpages : PoolHolds (freeUnitPages u (dropStores u t)) :=
    HoldsBut.freeUnitPages (hdropped.engine.pool.same (poolView_dropStores u t))
  generalize dropStores u t = d at *
  have hfreed : EngineHolds w (freeUnitPages u d) :=
    hdropped.engine.unitFreed hpages hports hunits (by rw [← hdir]; rfl) hfetches hdropped.idle hbusy
      (by rw [← hdirty]; rfl)
  have hwithout : EngineWithout w u (freeUnitPages u d) := by
    refine ⟨hfreed, fun j f hf => hdropped.idle j f (hfetches ▸ hf), fun hw n hn => ?_⟩
    have hunit : unitOf (freeUnitPages u d) n = unitOf t n := unitOf_congr (fun v => congrArg (fun x => (x.get v).nodes) hunits) n
    have hport : port (freeUnitPages u d) n = port t n := port_congr hports n
    rw [hport]
    exact hdropped.unwaited hw n (hunit ▸ hn)
  refine hwithout.clearNodes.retired hpool (fun r hr => ?_) (fun j f hf => ?_) fun n hn => ?_
  · rw [cache_clearNodes] at hr
    simpa using (List.mem_filter.mp hr).2
  · rw [cache_clearNodes] at hf
    exact hwithout.idle j f hf
  · rw [nodes_clearNodes] at hn
    simp at hn

/-- R100: a drain starts. -/
protected theorem EngineBut.startDrain (h : EngineHolds w s) : EngineHolds w (startDrain u tag s) := by
  have htagged : EngineHolds w (s.modUnit u fun x => { x with detachTag := some tag }) := h.same (by simp) (by simp)
  have hdropped := htagged.fetchesDropped (u := u)
  have hpool := h.pool.startDrain (v := u) (tag := tag)
  unfold Machine.startDrain at hpool ⊢
  generalize dropFetches u (Machine.abortPorts u (s.modUnit u fun x => { x with detachTag := some tag })) = t at *
  have hnodes : ∀ n, ¬ ((Machine.clearNodes u t).units.get u).nodes.get n := fun n hn => by
    rw [nodes_clearNodes] at hn
    simp at hn
  refine hdropped.clearNodes.unitChanged hpool (fun j f hf e => ?_) (hdropped.clearNodes.limits u)
    (fun n hn => absurd hn (hnodes n)) fun _ n v _ hv => unitOf_modUnit hv (fun e => ?_) id
  · rw [cache_clearNodes] at hf
    exact absurd e (hdropped.idle j f hf)
  · subst e
    simpa using List.find?_some hv

protected theorem EngineBut.afterLeaving {before : State} (h : EngineHolds w s) : EngineHolds w (afterLeaving before s) :=
  have hserved := h.serveEntryWait (k := entryWaitFuel)
  EngineBut.ite hserved.poolChanged hserved.issueStores

protected theorem EngineBut.forceOut (h : EngineHolds w s) : EngineHolds w (forceOut u s) :=
  (h.takeOut (u := u)).same (by simp [Machine.forceOut]) (by simp [Machine.forceOut])

@[simp] theorem engineView_endDrainReply (before : State) (v : UnitId) (r : Result) (s : State) :
    engineView (endDrainReply before v r s) = engineView s := by
  unfold endDrainReply
  split <;> rfl

protected theorem EngineBut.detachForced (h : EngineHolds w s) : EngineHolds w (detachForced u tag s) :=
  ((h.forceOut (u := u)).afterLeaving (before := s)).same (by simp [Machine.detachForced]) (by simp
      [Machine.detachForced])

protected theorem EngineBut.detachUnit {force : Bool} (h : EngineHolds w s) : EngineHolds w (detachUnit u tag force
    s) := by
  unfold Machine.detachUnit
  split
  · exact h.same rfl rfl
  · exact h.detachForced
  · exact h.detachForced
  · exact h.detachForced
  · exact EngineBut.ite (h.takeOut.afterLeaving.same (poolView_reply _ _ _ _ _) (engineView_reply _ _ _ _ _))
        h.startDrain.afterLeaving
  · exact h.same rfl rfl
  · exact h.same rfl rfl

protected theorem EngineBut.badRequest {kind : Byte} (h : EngineBut w X Y s) : EngineBut w X Y (badRequest tag kind
    s) :=
  h.same rfl rfl

protected theorem EngineBut.serveUnitDetach (h : EngineHolds w s) : EngineHolds w (serveUnitDetach tag body s) := by
  unfold Machine.serveUnitDetach
  split
  · split
    · exact h.detachUnit
    · exact h.badRequest
  · exact h.badRequest

/-! ## UNIT ATTACH (R94, R95) -/

/-- R95: a DETACHED unit is attached, with nodes that have no unit. -/
protected theorem EngineBut.attachUnit {x : MediaUnit} (h : EngineHolds w s) (hout : (s.units.get u).state = .detached)
    (hx : x.state = .attached) (hfree : ∀ n v, x.nodes.get n → v ≠ u → ¬ (s.units.get v).nodes.get n) :
    EngineHolds w (attachUnit u x s) := by
  have hservice : InService (s.modUnit u fun _ => x) u := .inl (by rw [units_modUnit, if_pos rfl, hx])
  have hempty : ∀ r ∈ s.cache.directory, r.unit ≠ u := fun r hr e => (h.pool.record r hr).2.2 (e ▸ hout)
  have hnot : ∀ n, ¬ (s.units.get u).nodes.get n := fun n hn => (h.served u n hn).ne_detached hout
  have hnone : ∀ n v, unitOf s n = some v → v ≠ u := fun n v hv e => hnot n (e ▸ (by simpa using List.find?_some hv))
  have hattached : EngineHolds w (s.modUnit u fun _ => x) := by
    refine h.unitChanged (h.pool.modUnit (fun hd => ?_) fun _ _ => ?_) (fun _ _ _ _ => hservice)
      ((dirtyCount_zero hempty).trans_le (Nat.zero_le _)) (fun _ _ => hservice) fun _ n v _ hv => ?_
    · rw [hx] at hd
      cases hd
    · rw [hx]
      decide
    · refine unitOf_modUnit hv (fun e => absurd e (hnone n v hv)) fun hn => ?_
      exact absurd (by simpa using List.find?_some hv) (hfree n v hn (hnone n v hv))
  exact hattached.same (poolView_foldl (fun t n => poolView_setAttention n t) _ _)
    (engineView_foldl (fun t n => engineView_setAttention n t) _ _)

protected theorem EngineBut.serveUnitAttach (h : EngineHolds w s) : EngineHolds w (serveUnitAttach tag body s) := by
  unfold Machine.serveUnitAttach
  split
  · split
    · split
      · exact h.badRequest
      · split
        · exact h.same rfl rfl
        · rename_i hout
          split
          · exact h.same rfl rfl
          · rename_i hconflict
            exact (h.attachUnit (not_not.mp hout) rfl fun n v hn hv => nodeConflict_none hconflict hv hn).same
              (poolView_reply _ _ _ _ _) (engineView_reply _ _ _ _ _)
    · exact h.badRequest
  · exact h.badRequest

/-! ## POOL CONFIG (R77, R88, R89) and CLEAR (R92, R108, R189) -/

@[simp] theorem engineView_applyTick (tick : Nat) (s : State) : engineView (applyTick tick s) = engineView s := by
  unfold applyTick
  split_ifs <;> rfl

protected theorem EngineBut.servePoolConfig (h : EngineHolds w s) : EngineHolds w (servePoolConfig tag body s) := by
  unfold Machine.servePoolConfig
  split
  · split
    · exact h.badRequest
    · rename_i xs hxs
      dsimp only
      split_ifs with hlimit hinUse
      · exact h.same rfl rfl
      · exact h.same rfl rfl
      · have hpool := h.sameEngine (h.pool.withPool (owners_applyShares xs s.pool)
          (h.pool.counts.applyShares (maskedShares_fit hxs) hinUse)) rfl
        exact (hpool.same (poolView_applyTick _ _) (engineView_applyTick _ _)).poolChanged.same
          (by rw [poolView_reply]) (by rw [engineView_reply])
  · exact h.badRequest

@[simp] theorem engineView_answerCleared (r : ClearedReply) (s : State) : engineView (answerCleared r s) = engineView s := by
  unfold answerCleared
  repeat' split
  all_goals simp

protected theorem EngineBut.clearUnits (h : EngineHolds w s) : EngineHolds w (clearUnits s) :=
  EngineBut.foldl (fun h => h.ite h.forceOut) h

protected theorem EngineBut.clearedRest (h : EngineBut w X Y s) (hd : ∀ v, (s.units.get v).state = .detached) : EngineBut w X Y
    (clearedRest s) := by
  have hports : (s.ports.map Port.cleared).map (fun p => (p.active, p.slots, p.wait)) = s.ports.map fun p =>
      (p.active, p.slots, p.wait) :=
    Per4.map_map_same (by intro _; rfl) _
  have hview : engineView (Machine.clearedRest s) = engineView s := by
    simp only [engineView, Machine.clearedRest, hports]
  exact h.sameEngine (h.pool.clearedRest hd) hview

protected theorem EngineBut.serveClear (h : EngineHolds w s) : EngineHolds w (serveClear tag body s) := by
  unfold Machine.serveClear
  split
  · rw [clearBlocks_eq]
    have hanswered : EngineHolds w (s.inFreeOrder (clearedReplies s) answerCleared) :=
      EngineBut.inFreeOrder (fun h => h.same (poolView_answerCleared _ _) (engineView_answerCleared _ _)) h
    have hunits : EngineHolds w (clearUnits ((s.inFreeOrder (clearedReplies s) answerCleared).modLink Link.cleared)) :=
      EngineBut.clearUnits (hanswered.same (poolView_modLink _ _) (engineView_modLink _ _))
    exact (hunits.clearedRest (detached_clearUnits _)).same (poolView_reply _ _ _ _ _) (engineView_reply _ _ _ _ _)
  · exact h.badRequest

/-! ## LINES CONFIG (R13), and any request (R177) -/

protected theorem EngineBut.serveLinesConfig (h : EngineHolds w s) : EngineHolds w (serveLinesConfig tag body s) := by
  have happlied : ∀ {n : Node} {period : Nat} {xs : List (LineId × LineSettings)},
      EngineHolds w (applyLinesConfig n period xs s) := fun {n period xs} =>
    EngineBut.rederivePower (h.same (by simp) (by simp))
  unfold Machine.serveLinesConfig
  split
  · split
    · split
      · split
        · exact h.same rfl rfl
        · exact happlied.same (poolView_reply _ _ _ _ _) (engineView_reply _ _ _ _ _)
      · exact h.badRequest
    · exact h.badRequest
  · exact h.badRequest

protected theorem EngineBut.serveRequest {kind : Byte} {pins : NodePins} (h : EngineHolds w s) :
    EngineHolds w (serveRequest kind tag body pins s) := by
  unfold Machine.serveRequest
  split
  case h_3 => exact h.serveClear
  case h_5 => exact h.serveLinesConfig
  case h_18 => exact h.servePoolConfig
  case h_20 => exact h.serveUnitAttach
  case h_21 => exact h.serveUnitDetach
  all_goals exact h.same (by simp [serveUnknown]) (by simp [serveUnknown])

end

end Sys2Proof.Machine
end

section
/-!
SUPPORT. Captured bytes, the link and the ports' commands under the law of the engine (R43 to R66, R110 to R126, R176,
R177).
-/

namespace Sys2Proof.Machine

section
variable {w : Prop} {X X' : UnitId → Nat → Prop} {Y Y' : Node → Prop} {s t : State} {n m : Node} {u v : UnitId} {lba : Nat}

/-! ## Captured bytes (R43, R47, R64, R66) -/

protected theorem EngineBut.extendHistory (h : EngineBut w X Y s) : EngineBut w X Y (extendHistory n s) := by
  have hpool := h.pool.extendHistory (n := n)
  unfold Machine.extendHistory at hpool ⊢
  split at hpool
  · rename_i hfull
    rw [if_pos hfull]
    split at hpool
    · rename_i e
      have he := evicted_of_allocate h.pool e
      exact h.of_evicted ⟨he.ports, he.units, he.fetches, he.stores, he.dirty, he.sublist, he.stays⟩ hpool
    · rename_i e
      exact h.unallocated e
  · rename_i hfull
    rwa [if_neg hfull]

protected theorem EngineBut.countCharacter (h : EngineHolds w s) : EngineHolds w (countCharacter n s) := by
  have hcount : EngineHolds w (s.modConsole n fun c => { c with count := c.count + 1 }) :=
    h.same (poolView_modConsole rfl) (engineView_modConsole _ _ _)
  have hflood : EngineHolds w ((s.modConsole n fun c => { c with count := c.count + 1 }).modConsole n fun c =>
      { c with flood := true, skip := 0 }) := hcount.same (poolView_modConsole rfl) (engineView_modConsole _ _ _)
  exact EngineBut.ite (EngineBut.poolChanged (hflood.same (poolView_notify _ _) (engineView_notify _ _))) hcount

protected theorem EngineBut.captureByte {b : Byte} (h : EngineHolds w s) : EngineHolds w (captureByte n b s) := by
  have hstored : EngineHolds w (extendHistory n (storeByte n b s)) :=
    EngineBut.extendHistory (h.same (poolView_storeByte n b s) (engineView_storeByte n b s))
  exact EngineBut.countCharacter (hstored.same (poolView_matchByte n b _) (engineView_matchByte n b _))

/-- R43 to R45: the receiver changes, and a byte is captured. -/
theorem EngineBut.captured {f : Console → Console} {b : Byte} (h : EngineHolds w s) (hf : ∀ c, (f c).pages = c.pages) :
    EngineHolds w (Machine.captureByte n b (s.modConsole n f)) :=
  EngineBut.captureByte (h.same (poolView_modConsole (hf _)) (engineView_modConsole _ _ _))

protected theorem EngineBut.receiveCharacter {data : Byte} {parityBit stopBit : Bool} (h : EngineHolds w s) : EngineHolds w
    (receiveCharacter n data parityBit stopBit s) := by
  unfold Machine.receiveCharacter
  dsimp only
  split
  iterate 3 exact EngineBut.ite (h.same (poolView_modConsole rfl) (engineView_modConsole _ _ _)) (h.captured fun _ =>
      rfl)
  all_goals exact h

protected theorem EngineBut.storeHeld (h : EngineHolds w s) : EngineHolds w (storeHeld n s) :=
  EngineBut.ite (h.captured fun _ => rfl) h

protected theorem EngineBut.endWindow (h : EngineHolds w s) : EngineHolds w (endWindow n s) := by
  have hrestart : EngineHolds w (s.modConsole n Console.restartWindow) :=
    h.same (poolView_modConsole rfl) (engineView_modConsole _ _ _)
  exact EngineBut.ite (EngineBut.poolChanged (hrestart.same (poolView_leaveFlood n _) (engineView_leaveFlood n _))) hrestart

/-! ## Requests and answers as they are taken (R176, R177, R181, R184) -/

protected theorem EngineBut.takeRequests {pins : NodePins} (h : EngineHolds w s) : EngineHolds w (takeRequests pins
    s) := by
  have hdrain : ∀ (k : Nat) {t : State}, EngineHolds w t → EngineHolds w (drainRequests pins k t) := fun k => by
    induction k with
    | zero => exact id
    | succ k ih =>
      intro t h
      unfold drainRequests
      split
      · exact h
      · exact EngineBut.ite (ih (EngineBut.serveRequest (h.same (poolView_modLink _ t) (engineView_modLink _ t)))) h
  exact hdrain _ h

protected theorem EngineBut.receiveRequest {kind : Byte} {tag : Tag} {body : List Byte} {pins : NodePins}
    (h : EngineHolds w s) : EngineHolds w (receiveRequest kind tag body pins s) := by
  unfold Machine.receiveRequest
  split
  · exact EngineBut.takeRequests (h.same (poolView_modLink _ s) (engineView_modLink _ s))
  · exact h.same (poolView_linkError _ s) (engineView_linkError _ s)

protected theorem EngineBut.receiveAnswer {f : State → State} (h : EngineHolds w s)
    (hf : ∀ {t}, EngineHolds w t → EngineHolds w (f t)) : EngineHolds w (receiveAnswer f s) := by
  unfold Machine.receiveAnswer
  split
  · exact hf (h.same (poolView_hunt s) (engineView_hunt s))
  · exact h.same (poolView_linkError _ s) (engineView_linkError _ s)

protected theorem EngineBut.sendControl {pins : NodePins} (h : EngineHolds w s) : EngineHolds w (sendControl pins s) :=
    by
  unfold Machine.sendControl
  split
  · exact EngineBut.takeRequests (h.same (poolView_modLink _ s) (engineView_modLink _ s))
  · exact h.same (poolView_sendNotice _ _ s) (engineView_sendNotice _ _ s)
  · exact h

protected theorem EngineBut.arbiterLooks {pins : ArbiterPins} (h : EngineHolds w s) : EngineHolds w (arbiterLooks pins s) := by
  have hchoose : ∀ {p : NodePins} {t : State}, EngineHolds w t → EngineHolds w (chooseClass p t) := fun {p t} h =>
    h.sendControl.ite (h.same (poolView_sendBulk t) (engineView_sendBulk t))
  have harbitrate : ∀ {p : NodePins} {t : State}, EngineHolds w t → EngineHolds w (arbitrate p t) := fun {p t} h => by
    unfold arbitrate
    split
    · exact EngineBut.ite (h.same (poolView_sendNotice _ _ t) (engineView_sendNotice _ _ t)) (hchoose h)
    · exact hchoose h
  have hcts : EngineHolds w (s.modLink fun k => { k with cts := pins.cts }) :=
      h.same (poolView_modLink _ s) (engineView_modLink _ s)
  exact (harbitrate hcts).ite hcts

/-! ## The aging tick (R151) -/

theorem samePlace_older : SamePlace DirRecord.older := by
  refine ⟨fun r => ?_, fun r => ?_, fun r => ?_⟩ <;>
  · unfold DirRecord.older
    split <;> rfl

theorem state_older (r : DirRecord) : r.older.state = r.state := by
  unfold DirRecord.older
  split <;> rfl

protected theorem EngineBut.agePages (h : EngineBut w X Y s) : EngineBut w X Y (agePages s) := by
  refine h.tabled (h.pool.same (poolView_agePages s)) rfl rfl
    (h.tables.redress rfl samePlace_older (fun r _ => state_older r) (fun _ => Iff.rfl) rfl) h.fetching (fun u => ?_)
    (fun u lba hb => ?_) fun _ => id
  · refine le_of_eq_of_le ?_ (h.limits u)
    rw [dirtyCount_eq, dirtyCount_eq]
    show (s.cache.directory.map DirRecord.older).countP _ = _
    rw [List.countP_map]
    refine List.countP_congr fun r _ => ?_
    rw [Function.comp_apply, state_older, samePlace_older.unit]
  · obtain ⟨r, hr, hu, hl, hfill⟩ := hb
    exact .inl ⟨_, List.mem_map_of_mem hr, (samePlace_older.unit r).trans hu, (samePlace_older.lba r).trans hl,
      (state_older r).trans hfill⟩

/-! ## Port commands (R110 to R126) -/

@[simp] theorem engineView_beginTransaction (n : Node) (s : State) : engineView (beginTransaction n s) = engineView
    s := by
  simp [beginTransaction]

@[simp] theorem engineView_endTaking (n : Node) (s : State) : engineView (endTaking n s) = engineView s := by
  simp [endTaking]

@[simp] theorem engineView_restartIdle (n : Node) (s : State) : engineView (restartIdle n s) = engineView s := by
  simp [restartIdle]

@[simp] theorem engineView_respond (n : Node) (taken : Nat) (txn : Byte) (r : Status) (after : List Byte) (s : State) : engineView
    (respond n taken txn r after s) = engineView s := by
  simp [respond]

@[simp] theorem engineView_badCommandAt (n : Node) (s : State) : engineView (badCommandAt n s).2 = engineView s := by
  simp [badCommandAt]

@[simp] theorem engineView_takeBlock (n : Node) (txn : Byte) (s : State) : engineView (takeBlock n txn s) = engineView s := by
  unfold takeBlock
  dsimp only
  split <;> simp

@[simp] theorem engineView_giveBlockTaken (n : Node) (s : State) : engineView (giveBlockTaken n s) = engineView s := by
  simp [giveBlockTaken]

@[simp] theorem engineView_takeSense (n : Node) (txn : Byte) (s : State) : engineView (takeSense n txn s) = engineView s := by
  simp [takeSense]

@[simp] theorem engineView_shortTransaction (n : Node) (s : State) :
    engineView (shortTransaction n s) = engineView s := by
  simp [shortTransaction]

/-- R110: a command that keeps the law of the engine is answered. -/
protected theorem EngineBut.answerWith {txn : Byte} {f : State → Status × State} (h : EngineHolds w s)
    (hf : ∀ {t}, EngineHolds w t → EngineHolds w (f t).2) : EngineHolds w (answerWith n txn f s) :=
  (hf (h.same (poolView_beginTransaction n s) (engineView_beginTransaction n s))).same (poolView_respond _ _ _ _ _ _)
    (engineView_respond _ _ _ _ _ _)

protected theorem EngineBut.badCommandAt (h : EngineBut w X Y s) : EngineBut w X Y (badCommandAt n s).2 :=
  h.same (poolView_badCommandAt n s) (engineView_badCommandAt n s)

protected theorem EngineBut.badBlock {block : List Byte} (h : EngineHolds w s) : EngineHolds w (badBlock n block s) :=
    by
  unfold Machine.badBlock
  split
  · exact h.answerWith EngineBut.badCommandAt
  · exact h

protected theorem EngineBut.openCommand {a : ActiveCommand} (h : EngineBut w X Y s) : EngineBut w X Y (openCommand n a s) :=
  h.served_port (by simp) fun _ _ => id

protected theorem EngineBut.openAndEnd {a : ActiveCommand} {st : Status} (h : EngineBut w X Y s) :
    EngineBut w X Y (openAndEnd n a st s).2 :=
  h.openCommand.endCommand st

protected theorem EngineBut.takeRead {count : Nat} (h : EngineHolds w s) : EngineHolds w (takeRead n lba count s).2 :=
    by
  unfold Machine.takeRead
  split
  · exact h
  · split
    · exact h
    · split
      · exact h
      · dsimp only
        split
        · exact h.openAndEnd
        · exact h.openCommand.stage

protected theorem EngineBut.takeWriteLock (h : EngineBut w X Y s) : EngineBut w X Y (takeWriteLock n u s) := by
  unfold Machine.takeWriteLock
  dsimp only
  split
  · exact EngineBut.foldl EngineBut.setAttention (h.same (by simp) (by simp))
  · exact h

protected theorem EngineBut.takeWrite {count : Nat} {together : Bool} (h : EngineBut w X Y s) :
    EngineBut w X Y (takeWrite n lba count together s).2 := by
  unfold Machine.takeWrite
  split
  · exact h
  · split
    · exact h
    · split
      · unfold Machine.openWrite
        dsimp only
        split
        · exact h.takeWriteLock.openAndEnd
        · exact h.takeWriteLock.openCommand
      · exact h

protected theorem EngineBut.takeFlush (h : EngineBut w X Y s) : EngineBut w X Y (takeFlush n s).2 := by
  unfold Machine.takeFlush
  split
  · exact h
  · split
    · split
      · exact h.openAndEnd
      · exact h.openCommand
    · exact h

protected theorem EngineBut.takeAbort (h : EngineBut w X Y s) : EngineBut w X Y (takeAbort n s).2 := by
  unfold Machine.takeAbort
  split
  · exact h.endCommand _
  · exact h

/-- R116, R117: a block of a staged READ is delivered: its next block stays the one it waits on. -/
protected theorem EngineBut.deliver {a : ActiveCommand} (h : EngineHolds w s) (ha : (port s n).active = some a) (hslots :
    (port s n).slots ≠ []) : EngineHolds w (deliver n a s) := by
  have hport : EngineHolds w (s.modPort n fun p => { p with slots := p.slots.drop 1, active := some { a with done :=
      a.done + 1 } }) := by
    refine h.ported (fun hw hwait => (h.waits hw n hwait).imp (fun hawaits => ?_) fun hno => ⟨hno.1, rfl⟩) fun _ _ => id
    obtain ⟨b, u, hb, hread, hu, hblock⟩ := hawaits
    obtain rfl : b = a := Option.some.inj (hb.symm.trans ha)
    refine ⟨{ b with done := b.done + 1 }, u, ?_, hread, hu, ?_⟩
    · rw [port_modPort_same]
      rfl
    · have hnext : nextBlock { b with done := b.done + 1 } (port (s.modPort n fun p =>
          { p with slots := p.slots.drop 1, active := some { b with done := b.done + 1 } }) n) = nextBlock b (port s n) := by
        have hlength : 0 < (port s n).slots.length := List.length_pos_iff.mpr hslots
        rw [port_modPort_same]
        simp only [nextBlock, Port.settleTimer, List.length_drop]
        omega
      rw [hnext]
      exact hblock
  have hend : ∀ {t : State}, EngineHolds w t → EngineHolds w (if a.done + 1 = a.effective then
      endCommand n (finalStatus { a with done := a.done + 1 }) t else stage n stageFuel t) :=
    fun h => EngineBut.ite (h.endCommand _) h.stage
  exact hend (EngineBut.ite hport.readAhead hport)

protected theorem EngineBut.blockEnds (h : EngineHolds w s) : EngineHolds w (blockEnds n s) := by
  have htaken : EngineHolds w (endTaking n s) := h.same (poolView_endTaking n s) (engineView_endTaking n s)
  have hport : port (endTaking n s) n = { port s n with taking := none }.settleTimer := port_modPort_same _
  unfold Machine.blockEnds
  split
  · rename_i x a _ ha
    dsimp only
    split
    · rename_i hlive
      refine htaken.deliver (by rw [hport]; exact ha) ?_
      rw [hport]
      simp only [Bool.and_eq_true, Bool.not_eq_true', List.isEmpty_eq_false_iff] at hlive
      exact hlive.2
    · exact htaken
  · exact htaken
  · exact h

/-- R115: a port whose command is no READ waits on no page. -/
theorem EngineBut.unwaited {a : ActiveCommand} (h : EngineHolds w s) (hw : w) (ha : (port s n).active = some a)
    (hkind : a.kind ≠ .read) :
    (port s n).wait ≠ .page := fun hwait => by
  rcases h.waits hw n hwait with ⟨b, -, hb, hread, -⟩ | ⟨hno, -⟩
  · exact hkind (Option.some.inj (ha.symm.trans hb) ▸ hread)
  · exact hno

protected theorem EngineBut.decideGive {data : List Byte} {crc : BitVec 16} (h : EngineHolds w s) :
    EngineHolds w (decideGive n data crc s).2 := by
  unfold Machine.decideGive
  dsimp only
  split
  · exact h
  · rename_i a ha
    split
    · exact h
    · rename_i hwrite
      have hkind : a.kind ≠ .read := by
        rw [not_not.mp hwrite]
        decide
      have hstaged : EngineHolds w (stageGiven n a data s) :=
        h.ported (fun hw e => absurd e (h.unwaited hw ha hkind)) fun _ _ => id
      split_ifs
      · exact h.endCommand _
      · exact h
      · exact EngineBut.endCommand (h.same (by simp) (by simp)) _
      · exact h.endCommand _
      · exact hstaged
      · refine hstaged.offerBlocks fun hw => ?_
        rw [stageGiven, port_modPort_same]
        exact h.unwaited hw ha hkind

protected theorem EngineBut.completeGive {txn : Byte} {data : List Byte} {crc : BitVec 16} (h : EngineHolds w s) : EngineHolds w
    (completeGive n txn data crc s) := by
  have hreceived : EngineHolds w (endTaking n (receiveGive n data s)) := h.same rfl (by simp [receiveGive])
  exact hreceived.decideGive.same (poolView_respond _ _ _ _ _ _) (engineView_respond _ _ _ _ _ _)

protected theorem EngineBut.idleEnds (h : EngineBut w X Y s) : EngineBut w X Y (idleEnds n s) :=
  EngineBut.ite (h.endCommand _) h

protected theorem EngineBut.deadlineEnds (h : EngineBut w X Y s) : EngineBut w X Y (deadlineEnds n s) :=
  h.same (poolView_deadlineEnds n s) (engineView_deadlineEnds n s)

end

end Sys2Proof.Machine
end

section
/-!
The laws of the cache and of the waiting ports along a step (O10): every command keeps the law of the engine
(`EngineHolds`), which says of the tables, claim by claim, what `CacheLaw` says of the engine's lists, and of the
waiting ports what `WaitLaw` says.
-/

namespace Sys2Proof.Machine

section
variable {w : Prop} {s t : State} {n : Node} {u : UnitId} {lba : Nat}

/-! ## What a command answers -/

/-- A command that answers a next state keeps the law of the engine. -/
def RunsEngine (w : Prop) (o : Outcome) : Prop := ∀ t, o = .next t → EngineHolds w t

theorem runsEngine_next {f : State → State} (h : EngineHolds w s) (hf : EngineHolds w (f s)) :
    RunsEngine w (.next (s.whenRunning f)) := fun t e => by
  cases e
  exact hf.ite h

theorem runsEngine_fault : RunsEngine w (.fault .illFormedCommand) := fun _ e => by cases e

theorem runsEngine_ite {c : Prop} [Decidable c] {f : State → State} (h : EngineHolds w s) (hf : EngineHolds w (f s)) :
    RunsEngine w (if c then .next (s.whenRunning f) else .fault .illFormedCommand) := by
  split
  · exact runsEngine_next h hf
  · exact runsEngine_fault

/-- A command that leaves what the law speaks of alone. -/
theorem runsEngine_same {f : State → State} (h : EngineHolds w s) (hp : poolView (f s) = poolView s)
    (he : engineView (f s) = engineView s) : RunsEngine w (.next (s.whenRunning f)) := runsEngine_next h (h.same hp he)

theorem runsEngine_request (pins : NodePins) (kind : Byte) (tag : Tag) (body : List Byte) (h : EngineHolds w s) : RunsEngine w
    (requestMeeting pins kind tag body s) :=
  runsEngine_ite h h.receiveRequest

theorem runsEngine_unknownKind (kind : Byte) (tag : Tag) (body : List Byte) (h : EngineHolds w s) :
    RunsEngine w (execUnknownKind kind tag body s) := by
  unfold execUnknownKind
  split
  · exact runsEngine_fault
  · exact runsEngine_request _ _ _ _ h

theorem runsEngine_escapeError (next : Byte) (h : EngineHolds w s) : RunsEngine w (execEscapeError next s) := by
  unfold execEscapeError
  split
  · exact runsEngine_fault
  · exact runsEngine_same h (poolView_abandonFrame _ s) (engineView_abandonFrame _ s)

theorem runsEngine_verifyingEnd (d : Option ReadFault) (h : EngineHolds w s) : RunsEngine w (execVerifyingEnd d s) := by
  have hverified : ∀ d, EngineHolds w (verify d s) := fun d => h.same (poolView_verify d s) (engineView_verify d s)
  cases d with
  | none => exact runsEngine_next h (hverified none)
  | some d => exact runsEngine_ite h (hverified (some d))

/-! ## The laws, claim by claim (R115, R130, R135, R146, R147) -/

theorem mem_busyStores {y : Store} : y ∈ busyStores s ↔ ∃ j : Fin 8, (s.cache.stores[j]).busy = some y := by
  simp [busyStores, toList_eq_map_finRange]

theorem mem_busyFetches {f : Fetch} : f ∈ busyFetches s ↔ ∃ i : Fin 16, (s.cache.fetches[i]).busy = some f := by
  simp [busyFetches, toList_eq_map_finRange]

theorem mem_blocksIn {st : PageState} {b : UnitId × Nat} :
    b ∈ blocksIn s st ↔ ∃ r ∈ s.cache.directory, r.state = st ∧ r.unit = b.1 ∧ r.lba = b.2 := by
  simp [blocksIn, Prod.ext_iff, and_assoc]

/-- R147: the busy store entries are of different pages. -/
theorem nodup_busyStores : ((busyStores s).map fun y => y.page).Nodup
    ↔ ∀ (i j : Fin 8) x y, (s.cache.stores[i]).busy = some x → (s.cache.stores[j]).busy = some y → x.page = y.page → i = j := by
  rw [List.Nodup, List.pairwise_map, busyStores, toList_eq_map_finRange, List.pairwise_filterMap, List.pairwise_map]
  constructor
  · intro h i j x y hx hy e
    by_contra hne
    have hsymm : Std.Symm fun i j : Fin 8 => ∀ x, (s.cache.stores[i]).busy = some x → ∀ y,
        (s.cache.stores[j]).busy = some y → x.page ≠ y.page := ⟨fun i j h x hx y hy e => h y hy x hx e.symm⟩
    exact List.Pairwise.forall h (List.mem_finRange i) (List.mem_finRange j) hne x hx y hy e
  · exact fun h => (List.nodup_finRange 8).pairwise_of_forall_ne fun i _ j _ hne x hx y hy e => hne (h i j x y hx hy e)

theorem nodup_waitingBlocks (f : Fetch) : (waitingBlocks f).Nodup :=
  (List.nodup_range.filter _).map fun _ _ e => Nat.add_left_cancel e

/-- R135: no block is awaited by two fetch entries. -/
theorem nodup_awaited : (awaited s).Nodup
    ↔ ∀ (i j : Fin 16) u lba, (s.cache.fetches[i]).Awaits u lba → (s.cache.fetches[j]).Awaits u lba → i = j := by
  rw [awaited, List.nodup_flatMap, busyFetches, toList_eq_map_finRange, List.pairwise_filterMap, List.pairwise_map]
  have hdisjoint : ∀ f g : Fetch, (Function.onFun List.Disjoint fun f : Fetch => (waitingBlocks f).map fun lba =>
      (f.unit, lba)) f g
      ↔ ¬ ∃ lba, f.unit = g.unit ∧ lba ∈ waitingBlocks f ∧ lba ∈ waitingBlocks g := fun f g => by
    simp only [Function.onFun, List.disjoint_left, List.mem_map, not_exists, Prod.forall]
    constructor
    · exact fun h lba ⟨hu, hf, hg⟩ => h f.unit lba ⟨lba, hf, rfl⟩ lba ⟨hg, by rw [hu]⟩
    · rintro h v lba ⟨l, hl, e⟩ l' ⟨hl', e'⟩
      cases e
      obtain ⟨hu, rfl⟩ := Prod.mk.inj e'
      exact h l' ⟨hu.symm, hl, hl'⟩
  constructor
  · rintro ⟨-, h⟩ i j u lba ⟨f, hf, rfl, hlba⟩ ⟨g, hg, hu, hlba'⟩
    by_contra hne
    have hsymm : Std.Symm fun i j : Fin 16 => ∀ f, (s.cache.fetches[i]).busy = some f → ∀ g,
        (s.cache.fetches[j]).busy = some g → (Function.onFun List.Disjoint fun f : Fetch =>
          (waitingBlocks f).map fun lba => (f.unit, lba)) f g := ⟨fun i j h f hf g hg => (h g hg f hf).symm⟩
    exact (hdisjoint f g).mp (List.Pairwise.forall h (List.mem_finRange i) (List.mem_finRange j) hne f hf g hg)
      ⟨lba, hu.symm, hlba, hlba'⟩
  · refine fun h => ⟨fun f _ => (nodup_waitingBlocks f).map fun _ _ e => (Prod.mk.inj e).2,
      (List.nodup_finRange 16).pairwise_of_forall_ne fun i _ j _ hne f hf g hg => (hdisjoint f g).mpr ?_⟩
    rintro ⟨lba, hu, hlba, hlba'⟩
    exact hne (h i j f.unit lba ⟨f, hf, rfl, hlba⟩ ⟨g, hg, hu.symm, hlba'⟩)

/-- R115: a port waits on a FILLING page of its next block. -/
theorem awaiting_iff (hblocks : (s.cache.directory.map fun r => (r.unit, r.lba)).Nodup) :
    (waitedRecord s n).map (fun r => r.state) = some .filling ↔ Awaiting s n := by
  have hfind : ∀ u lba, (findBlock s u lba).map (fun r => r.state) = some .filling ↔ FillingBlock s u lba := fun u
      lba => by
    rw [Option.map_eq_some_iff]
    constructor
    · rintro ⟨r, hr, hfill⟩
      obtain ⟨hmem, hu, hl⟩ := findBlock_unit hr
      exact ⟨r, hmem, hu, hl, hfill⟩
    · rintro ⟨r, hr, hu, hl, hfill⟩
      cases hx : findBlock s u lba with
      | none => exact absurd ⟨hu, hl⟩ (findBlock_eq_none.mp hx r hr)
      | some x =>
        obtain ⟨hmem, hxu, hxl⟩ := findBlock_unit hx
        obtain rfl : x = r := List.inj_on_of_nodup_map hblocks hmem hr (Prod.ext (hxu.trans hu.symm) (hxl.trans hl.symm))
        exact ⟨x, rfl, hfill⟩
  unfold waitedRecord Awaiting
  split
  · rename_i a u ha hu
    split
    · rename_i hread
      rw [hfind, ha, hu]
      simp [hread]
    · rename_i hread
      rw [ha]
      simp [hread]
  · rename_i hnone
    refine iff_of_false (by simp) ?_
    rintro ⟨a, u, ha, -, hu, -⟩
    exact hnone a u ha hu

theorem tables_of_cacheLaw (hpages : (s.cache.directory.map fun r => r.page).Nodup) (h : CacheLaw s) :
    Tables noLoose s.cache := by
  obtain ⟨hblocks, -, ⟨hawaited, hfilling, hclaimed, -⟩, ⟨hstores, hstoring, hstored⟩, hdirty⟩ := h
  have hheld : ∀ k, Live noLoose s.cache k → ∃ r ∈ s.cache.directory, k.names r ∧ r.state = k.state := fun k hk => by
    cases k with
    | fetch i u lba =>
      obtain ⟨f, hf, hu, hl⟩ := hk
      obtain ⟨r, hr, hst, hru, hrl⟩ := mem_blocksIn.mp (hfilling (u, lba) (mem_awaited.mpr ⟨i, f, hf, hu, hl⟩))
      exact ⟨r, hr, ⟨hru, hrl⟩, hst⟩
    | loose u lba => exact hk.elim
    | store i y =>
      obtain ⟨r, hr, hp, hu, hl, hst⟩ := hstoring y (mem_busyStores.mpr ⟨i, hk⟩)
      exact ⟨r, hr, ⟨hp, hu, hl⟩, hst⟩
    | dirty u d =>
      obtain ⟨-, hd, -⟩ := hdirty u
      obtain ⟨r, hr, hp, hu, hst⟩ := hd d hk
      exact ⟨r, hr, ⟨hp, hu⟩, hst⟩
  have hsame : ∀ k r, Live noLoose s.cache k → r ∈ s.cache.directory → k.names r → r.state = k.state := fun k r hk hr hkr => by
    obtain ⟨x, hx, hkx, hst⟩ := hheld k hk
    have hxr : x = r := by
      cases k with
      | fetch i u lba | loose u lba =>
        exact List.inj_on_of_nodup_map hblocks hx hr (Prod.ext (hkx.1.trans hkr.1.symm) (hkx.2.trans hkr.2.symm))
      | store i y => exact List.inj_on_of_nodup_map hpages hx hr (hkx.1.trans hkr.1.symm)
      | dirty u d => exact List.inj_on_of_nodup_map hpages hx hr (hkx.1.trans hkr.1.symm)
    rwa [hxr] at hst
  refine ⟨hpages, hblocks, hheld, fun r hr hnot => ?_, fun r hr k k' hk hk' hkr hkr' => ?_, fun u => (hdirty u).1⟩
  · cases hst : r.state with
    | clean => exact absurd hst hnot
    | filling =>
      obtain ⟨i, f, hf, hu, hl⟩ := mem_awaited.mp (hclaimed (r.unit, r.lba) (mem_blocksIn.mpr ⟨r, hr, hst, rfl, rfl⟩))
      exact ⟨.fetch i r.unit r.lba, ⟨f, hf, hu, hl⟩, rfl, rfl⟩
    | dirty =>
      obtain ⟨-, -, hd⟩ := hdirty r.unit
      obtain ⟨d, hd, hp⟩ := hd r hr rfl hst
      exact ⟨.dirty r.unit d, hd, hp.symm, rfl⟩
    | storing =>
      obtain ⟨y, hy, hp⟩ := hstored r hr hst
      obtain ⟨i, hi⟩ := mem_busyStores.mp hy
      obtain ⟨x, hx, hkx, -⟩ := hheld (.store i y) hi
      obtain rfl : x = r := List.inj_on_of_nodup_map hpages hx hr (hkx.1.trans hp)
      exact ⟨.store i y, hi, hkx⟩
  · have hstates : k.state = k'.state := (hsame k r hk hr hkr).symm.trans (hsame k' r hk' hr hkr')
    cases k with
    | loose => exact hk.elim
    | fetch i u lba =>
      cases k' with
      | fetch j v l =>
        obtain ⟨rfl, rfl⟩ := hkr
        obtain ⟨rfl, rfl⟩ := hkr'
        rw [nodup_awaited.mp hawaited i j _ _ hk hk']
      | loose => exact hk'.elim
      | store | dirty => cases hstates
    | store i y =>
      cases k' with
      | store j z =>
        obtain rfl := nodup_busyStores.mp hstores i j y z hk hk' (hkr.1.symm.trans hkr'.1)
        rw [Option.some.inj (hk.symm.trans hk' : some y = some z)]
      | loose => exact hk'.elim
      | fetch | dirty => cases hstates
    | dirty u d =>
      cases k' with
      | dirty v e =>
        obtain ⟨hp, rfl⟩ := hkr
        obtain ⟨hp', rfl⟩ := hkr'
        rw [List.inj_on_of_nodup_map (hdirty r.unit).1 hk hk' (hp.symm.trans hp')]
      | loose => exact hk'.elim
      | fetch | store => cases hstates

/-- R93, R96: a unit with a node is in service. -/
theorem inService_of_unitLaw (h : UnitLaw s) (hn : (s.units.get u).nodes.get n) : InService s u := by
  obtain ⟨-, -, -, hidle⟩ := h
  have hout : ∀ st, st = .detached ∨ st = .draining → (s.units.get u).state ≠ st := fun st hst e => by
    rw [hidle u (by rw [e]; exact hst), Per4.get_all] at hn
    cases hn
  unfold InService
  cases hst : (s.units.get u).state with
  | attached => exact .inl rfl
  | storeFault => exact .inr rfl
  | detached => exact absurd hst (hout _ (.inl rfl))
  | draining => exact absurd hst (hout _ (.inr rfl))

theorem engineHolds_of_laws (hp : PoolLaw s) (hc : CacheLaw s) (hw : w → WaitLaw s) : EngineHolds w s := by
  obtain ⟨hunits, -, -, ⟨hpages, -⟩, -⟩ := id hp
  obtain ⟨hblocks, hlimits, ⟨-, -, -, hfetching⟩, -⟩ := id hc
  exact ⟨poolHolds_of_poolLaw hp, tables_of_cacheLaw hpages hc, fun i f hf => hfetching f (mem_busyFetches.mpr ⟨i, hf⟩), hlimits,
    fun u n hn => inService_of_unitLaw hunits hn, fun w n hn => .inl ((awaiting_iff hblocks).mp (hw w n hn))⟩

theorem EngineBut.waitLaw (h : EngineHolds w s) (hw : w) : WaitLaw s := fun n hn =>
  (awaiting_iff h.tables.blocks).mpr ((h.waits hw n hn).resolve_right fun e => e.1)

theorem EngineBut.cacheLaw (h : EngineHolds w s) : CacheLaw s := by
  have ht := h.tables
  refine ⟨ht.blocks, h.limits, ⟨nodup_awaited.mpr fun i j u lba hi hj => ?_, fun b hb => ?_, fun b hb => ?_, fun f
      hf => ?_⟩,
    ⟨nodup_busyStores.mpr fun i j x y hx hy e => ?_, fun x hx => ?_, fun r hr hst => ?_⟩,
    fun u => ⟨ht.order u, fun d hd => ?_, fun r hr hu hst => ?_⟩⟩
  · obtain ⟨r, hr, hkr, -⟩ := ht.held (.fetch i u lba) hi
    have := ht.once r hr (.fetch i u lba) (.fetch j u lba) hi hj hkr hkr
    simpa using this
  · obtain ⟨i, f, hf, hu, hl⟩ := mem_awaited.mp hb
    obtain ⟨r, hr, ⟨hru, hrl⟩, hst⟩ := ht.held (.fetch i b.1 b.2) ⟨f, hf, hu, hl⟩
    exact mem_blocksIn.mpr ⟨r, hr, hst, hru, hrl⟩
  · obtain ⟨r, hr, hst, hru, hrl⟩ := mem_blocksIn.mp hb
    obtain ⟨k, hk, hkr⟩ := ht.claimed r hr (by simp [hst])
    have hstate := (ht.state_eq hr hk hkr).symm.trans hst
    cases k with
    | fetch i u lba =>
      obtain ⟨f, hf, hu, hl⟩ := hk
      exact mem_awaited.mpr ⟨i, f, hf, hu.trans (hkr.1.symm.trans hru), (hkr.2.symm.trans hrl) ▸ hl⟩
    | loose => exact hk.elim
    | store | dirty => cases hstate
  · obtain ⟨i, hi⟩ := mem_busyFetches.mp hf
    exact h.fetching i f hi
  · obtain ⟨r, hr, hkr, -⟩ := ht.held (.store i x) hx
    obtain ⟨r', hr', hkr', -⟩ := ht.held (.store j y) hy
    obtain rfl : r = r' := ht.eq_of_page hr hr' (hkr.1.trans (e.trans hkr'.1.symm))
    have := ht.once r hr (.store i x) (.store j y) hx hy hkr hkr'
    cases this
    rfl
  · obtain ⟨i, hi⟩ := mem_busyStores.mp hx
    obtain ⟨r, hr, ⟨hp, hu, hl⟩, hst⟩ := ht.held (.store i x) hi
    exact ⟨r, hr, hp, hu, hl, hst⟩
  · obtain ⟨k, hk, hkr⟩ := ht.claimed r hr (by simp [hst])
    have hstate := (ht.state_eq hr hk hkr).symm.trans hst
    cases k with
    | store i y => exact ⟨y, mem_busyStores.mpr ⟨i, hk⟩, hkr.1.symm⟩
    | loose => exact hk.elim
    | fetch | dirty => cases hstate
  · obtain ⟨r, hr, ⟨hp, hru⟩, hst⟩ := ht.held (.dirty u d) hd
    exact ⟨r, hr, hp, hru, hst⟩
  · obtain ⟨k, hk, hkr⟩ := ht.claimed r hr (by simp [hst])
    have hstate := (ht.state_eq hr hk hkr).symm.trans hst
    cases k with
    | dirty v d =>
      obtain ⟨hp, rfl⟩ := hkr
      exact ⟨d, hu ▸ hk, hp.symm⟩
    | loose => exact hk.elim
    | fetch | store => cases hstate

/-! ## Reset, load and a millisecond (R152, R191, R192, R194) -/

theorem engineHolds_partReset (taken : Nat) (s : State) : EngineHolds w (partReset taken s) := by
  obtain ⟨-, -, -, -, -, -, -, hpool, -, hcache, hwait⟩ := resetMeetsEveryLaw
  exact (engineHolds_of_laws hpool hcache fun _ => hwait).same rfl rfl

protected theorem EngineBut.releaseReset (h : EngineHolds w s) : EngineHolds w (releaseReset s) :=
  EngineBut.ite (h.same rfl rfl) h

protected theorem EngineBut.endLoad {pins : BitVec 24} {found : LoadRead} (h : EngineHolds w s) (hreset : ResetPages s) :
    EngineHolds w (endLoad pins found s) := by
  have hpool := h.pool.endLoad (pins := pins) (found := found) hreset
  refine h.sameEngine hpool ?_
  by_cases hp : s.phase = .loading
  · rw [endLoad_loading hp]
    have hports : ∀ x : Settings, (Per4.build fun n => { s.ports.get n with
        spiMode := (x.ports.get n).spiMode, idleTimeout := (x.ports.get n).idleTimeout }).map
            (fun p => (p.active, p.slots, p.wait))
        = s.ports.map fun p => (p.active, p.slots, p.wait) := fun x => Per4.map_build fun n => by rw [Per4.get_map]
    simp only [engineView, State.notify, State.modLink, loadedState, inForce, hports]
  · rw [endLoad_other hp]

theorem runsEngine_loadEnd (pins : BitVec 24) (found : LoadRead) (h : EngineHolds w s) (hreset : ResetPages s) : RunsEngine w
    (execLoadEnd pins found s) := by
  unfold execLoadEnd
  split
  · rintro t ⟨⟩
    exact h.endLoad hreset
  · exact runsEngine_fault

theorem engineView_tick (s : State) : engineView s.tick = engineView s := by
  have hports : (s.ports.map fun p => { p with idleTimer := p.idleTimer.map (· - 1) }).map (fun p => (p.active, p.slots, p.wait))
      = s.ports.map fun p => (p.active, p.slots, p.wait) := Per4.map_map_same (by intro _; rfl) _
  simp only [engineView, State.tick, hports]

/-! ## Every command -/

theorem exec_runsEngine (c : Instr) (h : EngineHolds w s) (hreset : ResetPages s) : RunsEngine w (exec c s) := by
  cases c with
  | identify tag body | linkConfig tag body | clear tag body | saveSettings tag body | linesConfig tag body
  | linesSet tag body | linesRead tag body | lineEventsClear tag body | powerTimings tag body | powerWatch tag body
  | consoleConfig tag body | consoleSend tag body | consoleBreak tag body | consoleRead tag body
  | consoleForward tag body | consoleStatus tag asked | poolConfig tag body | poolStatus tag body
  | unitAttach tag body | unitDetach tag body | unitStatus tag body | mediaPortConfig tag asked | patternSet tag body
  | bootPolicy tag body | bootRearm tag body | bootStatus tag body => exact runsEngine_request _ _ _ _ h
  | powerAction tag asked =>
    exact runsEngine_ite h (h.receiveRequest.same (poolView_startBehind _ _ _) (engineView_startBehind _ _ _))
  | unknownKind kind tag body => exact runsEngine_unknownKind kind tag body h
  | fill tag lba data => exact runsEngine_ite h (h.receiveAnswer EngineBut.fillAnswer)
  | fetchFailed tag => exact runsEngine_next h (h.receiveAnswer EngineBut.fetchFailedAnswer)
  | stored tag => exact runsEngine_next h (h.receiveAnswer EngineBut.storedAnswer)
  | storeFailed tag => exact runsEngine_next h (h.receiveAnswer EngineBut.storeFailedAnswer)
  | malformedAnswer kind tag body =>
    exact runsEngine_ite h (h.receiveAnswer fun h => h.same (poolView_linkError _ _) (engineView_linkError _ _))
  | crcError | byteFramingError => exact runsEngine_same h (poolView_abandonFrame _ s) (engineView_abandonFrame _ s)
  | truncatedFrame => exact runsEngine_same h (poolView_truncateFrame s) (engineView_truncateFrame s)
  | escapeError next => exact runsEngine_escapeError next h
  | lengthError length => exact runsEngine_ite h (h.same (poolView_abandonFrame _ s) (engineView_abandonFrame _ s))
  | overrun => exact runsEngine_same h (poolView_overrunByte s) (engineView_overrunByte s)
  | arbiterChoice pins => exact runsEngine_next h h.arbiterLooks
  | frameSent => exact runsEngine_same h (poolView_frameEnds s) (engineView_frameEnds s)
  | sampleInstant pins => exact runsEngine_next h h.sampleAll
  | tPressEnd n =>
    exact runsEngine_same h (poolView_timerEnds fun a => poolView_pressEnds n a s) (engineView_timerEnds fun a =>
        engineView_pressEnds n a s)
  | tSoftEnd n =>
    exact runsEngine_same h (poolView_timerEnds fun a => poolView_softEnds n a s) (engineView_timerEnds fun a =>
        engineView_softEnds n a s)
  | tHoldEnd n =>
    exact runsEngine_same h (poolView_timerEnds fun a => poolView_holdEnds n a s) (engineView_timerEnds fun a =>
        engineView_holdEnds n a s)
  | tRestEnd n =>
    exact runsEngine_same h (poolView_timerEnds fun a => poolView_restEnds n a s) (engineView_timerEnds fun a =>
        engineView_restEnds n a s)
  | tOnEnd n | tResetEnd n | tDiagEnd n =>
    exact runsEngine_same h (poolView_timerEnds fun _ => poolView_complete n _ s) (engineView_timerEnds fun _ =>
        engineView_complete n _ s)
  | powerWatchTimeout => exact runsEngine_same h (poolView_endWatch _ s) (engineView_endWatch _ s)
  | characterReceived n data parityBit stopBit => exact runsEngine_next h h.receiveCharacter
  | breakRecognized n => exact runsEngine_same h (poolView_recognizeBreak n s) (engineView_recognizeBreak n s)
  | heldCharacterStored n => exact runsEngine_next h h.storeHeld
  | breakEnd n => exact runsEngine_same h (poolView_endBreak n s) (engineView_endBreak n s)
  | transmitCharacterStart n cts =>
    exact runsEngine_same h (poolView_modConsole (pages_startCharacter _)) (engineView_modConsole _ _ s)
  | breakSent n => exact runsEngine_same h (poolView_finishBreak n s) (engineView_finishBreak n s)
  | breakRecoveryEnd n => exact runsEngine_same h (poolView_recoverBreak n s) (engineView_recoverBreak n s)
  | windowEnd n => exact runsEngine_next h h.endWindow
  | read n lba count txn =>
    refine runsEngine_next h (h.answerWith fun h => ?_)
    split
    · exact h.takeRead
    · exact h.badCommandAt
  | write n lba count txn =>
    refine runsEngine_next h (h.answerWith fun h => ?_)
    split
    · exact h.takeWrite
    · exact h.badCommandAt
  | take n txn => exact runsEngine_same h (poolView_takeBlock n txn s) (engineView_takeBlock n txn s)
  | give n txn data crc => exact runsEngine_ite h h.completeGive
  | status n txn => exact runsEngine_next h (h.answerWith id)
  | sense n txn => exact runsEngine_same h (poolView_takeSense n txn s) (engineView_takeSense n txn s)
  | flush n txn => exact runsEngine_next h (h.answerWith EngineBut.takeFlush)
  | ackChange n txn =>
    exact runsEngine_next h (h.answerWith fun h => h.same (poolView_modPort n _ _) (engineView_modPort rfl rfl rfl))
  | abort n txn => exact runsEngine_next h (h.answerWith EngineBut.takeAbort)
  | badCommand n block => exact runsEngine_ite h h.badBlock
  | shortTransaction n => exact runsEngine_same h (poolView_shortTransaction n s) (engineView_shortTransaction n s)
  | blockDelivered n => exact runsEngine_next h h.blockEnds
  | idleTimeout n => exact runsEngine_next h h.idleEnds
  | fetchTimeout i => exact runsEngine_next h h.fetchTimesOut
  | storeTimeout i => exact runsEngine_next h h.storeTimesOut
  | agingTick => exact runsEngine_next h h.agePages
  | deadline n => exact runsEngine_next h h.deadlineEnds
  | partReset taken =>
    rintro t ⟨⟩
    exact engineHolds_partReset taken s
  | resetRelease =>
    rintro t ⟨⟩
    exact h.releaseReset
  | loadEnd pins found => exact runsEngine_loadEnd pins found h hreset
  | invalidatingEnd | writingEnd | sealingEnd =>
    exact runsEngine_same h (poolView_savePhaseEnds _ _ _ s) (engineView_savePhaseEnds _ _ _ s)
  | verifyingEnd d => exact runsEngine_verifyingEnd d h
  | saveNoAck address taken => exact runsEngine_ite h (h.same (poolView_saveFails address taken s)
      (engineView_saveFails address taken s))
  | frameStart => exact runsEngine_same h (poolView_startByte s) (engineView_startByte s)
  | startBit n mid => exact runsEngine_same h (poolView_confirmStart n mid s) (engineView_confirmStart n mid s)
  | transmitCharacterEnd n =>
    exact runsEngine_same h (poolView_modConsole (pages_endCharacter _)) (engineView_modConsole _ _ s)
  | giveCommandBlock n => exact runsEngine_same h (poolView_giveBlockTaken n s) (engineView_giveBlockTaken n s)

theorem step_engineHolds (e : step s = .next t) (h : EngineHolds w s) (hreset : ResetPages s) : EngineHolds w t := by
  cases hp : s.pending with
  | nil =>
    rw [step_idle hp] at e
    cases e
    exact h.same (poolView_tick s) (engineView_tick s)
  | cons c rest =>
    rw [step_front hp] at e
    exact exec_runsEngine c (s := { s with pending := rest }) (h.same rfl rfl) hreset t e

end

end Sys2Proof.Machine

open Sys2Proof Sys2Proof.Machine

/-- Settles O10: the law of the engine holds after the step, with what it says of waiting ports where it held before. -/
theorem cacheTablesAgree : Obligations.CacheTablesAgree := by
  intro s t hpool hcache e
  obtain ⟨-, -, -, -, -, hreset⟩ := id hpool
  have hstep : EngineHolds (WaitLaw s) t := step_engineHolds e (engineHolds_of_laws hpool hcache id) hreset
  exact ⟨hstep.cacheLaw, hstep.waitLaw⟩
end

section
/-!
A complete GIVE as it is decided (O43): each case of R119 on the port with the data in its receive buffer.
-/

namespace Sys2Proof.Machine

section
variable {s t : State} {n : Node} {u : UnitId} {txn : Byte} {data : List Byte} {crc : BitVec 16} {a : ActiveCommand} {r : Status}

/-! ## The end of an earlier TAKE, and the answer (R110, R111) -/

theorem endTaking_of_fits (h : TimerFits (port s n)) :
    endTaking n s = { s with ports := s.ports.modify n fun p => { p with taking := none } } :=
  modPort_of_fits (f := fun p => { p with taking := none }) h

theorem port_endTaking (h : TimerFits (port s n)) : port (endTaking n s) n = { port s n with taking := none } := by
  rw [endTaking_of_fits h]
  exact Per4.get_modify_same _ _ _

/-- R109, R119: the state with the data of a GIVE in the port's receive buffer. -/
def givenState (n : Node) (data : List Byte) (s : State) : State :=
  { s with ports := s.ports.modify n fun p => { p with receiveBuffer := data } }

theorem port_givenState : port (givenState n data s) n = { port s n with receiveBuffer := data } :=
    Per4.get_modify_same _ _ _

theorem receiveGive_of_fits (h : TimerFits (port s n)) : receiveGive n data s = givenState n data s :=
  modPort_of_fits (f := fun p => { p with receiveBuffer := data }) h

theorem exec_give (hrun : s.phase = .running) (hlen : data.length = 512) :
    exec (.give n txn data crc) s = .next (completeGive n txn data crc s) := by
  show (if data.length = blockSize then _ else _) = _
  rw [if_pos (show data.length = blockSize from hlen), whenRunning_running hrun]

/-- R110, R119: a GIVE whose decision leaves the state `t`, but for the TAKE that has ended, is answered there. -/
theorem completeGive_eq (hs : TimerFits (port s n)) (ht : TimerFits (port t n))
    (h : decideGive n data crc (endTaking n (givenState n data s)) = (r, endTaking n t)) :
    completeGive n txn data crc s = giveAnswered n txn r t := by
  have hfits : TimerFits (port (endTaking n t) n) := by
    rw [port_endTaking ht]
    exact ht
  unfold completeGive
  rw [receiveGive_of_fits hs, h]
  refine (modPort_of_fits
    (f := fun p => { p with response := fillerFor (commandBytes + giveBytes) ++ statusBlock p txn r ++ [] })
    hfits).trans ?_
  rw [endTaking_of_fits ht]
  simp only [Per4.modify_modify, List.append_nil]
  rfl

theorem commandEnded_endTaking {st : Status} (h : TimerFits (port s n)) :
    commandEnded n a st (endTaking n s) = endTaking n (commandEnded n a st s) := by
  rw [endTaking_of_fits h, endTaking_of_fits timerFits_commandEnded]
  simp only [commandEnded, Per4.modify_modify]
  rfl

/-- R112: the command of a port whose earlier TAKE has ended ends. -/
theorem endCommand_endTaking {st : Status} (h : TimerFits (port s n)) (ha : (port s n).active = some a) :
    endCommand n st (endTaking n s) = endTaking n (commandEnded n a st s) := by
  have hactive : (port (endTaking n s) n).active = some a := by
    rw [port_endTaking h]
    exact ha
  rw [endCommand_eq, hactive]
  exact commandEnded_endTaking h

/-! ## The cases of R119 -/

theorem unitFaulted_eq (hunits : UnitLaw s) (hnode : (s.units.get u).nodes.get n = true) :
    unitFaulted s n = ((s.units.get u).state == .storeFault) := by
  rw [unitFaulted, unitOf_eq_some hunits hnode]

theorem decideGive_noWrite (h : ∀ a, (port s n).active = some a → a.kind ≠ .write) : decideGive n data crc s = (.noCommand, s) :=
    by
  unfold decideGive
  dsimp only
  split
  · rfl
  · rename_i a ha
    rw [if_pos (h a ha)]

theorem decideGive_faulted (ha : (port s n).active = some a) (hkind : a.kind = .write) (hfault : unitFaulted s n = true) :
    decideGive n data crc s = (.writeFault, endCommand n .writeFault s) := by
  simp only [decideGive, ha, hkind, hfault, ne_eq, not_true_eq_false, if_false, if_true]

theorem decideGive_complete (ha : (port s n).active = some a) (hkind : a.kind = .write) (hfault : unitFaulted s n = false)
    (hall : a.effective ≤ a.done + (port s n).slots.length) : decideGive n data crc s = (.noCommand, s) := by
  simp only [decideGive, ha, hkind, hfault, ne_eq, not_true_eq_false, Bool.false_eq_true, if_false, if_pos hall]

/-- R119: a WRITE whose unit is in service and whose blocks are not all staged. -/
structure AwaitsBlock (n : Node) (a : ActiveCommand) (s : State) : Prop where
  active : (port s n).active = some a
  kind : a.kind = .write
  served : unitFaulted s n = false
  more : ¬ a.effective ≤ a.done + (port s n).slots.length

theorem decideGive_dataCrc (h : AwaitsBlock n a s) (hcrc : crc ≠ crc16 data) : decideGive n data crc s
    = (.dataCrc, endCommand n .dataCrc (s.modPort n fun q => { q with dataCrcErrors := q.dataCrcErrors + 1 })) := by
  simp only [decideGive, h.active, h.kind, h.served, ne_eq, not_true_eq_false, Bool.false_eq_true, if_false, if_neg h.more, if_pos
      hcrc]

theorem decideGive_overrun (h : AwaitsBlock n a s) (hcrc : crc = crc16 data) (hfull : 2 ≤ (port s n).slots.length) :
    decideGive n data crc s = (.overrun, endCommand n .overrun s) := by
  simp only [decideGive, h.active, h.kind, h.served, ne_eq, not_true_eq_false, Bool.false_eq_true, if_false, if_neg h.more, hcrc,
    if_pos hfull]

theorem decideGive_behind (h : AwaitsBlock n a s) (hcrc : crc = crc16 data) (hroom : (port s n).slots.length < 2) (hheld :
    (port s n).wait = .cache) : decideGive n data crc s = (.good, stageGiven n a data s) := by
  simp only [decideGive, h.active, h.kind, h.served, ne_eq, not_true_eq_false, Bool.false_eq_true, if_false, if_neg h.more, hcrc,
    if_neg (Nat.not_le.mpr hroom), if_pos hheld]

theorem decideGive_offered (h : AwaitsBlock n a s) (hcrc : crc = crc16 data) (hroom : (port s n).slots.length < 2) (hheld :
    (port s n).wait ≠ .cache) :
    decideGive n data crc s = (.good, offerBlocks n offerFuel (stageGiven n a data s)) := by
  simp only [decideGive, h.active, h.kind, h.served, ne_eq, not_true_eq_false, Bool.false_eq_true, if_false, if_neg h.more, hcrc,
    if_neg (Nat.not_le.mpr hroom), if_neg hheld]

/-- R119: the block behind a held one. -/
def stagedBehind (n : Node) (a : ActiveCommand) (data : List Byte) (s : State) : State :=
  { s with
    ports := s.ports.modify n fun p =>
      { p with slots := p.slots ++ [{ lba := a.first + a.done + p.slots.length, data := data }] } }

theorem state_of_write {p : Port} (ha : p.active = some a) (hkind : a.kind = .write) :
    p.state = if p.wait = .cache then .writeHeld else .writing := by
  rw [Port.state, ha]
  dsimp only
  rw [hkind]

/-- R126: what a WRITE has staged does not move its idle timer. -/
theorem TimerFits.withSlots {p : Port} (h : TimerFits p) (ha : p.active = some a) (hkind : a.kind = .write) (slots : List Slot) :
    TimerFits { p with slots := slots } := by
  have hcounting : ({ p with slots := slots } : Port).counting = p.counting := by
    rw [Port.counting, Port.counting, state_of_write (p := { p with slots := slots }) ha hkind, state_of_write ha hkind]
    by_cases hheld : p.wait = .cache <;> simp [hheld]
  unfold TimerFits
  rw [hcounting]
  exact h

/-- R119: a failed CRC is counted before the command ends. -/
def crcCounted (n : Node) (s : State) : State :=
  { s with ports := s.ports.modify n fun p => { p with dataCrcErrors := p.dataCrcErrors + 1 } }

theorem port_crcCounted : port (crcCounted n s) n = { port s n with dataCrcErrors := (port s n).dataCrcErrors + 1 } :=
  Per4.get_modify_same _ _ _

/-- A change of a port whose earlier TAKE has ended is one before that end. -/
theorem modPort_endTaking {f : Port → Port} (h : TimerFits (port s n)) (hf : TimerFits (f { port s n with taking :=
    none }))
    (hcomm : ∀ p : Port, f { p with taking := none } = { f p with taking := none })
    (ht : TimerFits (f (port s n))) :
    (endTaking n s).modPort n f = endTaking n { s with ports := s.ports.modify n f } := by
  have hport : TimerFits (port { s with ports := s.ports.modify n f } n) := by
    rw [port, Per4.get_modify_same]
    exact ht
  rw [modPort_of_fits (by rw [port_endTaking h]; exact hf), endTaking_of_fits h, endTaking_of_fits hport]
  simp only [Per4.modify_modify, hcomm]

end

end Sys2Proof.Machine

open Sys2Proof Sys2Proof.Machine

/-- Settles O43: the decision reads the port and the unit, which the receive buffer and the end of an earlier TAKE
leave; the first case that applies decides. -/
theorem giveDecidedInOrder : Obligations.GiveDecidedInOrder := by
  intro n u txn data crc a given s hrun htimer hunits hlen hnode hgiven
  have hgiven : given = givenState n data s := hgiven
  subst hgiven
  have hfits : TimerFits (port (givenState n data s) n) := by
    rw [port_givenState]
    exact htimer n
  have hport : port (endTaking n (givenState n data s)) n = { port s n with receiveBuffer := data, taking := none } :=
      by
    rw [port_endTaking hfits, port_givenState]
  have hfault : unitFaulted (endTaking n (givenState n data s)) n = ((s.units.get u).state == .storeFault) :=
    unitFaulted_eq (s := endTaking n (givenState n data s)) hunits hnode
  have hgiven : ∀ {r : Status} {t : State}, TimerFits (port t n) →
      decideGive n data crc (endTaking n (givenState n data s)) = (r, endTaking n t) →
      exec (.give n txn data crc) s = .next (giveAnswered n txn r t) := fun ht h => by
    rw [exec_give hrun hlen, completeGive_eq (htimer n) ht h]
  refine ⟨fun hno => ?_, fun ha hkind => ⟨fun hstate => ?_, fun hstate hall => ?_, fun hstate hmore =>
    ⟨fun hcrc => ?_, fun hcrc hfull => ?_, fun hcrc hroom hheld => ?_⟩⟩⟩
  · refine hgiven hfits (decideGive_noWrite fun b hb hkind => ?_)
    rw [hport] at hb
    have hb : (port s n).active = some b := hb
    rcases hno with hno | hno | hno
    · rw [hno] at hb
      cases hb
    all_goals
      rw [state_of_write hb hkind] at hno
      split at hno <;> cases hno
  all_goals
    have hactive : (port (endTaking n (givenState n data s)) n).active = some a := by rw [hport]; exact ha
    have hactive' : (port (givenState n data s) n).active = some a := by rw [port_givenState]; exact ha
  · refine hgiven timerFits_commandEnded ((decideGive_faulted hactive hkind (by rw [hfault, hstate]; rfl)).trans ?_)
    rw [endCommand_endTaking hfits hactive']
  · exact hgiven hfits (decideGive_complete hactive hkind (by simpa [hfault] using hstate) (by rw [hport]; exact hall))
  all_goals
    have hawaits : AwaitsBlock n a (endTaking n (givenState n data s)) :=
      ⟨hactive, hkind, by simpa [hfault] using hstate, by rw [hport]; exact Nat.not_le.mpr hmore⟩
  · have hcounted : TimerFits (port (crcCounted n (givenState n data s)) n) := by
      rw [port_crcCounted]
      exact hfits
    refine hgiven timerFits_commandEnded ((decideGive_dataCrc hawaits hcrc).trans ?_)
    rw [modPort_endTaking hfits hfits (fun _ => rfl) hfits]
    have hcountedActive : (port (crcCounted n (givenState n data s)) n).active = some a := by
      rw [port_crcCounted]
      exact hactive'
    exact congrArg (Prod.mk _) (endCommand_endTaking (s := crcCounted n (givenState n data s)) hcounted hcountedActive)
  · refine hgiven timerFits_commandEnded ((decideGive_overrun hawaits hcrc (by rw [hport]; exact hfull)).trans ?_)
    rw [endCommand_endTaking hfits hactive']
  · have hstaged := hfits.withSlots hactive' hkind
    refine hgiven (t := stagedBehind n a data (givenState n data s)) ?_
      ((decideGive_behind hawaits hcrc (by rw [hport]; exact hroom) (by rw [hport]; exact hheld)).trans ?_)
    · rw [stagedBehind, port, Per4.get_modify_same]
      exact hstaged _
    · exact congrArg (Prod.mk _) (modPort_endTaking hfits (hstaged _) (fun _ => rfl) (hstaged _))
end

section
/-!
The only block left of a WRITE as it reaches the cache (O44): the offer to a DIRTY or a CLEAN page, the end of the
WRITE, and the store of a page that is newly DIRTY.
-/

namespace Sys2Proof.Machine

section
variable {s t : State} {n : Node} {u : UnitId} {data : List Byte} {a : ActiveCommand} {r : DirRecord} {x : Slot}
  {rest : List Slot} {i : Fin 8} {st : Status}

/-! ## An offer to a page with a record (R143) -/

theorem offer_dirty (hslots : (port s n).slots = x :: rest) (hu : unitOf s n = some u) (hfind : findBlock s u x.lba = some r)
    (hr : r.state = .dirty) : offer n s = (true, writePage r.page x.data s) := by
  simp only [offer, hslots, hu, hfind, hr]

theorem offer_clean (hslots : (port s n).slots = x :: rest) (hu : unitOf s n = some u) (hfind : findBlock s u x.lba = some r)
    (hr : r.state = .clean) (hroom : dirtyCount s u < (s.units.get u).dirtyLimit) :
    offer n s = (true, makeDirty u r.page x.data s) := by
  simp only [offer, hslots, hu, hfind, hr, if_neg (Nat.not_le.mpr hroom)]

/-! ## The last block of a WRITE (R120) -/

/-- R112: the record of a command whose next block is done. -/
def ActiveCommand.further (a : ActiveCommand) : ActiveCommand := { a with done := a.done + 1 }

theorem endCommand_of_active (ha : (port s n).active = some a) : endCommand n st s = commandEnded n a st s := by
  rw [endCommand_eq, ha]

/-- R120: the accepted block is the last one, so the WRITE ends. -/
theorem acceptBlock_last (ha : (port s n).active = some a) (hlast : a.done + 1 = a.effective) :
    acceptBlock n s = commandEnded n a.further (finalStatus a.further) s := by
  have hactive : (port (s.modPort n fun p => { p with slots := p.slots.drop 1, active := some a.further }) n).active
      = some a.further := by
    rw [port_modPort_same]
    rfl
  unfold acceptBlock
  rw [ha]
  refine (if_pos hlast).trans ((endCommand_of_active hactive).trans ?_)
  simp only [commandEnded, State.modPort, Per4.modify_modify]
  rfl

theorem port_commandEnded : port (commandEnded n a st s) n = endedPort (port s n) a st := Per4.get_modify_same _ _ _

/-- A change that leaves one port as it is leaves every port. -/
theorem modify_eq_self {f : Port → Port} (h : f (port s n) = port s n) : s.ports.modify n f = s.ports :=
  Per4.ext_get fun m => by
    rw [Per4.get_modify]
    split_ifs with e
    · exact e ▸ h
    · rfl

/-- R120: with no block staged and none held, nothing more is offered. -/
theorem offerBlocks_empty (hfits : TimerFits (port s n)) (hslots : (port s n).slots = []) (hwait : (port s n).wait = .none)
    (k : Nat) : offerBlocks n k s = s := by
  cases k with
  | zero => rfl
  | succ k =>
    rw [offerBlocks, hslots]
    have hsame : ({ port s n with wait := .none } : Port) = port s n := by rw [← hwait]
    refine (modPort_of_fits (f := fun p => { p with wait := .none }) (hsame ▸ hfits)).trans ?_
    rw [modify_eq_self hsame]

/-- R120: the offer of the last block ends the WRITE, and the store engine follows. -/
theorem offerBlocks_last (hslots : (port s n).slots = x :: rest) (hoffer : offer n s = (true, t)) (hports : t.ports = s.ports)
    (ha : (port s n).active = some a) (hlast : a.done + 1 = a.effective) :
    offerBlocks n offerFuel s = issueStores storeFuel (commandEnded n a.further (finalStatus a.further) t) := by
  have hactive : (port t n).active = some a := by
    rw [port_congr hports]
    exact ha
  have hport : port (issueStores storeFuel (commandEnded n a.further (finalStatus a.further) t)) n
      = endedPort (port t n) a.further (finalStatus a.further) := by
    rw [port_congr (ports_issueStores _ _), port_commandEnded]
  rw [offerFuel, offerBlocks, hslots]
  dsimp only
  rw [hoffer]
  dsimp only
  rw [acceptBlock_last hactive hlast]
  exact offerBlocks_empty (by rw [hport]; rfl) (by rw [hport]; rfl) (by rw [hport]; rfl) _

/-! ## The store of the one DIRTY page (R147) -/

theorem find?_page_unique {l : List DirRecord} {page : PageId} (hr : r ∈ l) (hpage : r.page = page)
    (h : ∀ z ∈ l, z.page = page → z = r) : l.find? (fun z => z.page == page) = some r := by
  cases hfind : l.find? fun z => z.page == page with
  | none => exact absurd (List.find?_eq_none.mp hfind r hr) (by simp [hpage])
  | some z => exact congrArg some (h z (List.mem_of_find?_eq_some hfind) (by simpa using List.find?_some hfind))

/-- R112, R143, R147: a WRITE has ended with the data of its last block in a page that is STORING. -/
def writtenAndStored (n : Node) (a : ActiveCommand) (st : Status) (u : UnitId) (i : Fin 8) (r : DirRecord) (data : List Byte)
    (s : State) : State :=
  { s with
    ram := Memory.write ramDefault s.ram (pageAddress r.page 0) data
    ports := s.ports.modify n fun p => endedPort p a st
    cache := { s.cache with
      directory := s.cache.directory.map fun z => if z.page = r.page then { z with state := .storing, redirtied := false } else z
      joins := s.cache.joins + 1
      stores := s.cache.stores.set i.val
        { generation := (s.cache.stores[i]).generation + 1
          busy := some { unit := u, lba := r.lba, page := r.page, created := s.now } } i.isLt
      entryWait := s.cache.entryWait.filter fun m => m != n }
    link := { s.link with calls := s.link.calls ++ [.store i] } }

/-- R143, R147: where no page waited to be stored, the store of a page that becomes DIRTY is issued at once. -/
theorem issueStores_makeDirty (hr : r ∈ s.cache.directory) (hone : ∀ z ∈ s.cache.directory, z.page = r.page → z = r)
    (hdirty : ∀ v : UnitId, s.cache.dirty.get v = []) (hserved : (s.units.get u).state ≠ .storeFault)
    (hfree : freeStore s = some i) :
    issueStores storeFuel (commandEnded n a st (makeDirty u r.page data s)) = writtenAndStored n a st u i r data s := by
  have hgot : ∀ v, (s.cache.dirty.modify u fun l => l ++ [{ page := r.page, moment := s.cache.joins }]).get v
      = if v = u then [{ page := r.page, moment := s.cache.joins }] else [] := fun v => by
    rw [Per4.get_modify, hdirty v, hdirty u, List.nil_append]
  have hnext : nextToStore (commandEnded n a st (makeDirty u r.page data s)) = some
      (u, { page := r.page, moment := s.cache.joins }) :=
    (nextToStore_single (s := commandEnded n a st (makeDirty u r.page data s)) ((hgot u).trans (if_pos rfl)) fun v hv =>
      (hgot v).trans (if_neg hv)).trans (if_neg hserved)
  have hfind : (commandEnded n a st (makeDirty u r.page data s)).cache.directory.find? (fun z => z.page == r.page)
      = some r.dirtied := by
    refine find?_page_unique (List.mem_map.mpr ⟨r, hr, if_pos rfl⟩) rfl fun z hz hpage => ?_
    obtain ⟨y, hy, rfl⟩ := List.mem_map.mp hz
    split_ifs at hpage ⊢ with e
    · rw [hone y hy e]
      rfl
    · exact absurd hpage e
  have hissued := issueStore_eq (i := i) (u := u) (d := { page := r.page, moment := s.cache.joins }) hfind
  have hnone : ∀ v, ((commandEnded n a st (makeDirty u r.page data s)).cache.dirty.modify u fun l => l.drop 1).get v = [] :=
    fun v => by
      refine (Per4.get_modify _ _ _ _).trans ?_
      split_ifs with e
      · exact congrArg (List.drop 1) ((hgot u).trans (if_pos rfl))
      · exact (hgot v).trans (if_neg e)
  have hdirties : ((commandEnded n a st (makeDirty u r.page data s)).cache.dirty.modify u fun l => l.drop 1) = s.cache.dirty :=
    Per4.ext_get fun v => (hnone v).trans (hdirty v).symm
  have hmap : (commandEnded n a st (makeDirty u r.page data s)).cache.directory.map
        (fun z => if z.page = r.page then { z with state := .storing, redirtied := false } else z)
      = s.cache.directory.map fun z => if z.page = r.page then { z with state := .storing, redirtied := false } else z := by
    refine List.map_map.trans (List.map_congr_left fun z _ => ?_)
    simp only [Function.comp_apply]
    split_ifs <;> rfl
  refine (issueStores_single (s := commandEnded n a st (makeDirty u r.page data s)) hfree hnext
    (nextToStore_noneDirty fun v => ?_)).trans (hissued.trans ?_)
  · rw [hissued]
    exact hnone v
  · simp only [hdirties, hmap]
    rfl

theorem issueStores_full (h : freeStore s = none) (k : Nat) : issueStores k s = s := by
  cases k with
  | zero => rfl
  | succ k => rw [issueStores, h]

theorem freeStore_eq_none (h : ∀ j : Fin 8, (s.cache.stores[j]).busy ≠ none) : freeStore s = none :=
  List.find?_eq_none.mpr fun j _ => by simpa [Option.isSome_iff_ne_none] using h j

/-! ## The GIVE of the last block (R119, R120) -/

/-- R110: a port after the answer to a GIVE. -/
def answeredGive (txn : Byte) (st : Status) (p : Port) : Port :=
  { p with taking := none, response := List.replicate (8 + 514) 0xFF#8 ++ statusBlock p txn st }

theorem stageGiven_eq (hfits : TimerFits (port s n)) (ha : (port s n).active = some a) (hkind : a.kind = .write) :
    stageGiven n a data s = stagedBehind n a data s :=
  modPort_of_fits (f := fun p => { p with slots := p.slots ++ [{ lba := a.first + a.done + p.slots.length, data := data }] })
    (hfits.withSlots ha hkind _)

theorem port_stagedBehind : port (stagedBehind n a data s) n = { port s n with
    slots := (port s n).slots ++ [{ lba := a.first + a.done + (port s n).slots.length, data := data }] } :=
  Per4.get_modify_same _ _ _

theorem port_giveAnswered {txn : Byte} {st : Status} : port (giveAnswered n txn st s) n = answeredGive txn st (port s n) :=
  Per4.get_modify_same _ _ _

theorem port_writtenAndStored : port (writtenAndStored n a st u i r data s) n = endedPort (port s n) a st :=
    Per4.get_modify_same _ _ _

/-- R119, R120: the last block is accepted, and the WRITE ends. -/
theorem decideGive_last (h : AwaitsBlock n a s) (hfits : TimerFits (port s n)) (hslots : (port s n).slots = [])
    (hwait : (port s n).wait = .none) (hlast : a.done + 1 = a.effective)
    (hoffer : offer n (stagedBehind n a data s) = (true, t)) (hports : t.ports = (stagedBehind n a data s).ports) :
    decideGive n data (crc16 data) s
      = (.good, issueStores storeFuel (commandEnded n a.further (finalStatus a.further) t)) := by
  rw [decideGive_offered h rfl (by simp [hslots]) (by simp [hwait]), stageGiven_eq hfits h.active h.kind]
  refine congrArg (Prod.mk _) (offerBlocks_last (x := { lba := a.first + a.done, data := data }) (rest :=
      []) ?_ hoffer hports ?_ hlast)
  · rw [port_stagedBehind, hslots]
    rfl
  · rw [port_stagedBehind]
    exact h.active

end

end Sys2Proof.Machine

open Sys2Proof Sys2Proof.Machine

/-- Settles O44: the block is staged and offered at once; the offer to the page found ends the WRITE, and the store
engine has either no entry or one page to store. -/
theorem givenBlockReachesCache : Obligations.GivenBlockReachesCache := by
  intro n u txn data a r s hrun htimer hunits hlen hnode hattached hactive hkind hlast hslots hwait hfind hentry hone
  obtain ⟨hr, hunit, hlba⟩ := findBlock_unit hfind
  have hfits : TimerFits (port (givenState n data s) n) := by
    rw [port_givenState]
    exact htimer n
  have hport : port (endTaking n (givenState n data s)) n = { port s n with receiveBuffer := data, taking := none } := by
    rw [port_endTaking hfits, port_givenState]
  have hnow : endTaking n (givenState n data s) = { s with
      ports := s.ports.modify n fun p => { p with receiveBuffer := data, taking := none } } := by
    rw [endTaking_of_fits hfits]
    simp only [givenState, Per4.modify_modify]
  have hawaits : AwaitsBlock n a (endTaking n (givenState n data s)) := by
    refine ⟨by rw [hport]; exact hactive, hkind, ?_, by rw [hport, hslots]; simp [← hlast]⟩
    rw [unitFaulted_eq (s := endTaking n (givenState n data s)) hunits hnode]
    simp [hnow, hattached]
  have hstaged : (port (stagedBehind n a data (endTaking n (givenState n data s))) n).slots
      = [{ lba := a.first + a.done, data := data }] := by
    rw [port_stagedBehind, hport, hslots]
    rfl
  have hunitOf : unitOf (stagedBehind n a data (endTaking n (givenState n data s))) n = some u := unitOf_eq_some hunits hnode
  have hgiven : ∀ {t t' : State}, offer n (stagedBehind n a data (endTaking n (givenState n data s))) = (true, t') →
      t'.ports = (stagedBehind n a data (endTaking n (givenState n data s))).ports → TimerFits (port t n) →
      issueStores storeFuel (commandEnded n a.further (finalStatus a.further) t') = endTaking n t →
      exec (.give n txn data (crc16 data)) s = .next (giveAnswered n txn .good t) := fun hoffer hports ht hissue => by
    rw [exec_give hrun hlen, completeGive_eq (htimer n) ht]
    rw [decideGive_last hawaits (by rw [hport]; exact htimer n) (by rw [hport]; exact hslots) (by rw [hport]; exact hwait) hlast
      hoffer hports, hissue]
  refine ⟨fun hdirty hfull => ?_, fun i hclean hroom hnone hfree hbelow => ?_⟩
  · refine hgiven (offer_dirty hstaged hunitOf hfind hdirty) rfl timerFits_commandEnded ?_
    refine (issueStores_full ?_ _).trans ?_
    · exact freeStore_eq_none hfull
    · rw [endTaking_of_fits timerFits_commandEnded, hnow]
      simp only [commandEnded, stagedBehind, writePage, State.modRam, Per4.modify_modify]
      rfl
  · have hfreed := freeStore_eq_some hfree hbelow
    have hserved : (s.units.get u).state ≠ .storeFault := by
      rw [hattached]
      decide
    have hended : TimerFits (port (writtenAndStored n a.further (finalStatus a.further) u i r data (givenState n data s)) n) := by
      rw [port_writtenAndStored]
      rfl
    refine ⟨_, hgiven (offer_clean hstaged hunitOf hfind hclean hroom) rfl hended ?_, rfl, rfl, rfl, rfl, rfl, rfl, ?_, ?_, ?_,
      rfl, rfl, rfl, rfl, rfl, rfl, rfl⟩
    · rw [issueStores_makeDirty (s := stagedBehind n a data (endTaking n (givenState n data s))) hr hone hnone
        hserved hfreed,
        endTaking_of_fits hended, hnow]
      simp only [writtenAndStored, stagedBehind, givenState, Per4.modify_modify]
      rfl
    · exact congrArg Port.active (port_giveAnswered.trans (congrArg _ port_writtenAndStored))
    · exact congrArg Port.lastCount (port_giveAnswered.trans (congrArg _ port_writtenAndStored))
    · intro m hm
      simp only [giveAnswered, writtenAndStored, givenState, Per4.modify_modify]
      exact Per4.get_modify_other _ hm _
end

section
/-!
SUPPORT. The idle timer of a port (R126), the port's states (R109), and the fetch of one missing block with a page of
the unit's reservation (R81, R133, R135, R142).
-/

namespace Sys2Proof.Machine

section
variable {s t : State} {n : Node} {u : UnitId} {lba : Nat} {a : ActiveCommand} {p : Port} {g : PageId} {i : Fin 16}

/-! ## The state of a port and its counting conditions (R109, R126) -/

theorem state_of_read (ha : p.active = some a) (hkind : a.kind = .read) : p.state = .reading := by
  rw [Port.state, ha]
  dsimp only
  rw [hkind]

theorem counting_of_read (ha : p.active = some a) (hkind : a.kind = .read) : p.counting = !p.slots.isEmpty := by
  rw [Port.counting, state_of_read ha hkind]

theorem counting_of_writing (h : p.state = .writing) : p.counting = true := by rw [Port.counting, h]

theorem counting_of_idle (h : p.state = .idle ∨ p.state = .writeHeld ∨ p.state = .flushing) : p.counting = false := by
  rcases h with h | h | h <;> rw [Port.counting, h]

/-- R126: the timer of a port that counts runs. -/
theorem TimerFits.running (h : TimerFits p) (hc : p.counting = true) : p.idleTimer.isSome = true := h.trans hc

theorem TimerFits.stopped (h : TimerFits p) (hc : p.counting = false) : p.idleTimer = none :=
  Option.not_isSome_iff_eq_none.mp (by rw [h.trans hc]; simp)

/-- R126: a port whose idle timer has restarted. -/
def Port.restarted (p : Port) : Port := { p with idleTimer := some p.idleTimeout }

theorem timerFits_restarted (h : p.counting = true) : TimerFits p.restarted := h.symm

theorem restartIdle_counting (h : (port s n).counting = true) :
    restartIdle n s = { s with ports := s.ports.modify n Port.restarted } :=
  modPort_of_fits (f := Port.restarted) (timerFits_restarted h)

/-- R126: where the timer does not count, there is none to restart. -/
theorem restartIdle_idle (hfits : TimerFits (port s n)) (h : (port s n).counting = false) : restartIdle n s = s := by
  have hsettled : (port s n).restarted.settleTimer = port s n := by
    have hc : (port s n).restarted.counting = false := h
    rw [Port.settleTimer, hc]
    simp only [Bool.false_eq_true, if_false, Port.restarted]
    rw [← hfits.stopped h]
  have hports := modify_eq_self (f := fun p => p.restarted.settleTimer) hsettled
  show ({ s with ports := s.ports.modify n fun p => p.restarted.settleTimer } : State) = s
  rw [hports]

/-! ## The fetch of one block -/

theorem freeFetch_eq_some (hfree : (s.cache.fetches[i]).busy = none) (hbelow : ∀ j : Fin 16, j < i →
    (s.cache.fetches[j]).busy ≠ none) :
    freeFetch s = some i := by
  rw [freeFetch, List.find?_eq_some_iff_getElem]
  refine ⟨by rw [hfree]; rfl, i.val, by simp, by simp, fun j hj => ?_⟩
  simpa [Option.isSome_iff_ne_none] using hbelow ⟨j, hj.trans i.isLt⟩ hj

/-- R81, R133, R135: one missing block of a unit has a FILLING page of its reservation, an entry and a FETCH call. -/
def fetchedOne (u : UnitId) (lba : Nat) (g : PageId) (i : Fin 16) (s : State) : State :=
  { s with
    pool := { s.pool with owners := s.pool.owners.set g.val (some (.mh u)) g.isLt }
    cache := { s.cache with
      directory := insertRecord (fillingRecord u lba g) s.cache.directory
      fetches := s.cache.fetches.set i.val
        { generation := (s.cache.fetches[i]).generation + 1
          busy := some { unit := u, first := lba, blocks := [.waiting], created := s.now } } i.isLt }
    link := { s.link with calls := s.link.calls ++ [.fetch i] } }

theorem port_fetchedOne : port (fetchedOne u lba g i s) n = port s n := rfl

theorem allocFetch_one (hi : freeFetch s = some i) :
    allocFetch u lba 1 (addRecord (fillingRecord u lba g) (s.modPool (Pool.setOwner g (some (.mh u))))) = fetchedOne u lba g i
        s :=
  allocFetch_some (s := addRecord (fillingRecord u lba g) (s.modPool (Pool.setOwner g (some (.mh u))))) hi

end

end Sys2Proof.Machine
end

section
/-!
TAKE and the delivery of its block (O42): the answers of R116, and the ways a READ goes on after a block.
-/

namespace Sys2Proof.Machine

section
variable {s t : State} {n : Node} {u : UnitId} {txn : Byte} {a : ActiveCommand} {p : Port} {x y : Slot} {rest : List Slot}
  {k : Taking} {g : PageId} {i : Fin 16} {st : Status}

/-! ## TAKE (R116, R126) -/

theorem exec_take (hrun : s.phase = .running) : exec (.take n txn) s = .next (takeBlock n txn s) :=
  congrArg Host.Outcome.next (whenRunning_running hrun _)

theorem takeBlock_reading (hread : (port (restartIdle n (beginTransaction n s)) n).state = .reading)
    (hslots : (port (restartIdle n (beginTransaction n s)) n).slots = x :: rest) :
    takeBlock n txn s = respond n commandBytes txn .good (dataWithCrc x.data)
      ((restartIdle n (beginTransaction n s)).modPort n fun p => { p with taking := some { lba := x.lba, live := true } }) := by
  unfold takeBlock
  dsimp only
  rw [hread, hslots]

theorem takeBlock_notReady (hread : (port (restartIdle n (beginTransaction n s)) n).state = .reading)
    (hslots : (port (restartIdle n (beginTransaction n s)) n).slots = []) :
    takeBlock n txn s = answerWith n txn (fun t => (.notReady, restartIdle n t)) s := by
  unfold takeBlock
  dsimp only
  rw [hread, hslots]
  rfl

theorem takeBlock_noCommand (h : (port (restartIdle n (beginTransaction n s)) n).state ≠ .reading) :
    takeBlock n txn s = answerWith n txn (fun t => (.noCommand, restartIdle n t)) s := by
  unfold takeBlock
  dsimp only
  split
  · rename_i hread _
    exact absurd hread h
  · rename_i hread _
    exact absurd hread h
  all_goals rfl

/-- R126: a restart of the timer leaves the command and what is staged. -/
theorem port_restartIdle : (port (restartIdle n s) n).state = (port s n).state
    ∧ (port (restartIdle n s) n).slots = (port s n).slots := by
  have hport : port (restartIdle n s) n = (port s n).restarted.settleTimer := port_modPort_same _
  rw [hport]
  exact ⟨rfl, rfl⟩

theorem port_taken (hfits : TimerFits (port s n)) : (port (restartIdle n (beginTransaction n s)) n).state = (port s n).state
    ∧ (port (restartIdle n (beginTransaction n s)) n).slots = (port s n).slots := by
  obtain ⟨hstate, hslots⟩ := port_restartIdle (s := beginTransaction n s) (n := n)
  rw [hstate, hslots, port_beginTransaction hfits]
  exact ⟨rfl, rfl⟩

/-- R110, R116: a TAKE of a port whose timer does not count is answered, and nothing else changes. -/
theorem answerWith_restartIdle_idle (hfits : TimerFits (port s n)) (hc : (port s n).counting = false) :
    answerWith n txn (fun t => (st, restartIdle n t)) s = portAnswered n txn st [] s := by
  have hport := port_beginTransaction hfits
  refine answerWith_eq hfits (congrArg (Prod.mk st) (restartIdle_idle ?_ ?_))
  · rw [hport]
    exact hfits
  · rw [hport]
    exact hc

/-- R110, R126: a transaction that restarts the timer. -/
theorem restartIdle_beginTransaction (hfits : TimerFits (port s n)) (hc : (port s n).counting = true) :
    restartIdle n (beginTransaction n s) = beginTransaction n { s with ports := s.ports.modify n Port.restarted } := by
  have hport : port { s with ports := s.ports.modify n Port.restarted } n = (port s n).restarted := Per4.get_modify_same _ _ _
  rw [restartIdle_counting (by rw [port_beginTransaction hfits]; exact hc), beginTransaction_of_fits hfits,
    beginTransaction_of_fits (by rw [hport]; exact timerFits_restarted hc)]
  simp only [Per4.modify_modify]
  rfl

theorem respond_of_fits {taken : Nat} {after : List Byte} (hfits : TimerFits (port s n)) : respond n taken txn st after s
    = { s with
    ports := s.ports.modify n fun p => { p with response := fillerFor taken ++ statusBlock p txn st ++ after } } :=
  modPort_of_fits (f := fun p => { p with response := fillerFor taken ++ statusBlock p txn st ++ after }) hfits

/-- R110, R116: a port whose staged block is clocked out. -/
def Port.clockingOut (txn : Byte) (x : Slot) (p : Port) : Port :=
  { p.begun.restarted with
    taking := some { lba := x.lba, live := true }
    response := List.replicate 8 0xFF#8 ++ statusBlock p txn .good ++ dataWithCrc x.data }

/-- R116, R126: a TAKE of a staged block. -/
theorem takeBlock_staged (hfits : TimerFits (port s n)) (ha : (port s n).active = some a) (hkind : a.kind = .read) (hslots :
    (port s n).slots = x :: rest) :
    takeBlock n txn s = { s with ports := s.ports.modify n (Port.clockingOut txn x) } := by
  have hc : (port s n).counting = true := by
    rw [counting_of_read ha hkind, hslots]
    rfl
  obtain ⟨hstate, hblocks⟩ := port_taken hfits
  have hrestarted : port { s with ports := s.ports.modify n Port.restarted } n = (port s n).restarted :=
      Per4.get_modify_same _ _ _
  have hstart : restartIdle n (beginTransaction n s) = { s with ports := s.ports.modify n fun p => p.restarted.begun } := by
    rw [restartIdle_beginTransaction hfits hc, beginTransaction_of_fits (by rw [hrestarted]; exact timerFits_restarted hc)]
    simp only [Per4.modify_modify]
  have hbegun : port { s with ports := s.ports.modify n fun p => p.restarted.begun } n = (port s n).restarted.begun :=
    Per4.get_modify_same _ _ _
  have htaking : ({ s with ports := s.ports.modify n fun p => p.restarted.begun } : State).modPort n
        (fun p => { p with taking := some { lba := x.lba, live := true } })
      = { s with ports := s.ports.modify n fun p => { p.restarted.begun with taking := some { lba := x.lba, live := true } } } :=
          by
    rw [modPort_of_fits (by rw [hbegun]; exact timerFits_restarted hc)]
    simp only [Per4.modify_modify]
  rw [takeBlock_reading (hstate.trans (state_of_read ha hkind)) (hblocks.trans hslots), hstart, htaking, respond_of_fits]
  · simp only [Per4.modify_modify]
    rfl
  · rw [port, Per4.get_modify_same]
    exact timerFits_restarted hc

/-! ## The end of a TAKE's block (R112, R116) -/

theorem exec_blockDelivered (hrun : s.phase = .running) : exec (.blockDelivered n) s = .next (blockEnds n s) :=
  congrArg Host.Outcome.next (whenRunning_running hrun _)

theorem blockEnds_untaken (h : (port s n).taking = none) : blockEnds n s = s := by rw [blockEnds, h]

/-- R116: the block of a live TAKE of a READ is delivered. -/
theorem blockEnds_delivers (htaking : (port s n).taking = some k) (hlive : k.live = true) (ha : (port s n).active = some a)
    (hkind : a.kind = .read) (hslots : (port s n).slots = x :: rest) : blockEnds n s = deliver n a (endTaking n s) := by
  rw [blockEnds, htaking, ha]
  dsimp only
  rw [hlive, state_of_read ha hkind, hslots]
  rfl

/-- R116: a port whose oldest staged block has been delivered. -/
def Port.delivered (a : ActiveCommand) (p : Port) : Port := { p with slots := p.slots.drop 1, active := some a.further }

/-- R116: the slot is empty and the done count raised. -/
def blockGone (n : Node) (a : ActiveCommand) (s : State) : State := s.modPort n (Port.delivered a)

theorem port_blockGone : port (blockGone n a s) n = ((port s n).delivered a).settleTimer := port_modPort_same _

theorem readAhead_windowless (h : ∀ u : UnitId, (s.units.get u).window = 0) : readAhead n a s = s := by
  unfold readAhead
  split
  · rfl
  · exact if_neg fun hw => hw.1 (h _)

/-- R141: the state after the delivered block, with its read-ahead. -/
def deliveredAhead (n : Node) (a : ActiveCommand) (s : State) : State :=
  if a.done + 1 = midpoint a then readAhead n a (blockGone n a s) else blockGone n a s

/-- R116, R117: the READ ends with its last block, or goes on staging. -/
theorem deliver_eq : deliver n a s = if a.done + 1 = a.effective then endCommand n (finalStatus a.further) (deliveredAhead n a s)
    else stage n stageFuel (deliveredAhead n a s) := rfl

theorem deliveredAhead_eq (h : a.done + 1 ≠ midpoint a ∨ ∀ u : UnitId, (s.units.get u).window = 0) :
    deliveredAhead n a s = blockGone n a s := by
  unfold deliveredAhead
  split
  · rename_i hmid
    exact readAhead_windowless (h.resolve_left (not_not.mpr hmid))
  · rfl

/-- R112, R117: the last delivery of a READ ends it. -/
theorem deliver_last (h : a.done + 1 ≠ midpoint a ∨ ∀ u : UnitId, (s.units.get u).window = 0)
    (hlast : a.done + 1 = a.effective) : deliver n a s = commandEnded n a.further (finalStatus a.further) s := by
  rw [deliver_eq, deliveredAhead_eq h, if_pos hlast, endCommand_of_active (a := a.further) (by rw [port_blockGone]; rfl)]
  simp only [commandEnded, blockGone, State.modPort, Per4.modify_modify]
  rfl

/-- R115: a port that waits, or whose blocks are all staged, asks for none. -/
theorem stage_rests {j : Nat} (ha : (port s n).active = some a)
    (h : (port s n).wait ≠ .none ∨ a.first + a.effective ≤ nextBlock a (port s n)) : stage n j s = s := by
  cases j with
  | zero => rfl
  | succ j =>
    rw [stage, ha]
    refine if_neg fun hmore => ?_
    obtain ⟨-, -, hwait, hnext⟩ := hmore
    exact h.elim (fun h => h hwait) fun h => absurd hnext (Nat.not_lt.mpr h)

/-- R116: a delivery after which the READ asks for no block. -/
theorem deliver_rests (h : a.done + 1 ≠ midpoint a ∨ ∀ u : UnitId, (s.units.get u).window = 0)
    (hmore : a.done + 1 < a.effective)
    (hrests : (port s n).wait ≠ .none ∨ a.first + a.effective ≤ nextBlock a.further ((port s n).delivered a)) :
    deliver n a s = blockGone n a s := by
  rw [deliver_eq, deliveredAhead_eq h, if_neg hmore.ne]
  refine stage_rests (a := a.further) ?_ ?_
  · rw [port_blockGone]
    rfl
  · rw [port_blockGone]
    exact hrests

/-! ## Read-ahead of one block (R141, R142) -/

/-- R142: read-ahead of one missing block, the last of its range, with a page of the reservation. -/
theorem readAheadFrom_one {w lba : Nat} (hw : w ≠ 0) (hmiss : findBlock s u lba = none) (hfree : 5 ≤ freeFetches s)
    (hheld : s.pool.held (.mh u) < (s.pool.caches.get u).reservation) (hpage : s.pool.lowestFree = some g)
    (hi : freeFetch s = some i) : readAheadFrom u (lba + 1) (w + 1) lba 0 s = fetchedOne u lba g i s := by
  obtain ⟨w, rfl⟩ := Nat.exists_eq_succ_of_ne_zero hw
  rw [readAheadFrom, if_neg (by omega), hmiss]
  simp only [Option.isSome_none, Bool.false_eq_true, if_false]
  rw [if_neg (by omega), allocate_belowReservation (h := .mh u) hheld hpage]
  dsimp only
  rw [if_neg (by decide), readAheadFrom, if_pos le_rfl, flushRun, if_neg (by decide)]
  exact allocFetch_one hi

/-- R141: the midpoint delivery of a READ that follows on fetches the one block up to the capacity. -/
theorem readAhead_one (hu : unitOf s n = some u) (hwindow : (s.units.get u).window ≠ 0)
    (hseq : (port s n).sequential = some a.first) (hend : (s.units.get u).capacity = a.first + a.effective + 1)
    (hmiss : findBlock s u (a.first + a.effective) = none) (hfree : 5 ≤ freeFetches s)
    (hheld : s.pool.held (.mh u) < (s.pool.caches.get u).reservation) (hpage : s.pool.lowestFree = some g)
    (hi : freeFetch s = some i) : readAhead n a s = fetchedOne u (a.first + a.effective) g i s := by
  have hstop : min (a.first + a.effective + (s.units.get u).window) (s.units.get u).capacity = a.first + a.effective + 1 := by
    omega
  rw [readAhead, hu]
  dsimp only
  rw [if_pos ⟨hwindow, hseq, by omega⟩, hstop]
  exact readAheadFrom_one hwindow hmiss hfree hheld hpage hi

theorem deliver_midpoint (hlast : a.done + 1 = a.effective) (hmid : a.done + 1 = midpoint a)
    (hahead : readAhead n a (blockGone n a s) = t) : deliver n a s = endCommand n (finalStatus a.further) t := by
  rw [deliver_eq, if_pos hlast, deliveredAhead, if_pos hmid, hahead]

end

end Sys2Proof.Machine

open Sys2Proof Sys2Proof.Machine

/-- Settles O42: a TAKE by the port's state and what is staged; a delivery by the blocks that are left, where the end of
the TAKE and the delivered block change the port alone. -/
theorem takeDeliversStagedBlock : Obligations.TakeDeliversStagedBlock := by
  intro n txn p s hrun htimer hp
  subst hp
  have hfits := htimer.fits n
  have hended : endTaking n s = { s with ports := s.ports.modify n fun p => { p with taking := none } } := endTaking_of_fits hfits
  have hport := port_endTaking hfits
  have hgone : ∀ {a : ActiveCommand} {x : Slot} {rest : List Slot} {q : Port}, (port s n).slots = x :: rest →
      q = { port s n with taking := none, active := some a.further, slots := rest } →
      blockGone n a (endTaking n s) = { s with ports := s.ports.set n q.settleTimer } := fun hslots hq => by
    have hrest := congrArg (List.drop 1) hslots
    rw [List.drop_succ_cons, List.drop_zero] at hrest
    subst hq hrest
    rw [blockGone, State.modPort, hended]
    simp only [Per4.modify_modify]
    rfl
  rw [exec_take hrun, exec_blockDelivered hrun]
  refine ⟨fun a x rest ha hkind hslots => ?_, fun a ha hkind hslots => ?_, fun hstate => ?_, fun hstate => ?_,
    fun a x k ha hkind hslots htaking hlive hlast hmid => ?_, fun a x y k ha hkind hslots htaking hlive hlast hmid => ?_,
    fun a x k ha hkind hslots hwait htaking hlive hmore hmid => ?_,
    fun u a x k i g hunits hnode ha hkind hslots htaking hlive hdone hone hseq hwindow hend hmiss hfree hi hbelow hg hlow hheld =>
        ?_,
    fun htaking => ?_⟩ <;> refine congrArg _ ?_
  · exact takeBlock_staged hfits ha hkind hslots
  · have hc : (port s n).counting = false := by
      rw [counting_of_read ha hkind, hslots]
      rfl
    obtain ⟨hstate, hblocks⟩ := port_taken hfits
    rw [takeBlock_notReady (hstate.trans (state_of_read ha hkind)) (hblocks.trans hslots), answerWith_restartIdle_idle hfits hc]
  · have hnot : (port s n).state ≠ .reading := by rcases hstate with h | h | h <;> rw [h] <;> decide
    rw [takeBlock_noCommand (by rw [(port_taken hfits).1]; exact hnot),
      answerWith_restartIdle_idle hfits (counting_of_idle hstate)]
  · have hc := counting_of_writing hstate
    rw [takeBlock_noCommand (by rw [(port_taken hfits).1, hstate]; decide)]
    refine (answerWith_eq (f := fun t => (.noCommand, restartIdle n t)) ?_
      (congrArg (Prod.mk _) (restartIdle_beginTransaction hfits hc))).trans ?_
    · rw [port, Per4.get_modify_same]
      exact timerFits_restarted hc
    · simp only [portAnswered, Per4.modify_modify, List.append_nil]
      rfl
  · rw [blockEnds_delivers htaking hlive ha hkind hslots, deliver_last (s := endTaking n s) hmid hlast, hended]
    simp only [commandEnded, Per4.modify_modify]
    rfl
  · have hnext : a.first + a.effective ≤ nextBlock a.further ((port (endTaking n s) n).delivered a) := by
      simp only [nextBlock, ActiveCommand.further, Port.delivered, hport, hslots, List.drop_succ_cons, List.drop_zero,
        List.length_singleton]
      omega
    rw [blockEnds_delivers htaking hlive ha hkind hslots, deliver_rests (s := endTaking n s) hmid (by omega) (.inr hnext), hgone
        hslots rfl,
      settleTimer_of_fits]
    · rfl
    · have hc : (port s n).counting = true := by
        rw [counting_of_read ha hkind, hslots]
        rfl
      refine (hfits.running hc).trans ?_
      rw [counting_of_read (a := a.further) rfl hkind]
      rfl
  · have hwaits : (port (endTaking n s) n).wait ≠ .none := by
      simp [hport, hwait]
    rw [blockEnds_delivers htaking hlive ha hkind hslots, deliver_rests (s := endTaking n s) hmid hmore (.inl hwaits), hgone
        hslots rfl,
      Port.settleTimer, counting_of_read (a := a.further) rfl hkind]
    rfl
  · have hmidpoint : a.done + 1 = Machine.midpoint a := by rw [Machine.midpoint, hdone, hone]
    have hseq' : (port (blockGone n a (endTaking n s)) n).sequential = some a.first := by
      rw [port_blockGone, hport]
      exact hseq
    have hmiss' : findBlock (blockGone n a (endTaking n s)) u (a.first + a.effective) = none := by
      rw [hone]
      exact hmiss
    have hahead := readAhead_one (s := blockGone n a (endTaking n s)) (unitOf_eq_some hunits hnode) hwindow hseq'
      (by rw [hone]; exact hend) hmiss' hfree hheld (lowestFree_eq hg hlow) (freeFetch_eq_some hi hbelow)
    have hactive : (port (fetchedOne u (a.first + a.effective) g i (blockGone n a (endTaking n s))) n).active = some a.further :=
        by
      rw [port_fetchedOne, port_blockGone]
      rfl
    have hfurther : a.further = { a with done := 1 } := by rw [ActiveCommand.further, hdone]
    rw [blockEnds_delivers htaking hlive ha hkind hslots, deliver_midpoint (by omega) hmidpoint hahead,
      endCommand_of_active hactive, hfurther, hone, blockGone, State.modPort, hended]
    simp only [commandEnded, fetchedOne, Per4.modify_modify]
    rfl
  · exact blockEnds_untaken htaking
end

section
/-!
READ as it opens and stages its first block (O40).
-/

namespace Sys2Proof.Machine

section
variable {s t : State} {n : Node} {u : UnitId} {a : ActiveCommand} {r : DirRecord} {g : PageId} {i : Fin 16} {lba count j last :
    Nat}

/-! ## The opening of a READ (R113, R114) -/

theorem takeRead_opens (hidle : (port s n).active = none) (hattention : (port s n).attention = false) (hu : unitOf s n = some u) :
    takeRead n lba count s = if (s.units.get u).capacity ≤ lba
      then openAndEnd n (rangeCommand .read lba count (s.units.get u).capacity) .endOfMedium s
      else (.good, stage n stageFuel (openCommand n (rangeCommand .read lba count (s.units.get u).capacity) s)) := by
  simp only [takeRead, hidle, hattention, hu, Option.isSome_none, Bool.false_eq_true, if_false]

/-- R114: the state in which a READ has opened, with nothing staged. -/
def readOpened (n : Node) (a : ActiveCommand) (w : Wait) (s : State) : State :=
  { s with ports := s.ports.modify n fun p => { p with active := some a, slots := [], wait := w, idleTimer := none } }

theorem port_readOpened {w : Wait} :
    port (readOpened n a w s) n = { port s n with active := some a, slots := [], wait := w, idleTimer := none } :=
  Per4.get_modify_same _ _ _

theorem timerFits_readOpened {w : Wait} (hkind : a.kind = .read) : TimerFits (port (readOpened n a w s) n) := by
  rw [port_readOpened, TimerFits, counting_of_read (a := a) rfl hkind]
  rfl

theorem openCommand_read (hkind : a.kind = .read) : openCommand n a s = readOpened n a .none s := by
  refine modPort_of_fits (f := fun p => { p with active := some a, slots := [], wait := .none, idleTimer := none }) ?_
  rw [TimerFits, counting_of_read (a := a) rfl hkind]
  rfl

theorem readOpened_beginTransaction {w : Wait} (hkind : a.kind = .read) (hfits : TimerFits (port s n)) :
    readOpened n a w (beginTransaction n s) = beginTransaction n (readOpened n a w s) := by
  rw [beginTransaction_of_fits hfits, beginTransaction_of_fits (timerFits_readOpened hkind)]
  simp only [readOpened, Per4.modify_modify]
  rfl

/-- R115: a READ that has just opened comes to wait. -/
theorem modPort_readOpened (hkind : a.kind = .read) (w : Wait) :
    ((readOpened n a .none s).modPort n fun q => { q with wait := w }) = readOpened n a w s := by
  rw [modPort_of_fits]
  · simp only [readOpened, Per4.modify_modify]
  · rw [port_readOpened, TimerFits, counting_of_read (a := a) rfl hkind]
    rfl

/-! ## Staging (R115, R132 to R134) -/

/-- R115: a READ of a served node asks for its next block. -/
structure AsksFor (n : Node) (a : ActiveCommand) (u : UnitId) (s : State) : Prop where
  active : (port s n).active = some a
  kind : a.kind = .read
  room : (port s n).slots.length < 2
  wait : (port s n).wait = .none
  more : nextBlock a (port s n) < a.first + a.effective
  unit : unitOf s n = some u

/-- R115, R132 to R134: what the look-up of the next block leads to. -/
def stageNext (n : Node) (a : ActiveCommand) (u : UnitId) (j : Nat) (s : State) : State :=
  match findBlock s u (nextBlock a (port s n)) with
  | some r => if r.state = .filling then s.modPort n fun q => { q with wait := .page } else stage n j (copyToSlot n r s)
  | none =>
    if (freeFetch s).isSome then demandFetch n u (nextBlock a (port s n)) (a.first + a.effective - 1) s
    else (s.modCache fun c => { c with entryWait := c.entryWait ++ [n] }).modPort n fun q => { q with wait := .entry }

theorem stage_asks (h : AsksFor n a u s) : stage n (j + 1) s = stageNext n a u j s := by
  rw [stage, h.active]
  dsimp only
  rw [if_pos ⟨h.kind, h.room, h.wait, h.more⟩, h.unit]
  rfl

theorem stage_filling (h : AsksFor n a u s) (hfind : findBlock s u (nextBlock a (port s n)) = some r) (hr : r.state = .filling) :
    stage n (j + 1) s = s.modPort n fun q => { q with wait := .page } := by
  rw [stage_asks h, stageNext, hfind]
  exact if_pos hr

theorem stage_copies (h : AsksFor n a u s) (hfind : findBlock s u (nextBlock a (port s n)) = some r) (hr : r.state ≠ .filling) :
    stage n (j + 1) s = stage n j (copyToSlot n r s) := by
  rw [stage_asks h, stageNext, hfind]
  exact if_neg hr

theorem stage_demands (h : AsksFor n a u s) (hmiss : findBlock s u (nextBlock a (port s n)) = none) (hfree : (freeFetch s).isSome)
    :
    stage n (j + 1) s = demandFetch n u (nextBlock a (port s n)) (a.first + a.effective - 1) s := by
  rw [stage_asks h, stageNext, hmiss]
  exact if_pos hfree

theorem stage_joins (h : AsksFor n a u s) (hmiss : findBlock s u (nextBlock a (port s n)) = none) (hnone : freeFetch s = none) :
    stage n (j + 1) s = (s.modCache fun c => { c with entryWait := c.entryWait ++ [n] }).modPort n fun q => { q with wait :=
        .entry } := by
  rw [stage_asks h, stageNext, hmiss, hnone]
  rfl

theorem nextBlock_readOpened (hdone : a.done = 0) {w : Wait} : nextBlock a (port (readOpened n a w s) n) = a.first := by
  rw [port_readOpened, nextBlock, hdone]
  rfl

theorem asksFor_readOpened (hkind : a.kind = .read) (hdone : a.done = 0) (hsome : 0 < a.effective) (hu : unitOf s n = some u) :
    AsksFor n a u (readOpened n a .none s) := by
  refine ⟨?_, hkind, ?_, ?_, ?_, hu⟩
  · rw [port_readOpened]
  · simp [port_readOpened]
  · rw [port_readOpened]
  · rw [nextBlock_readOpened hdone]
    omega

/-- R126, R132: a READ of one block whose page was CLEAN has its bytes in a slot. -/
def readStaged (n : Node) (a : ActiveCommand) (r : DirRecord) (s : State) : State :=
  { s with
    ports := s.ports.modify n fun p => { p with
      active := some a, wait := .none, idleTimer := some p.idleTimeout,
      slots := [{ lba := r.lba, data := pageBytes s r.page }] }
    cache := { s.cache with directory := s.cache.directory.map fun x => if x.page = r.page then { x with age := 0 } else x } }

theorem port_readStaged : port (readStaged n a r s) n = { port s n with
    active := some a, wait := .none, idleTimer := some (port s n).idleTimeout,
    slots := [{ lba := r.lba, data := pageBytes s r.page }] } := Per4.get_modify_same _ _ _

theorem timerFits_readStaged (hkind : a.kind = .read) : TimerFits (port (readStaged n a r s) n) := by
  rw [port_readStaged, TimerFits, counting_of_read (a := a) rfl hkind]
  rfl

theorem copyToSlot_readOpened (hkind : a.kind = .read) : copyToSlot n r (readOpened n a .none s) = readStaged n a r s := by
  have hport : ∀ p : Port, ({ p with
        active := some a, slots := [{ lba := r.lba, data := pageBytes s r.page }], wait := .none, idleTimer := none } :
            Port).settleTimer
      = { p with
        active := some a, wait := .none, idleTimer := some p.idleTimeout,
        slots := [{ lba := r.lba, data := pageBytes s r.page }] } := fun p => by
    rw [Port.settleTimer, counting_of_read (a := a) rfl hkind]
    rfl
  simp only [readStaged, ← hport]
  simp only [copyToSlot, modRecord, State.modPort, readOpened, Per4.modify_modify]
  rfl

theorem readStaged_beginTransaction (hkind : a.kind = .read) (hfits : TimerFits (port s n)) :
    readStaged n a r (beginTransaction n s) = beginTransaction n (readStaged n a r s) := by
  rw [beginTransaction_of_fits hfits, beginTransaction_of_fits (timerFits_readStaged hkind)]
  simp only [readStaged, Per4.modify_modify]
  rfl

/-! ## A demand fetch (R133) -/

theorem findBlock_addRecord_isSome (h : (findBlock s u lba).isSome) : (findBlock (addRecord r s) u lba).isSome := by
  obtain ⟨x, hx, hkey⟩ := List.find?_isSome.mp h
  exact List.find?_isSome.mpr ⟨x, (insertRecord_perm r s.cache.directory).mem_iff.mpr (List.mem_cons_of_mem _ hx), hkey⟩

/-- R133: one page is obtained where the range or the misses end with it. -/
theorem collectPages_one {k : Nat} (hle : lba ≤ last) (hmiss : findBlock s u lba = none)
    (hstop : last < lba + 1 ∨ (findBlock s u (lba + 1)).isSome)
    (hheld : s.pool.held (.mh u) < (s.pool.caches.get u).reservation) (hpage : s.pool.lowestFree = some g) :
    collectPages u last (k + 2) lba s = (1, addRecord (fillingRecord u lba g) (s.modPool (Pool.setOwner g (some (.mh u))))) := by
  have hstop' : last < lba + 1
      ∨ (findBlock (addRecord (fillingRecord u lba g) (s.modPool (Pool.setOwner g (some (.mh u))))) u (lba + 1)).isSome :=
    hstop.imp_right fun h => findBlock_addRecord_isSome (s := s.modPool (Pool.setOwner g (some (.mh u)))) h
  have hmiss' : ¬ (last < lba ∨ (findBlock s u lba).isSome) := by simp [hmiss, hle]
  rw [collectPages, if_neg hmiss', allocate_belowReservation (h := .mh u) hheld hpage]
  dsimp only
  rw [collectPages, if_pos hstop']

/-- R86, R133: without a page there is nothing to fetch. -/
theorem collectPages_none {k : Nat} (hle : lba ≤ last) (hmiss : findBlock s u lba = none)
    (hnone : allocate (.mh u) .demand s = (none, t)) : collectPages u last (k + 1) lba s = (0, t) := by
  have hmiss' : ¬ (last < lba ∨ (findBlock s u lba).isSome) := by simp [hmiss, hle]
  rw [collectPages, if_neg hmiss', hnone]

theorem demandFetch_one (hle : lba ≤ last) (hmiss : findBlock s u lba = none)
    (hstop : last < lba + 1 ∨ (findBlock s u (lba + 1)).isSome)
    (hheld : s.pool.held (.mh u) < (s.pool.caches.get u).reservation) (hpage : s.pool.lowestFree = some g)
    (hi : freeFetch s = some i) :
    demandFetch n u lba last s = (fetchedOne u lba g i s).modPort n fun p => { p with wait := .page } := by
  rw [demandFetch, collectPages_one hle hmiss hstop hheld hpage]
  dsimp only
  rw [if_neg Nat.one_ne_zero, allocFetch_one hi]

theorem demandFetch_none (hle : lba ≤ last) (hmiss : findBlock s u lba = none)
    (hnone : allocate (.mh u) .demand s = (none, t)) : demandFetch n u lba last s = endCommand n .busy t := by
  rw [demandFetch, collectPages_none hle hmiss hnone]
  exact if_pos rfl

/-- R80: the ports have no part in the choice of a page. -/
theorem allocate_ports (h : Holder) (why : Purpose) (x : Per4 Port) :
    (allocate h why { s with ports := x }).1 = (allocate h why s).1 := by
  have hceiling : ceiling { s with ports := x } h = ceiling s h := rfl
  have hsource : reclaimSource { s with ports := x } h = reclaimSource s h := rfl
  have hevict : evictable { s with ports := x } h = evictable s h := by cases h <;> rfl
  unfold allocate allocateOwn grantFree
  rw [hceiling, hsource, hevict]
  dsimp only
  cases s.pool.lowestFree <;> cases reclaimSource s h <;> cases why.recycles <;> cases evictable s h <;> split_ifs <;> rfl

theorem allocate_eq_none {h : Holder} {why : Purpose} (hnone : (allocate h why s).1 = none) :
    allocate h why s = (none, allocationFails h s) := by
  rcases allocate_cases h why s with ⟨p, -, -, he⟩ | ⟨g, p, -, -, he⟩ | ⟨p, -, -, -, he⟩ | he
  · rw [he] at hnone
    cases hnone
  · rw [he] at hnone
    cases hnone
  · rw [he] at hnone
    cases hnone
  · exact he

end

end Sys2Proof.Machine

open Sys2Proof Sys2Proof.Machine

/-- Settles O40: the READ opens, and what it stages first is decided by the look-up of its first block. -/
theorem readOpensAndStages : Obligations.ReadOpensAndStages := by
  intro n u lba count txn a r s hrun htimer hunits hone hmost hidle hattention hnode ha
  have hfits := htimer.fits n
  have ha : a = rangeCommand .read lba.toNat count.toNat (s.units.get u).capacity := ha
  have hkind : a.kind = .read := by rw [ha]; rfl
  have hfirst : a.first = lba.toNat := by rw [ha]; rfl
  have hdone : a.done = 0 := by rw [ha]; rfl
  have hport := port_beginTransaction hfits
  have hu : unitOf s n = some u := unitOf_eq_some hunits hnode
  have hopens := takeRead_opens (s := beginTransaction n s) (lba := lba.toNat) (count := count.toNat)
    (by rw [hport]; exact hidle) (by rw [hport]; exact hattention) hu
  rw [show rangeCommand .read lba.toNat count.toNat ((beginTransaction n s).units.get u).capacity = a from ha.symm,
    openCommand_read hkind, units_beginTransaction] at hopens
  rw [exec_read hrun hone hmost]
  have hend : (s.units.get u).capacity ≤ lba.toNat →
      answerWith n txn (takeRead n lba.toNat count.toNat) s = portAnswered n txn .endOfMedium []
          (commandEnded n a .endOfMedium s) :=
    fun hbeyond => answerWith_eq timerFits_commandEnded <| by
      rw [hopens, if_pos hbeyond, openAndEnd_eq, commandEnded_beginTransaction hfits]
  have hstages : ∀ {t : State}, lba.toNat < (s.units.get u).capacity → TimerFits (port t n) →
      stage n stageFuel (readOpened n a .none (beginTransaction n s)) = beginTransaction n t →
      answerWith n txn (takeRead n lba.toNat count.toNat) s = portAnswered n txn .good [] t := fun hin ht h =>
    answerWith_eq ht <| by rw [hopens, if_neg (Nat.not_le.mpr hin), h]
  have hmore : lba.toNat < (s.units.get u).capacity → 0 < a.effective := fun hin => by
    rw [ha, rangeCommand]
    dsimp only
    omega
  have hlast : lba.toNat < (s.units.get u).capacity → lba.toNat ≤ a.first + a.effective - 1 := fun hin => by
    have := hmore hin
    omega
  have hasks : lba.toNat < (s.units.get u).capacity → AsksFor n a u (readOpened n a .none (beginTransaction n s)) := fun hin =>
    asksFor_readOpened hkind hdone (hmore hin) hu
  have hnext : nextBlock a (port (readOpened n a .none (beginTransaction n s)) n) = lba.toNat :=
    (nextBlock_readOpened hdone).trans hfirst
  refine ⟨fun hbeyond => congrArg _ (hend hbeyond), fun hin hfind hr => ?_, fun hin hone hfind hr => ?_,
    fun i g hin hmiss hstop hi hbelow hg hlow hheld => ?_, fun hin hmiss hfree hnone => ?_, fun hin hmiss hfull => ?_⟩ <;>
    refine congrArg _ ?_
  · refine hstages hin (timerFits_readOpened (w := .page) hkind) ?_
    rw [stageFuel, stage_filling (hasks hin) (by rw [hnext]; exact hfind) hr, modPort_readOpened hkind]
    exact readOpened_beginTransaction hkind hfits
  · refine hstages hin (timerFits_readStaged (r := r) hkind) ?_
    rw [stageFuel, stage_copies (hasks hin) (by rw [hnext]; exact hfind) (by rw [hr]; decide), copyToSlot_readOpened hkind,
      stage_rests (a := a)]
    · exact readStaged_beginTransaction hkind hfits
    · rw [port_readStaged]
    · refine .inr ?_
      rw [port_readStaged, nextBlock, hdone, hone]
      rfl
  · refine hstages hin (timerFits_readOpened (w := .page) hkind) ?_
    rw [stageFuel, stage_demands (hasks hin) (by rw [hnext]; exact hmiss) (Option.isSome_of_mem (freeFetch_eq_some hi hbelow)),
        hnext,
      demandFetch_one (s := readOpened n a .none (beginTransaction n s)) (g := g) (i := i) (hlast hin) hmiss
          (hstop.imp_left fun h => by omega) hheld (lowestFree_eq hg hlow)
        (freeFetch_eq_some hi hbelow)]
    refine (congrArg (fetchedOne u lba.toNat g i) (modPort_readOpened hkind .page)).trans ?_
    rw [readOpened_beginTransaction hkind hfits]
    rfl
  · have hports : readOpened n a .none (beginTransaction n s)
        = { s with ports := (readOpened n a .none (beginTransaction n s)).ports } := rfl
    have hfails : allocate (.mh u) .demand (readOpened n a .none (beginTransaction n s))
        = (none, allocationFails (.mh u) (readOpened n a .none (beginTransaction n s))) := allocate_eq_none <| by
      rw [hports, allocate_ports]
      exact hnone
    have hentry : (freeFetch s).isSome := by
      obtain ⟨i, hi⟩ := hfree
      exact List.find?_isSome.mpr ⟨i, List.mem_finRange i, by rw [hi]; rfl⟩
    have hactive : (port (allocationFails (.mh u) (readOpened n a .none (beginTransaction n s))) n).active = some a :=
      congrArg Port.active port_readOpened
    refine hstages hin timerFits_commandEnded ?_
    rw [stageFuel, stage_demands (hasks hin) (by rw [hnext]; exact hmiss) hentry, hnext,
      demandFetch_none (s := readOpened n a .none (beginTransaction n s)) (hlast hin) hmiss hfails, endCommand_of_active hactive,
      beginTransaction_of_fits hfits, beginTransaction_of_fits timerFits_commandEnded]
    simp only [commandEnded, allocationFails, State.modPool, readOpened, Per4.modify_modify]
    rfl
  · have hnone : freeFetch s = none :=
      List.find?_eq_none.mpr fun i _ => by simpa [Option.isSome_iff_ne_none] using hfull i
    refine hstages hin (timerFits_readOpened (w := .entry) hkind) ?_
    rw [stageFuel, stage_joins (hasks hin) (by rw [hnext]; exact hmiss) hnone]
    refine (congrArg (fun t : State => t.modCache fun c => { c with entryWait := c.entryWait ++ [n] })
      (modPort_readOpened hkind .entry)).trans ?_
    rw [readOpened_beginTransaction hkind hfits]
    rfl
end

section
/-!
SUPPORT. The transactions and events of a port that neither stage nor deliver a block (R110, R122 to R126), each as the
state it leads to.
-/

namespace Sys2Proof.Machine

section
variable {s : State} {n : Node} {u : UnitId} {txn : Byte} {a : ActiveCommand} {st : Status} {block : List Byte}
    {f g : Port → Port}

/-- A change of one port by what it does to that port. -/
theorem modify_congr (h : f (port s n) = g (port s n)) : s.ports.modify n f = s.ports.modify n g :=
  congrArg (s.ports.set n) h

/-- R110: a change of the port commutes with the beginning of the transaction where it keeps the port's law and reads
nothing that the beginning changes. -/
theorem modPort_beginTransaction (hfits : TimerFits (port s n)) (hcomm : ∀ p, f p.begun = (f p).begun)
    (hf : TimerFits (f (port s n))) :
    (beginTransaction n s).modPort n f = beginTransaction n { s with ports := s.ports.modify n f } := by
  have hport : port { s with ports := s.ports.modify n f } n = f (port s n) := Per4.get_modify_same _ _ _
  have hbegun : TimerFits (f (port (beginTransaction n s) n)) := by
    rw [port_beginTransaction hfits, hcomm]
    exact hf
  rw [modPort_of_fits hbegun, beginTransaction_of_fits hfits, beginTransaction_of_fits (by rw [hport]; exact hf)]
  simp only [Per4.modify_modify, hcomm]

/-- R112: a command ends within a transaction. -/
theorem endCommand_beginTransaction (hfits : TimerFits (port s n)) (ha : (port s n).active = some a) :
    endCommand n st (beginTransaction n s) = beginTransaction n (commandEnded n a st s) := by
  rw [endCommand_of_active (a := a) (by rw [port_beginTransaction hfits]; exact ha), commandEnded_beginTransaction hfits]

/-! ## STATUS, SENSE, ACK CHANGE, ABORT (R123 to R125) -/

theorem exec_status (hrun : s.phase = .running) (hfits : TimerFits (port s n)) :
    exec (.status n txn) s = .next (portAnswered n txn .good [] s) :=
  (congrArg Host.Outcome.next (whenRunning_running hrun _)).trans (congrArg _ (answerWith_eq hfits rfl))

theorem exec_sense (hrun : s.phase = .running) (hfits : TimerFits (port s n)) :
    exec (.sense n txn) s = .next (portAnswered n txn .good (senseOf s n) s) := by
  have hsense : senseOf (beginTransaction n s) n = senseOf s n := by
    have hattention : (port (beginTransaction n s) n).attention = (port s n).attention := by
      rw [port_beginTransaction hfits]
      rfl
    simp only [senseOf, hattention]
    rfl
  refine (congrArg Host.Outcome.next (whenRunning_running hrun _)).trans (congrArg _ ?_)
  unfold takeSense
  dsimp only
  rw [hsense, respond_of_fits (by rw [port_beginTransaction hfits]; exact hfits), beginTransaction_of_fits hfits]
  simp only [Per4.modify_modify]
  rfl

theorem exec_ackChange (hrun : s.phase = .running) (hfits : TimerFits (port s n)) :
    exec (.ackChange n txn) s = .next (portAnswered n txn .good []
      { s with ports := s.ports.modify n fun p => { p with attention := false } }) := by
  refine (congrArg Host.Outcome.next (whenRunning_running hrun _)).trans (congrArg _ (answerWith_eq ?_ (congrArg (Prod.mk _) ?_)))
  · rw [port, Per4.get_modify_same]
    exact hfits
  · exact modPort_beginTransaction (f := fun p => { p with attention := false }) hfits (fun _ => rfl) hfits

theorem exec_abort_idle (hrun : s.phase = .running) (hfits : TimerFits (port s n)) (hidle : (port s n).active = none) :
    exec (.abort n txn) s = .next (portAnswered n txn .noCommand [] s) := by
  refine (congrArg Host.Outcome.next (whenRunning_running hrun _)).trans (congrArg _ (answerWith_eq hfits ?_))
  rw [takeAbort, port_beginTransaction hfits]
  exact if_neg (by rw [show (port s n).begun.active = none from hidle]; simp)

theorem exec_abort_active (hrun : s.phase = .running) (hfits : TimerFits (port s n)) (ha : (port s n).active = some a) :
    exec (.abort n txn) s = .next (portAnswered n txn .good [] (commandEnded n a .aborted s)) := by
  refine (congrArg Host.Outcome.next (whenRunning_running hrun _)).trans
    (congrArg _ (answerWith_eq timerFits_commandEnded ?_))
  rw [takeAbort, port_beginTransaction hfits, ← endCommand_beginTransaction hfits ha]
  exact if_pos (by rw [show (port s n).begun.active = some a from ha]; rfl)

/-! ## The idle timer and FLUSH (R122, R126) -/

theorem exec_idleTimeout (hrun : s.phase = .running) (hfits : TimerFits (port s n)) (ha : (port s n).active = some a) (hruns :
    (port s n).idleTimer ≠ none) : exec (.idleTimeout n) s = .next (commandEnded n a .timeout s) := by
  have hc : (port s n).counting = true := hfits.symm.trans (Option.isSome_iff_ne_none.mpr hruns)
  refine (congrArg Host.Outcome.next (whenRunning_running hrun _)).trans (congrArg _ ?_)
  rw [idleEnds, if_pos hc, endCommand_of_active ha]

theorem takeFlush_permitted (hidle : (port s n).active = none) (hgood : flushPermission s n = .good) (hu : unitOf s n = some u) :
    takeFlush n s = if dirtyCount s u = 0 then openAndEnd n flushCommand .good s else (.good, openCommand n flushCommand s) := by
  simp [takeFlush, hidle, hgood, hu]

/-- R122: the state in which a FLUSH waits for its unit's stores. -/
def flushOpened (n : Node) (s : State) : State :=
  { s with
    ports := s.ports.modify n fun p => { p with active := some flushCommand, slots := [], wait := .none, idleTimer := none } }

theorem openCommand_flush : openCommand n flushCommand s = flushOpened n s := rfl

theorem timerFits_flushOpened : TimerFits (port (flushOpened n s) n) := by
  rw [flushOpened, port, Per4.get_modify_same]
  rfl

/-- R113, R122: a FLUSH of an idle port of a unit in service ends at once, or opens. -/
theorem exec_flush_attached (hrun : s.phase = .running) (hfits : TimerFits (port s n)) (hunits : UnitLaw s)
    (hidle : (port s n).active = none) (hnode : (s.units.get u).nodes.get n = true) (hstate : (s.units.get u).state = .attached) :
    (dirtyCount s u = 0 →
      exec (.flush n txn) s = .next (portAnswered n txn .good [] (commandEnded n flushCommand .good s)))
    ∧ (0 < dirtyCount s u → exec (.flush n txn) s = .next (portAnswered n txn .good [] (flushOpened n s))) := by
  have hidle' : (port (beginTransaction n s) n).active = none := by
    rw [port_beginTransaction hfits]
    exact hidle
  have hgood : flushPermission s n = .good := by
    rw [flushPermission_eq hunits hnode, hstate]
    rfl
  have hflush := takeFlush_permitted (s := beginTransaction n s) hidle' hgood (unitOf_eq_some hunits hnode)
  rw [show dirtyCount (beginTransaction n s) u = dirtyCount s u from rfl] at hflush
  rw [exec_flush hrun]
  refine ⟨fun hclean => congrArg _ (answerWith_eq timerFits_commandEnded ?_),
    fun hdirty => congrArg _ (answerWith_eq timerFits_flushOpened ?_)⟩
  · rw [hflush, if_pos hclean, openAndEnd_eq, commandEnded_beginTransaction hfits]
  · rw [hflush, if_neg hdirty.ne', openCommand_flush, beginTransaction_of_fits hfits, beginTransaction_of_fits
        timerFits_flushOpened]
    simp only [flushOpened, Per4.modify_modify]
    rfl

/-! ## Bad and short transactions, the command block of a GIVE (R110, R126) -/

theorem blockCommand_bad {together : Bool} (h : isBadBlock block = true) :
    blockCommand n together block = some (.badCommand n block) := if_pos h

theorem exec_badCommand (hrun : s.phase = .running) (hfits : TimerFits (port s n)) (hlen : block.length = 8)
    (hbad : isBadBlock block = true) : exec (.badCommand n block) s = .next (portAnswered n (block.getD 6 0#8) .badCommand []
      { s with ports := s.ports.modify n fun p => { p with badCommands := p.badCommands + 1 } }) := by
  show (if block.length = 8 then _ else _) = _
  rw [if_pos hlen, whenRunning_running hrun, badBlock, blockCommand_bad hbad]
  refine congrArg _ (answerWith_eq ?_ (congrArg (Prod.mk _) ?_))
  · rw [port, Per4.get_modify_same]
    exact hfits
  · exact modPort_beginTransaction (f := fun p => { p with badCommands := p.badCommands + 1 }) hfits (fun _ => rfl) hfits

theorem exec_shortTransaction (hrun : s.phase = .running) (hfits : TimerFits (port s n)) : exec (.shortTransaction n) s = .next
    { s with
      ports := s.ports.modify n fun p => { p with
        shortTransactions := p.shortTransactions + 1, taking := none, response := List.replicate 8 0xFF#8,
        clocking := p.opening.getD p.spiMode, opening := none } } := by
  refine (congrArg Host.Outcome.next (whenRunning_running hrun _)).trans (congrArg _ ?_)
  rw [shortTransaction, modPort_of_fits (by rw [port_beginTransaction hfits]; exact hfits), beginTransaction_of_fits hfits]
  simp only [Per4.modify_modify]
  rfl

/-- R126: the timer of a port restarts where it runs. -/
theorem exec_giveCommandBlock (hrun : s.phase = .running) (hfits : TimerFits (port s n)) : exec (.giveCommandBlock n) s = .next
    { s with
      ports := s.ports.modify n fun p => { p with
        taking := none, idleTimer := if p.idleTimer.isSome then some p.idleTimeout else none,
        response := List.replicate (8 + 514) 0xFF#8, clocking := p.opening.getD p.spiMode, opening := none } } := by
  have hport := port_beginTransaction hfits
  refine (congrArg Host.Outcome.next (whenRunning_running hrun _)).trans (congrArg _ ?_)
  rw [giveBlockTaken]
  cases hc : (port s n).counting with
  | true =>
    have hruns : (port s n).idleTimer.isSome = true := hfits.trans hc
    have hrestarted : port { s with ports := s.ports.modify n Port.restarted } n = (port s n).restarted :=
        Per4.get_modify_same _ _ _
    have htimer : TimerFits (port { s with ports := s.ports.modify n Port.restarted } n) := by
      rw [hrestarted]
      exact timerFits_restarted hc
    rw [restartIdle_beginTransaction hfits hc,
      modPort_of_fits (by rw [port_beginTransaction htimer, hrestarted]; exact timerFits_restarted hc), beginTransaction_of_fits
          htimer]
    simp only [Per4.modify_modify]
    refine congrArg (fun ports => { s with ports := ports }) (modify_congr ?_)
    rw [hruns]
    rfl
  | false =>
    have hstopped := hfits.stopped hc
    have hbegun : TimerFits (port (beginTransaction n s) n) := by
      rw [hport]
      exact hfits
    rw [restartIdle_idle hbegun (by rw [hport]; exact hc), modPort_of_fits (by rw [hport]; exact hfits), beginTransaction_of_fits
        hfits]
    simp only [Per4.modify_modify]
    refine congrArg (fun ports => { s with ports := ports }) (modify_congr ?_)
    rw [hstopped]
    simp only [Port.begun, hstopped]
    rfl

end

end Sys2Proof.Machine
end

section
/-!
The lines and the command blocks of a port bit by bit (R110, R128, R200), and MEDIA PORT CONFIG (O45).
-/

namespace Sys2Proof.Machine

section
variable {s : State} {n : Node} {txn : Byte} {block rest data bytes : List Byte} {together : Bool} {c : Instr} {mode : Nat}
  {bits : List Bool}

/-! ## MISO (R110, R200) -/

/-- R200: beyond the last byte that the port has to send, the bits of filler follow. -/
theorem getD_flatMap_spiBits (l : List Byte) (i : Nat) :
    (l.flatMap spiBits).getD i true = (l.getD (i / 8) 0xFF#8).getMsbD (i % 8) := by
  have hlt : i % 8 < 8 := Nat.mod_lt _ (by decide)
  rw [List.getD_eq_getElem?_getD (l := l)]
  cases h : l[i / 8]? with
  | some b =>
    have hbit := getD_flatMap_block length_spiBits true l (i / 8) (i % 8) b h hlt
    rw [Nat.div_add_mod] at hbit
    rw [hbit, Option.getD_some, spiBits, List.getD_eq_getElem?_getD]
    simp [hlt]
  | none =>
    have hbeyond := List.getElem?_eq_none_iff.mp h
    rw [getD_flatMap_beyond length_spiBits true l (by omega), Option.getD_none]
    interval_cases i % 8 <;> rfl

theorem miso_selected (hrun : s.phase = .running) (i : Nat) : s.miso n true i = some ((port s n).response.getD i 0xFF#8) :=
  if_pos ⟨hrun, rfl⟩

theorem miso_deselected (i : Nat) : s.miso n false i = none := if_neg fun h => Bool.false_ne_true h.2

theorem misoPin_deselected (hrun : s.phase = .running) : s.misoPin n none = .released := by simp only [State.misoPin, hrun]

/-- R110, R128: at each rising edge the node finds the next bit of what the port sends. -/
theorem misoPin_nodeClocks (hrun : s.phase = .running) {i : Nat} (h : i < bits.length) :
    s.misoPin n (some ((nodeClocks (port s n).clocking bits).take (2 * i + 3)))
      = if ((port s n).response.getD (i / 8) 0xFF#8).getMsbD (i % 8) then .drivenHigh else .drivenLow := by
  simp only [State.misoPin, hrun]
  rw [fallingEdges_nodeClocks _ _ h, getD_flatMap_spiBits]

/-! ## The commands of a transaction (R110, R116, R119) -/

theorem node_of_blockCommand_take {m : Node} (h : blockCommand n together block = some (.take m txn)) : m = n := by
  unfold blockCommand at h
  split_ifs at h
  · cases h
  · split at h
    · split at h <;> cases h
      rfl
    · cases h

theorem node_of_blockCommand_give {m : Node} (h : blockCommand n together block = some (.giveCommandBlock m)) : m = n := by
  unfold blockCommand at h
  split_ifs at h
  · cases h
  · split at h
    · split at h <;> cases h
      rfl
    · cases h

theorem transaction_short (h : bits.length < 64) :
    transactionCommands n together (spiBytes (mosiBits (nodeClocks mode bits))) = [.shortTransaction n] := by
  rw [mosiBits_nodeClocks]
  refine if_pos ?_
  rw [length_spiBytes, commandBytes]
  omega

/-- R110: the bytes that a node clocks in, bit by bit, are those the port takes. -/
theorem spiBytes_nodeClocks : spiBytes (mosiBits (nodeClocks mode (bytes.flatMap spiBits))) = bytes := by
  rw [mosiBits_nodeClocks, spiBytes_flatMap]

theorem not_short (hlen : block.length = 8) : ¬ (block ++ rest).length < commandBytes := by
  rw [List.length_append, hlen, commandBytes]
  omega

theorem take_block (hlen : block.length = 8) : (block ++ rest).take commandBytes = block :=
  List.take_left' hlen

theorem transaction_take (hlen : block.length = 8) (h : blockCommand n together block = some (.take n txn)) :
    transactionCommands n together (block ++ rest)
      = .take n txn :: if takeBytes ≤ (block ++ rest).length then [.blockDelivered n] else [] := by
  rw [transactionCommands, if_neg (not_short hlen), take_block hlen, h]

/-- R110: a command other than GIVE is the one of its block, unless it is a TAKE whose block goes out whole. -/
theorem transaction_single (hlen : block.length = 8) (h : blockCommand n together block = some c)
    (hgive : c ≠ .giveCommandBlock n) (htake : ∀ k : Byte, c = .take n k → (block ++ rest).length < 531) :
    transactionCommands n together (block ++ rest) = [c] := by
  rw [transactionCommands, if_neg (not_short hlen), take_block hlen, h]
  split
  · rename_i m k hc
    cases hc
    obtain rfl := node_of_blockCommand_take h
    have hshort : ¬ takeBytes ≤ (block ++ rest).length := Nat.not_le.mpr (htake k rfl)
    rw [if_neg hshort]
  · rename_i m hc
    cases hc
    obtain rfl := node_of_blockCommand_give h
    exact absurd rfl hgive
  · rename_i hc
    cases hc
    rfl
  · rename_i hc
    cases hc

theorem transaction_give {crc : BitVec 16} (hlen : block.length = 8) (hdata : data.length = 512)
    (h : blockCommand n together block = some (.giveCommandBlock n)) :
    transactionCommands n together (block ++ (data ++ be16 crc.toNat) ++ rest)
      = [.giveCommandBlock n, .give n (block.getD 6 0#8) data crc] := by
  have hgiven : ((block ++ (data ++ be16 crc.toNat) ++ rest).drop commandBytes).take giveBytes = data ++ be16 crc.toNat := by
    rw [List.append_assoc, commandBytes, List.drop_left' hlen]
    exact List.take_left' (by rw [List.length_append, hdata]; rfl)
  have htxn : blockTransaction (block ++ (data ++ be16 crc.toNat) ++ rest) = block.getD 6 0#8 := by
    rw [blockTransaction, List.append_assoc, List.getD_append _ _ _ _ (by omega)]
  have hhigh : (data ++ be16 crc.toNat).getD blockSize 0#8 = BitVec.ofNat 8 (crc.toNat / 256) := by
    rw [List.getD_append_right _ _ _ _ (by rw [hdata, blockSize]), blockSize, hdata]
    rfl
  have hlow : (data ++ be16 crc.toNat).getD (blockSize + 1) 0#8 = BitVec.ofNat 8 crc.toNat := by
    rw [List.getD_append_right _ _ _ _ (by rw [hdata, blockSize]; omega), blockSize, hdata]
    rfl
  have hall : (data ++ be16 crc.toNat).length = giveBytes := by
    rw [List.length_append, hdata]
    rfl
  have hnot : ¬ (block ++ (data ++ be16 crc.toNat) ++ rest).length < commandBytes := by
    rw [List.append_assoc]
    exact not_short hlen
  have hblock : (block ++ (data ++ be16 crc.toNat) ++ rest).take commandBytes = block := by
    rw [List.append_assoc]
    exact take_block hlen
  rw [transactionCommands, if_neg hnot, hblock, h]
  dsimp only
  rw [hgiven, if_pos hall, htxn, hhigh, hlow, tag_be16, show (data ++ be16 crc.toNat).take blockSize = data from List.take_left'
      hdata]

end

end Sys2Proof.Machine
end

section
/-!
The command block that a node sends (R110, R200), and MEDIA PORT CONFIG (R128).
-/

namespace Sys2Proof.Machine

section
variable {s : State} {n : Node} {code count txn crc b mode t0 t1 : Byte} {lba : Word} {together midBlock : Bool} {k : Nat}
    {p : Port}
  {tag : Tag}

/-! ## The command block (R110, R200) -/

/-- R110: the first seven bytes of a command block. -/
def blockCore (code : Byte) (lba : Word) (count txn : Byte) : List Byte := code :: (word32 lba ++ [count, txn])

/-- R200: an LBA that was sent in four bytes reads back as it was. -/
theorem ofNat_u32_word32 (w : Word) : BitVec.ofNat 32 (u32 (BitVec.ofNat 8 (w.toNat / 16777216))
    (BitVec.ofNat 8 (w.toNat / 65536))
    (BitVec.ofNat 8 (w.toNat / 256)) (BitVec.ofNat 8 w.toNat)) = w := by
  have hw := w.isLt
  apply BitVec.eq_of_toNat_eq
  simp only [u32, BitVec.toNat_ofNat]
  omega

theorem isCommandCode_iff : isCommandCode code = true ↔ ¬ (code = 0#8 ∨ 9 < code.toNat) := by
  have hzero : code = 0#8 ↔ code.toNat = 0 := BitVec.toNat_inj.symm
  simp only [isCommandCode, Bool.and_eq_true, decide_eq_true_eq, hzero]
  omega

theorem countFits_iff : countFits count = true ↔ ¬ (count = 0#8 ∨ 64 < count.toNat) := by
  have hzero : count = 0#8 ↔ count.toNat = 0 := BitVec.toNat_inj.symm
  simp only [countFits, Bool.and_eq_true, decide_eq_true_eq, hzero]
  omega

/-- R110: the blocks that get BAD_COMMAND. -/
theorem isBadBlock_iff : isBadBlock (blockCore code lba count txn ++ [crc]) = true
    ↔ crc ≠ crc8 (blockCore code lba count txn) ∨ code = 0#8 ∨ 9 < code.toNat
      ∨ (code = 1#8 ∨ code = 2#8) ∧ (count = 0#8 ∨ 64 < count.toNat) := by
  have hcode := not_iff_comm.mp (isCommandCode_iff (code := code)).symm
  have hcount := not_iff_comm.mp (countFits_iff (count := count)).symm
  have hbad : isBadBlock (blockCore code lba count txn ++ [crc])
      = (crc != crc8 (blockCore code lba count txn) || !isCommandCode code
        || ((code == 0x01#8 || code == 0x02#8) && !countFits count)) := rfl
  simp only [hbad, Bool.or_eq_true, Bool.and_eq_true, bne_iff_ne, beq_iff_eq, Bool.not_eq_true', ← Bool.not_eq_true, hcode,
      hcount,
    or_assoc]

/-- R110, R200: the command that the code of a good block names. -/
theorem blockCommand_good (h : code ≠ 0#8 → code.toNat ≤ 9 → ¬ isBadBlock (blockCore code lba count txn ++ [crc]) = true) :
    (code = 1#8 → blockCommand n together (blockCore code lba count txn ++ [crc]) = some (.read n lba count txn))
    ∧ (code = 2#8 → blockCommand n together (blockCore code lba count txn ++ [crc]) = some (.write n lba count ⟨txn, together⟩))
    ∧ (code = 3#8 → blockCommand n together (blockCore code lba count txn ++ [crc]) = some (.take n txn))
    ∧ (code = 4#8 → blockCommand n together (blockCore code lba count txn ++ [crc]) = some (.giveCommandBlock n))
    ∧ (code = 5#8 → blockCommand n together (blockCore code lba count txn ++ [crc]) = some (.status n txn))
    ∧ (code = 6#8 → blockCommand n together (blockCore code lba count txn ++ [crc]) = some (.sense n txn))
    ∧ (code = 7#8 → blockCommand n together (blockCore code lba count txn ++ [crc]) = some (.flush n txn))
    ∧ (code = 8#8 → blockCommand n together (blockCore code lba count txn ++ [crc]) = some (.ackChange n txn))
    ∧ (code = 9#8 → blockCommand n together (blockCore code lba count txn ++ [crc]) = some (.abort n txn)) := by
  refine ⟨?_, ?_, ?_, ?_, ?_, ?_, ?_, ?_, ?_⟩ <;> rintro rfl <;>
    refine (if_neg (h (by decide) (by decide))).trans ?_
  · exact congrArg (fun w => some (Instr.read n w count txn)) (ofNat_u32_word32 lba)
  · exact congrArg (fun w => some (Instr.write n w count ⟨txn, together⟩)) (ofNat_u32_word32 lba)
  all_goals rfl

/-! ## MEDIA PORT CONFIG (R128) -/

theorem spiMode?_eq (present : Nat) (h : mode = 0#8 ∧ k = 0 ∨ mode = 3#8 ∧ k = 3 ∨ mode = 0xFF#8 ∧ k = present) :
    spiMode? present mode = some k := by
  rcases h with ⟨rfl, rfl⟩ | ⟨rfl, rfl⟩ | ⟨rfl, rfl⟩ <;> rfl

theorem idleTimeoutFrom_eq (present t : Nat) : idleTimeoutFrom present t = if t = 0 then present else max 100 (min 10000 t) :=
  clampOrKeep_eq (by decide) present t

theorem exec_mediaPortConfig (hs : RequestReady s) : exec (.mediaPortConfig tag ⟨[b, mode, t0, t1], midBlock⟩) s
    = .next (serveMediaPortConfig tag [b, mode, t0, t1] (Per4.all midBlock) (hunt s)) :=
  requestMeeting_ready hs { unseenPins with midBlock := Per4.all midBlock } 0x53#8 tag (body := [b, mode, t0, t1])
    (bodyFits_of_length (by simp))

/-- R128: new settings leave the idle timer of a port. -/
theorem timerFits_configure {timeout : Nat} (h : TimerFits p) : TimerFits (p.configure k timeout midBlock) := h

/-- R128: the state in which a port has new settings. -/
def configured (n : Node) (k timeout : Nat) (midBlock : Bool) (s : State) : State :=
  { s with ports := s.ports.modify n fun p => p.configure k (idleTimeoutFrom p.idleTimeout timeout) midBlock }

theorem serveMediaPortConfig_eq (hfits : TimerFits (port s n)) (hb : b.toNat = n.val)
    (hk : spiMode? (port s n).spiMode mode = some k) :
    serveMediaPortConfig tag [b, mode, t0, t1] (Per4.all midBlock) s
      = State.reply tag 0x53#8 .done (mediaPortDetails (configured n k (u16 t0 t1) midBlock s) n)
          (configured n k (u16 t0 t1) midBlock s) := by
  unfold serveMediaPortConfig
  dsimp only
  rw [node?_of_toNat hb]
  dsimp only
  rw [hk]
  dsimp only
  rw [Per4.get_all, modPort_of_fits (f := fun p => p.configure k (idleTimeoutFrom p.idleTimeout (u16 t0 t1)) midBlock)
    (timerFits_configure hfits)]
  rfl

theorem port_configured {timeout : Nat} : port (configured n k timeout midBlock s) n
    = (port s n).configure k (idleTimeoutFrom (port s n).idleTimeout timeout) midBlock := Per4.get_modify_same _ _ _

/-- R128: the port that new settings leave. -/
theorem configure_eq (present t : Nat) : p.configure k (idleTimeoutFrom present t) midBlock = { p with
    spiMode := k
    opening := if midBlock = true ∧ k ≠ p.spiMode then some (p.opening.getD p.spiMode) else p.opening
    idleTimeout := if t = 0 then present else max 100 (min 10000 t) } := by
  rw [Port.configure, idleTimeoutFrom_eq]
  simp only [Bool.and_eq_true, bne_iff_ne]

end

end Sys2Proof.Machine

open Sys2Proof Sys2Proof.Machine

/-- Settles O45: each transaction and event as the state it leads to, the lines bit by bit, the command block by its
bytes, and MEDIA PORT CONFIG by the port it leaves. -/
theorem portStatusEndingsAndSettings : Obligations.PortStatusEndingsAndSettings := by
  refine ⟨fun n txn block s hrun htimer hunits => ?_, fun n together mode txn data block rest bits hlen hdata => ?_,
    fun n together code count txn crc lba block hblock => ?_, fun n tag b mode t0 t1 midBlock k p s hs htimer hb hmode hp => ?_⟩
  · have hfits := htimer.fits n
    exact ⟨exec_status hrun hfits, exec_sense hrun hfits, exec_ackChange hrun hfits, exec_abort_idle hrun hfits,
      fun a => exec_abort_active hrun hfits, fun a => exec_idleTimeout hrun hfits,
      fun u hidle hnode hstate => exec_flush_attached hrun hfits hunits hidle hnode hstate, exec_badCommand hrun hfits,
      exec_shortTransaction hrun hfits, exec_giveCommandBlock hrun hfits, fun i => ⟨miso_deselected i, miso_selected hrun i⟩,
      misoPin_deselected hrun, fun bits i => misoPin_nodeClocks hrun⟩
  · refine ⟨transaction_short, fun c h hgive htake => ?_, fun h hlong => ?_, fun given h => ?_⟩ <;>
      rw [spiBytes_nodeClocks]
    · exact transaction_single hlen h hgive htake
    · rw [transaction_take hlen h, if_pos (show takeBytes ≤ _ from hlong)]
    · exact transaction_give hlen hdata h
  · have hblock : block = blockCore code lba count txn := hblock
    subst hblock
    refine ⟨fun hcrc hcount => blockCommand_good fun hzero hnine hbad => ?_, fun hbad => blockCommand_bad
        (isBadBlock_iff.mpr hbad)⟩
    rcases isBadBlock_iff.mp hbad with hno | hno | hno | ⟨hcode, hno⟩
    · exact hno hcrc
    · exact hzero hno
    · omega
    · obtain ⟨hone, hmost⟩ := hcount hcode
      rcases hno with hno | hno
      · rw [hno] at hone
        exact absurd hone (by decide)
      · omega
  · have hconfigured : (port s n).configure k (idleTimeoutFrom (port s n).idleTimeout (u16 t0 t1)) midBlock = p :=
        (configure_eq _ _).trans hp.symm
    have hport : port (configured n k (u16 t0 t1) midBlock s) n = p := port_configured.trans hconfigured
    have hstate : configured n k (u16 t0 t1) midBlock s = { s with ports := s.ports.set n p } :=
      congrArg (fun q => { s with ports := s.ports.set n q }) hconfigured
    have hready : RequestReady (configured n k (u16 t0 t1) midBlock s) := hs
    have hdetails : mediaPortDetails (configured n k (u16 t0 t1) midBlock (hunt s)) n
        = mediaPortDetails (configured n k (u16 t0 t1) midBlock s) n := rfl
    rw [exec_mediaPortConfig hs, serveMediaPortConfig_eq (s := hunt s) (htimer n) hb (spiMode?_eq _ hmode), hdetails]
    refine congrArg _ ((reply_hunt hready tag 0x53#8 .done _).trans ?_)
    have hspi : p.spiMode = k := congrArg Port.spiMode hp
    rw [mediaPortDetails, hport, hstate, hspi]
    rfl
end
